-- ==== Sys2Proof/Word.lean ====
section
/-!
DEFINITION. The word types of the Acgehan (R10: a word is 64 bits, a byte 8; a v register 256 bits and a w register
2,048 bits, R143).
-/

namespace Sys2Proof

abbrev Byte := BitVec 8
abbrev Word := BitVec 64
abbrev Word32 := BitVec 32
/-- A short-mode vector register (R143). -/
abbrev V256 := BitVec 256
/-- A long-mode vector register (R143). -/
abbrev W2048 := BitVec 2048
/-- The data of one matrix tile register: 1 KiB (R165). -/
abbrev TileData := BitVec 8192

end Sys2Proof
end

