-- ==== Sys2Proof/Machine/Sign.lean ====
section
/-!
DEFINITION. The signatures of firmware images and of attestation reports (R2, R362): SHA-256 (FIPS 180-4) and ECDSA over the curve P-256
(FIPS 186-5). The spec names both and does not restate them; they are PRESUMED to be what these standards define (log 83).
-/

namespace Sys2Proof.Machine

/-! SHA-256. -/

/-- The greatest number below `r + 2 ^ bits` whose power `k` does not exceed `x`, from `r` on. -/
def rootFrom (k x : Nat) : (bits : Nat) → (r : Nat) → Nat
  | 0, r => r
  | n + 1, r => rootFrom k x n (if (r + 2 ^ n) ^ k ≤ x then r + 2 ^ n else r)

/-- The first 32 bits behind the point of the `k`-th root of a number: where the standard takes its constants from. -/
def rootBits (k p : Nat) : BitVec 32 := BitVec.ofNat 32 (rootFrom k (p * 2 ^ (32 * k)) 40 0)

/-- The primes below 312, of which there are 64. -/
def shaPrimes : List Nat := (List.range 312).filter fun p => decide (2 ≤ p) && (List.range 16).all fun i => decide (p ≤ i + 2) || p % (i + 2) != 0

/-- Bytes as one big-endian number. -/
def beNat (bs : List Byte) : Nat := bs.foldl (fun n b => n * 256 + b.toNat) 0
/-- A number as `n` bytes, the most significant first. -/
def beBytes (n x : Nat) : List Byte := (List.range n).map fun i => BitVec.ofNat 8 (x / 256 ^ (n - 1 - i))

/-- A message padded to blocks of 64 bytes. -/
def shaPad (bs : List Byte) : List Byte := bs ++ [0x80#8] ++ List.replicate ((119 - bs.length % 64) % 64) 0 ++ beBytes 8 (8 * bs.length)

/-- A word turned right by each of some amounts, summed bit by bit. -/
def shaTurns (by_ : List Nat) (x : BitVec 32) : BitVec 32 := by_.foldl (fun y n => y ^^^ x.rotateRight n) 0

/-- The hash on its way through a block: the last four words of each of its two sequences, and the next sixteen words of the message. -/
structure ShaState where
  upper : List (BitVec 32)
  lower : List (BitVec 32)
  ahead : List (BitVec 32)
  deriving DecidableEq, Repr, Inhabited

/-- One round, under the constant that belongs to its prime: each sequence gains a word, and so does the message. -/
def shaRound (s : ShaState) (prime : Nat) : ShaState :=
  let u (i : Nat) := s.upper.getD i 0
  let l (i : Nat) := s.lower.getD i 0
  let m (i : Nat) := s.ahead.getD i 0
  let choose := l 2 ^^^ (l 0 &&& (l 1 ^^^ l 2))
  let most := (u 0 &&& (u 1 ||| u 2)) ||| (u 1 &&& u 2)
  let step := l 3 + shaTurns [6, 11, 25] (l 0) + choose + rootBits 3 prime + m 0
  let later := m 0 + (shaTurns [7, 18] (m 1) ^^^ (m 1).ushiftRight 3) + m 9 + (shaTurns [17, 19] (m 14) ^^^ (m 14).ushiftRight 10)
  ⟨(step + shaTurns [2, 13, 22] (u 0) + most) :: s.upper.take 3, (u 3 + step) :: s.lower.take 3, s.ahead.drop 1 ++ [later]⟩

/-- The hash after one block. -/
def shaBlock (h : List (BitVec 32)) (block : List Byte) : List (BitVec 32) :=
  let words := (List.range 16).map fun i => BitVec.ofNat 32 (beNat ((block.drop (4 * i)).take 4))
  let s := shaPrimes.foldl shaRound ⟨h.take 4, h.drop 4, words⟩
  List.zipWith (· + ·) h (s.upper ++ s.lower)

/-- The SHA-256 digest. -/
def sha256 (bs : List Byte) : BitVec 256 :=
  let p := shaPad bs
  let h := ((List.range (p.length / 64)).map fun i => (p.drop (64 * i)).take 64).foldl shaBlock ((shaPrimes.take 8).map (rootBits 2))
  BitVec.ofNat 256 (h.foldl (fun n x => n * 2 ^ 32 + x.toNat) 0)

/-! P-256. -/

def p256P : Nat := 0xffffffff00000001000000000000000000000000ffffffffffffffffffffffff
def p256N : Nat := 0xffffffff00000000ffffffffffffffffbce6faada7179e84f3b9cac2fc632551
def p256B : Nat := 0x5ac635d8aa3a93e7b3ebbd55769886bc651d06b0cc53b0f63bce3c3e27d2604b

/-- A point in affine coordinates; `none` is the point at infinity. -/
abbrev CurvePoint := Option (Nat × Nat)

/-- The base point. -/
def p256G : CurvePoint := some
  (0x6b17d1f2e12c4247f8bce6e563a440f277037d812deb33a0f4a13945d898c296,
   0x4fe342e2fe1a7f9b8ee7eb4a7c0f9e162bce33576b315ececbb6406837bf51f5)

/-- `x` to a power modulo `m`, for a power of at most `fuel` bits. -/
def powMod (m : Nat) : (fuel : Nat) → (x e : Nat) → Nat
  | 0, _, _ => 1 % m
  | n + 1, x, e => let r := powMod m n (x * x % m) (e / 2); if e % 2 = 1 then x * r % m else r

/-- The inverse modulo a prime. -/
def invMod (m x : Nat) : Nat := powMod m 256 (x % m) (m - 2)

def onCurve (x y : Nat) : Bool := decide (x < p256P ∧ y < p256P) && y * y % p256P == (x * x * x + (p256P - 3) * x + p256B) % p256P

/-- The third point on the line of slope `l` through a point and another with abscissa `x2`, mirrored. -/
def chord (l x1 y1 x2 : Nat) : CurvePoint :=
  let x3 := (l * l + 2 * p256P - x1 - x2) % p256P
  some (x3, (l * (x1 + p256P - x3) + p256P - y1) % p256P)

def pointAdd : CurvePoint → CurvePoint → CurvePoint
  | none, q => q
  | p, none => p
  | some (x1, y1), some (x2, y2) =>
    if x1 = x2 then
      if (y1 + y2) % p256P = 0 then none
      else chord ((3 * x1 * x1 + p256P - 3) * invMod p256P (2 * y1) % p256P) x1 y1 x2
    else chord ((y2 + p256P - y1) * invMod p256P (x2 + p256P - x1) % p256P) x1 y1 x2

/-- A multiple of a point, for a factor of at most `fuel` bits. -/
def pointMul : (fuel : Nat) → (k : Nat) → CurvePoint → CurvePoint
  | 0, _, _ => none
  | n + 1, k, p => let r := pointMul n (k / 2) (pointAdd p p); if k % 2 = 1 then pointAdd p r else r

/-- A signature: r and s. -/
structure Signature where
  r : Nat
  s : Nat
  deriving DecidableEq, Repr, Inhabited

/-- A firmware image (R362): its bytes, its security version, its signature, and the vendor's public key that comes with it; where in HBM firmware
loads it, and, of the supervisor image, the entry address that its header names (R365). -/
structure FirmwareImage where
  bytes : List Byte
  version : BitVec 32
  sig : Signature
  key : Nat × Nat
  base : Nat
  entry : Option (BitVec 64)
  deriving DecidableEq, Repr, Inhabited

/-- A digest has a valid signature under a public key. -/
def ecdsaVerify (key : Nat × Nat) (z : BitVec 256) (sig : Signature) : Bool :=
  let w := invMod p256N sig.s
  let u := pointAdd (pointMul 256 (z.toNat * w % p256N) p256G) (pointMul 256 (sig.r * w % p256N) (some key))
  onCurve key.1 key.2 && decide (1 ≤ sig.r ∧ sig.r < p256N ∧ 1 ≤ sig.s ∧ sig.s < p256N) && match u with
    | some (x, _) => x % p256N == sig.r
    | none => false

/-- The signature of a digest with a private key `d` and a per-message number `k`. -/
def ecdsaSign (d k : Nat) (z : BitVec 256) : Signature :=
  match pointMul 256 k p256G with
  | some (x, _) => ⟨x % p256N, invMod p256N k * (z.toNat + x % p256N * d) % p256N⟩
  | none => ⟨0, 0⟩

end Sys2Proof.Machine
end

