-- ==== Sys2Proof/Syntax.lean ====
section
/-!
DEFINITION. The instructions: operand forms and the one inductive `Instr`, a constructor for every row of
spec/opcode_table.json. Rows that are instruction words carry the operands of their encoding (R16-R17, R79, R104, R145,
R171, R196); rows that are steps of the hardware (95_what_each_step_holds.md) carry the name of what they act on.
-/

namespace Sys2Proof

/-- A hart: a strand in a slot of a core, or a copy engine (R15, R206). Cores and engines are numbered over the whole
system: core = module × 1,024 + linear core number (R3); engine = module × 128 + die × 32 + engine. -/
inductive Hart where
  | strand (core slot : Nat)
  | engine (id : Nat)
  deriving DecidableEq, Repr

/-- A scalar source: a g register, a pop from a q port, or a k register (R23, R24). -/
inductive Src where
  | g (r : Fin 16)
  | q (p : Fin 4)
  | k (r : Fin 8)
  deriving DecidableEq, Repr

/-- A scalar destination: a g register or a push to a q port (R23, R24). -/
inductive Dst where
  | g (r : Fin 16)
  | q (p : Fin 4)
  deriving DecidableEq, Repr

/-- The target of EMPTY and FILL (R78). -/
inductive FeReg where
  | g (r : Fin 16)
  | v (r : Fin 16)
  deriving DecidableEq, Repr

/-- The register tested by ISFULL (R78). -/
inductive FeSrc where
  | g (r : Fin 16)
  | v (r : Fin 16)
  | k (r : Fin 8)
  deriving DecidableEq, Repr

/-- MOD[43:41] of the memory layout (R17). -/
inductive Scope where
  | strand | core | cluster | die | package | system
  deriving DecidableEq, Repr

/-- MOD[46:44] of the memory layout (R17). -/
inductive Order where
  | rlx | acq | rel | ar | sc
  deriving DecidableEq, Repr

/-- Order and scope of a memory-class instruction (R17). -/
structure MemMod where
  order : Order
  scope : Scope
  deriving DecidableEq, Repr

/-- Rounding field of a floating-point MOD (R17, R63). -/
inductive Rnd where
  | rne | rtz | rup | rdn | dyn
  deriving DecidableEq, Repr

/-- The sixteen format codes (R58). -/
inductive Fmt where
  | f32 | f64 | h16 | b16 | f8a | f8b | f6 | c4 | s8 | s16 | s32 | s64 | n8 | n16 | n32 | n64
  deriving DecidableEq, Repr

/-- Format and rounding of a floating-point MOD (R17). -/
structure FMod where
  fmt : Fmt
  rnd : Rnd
  deriving DecidableEq, Repr

/-- An immediate by length of the instruction (R36). -/
inductive Imm where
  | short (i : BitVec 16)
  | mid (i : BitVec 48)
  | long (i : BitVec 64)
  deriving DecidableEq, Repr

/-- A displacement or branch offset of the 64- and 96-bit forms (R36, R104). -/
inductive Disp where
  | short (i : BitVec 16)
  | mid (i : BitVec 48)
  deriving DecidableEq, Repr

/-- The coordinate word of R44; `modid = none` is MSEL = 0. -/
structure Coord where
  core : BitVec 3
  clus : BitVec 3
  quad : BitVec 2
  die : BitVec 2
  abs : Bool
  modid : Option (BitVec 14)
  deriving DecidableEq, Repr

/-- A memory operand of OP 0x40 and 0x54: 64-bit form, or the 96-bit window form of kind 0 (R104). -/
inductive WOp where
  | mem (base : Src) (disp : BitVec 16)
  | win (off : Src) (disp : BitVec 16) (c : Coord)
  deriving DecidableEq, Repr

/-- The target of TFWD: a register value read as a coordinate word, or the coordinate word itself (R141). -/
inductive TfwdTarget where
  | reg (b : Src)
  | coord (c : Coord)
  deriving DecidableEq, Repr

/-- The shape word of TSHAPE: from a register in the 64-bit form, X32 in the 96-bit form (R173). -/
inductive ShapeOp where
  | reg (a : Src)
  | word (w : BitVec 32)
  deriving DecidableEq, Repr

/-- The registers of the system register map (R198). -/
inductive SysReg where
  | sstat | smode | fpctl | cbsel | scale (n : Fin 4) | unf (n : Fin 4) | qcfg (n : Fin 4) | tshape (n : Fin 8) | tdirty
  | time | timecmp | tvec | tcause | tpc | tval | rply | tres | tscr | nbpend | ptbr | wdog | mcap | thrank | tttb | mevt
  deriving DecidableEq, Repr

/-- The registers whose MTS has no row of its own in the opcode table (row MTS). -/
inductive PlainReg where
  | smode | scale (n : Fin 4) | unf (n : Fin 4) | qcfg (n : Fin 4) | time | tvec | tcause | tpc | tval | rply | tres
  | tscr | nbpend
  deriving DecidableEq, Repr

/-- Who makes a coherence request at a home (R236): an accepted store still invisible (by its acceptance number), an
outstanding operation of a hart (by its sequence number), or a core on its own (a prefetch, R120) for an address; a page walk of a die (R297), the
arrival of an engine's copy on its object (R131), a combined request (R350), the host DMA unit of a module (R353), the fetch of a hart (R22), and
the dispatcher or firmware for an address. -/
inductive Req where
  | store (i : Nat)
  | op (h : Hart) (n : Nat)
  | core (c : Nat) (pa : Nat)
  | walk (die : Nat) (asid : BitVec 16) (page : Nat)
  | arrival (e n : Nat)
  | combined (n : Nat)
  | dma (m : Nat)
  | fetch (h : Hart)
  | unit (pa : Nat)
  deriving DecidableEq, Repr

/-- A drain request goes to a core or to an engine hart (R119). -/
inductive Agent where
  | core (c : Nat)
  | engine (e : Nat)
  deriving DecidableEq, Repr

/-- What reaches a tile record (R238). -/
inductive TileEvent where
  | read | write | home
  deriving DecidableEq, Repr

/-- One end's view of a link in training (R346): lanes 4, 2 or 1, a lane map, a rate in Gb/s. -/
structure LinkView where
  width : Nat
  lanes : List Nat
  rate : Nat
  deriving DecidableEq, Repr, Inhabited

/-- The classes of packets (R343). -/
inductive PacketClass where
  | ctl | rsp | qhi | req | qlo
  deriving DecidableEq, Repr

/-- What a header flit carries (R341): source and destination module, source hart, gang id (none: the reserved value, R331), class, and the length of
the packet in flits. -/
structure FlitHeader where
  src : Nat
  dst : Nat
  hart : Hart
  gang : Option Nat
  cls : PacketClass
  len : Nat
  deriving DecidableEq, Repr

/-- What a flit carries beside its number and its CRC. -/
inductive FlitBody where
  | header (h : FlitHeader)
  | payload (data : List Byte)
  deriving DecidableEq, Repr

/-- A flit as its sender sent it (R341, R343): its sequence number and its virtual channel. -/
structure Flit where
  seq : BitVec 12
  channel : Nat
  body : FlitBody
  deriving DecidableEq, Repr

/-- Where an uncorrectable error lies (R358). -/
inductive ErrorSite where
  | data (pa : Nat)
  | register (core : Nat)
  | control (gdie : Nat)
  /-- An internal error of a core (R356). -/
  | core (core : Nat)
  /-- An uncorrectable error of a welt (R349): the die that detects it. -/
  | welt (gdie : Nat)
  deriving DecidableEq, Repr

/-- Host-visible registers without behaviour of their own (R354). -/
inductive HostReg where
  | dmabase | dmasize
  | mailbox (off : Nat)
  deriving DecidableEq, Repr

/-- An instruction or hardware step: one constructor per row of spec/opcode_table.json. The switch marker of a word is no
operand: the decoder gives it beside the instruction (R16), and State.word holds it while the word issues. -/
inductive Instr where
  -- scalar integer, register-register (R80)
  | add (d : Dst) (a b : Src)
  | sub (d : Dst) (a b : Src)
  | mul (d : Dst) (a b : Src)
  | mulhs (d : Dst) (a b : Src)
  | and (d : Dst) (a b : Src)
  | or (d : Dst) (a b : Src)
  | xor (d : Dst) (a b : Src)
  | andn (d : Dst) (a b : Src)
  | shl (d : Dst) (a b : Src)
  | shr (d : Dst) (a b : Src)
  | sar (d : Dst) (a b : Src)
  | rol (d : Dst) (a b : Src)
  | ror (d : Dst) (a b : Src)
  | min (d : Dst) (a b : Src)
  | max (d : Dst) (a b : Src)
  | minn (d : Dst) (a b : Src)
  | maxn (d : Dst) (a b : Src)
  | mulhn (d : Dst) (a b : Src)
  -- scalar integer, immediate (R81)
  | addImm (d : Dst) (a : Src) (i : Imm)
  | subImm (d : Dst) (a : Src) (i : Imm)
  | mulImm (d : Dst) (a : Src) (i : Imm)
  | mulhsImm (d : Dst) (a : Src) (i : Imm)
  | andImm (d : Dst) (a : Src) (i : Imm)
  | orImm (d : Dst) (a : Src) (i : Imm)
  | xorImm (d : Dst) (a : Src) (i : Imm)
  | andnImm (d : Dst) (a : Src) (i : Imm)
  | shlImm (d : Dst) (a : Src) (i : Imm)
  | shrImm (d : Dst) (a : Src) (i : Imm)
  | sarImm (d : Dst) (a : Src) (i : Imm)
  | rolImm (d : Dst) (a : Src) (i : Imm)
  | rorImm (d : Dst) (a : Src) (i : Imm)
  | minImm (d : Dst) (a : Src) (i : Imm)
  | maxImm (d : Dst) (a : Src) (i : Imm)
  | minnImm (d : Dst) (a : Src) (i : Imm)
  | maxnImm (d : Dst) (a : Src) (i : Imm)
  | mulhnImm (d : Dst) (a : Src) (i : Imm)
  -- compares (R83)
  | cmpeq (d : Dst) (a b : Src)
  | cmpne (d : Dst) (a b : Src)
  | cmplt (d : Dst) (a b : Src)
  | cmple (d : Dst) (a b : Src)
  | cmpltn (d : Dst) (a b : Src)
  | cmplen (d : Dst) (a b : Src)
  | cmpeqImm (d : Dst) (a : Src) (i : Imm)
  | cmpneImm (d : Dst) (a : Src) (i : Imm)
  | cmpltImm (d : Dst) (a : Src) (i : Imm)
  | cmpleImm (d : Dst) (a : Src) (i : Imm)
  | cmpltnImm (d : Dst) (a : Src) (i : Imm)
  | cmplenImm (d : Dst) (a : Src) (i : Imm)
  -- select, bit fields (R84-R86)
  | sel (d : Dst) (a b c : Src)
  | bext (d : Dst) (a : Src) (pos : BitVec 6) (len : BitVec 7)
  | bexts (d : Dst) (a : Src) (pos : BitVec 6) (len : BitVec 7)
  | bins (d : Dst) (a b : Src) (pos : BitVec 6) (len : BitVec 7)
  | clz (d : Dst) (a : Src)
  | ctz (d : Dst) (a : Src)
  | popc (d : Dst) (a : Src)
  | brev (d : Dst) (a : Src)
  | bswap (d : Dst) (a : Src)
  -- divide (R82)
  | div (d : Dst) (a b : Src)
  | divn (d : Dst) (a b : Src)
  | rem (d : Dst) (a b : Src)
  | remn (d : Dst) (a b : Src)
  -- RNG (R88, R89)
  | rng (d : Dst) (key ctr : Src)
  | rngf32 (d : Dst) (key ctr : Src)
  | rngf64 (d : Dst) (key ctr : Src)
  -- full/empty control, remote register write, literal load (R96, R98, R87)
  | empty (r : FeReg)
  | fill (r : FeReg)
  | isfull (d : Dst) (a : FeSrc)
  | putr (c : Option Coord) (off val : Src) (disp : BitVec 16) (m : MemMod)
  | ldl (d : Fin 16) (i : BitVec 16)
  -- control (R91-R95)
  | br (off : Disp)
  | bz (a : Src) (off : Disp)
  | bnz (a : Src) (off : Disp)
  | bltz (a : Src) (off : Disp)
  | bgez (a : Src) (off : Disp)
  | call (link : Fin 16) (off : Disp)
  | jr (a : Src)
  | callr (link : Fin 16) (a : Src)
  | ret (a : Src)
  | wait (mask : BitVec 16)
  -- loads and stores (R109-R113)
  | ldN8 (d : Dst) (base : Src) (disp : Disp) (m : MemMod)
  | ldN16 (d : Dst) (base : Src) (disp : Disp) (m : MemMod)
  | ldN32 (d : Dst) (base : Src) (disp : Disp) (m : MemMod)
  | ld (d : Dst) (base : Src) (disp : Disp) (m : MemMod)
  | ldS8 (d : Dst) (base : Src) (disp : Disp) (m : MemMod)
  | ldS16 (d : Dst) (base : Src) (disp : Disp) (m : MemMod)
  | ldS32 (d : Dst) (base : Src) (disp : Disp) (m : MemMod)
  | windowLdN8 (kind : BitVec 3) (d : Dst) (off : Src) (disp : BitVec 16) (c : Coord) (m : MemMod)
  | windowLdN16 (kind : BitVec 3) (d : Dst) (off : Src) (disp : BitVec 16) (c : Coord) (m : MemMod)
  | windowLdN32 (kind : BitVec 3) (d : Dst) (off : Src) (disp : BitVec 16) (c : Coord) (m : MemMod)
  | windowLd (kind : BitVec 3) (d : Dst) (off : Src) (disp : BitVec 16) (c : Coord) (m : MemMod)
  | windowLdS8 (kind : BitVec 3) (d : Dst) (off : Src) (disp : BitVec 16) (c : Coord) (m : MemMod)
  | windowLdS16 (kind : BitVec 3) (d : Dst) (off : Src) (disp : BitVec 16) (c : Coord) (m : MemMod)
  | windowLdS32 (kind : BitVec 3) (d : Dst) (off : Src) (disp : BitVec 16) (c : Coord) (m : MemMod)
  | ldbit (d : Dst) (a b : Src) (wm1 : BitVec 6) (sx : Bool) (m : MemMod)
  | stN8 (base data : Src) (disp : Disp) (m : MemMod)
  | stN16 (base data : Src) (disp : Disp) (m : MemMod)
  | stN32 (base data : Src) (disp : Disp) (m : MemMod)
  | st (base data : Src) (disp : Disp) (m : MemMod)
  | stZ (base : Src) (disp : Disp) (m : MemMod)
  | windowStN8 (kind : BitVec 3) (off data : Src) (disp : BitVec 16) (c : Coord) (m : MemMod)
  | windowStN16 (kind : BitVec 3) (off data : Src) (disp : BitVec 16) (c : Coord) (m : MemMod)
  | windowStN32 (kind : BitVec 3) (off data : Src) (disp : BitVec 16) (c : Coord) (m : MemMod)
  | windowSt (kind : BitVec 3) (off data : Src) (disp : BitVec 16) (c : Coord) (m : MemMod)
  | windowStZ (kind : BitVec 3) (off : Src) (disp : BitVec 16) (c : Coord) (m : MemMod)
  | stbit (a b c : Src) (wm1 : BitVec 6) (m : MemMod)
  -- full/empty words, fences, cache (R115-R121)
  | take (d : Dst) (w : WOp) (m : MemMod)
  | put (w : WOp) (data : Src) (m : MemMod)
  | peek (d : Dst) (w : WOp) (m : MemMod)
  | fnc (m : MemMod)
  | fncLt (sc : Scope)
  | fncHv (sc : Scope)
  | pref (base : Src) (disp : Disp) (sc : Scope)
  | prefw (base : Src) (disp : Disp) (sc : Scope)
  | cflush (base : Src) (disp : Disp) (sc : Scope)
  | cinval (base : Src) (disp : Disp) (sc : Scope)
  | isync (sc : Scope)
  -- tiles and migration (R138-R142)
  | tdecl (d : Dst) (base desc : Src) (disp : BitVec 16) (m : MemMod)
  | tundecl (d : Dst) (base : Src) (disp : BitVec 16) (m : MemMod)
  | tfwd (d : Dst) (base : Src) (t : TfwdTarget) (disp : BitVec 16) (m : MemMod)
  | mig (d : Dst) (base : Src) (disp : Disp) (sc : Scope)
  -- atomics (R122)
  | swap (d : Dst) (base b : Src) (disp : Disp) (w32 : Bool) (m : MemMod)
  | cas (d : Dst) (base b c : Src) (disp : Disp) (w32 : Bool) (m : MemMod)
  | aadd (d : Dst) (base b : Src) (disp : Disp) (w32 : Bool) (m : MemMod)
  | aand (d : Dst) (base b : Src) (disp : Disp) (w32 : Bool) (m : MemMod)
  | aor (d : Dst) (base b : Src) (disp : Disp) (w32 : Bool) (m : MemMod)
  | axor (d : Dst) (base b : Src) (disp : Disp) (w32 : Bool) (m : MemMod)
  | amin (d : Dst) (base b : Src) (disp : Disp) (w32 : Bool) (m : MemMod)
  | amax (d : Dst) (base b : Src) (disp : Disp) (w32 : Bool) (m : MemMod)
  | aminn (d : Dst) (base b : Src) (disp : Disp) (w32 : Bool) (m : MemMod)
  | amaxn (d : Dst) (base b : Src) (disp : Disp) (w32 : Bool) (m : MemMod)
  | afadd (d : Dst) (base b : Src) (disp : Disp) (w32 : Bool) (m : MemMod)
  -- reductions, barrier objects, decide-once cells (R124-R137)
  | reddecl (cell desc : Src) (disp : BitVec 16) (m : MemMod)
  | redAdd (cell slot val : Src) (disp : BitVec 16) (m : MemMod)
  | redRd (d : Dst) (cell : Src) (disp : BitVec 16) (m : MemMod)
  | binit (w : WOp) (exp : Src) (m : MemMod)
  | barv (d : Dst) (w : WOp) (cnt : Src) (m : MemMod)
  | bwait (d : Dst) (w : WOp) (ph : Src) (m : MemMod)
  | btest (d : Dst) (w : WOp) (ph : Src) (m : MemMod)
  | propose (pair : Fin 8) (cell val gen : Src) (disp : BitVec 16) (m : MemMod)
  | dread (pair : Fin 8) (cell gen : Src) (disp : BitVec 16) (m : MemMod)
  | dcell (cell gen : Src) (disp : BitVec 16) (m : MemMod)
  | recycle (d : Dst) (cell gen : Src) (disp : BitVec 16) (m : MemMod)
  -- vector (R148-R163)
  | vadd (d a b : Fin 16) (f : FMod)
  | vsub (d a b : Fin 16) (f : FMod)
  | vmul (d a b : Fin 16) (f : FMod)
  | vdiv (d a b : Fin 16) (f : FMod)
  | vmin (d a b : Fin 16) (f : Fmt)
  | vmax (d a b : Fin 16) (f : Fmt)
  | vabs (d a : Fin 16) (f : Fmt)
  | vneg (d a : Fin 16) (f : Fmt)
  | vsqrt (d a : Fin 16) (f : FMod)
  | vfma (d a b c : Fin 16) (f : FMod)
  | vfms (d a b c : Fin 16) (f : FMod)
  | vfnma (d a b c : Fin 16) (f : FMod)
  | vfnms (d a b c : Fin 16) (f : FMod)
  | viadd (d a b : Fin 16) (f : Fmt)
  | visub (d a b : Fin 16) (f : Fmt)
  | vimul (d a b : Fin 16) (f : Fmt)
  | vand (d a b : Fin 16) (f : Fmt)
  | vor (d a b : Fin 16) (f : Fmt)
  | vxor (d a b : Fin 16) (f : Fmt)
  | vshl (d a b : Fin 16) (f : Fmt)
  | vshr (d a b : Fin 16) (f : Fmt)
  | vsar (d a b : Fin 16) (f : Fmt)
  | viadds (d a b : Fin 16) (f : Fmt)
  | vcmpeq (d a b : Fin 16) (f : Fmt)
  | vcmplt (d a b : Fin 16) (f : Fmt)
  | vcmple (d a b : Fin 16) (f : Fmt)
  | vsel (d a b c : Fin 16) (f : Fmt)
  | vperm (d a b : Fin 16) (f : Fmt)
  | vbcast (d : Fin 16) (a : Src) (f : Fmt)
  | vext (d : Dst) (a : Fin 16) (lane : BitVec 8) (f : Fmt)
  | vins (d a : Fin 16) (b : Src) (lane : BitVec 8) (f : Fmt)
  | vrsum (d : Dst) (a : Fin 16) (f : FMod)
  | vrmin (d : Dst) (a : Fin 16) (f : Fmt)
  | vrmax (d : Dst) (a : Fin 16) (f : Fmt)
  | vcvt (d a : Fin 16) (f : FMod) (src : Fmt)
  | vnarrow (d a b : Fin 16) (f : FMod) (src : Fmt)
  | vbdec (d : Fin 16) (base elem : Src) (disp : BitVec 16)
  | vbenc (base desc : Src) (c : Fin 16) (disp : BitVec 16) (r : Rnd)
  | vld (d : Fin 16) (base : Src) (disp : Disp) (m : MemMod)
  | vst (base : Src) (b : Fin 16) (disp : Disp) (m : MemMod)
  | vgath (d : Fin 16) (base : Src) (b : Fin 16) (w : Fin 3) (m : MemMod)
  | vscat (base : Src) (b c : Fin 16) (w : Fin 3) (m : MemMod)
  | vexp2 (d a : Fin 16) (f : FMod)
  | vlog2 (d a : Fin 16) (f : FMod)
  | vrcp (d a : Fin 16) (f : FMod)
  | vrsq (d a : Fin 16) (f : FMod)
  | vtanh (d a : Fin 16) (f : FMod)
  | vrng (d : Fin 16) (key ctr : Src)
  | vrngf32 (d : Fin 16) (key ctr : Src)
  | vrngf64 (d : Fin 16) (key ctr : Src)
  -- matrix (R173-R195)
  | tshape (t : Fin 8) (w : ShapeOp)
  | tzero (t : Fin 8)
  | tld (t : Fin 8) (base pitch : Src) (disp : Disp) (m : MemMod)
  | tldBlk (t : Fin 8) (base pitch e0 : Src) (disp : Disp) (m : MemMod)
  | tst (t : Fin 8) (base pitch : Src) (disp : Disp) (m : MemMod)
  | trowv (d : Fin 16) (t : Fin 8) (idx : Src) (start : BitVec 8) (f : FMod)
  | tcolv (d : Fin 16) (t : Fin 8) (idx : Src) (start : BitVec 8) (f : FMod)
  | vtrow (t : Fin 8) (a : Fin 16) (idx : Src) (start : BitVec 8) (f : FMod)
  | vtcol (t : Fin 8) (a : Fin 16) (idx : Src) (start : BitVec 8) (f : FMod)
  | mma (d a b : Fin 8) (scsel : BitVec 2) (scen : Bool)
  | mmau (d : Fin 8) (a : Src) (b : Fin 8) (scsel : BitVec 2) (scen : Bool)
  | cbload (set : Fin 4) (base : Src) (disp : Disp) (m : MemMod)
  | mucode (a : Src)
  | mmar (d a b : Fin 8)
  | mcmd (d : Dst) (c : Option Coord) (off cmd cap : Src) (disp : BitVec 16) (m : MemMod)
  | msave (base slot : Src) (disp : Disp) (m : MemMod)
  | mrestore (base slot : Src) (disp : Disp) (m : MemMod)
  | tsave (t : Fin 8) (base : Src) (disp : Disp) (m : MemMod)
  | trst (t : Fin 8) (base : Src) (disp : Disp) (m : MemMod)
  -- engines, launch, queues, system (R201-R221)
  | kick (d : Dst) (a b : Src) (m : MemMod)
  | tpost (d : Dst) (base : Src) (disp : BitVec 16) (m : MemMod)
  | spawn (d : Dst) (entry arg : Src) (c : Option Coord)
  | glaunch (d : Dst) (desc : Src) (done : BitVec 64)
  | qbind (port : Fin 4) (a : Src)
  | qsndNb (d : Dst) (port : Fin 4) (b : Src) (m : MemMod)
  | qstat (d : Dst) (port : Fin 4)
  | nbinit (a b : Src) (n : Fin 48)
  | nbarr (d : Dst) (a : Src) (n : Fin 48)
  | nbwait (d : Dst) (a b : Src) (n : Fin 48)
  | bcopy (a b c : Src) (bar : Option (BitVec 64)) (m : MemMod)
  | bcast (a b c : Src) (mask : BitVec 64) (quad die : BitVec 2)
  | mfs (d : Dst) (r : SysReg)
  | mts (r : PlainReg) (a : Src)
  | trap (code : BitVec 16)
  | ecall (code : BitVec 16)
  | tlbinvPg (a b : Src)
  | tlbinvAll (b : Src)
  | twait (d : Dst) (a : Src)
  -- MTS of registers with behaviour of their own (R198)
  | sstatWrite (a : Src)
  | fpctlWrite (a : Src)
  | cbselWrite (a : Src)
  | tshapeWrite (n : Fin 8) (a : Src)
  | tdirtyWrite (a : Src)
  | timecmpWrite (a : Src)
  | wdogWrite (a : Src)
  | mcapWrite (a : Src)
  | ptbrWrite (a : Src)
  | thrankWrite (a : Src)
  | tttbWrite (a : Src)
  | mevtWrite (a : Src)
  -- instructions without operands (R94, R95, R162, R163, R201, R212, R221)
  | yield
  | waitst
  | join
  | retire
  | eret
  | halt
  | vmodeL
  | vmodeS
  -- window stores with effects of their own, by acceptance number of the store (R190, R218, R219, R222)
  | sctlRun (i : Nat)
  | sctlDblClear (i : Nat)
  | qportDataStore (i : Nat)
  | qportBindingStore (i : Nat)
  | tileWindowStore (i : Nat)
  | nbarWindowStore (i : Nat)
  -- host writes through the BAR of module m (R353, R354)
  | dmatail (m : Nat) (v : Word)
  | dmactlEn (m : Nat) (en : Bool)
  | dmactlReset (m : Nat)
  | dmastatErrClear (m : Nat) (v : Word)
  | mbxbell (m : Nat) (v : Word)
  | mbxdoneClear (m : Nat) (v : Word)
  | registerWrite (m : Nat) (r : HostReg) (v : Word)
  -- steps of the hardware (95_what_each_step_holds.md)
  | resultReturn (h : Hart) (n : Nat)
  | storeAccept (h : Hart) (n : Nat)
  | trapEntry (h : Hart)
  | asyncCauseTaken (h : Hart)
  | timer (h : Hart)
  | twaitDeadline (h : Hart) (n : Nat)
  | watchdogExpiry (h : Hart)
  | putrArrival (i : Nat)
  | windowAccessArrival (r : Req)
  | fewordRequestArrival (h : Hart) (n : Nat)
  | barrierOpAtHome (h : Hart) (n : Nat)
  | redAddAtHome (h : Hart) (n : Nat)
  | decideOnceAtHome (h : Hart) (n : Nat) (fromCopy : Bool)
  | drainRequest (h : Hart) (a : Agent)
  | readRequest (r : Req)
  | ownershipRequest (r : Req)
  | eviction (c : Nat) (pa : Nat)
  | ucLoad (h : Hart) (n : Nat)
  | ucStore (r : Req)
  | tileRequest (e : TileEvent) (r : Req)
  | hostRead (m : Nat) (pa : Nat)
  | hostOwnershipRequest (m : Nat) (pa : Nat)
  | backInvalidationResponse (m : Nat) (pa : Nat) (data : Option (BitVec 512))
  | backInvalidationTimeout (m : Nat) (pa : Nat)
  | translationWalk (gdie : Nat) (i : Nat)
  | mcmdCommandArrival (h : Hart) (n : Nat)
  | thawCheck (h : Hart)
  | longContextGrant (gcluster : Nat)
  | engineStart (e : Nat)
  | engineTrap (e : Nat)
  | burstArrival (e : Nat)
  | launchMessage (i : Nat)
  | queuePush (i : Nat)
  | joinDecrement (i : Nat)
  | placement (m : Nat)
  | migrationMessage (i : Nat)
  | automaticMigration (h : Hart)
  | thermalStep (c : Nat) (temp : Nat)
  | powerCapStep (m : Nat) (milliwatts : Nat)
  | thermalTrip (m : Nat) (die : Nat)
  | timedLaunch (m : Nat) (i : Nat)
  | preEmpt (m : Nat) (i : Nat)
  | resume (m : Nat) (i : Nat)
  | gangReport (i : Nat)
  | reportDeadline (m : Nat) (gang : Nat)
  | switchToken (i : Nat)
  | releaseMessage (i : Nat)
  | shareComplete (i : Nat)
  | gridComplete (i : Nat)
  | ptpSync (m : Nat) (offset : Int) (usable : Bool)
  | holdover (m : Nat)
  | freeRunning (m : Nat)
  | timeStep (m : Nat) (by_ : Nat)
  | flitReceive (m : Nat) (port : Nat) (flit : Flit) (crc : BitVec 32)
  | linkTraining (m : Nat) (port : Nat) (mine peer : LinkView)
  | routeUpdate (m : Nat) (dst : Nat) (port : Nat)
  | remoteTimeout (h : Hart) (n : Nat)
  | combinedRequest (i : Nat)
  | weltQuery (i : Nat)
  | dmaDescriptor (m : Nat)
  | hostLinkDown (m : Nat)
  | channelSparing (m : Nat) (stack channel : Nat)
  | uncorrectableError (site : ErrorSite)
  | warmReset (m : Nat) (die : Nat)
  | mchk (m : Nat) (cause : Word)
  | attestationRequest (m : Nat) (nonce : Word)
  | bringUp (m : Nat)
  | matrixInstructionCompletion (c : Nat)
  | remoteStoreAcknowledgement (i : Nat) (ok : Bool)
  | queueGoSignal (h : Hart) (port : Fin 4)
  | hostLinkRetraining (m : Nat)
  | powerCapSetting (m : Nat) (milliwatts : Nat)
  | weltCombiningWindow (gdie : Nat) (ops : List (Hart × Nat))
  deriving DecidableEq, Repr

end Sys2Proof
end

