-- ==== Sys2Proof/Config.lean ====
section
/-!
DEFINITION. What the spec leaves open, as constants without a body: nothing can be proved of their values. Each is applied
to `State.free`, a counter that the step reads and advances, or to the operands it depends on.
-/

namespace Sys2Proof.Config

/-- A choice the spec leaves open between two behaviours (for example old or new fetch block, R22). -/
opaque freeBool : Nat → Bool

/-- An unspecified 64-bit value (for example the read of a reduction cell that ordinary stores have changed, R124). -/
opaque freeWord : Nat → Word

/-- An unspecified tile (R193: what an altered image restores). -/
opaque freeTile : Nat → TileData

/-- A number the spec leaves open, for the reader to bound. -/
opaque freeNat : Nat → Nat

/-- By how many nanoseconds TIME advances in one step (R205: only its order is stated). -/
opaque timeTick : Nat → Nat

/-- The bytes of an MSAVE image that the spec leaves opaque (R192), by image number and offset. -/
opaque imageByte : Nat → Nat → Byte

/-- How many inputs the recording ring holds (R361: 64 MiB of entries whose size is not stated). -/
opaque recordCapacity : Nat

/-- A byte of host memory that the host DMA unit reads, by descriptor count and offset (R353). -/
opaque hostByte : Nat → Nat → Byte

/-- The physical ranges held on the stacks of a die of the system (R359: fixed at bring-up, not stated). -/
opaque stackRanges : Nat → List (Nat × Nat)

/-- Where the items of a fatal dump lie in their region (R360: the section table's layout is not stated). -/
opaque dumpOffset : Nat → Nat

/-- An address of firmware's own, for the area of a take that a warm reset makes (R359). -/
opaque firmwareArea : Nat → Nat

/-- The firmware images that a module finds at a bring-up, by the counter (R362, R364). -/
opaque firmwareImages : Nat → List Machine.FirmwareImage

/-- What is fused into a module (R362): the digest of the vendor key, and the least security version. -/
opaque vendorDigest : Nat → BitVec 256
opaque leastVersion : Nat → BitVec 32

/-- The private key of a module's identity (R362). -/
opaque identityKey : Nat → Nat

/-- The certificate of a module's identity key, which the vendor has signed (R362). -/
opaque certificate : Nat → List Byte

/-- What the two ends of a port's link measure in its training at bring-up, by the counter and the port (R346, R364). -/
opaque linkViews : Nat → Nat → LinkView × LinkView

/-- The channels that the self-test of HBM finds failing, by stack and channel (R357, R364). -/
opaque failedChannels : Nat → List (Nat × Nat)

/-- The physical cores, of the nine of each cluster of a die, that a self-test finds failed, by the counter (R356, R359, R364). -/
opaque failedCores : Nat → List Nat

/-- Where the 16 parking areas of a module begin in its dispatcher memory (R332: not stated). -/
opaque parkingBase : Nat → Nat

/-- Core cycles a watchdog counts in one step of a strand in a counted wait (R271). -/
def watchTick : Nat := 1

end Sys2Proof.Config
end

