-- ==== Sys2Proof/Machine/Assoc.lean ====
section
/-!
DEFINITION. Finite maps as plain lists of pairs, the first entry of a key being the one that counts. They hold the parts of a
system that are many and alike: harts, cores, dies, modules.
-/

namespace Sys2Proof.Machine

/-- The entry of a key. -/
def assocGet {κ α : Type} [DecidableEq κ] (m : List (κ × α)) (k : κ) : Option α :=
  match m with
  | [] => none
  | (k', a) :: rest => if k' = k then some a else assocGet rest k

/-- Replaces the entry of a key, or adds one at the end. -/
def assocSet {κ α : Type} [DecidableEq κ] (m : List (κ × α)) (k : κ) (a : α) : List (κ × α) :=
  match m with
  | [] => [(k, a)]
  | (k', a') :: rest => if k' = k then (k, a) :: rest else (k', a') :: assocSet rest k a

/-- Removes every entry of a key. -/
def assocDel {κ α : Type} [DecidableEq κ] (m : List (κ × α)) (k : κ) : List (κ × α) :=
  m.filter fun p => decide (p.1 ≠ k)

end Sys2Proof.Machine
end

