-- ==== Sys2Proof/WellFormed.lean ====
section
/-!
DEFINITION. Which terms of `Instr` the machine can meet: the operand values that R18 (checks 6 to 8) refuses whatever
the vector mode, and the ranges of the names a hardware step carries. The decoder answers no other instruction words
(Decode.lean). The checks that depend on the mode at issue (R18 checks 8 and 9) stand with issue, in Machine/Operands.lean.
-/

namespace Sys2Proof

/-- The lane width in bits of a format (R58, R143: F8A, F8B and F6 occupy 8-bit lanes; C4 4 bits). -/
def Fmt.width : Fmt → Nat
  | .f32 => 32 | .f64 => 64 | .h16 => 16 | .b16 => 16 | .f8a => 8 | .f8b => 8 | .f6 => 8 | .c4 => 4
  | .s8 => 8 | .s16 => 16 | .s32 => 32 | .s64 => 64 | .n8 => 8 | .n16 => 16 | .n32 => 32 | .n64 => 64

/-- The formats of OP 0x60, 0x61 and the special functions (R144). -/
def Fmt.isArith : Fmt → Bool
  | .f32 | .f64 | .h16 | .b16 => true
  | _ => false

/-- The signed integer formats (R58). -/
def Fmt.isSigned : Fmt → Bool
  | .s8 | .s16 | .s32 | .s64 => true
  | _ => false

/-- The unsigned integer formats (R58). -/
def Fmt.isUnsigned : Fmt → Bool
  | .n8 | .n16 | .n32 | .n64 => true
  | _ => false

/-- The formats of OP 0x62 (R144). -/
def Fmt.isInt (f : Fmt) : Bool := f.isSigned || f.isUnsigned

/-- The formats of compares, lane movement and reductions (R144). -/
def Fmt.isLane (f : Fmt) : Bool := f.isArith || f.isInt

/-- The formats of the slice moves (R172). -/
def Fmt.isTile : Fmt → Bool
  | .f32 | .h16 | .b16 | .f8a | .f8b | .f6 => true
  | _ => false

/-- Order and scope are accepted: the order is listed, and order SC has package scope (R41). -/
def MemMod.ok (m : MemMod) (orders : List Order) : Bool :=
  orders.contains m.order && (m.order != .sc || m.scope == .package)

/-- POS and LEN of the bit-field instructions (R85). -/
def fieldOk (pos : BitVec 6) (len : BitVec 7) : Bool :=
  decide (1 ≤ len.toNat ∧ len.toNat ≤ 64 ∧ pos.toNat + len.toNat ≤ 64)

/-- The orders of loads (R40). -/
def loadOrders : List Order := [.rlx, .acq, .sc]
/-- The orders of stores (R40). -/
def storeOrders : List Order := [.rlx, .rel, .sc]
/-- All five orders (R40). -/
def allOrders : List Order := [.rlx, .acq, .rel, .ar, .sc]

/-- A module id (R1, R44: 14 bits). -/
def moduleOk (m : Nat) : Bool := decide (m < 16384)
/-- A core of the system (R3). -/
def coreOk (c : Nat) : Bool := decide (c < 16384 * 1024)
/-- A die of the system. -/
def dieOk (d : Nat) : Bool := decide (d < 16384 * 4)
/-- A physical address (R229). -/
def paOk (pa : Nat) : Bool := decide (pa < 2 ^ 57)
/-- A hart of the system: eight slots per core (R2), 128 engines per module. -/
def Hart.ok : Hart → Bool
  | .strand c s => coreOk c && decide (s < 8)
  | .engine e => decide (e < 16384 * 128)
/-- A port of the module (R2). -/
def portOk (p : Nat) : Bool := decide (p < 48)
/-- A packet's header (R341): modules and a hart of the system, a 32-bit gang id, 1 to 16 flits. -/
def FlitHeader.ok (h : FlitHeader) : Bool :=
  moduleOk h.src && moduleOk h.dst && h.hart.ok && h.gang.all (fun g => decide (g < 2 ^ 32)) && decide (1 ≤ h.len ∧ h.len ≤ 16)
/-- A flit of 64 bytes on one of ten virtual channels (R341, R343); a payload is a flit's 64 bytes, beside its number and its CRC. -/
def flitOk (x : Flit) : Bool :=
  decide (x.channel < 10) && match x.body with
    | .header h => h.ok
    | .payload data => decide (data.length ≤ 64)
/-- One end's view of a link: a width and a rate of R346, and a lane for each, of the four and the spare. -/
def LinkView.ok (x : LinkView) : Bool :=
  [4, 2, 1].contains x.width && [448, 224, 112].contains x.rate && x.lanes.length == x.width && x.lanes.all fun n => decide (n < 5)

/-- The operand values an instruction word may hold (R41, R42, R85, R144, R146, R154, R172, R196), and the ranges of the
names that a step of the hardware carries. -/
def Instr.wellFormed : Instr → Bool
  | .bext _ _ pos len => fieldOk pos len
  | .bexts _ _ pos len => fieldOk pos len
  | .bins _ _ _ pos len => fieldOk pos len
  | .putr _ _ _ _ m => m.ok [.rlx, .rel]
  | .ldN8 _ _ _ m => m.ok loadOrders
  | .ldN16 _ _ _ m => m.ok loadOrders
  | .ldN32 _ _ _ m => m.ok loadOrders
  | .ld _ _ _ m => m.ok loadOrders
  | .ldS8 _ _ _ m => m.ok loadOrders
  | .ldS16 _ _ _ m => m.ok loadOrders
  | .ldS32 _ _ _ m => m.ok loadOrders
  | .windowLdN8 _ _ _ _ _ m => m.ok loadOrders
  | .windowLdN16 _ _ _ _ _ m => m.ok loadOrders
  | .windowLdN32 _ _ _ _ _ m => m.ok loadOrders
  | .windowLd _ _ _ _ _ m => m.ok loadOrders
  | .windowLdS8 _ _ _ _ _ m => m.ok loadOrders
  | .windowLdS16 _ _ _ _ _ m => m.ok loadOrders
  | .windowLdS32 _ _ _ _ _ m => m.ok loadOrders
  | .ldbit _ _ _ _ _ m => m.ok [.rlx, .acq]
  | .stN8 _ _ _ m => m.ok storeOrders
  | .stN16 _ _ _ m => m.ok storeOrders
  | .stN32 _ _ _ m => m.ok storeOrders
  | .st _ _ _ m => m.ok storeOrders
  | .stZ _ _ m => m.ok storeOrders
  | .windowStN8 _ _ _ _ _ m => m.ok storeOrders
  | .windowStN16 _ _ _ _ _ m => m.ok storeOrders
  | .windowStN32 _ _ _ _ _ m => m.ok storeOrders
  | .windowSt _ _ _ _ _ m => m.ok storeOrders
  | .windowStZ _ _ _ _ m => m.ok storeOrders
  | .stbit _ _ _ _ m => m.ok [.rlx, .rel]
  | .take _ _ m => m.ok allOrders
  | .put _ _ m => m.ok storeOrders
  | .peek _ _ m => m.ok loadOrders
  | .fnc m => m.ok [.acq, .rel, .ar]
  | .fncLt sc => sc != .strand
  | .fncHv sc => sc != .strand
  | .tdecl _ _ _ _ m => m.ok [.rel]
  | .tundecl _ _ _ m => m.ok [.rel]
  | .tfwd _ _ _ _ m => m.ok [.rel]
  | .swap _ _ _ _ _ m => m.ok allOrders
  | .cas _ _ _ _ _ _ m => m.ok allOrders
  | .aadd _ _ _ _ _ m => m.ok allOrders
  | .aand _ _ _ _ _ m => m.ok allOrders
  | .aor _ _ _ _ _ m => m.ok allOrders
  | .axor _ _ _ _ _ m => m.ok allOrders
  | .amin _ _ _ _ _ m => m.ok allOrders
  | .amax _ _ _ _ _ m => m.ok allOrders
  | .aminn _ _ _ _ _ m => m.ok allOrders
  | .amaxn _ _ _ _ _ m => m.ok allOrders
  | .afadd _ _ _ _ _ m => m.ok allOrders
  | .reddecl _ _ _ m => m.ok [.rel]
  | .redAdd _ _ _ _ m => m.ok [.rlx]
  | .redRd _ _ _ m => m.ok [.acq]
  | .binit _ _ m => m.ok [.rel]
  | .barv _ _ _ m => m.ok [.rel, .ar]
  | .bwait _ _ _ m => m.ok [.acq]
  | .btest _ _ _ m => m.ok [.acq]
  | .propose _ _ _ _ _ m => m.ok [.ar, .sc]
  | .dread _ _ _ _ m => m.ok [.acq]
  | .dcell _ _ _ m => m.ok [.rel]
  | .recycle _ _ _ _ m => m.ok [.ar]
  | .vadd _ _ _ f => f.fmt.isArith
  | .vsub _ _ _ f => f.fmt.isArith
  | .vmul _ _ _ f => f.fmt.isArith
  | .vdiv _ _ _ f => f.fmt.isArith
  | .vmin _ _ _ f => f.isArith
  | .vmax _ _ _ f => f.isArith
  | .vabs _ _ f => f.isArith
  | .vneg _ _ f => f.isArith
  | .vsqrt _ _ f => f.fmt.isArith
  | .vfma _ _ _ _ f => f.fmt.isArith
  | .vfms _ _ _ _ f => f.fmt.isArith
  | .vfnma _ _ _ _ f => f.fmt.isArith
  | .vfnms _ _ _ _ f => f.fmt.isArith
  | .viadd _ _ _ f => f.isInt
  | .visub _ _ _ f => f.isInt
  | .vimul _ _ _ f => f.isInt
  | .vand _ _ _ f => f.isInt
  | .vor _ _ _ f => f.isInt
  | .vxor _ _ _ f => f.isInt
  | .vshl _ _ _ f => f.isInt
  | .vshr _ _ _ f => f.isInt
  | .vsar _ _ _ f => f.isInt
  | .viadds _ _ _ f => f.isInt
  | .vcmpeq _ _ _ f => f.isLane
  | .vcmplt _ _ _ f => f.isLane
  | .vcmple _ _ _ f => f.isLane
  | .vsel _ _ _ _ f => f.isLane
  | .vperm _ _ _ f => f.isLane
  | .vbcast _ _ f => f.isLane
  | .vext _ _ _ f => f.isLane
  | .vins _ _ _ _ f => f.isLane
  -- DEDUCED (log 5): an integer VRSUM carries no rounding, as R42 says of integer vector operations
  | .vrsum _ _ f => f.fmt.isLane && (f.fmt.isArith || f.rnd == .rne)
  | .vrmin _ _ f => f.isLane
  | .vrmax _ _ f => f.isLane
  | .vcvt _ _ f src => f.fmt != .c4 && src != .c4
  | .vnarrow _ _ _ f src => f.fmt != .c4 && src != .c4 && decide (f.fmt.width < src.width)
  | .vld _ _ _ m => m.ok [.rlx, .acq]
  | .vst _ _ _ m => m.ok [.rlx, .rel]
  | .vgath _ _ _ _ m => m.ok [.rlx, .acq]
  | .vscat _ _ _ _ m => m.ok [.rlx, .rel]
  | .vexp2 _ _ f => f.fmt.isArith
  | .vlog2 _ _ f => f.fmt.isArith
  | .vrcp _ _ f => f.fmt.isArith
  | .vrsq _ _ f => f.fmt.isArith
  | .vtanh _ _ f => f.fmt.isArith
  | .tld _ _ _ _ m => m.ok [.rlx, .acq]
  | .tldBlk _ _ _ _ _ m => m.ok [.rlx, .acq]
  | .tst _ _ _ _ m => m.ok [.rlx, .rel]
  | .trowv _ _ _ _ f => f.fmt.isTile
  | .tcolv _ _ _ _ f => f.fmt.isTile
  | .vtrow _ _ _ _ f => f.fmt.isTile
  | .vtcol _ _ _ _ f => f.fmt.isTile
  | .cbload _ _ _ m => m.ok [.rlx, .acq]
  | .mcmd _ _ _ _ _ _ m => m.ok [.rlx, .rel]
  | .msave _ _ _ m => m.ok [.rlx, .rel]
  | .mrestore _ _ _ m => m.ok [.rlx, .acq]
  | .tsave _ _ _ m => m.ok [.rlx, .rel]
  | .trst _ _ _ m => m.ok [.rlx, .acq]
  | .kick _ _ _ m => m.ok [.rel]
  | .tpost _ _ _ m => m.ok [.rlx, .rel]
  | .qsndNb _ _ _ m => m.ok [.rlx, .rel]
  | .bcopy _ _ _ _ m => m.ok [.rlx, .rel]
  -- steps of the hardware
  | .dmatail m _ => moduleOk m
  | .dmactlEn m _ => moduleOk m
  | .dmactlReset m => moduleOk m
  | .dmastatErrClear m _ => moduleOk m
  | .mbxbell m _ => moduleOk m
  | .mbxdoneClear m _ => moduleOk m
  | .registerWrite m _ _ => moduleOk m
  | .resultReturn h _ => h.ok
  | .storeAccept h _ => h.ok
  | .trapEntry h => h.ok
  | .asyncCauseTaken h => h.ok
  | .timer h => h.ok
  | .twaitDeadline h _ => h.ok
  | .watchdogExpiry h => h.ok
  | .fewordRequestArrival h _ => h.ok
  | .barrierOpAtHome h _ => h.ok
  | .redAddAtHome h _ => h.ok
  | .decideOnceAtHome h _ _ => h.ok
  | .drainRequest h _ => h.ok
  | .eviction c pa => coreOk c && paOk pa
  | .ucLoad h _ => h.ok
  | .hostRead m pa => moduleOk m && paOk pa
  | .hostOwnershipRequest m pa => moduleOk m && paOk pa
  | .backInvalidationResponse m pa _ => moduleOk m && paOk pa
  | .backInvalidationTimeout m pa => moduleOk m && paOk pa
  | .translationWalk d _ => dieOk d
  | .mcmdCommandArrival h _ => h.ok
  | .thawCheck h => h.ok
  | .longContextGrant c => decide (c < 16384 * 128)
  | .engineStart e => decide (e < 16384 * 128)
  | .engineTrap e => decide (e < 16384 * 128)
  | .burstArrival e => decide (e < 16384 * 128)
  | .placement m => moduleOk m
  | .automaticMigration h => h.ok
  | .thermalStep c _ => coreOk c
  | .powerCapStep m _ => moduleOk m
  | .thermalTrip m d => moduleOk m && decide (d < 4)
  | .timedLaunch m _ => moduleOk m
  | .preEmpt m _ => moduleOk m
  | .resume m _ => moduleOk m
  | .reportDeadline m _ => moduleOk m
  | .ptpSync m _ _ => moduleOk m
  | .holdover m => moduleOk m
  | .freeRunning m => moduleOk m
  | .timeStep m _ => moduleOk m
  | .flitReceive m p x _ => moduleOk m && portOk p && flitOk x
  | .linkTraining m p x y => moduleOk m && portOk p && x.ok && y.ok
  | .routeUpdate m d p => moduleOk m && moduleOk d && portOk p
  | .remoteTimeout h _ => h.ok
  | .dmaDescriptor m => moduleOk m
  | .hostLinkDown m => moduleOk m
  | .channelSparing m s c => moduleOk m && decide (s < 8 ∧ c < 32)
  | .warmReset m d => moduleOk m && decide (d < 4)
  | .mchk m _ => moduleOk m
  | .attestationRequest m _ => moduleOk m
  | .bringUp m => moduleOk m
  | .matrixInstructionCompletion c => coreOk c
  | .queueGoSignal h _ => h.ok
  | .hostLinkRetraining m => moduleOk m
  | .powerCapSetting m _ => moduleOk m
  | .weltCombiningWindow d _ => dieOk d
  | _ => true

end Sys2Proof
end

