-- ==== Sys2Proof/Decode.lean ====
section
/-!
DEFINITION. Decoding and encoding instruction words: the head of R16, the opcode map of R40 to R44, and the encoding
tables R79, R104, R145, R171 and R196. `decode` is total and rejects by name; `encode` writes the same tables the other way.
-/

namespace Sys2Proof

/-- Why a word is refused at decode (R18, checks 2 to 8): the cause, before any question of privilege or mode. -/
inductive DecodeError where
  /-- LEN = 00 where the word is PAD: no instruction stands here and fetch moves on (R19). -/
  | pad
  /-- ILLENC: checks 2, 3, 5 to 8. -/
  | illenc
  /-- ILLOP: check 4. -/
  | illop
  deriving DecidableEq, Repr

/-- What follows the head: nothing, X32 or X64 (R16). -/
inductive Ext where
  | none
  | x32 (x : BitVec 32)
  | x64 (x : BitVec 64)
  deriving DecidableEq, Repr

/-- The fields of an instruction word (R16). -/
structure Head where
  ext : Ext := .none
  sw : Bool
  op : BitVec 8
  d : BitVec 6 := 0
  a : BitVec 6 := 0
  b : BitVec 6 := 0
  c : BitVec 6 := 0
  fn : BitVec 6 := 0
  mod : BitVec 7 := 0
  i16 : BitVec 16 := 0
  deriving DecidableEq, Repr

/-- LEN (R16). -/
def Ext.len : Ext → BitVec 2
  | .none => 1
  | .x32 _ => 2
  | .x64 _ => 3

/-- The length in bytes (R16). -/
def Ext.size : Ext → Nat
  | .none => 8
  | .x32 _ => 12
  | .x64 _ => 16

/-- Bytes 8 to 15 of the word, X32 zero-extended. -/
def Ext.bits : Ext → BitVec 64
  | .none => 0
  | .x32 x => x.zeroExtend 64
  | .x64 x => x

/-- The word of a head: bit 0 is LEN[0] (R16). -/
def Head.toBits (h : Head) : BitVec 128 :=
  h.ext.bits ++ h.i16 ++ h.mod ++ h.fn ++ h.c ++ h.b ++ h.a ++ h.d ++ h.op ++ BitVec.ofBool h.sw ++ h.ext.len

/-- The extension that LEN announces; `none` for LEN = 00. -/
def extOf (w : BitVec 128) : Option Ext :=
  match (w.extractLsb' 0 2).toNat with
  | 1 => some .none
  | 2 => some (.x32 (w.extractLsb' 64 32))
  | 3 => some (.x64 (w.extractLsb' 64 64))
  | _ => Option.none

/-- The head of a word whose LEN is not 00 (R16). -/
def headOf (w : BitVec 128) (e : Ext) : Head where
  ext := e
  sw := w.getLsbD 2
  op := w.extractLsb' 3 8
  d := w.extractLsb' 11 6
  a := w.extractLsb' 17 6
  b := w.extractLsb' 23 6
  c := w.extractLsb' 29 6
  fn := w.extractLsb' 35 6
  mod := w.extractLsb' 41 7
  i16 := w.extractLsb' 48 16

/-! Fields (R23, R43, R78). -/

def Src.enc : Src → BitVec 6
  | .g r => BitVec.ofNat 6 r
  | .q p => BitVec.ofNat 6 (32 + p)
  | .k r => BitVec.ofNat 6 (36 + r)

def Src.dec (x : BitVec 6) : Option Src :=
  if h : x.toNat < 16 then some (.g ⟨x.toNat, h⟩)
  else if x.toNat < 32 then none
  else if h : x.toNat - 32 < 4 then some (.q ⟨x.toNat - 32, h⟩)
  else if h : x.toNat - 36 < 8 then some (.k ⟨x.toNat - 36, h⟩)
  else none

def Dst.enc : Dst → BitVec 6
  | .g r => BitVec.ofNat 6 r
  | .q p => BitVec.ofNat 6 (32 + p)

def Dst.dec (x : BitVec 6) : Option Dst :=
  if h : x.toNat < 16 then some (.g ⟨x.toNat, h⟩)
  else if x.toNat < 32 then none
  else if h : x.toNat - 32 < 4 then some (.q ⟨x.toNat - 32, h⟩)
  else none

def FeReg.enc : FeReg → BitVec 6
  | .g r => BitVec.ofNat 6 r
  | .v r => BitVec.ofNat 6 (16 + r)

def FeReg.dec (x : BitVec 6) : Option FeReg :=
  if h : x.toNat < 16 then some (.g ⟨x.toNat, h⟩)
  else if h : x.toNat - 16 < 16 then some (.v ⟨x.toNat - 16, h⟩)
  else none

def FeSrc.enc : FeSrc → BitVec 6
  | .g r => BitVec.ofNat 6 r
  | .v r => BitVec.ofNat 6 (16 + r)
  | .k r => BitVec.ofNat 6 (36 + r)

def FeSrc.dec (x : BitVec 6) : Option FeSrc :=
  if h : x.toNat < 16 then some (.g ⟨x.toNat, h⟩)
  else if h : x.toNat - 16 < 16 then some (.v ⟨x.toNat - 16, h⟩)
  else if x.toNat < 36 then none
  else if h : x.toNat - 36 < 8 then some (.k ⟨x.toNat - 36, h⟩)
  else none

/-- A g register alone: the link of CALL, the destination of LDL (R78). -/
def gEnc (r : Fin 16) : BitVec 6 := BitVec.ofNat 6 r
def gDec (x : BitVec 6) : Option (Fin 16) := if h : x.toNat < 16 then some ⟨x.toNat, h⟩ else none

/-- A vector register (R23). -/
def vecEnc (r : Fin 16) : BitVec 6 := BitVec.ofNat 6 (16 + r)
def vecDec (x : BitVec 6) : Option (Fin 16) :=
  if x.toNat < 16 then none else if h : x.toNat - 16 < 16 then some ⟨x.toNat - 16, h⟩ else none

/-- A tile register (R43). -/
def tileEnc (t : Fin 8) : BitVec 6 := BitVec.ofNat 6 t
def tileDec (x : BitVec 6) : Option (Fin 8) := if h : x.toNat < 8 then some ⟨x.toNat, h⟩ else none

/-- A codebook set (R171) and a queue port field (R196). -/
def setEnc (t : Fin 4) : BitVec 6 := BitVec.ofNat 6 t
def setDec (x : BitVec 6) : Option (Fin 4) := if h : x.toNat < 4 then some ⟨x.toNat, h⟩ else none
def portEnc (p : Fin 4) : BitVec 6 := BitVec.ofNat 6 (32 + p)
def portDec (x : BitVec 6) : Option (Fin 4) :=
  if x.toNat < 32 then none else if h : x.toNat - 32 < 4 then some ⟨x.toNat - 32, h⟩ else none

/-- An even g register, named by its pair (R105). -/
def pairEnc (p : Fin 8) : BitVec 6 := BitVec.ofNat 6 (2 * p)
def pairDec (x : BitVec 6) : Option (Fin 8) :=
  if x.toNat % 2 = 0 then (if h : x.toNat / 2 < 8 then some ⟨x.toNat / 2, h⟩ else none) else none

/-! MOD (R17). -/

def Scope.enc : Scope → BitVec 3
  | .strand => 0 | .core => 1 | .cluster => 2 | .die => 3 | .package => 4 | .system => 5

def Scope.dec (x : BitVec 3) : Option Scope :=
  match x.toNat with
  | 0 => some .strand | 1 => some .core | 2 => some .cluster | 3 => some .die | 4 => some .package | 5 => some .system
  | _ => none

def Order.enc : Order → BitVec 3
  | .rlx => 0 | .acq => 1 | .rel => 2 | .ar => 3 | .sc => 4

def Order.dec (x : BitVec 3) : Option Order :=
  match x.toNat with
  | 0 => some .rlx | 1 => some .acq | 2 => some .rel | 3 => some .ar | 4 => some .sc
  | _ => none

/-- The memory layout of MOD, with MOD[47] given. -/
def MemMod.enc (hi : Bool) (m : MemMod) : BitVec 7 := BitVec.ofBool hi ++ m.order.enc ++ m.scope.enc
def MemMod.dec (x : BitVec 7) : Option MemMod := do
  let o ← Order.dec (x.extractLsb' 3 3)
  let s ← Scope.dec (x.extractLsb' 0 3)
  some ⟨o, s⟩
/-- MOD[47]. -/
def modHi (x : BitVec 7) : Bool := x.getLsbD 6

def Rnd.enc : Rnd → BitVec 3
  | .rne => 0 | .rtz => 1 | .rup => 2 | .rdn => 3 | .dyn => 4

def Rnd.dec (x : BitVec 3) : Option Rnd :=
  match x.toNat with
  | 0 => some .rne | 1 => some .rtz | 2 => some .rup | 3 => some .rdn | 4 => some .dyn
  | _ => none

/-- The format codes of R58. -/
def Fmt.enc : Fmt → BitVec 4
  | .f32 => 0 | .f64 => 1 | .h16 => 2 | .b16 => 3 | .f8a => 4 | .f8b => 5 | .f6 => 6 | .c4 => 7
  | .s8 => 8 | .s16 => 9 | .s32 => 10 | .s64 => 11 | .n8 => 12 | .n16 => 13 | .n32 => 14 | .n64 => 15

def Fmt.dec (x : BitVec 4) : Fmt :=
  match x.toNat with
  | 0 => .f32 | 1 => .f64 | 2 => .h16 | 3 => .b16 | 4 => .f8a | 5 => .f8b | 6 => .f6 | 7 => .c4
  | 8 => .s8 | 9 => .s16 | 10 => .s32 | 11 => .s64 | 12 => .n8 | 13 => .n16 | 14 => .n32 | _ => .n64

def FMod.enc (f : FMod) : BitVec 7 := f.fmt.enc ++ f.rnd.enc
def FMod.dec (x : BitVec 7) : Option FMod := do
  let r ← Rnd.dec (x.extractLsb' 0 3)
  some ⟨Fmt.dec (x.extractLsb' 3 4), r⟩
/-- A format with MOD[43:41] = 0 (R146). -/
def fmtEnc (f : Fmt) : BitVec 7 := f.enc ++ (0 : BitVec 3)
def fmtDec (x : BitVec 7) : Option Fmt :=
  if x.extractLsb' 0 3 = 0 then some (Fmt.dec (x.extractLsb' 3 4)) else none

/-! Immediates and coordinates (R36, R44). -/

def Imm.ext : Imm → Ext
  | .short _ => .none
  | .mid x => .x32 (x.extractLsb' 16 32)
  | .long x => .x64 x
def Imm.i16 : Imm → BitVec 16
  | .short x => x
  | .mid x => x.extractLsb' 0 16
  | .long _ => 0
def Imm.dec (e : Ext) (i : BitVec 16) : Option Imm :=
  match e with
  | .none => some (.short i)
  | .x32 x => some (.mid (x ++ i))
  | .x64 x => if i = 0 then some (.long x) else none

def Disp.ext : Disp → Ext
  | .short _ => .none
  | .mid x => .x32 (x.extractLsb' 16 32)
def Disp.i16 : Disp → BitVec 16
  | .short x => x
  | .mid x => x.extractLsb' 0 16
def Disp.dec (e : Ext) (i : BitVec 16) : Option Disp :=
  match e with
  | .none => some (.short i)
  | .x32 x => some (.mid (x ++ i))
  | .x64 _ => none

def Coord.enc (c : Coord) : BitVec 32 :=
  (match c.modid with | some m => m | none => 0) ++ BitVec.ofBool c.modid.isSome ++ BitVec.ofBool c.abs ++
    (0 : BitVec 6) ++ c.die ++ c.quad ++ c.clus ++ c.core

/-- A coordinate word: bits [15:10] zero, and MODID zero when MSEL = 0 (R44). -/
def Coord.dec (x : BitVec 32) : Option Coord :=
  let c := fun (m : Option (BitVec 14)) =>
    Coord.mk (x.extractLsb' 0 3) (x.extractLsb' 3 3) (x.extractLsb' 6 2) (x.extractLsb' 8 2) (x.getLsbD 16) m
  if x.extractLsb' 10 6 ≠ 0 then none
  else if x.getLsbD 17 then some (c (some (x.extractLsb' 18 14)))
  else if x.extractLsb' 18 14 ≠ 0 then none
  else some (c none)

/-- The coordinate of the 96-bit form; `none` in the 64-bit form (R98, R171). -/
def coordDec : Ext → Option (Option Coord)
  | .none => some none
  | .x32 x => (Coord.dec x).map some
  | .x64 _ => none
def coordExt : Option Coord → Ext
  | none => .none
  | some c => .x32 c.enc
/-- The coordinate of a 128-bit SPAWN: X64[63:32] is zero (R196). -/
def spawnCoordDec : Ext → Option (Option Coord)
  | .none => some none
  | .x32 _ => none
  | .x64 x => if x.extractLsb' 32 32 = 0 then (Coord.dec (x.extractLsb' 0 32)).map some else none
def spawnCoordExt : Option Coord → Ext
  | none => .none
  | some c => .x64 ((0 : BitVec 32) ++ c.enc)

/-- The operand of OP 0x40 and 0x54 (R104). -/
def WOp.dec (h : Head) : Option WOp := do
  let a ← Src.dec h.a
  match h.ext with
  | .none => some (.mem a h.i16)
  | .x32 x => do
    let c ← Coord.dec x
    some (.win a h.i16 c)
  | .x64 _ => none
def WOp.ext : WOp → Ext
  | .mem _ _ => .none
  | .win _ _ c => .x32 c.enc
def WOp.base : WOp → Src
  | .mem a _ => a
  | .win a _ _ => a
def WOp.i16 : WOp → BitVec 16
  | .mem _ i => i
  | .win _ i _ => i

/-- The 64-bit completion, barrier or mask field of a 128-bit form whose 64-bit form leaves it out (R196). -/
def x64Dec : Ext → Option (Option (BitVec 64))
  | .none => some none
  | .x32 _ => none
  | .x64 x => some (some x)
def x64Ext : Option (BitVec 64) → Ext
  | none => .none
  | some x => .x64 x

/-- The system register map (R198): the row MTS. -/
def SysReg.enc : SysReg → BitVec 12
  | .sstat => 0x000 | .smode => 0x001 | .fpctl => 0x002 | .cbsel => 0x003
  | .scale n => BitVec.ofNat 12 (0x004 + n) | .unf n => BitVec.ofNat 12 (0x008 + n)
  | .qcfg n => BitVec.ofNat 12 (0x00C + n) | .tshape n => BitVec.ofNat 12 (0x010 + n)
  | .tdirty => 0x018 | .time => 0x020 | .timecmp => 0x021
  | .tvec => 0x080 | .tcause => 0x081 | .tpc => 0x082 | .tval => 0x083 | .rply => 0x084 | .tres => 0x085
  | .tscr => 0x086 | .nbpend => 0x087 | .ptbr => 0x088
  | .wdog => 0x0C0 | .mcap => 0x0C1 | .thrank => 0x0C2 | .tttb => 0x0C3 | .mevt => 0x0C4

def SysReg.dec (x : BitVec 12) : Option SysReg :=
  if h : x.toNat - 0x004 < 4 ∧ 0x004 ≤ x.toNat then some (.scale ⟨x.toNat - 0x004, h.1⟩)
  else if h : x.toNat - 0x008 < 4 ∧ 0x008 ≤ x.toNat then some (.unf ⟨x.toNat - 0x008, h.1⟩)
  else if h : x.toNat - 0x00C < 4 ∧ 0x00C ≤ x.toNat then some (.qcfg ⟨x.toNat - 0x00C, h.1⟩)
  else if h : x.toNat - 0x010 < 8 ∧ 0x010 ≤ x.toNat then some (.tshape ⟨x.toNat - 0x010, h.1⟩)
  else match x.toNat with
  | 0x000 => some .sstat | 0x001 => some .smode | 0x002 => some .fpctl | 0x003 => some .cbsel
  | 0x018 => some .tdirty | 0x020 => some .time | 0x021 => some .timecmp
  | 0x080 => some .tvec | 0x081 => some .tcause | 0x082 => some .tpc | 0x083 => some .tval | 0x084 => some .rply
  | 0x085 => some .tres | 0x086 => some .tscr | 0x087 => some .nbpend | 0x088 => some .ptbr
  | 0x0C0 => some .wdog | 0x0C1 => some .mcap | 0x0C2 => some .thrank | 0x0C3 => some .tttb | 0x0C4 => some .mevt
  | _ => none

def PlainReg.toSys : PlainReg → SysReg
  | .smode => .smode | .scale n => .scale n | .unf n => .unf n | .qcfg n => .qcfg n | .time => .time
  | .tvec => .tvec | .tcause => .tcause | .tpc => .tpc | .tval => .tval | .rply => .rply | .tres => .tres
  | .tscr => .tscr | .nbpend => .nbpend

/-- Which row of the opcode table an MTS of a register belongs to. -/
def mtsInstr (a : Src) : SysReg → Instr
  | .sstat => .sstatWrite a
  | .smode => .mts .smode a
  | .fpctl => .fpctlWrite a
  | .cbsel => .cbselWrite a
  | .scale n => .mts (.scale n) a
  | .unf n => .mts (.unf n) a
  | .qcfg n => .mts (.qcfg n) a
  | .tshape n => .tshapeWrite n a
  | .tdirty => .tdirtyWrite a
  | .time => .mts .time a
  | .timecmp => .timecmpWrite a
  | .tvec => .mts .tvec a
  | .tcause => .mts .tcause a
  | .tpc => .mts .tpc a
  | .tval => .mts .tval a
  | .rply => .mts .rply a
  | .tres => .mts .tres a
  | .tscr => .mts .tscr a
  | .nbpend => .mts .nbpend a
  | .ptbr => .ptbrWrite a
  | .wdog => .wdogWrite a
  | .mcap => .mcapWrite a
  | .thrank => .thrankWrite a
  | .tttb => .tttbWrite a
  | .mevt => .mevtWrite a

/-- A condition on fields that the encoding table states. -/
def need (p : Bool) : Option Unit := if p then some () else none

/-- Fields that must be zero (R18, check 7). -/
def Head.bZero (h : Head) : Bool := h.b == 0
def Head.cZero (h : Head) : Bool := h.c == 0
def Head.is64 (h : Head) : Bool := h.ext == .none
def Head.bare (h : Head) : Bool := h.ext == .none && h.mod == 0 && h.i16 == 0

/-- OP 0x00 (R40). -/
def decAlu (h : Head) : Option Instr := do
  need (h.bare && h.cZero)
  let d ← Dst.dec h.d
  let a ← Src.dec h.a
  let b ← Src.dec h.b
  match h.fn.toNat with
  | 0 => some (.add d a b)
  | 1 => some (.sub d a b)
  | 2 => some (.mul d a b)
  | 3 => some (.mulhs d a b)
  | 4 => some (.and d a b)
  | 5 => some (.or d a b)
  | 6 => some (.xor d a b)
  | 7 => some (.andn d a b)
  | 8 => some (.shl d a b)
  | 9 => some (.shr d a b)
  | 10 => some (.sar d a b)
  | 11 => some (.rol d a b)
  | 12 => some (.ror d a b)
  | 13 => some (.min d a b)
  | 14 => some (.max d a b)
  | 15 => some (.minn d a b)
  | 16 => some (.maxn d a b)
  | 17 => some (.mulhn d a b)
  | _ => none

/-- OP 0x01 (R40). -/
def decAluImm (h : Head) : Option Instr := do
  need (h.mod == 0 && h.bZero && h.cZero)
  let d ← Dst.dec h.d
  let a ← Src.dec h.a
  let i ← Imm.dec h.ext h.i16
  match h.fn.toNat with
  | 0 => some (.addImm d a i)
  | 1 => some (.subImm d a i)
  | 2 => some (.mulImm d a i)
  | 3 => some (.mulhsImm d a i)
  | 4 => some (.andImm d a i)
  | 5 => some (.orImm d a i)
  | 6 => some (.xorImm d a i)
  | 7 => some (.andnImm d a i)
  | 8 => some (.shlImm d a i)
  | 9 => some (.shrImm d a i)
  | 10 => some (.sarImm d a i)
  | 11 => some (.rolImm d a i)
  | 12 => some (.rorImm d a i)
  | 13 => some (.minImm d a i)
  | 14 => some (.maxImm d a i)
  | 15 => some (.minnImm d a i)
  | 16 => some (.maxnImm d a i)
  | 17 => some (.mulhnImm d a i)
  | _ => none

/-- OP 0x02 (R40). -/
def decCmp (h : Head) : Option Instr := do
  need (h.bare && h.cZero)
  let d ← Dst.dec h.d
  let a ← Src.dec h.a
  let b ← Src.dec h.b
  match h.fn.toNat with
  | 0 => some (.cmpeq d a b)
  | 1 => some (.cmpne d a b)
  | 2 => some (.cmplt d a b)
  | 3 => some (.cmple d a b)
  | 4 => some (.cmpltn d a b)
  | 5 => some (.cmplen d a b)
  | _ => none

/-- OP 0x03 (R40). -/
def decCmpImm (h : Head) : Option Instr := do
  need (h.mod == 0 && h.bZero && h.cZero)
  let d ← Dst.dec h.d
  let a ← Src.dec h.a
  let i ← Imm.dec h.ext h.i16
  match h.fn.toNat with
  | 0 => some (.cmpeqImm d a i)
  | 1 => some (.cmpneImm d a i)
  | 2 => some (.cmpltImm d a i)
  | 3 => some (.cmpleImm d a i)
  | 4 => some (.cmpltnImm d a i)
  | 5 => some (.cmplenImm d a i)
  | _ => none

/-- OP 0x04 (R40). -/
def decSel (h : Head) : Option Instr := do
  need (h.bare && h.fn == 0)
  let d ← Dst.dec h.d
  let a ← Src.dec h.a
  let b ← Src.dec h.b
  let c ← Src.dec h.c
  some (.sel d a b c)

/-- OP 0x05 (R40). -/
def decBits (h : Head) : Option Instr := do
  need (h.is64 && h.mod == 0 && h.cZero)
  let d ← Dst.dec h.d
  let a ← Src.dec h.a
  let pos := h.i16.extractLsb' 0 6
  let len := h.i16.extractLsb' 6 7
  let fieldFree := h.i16.extractLsb' 13 3 == 0
  match h.fn.toNat with
  | 0 => do need (h.bZero && fieldFree); some (.bext d a pos len)
  | 1 => do need (h.bZero && fieldFree); some (.bexts d a pos len)
  | 2 => do
    need fieldFree
    let b ← Src.dec h.b
    some (.bins d a b pos len)
  | 3 => do need (h.bZero && h.i16 == 0); some (.clz d a)
  | 4 => do need (h.bZero && h.i16 == 0); some (.ctz d a)
  | 5 => do need (h.bZero && h.i16 == 0); some (.popc d a)
  | 6 => do need (h.bZero && h.i16 == 0); some (.brev d a)
  | 7 => do need (h.bZero && h.i16 == 0); some (.bswap d a)
  | _ => none

/-- OP 0x06 (R40). -/
def decDiv (h : Head) : Option Instr := do
  need (h.bare && h.cZero)
  let d ← Dst.dec h.d
  let a ← Src.dec h.a
  let b ← Src.dec h.b
  match h.fn.toNat with
  | 0 => some (.div d a b)
  | 1 => some (.divn d a b)
  | 2 => some (.rem d a b)
  | 3 => some (.remn d a b)
  | _ => none

/-- OP 0x08 (R40). -/
def decRng (h : Head) : Option Instr := do
  need (h.bare && h.cZero)
  let d ← Dst.dec h.d
  let a ← Src.dec h.a
  let b ← Src.dec h.b
  match h.fn.toNat with
  | 0 => some (.rng d a b)
  | 1 => some (.rngf32 d a b)
  | 2 => some (.rngf64 d a b)
  | _ => none

/-- OP 0x09 (R40). -/
def decFe (h : Head) : Option Instr := do
  need (h.bare && h.bZero && h.cZero)
  match h.fn.toNat with
  | 0 => do
    need (h.a == 0)
    let r ← FeReg.dec h.d
    some (.empty r)
  | 1 => do
    need (h.a == 0)
    let r ← FeReg.dec h.d
    some (.fill r)
  | 2 => do
    let d ← Dst.dec h.d
    let a ← FeSrc.dec h.a
    some (.isfull d a)
  | _ => none

/-- OP 0x0A (R40). -/
def decPutr (h : Head) : Option Instr := do
  need (h.fn == 0 && h.d == 0 && h.cZero && !modHi h.mod)
  let c ← coordDec h.ext
  let a ← Src.dec h.a
  let b ← Src.dec h.b
  let m ← MemMod.dec h.mod
  some (.putr c a b h.i16 m)

/-- OP 0x1E (R40). -/
def decLdl (h : Head) : Option Instr := do
  need (h.is64 && h.fn == 0 && h.mod == 0 && h.a == 0 && h.bZero && h.cZero)
  let d ← gDec h.d
  some (.ldl d h.i16)

/-- OP 0x20 (R40). -/
def decBr (h : Head) : Option Instr := do
  need (h.fn == 0 && h.mod == 0 && h.d == 0 && h.a == 0 && h.bZero && h.cZero)
  let o ← Disp.dec h.ext h.i16
  some (.br o)

/-- OP 0x21 (R40). -/
def decCondBr (h : Head) : Option Instr := do
  need (h.mod == 0 && h.d == 0 && h.bZero && h.cZero)
  let a ← Src.dec h.a
  let o ← Disp.dec h.ext h.i16
  match h.fn.toNat with
  | 0 => some (.bz a o)
  | 1 => some (.bnz a o)
  | 2 => some (.bltz a o)
  | 3 => some (.bgez a o)
  | _ => none

/-- OP 0x22 (R40). -/
def decCall (h : Head) : Option Instr := do
  need (h.fn == 0 && h.mod == 0 && h.a == 0 && h.bZero && h.cZero)
  let d ← gDec h.d
  let o ← Disp.dec h.ext h.i16
  some (.call d o)

/-- OP 0x23 (R40). -/
def decIndirect (h : Head) : Option Instr := do
  need (h.bare && h.bZero && h.cZero)
  let a ← Src.dec h.a
  match h.fn.toNat with
  | 0 => do need (h.d == 0); some (.jr a)
  | 1 => do
    let d ← gDec h.d
    some (.callr d a)
  | _ => none

/-- OP 0x24 (R40). -/
def decRet (h : Head) : Option Instr := do
  need (h.bare && h.fn == 0 && h.d == 0 && h.bZero && h.cZero)
  let a ← Src.dec h.a
  some (.ret a)

/-- OP 0x25 (R40). -/
def decYield (h : Head) : Option Instr := do
  need (h.bare && h.d == 0 && h.a == 0 && h.bZero && h.cZero && h.fn == 0)
  some .yield

/-- OP 0x26 (R40). -/
def decWait (h : Head) : Option Instr := do
  need (h.is64 && h.mod == 0 && h.d == 0 && h.a == 0 && h.bZero && h.cZero)
  match h.fn.toNat with
  | 0 => some (.wait h.i16)
  | 1 => do need (h.i16 == 0); some .waitst
  | _ => none

/-- OP 0x30 (R40). -/
def decLd (h : Head) : Option Instr := do
  need (h.bZero && h.cZero && !modHi h.mod)
  let d ← Dst.dec h.d
  let a ← Src.dec h.a
  let o ← Disp.dec h.ext h.i16
  let m ← MemMod.dec h.mod
  match h.fn.toNat with
  | 0 => some (.ldN8 d a o m)
  | 1 => some (.ldN16 d a o m)
  | 2 => some (.ldN32 d a o m)
  | 3 => some (.ld d a o m)
  | 4 => some (.ldS8 d a o m)
  | 5 => some (.ldS16 d a o m)
  | 6 => some (.ldS32 d a o m)
  | _ => none

/-- OP 0x31 (R40). -/
def decLdbit (h : Head) : Option Instr := do
  need (h.is64 && h.fn == 0 && h.cZero && !modHi h.mod && h.i16.extractLsb' 7 9 == 0)
  let d ← Dst.dec h.d
  let a ← Src.dec h.a
  let b ← Src.dec h.b
  let m ← MemMod.dec h.mod
  some (.ldbit d a b (h.i16.extractLsb' 0 6) (h.i16.getLsbD 6) m)

/-- OP 0x32 (R40). -/
def decWinLd (h : Head) : Option Instr := do
  need (h.bZero && h.cZero && !modHi h.mod)
  let d ← Dst.dec h.d
  let a ← Src.dec h.a
  let c ← (← coordDec h.ext)
  let m ← MemMod.dec h.mod
  let k := h.fn.extractLsb' 3 3
  match (h.fn.extractLsb' 0 3).toNat with
  | 0 => some (.windowLdN8 k d a h.i16 c m)
  | 1 => some (.windowLdN16 k d a h.i16 c m)
  | 2 => some (.windowLdN32 k d a h.i16 c m)
  | 3 => some (.windowLd k d a h.i16 c m)
  | 4 => some (.windowLdS8 k d a h.i16 c m)
  | 5 => some (.windowLdS16 k d a h.i16 c m)
  | 6 => some (.windowLdS32 k d a h.i16 c m)
  | _ => none

/-- OP 0x38 (R40). -/
def decSt (h : Head) : Option Instr := do
  need (h.d == 0 && h.cZero && !modHi h.mod)
  let a ← Src.dec h.a
  let b ← Src.dec h.b
  let o ← Disp.dec h.ext h.i16
  let m ← MemMod.dec h.mod
  match h.fn.toNat with
  | 0 => some (.stN8 a b o m)
  | 1 => some (.stN16 a b o m)
  | 2 => some (.stN32 a b o m)
  | 3 => some (.st a b o m)
  | 7 => do need h.bZero; some (.stZ a o m)
  | _ => none

/-- OP 0x39 (R40). -/
def decStbit (h : Head) : Option Instr := do
  need (h.is64 && h.fn == 0 && h.d == 0 && !modHi h.mod && h.i16.extractLsb' 6 10 == 0)
  let a ← Src.dec h.a
  let b ← Src.dec h.b
  let c ← Src.dec h.c
  let m ← MemMod.dec h.mod
  some (.stbit a b c (h.i16.extractLsb' 0 6) m)

/-- OP 0x3A (R40). -/
def decWinSt (h : Head) : Option Instr := do
  need (h.d == 0 && h.cZero && !modHi h.mod)
  let a ← Src.dec h.a
  let b ← Src.dec h.b
  let c ← (← coordDec h.ext)
  let m ← MemMod.dec h.mod
  let k := h.fn.extractLsb' 3 3
  match (h.fn.extractLsb' 0 3).toNat with
  | 0 => some (.windowStN8 k a b h.i16 c m)
  | 1 => some (.windowStN16 k a b h.i16 c m)
  | 2 => some (.windowStN32 k a b h.i16 c m)
  | 3 => some (.windowSt k a b h.i16 c m)
  | 7 => do need h.bZero; some (.windowStZ k a h.i16 c m)
  | _ => none

/-- OP 0x40 (R40). -/
def decFeWord (h : Head) : Option Instr := do
  need (h.cZero && !modHi h.mod)
  let w ← WOp.dec h
  let m ← MemMod.dec h.mod
  match h.fn.toNat with
  | 0 => do
    need h.bZero
    let d ← Dst.dec h.d
    some (.take d w m)
  | 1 => do
    need (h.d == 0)
    let b ← Src.dec h.b
    some (.put w b m)
  | 2 => do
    need h.bZero
    let d ← Dst.dec h.d
    some (.peek d w m)
  | _ => none

/-- OP 0x41 (R40). -/
def decFnc (h : Head) : Option Instr := do
  need (h.is64 && h.i16 == 0 && h.d == 0 && h.a == 0 && h.bZero && h.cZero && !modHi h.mod)
  let m ← MemMod.dec h.mod
  match h.fn.toNat with
  | 0 => some (.fnc m)
  | 1 => do need (m.order == .rlx); some (.fncLt m.scope)
  | 2 => do need (m.order == .rlx); some (.fncHv m.scope)
  | _ => none

/-- OP 0x42 (R40). -/
def decCache (h : Head) : Option Instr := do
  need (h.d == 0 && h.bZero && h.cZero && !modHi h.mod)
  let a ← Src.dec h.a
  let o ← Disp.dec h.ext h.i16
  let m ← MemMod.dec h.mod
  need (m.order == .rlx)
  match h.fn.toNat with
  | 0 => some (.pref a o m.scope)
  | 1 => some (.prefw a o m.scope)
  | 2 => some (.cflush a o m.scope)
  | 3 => some (.cinval a o m.scope)
  | 4 => do need (h.is64 && h.a == 0 && h.i16 == 0); some (.isync m.scope)
  | _ => none

/-- OP 0x43 (R40). -/
def decTdecl (h : Head) : Option Instr := do
  need (h.is64 && h.fn == 0 && h.cZero && !modHi h.mod)
  let d ← Dst.dec h.d
  let a ← Src.dec h.a
  let b ← Src.dec h.b
  let m ← MemMod.dec h.mod
  some (.tdecl d a b h.i16 m)

/-- OP 0x44 (R40). -/
def decTundecl (h : Head) : Option Instr := do
  need (h.is64 && h.fn == 0 && h.bZero && h.cZero && !modHi h.mod)
  let d ← Dst.dec h.d
  let a ← Src.dec h.a
  let m ← MemMod.dec h.mod
  some (.tundecl d a h.i16 m)

/-- OP 0x45 (R40). -/
def decTfwd (h : Head) : Option Instr := do
  need (h.fn == 0 && h.cZero && !modHi h.mod)
  let d ← Dst.dec h.d
  let a ← Src.dec h.a
  let m ← MemMod.dec h.mod
  match h.ext with
  | .none => do
    let b ← Src.dec h.b
    some (.tfwd d a (.reg b) h.i16 m)
  | .x32 x => do
    need h.bZero
    let c ← Coord.dec x
    some (.tfwd d a (.coord c) h.i16 m)
  | .x64 _ => none

/-- OP 0x46 (R40). -/
def decMig (h : Head) : Option Instr := do
  need (h.fn == 0 && h.bZero && h.cZero && !modHi h.mod)
  let d ← Dst.dec h.d
  let a ← Src.dec h.a
  let o ← Disp.dec h.ext h.i16
  let m ← MemMod.dec h.mod
  need (m.order == .rlx)
  some (.mig d a o m.scope)

/-- OP 0x50 (R40). -/
def decAtomic (h : Head) : Option Instr := do
  let d ← Dst.dec h.d
  let a ← Src.dec h.a
  let b ← Src.dec h.b
  let o ← Disp.dec h.ext h.i16
  let m ← MemMod.dec h.mod
  let w := modHi h.mod
  if h.fn.toNat = 1 then do
    let c ← Src.dec h.c
    some (.cas d a b c o w m)
  else do
    need h.cZero
    match h.fn.toNat with
    | 0 => some (.swap d a b o w m)
    | 2 => some (.aadd d a b o w m)
    | 3 => some (.aand d a b o w m)
    | 4 => some (.aor d a b o w m)
    | 5 => some (.axor d a b o w m)
    | 6 => some (.amin d a b o w m)
    | 7 => some (.amax d a b o w m)
    | 8 => some (.aminn d a b o w m)
    | 9 => some (.amaxn d a b o w m)
    | 10 => some (.afadd d a b o w m)
    | _ => none

/-- OP 0x51 (R40). -/
def decReddecl (h : Head) : Option Instr := do
  need (h.is64 && h.fn == 0 && h.d == 0 && h.cZero && !modHi h.mod)
  let a ← Src.dec h.a
  let b ← Src.dec h.b
  let m ← MemMod.dec h.mod
  some (.reddecl a b h.i16 m)

/-- OP 0x52 (R40). -/
def decRedAdd (h : Head) : Option Instr := do
  need (h.is64 && h.fn == 0 && h.d == 0 && !modHi h.mod)
  let a ← Src.dec h.a
  let b ← Src.dec h.b
  let c ← Src.dec h.c
  let m ← MemMod.dec h.mod
  some (.redAdd a b c h.i16 m)

/-- OP 0x53 (R40). -/
def decRedRd (h : Head) : Option Instr := do
  need (h.is64 && h.fn == 0 && h.bZero && h.cZero && !modHi h.mod)
  let d ← Dst.dec h.d
  let a ← Src.dec h.a
  let m ← MemMod.dec h.mod
  some (.redRd d a h.i16 m)

/-- OP 0x54 (R40). -/
def decBarrier (h : Head) : Option Instr := do
  need (h.cZero && !modHi h.mod)
  let w ← WOp.dec h
  let b ← Src.dec h.b
  let m ← MemMod.dec h.mod
  match h.fn.toNat with
  | 0 => do need (h.d == 0); some (.binit w b m)
  | 1 => do
    let d ← Dst.dec h.d
    some (.barv d w b m)
  | 2 => do
    let d ← Dst.dec h.d
    some (.bwait d w b m)
  | 3 => do
    let d ← Dst.dec h.d
    some (.btest d w b m)
  | _ => none

/-- OP 0x55 (R40). -/
def decPropose (h : Head) : Option Instr := do
  need (h.is64 && h.fn == 0 && !modHi h.mod)
  let p ← pairDec h.d
  let a ← Src.dec h.a
  let b ← Src.dec h.b
  let c ← Src.dec h.c
  let m ← MemMod.dec h.mod
  some (.propose p a b c h.i16 m)

/-- OP 0x56 (R40). -/
def decDread (h : Head) : Option Instr := do
  need (h.is64 && h.fn == 0 && h.cZero && !modHi h.mod)
  let p ← pairDec h.d
  let a ← Src.dec h.a
  let b ← Src.dec h.b
  let m ← MemMod.dec h.mod
  some (.dread p a b h.i16 m)

/-- OP 0x57 (R40). -/
def decDcell (h : Head) : Option Instr := do
  need (h.is64 && h.fn == 0 && h.d == 0 && h.cZero && !modHi h.mod)
  let a ← Src.dec h.a
  let b ← Src.dec h.b
  let m ← MemMod.dec h.mod
  some (.dcell a b h.i16 m)

/-- OP 0x58 (R40). -/
def decRecycle (h : Head) : Option Instr := do
  need (h.is64 && h.fn == 0 && h.cZero && !modHi h.mod)
  let d ← Dst.dec h.d
  let a ← Src.dec h.a
  let b ← Src.dec h.b
  let m ← MemMod.dec h.mod
  some (.recycle d a b h.i16 m)

/-- OP 0x60 (R40). -/
def decVfp (h : Head) : Option Instr := do
  need (h.is64 && h.i16 == 0 && h.cZero)
  let d ← vecDec h.d
  let a ← vecDec h.a
  match h.fn.toNat with
  | 0 => do
    let b ← vecDec h.b
    let f ← FMod.dec h.mod
    some (.vadd d a b f)
  | 1 => do
    let b ← vecDec h.b
    let f ← FMod.dec h.mod
    some (.vsub d a b f)
  | 2 => do
    let b ← vecDec h.b
    let f ← FMod.dec h.mod
    some (.vmul d a b f)
  | 3 => do
    let b ← vecDec h.b
    let f ← FMod.dec h.mod
    some (.vdiv d a b f)
  | 4 => do
    let b ← vecDec h.b
    let f ← fmtDec h.mod
    some (.vmin d a b f)
  | 5 => do
    let b ← vecDec h.b
    let f ← fmtDec h.mod
    some (.vmax d a b f)
  | 6 => do
    need h.bZero
    let f ← fmtDec h.mod
    some (.vabs d a f)
  | 7 => do
    need h.bZero
    let f ← fmtDec h.mod
    some (.vneg d a f)
  | 8 => do
    need h.bZero
    let f ← FMod.dec h.mod
    some (.vsqrt d a f)
  | _ => none

/-- OP 0x61 (R40). -/
def decVfma (h : Head) : Option Instr := do
  need (h.is64 && h.i16 == 0)
  let d ← vecDec h.d
  let a ← vecDec h.a
  let b ← vecDec h.b
  let c ← vecDec h.c
  let f ← FMod.dec h.mod
  match h.fn.toNat with
  | 0 => some (.vfma d a b c f)
  | 1 => some (.vfms d a b c f)
  | 2 => some (.vfnma d a b c f)
  | 3 => some (.vfnms d a b c f)
  | _ => none

/-- OP 0x62 (R40). -/
def decVint (h : Head) : Option Instr := do
  need (h.is64 && h.i16 == 0 && h.cZero)
  let d ← vecDec h.d
  let a ← vecDec h.a
  let b ← vecDec h.b
  let f ← fmtDec h.mod
  match h.fn.toNat with
  | 0 => some (.viadd d a b f)
  | 1 => some (.visub d a b f)
  | 2 => some (.vimul d a b f)
  | 3 => some (.vand d a b f)
  | 4 => some (.vor d a b f)
  | 5 => some (.vxor d a b f)
  | 6 => some (.vshl d a b f)
  | 7 => some (.vshr d a b f)
  | 8 => some (.vsar d a b f)
  | 9 => some (.viadds d a b f)
  | _ => none

/-- OP 0x63 (R40). -/
def decVcmp (h : Head) : Option Instr := do
  need (h.is64 && h.i16 == 0)
  let d ← vecDec h.d
  let a ← vecDec h.a
  let b ← vecDec h.b
  let f ← fmtDec h.mod
  match h.fn.toNat with
  | 0 => do need h.cZero; some (.vcmpeq d a b f)
  | 1 => do need h.cZero; some (.vcmplt d a b f)
  | 2 => do need h.cZero; some (.vcmple d a b f)
  | 3 => do
    let c ← vecDec h.c
    some (.vsel d a b c f)
  | _ => none

/-- OP 0x64 (R40). -/
def decVperm (h : Head) : Option Instr := do
  need (h.is64 && h.cZero)
  let f ← fmtDec h.mod
  match h.fn.toNat with
  | 0 => do
    need (h.i16 == 0)
    let d ← vecDec h.d
    let a ← vecDec h.a
    let b ← vecDec h.b
    some (.vperm d a b f)
  | 1 => do
    need (h.i16 == 0 && h.bZero)
    let d ← vecDec h.d
    let a ← Src.dec h.a
    some (.vbcast d a f)
  | 2 => do
    need (h.bZero && h.i16.extractLsb' 8 8 == 0)
    let d ← Dst.dec h.d
    let a ← vecDec h.a
    some (.vext d a (h.i16.extractLsb' 0 8) f)
  | 3 => do
    need (h.i16.extractLsb' 8 8 == 0)
    let d ← vecDec h.d
    let a ← vecDec h.a
    let b ← Src.dec h.b
    some (.vins d a b (h.i16.extractLsb' 0 8) f)
  | _ => none

/-- OP 0x65 (R40). -/
def decVred (h : Head) : Option Instr := do
  need (h.is64 && h.i16 == 0 && h.bZero && h.cZero)
  let d ← Dst.dec h.d
  let a ← vecDec h.a
  match h.fn.toNat with
  | 0 => do
    let f ← FMod.dec h.mod
    some (.vrsum d a f)
  | 1 => do
    let f ← fmtDec h.mod
    some (.vrmin d a f)
  | 2 => do
    let f ← fmtDec h.mod
    some (.vrmax d a f)
  | _ => none

/-- OP 0x66 (R40). -/
def decVcvt (h : Head) : Option Instr := do
  need (h.is64 && h.cZero && h.i16.extractLsb' 4 12 == 0)
  let d ← vecDec h.d
  let a ← vecDec h.a
  let f ← FMod.dec h.mod
  let src := Fmt.dec (h.i16.extractLsb' 0 4)
  match h.fn.toNat with
  | 0 => do need h.bZero; some (.vcvt d a f src)
  | 1 => do
    let b ← vecDec h.b
    some (.vnarrow d a b f src)
  | _ => none

/-- OP 0x67 (R40). -/
def decBlock (h : Head) : Option Instr := do
  need h.is64
  let a ← Src.dec h.a
  let b ← Src.dec h.b
  match h.fn.toNat with
  | 0 => do
    need (h.cZero && h.mod == 0)
    let d ← vecDec h.d
    some (.vbdec d a b h.i16)
  | 1 => do
    need (h.d == 0 && h.mod.extractLsb' 3 4 == 0)
    let c ← vecDec h.c
    let r ← Rnd.dec (h.mod.extractLsb' 0 3)
    some (.vbenc a b c h.i16 r)
  | _ => none

/-- OP 0x68 (R40). -/
def decVmem (h : Head) : Option Instr := do
  need (h.cZero && !modHi h.mod)
  let a ← Src.dec h.a
  let o ← Disp.dec h.ext h.i16
  let m ← MemMod.dec h.mod
  match h.fn.toNat with
  | 0 => do
    need h.bZero
    let d ← vecDec h.d
    some (.vld d a o m)
  | 1 => do
    need (h.d == 0)
    let b ← vecDec h.b
    some (.vst a b o m)
  | _ => none

/-- OP 0x69 (R40). -/
def decVgath (h : Head) : Option Instr := do
  need (h.is64 && !modHi h.mod)
  let a ← Src.dec h.a
  let b ← vecDec h.b
  let m ← MemMod.dec h.mod
  if hw : h.i16.toNat < 3 then
    match h.fn.toNat with
    | 0 => do
      need h.cZero
      let d ← vecDec h.d
      some (.vgath d a b ⟨h.i16.toNat, hw⟩ m)
    | 1 => do
      need (h.d == 0)
      let c ← vecDec h.c
      some (.vscat a b c ⟨h.i16.toNat, hw⟩ m)
    | _ => none
  else none

/-- OP 0x6A (R40). -/
def decVsf (h : Head) : Option Instr := do
  need (h.is64 && h.i16 == 0 && h.bZero && h.cZero)
  let d ← vecDec h.d
  let a ← vecDec h.a
  let f ← FMod.dec h.mod
  match h.fn.toNat with
  | 0 => some (.vexp2 d a f)
  | 1 => some (.vlog2 d a f)
  | 2 => some (.vrcp d a f)
  | 3 => some (.vrsq d a f)
  | 4 => some (.vtanh d a f)
  | _ => none

/-- OP 0x6B (R40). -/
def decVrng (h : Head) : Option Instr := do
  need (h.bare && h.cZero)
  let d ← vecDec h.d
  let a ← Src.dec h.a
  let b ← Src.dec h.b
  match h.fn.toNat with
  | 0 => some (.vrng d a b)
  | 1 => some (.vrngf32 d a b)
  | 2 => some (.vrngf64 d a b)
  | _ => none

/-- OP 0x6C (R40). -/
def decVmode (h : Head) : Option Instr := do
  need (h.bare && h.d == 0 && h.a == 0 && h.bZero && h.cZero)
  match h.fn.toNat with
  | 0 => some .vmodeS
  | 1 => some .vmodeL
  | _ => none

/-- OP 0x80 (R40). -/
def decTshape (h : Head) : Option Instr := do
  need (h.fn == 0 && h.mod == 0 && h.i16 == 0 && h.bZero && h.cZero)
  let t ← tileDec h.d
  match h.ext with
  | .none => do
    let a ← Src.dec h.a
    some (.tshape t (.reg a))
  | .x32 x => do need (h.a == 0); some (.tshape t (.word x))
  | .x64 _ => none

/-- OP 0x81 (R40). -/
def decTzero (h : Head) : Option Instr := do
  need (h.bare && h.fn == 0 && h.a == 0 && h.bZero && h.cZero)
  let t ← tileDec h.d
  some (.tzero t)

/-- OP 0x82 (R40). -/
def decTld (h : Head) : Option Instr := do
  need (h.fn == 0)
  let t ← tileDec h.d
  let a ← Src.dec h.a
  let b ← Src.dec h.b
  let o ← Disp.dec h.ext h.i16
  let m ← MemMod.dec h.mod
  if modHi h.mod then do
    let c ← Src.dec h.c
    some (.tldBlk t a b c o m)
  else do
    need h.cZero
    some (.tld t a b o m)

/-- OP 0x83 (R40). -/
def decTst (h : Head) : Option Instr := do
  need (h.fn == 0 && h.cZero && !modHi h.mod)
  let t ← tileDec h.d
  let a ← Src.dec h.a
  let b ← Src.dec h.b
  let o ← Disp.dec h.ext h.i16
  let m ← MemMod.dec h.mod
  some (.tst t a b o m)

/-- OP 0x84 (R40). -/
def decSlice (h : Head) : Option Instr := do
  need (h.is64 && h.cZero && h.i16.extractLsb' 8 8 == 0)
  let b ← Src.dec h.b
  let f ← FMod.dec h.mod
  let s := h.i16.extractLsb' 0 8
  match h.fn.toNat with
  | 0 => do
    let d ← vecDec h.d
    let t ← tileDec h.a
    some (.trowv d t b s f)
  | 1 => do
    let d ← vecDec h.d
    let t ← tileDec h.a
    some (.tcolv d t b s f)
  | 2 => do
    let t ← tileDec h.d
    let a ← vecDec h.a
    some (.vtrow t a b s f)
  | 3 => do
    let t ← tileDec h.d
    let a ← vecDec h.a
    some (.vtcol t a b s f)
  | _ => none

/-- OP 0x85 (R40). -/
def decMma (h : Head) : Option Instr := do
  need (h.is64 && h.fn == 0 && h.mod == 0 && h.cZero && h.i16.extractLsb' 3 13 == 0)
  let d ← tileDec h.d
  let a ← tileDec h.a
  let b ← tileDec h.b
  some (.mma d a b (h.i16.extractLsb' 0 2) (h.i16.getLsbD 2))

/-- OP 0x86 (R40). -/
def decMmau (h : Head) : Option Instr := do
  need (h.is64 && h.fn == 0 && h.mod == 0 && h.cZero && h.i16.extractLsb' 3 13 == 0)
  let d ← tileDec h.d
  let a ← Src.dec h.a
  let b ← tileDec h.b
  some (.mmau d a b (h.i16.extractLsb' 0 2) (h.i16.getLsbD 2))

/-- OP 0x87 (R40). -/
def decCbload (h : Head) : Option Instr := do
  need (h.fn == 0 && h.bZero && h.cZero && !modHi h.mod)
  let d ← setDec h.d
  let a ← Src.dec h.a
  let o ← Disp.dec h.ext h.i16
  let m ← MemMod.dec h.mod
  some (.cbload d a o m)

/-- OP 0x88 (R40). -/
def decMucode (h : Head) : Option Instr := do
  need (h.bare && h.fn == 0 && h.d == 0 && h.bZero && h.cZero)
  let a ← Src.dec h.a
  some (.mucode a)

/-- OP 0x89 (R40). -/
def decMmar (h : Head) : Option Instr := do
  need (h.bare && h.fn == 0 && h.cZero)
  let d ← tileDec h.d
  let a ← tileDec h.a
  let b ← tileDec h.b
  some (.mmar d a b)

/-- OP 0x8A (R40). -/
def decMcmd (h : Head) : Option Instr := do
  need (h.fn == 0 && !modHi h.mod)
  let d ← Dst.dec h.d
  let k ← coordDec h.ext
  let a ← Src.dec h.a
  let b ← Src.dec h.b
  let c ← Src.dec h.c
  let m ← MemMod.dec h.mod
  some (.mcmd d k a b c h.i16 m)

/-- OP 0x8B (R40). -/
def decMsave (h : Head) : Option Instr := do
  need (h.fn == 0 && h.d == 0 && h.cZero && !modHi h.mod)
  let a ← Src.dec h.a
  let b ← Src.dec h.b
  let o ← Disp.dec h.ext h.i16
  let m ← MemMod.dec h.mod
  some (.msave a b o m)

/-- OP 0x8C (R40). -/
def decMrestore (h : Head) : Option Instr := do
  need (h.fn == 0 && h.d == 0 && h.cZero && !modHi h.mod)
  let a ← Src.dec h.a
  let b ← Src.dec h.b
  let o ← Disp.dec h.ext h.i16
  let m ← MemMod.dec h.mod
  some (.mrestore a b o m)

/-- OP 0x8D (R40). -/
def decTsave (h : Head) : Option Instr := do
  need (h.bZero && h.cZero && !modHi h.mod)
  let t ← tileDec h.d
  let a ← Src.dec h.a
  let o ← Disp.dec h.ext h.i16
  let m ← MemMod.dec h.mod
  match h.fn.toNat with
  | 0 => some (.tsave t a o m)
  | 1 => some (.trst t a o m)
  | _ => none

/-- OP 0xA0 (R40). -/
def decKick (h : Head) : Option Instr := do
  need (h.is64 && h.fn == 0 && h.cZero && h.i16 == 0 && !modHi h.mod)
  let d ← Dst.dec h.d
  let a ← Src.dec h.a
  let b ← Src.dec h.b
  let m ← MemMod.dec h.mod
  some (.kick d a b m)

/-- OP 0xA1 (R40). -/
def decTpost (h : Head) : Option Instr := do
  need (h.is64 && h.fn == 0 && h.bZero && h.cZero && !modHi h.mod)
  let d ← Dst.dec h.d
  let a ← Src.dec h.a
  let m ← MemMod.dec h.mod
  some (.tpost d a h.i16 m)

/-- OP 0xA2 (R40). -/
def decSpawn (h : Head) : Option Instr := do
  need (h.fn == 0 && h.mod == 0 && h.i16 == 0 && h.cZero)
  let d ← Dst.dec h.d
  let a ← Src.dec h.a
  let b ← Src.dec h.b
  let k ← spawnCoordDec h.ext
  some (.spawn d a b k)

/-- OP 0xA3 (R40). -/
def decJoin (h : Head) : Option Instr := do
  need (h.bare && h.d == 0 && h.a == 0 && h.bZero && h.cZero && h.fn == 0)
  some .join

/-- OP 0xA4 (R40). -/
def decGlaunch (h : Head) : Option Instr := do
  need (h.fn == 0 && h.mod == 0 && h.i16 == 0 && h.bZero && h.cZero)
  let d ← Dst.dec h.d
  let a ← Src.dec h.a
  let x ← (← x64Dec h.ext)
  some (.glaunch d a x)

/-- OP 0xA5 (R40). -/
def decQbind (h : Head) : Option Instr := do
  need (h.bare && h.fn == 0 && h.d == 0 && h.bZero)
  let p ← portDec h.c
  let a ← Src.dec h.a
  some (.qbind p a)

/-- OP 0xA6 (R40). -/
def decQstat (h : Head) : Option Instr := do
  need (h.is64 && h.i16 == 0 && h.a == 0)
  let d ← Dst.dec h.d
  let p ← portDec h.c
  match h.fn.toNat with
  | 0 => do
    need (!modHi h.mod)
    let b ← Src.dec h.b
    let m ← MemMod.dec h.mod
    some (.qsndNb d p b m)
  | 1 => do need (h.mod == 0 && h.bZero); some (.qstat d p)
  | _ => none

/-- OP 0xA7 (R40). -/
def decNbar (h : Head) : Option Instr := do
  need (h.is64 && h.mod == 0 && h.cZero)
  let a ← Src.dec h.a
  if hn : h.i16.toNat < 48 then
    match h.fn.toNat with
    | 0 => do
      need (h.d == 0)
      let b ← Src.dec h.b
      some (.nbinit a b ⟨h.i16.toNat, hn⟩)
    | 1 => do
      need h.bZero
      let d ← Dst.dec h.d
      some (.nbarr d a ⟨h.i16.toNat, hn⟩)
    | 2 => do
      let d ← Dst.dec h.d
      let b ← Src.dec h.b
      some (.nbwait d a b ⟨h.i16.toNat, hn⟩)
    | _ => none
  else none

/-- OP 0xA8 (R40). -/
def decRetire (h : Head) : Option Instr := do
  need (h.bare && h.d == 0 && h.a == 0 && h.bZero && h.cZero && h.fn == 0)
  some .retire

/-- OP 0xA9 (R40). -/
def decBcopy (h : Head) : Option Instr := do
  need (h.d == 0)
  let a ← Src.dec h.a
  let b ← Src.dec h.b
  let c ← Src.dec h.c
  match h.fn.toNat with
  | 0 => do
    need (h.i16 == 0 && !modHi h.mod)
    let x ← x64Dec h.ext
    let m ← MemMod.dec h.mod
    some (.bcopy a b c x m)
  | 1 => do
    need (h.mod == 0 && h.i16.extractLsb' 4 12 == 0)
    let x ← (← x64Dec h.ext)
    some (.bcast a b c x (h.i16.extractLsb' 0 2) (h.i16.extractLsb' 2 2))
  | _ => none

/-- OP 0xB0 (R40). -/
def decMfs (h : Head) : Option Instr := do
  need (h.is64 && h.fn == 0 && h.mod == 0 && h.a == 0 && h.bZero && h.cZero && h.i16.extractLsb' 12 4 == 0)
  let d ← Dst.dec h.d
  let r ← SysReg.dec (h.i16.extractLsb' 0 12)
  some (.mfs d r)

/-- OP 0xB1 (R40). -/
def decMts (h : Head) : Option Instr := do
  need (h.is64 && h.fn == 0 && h.mod == 0 && h.d == 0 && h.bZero && h.cZero && h.i16.extractLsb' 12 4 == 0)
  let a ← Src.dec h.a
  let r ← SysReg.dec (h.i16.extractLsb' 0 12)
  some (mtsInstr a r)

/-- OP 0xB2 (R40). -/
def decTrap (h : Head) : Option Instr := do
  need (h.is64 && h.fn == 0 && h.mod == 0 && h.d == 0 && h.a == 0 && h.bZero && h.cZero)
  some (.trap h.i16)

/-- OP 0xB3 (R40). -/
def decEcall (h : Head) : Option Instr := do
  need (h.is64 && h.fn == 0 && h.mod == 0 && h.d == 0 && h.a == 0 && h.bZero && h.cZero)
  some (.ecall h.i16)

/-- OP 0xB4 (R40). -/
def decEret (h : Head) : Option Instr := do
  need (h.bare && h.d == 0 && h.a == 0 && h.bZero && h.cZero && h.fn == 0)
  some .eret

/-- OP 0xB5 (R40). -/
def decTlbinv (h : Head) : Option Instr := do
  need (h.bare && h.d == 0 && h.cZero)
  let b ← Src.dec h.b
  match h.fn.toNat with
  | 0 => do
    let a ← Src.dec h.a
    some (.tlbinvPg a b)
  | 1 => do need (h.a == 0); some (.tlbinvAll b)
  | _ => none

/-- OP 0xB6 (R40). -/
def decHalt (h : Head) : Option Instr := do
  need (h.bare && h.d == 0 && h.a == 0 && h.bZero && h.cZero && h.fn == 0)
  some .halt

/-- OP 0xB7 (R40). -/
def decTwait (h : Head) : Option Instr := do
  need (h.bare && h.fn == 0 && h.bZero && h.cZero)
  let d ← Dst.dec h.d
  let a ← Src.dec h.a
  some (.twait d a)

/-- The instruction of a head: `none` for an OP that the map leaves unassigned (R18, check 4); the inner `none` for a word
that checks 5 to 8 refuse by its fields alone. -/
def decodeOp (h : Head) : Option (Option Instr) :=
  match h.op.toNat with
  | 0x00 => some (decAlu h)
  | 0x01 => some (decAluImm h)
  | 0x02 => some (decCmp h)
  | 0x03 => some (decCmpImm h)
  | 0x04 => some (decSel h)
  | 0x05 => some (decBits h)
  | 0x06 => some (decDiv h)
  | 0x08 => some (decRng h)
  | 0x09 => some (decFe h)
  | 0x0A => some (decPutr h)
  | 0x1E => some (decLdl h)
  | 0x20 => some (decBr h)
  | 0x21 => some (decCondBr h)
  | 0x22 => some (decCall h)
  | 0x23 => some (decIndirect h)
  | 0x24 => some (decRet h)
  | 0x25 => some (decYield h)
  | 0x26 => some (decWait h)
  | 0x30 => some (decLd h)
  | 0x31 => some (decLdbit h)
  | 0x32 => some (decWinLd h)
  | 0x38 => some (decSt h)
  | 0x39 => some (decStbit h)
  | 0x3A => some (decWinSt h)
  | 0x40 => some (decFeWord h)
  | 0x41 => some (decFnc h)
  | 0x42 => some (decCache h)
  | 0x43 => some (decTdecl h)
  | 0x44 => some (decTundecl h)
  | 0x45 => some (decTfwd h)
  | 0x46 => some (decMig h)
  | 0x50 => some (decAtomic h)
  | 0x51 => some (decReddecl h)
  | 0x52 => some (decRedAdd h)
  | 0x53 => some (decRedRd h)
  | 0x54 => some (decBarrier h)
  | 0x55 => some (decPropose h)
  | 0x56 => some (decDread h)
  | 0x57 => some (decDcell h)
  | 0x58 => some (decRecycle h)
  | 0x60 => some (decVfp h)
  | 0x61 => some (decVfma h)
  | 0x62 => some (decVint h)
  | 0x63 => some (decVcmp h)
  | 0x64 => some (decVperm h)
  | 0x65 => some (decVred h)
  | 0x66 => some (decVcvt h)
  | 0x67 => some (decBlock h)
  | 0x68 => some (decVmem h)
  | 0x69 => some (decVgath h)
  | 0x6A => some (decVsf h)
  | 0x6B => some (decVrng h)
  | 0x6C => some (decVmode h)
  | 0x80 => some (decTshape h)
  | 0x81 => some (decTzero h)
  | 0x82 => some (decTld h)
  | 0x83 => some (decTst h)
  | 0x84 => some (decSlice h)
  | 0x85 => some (decMma h)
  | 0x86 => some (decMmau h)
  | 0x87 => some (decCbload h)
  | 0x88 => some (decMucode h)
  | 0x89 => some (decMmar h)
  | 0x8A => some (decMcmd h)
  | 0x8B => some (decMsave h)
  | 0x8C => some (decMrestore h)
  | 0x8D => some (decTsave h)
  | 0xA0 => some (decKick h)
  | 0xA1 => some (decTpost h)
  | 0xA2 => some (decSpawn h)
  | 0xA3 => some (decJoin h)
  | 0xA4 => some (decGlaunch h)
  | 0xA5 => some (decQbind h)
  | 0xA6 => some (decQstat h)
  | 0xA7 => some (decNbar h)
  | 0xA8 => some (decRetire h)
  | 0xA9 => some (decBcopy h)
  | 0xB0 => some (decMfs h)
  | 0xB1 => some (decMts h)
  | 0xB2 => some (decTrap h)
  | 0xB3 => some (decEcall h)
  | 0xB4 => some (decEret h)
  | 0xB5 => some (decTlbinv h)
  | 0xB6 => some (decHalt h)
  | 0xB7 => some (decTwait h)
  | _ => none

/-- The instruction of a head, with the operand checks of `Instr.wellFormed` (R18, checks 4 to 8). -/
def decodeHead (h : Head) : Except DecodeError Instr :=
  match decodeOp h with
  | none => .error .illop
  | some none => .error .illenc
  | some (some i) => if i.wellFormed then .ok i else .error .illenc

/-- PAD (R19). -/
def padWord : BitVec 32 := 0xFFFFFFFC

/-- What decoding answers: the instruction, the switch marker, the length in bytes, and the first 32 bits of the word. -/
structure Decoded where
  instr : Instr
  sw : Bool
  size : Nat
  first : BitVec 32
  deriving DecidableEq, Repr

/-- Decodes the word that begins with `w`, of which `avail` bytes lie in its fetch block (R18, checks 2 to 8, in order). -/
def decodeWord (avail : Nat) (w : BitVec 128) : Except DecodeError Decoded :=
  match extOf w with
  | none => if w.extractLsb' 0 32 = padWord then .error .pad else .error .illenc
  | some e =>
    if avail < e.size then .error .illenc
    else match decodeHead (headOf w e) with
      | .ok i => .ok ⟨i, w.getLsbD 2, e.size, w.extractLsb' 0 32⟩
      | .error x => .error x

/-- The little-endian number that bytes spell (R10). -/
def leNat : List Byte → Nat
  | [] => 0
  | b :: bs => b.toNat + 256 * leNat bs

/-- Decodes the instruction at the front of the bytes that remain in a fetch block. -/
def decode (bs : List Byte) : Except DecodeError Decoded :=
  decodeWord bs.length (BitVec.ofNat 128 (leNat (bs.take 16)))

/-- The fields of an instruction; `none` for a step of the hardware, which has no word. -/
def Instr.head (sw : Bool) : Instr → Option Head
  | .add d a b => some { sw := sw, op := 0x00, fn := 0, d := d.enc, a := a.enc, b := b.enc }
  | .sub d a b => some { sw := sw, op := 0x00, fn := 1, d := d.enc, a := a.enc, b := b.enc }
  | .mul d a b => some { sw := sw, op := 0x00, fn := 2, d := d.enc, a := a.enc, b := b.enc }
  | .mulhs d a b => some { sw := sw, op := 0x00, fn := 3, d := d.enc, a := a.enc, b := b.enc }
  | .and d a b => some { sw := sw, op := 0x00, fn := 4, d := d.enc, a := a.enc, b := b.enc }
  | .or d a b => some { sw := sw, op := 0x00, fn := 5, d := d.enc, a := a.enc, b := b.enc }
  | .xor d a b => some { sw := sw, op := 0x00, fn := 6, d := d.enc, a := a.enc, b := b.enc }
  | .andn d a b => some { sw := sw, op := 0x00, fn := 7, d := d.enc, a := a.enc, b := b.enc }
  | .shl d a b => some { sw := sw, op := 0x00, fn := 8, d := d.enc, a := a.enc, b := b.enc }
  | .shr d a b => some { sw := sw, op := 0x00, fn := 9, d := d.enc, a := a.enc, b := b.enc }
  | .sar d a b => some { sw := sw, op := 0x00, fn := 10, d := d.enc, a := a.enc, b := b.enc }
  | .rol d a b => some { sw := sw, op := 0x00, fn := 11, d := d.enc, a := a.enc, b := b.enc }
  | .ror d a b => some { sw := sw, op := 0x00, fn := 12, d := d.enc, a := a.enc, b := b.enc }
  | .min d a b => some { sw := sw, op := 0x00, fn := 13, d := d.enc, a := a.enc, b := b.enc }
  | .max d a b => some { sw := sw, op := 0x00, fn := 14, d := d.enc, a := a.enc, b := b.enc }
  | .minn d a b => some { sw := sw, op := 0x00, fn := 15, d := d.enc, a := a.enc, b := b.enc }
  | .maxn d a b => some { sw := sw, op := 0x00, fn := 16, d := d.enc, a := a.enc, b := b.enc }
  | .mulhn d a b => some { sw := sw, op := 0x00, fn := 17, d := d.enc, a := a.enc, b := b.enc }
  | .addImm d a i => some { sw := sw, op := 0x01, fn := 0, d := d.enc, a := a.enc, ext := i.ext, i16 := i.i16 }
  | .subImm d a i => some { sw := sw, op := 0x01, fn := 1, d := d.enc, a := a.enc, ext := i.ext, i16 := i.i16 }
  | .mulImm d a i => some { sw := sw, op := 0x01, fn := 2, d := d.enc, a := a.enc, ext := i.ext, i16 := i.i16 }
  | .mulhsImm d a i => some { sw := sw, op := 0x01, fn := 3, d := d.enc, a := a.enc, ext := i.ext, i16 := i.i16 }
  | .andImm d a i => some { sw := sw, op := 0x01, fn := 4, d := d.enc, a := a.enc, ext := i.ext, i16 := i.i16 }
  | .orImm d a i => some { sw := sw, op := 0x01, fn := 5, d := d.enc, a := a.enc, ext := i.ext, i16 := i.i16 }
  | .xorImm d a i => some { sw := sw, op := 0x01, fn := 6, d := d.enc, a := a.enc, ext := i.ext, i16 := i.i16 }
  | .andnImm d a i => some { sw := sw, op := 0x01, fn := 7, d := d.enc, a := a.enc, ext := i.ext, i16 := i.i16 }
  | .shlImm d a i => some { sw := sw, op := 0x01, fn := 8, d := d.enc, a := a.enc, ext := i.ext, i16 := i.i16 }
  | .shrImm d a i => some { sw := sw, op := 0x01, fn := 9, d := d.enc, a := a.enc, ext := i.ext, i16 := i.i16 }
  | .sarImm d a i => some { sw := sw, op := 0x01, fn := 10, d := d.enc, a := a.enc, ext := i.ext, i16 := i.i16 }
  | .rolImm d a i => some { sw := sw, op := 0x01, fn := 11, d := d.enc, a := a.enc, ext := i.ext, i16 := i.i16 }
  | .rorImm d a i => some { sw := sw, op := 0x01, fn := 12, d := d.enc, a := a.enc, ext := i.ext, i16 := i.i16 }
  | .minImm d a i => some { sw := sw, op := 0x01, fn := 13, d := d.enc, a := a.enc, ext := i.ext, i16 := i.i16 }
  | .maxImm d a i => some { sw := sw, op := 0x01, fn := 14, d := d.enc, a := a.enc, ext := i.ext, i16 := i.i16 }
  | .minnImm d a i => some { sw := sw, op := 0x01, fn := 15, d := d.enc, a := a.enc, ext := i.ext, i16 := i.i16 }
  | .maxnImm d a i => some { sw := sw, op := 0x01, fn := 16, d := d.enc, a := a.enc, ext := i.ext, i16 := i.i16 }
  | .mulhnImm d a i => some { sw := sw, op := 0x01, fn := 17, d := d.enc, a := a.enc, ext := i.ext, i16 := i.i16 }
  | .cmpeq d a b => some { sw := sw, op := 0x02, fn := 0, d := d.enc, a := a.enc, b := b.enc }
  | .cmpne d a b => some { sw := sw, op := 0x02, fn := 1, d := d.enc, a := a.enc, b := b.enc }
  | .cmplt d a b => some { sw := sw, op := 0x02, fn := 2, d := d.enc, a := a.enc, b := b.enc }
  | .cmple d a b => some { sw := sw, op := 0x02, fn := 3, d := d.enc, a := a.enc, b := b.enc }
  | .cmpltn d a b => some { sw := sw, op := 0x02, fn := 4, d := d.enc, a := a.enc, b := b.enc }
  | .cmplen d a b => some { sw := sw, op := 0x02, fn := 5, d := d.enc, a := a.enc, b := b.enc }
  | .cmpeqImm d a i => some { sw := sw, op := 0x03, fn := 0, d := d.enc, a := a.enc, ext := i.ext, i16 := i.i16 }
  | .cmpneImm d a i => some { sw := sw, op := 0x03, fn := 1, d := d.enc, a := a.enc, ext := i.ext, i16 := i.i16 }
  | .cmpltImm d a i => some { sw := sw, op := 0x03, fn := 2, d := d.enc, a := a.enc, ext := i.ext, i16 := i.i16 }
  | .cmpleImm d a i => some { sw := sw, op := 0x03, fn := 3, d := d.enc, a := a.enc, ext := i.ext, i16 := i.i16 }
  | .cmpltnImm d a i => some { sw := sw, op := 0x03, fn := 4, d := d.enc, a := a.enc, ext := i.ext, i16 := i.i16 }
  | .cmplenImm d a i => some { sw := sw, op := 0x03, fn := 5, d := d.enc, a := a.enc, ext := i.ext, i16 := i.i16 }
  | .sel d a b c => some { sw := sw, op := 0x04, d := d.enc, a := a.enc, b := b.enc, c := c.enc }
  | .bext d a pos len => some { sw := sw, op := 0x05, fn := 0, d := d.enc, a := a.enc, i16 := (0 : BitVec 3) ++ len ++ pos }
  | .bexts d a pos len => some { sw := sw, op := 0x05, fn := 1, d := d.enc, a := a.enc, i16 := (0 : BitVec 3) ++ len ++ pos }
  | .bins d a b pos len => some { sw := sw, op := 0x05, fn := 2, d := d.enc, a := a.enc, b := b.enc, i16 := (0 : BitVec 3) ++ len ++ pos }
  | .clz d a => some { sw := sw, op := 0x05, fn := 3, d := d.enc, a := a.enc }
  | .ctz d a => some { sw := sw, op := 0x05, fn := 4, d := d.enc, a := a.enc }
  | .popc d a => some { sw := sw, op := 0x05, fn := 5, d := d.enc, a := a.enc }
  | .brev d a => some { sw := sw, op := 0x05, fn := 6, d := d.enc, a := a.enc }
  | .bswap d a => some { sw := sw, op := 0x05, fn := 7, d := d.enc, a := a.enc }
  | .div d a b => some { sw := sw, op := 0x06, fn := 0, d := d.enc, a := a.enc, b := b.enc }
  | .divn d a b => some { sw := sw, op := 0x06, fn := 1, d := d.enc, a := a.enc, b := b.enc }
  | .rem d a b => some { sw := sw, op := 0x06, fn := 2, d := d.enc, a := a.enc, b := b.enc }
  | .remn d a b => some { sw := sw, op := 0x06, fn := 3, d := d.enc, a := a.enc, b := b.enc }
  | .rng d a b => some { sw := sw, op := 0x08, fn := 0, d := d.enc, a := a.enc, b := b.enc }
  | .rngf32 d a b => some { sw := sw, op := 0x08, fn := 1, d := d.enc, a := a.enc, b := b.enc }
  | .rngf64 d a b => some { sw := sw, op := 0x08, fn := 2, d := d.enc, a := a.enc, b := b.enc }
  | .empty r => some { sw := sw, op := 0x09, fn := 0, d := r.enc }
  | .fill r => some { sw := sw, op := 0x09, fn := 1, d := r.enc }
  | .isfull d a => some { sw := sw, op := 0x09, fn := 2, d := d.enc, a := a.enc }
  | .putr c a b i m => some { sw := sw, op := 0x0A, a := a.enc, b := b.enc, ext := coordExt c, i16 := i, mod := m.enc false }
  | .ldl d i => some { sw := sw, op := 0x1E, d := gEnc d, i16 := i }
  | .br o => some { sw := sw, op := 0x20, ext := o.ext, i16 := o.i16 }
  | .bz a o => some { sw := sw, op := 0x21, fn := 0, a := a.enc, ext := o.ext, i16 := o.i16 }
  | .bnz a o => some { sw := sw, op := 0x21, fn := 1, a := a.enc, ext := o.ext, i16 := o.i16 }
  | .bltz a o => some { sw := sw, op := 0x21, fn := 2, a := a.enc, ext := o.ext, i16 := o.i16 }
  | .bgez a o => some { sw := sw, op := 0x21, fn := 3, a := a.enc, ext := o.ext, i16 := o.i16 }
  | .call d o => some { sw := sw, op := 0x22, d := gEnc d, ext := o.ext, i16 := o.i16 }
  | .jr a => some { sw := sw, op := 0x23, a := a.enc }
  | .callr d a => some { sw := sw, op := 0x23, fn := 1, d := gEnc d, a := a.enc }
  | .ret a => some { sw := sw, op := 0x24, a := a.enc }
  | .yield => some { sw := sw, op := 0x25 }
  | .wait i => some { sw := sw, op := 0x26, i16 := i }
  | .waitst => some { sw := sw, op := 0x26, fn := 1 }
  | .ldN8 d a o m => some { sw := sw, op := 0x30, fn := 0, d := d.enc, a := a.enc, ext := o.ext, i16 := o.i16, mod := m.enc false }
  | .ldN16 d a o m => some { sw := sw, op := 0x30, fn := 1, d := d.enc, a := a.enc, ext := o.ext, i16 := o.i16, mod := m.enc false }
  | .ldN32 d a o m => some { sw := sw, op := 0x30, fn := 2, d := d.enc, a := a.enc, ext := o.ext, i16 := o.i16, mod := m.enc false }
  | .ld d a o m => some { sw := sw, op := 0x30, fn := 3, d := d.enc, a := a.enc, ext := o.ext, i16 := o.i16, mod := m.enc false }
  | .ldS8 d a o m => some { sw := sw, op := 0x30, fn := 4, d := d.enc, a := a.enc, ext := o.ext, i16 := o.i16, mod := m.enc false }
  | .ldS16 d a o m => some { sw := sw, op := 0x30, fn := 5, d := d.enc, a := a.enc, ext := o.ext, i16 := o.i16, mod := m.enc false }
  | .ldS32 d a o m => some { sw := sw, op := 0x30, fn := 6, d := d.enc, a := a.enc, ext := o.ext, i16 := o.i16, mod := m.enc false }
  | .ldbit d a b w sx m => some { sw := sw, op := 0x31, d := d.enc, a := a.enc, b := b.enc, i16 := (0 : BitVec 9) ++ BitVec.ofBool sx ++ w, mod := m.enc false }
  | .windowLdN8 k d a i c m => some { sw := sw, op := 0x32, fn := k ++ (0 : BitVec 3), d := d.enc, a := a.enc, ext := .x32 c.enc, i16 := i, mod := m.enc false }
  | .windowLdN16 k d a i c m => some { sw := sw, op := 0x32, fn := k ++ (1 : BitVec 3), d := d.enc, a := a.enc, ext := .x32 c.enc, i16 := i, mod := m.enc false }
  | .windowLdN32 k d a i c m => some { sw := sw, op := 0x32, fn := k ++ (2 : BitVec 3), d := d.enc, a := a.enc, ext := .x32 c.enc, i16 := i, mod := m.enc false }
  | .windowLd k d a i c m => some { sw := sw, op := 0x32, fn := k ++ (3 : BitVec 3), d := d.enc, a := a.enc, ext := .x32 c.enc, i16 := i, mod := m.enc false }
  | .windowLdS8 k d a i c m => some { sw := sw, op := 0x32, fn := k ++ (4 : BitVec 3), d := d.enc, a := a.enc, ext := .x32 c.enc, i16 := i, mod := m.enc false }
  | .windowLdS16 k d a i c m => some { sw := sw, op := 0x32, fn := k ++ (5 : BitVec 3), d := d.enc, a := a.enc, ext := .x32 c.enc, i16 := i, mod := m.enc false }
  | .windowLdS32 k d a i c m => some { sw := sw, op := 0x32, fn := k ++ (6 : BitVec 3), d := d.enc, a := a.enc, ext := .x32 c.enc, i16 := i, mod := m.enc false }
  | .stN8 a b o m => some { sw := sw, op := 0x38, fn := 0, a := a.enc, b := b.enc, ext := o.ext, i16 := o.i16, mod := m.enc false }
  | .stN16 a b o m => some { sw := sw, op := 0x38, fn := 1, a := a.enc, b := b.enc, ext := o.ext, i16 := o.i16, mod := m.enc false }
  | .stN32 a b o m => some { sw := sw, op := 0x38, fn := 2, a := a.enc, b := b.enc, ext := o.ext, i16 := o.i16, mod := m.enc false }
  | .st a b o m => some { sw := sw, op := 0x38, fn := 3, a := a.enc, b := b.enc, ext := o.ext, i16 := o.i16, mod := m.enc false }
  | .stZ a o m => some { sw := sw, op := 0x38, fn := 7, a := a.enc, ext := o.ext, i16 := o.i16, mod := m.enc false }
  | .stbit a b c w m => some { sw := sw, op := 0x39, a := a.enc, b := b.enc, c := c.enc, i16 := (0 : BitVec 10) ++ w, mod := m.enc false }
  | .windowStN8 k a b i c m => some { sw := sw, op := 0x3A, fn := k ++ (0 : BitVec 3), a := a.enc, b := b.enc, ext := .x32 c.enc, i16 := i, mod := m.enc false }
  | .windowStN16 k a b i c m => some { sw := sw, op := 0x3A, fn := k ++ (1 : BitVec 3), a := a.enc, b := b.enc, ext := .x32 c.enc, i16 := i, mod := m.enc false }
  | .windowStN32 k a b i c m => some { sw := sw, op := 0x3A, fn := k ++ (2 : BitVec 3), a := a.enc, b := b.enc, ext := .x32 c.enc, i16 := i, mod := m.enc false }
  | .windowSt k a b i c m => some { sw := sw, op := 0x3A, fn := k ++ (3 : BitVec 3), a := a.enc, b := b.enc, ext := .x32 c.enc, i16 := i, mod := m.enc false }
  | .windowStZ k a i c m => some { sw := sw, op := 0x3A, fn := k ++ (7 : BitVec 3), a := a.enc, ext := .x32 c.enc, i16 := i, mod := m.enc false }
  | .take d w m => some { sw := sw, op := 0x40, fn := 0, d := d.enc, a := w.base.enc, ext := w.ext, i16 := w.i16, mod := m.enc false }
  | .put w b m => some { sw := sw, op := 0x40, fn := 1, b := b.enc, a := w.base.enc, ext := w.ext, i16 := w.i16, mod := m.enc false }
  | .peek d w m => some { sw := sw, op := 0x40, fn := 2, d := d.enc, a := w.base.enc, ext := w.ext, i16 := w.i16, mod := m.enc false }
  | .fnc m => some { sw := sw, op := 0x41, fn := 0, mod := m.enc false }
  | .fncLt s => some { sw := sw, op := 0x41, fn := 1, mod := (⟨.rlx, s⟩ : MemMod).enc false }
  | .fncHv s => some { sw := sw, op := 0x41, fn := 2, mod := (⟨.rlx, s⟩ : MemMod).enc false }
  | .pref a o s => some { sw := sw, op := 0x42, fn := 0, a := a.enc, ext := o.ext, i16 := o.i16, mod := (⟨.rlx, s⟩ : MemMod).enc false }
  | .prefw a o s => some { sw := sw, op := 0x42, fn := 1, a := a.enc, ext := o.ext, i16 := o.i16, mod := (⟨.rlx, s⟩ : MemMod).enc false }
  | .cflush a o s => some { sw := sw, op := 0x42, fn := 2, a := a.enc, ext := o.ext, i16 := o.i16, mod := (⟨.rlx, s⟩ : MemMod).enc false }
  | .cinval a o s => some { sw := sw, op := 0x42, fn := 3, a := a.enc, ext := o.ext, i16 := o.i16, mod := (⟨.rlx, s⟩ : MemMod).enc false }
  | .isync s => some { sw := sw, op := 0x42, fn := 4, mod := (⟨.rlx, s⟩ : MemMod).enc false }
  | .tdecl d a b i m => some { sw := sw, op := 0x43, d := d.enc, a := a.enc, b := b.enc, i16 := i, mod := m.enc false }
  | .tundecl d a i m => some { sw := sw, op := 0x44, d := d.enc, a := a.enc, i16 := i, mod := m.enc false }
  | .tfwd d a (.reg b) i m => some { sw := sw, op := 0x45, d := d.enc, a := a.enc, b := b.enc, i16 := i, mod := m.enc false }
  | .tfwd d a (.coord c) i m => some { sw := sw, op := 0x45, d := d.enc, a := a.enc, ext := .x32 c.enc, i16 := i, mod := m.enc false }
  | .mig d a o s => some { sw := sw, op := 0x46, d := d.enc, a := a.enc, ext := o.ext, i16 := o.i16, mod := (⟨.rlx, s⟩ : MemMod).enc false }
  | .swap d a b o w m => some { sw := sw, op := 0x50, fn := 0, d := d.enc, a := a.enc, b := b.enc, ext := o.ext, i16 := o.i16, mod := m.enc w }
  | .aadd d a b o w m => some { sw := sw, op := 0x50, fn := 2, d := d.enc, a := a.enc, b := b.enc, ext := o.ext, i16 := o.i16, mod := m.enc w }
  | .aand d a b o w m => some { sw := sw, op := 0x50, fn := 3, d := d.enc, a := a.enc, b := b.enc, ext := o.ext, i16 := o.i16, mod := m.enc w }
  | .aor d a b o w m => some { sw := sw, op := 0x50, fn := 4, d := d.enc, a := a.enc, b := b.enc, ext := o.ext, i16 := o.i16, mod := m.enc w }
  | .axor d a b o w m => some { sw := sw, op := 0x50, fn := 5, d := d.enc, a := a.enc, b := b.enc, ext := o.ext, i16 := o.i16, mod := m.enc w }
  | .amin d a b o w m => some { sw := sw, op := 0x50, fn := 6, d := d.enc, a := a.enc, b := b.enc, ext := o.ext, i16 := o.i16, mod := m.enc w }
  | .amax d a b o w m => some { sw := sw, op := 0x50, fn := 7, d := d.enc, a := a.enc, b := b.enc, ext := o.ext, i16 := o.i16, mod := m.enc w }
  | .aminn d a b o w m => some { sw := sw, op := 0x50, fn := 8, d := d.enc, a := a.enc, b := b.enc, ext := o.ext, i16 := o.i16, mod := m.enc w }
  | .amaxn d a b o w m => some { sw := sw, op := 0x50, fn := 9, d := d.enc, a := a.enc, b := b.enc, ext := o.ext, i16 := o.i16, mod := m.enc w }
  | .afadd d a b o w m => some { sw := sw, op := 0x50, fn := 10, d := d.enc, a := a.enc, b := b.enc, ext := o.ext, i16 := o.i16, mod := m.enc w }
  | .cas d a b c o w m => some { sw := sw, op := 0x50, fn := 1, d := d.enc, a := a.enc, b := b.enc, c := c.enc, ext := o.ext, i16 := o.i16, mod := m.enc w }
  | .reddecl a b i m => some { sw := sw, op := 0x51, a := a.enc, b := b.enc, i16 := i, mod := m.enc false }
  | .redAdd a b c i m => some { sw := sw, op := 0x52, a := a.enc, b := b.enc, c := c.enc, i16 := i, mod := m.enc false }
  | .redRd d a i m => some { sw := sw, op := 0x53, d := d.enc, a := a.enc, i16 := i, mod := m.enc false }
  | .binit w b m => some { sw := sw, op := 0x54, fn := 0, b := b.enc, a := w.base.enc, ext := w.ext, i16 := w.i16, mod := m.enc false }
  | .barv d w b m => some { sw := sw, op := 0x54, fn := 1, d := d.enc, b := b.enc, a := w.base.enc, ext := w.ext, i16 := w.i16, mod := m.enc false }
  | .bwait d w b m => some { sw := sw, op := 0x54, fn := 2, d := d.enc, b := b.enc, a := w.base.enc, ext := w.ext, i16 := w.i16, mod := m.enc false }
  | .btest d w b m => some { sw := sw, op := 0x54, fn := 3, d := d.enc, b := b.enc, a := w.base.enc, ext := w.ext, i16 := w.i16, mod := m.enc false }
  | .propose p a b c i m => some { sw := sw, op := 0x55, d := pairEnc p, a := a.enc, b := b.enc, c := c.enc, i16 := i, mod := m.enc false }
  | .dread p a b i m => some { sw := sw, op := 0x56, d := pairEnc p, a := a.enc, b := b.enc, i16 := i, mod := m.enc false }
  | .dcell a b i m => some { sw := sw, op := 0x57, a := a.enc, b := b.enc, i16 := i, mod := m.enc false }
  | .recycle d a b i m => some { sw := sw, op := 0x58, d := d.enc, a := a.enc, b := b.enc, i16 := i, mod := m.enc false }
  | .vadd d a b f => some { sw := sw, op := 0x60, fn := 0, d := vecEnc d, a := vecEnc a, b := vecEnc b, mod := f.enc }
  | .vsub d a b f => some { sw := sw, op := 0x60, fn := 1, d := vecEnc d, a := vecEnc a, b := vecEnc b, mod := f.enc }
  | .vmul d a b f => some { sw := sw, op := 0x60, fn := 2, d := vecEnc d, a := vecEnc a, b := vecEnc b, mod := f.enc }
  | .vdiv d a b f => some { sw := sw, op := 0x60, fn := 3, d := vecEnc d, a := vecEnc a, b := vecEnc b, mod := f.enc }
  | .vmin d a b f => some { sw := sw, op := 0x60, fn := 4, d := vecEnc d, a := vecEnc a, b := vecEnc b, mod := fmtEnc f }
  | .vmax d a b f => some { sw := sw, op := 0x60, fn := 5, d := vecEnc d, a := vecEnc a, b := vecEnc b, mod := fmtEnc f }
  | .vabs d a f => some { sw := sw, op := 0x60, fn := 6, d := vecEnc d, a := vecEnc a, mod := fmtEnc f }
  | .vneg d a f => some { sw := sw, op := 0x60, fn := 7, d := vecEnc d, a := vecEnc a, mod := fmtEnc f }
  | .vsqrt d a f => some { sw := sw, op := 0x60, fn := 8, d := vecEnc d, a := vecEnc a, mod := f.enc }
  | .vfma d a b c f => some { sw := sw, op := 0x61, fn := 0, d := vecEnc d, a := vecEnc a, b := vecEnc b, c := vecEnc c, mod := f.enc }
  | .vfms d a b c f => some { sw := sw, op := 0x61, fn := 1, d := vecEnc d, a := vecEnc a, b := vecEnc b, c := vecEnc c, mod := f.enc }
  | .vfnma d a b c f => some { sw := sw, op := 0x61, fn := 2, d := vecEnc d, a := vecEnc a, b := vecEnc b, c := vecEnc c, mod := f.enc }
  | .vfnms d a b c f => some { sw := sw, op := 0x61, fn := 3, d := vecEnc d, a := vecEnc a, b := vecEnc b, c := vecEnc c, mod := f.enc }
  | .viadd d a b f => some { sw := sw, op := 0x62, fn := 0, d := vecEnc d, a := vecEnc a, b := vecEnc b, mod := fmtEnc f }
  | .visub d a b f => some { sw := sw, op := 0x62, fn := 1, d := vecEnc d, a := vecEnc a, b := vecEnc b, mod := fmtEnc f }
  | .vimul d a b f => some { sw := sw, op := 0x62, fn := 2, d := vecEnc d, a := vecEnc a, b := vecEnc b, mod := fmtEnc f }
  | .vand d a b f => some { sw := sw, op := 0x62, fn := 3, d := vecEnc d, a := vecEnc a, b := vecEnc b, mod := fmtEnc f }
  | .vor d a b f => some { sw := sw, op := 0x62, fn := 4, d := vecEnc d, a := vecEnc a, b := vecEnc b, mod := fmtEnc f }
  | .vxor d a b f => some { sw := sw, op := 0x62, fn := 5, d := vecEnc d, a := vecEnc a, b := vecEnc b, mod := fmtEnc f }
  | .vshl d a b f => some { sw := sw, op := 0x62, fn := 6, d := vecEnc d, a := vecEnc a, b := vecEnc b, mod := fmtEnc f }
  | .vshr d a b f => some { sw := sw, op := 0x62, fn := 7, d := vecEnc d, a := vecEnc a, b := vecEnc b, mod := fmtEnc f }
  | .vsar d a b f => some { sw := sw, op := 0x62, fn := 8, d := vecEnc d, a := vecEnc a, b := vecEnc b, mod := fmtEnc f }
  | .viadds d a b f => some { sw := sw, op := 0x62, fn := 9, d := vecEnc d, a := vecEnc a, b := vecEnc b, mod := fmtEnc f }
  | .vcmpeq d a b f => some { sw := sw, op := 0x63, fn := 0, d := vecEnc d, a := vecEnc a, b := vecEnc b, mod := fmtEnc f }
  | .vcmplt d a b f => some { sw := sw, op := 0x63, fn := 1, d := vecEnc d, a := vecEnc a, b := vecEnc b, mod := fmtEnc f }
  | .vcmple d a b f => some { sw := sw, op := 0x63, fn := 2, d := vecEnc d, a := vecEnc a, b := vecEnc b, mod := fmtEnc f }
  | .vsel d a b c f => some { sw := sw, op := 0x63, fn := 3, d := vecEnc d, a := vecEnc a, b := vecEnc b, c := vecEnc c, mod := fmtEnc f }
  | .vperm d a b f => some { sw := sw, op := 0x64, fn := 0, d := vecEnc d, a := vecEnc a, b := vecEnc b, mod := fmtEnc f }
  | .vbcast d a f => some { sw := sw, op := 0x64, fn := 1, d := vecEnc d, a := a.enc, mod := fmtEnc f }
  | .vext d a l f => some { sw := sw, op := 0x64, fn := 2, d := d.enc, a := vecEnc a, i16 := (0 : BitVec 8) ++ l, mod := fmtEnc f }
  | .vins d a b l f => some { sw := sw, op := 0x64, fn := 3, d := vecEnc d, a := vecEnc a, b := b.enc, i16 := (0 : BitVec 8) ++ l, mod := fmtEnc f }
  | .vrsum d a f => some { sw := sw, op := 0x65, fn := 0, d := d.enc, a := vecEnc a, mod := f.enc }
  | .vrmin d a f => some { sw := sw, op := 0x65, fn := 1, d := d.enc, a := vecEnc a, mod := fmtEnc f }
  | .vrmax d a f => some { sw := sw, op := 0x65, fn := 2, d := d.enc, a := vecEnc a, mod := fmtEnc f }
  | .vcvt d a f s => some { sw := sw, op := 0x66, fn := 0, d := vecEnc d, a := vecEnc a, i16 := (0 : BitVec 12) ++ s.enc, mod := f.enc }
  | .vnarrow d a b f s => some { sw := sw, op := 0x66, fn := 1, d := vecEnc d, a := vecEnc a, b := vecEnc b, i16 := (0 : BitVec 12) ++ s.enc, mod := f.enc }
  | .vbdec d a b i => some { sw := sw, op := 0x67, fn := 0, d := vecEnc d, a := a.enc, b := b.enc, i16 := i }
  | .vbenc a b c i r => some { sw := sw, op := 0x67, fn := 1, a := a.enc, b := b.enc, c := vecEnc c, i16 := i, mod := (0 : BitVec 4) ++ r.enc }
  | .vld d a o m => some { sw := sw, op := 0x68, fn := 0, d := vecEnc d, a := a.enc, ext := o.ext, i16 := o.i16, mod := m.enc false }
  | .vst a b o m => some { sw := sw, op := 0x68, fn := 1, a := a.enc, b := vecEnc b, ext := o.ext, i16 := o.i16, mod := m.enc false }
  | .vgath d a b w m => some { sw := sw, op := 0x69, fn := 0, d := vecEnc d, a := a.enc, b := vecEnc b, i16 := BitVec.ofNat 16 w, mod := m.enc false }
  | .vscat a b c w m => some { sw := sw, op := 0x69, fn := 1, a := a.enc, b := vecEnc b, c := vecEnc c, i16 := BitVec.ofNat 16 w, mod := m.enc false }
  | .vexp2 d a f => some { sw := sw, op := 0x6A, fn := 0, d := vecEnc d, a := vecEnc a, mod := f.enc }
  | .vlog2 d a f => some { sw := sw, op := 0x6A, fn := 1, d := vecEnc d, a := vecEnc a, mod := f.enc }
  | .vrcp d a f => some { sw := sw, op := 0x6A, fn := 2, d := vecEnc d, a := vecEnc a, mod := f.enc }
  | .vrsq d a f => some { sw := sw, op := 0x6A, fn := 3, d := vecEnc d, a := vecEnc a, mod := f.enc }
  | .vtanh d a f => some { sw := sw, op := 0x6A, fn := 4, d := vecEnc d, a := vecEnc a, mod := f.enc }
  | .vrng d a b => some { sw := sw, op := 0x6B, fn := 0, d := vecEnc d, a := a.enc, b := b.enc }
  | .vrngf32 d a b => some { sw := sw, op := 0x6B, fn := 1, d := vecEnc d, a := a.enc, b := b.enc }
  | .vrngf64 d a b => some { sw := sw, op := 0x6B, fn := 2, d := vecEnc d, a := a.enc, b := b.enc }
  | .vmodeS => some { sw := sw, op := 0x6C, fn := 0 }
  | .vmodeL => some { sw := sw, op := 0x6C, fn := 1 }
  | .tshape t (.reg a) => some { sw := sw, op := 0x80, d := tileEnc t, a := a.enc }
  | .tshape t (.word x) => some { sw := sw, op := 0x80, d := tileEnc t, ext := .x32 x }
  | .tzero t => some { sw := sw, op := 0x81, d := tileEnc t }
  | .tld t a b o m => some { sw := sw, op := 0x82, d := tileEnc t, a := a.enc, b := b.enc, ext := o.ext, i16 := o.i16, mod := m.enc false }
  | .tldBlk t a b c o m => some { sw := sw, op := 0x82, d := tileEnc t, a := a.enc, b := b.enc, c := c.enc, ext := o.ext, i16 := o.i16, mod := m.enc true }
  | .tst t a b o m => some { sw := sw, op := 0x83, d := tileEnc t, a := a.enc, b := b.enc, ext := o.ext, i16 := o.i16, mod := m.enc false }
  | .trowv d t b s f => some { sw := sw, op := 0x84, fn := 0, d := vecEnc d, a := tileEnc t, b := b.enc, i16 := (0 : BitVec 8) ++ s, mod := f.enc }
  | .tcolv d t b s f => some { sw := sw, op := 0x84, fn := 1, d := vecEnc d, a := tileEnc t, b := b.enc, i16 := (0 : BitVec 8) ++ s, mod := f.enc }
  | .vtrow t a b s f => some { sw := sw, op := 0x84, fn := 2, d := tileEnc t, a := vecEnc a, b := b.enc, i16 := (0 : BitVec 8) ++ s, mod := f.enc }
  | .vtcol t a b s f => some { sw := sw, op := 0x84, fn := 3, d := tileEnc t, a := vecEnc a, b := b.enc, i16 := (0 : BitVec 8) ++ s, mod := f.enc }
  | .mma d a b s e => some { sw := sw, op := 0x85, d := tileEnc d, a := tileEnc a, b := tileEnc b, i16 := (0 : BitVec 13) ++ BitVec.ofBool e ++ s }
  | .mmau d a b s e => some { sw := sw, op := 0x86, d := tileEnc d, a := a.enc, b := tileEnc b, i16 := (0 : BitVec 13) ++ BitVec.ofBool e ++ s }
  | .cbload d a o m => some { sw := sw, op := 0x87, d := setEnc d, a := a.enc, ext := o.ext, i16 := o.i16, mod := m.enc false }
  | .mucode a => some { sw := sw, op := 0x88, a := a.enc }
  | .mmar d a b => some { sw := sw, op := 0x89, d := tileEnc d, a := tileEnc a, b := tileEnc b }
  | .mcmd d k a b c i m => some { sw := sw, op := 0x8A, d := d.enc, a := a.enc, b := b.enc, c := c.enc, ext := coordExt k, i16 := i, mod := m.enc false }
  | .msave a b o m => some { sw := sw, op := 0x8B, a := a.enc, b := b.enc, ext := o.ext, i16 := o.i16, mod := m.enc false }
  | .mrestore a b o m => some { sw := sw, op := 0x8C, a := a.enc, b := b.enc, ext := o.ext, i16 := o.i16, mod := m.enc false }
  | .tsave t a o m => some { sw := sw, op := 0x8D, fn := 0, d := tileEnc t, a := a.enc, ext := o.ext, i16 := o.i16, mod := m.enc false }
  | .trst t a o m => some { sw := sw, op := 0x8D, fn := 1, d := tileEnc t, a := a.enc, ext := o.ext, i16 := o.i16, mod := m.enc false }
  | .kick d a b m => some { sw := sw, op := 0xA0, d := d.enc, a := a.enc, b := b.enc, mod := m.enc false }
  | .tpost d a i m => some { sw := sw, op := 0xA1, d := d.enc, a := a.enc, i16 := i, mod := m.enc false }
  | .spawn d a b k => some { sw := sw, op := 0xA2, d := d.enc, a := a.enc, b := b.enc, ext := spawnCoordExt k }
  | .join => some { sw := sw, op := 0xA3 }
  | .glaunch d a x => some { sw := sw, op := 0xA4, d := d.enc, a := a.enc, ext := .x64 x }
  | .qbind p a => some { sw := sw, op := 0xA5, a := a.enc, c := portEnc p }
  | .qsndNb d p b m => some { sw := sw, op := 0xA6, fn := 0, d := d.enc, b := b.enc, c := portEnc p, mod := m.enc false }
  | .qstat d p => some { sw := sw, op := 0xA6, fn := 1, d := d.enc, c := portEnc p }
  | .nbinit a b n => some { sw := sw, op := 0xA7, fn := 0, a := a.enc, b := b.enc, i16 := BitVec.ofNat 16 n }
  | .nbarr d a n => some { sw := sw, op := 0xA7, fn := 1, d := d.enc, a := a.enc, i16 := BitVec.ofNat 16 n }
  | .nbwait d a b n => some { sw := sw, op := 0xA7, fn := 2, d := d.enc, a := a.enc, b := b.enc, i16 := BitVec.ofNat 16 n }
  | .retire => some { sw := sw, op := 0xA8 }
  | .bcopy a b c x m => some { sw := sw, op := 0xA9, fn := 0, a := a.enc, b := b.enc, c := c.enc, ext := x64Ext x, mod := m.enc false }
  | .bcast a b c x q i => some { sw := sw, op := 0xA9, fn := 1, a := a.enc, b := b.enc, c := c.enc, ext := .x64 x, i16 := (0 : BitVec 12) ++ i ++ q }
  | .mfs d r => some { sw := sw, op := 0xB0, d := d.enc, i16 := (0 : BitVec 4) ++ r.enc }
  | .mts r a => some { sw := sw, op := 0xB1, a := a.enc, i16 := (0 : BitVec 4) ++ SysReg.enc r.toSys }
  | .sstatWrite a => some { sw := sw, op := 0xB1, a := a.enc, i16 := (0 : BitVec 4) ++ SysReg.enc .sstat }
  | .fpctlWrite a => some { sw := sw, op := 0xB1, a := a.enc, i16 := (0 : BitVec 4) ++ SysReg.enc .fpctl }
  | .cbselWrite a => some { sw := sw, op := 0xB1, a := a.enc, i16 := (0 : BitVec 4) ++ SysReg.enc .cbsel }
  | .tdirtyWrite a => some { sw := sw, op := 0xB1, a := a.enc, i16 := (0 : BitVec 4) ++ SysReg.enc .tdirty }
  | .timecmpWrite a => some { sw := sw, op := 0xB1, a := a.enc, i16 := (0 : BitVec 4) ++ SysReg.enc .timecmp }
  | .wdogWrite a => some { sw := sw, op := 0xB1, a := a.enc, i16 := (0 : BitVec 4) ++ SysReg.enc .wdog }
  | .mcapWrite a => some { sw := sw, op := 0xB1, a := a.enc, i16 := (0 : BitVec 4) ++ SysReg.enc .mcap }
  | .ptbrWrite a => some { sw := sw, op := 0xB1, a := a.enc, i16 := (0 : BitVec 4) ++ SysReg.enc .ptbr }
  | .thrankWrite a => some { sw := sw, op := 0xB1, a := a.enc, i16 := (0 : BitVec 4) ++ SysReg.enc .thrank }
  | .tttbWrite a => some { sw := sw, op := 0xB1, a := a.enc, i16 := (0 : BitVec 4) ++ SysReg.enc .tttb }
  | .mevtWrite a => some { sw := sw, op := 0xB1, a := a.enc, i16 := (0 : BitVec 4) ++ SysReg.enc .mevt }
  | .tshapeWrite n a => some { sw := sw, op := 0xB1, a := a.enc, i16 := (0 : BitVec 4) ++ SysReg.enc (.tshape n) }
  | .trap i => some { sw := sw, op := 0xB2, i16 := i }
  | .ecall i => some { sw := sw, op := 0xB3, i16 := i }
  | .eret => some { sw := sw, op := 0xB4 }
  | .tlbinvPg a b => some { sw := sw, op := 0xB5, fn := 0, a := a.enc, b := b.enc }
  | .tlbinvAll b => some { sw := sw, op := 0xB5, fn := 1, b := b.enc }
  | .halt => some { sw := sw, op := 0xB6 }
  | .twait d a => some { sw := sw, op := 0xB7, d := d.enc, a := a.enc }
  | _ => none

/-- The word of an instruction with its switch marker, and its length in bytes (R16). -/
def encode (i : Instr) (sw : Bool) : Option (BitVec 128 × Nat) :=
  (i.head sw).map fun h => (h.toBits, h.ext.size)

/-- The first `n` bytes of a word, lowest first (R10). -/
def leBytes : Nat → Nat → List Byte
  | 0, _ => []
  | n + 1, x => BitVec.ofNat 8 x :: leBytes n (x / 256)

/-- The bytes of an instruction in ascending address order. -/
def encodeBytes (i : Instr) (sw : Bool) : List Byte :=
  match encode i sw with
  | none => []
  | some (w, n) => leBytes n w.toNat

/-- The length of an instruction in bytes (R16); 0 for a step of the hardware. -/
def Instr.size (i : Instr) : Nat :=
  match i.head false with
  | none => 0
  | some h => h.ext.size

/-- The instruction whose bits are `w`, numbered from bit 0 of its first byte, every bit above `nbits` zero. The word
stands at the start of a fetch block. -/
def decodeTableWord (nbits w : Nat) : Option Instr :=
  match decode (leBytes 32 (w % 2 ^ nbits)) with
  | .ok d => some d.instr
  | .error _ => none

end Sys2Proof
end

