-- ==== Sys2Proof/Machine/Mem.lean ====
section
/-!
DEFINITION. Memory: one list of bytes at 57-bit physical addresses (R229), strictly rising and without a byte that an
unlisted address reads as. It holds HBM, the second tier and the scratchpads (kind 0 of the window space, R112).
-/

namespace Sys2Proof.Machine

/-- What a byte that nothing has written reads as. DESIGN CHOICE (log 1): the spec states no contents after cold reset. -/
def unlisted : Byte := 0

/-- The canonical form: addresses strictly rising from `lo`, no entry equal to `unlisted`. -/
def memWfFrom (lo : Nat) : List Host.Cell → Bool
  | [] => true
  | (a, b) :: rest => decide (lo ≤ a) && decide (b ≠ unlisted) && memWfFrom (a + 1) rest

/-- The canonical form of memory. -/
def memWf (m : List Host.Cell) : Bool := memWfFrom 0 m

/-- One byte. -/
def memByte : List Host.Cell → Nat → Byte
  | [], _ => unlisted
  | (a, b) :: rest, x => if a = x then b else memByte rest x

/-- Writes one byte, keeping the canonical form. -/
def memSet (m : List Host.Cell) (x : Nat) (v : Byte) : List Host.Cell :=
  match m with
  | [] => if v = unlisted then [] else [(x, v)]
  | (a, b) :: rest =>
    if a < x then (a, b) :: memSet rest x v
    else if a = x then (if v = unlisted then rest else (x, v) :: rest)
    else if v = unlisted then (a, b) :: rest
    else (x, v) :: (a, b) :: rest

/-- `n` bytes from `x`, lowest first. -/
def memBytes (m : List Host.Cell) (x : Nat) : Nat → List Byte
  | 0 => []
  | n + 1 => memByte m x :: memBytes m (x + 1) n

/-- Writes bytes from `x` upward. -/
def memSetBytes (m : List Host.Cell) (x : Nat) : List Byte → List Host.Cell
  | [] => m
  | b :: bs => memSetBytes (memSet m x b) (x + 1) bs

/-- An `n`-byte little-endian number in memory. -/
def memNat (m : List Host.Cell) (x n : Nat) : Nat := leNat (memBytes m x n)

/-- A 64-bit word in memory (pmem64 of R39). -/
def memWord (m : List Host.Cell) (x : Nat) : Word := BitVec.ofNat 64 (memNat m x 8)

/-- Writes the low `n` bytes of a number. -/
def memSetNat (m : List Host.Cell) (x n v : Nat) : List Host.Cell := memSetBytes m x (leBytes n v)

end Sys2Proof.Machine
end

