-- ==== Sys2Proof/Machine/State.lean ====
section
/-!
DEFINITION. The state of the whole system (R1): every hart with its registers, outstanding operations and parking; every core,
cluster, die and module; memory; and what is on its way between them. State is plain data. Maps hold only what differs
from its reset value: a core, die, cluster or module without an entry is as after reset.
-/

namespace Sys2Proof.Machine

/-- The trap and fault causes of R203. -/
inductive Cause where
  | ialign | illenc | illop | priv | engop | ifetch | subn | malign | pgflt | prot | winflt | memerr | feword | redflt
  | bovr | poison | blkfmt | tuncfg | town | tlazy | tfmt | mimg | ecall | swtrap | timer | watch | qstall | qunb | nbflt
  | lnchflt | depcyc | straggle | clkloss | linkmis | ereply | parkfull | double | mchk | recflt
  deriving DecidableEq, Repr

/-- A register with its full/empty bit (R25). -/
structure Reg (α : Type) where
  val : α
  full : Bool
  deriving DecidableEq, Repr

/-- g, v and w registers of a strand (R23, R143). -/
structure RegFile where
  g : Vector (Reg Word) 16
  v : Vector (Reg V256) 16
  w : Vector (Reg W2048) 16
  deriving DecidableEq, Repr

/-- SSTAT (R198). -/
structure Status where
  vl : Bool
  priv : BitVec 2
  ppriv : BitVec 2
  tip : Bool
  jcnt : BitVec 8
  deriving DecidableEq, Repr

/-- FPCTL (R64). -/
structure FpCtl where
  rm : BitVec 2
  subn : Bool
  nv : Bool
  dz : Bool
  of : Bool
  uf : Bool
  nx : Bool
  deriving DecidableEq, Repr

/-- The flags one operation raises (R64). -/
structure FpFlags where
  nv : Bool := false
  dz : Bool := false
  of : Bool := false
  uf : Bool := false
  nx : Bool := false
  deriving DecidableEq, Repr

/-- The trap registers (R31, R198). TVEC and TRES hold bits [63:2] only, TCAUSE bits [6:0]. -/
structure TrapRegs where
  tvec : Word
  tcause : BitVec 7
  tpc : Word
  tval : Word
  rply : Word
  tres : Word
  tscr : Word
  nbpend : BitVec 40
  deriving DecidableEq, Repr

/-- PTBR (R198). -/
structure Ptbr where
  asid : BitVec 16
  root : BitVec 45
  deriving DecidableEq, Repr

/-- The take replay state (R366). -/
structure TakeReplay where
  tkpc : Word
  tkmask : Word
  tknb : BitVec 40
  deriving DecidableEq, Repr

/-- A queue port: QCFGn (R216), the receive buffer of an input port (R217, oldest first), and the last stop signal of an
output port (R218). -/
structure Port where
  cfg : BitVec 40
  buf : List Word
  stop : Bool
  deriving DecidableEq, Repr

/-- The kinds of strand record (R285). -/
inductive Role where
  | gridStrand | taskStrand | child
  deriving DecidableEq, Repr

/-- What a strand belongs to: its context (R317), group (R215) and the k registers that are not computed from its place
(R9): a strand that a MIG takes to another module keeps its k6. `uid` is the model's own name of the strand. -/
structure Ident where
  uid : Nat
  role : Role
  gang : Nat
  group : Nat
  k1 : Word
  k2 : Word
  k4 : Word
  k5 : Word
  k6 : Word
  k7 : Word
  deriving DecidableEq, Repr

/-- A join record (R279) by die of the system and index. -/
structure JoinRef where
  die : Nat
  index : Nat
  deriving DecidableEq, Repr

/-- What an access needs of its page (R106). `probe` translates without a permission check (MIG, R142). -/
inductive Right where
  | read | write | both | exec | probe
  deriving DecidableEq, Repr

/-- A page-table leaf as a translation uses it (R231): the base its PPN names, log2 of the page size, and its attributes. -/
structure Leaf where
  base : Nat
  size : Nat
  r : Bool
  w : Bool
  x : Bool
  u : Bool
  g : Bool
  grain : BitVec 2
  pol : BitVec 3
  stripe : BitVec 4
  deriving DecidableEq, Repr

/-- An entry of a TLB or of a die's translation cache (R296): the virtual page base and the leaf. -/
structure TlbEntry where
  asid : BitVec 16
  va : Nat
  leaf : Leaf
  deriving DecidableEq, Repr

/-- Where a piece of an access lies: its physical address, the page's policy and grain (R224, R231), the base its leaf
names, log2 of the page size, the offset in the page, and the peer set of a striped page (R347). -/
structure Placed where
  pa : Nat
  pol : BitVec 3
  grain : BitVec 2
  page : Nat
  size : Nat
  off : Nat
  stripe : BitVec 4
  deriving DecidableEq, Repr

/-- One contiguous piece of an access, within one page. `at_` is set once it is translated; a window operand has it at
once. -/
structure Span where
  va : Word
  len : Nat
  right : Right
  at_ : Option Placed
  deriving DecidableEq, Repr

/-- The atomic functions (R122). -/
inductive AtomicFn where
  | swap | cas | add | and | or | xor | min | max | minn | maxn | fadd
  deriving DecidableEq, Repr

/-- The modes of one floating-point instruction, read once at issue (R63). -/
structure FpMode where
  rnd : Rnd
  flush : Bool
  deriving DecidableEq, Repr

/-- What an instruction takes from its hart as it issues, and a launch hands on (R198, R206, R311, R317): the context, the address space,
the level, and TVEC and TSCR. -/
structure Poster where
  gang : Nat
  ptbr : Ptbr
  priv : BitVec 2
  tvec : Word
  tscr : Word
  deriving DecidableEq, Repr

/-- The work of an outstanding operation, its operands read at issue. -/
inductive Op where
  /-- A result that needs nothing further: divide, remainder, a variable MFS, a status known at issue. -/
  | value (v : Word)
  /-- A long-vector or special-function result with the flags it raises; a special function's with its place in the order in which its core's
  unit serves all strands (R147, R160). -/
  | vector (v : W2048) (f : FpFlags) (special : Option Nat)
  /-- A long-vector scalar result. -/
  | scalarF (v : Word) (f : FpFlags)
  /-- A long-vector instruction that found subnormal operands (R67). -/
  | subnormal (mask : Word)
  /-- LDL (R87). -/
  | literal
  /-- A load of a memory or window address (R109). -/
  | load (signed : Bool)
  /-- LDBIT (R113). -/
  | loadBits (bit width : Nat) (sx : Bool)
  /-- A store of bytes, one list per span (R110). -/
  | store (data : List (List Byte))
  /-- MSAVE's store of an image, which frees the frozen state of its slot as it is accepted (R192). -/
  | saveImage (slot : Nat) (data : List (List Byte))
  /-- ST.z (R111). -/
  | storeNone
  /-- STBIT (R113). -/
  | storeBits (bit width : Nat) (v : Word)
  | take
  | put (v : Word)
  | peek
  | cflush
  | cinval
  /-- TDECL of a descriptor (R138). -/
  | tdecl (desc : Word)
  | tundecl
  /-- TFWD to a core, or to none when the target is FAR whatever the tile (R141). -/
  | tfwd (target : Option Nat)
  /-- MIG (R142), with the status it decided at issue. -/
  | mig (status : Nat)
  | atomic (fn : AtomicFn) (b c : Word)
  | redDecl (desc : Word)
  | redAdd (slot val : Word)
  | redRead (m : FpMode)
  | barInit (exp : Word)
  | barArrive (cnt : Word)
  | barWait (ph : Word)
  | barTest (ph : Word)
  | propose (val gen : Word)
  | decRead (gen : Word)
  | decOpen (gen : Word)
  | recycle (gen : Word)
  /-- VLD (R157) and VGATH (R158). -/
  | vload
  | vgather
  /-- VBDEC from an element, with codebooks and mode as at issue (R155). -/
  | vbdec (e0 : Word) (flush : Bool) (books : List (BitVec 256))
  /-- VBENC (R156). -/
  | vbenc (desc : Word) (lanes : W2048) (long : Bool) (m : FpMode)
  /-- A matrix-class load, store or move waiting in the core's matrix queue (R170), by its entry number. -/
  | matrix (entry : Nat)
  /-- MCMD (R188): command and capability, and once it waits at its target's port its place there (R306). -/
  | mcmd (cmd cap : Word) (ticket : Option Nat)
  /-- KICK (R207), TPOST (R211), SPAWN (R214), GLAUNCH (R213). -/
  | kick (engine desc : Word)
  | tpost
  | spawn (entry arg : Word) (target : Option Nat)
  | glaunch (done : Word)
  /-- NBINIT, NBARR and NBWAIT (R219) on a core; a replayed NBARR knows the phase in which it arrived. -/
  | nbArrive (core barrier : Nat) (phase : Option (BitVec 4))
  | nbWait (core barrier : Nat) (ph : Word)
  /-- TWAIT (R205). -/
  | twait (deadline : Word)
  /-- Bulk copies (R209, R210): the bytes written, and those of the bursts delivered and arrived. -/
  | bcopy (dst src len : Word) (bar : Option Word) (sent done : Nat)
  | bcast (src len : Word) (doff boff : Nat) (ben : Bool) (cores : List Nat) (sent done : Nat)
  /-- Fences (R118, R119), which order and hold no place. -/
  | fence
  | fenceLight
  deriving DecidableEq, Repr

/-- Where a result goes. -/
inductive Dest where
  | none
  | scalar (d : Dst)
  | pair (p : Fin 8)
  | v (r : Fin 16)
  | w (r : Fin 16)
  deriving DecidableEq, Repr

/-- How far an outstanding operation has come. -/
inductive Phase where
  /-- Issued; spans may still need translation. -/
  | request
  /-- Held in a list at the owning core or home until something delivers to it. -/
  | waiting
  /-- Performed: the words due to the destination. -/
  | done (r : List Word)
  /-- A memory fault that is not yet reported; the strand goes on issuing until it is (R31). -/
  | found (c : Cause) (tval : Word)
  /-- A memory fault, reported (R31). -/
  | faulted (c : Cause) (tval : Word)
  deriving DecidableEq, Repr

/-- An outstanding operation of a hart, in program order. -/
structure Pending where
  seq : Nat
  pc : Word
  op : Op
  dest : Dest
  spans : List Span
  mod : MemMod
  phase : Phase
  /-- Counts as a store under R29 and R32. -/
  store : Bool
  /-- A store that is accepted and still outstanding: a PUT or RED.ADD until it is performed (R107). -/
  accepted : Bool
  /-- Holds one of the eight outstanding places of R28. -/
  place : Bool
  /-- Its target lies on another module (R28). -/
  remote : Bool
  /-- When it was issued: from then on REMTO runs (R348; DESIGN CHOICE, log 99). -/
  sent : Nat
  /-- A 96-bit window form, checked by check 6 of R230. -/
  coord : Bool
  /-- The grain has been brought to the core (R236). -/
  fetched : Bool
  /-- An ordinary store reached the barrier object on which it arrives or waits: its result is unspecified (R128). -/
  spoiled : Bool
  /-- The context, address space and level it was issued with: a later MTS or ERET does not reach it (R198). -/
  by_ : Poster
  deriving DecidableEq, Repr

/-- What an instruction that its own meaning keeps from issuing waits for. -/
inductive Hold where
  /-- The strand's one remote place (R28). -/
  | remote
  /-- Nothing outstanding, and every store of its own visible (R119, R121). -/
  | shown
  /-- Nothing of the strand outstanding or on its way (R215). -/
  | finished
  /-- No access and no launch outstanding (R198). -/
  | quiet
  /-- Nothing outstanding, and no walk in flight on the module (R220). -/
  | walks
  /-- A join record of its die (R279). -/
  | join
  /-- No TRST of some tiles in the matrix queue (R195). -/
  | restored (ts : List (Fin 8))
  /-- No frozen state of its slot (R293). -/
  | thawed
  /-- Room in the matrix queue (R170). -/
  | queue
  /-- No codebook load in the matrix queue (R182). -/
  | books
  /-- Its own stores to bytes of the scratchpad seen there: their offsets and lengths (R185). -/
  | scratch (bytes : List (Nat × Nat))
  /-- Room in the special-function queue (R160). -/
  | special
  /-- No command accepted and not performed (R189). -/
  | commands
  /-- No entry of the matrix queue that names a tile (R292). -/
  | entries (t : Fin 8)
  /-- No entry of the matrix queue that may name a tile of a strand, and no command that a slot of the core has issued and that is not performed
  (R292). -/
  | allEntries
  /-- The walk of a page that it needs (R296). -/
  | walk
  deriving DecidableEq, Repr

/-- Why a strand does not issue (R270). -/
inductive Park where
  | ready
  /-- Read of an empty register. -/
  | reg
  /-- After a switch marker. -/
  | marker
  /-- A taken transfer, or an instruction that parks first as a marker does. -/
  | before
  /-- Held unissued by the limits of R28. -/
  | held
  /-- Held unissued by what its meaning waits for. -/
  | blocked (w : Hold)
  /-- Push to a stopped port or pop from an empty one; the ports. -/
  | queue (ports : List (Fin 4))
  /-- WAIT, with its mask. -/
  | wait (mask : BitVec 16)
  | waitst
  | children
  | longContext
  deriving DecidableEq, Repr

/-- Which harts may run an instruction (R206). -/
inductive Profile where
  | any | coreOnly | engineOnly
  deriving DecidableEq, Repr

/-- What an instruction needs before it issues. -/
structure Need where
  srcs : List Src := []
  dsts : List Dst := []
  vecs : List (Fin 16) := []
  profile : Profile := .any
  supervisor : Bool := false
  place : Bool := false
  /-- No hart may run it (R198). -/
  refused : Bool := false
  /-- The checks 8 and 9 of R18 that depend on the mode at issue fail. -/
  illenc : Bool := false
  deriving DecidableEq, Repr

/-- The instruction word that issues: its switch marker and first 32 bits (R18). -/
structure WordInfo where
  sw : Bool
  first : BitVec 32
  deriving DecidableEq, Repr

/-- A replay in progress (R33, R366): addresses still to be executed, in order, and for each NBARR still to be executed, in
order, the phase in which it arrived before it was withdrawn (R219). -/
structure ReplayState where
  todo : List Word
  phases : List (Option (BitVec 4))
  deriving DecidableEq, Repr

/-- The issue side of a hart. -/
structure RunState where
  seq : Nat
  ops : List Pending
  park : Park
  /-- What the instruction that waits needs before it issues, where that is all it waits for. -/
  need : Option Need
  /-- A queue access has parked the strand and is not complete (R271). -/
  queued : Bool
  replay : ReplayState
  /-- An issue-time cause that waits for outstanding results (R34), with TVAL and whether its instruction counts as
  issued (R202). -/
  due : Option (Cause × Word × Bool)
  /-- Pending asynchronous causes (R204) with TVAL. -/
  async : List (Cause × Word)
  halted : Bool
  dbl : Bool
  /-- Held by a take (R283). -/
  held : Bool
  /-- The timed action whose gate holds the strand (R327). -/
  gate : Option Nat
  watch : Nat
  lastPc : Word
  issued : Nat
  /-- The drain requests of an FNC.HV (R119): the store number they were sent at, and the agents that have not answered. -/
  drain : Option (Nat × List Agent)
  /-- The ship that takes the strand at its next clean point (R142, R277). -/
  ship : Option Nat
  /-- RETIRE has issued and waits (R215, R318). -/
  retiring : Bool
  /-- Addresses of matrix instructions cancelled behind a faulting one (R295). -/
  cancelled : List Word
  /-- The page whose walk for this hart's fetch ended in a fault (R296). -/
  fetchFault : Option (Nat × Cause)
  deriving DecidableEq, Repr

/-- Registers of the matrix unit held per strand (R181, R183, R186). -/
structure MatrixRegs where
  scale : Vector (BitVec 32) 4
  unf : Vector Word 4
  ucode : Word
  deriving DecidableEq, Repr

/-- A strand, or the context of a running engine hart (R5, R206). -/
structure HartState where
  id : Ident
  regs : RegFile
  pc : Word
  st : Status
  /-- SMODE.MIGR. -/
  migr : Bool
  fp : FpCtl
  mx : MatrixRegs
  ports : Vector Port 4
  timecmp : Word
  trap : TrapRegs
  ptbr : Ptbr
  take : TakeReplay
  run : RunState
  /-- The join record this strand's children use, and the record that counts this strand (R279, R287). -/
  joinOwn : Option JoinRef
  joinParent : Option JoinRef
  /-- The module and the record of the parent of a restored child (R287). -/
  plink : Option (Nat × Nat)
  deriving DecidableEq, Repr

/-- A store accepted by a store buffer and not yet visible (R29, R259), in acceptance order over the system. -/
structure Accepted where
  n : Nat
  hart : Hart
  uid : Nat
  asid : BitVec 16
  user : Bool
  gang : Nat
  core : Option Nat
  p : Pending
  /-- A remote store already performed, whose acknowledgement is on its way (R348). -/
  performed : Bool
  deriving DecidableEq, Repr

/-- A queue entry that its target has accepted and cannot pop yet: the strand it goes to, by uid, its input port and its priority (R216, R272);
the strand that pushed it, its output port, and the place of the push in that strand's program order (R217). -/
structure QueueMsg where
  target : Nat
  port : Fin 4
  low : Bool
  val : Word
  src : Nat
  from_ : Fin 4
  seq : Nat
  deriving DecidableEq, Repr

/-! Cores. -/

/-- A waiter for a full/empty word (R115) or a barrier object (R128), by hart, uid and sequence number. -/
structure Waiter where
  hart : Hart
  uid : Nat
  seq : Nat
  deriving DecidableEq, Repr

/-- What an entry of a deferred list waits for (R116). -/
inductive DeferKind where
  | take | peek
  | put (v : Word)
  | bar (pa : Nat) (ph : BitVec 4)
  deriving DecidableEq, Repr

/-- An entry of a core's deferred list: the word index, the kind, the waiter. -/
structure Deferred where
  word : Nat
  kind : DeferKind
  who : Waiter
  deriving DecidableEq, Repr

/-- A named barrier (R219). Its waiters are the waiting NBARR and NBWAIT operations. -/
structure NamedBar where
  exp : Nat
  arr : Nat
  phase : BitVec 4
  init : Bool
  deriving DecidableEq, Repr

/-! The matrix unit (R165 to R195). -/

/-- A tile register: its data, its 32 row tags, TSHAPEn, and its TDIRTY bits. -/
structure Tile where
  data : TileData
  tags : List (BitVec 16)
  shape : Word
  dirty : Bool
  absent : Bool
  deriving DecidableEq, Repr

/-- An element of an MMAU's virtual A that lies in the scratchpad at `off`, or in none: the values its bytes have had since issue, any of which
the unit may have read (R185, R301), and the cores whose scratchpads hold it: that of issue, and those where its bytes have been written since the
freeze (R302). -/
structure UnfoldElem where
  off : Option Nat
  vals : List Nat
  copied : List Nat
  deriving DecidableEq, Repr

/-- What a matrix instruction fixes at issue or acceptance (R180, R185, R188): the scale, the four codebook sets, CBSEL, the
inner-loop buffer and FPCTL.SUBN. -/
structure MxSnap where
  /-- The shape words of the tiles it names, in the order D, A, B. -/
  shapes : List Word
  scale : Option (BitVec 32)
  books : List (BitVec 256)
  cbsel : BitVec 2
  ucode : Word
  flush : Bool
  deriving DecidableEq, Repr

/-- A matrix instruction in the queue. -/
inductive MxOp where
  /-- TZERO, and the zeroing done by TSHAPE. -/
  | zero (t : Fin 8)
  | clear (t : Fin 8)
  /-- TLD with the words of its rows, each once it is read (R175, R300). -/
  | tld (t : Fin 8) (e0 : Option Word) (got : List (Option (List Byte)))
  | tst (t : Fin 8)
  | cbload (set : Fin 4)
  | rowv (col : Bool) (d : Fin 16) (t : Fin 8) (idx : Word) (start : Nat) (fmt : Fmt) (rnd : Rnd)
  | vrow (col : Bool) (t : Fin 8) (lanes : W2048) (idx : Word) (start : Nat) (fmt : Fmt) (rnd : Rnd)
  | mma (d a b : Fin 8)
  /-- MMAU with its A elements, row by row; `open_` once it has thawed on a core to which they had not been copied (R302). -/
  | mmau (d : Fin 8) (b : Fin 8) (k : Nat) (fmt : Fmt) (elems : List UnfoldElem) (open_ : Bool)
  | mmar (d a b : Fin 8)
  | msave (slot : Word) (first : Word)
  | mrestore (slot : Word) (first : Word)
  | tsave (t : Fin 8)
  | trst (t : Fin 8)
  /-- A window store of kind 2 at an offset (R190). -/
  | window (off : Nat) (bytes : List Byte)
  /-- A window load of kind 2 and the operation that waits for it (R190). -/
  | windowRead (off len : Nat) (who : Waiter)
  /-- An instruction of an altered image (R193): the tile it writes. -/
  | unspecified (t : Fin 8)
  deriving DecidableEq, Repr

/-- An entry of the matrix queue: its number, the strand by its uid and slot (a command carries the hart that sent it and
is never frozen), its operation in program order when it has one, its place in that order, and whether it is a remote command or window
access. -/
structure MxEntry where
  id : Nat
  uid : Nat
  slot : Nat
  seq : Option Nat
  at_ : Nat
  remote : Bool
  op : MxOp
  snap : MxSnap
  pc : Word
  deriving DecidableEq, Repr

/-- SCALE0-3, UNF, the inner-loop buffer and FPCTL.SUBN that a taken strand leaves with its slot (R305), and the strand's uid, whose tiles and
frozen state are what the slot keeps (R288). -/
structure Residue where
  uid : Nat
  mx : MatrixRegs
  flush : Bool
  deriving DecidableEq, Repr

/-- Frozen state of a slot (R191). -/
structure Frozen where
  slot : Nat
  entries : List MxEntry
  deriving DecidableEq, Repr

/-- A core (R3). -/
structure CoreState where
  usable : Bool
  wdog : BitVec 32
  /-- Full tags of the synchronisation region (R114): the indexes of the full words. -/
  tags : List Nat
  deferred : List Deferred
  /-- Instruction cache blocks by physical block address (R22). -/
  icache : List (Nat × BitVec 256)
  tlb : List TlbEntry
  /-- The slot that issued last, and the slots in the order of their last issue, latest first (R269). -/
  lastSlot : Nat
  recent : List Nat
  /-- YIELD obligations: a slot and the slots that must issue before it does (R94). -/
  yields : List (Nat × List Nat)
  /-- CB0 to CB3 (R70), CBSEL and MCAP (R198, R189). -/
  books : List (BitVec 256)
  cbsel : BitVec 2
  mcap : Word
  /-- Named barriers that differ from reset (R219). -/
  nbars : List (Nat × NamedBar)
  tiles : Vector Tile 8
  queue : List MxEntry
  frozen : Option Frozen
  /-- Slots disabled by the thermal controller (R281). -/
  disabled : List Nat
  /-- Arithmetic clock in steps of 0.25 GHz (R4, R281). -/
  clock : Nat
  hot : Bool
  /-- What taken strands leave with their slots (R305). -/
  residue : List (Nat × Residue)
  deriving DecidableEq, Repr

/-- A page walk in flight: its address space, root and page, the requests joined to it, and the harts whose fetch joined it, by uid
(R296). -/
structure Walk where
  ptbr : Ptbr
  page : Nat
  joined : List Waiter
  fetching : List Nat
  deriving DecidableEq, Repr

/-- A join record (R279): the parent by its uid, and the count. -/
structure JoinRec where
  parent : Nat
  count : Nat
  deriving DecidableEq, Repr

/-- A die. `stage` is the step of a warm reset (R359), 0 when none is in progress. -/
structure DieState where
  cache : List TlbEntry
  walks : List Walk
  inService : Bool
  stage : Nat
  /-- The ranking table (R281): position and core within the die; THRANK as last written. -/
  ranks : List (Nat × Nat)
  thrank : BitVec 16
  joins : List (Nat × JoinRec)
  /-- Physical cores that have failed, nine to a cluster, and the remap tables as firmware last wrote them, by cluster (R356): the physical core of
  each core number. A cluster without an entry uses its first eight. -/
  failed : List Nat
  remap : List (Nat × List Nat)
  deriving DecidableEq, Repr

/-! The dispatcher (R211 to R215, R307 to R322). -/

/-- A posted task (R211): its number, its record and its poster. -/
structure Task where
  n : Nat
  va : Word
  pa : Nat
  tti : Nat
  copy : Bool
  xyz : Word
  stage : Nat
  succ : Word
  arg : Word
  by_ : Poster
  /-- The timed action that named it in its task list (R321). -/
  act : Option Nat
  deriving DecidableEq, Repr

/-- A gang grid's module set and this module's position in it (R329). -/
structure Share where
  mset : List Nat
  pos : Nat
  /-- Positions whose share is complete, kept at position 0 (R330). -/
  complete : List Nat
  deriving DecidableEq, Repr

/-- A live grid (R213, R312, R313): the four words of its descriptor, the retired groups, the retired groups of other shares,
the released groups not yet placed, the groups ever released, and the completion address. -/
structure Grid where
  id : Nat
  desc : List Word
  by_ : Poster
  caddr : Nat
  retired : List Nat
  others : List Nat
  /-- Groups of this module's share that run on another module, where their records were installed (R338). -/
  away : List Nat
  pending : List Nat
  released : List Nat
  next : Nat
  nret : Nat
  share : Option Share
  /-- The timed action that made it, and its position among the gang grids there: by these the modules of a gang name it (R329). -/
  act : Option Nat
  order : Nat
  deriving DecidableEq, Repr

/-- What a group runs: a group of a grid, a posted task, a spawned child. -/
inductive GroupKind where
  | grid (id index : Nat)
  | task (t : Task)
  | child
  deriving DecidableEq, Repr

/-- A group in flight: its module, the strands it still has, and the scratchpad KiB it reserves on cores (R309). -/
structure Group where
  module_ : Nat
  gang : Nat
  kind : GroupKind
  left : Nat
  spk : List (Nat × Nat)
  deriving DecidableEq, Repr

/-- An entry of the ready pool (R307, R308). -/
inductive PoolItem where
  | task (t : Task)
  | grid (id : Nat)
  deriving DecidableEq, Repr

/-- A pool entry: class of its TTT entry, class it stands in, placements of higher classes while at the head, and how often
it was passed over (R308). -/
structure PoolEntry where
  item : PoolItem
  prio : Nat
  cls : Nat
  aged : Nat
  passed : Nat
  deriving DecidableEq, Repr

/-- A successor list being walked (R211): the list's next address, entries left, the completing task's poster, and the successor
that waits for room in the pool, with the module it was posted on. -/
structure SuccWalk where
  at_ : Word
  left : Nat
  by_ : Poster
  wait : Option (Nat × Task)
  deriving DecidableEq, Repr

/-- A report (R327): sender, its TIME at the start, LATE, FB, the sender's scoreboards of gang grids in order (R330), and the groups of each that
its records hold in flight (R320). -/
structure Report where
  from_ : Nat
  time : Nat
  late : Bool
  fb : Bool
  boards : List (List Nat)
  flying : List (List Nat)
  deriving DecidableEq, Repr

/-- A timed-launch record held by a module (R215, R325), with the reports that came for it (R327). -/
structure Timed where
  n : Nat
  act : Nat
  gang : Nat
  start : Nat
  tol : Nat
  ctx : Nat
  mset : List Nat
  by_ : Poster
  /-- The switch token has arrived (R334). -/
  token : Bool
  reports : List Report
  /-- STRAGGLE was raised for it (R328). -/
  straggled : Bool
  deriving DecidableEq, Repr

/-- What an action does next (R283, R321): recreate grids, install records, replay packets, release groups, enter tasks; or take
strands; or nothing more. -/
inductive Stage where
  | grids | records | packets | release | tasks | take | done
  deriving DecidableEq, Repr

/-- An action of a gang on a module (R326 to R328). -/
structure Action where
  order : Timed
  stage : Stage
  open_ : Bool
  /-- After STRAGGLE, a RUN store has come to a strand that the gate holds (R328). -/
  ran : Bool
  /-- Where the dispatcher reads the grid save area next, and how many grid records or task addresses are left there. -/
  cursor : Nat
  left : Nat
  ntask : Nat
  /-- Grids recreated: the id in the record, and the new one. -/
  grids : List (Nat × Nat)
  /-- Strand records still to be installed (R289), and the uid of each strand installed or taken. -/
  todo : List Nat
  done : List (Nat × Nat)
  /-- Task records of the context, in the order of the save area (R318). -/
  tasks : List Word
  /-- Records of children that wait for their PLINK, each with the uid of its parent, which another module has yet to take (R287). -/
  orphans : List (Nat × Nat)
  /-- The uid of its hardware stores. -/
  uid : Nat
  deriving DecidableEq, Repr

/-- A parked packet of a taken gang (R331). -/
inductive Packet where
  | store (a : Accepted)
  /-- A SPAWN of a parent, by its uid. -/
  | launch (target : Nat) (parent : Nat) (entry arg : Word) (by_ : Poster)
  deriving DecidableEq, Repr

/-- A gang taken on a module (R331, R332): the parking area it holds, its packets, and whether PARKFULL was raised. -/
structure Taken where
  gang : Nat
  area : Bool
  packets : List Packet
  full : Bool
  deriving DecidableEq, Repr

/-! Edges of a module (R323 to R365). -/

inductive Clock where
  | locked | holdover | free
  deriving DecidableEq, Repr

/-- The time unit (R323, R324): its state, good intervals in a row, intervals missed, and when holdover began. -/
structure TimeUnit where
  clock : Clock
  good : Nat
  missed : Nat
  since : Nat
  slew : Int
  deriving DecidableEq, Repr

/-- A fabric port (R345, R346): what training has set; as a receiver the number it expects, its counters, how often the flit it expects has been
replayed in succession, and the packets it has in part, by channel, with the flits still to come; as a sender its next number, the replay buffer of
flits not yet acknowledged, and the flits of a port held down that it sends before any newer one. -/
structure FabricPort where
  up : Bool
  width : Nat
  lanes : List Nat
  rate : Nat
  expected : BitVec 12
  acks : Nat
  naks : Nat
  replays : Nat
  parts : List (Nat × FlitHeader × Nat)
  next : BitVec 12
  replay : List Flit
  owed : List Flit
  deriving DecidableEq, Repr

/-- A port as bring-up leaves it. -/
def FabricPort.reset : FabricPort := ⟨true, 4, [0, 1, 2, 3], 448, 0, 0, 0, 0, [], 0, [], []⟩

/-- The host DMA unit and the host's registers (R353, R354). -/
structure HostState where
  base : BitVec 56
  log2 : BitVec 5
  head : BitVec 16
  tail : BitVec 16
  en : Bool
  err : Bool
  mailbox : List (Nat × Word)
  bells : List Nat
  mbxdone : Word
  /-- MSI-X vectors raised, oldest first. -/
  msix : List Nat
  up : Bool
  deriving DecidableEq, Repr

/-- What a recording logs (R361): a completion of the host DMA unit with its bytes, a write of the host, a timed-launch record, a packet by its
header as a port receives it, and what a request from another module does where it arrives: its hart, the address, and the bytes there then. -/
inductive LogItem where
  | dma (index pa caddr : Nat) (data : List Byte)
  | hostWrite (pa : Nat) (data : List Byte)
  | timed (t : Timed)
  | packet (h : FlitHeader)
  | request (src : Hart) (pa : Nat) (data : List Byte)
  deriving DecidableEq, Repr

/-- Recording of inputs (R361). -/
structure Recording where
  /-- The gangs for which firmware has enabled it, with the ranges of memory that are the gang's pages. -/
  gangs : List (Nat × List (Nat × Nat))
  log : List (Nat × LogItem)
  drops : Nat
  deriving DecidableEq, Repr

/-- An attestation report (R362), with its signature and the certificate of the key. -/
structure Attest where
  digests : List (BitVec 256)
  version : BitVec 32
  nonce : Word
  module_ : Nat
  sig : Signature
  cert : List Byte
  deriving DecidableEq, Repr

/-- A die event of a warm reset (R359): the die, the contexts lost, and the physical ranges held on its stacks. -/
structure DieEvent where
  die : Nat
  lost : List Nat
  ranges : List (Nat × Nat)
  deriving DecidableEq, Repr

/-- A module. TIME is `State.now` plus `time`. -/
structure ModuleState where
  time : Int
  /-- Peer sets 1-15 by number (R347). -/
  peers : List (Nat × List Nat)
  inService : Bool
  tttb : Word
  mevt : Word
  /-- Module events pending, one per code, and those counted only (R204). -/
  events : List (Cause × Word)
  counted : Nat
  pool : List PoolEntry
  /-- Tasks posted with PRED > 0. -/
  waiting : List Task
  succs : List SuccWalk
  grids : List Grid
  /-- The cluster after the last cyclic placement, and the die of the next cyclic copy task (R309). -/
  clusterPtr : Nat
  diePtr : Nat
  timed : List Timed
  actions : List Action
  taken : List Taken
  unit : TimeUnit
  ports : List (Nat × FabricPort)
  /-- Route changes of firmware in force, by destination: a port; and those that wait until the pair has no packet in flight (R344). -/
  routes : List (Nat × Nat)
  reroutes : List (Nat × Nat)
  host : HostState
  recording : Recording
  /-- Power cap in milliwatts (R363). -/
  cap : Nat
  /-- Spared channels by stack, and channels reported only (R357). -/
  spared : List (Nat × Nat)
  reported : List (Nat × Nat)
  /-- Soft errors that the codes have corrected (R358): all of them, those of each channel of HBM, and firmware's threshold for a channel (R357). -/
  corrected : Nat
  channelErrors : List ((Nat × Nat) × Nat)
  threshold : Nat
  /-- Contexts lost in a warm reset, and the die events that report them (R359). -/
  lost : List Nat
  dieEvents : List DieEvent
  attest : Option Attest
  /-- MCHK was raised: the module waits for the management controller (R360). -/
  stopped : Bool
  /-- Firmware's settings: HOT, COOL (degrees), holdover HOLD, REMTO and back-invalidation timeout (ns). -/
  hotAt : Nat
  coolAt : Nat
  hold : Nat
  remto : Nat
  bito : Nat
  /-- The PTP domain, and the sync interval in ns (R323). -/
  ptpDomain : Nat
  ptpInterval : Nat
  /-- The modules over which a gang runs, by gang (R317). -/
  msets : List (Nat × List Nat)
  /-- Firmware images loaded and the security version (R362). -/
  digests : List (BitVec 256)
  secver : BitVec 32
  deriving DecidableEq, Repr

/-! Coherence (R226, R234 to R243). -/

/-- The directory entry of a grain with cached copies (R234): its size; in state X the core that owns it; in state S the sharer vector, one
bit per cluster of the home's die, and one presence bit per other die; the host's copy, shared or owned. `copies` and `dirty` are the caches'
side of it: the cores that do hold a shared copy, and the owner's dirty sectors (R236). -/
structure GrainDir where
  size : Nat
  owner : Option Nat
  vec : BitVec 32
  dies : BitVec 4
  copies : List Nat
  host : Bool
  hostX : Bool
  dirty : List Nat
  deriving DecidableEq, Repr

/-- The states of a tile (R237); in TF, the target. -/
inductive TileState where
  | ti | ts | te | tf (target : Nat)
  deriving DecidableEq, Repr

/-- A tile record (R237), with the caches' side of it as in `GrainDir`. -/
structure TileRec where
  base : Nat
  rows : Nat
  rbytes : Nat
  pitch : Nat
  grain : Nat
  state : TileState
  owner : Option Nat
  vec : BitVec 32
  dies : BitVec 4
  copies : List Nat
  host : Bool
  hostX : Bool
  dirty : List Nat
  deriving DecidableEq, Repr

/-- What a coherence request acts on: a tile, or a grain or split sector (R236, R237, R239). -/
inductive CohUnit where
  | tile (base : Nat)
  | line (base size : Nat)
  deriving DecidableEq, Repr

/-- A back-invalidation snoop of a 64-byte line that the host has not answered, the request that waits for it, and whether the host loses its
copy or keeps it shared (R242). -/
structure Snoop where
  line : Nat
  req : Req
  own : Bool
  sent : Nat
  /-- The units of the request of which the line is part: those the host is asked for. -/
  units : List CohUnit
  deriving DecidableEq, Repr

/-- Whose request waits at the homes: a core's, or the host's for a line, for ownership or not (R241). -/
inductive Visitor where
  | req (r : Req)
  | host (own : Bool)
  deriving DecidableEq, Repr

/-- A request that waits at the homes of its ranges, in the order in which it arrived (R236, R237, R240, R242). -/
structure Arrival where
  who : Visitor
  ranges : List (Nat × Nat)
  deriving DecidableEq, Repr

/-- A cached decided copy of a decide-once cell (R136). -/
structure Copy where
  pa : Nat
  gen : BitVec 30
  val : Word
  deriving DecidableEq, Repr

/-- What a taken strand leaves behind, under the core and slot of the take, which its record keeps wherever software moves it (R264, R322,
R338): its uid, which its accepted stores carry and its restored strand takes up again, its place in program order, its fences that still hold
stores back, the posted task that it is a strand of, and the last entries of its saved buffers, whose pushers' earlier stores are still to be
performed (R217, R273). Records of two takes from one slot are told apart by where they were written and by the words that software leaves as
they are (R320). -/
structure LeftBehind where
  gang : Nat
  core : Nat
  slot : Nat
  uid : Nat
  seq : Nat
  fences : List Pending
  task : Option Task
  coming : List QueueMsg
  record : Nat
  words : List Word
  deriving DecidableEq, Repr

/-- What makes results of a reduction or decide-once cell unspecified (R124, R126, R132): ordinary stores to its bytes, and two strands
that feed one slot. `parts` are its bytes as pieces of address and length. -/
structure CellUse where
  pa : Nat
  parts : List (Nat × Nat)
  spoiled : Bool
  /-- The strands that have fed its slots, by uid (R126). -/
  feeders : List (Nat × Nat)
  deriving DecidableEq, Repr

/-- A combined request of a welt (R350). -/
structure Combined where
  n : Nat
  die : Nat
  fn : AtomicFn
  width : Nat
  pa : Nat
  ops : List (Hart × Nat)
  deadline : Nat
  dropped : Bool
  deriving DecidableEq, Repr

/-- A kick register (R207): the descriptor, and what the engine takes from the hart that kicked it. -/
structure Kick where
  desc : Word
  by_ : Poster
  deriving DecidableEq, Repr

/-- Messages on their way, by number. -/
inductive Msg where
  /-- SPAWN to a core, or to the issuing cluster (R214): the parent, and the operation that waits. -/
  | launch (target : Option Nat) (parent : Nat) (seq : Nat) (entry arg : Word) (by_ : Poster)
  /-- A child retired: to its join record, or to that of the parent restored from a record (R279, R287). -/
  | join (r : JoinRef)
  | joinLink (module_ gang record : Nat)
  /-- A report or a switch token of a timed-launch record, by the number that every module of its MSET holds it under (R327, R334). -/
  | report (dest n : Nat) (r : Report)
  | token (dest n : Nat)
  /-- A group of a gang grid retired, which has successors in another share (R330). -/
  | release (dest n order index : Nat)
  | share (dest n order pos : Nat)
  | gridDone (dest n order gang : Nat) (key : List Word)
  deriving DecidableEq, Repr

/-- A ship (R276, R277): the strand once it is taken and the message that carries it, where it came from, where it goes, the reason, and the
destination of the MIG whose status it decides. -/
structure Ship where
  n : Nat
  uid : Nat
  hs : Option HartState
  message : List Byte
  core : Nat
  slot : Nat
  dest : Nat
  reason : Nat
  status : Option Dest
  deriving DecidableEq, Repr

/-- The fabric's extents NX, NY, NV, NW (R340). -/
structure Extents where
  nx : Nat
  ny : Nat
  nv : Nat
  nw : Nat
  deriving DecidableEq, Repr

/-- What firmware sets: HOT and COOL (R281), HOLD (R324), REMTO (R348), the back-invalidation timeout (R242), the time unit's PTP domain and
sync interval (R323), the system's extents (R340), a peer set (R347), and the recording of a gang, whose log it drains (R361). -/
inductive Setting where
  | hot (degrees : Nat)
  | cool (degrees : Nat)
  | hold (ns : Nat)
  | remto (ns : Nat)
  | bito (ns : Nat)
  | ptpDomain (n : Nat)
  | ptpInterval (ns : Nat)
  | extents (x : Extents)
  | peerSet (n : Nat) (ids : List Nat)
  | record (gang : Nat) (pages : List (Nat × Nat)) (on : Bool)
  | drainLog
  | threshold (n : Nat)
  /-- Eight bytes of a mailbox's half that carries firmware to host, and the response of a mailbox (R354). -/
  | mailbox (off : Nat) (v : Word)
  | respond (n : Nat)
  deriving DecidableEq, Repr

/-- Whose turn it is: the next instruction of a hart, or a step of the hardware. -/
inductive Turn where
  | issue (h : Hart)
  | event (i : Instr)
  /-- Firmware sets a value of a module. -/
  | setting (m : Nat) (x : Setting)
  /-- The host writes back and gives up what it owns at a line (R236): the lines it has modified. -/
  | hostEviction (line : Nat) (data : List (Nat × BitVec 512))
  /-- A code corrects a soft error: of a channel of HBM, or elsewhere (R358). -/
  | corrected (m : Nat) (channel : Option (Nat × Nat))
  deriving DecidableEq, Repr

/-- The system. -/
structure State where
  mem : List Host.Cell
  extents : Extents
  /-- Bytes that hold an uncorrectable error (R355, R358). -/
  poison : List Nat
  harts : List (Hart × HartState)
  cores : List (Nat × CoreState)
  dies : List (Nat × DieState)
  modules : List (Nat × ModuleState)
  stores : List Accepted
  nextStore : Nat
  /-- Prefetches on their way to a home (R120): the core, the address, the page's grain, and whether for ownership. -/
  prefetches : List (Nat × Nat × BitVec 2 × Bool)
  /-- Queue entries on their way to an input port (R217), oldest first. -/
  pushes : List QueueMsg
  /-- The directory: grains with copies, by base address; frames with their grain size; tiles; snoops of the host. -/
  grains : List (Nat × GrainDir)
  frames : List (Nat × Nat)
  /-- Stubs: the frames, beside its base frame, that hold sectors of a tile, and the tile's base (R237). -/
  stubs : List (Nat × Nat)
  /-- Grains split into sectors by a tile that covered part of them (R239). -/
  splits : List Nat
  tiles : List TileRec
  snoops : List Snoop
  /-- Requests that wait at the homes, oldest first (R236, R237, R240, R242). -/
  arrivals : List Arrival
  copies : List Copy
  /-- The cells in use, and whether their results are still specified (R124, R126, R132). -/
  cells : List CellUse
  combined : List Combined
  kicks : List (Nat × Kick)
  /-- What each running engine took from the hart that started it (R208). -/
  engines : List (Nat × Poster)
  groups : List (Nat × Group)
  msgs : List (Nat × Msg)
  ships : List Ship
  /-- Strands that wait for a long context, oldest first (R162). -/
  longWait : List Nat
  /-- MSAVE images by number (R192). -/
  images : List (Nat × List MxEntry)
  leftBehind : List LeftBehind
  /-- Grids with SCOPE = 5 that a take recorded and that are no gang grids, by gang, DESC and CADDR, and the id in the record (R329, log 65). -/
  solo : List (Nat × List Word × Nat)
  /-- Gang grids that were complete only after a take had recorded them on a module, by gang, DESC and CADDR (R330). -/
  lateOver : List (Nat × List Word)
  /-- The next number for groups, messages, entries and images. -/
  nextId : Nat
  nextUid : Nat
  /-- Nanoseconds since reset. -/
  now : Nat
  /-- The latest TIME that any strand has read: no read that follows returns less, whether or not a release and an acquire order the two, and
  on whichever module it is (R205; DESIGN CHOICE for reads that nothing orders, log 109). -/
  timeSeen : Nat
  /-- The hart whose instruction is given its meaning. -/
  cur : Hart
  word : WordInfo
  /-- Turns due before the machine's own schedule, in order: what the outside and the asynchronous units do. -/
  agenda : List Turn
  /-- Instructions issued since the machine's own schedule last served its units. -/
  burst : Nat
  /-- The counter that supplies free values (log 4). -/
  free : Nat
  deriving DecidableEq, Repr

/-- Why the machine stops. -/
inductive Fault where
  /-- Raised by every instruction's meaning when `cur` names no installed strand and no running engine: there is nobody to
  issue it. Safe: hardware has no such step. -/
  | noStrand
  deriving DecidableEq, Repr

/-- Why a meaning is refused. -/
inductive Refusal where
  /-- An instruction without a meaning yet. Safe: nothing can be proved of it. -/
  | notModelled (mnemonic : String)
  deriving DecidableEq, Repr

abbrev Result := Host.Outcome State Fault Refusal

/-! Reset. -/

def RegFile.reset : RegFile where
  g := Vector.replicate 16 ⟨0, true⟩
  v := Vector.replicate 16 ⟨0, true⟩
  w := Vector.replicate 16 ⟨0, true⟩

def Status.reset : Status := ⟨false, 1, 0, false, 0⟩
def FpCtl.reset : FpCtl := ⟨0, false, false, false, false, false, false⟩
def TrapRegs.reset : TrapRegs := ⟨0, 0, 0, 0, 0, 0, 0, 0⟩
def Port.reset : Port := ⟨0, [], false⟩
/-- SCALEn resets to 1.0 (R181). -/
def MatrixRegs.reset : MatrixRegs := ⟨Vector.replicate 4 0x3F800000, Vector.replicate 4 0, 0⟩
def RunState.reset : RunState where
  seq := 0
  ops := []
  park := .ready
  need := none
  queued := false
  replay := ⟨[], []⟩
  due := none
  async := []
  halted := false
  dbl := false
  held := false
  gate := none
  watch := 0
  lastPc := 0
  issued := 0
  drain := none
  ship := none
  retiring := false
  cancelled := []
  fetchFault := none

def Ident.reset : Ident where
  uid := 0
  role := .taskStrand
  gang := 0
  group := 0
  k1 := 0
  k2 := 0
  k4 := 0
  k5 := 0
  k6 := 0
  k7 := 0

def HartState.reset : HartState where
  id := Ident.reset
  regs := RegFile.reset
  pc := 0
  st := Status.reset
  migr := false
  fp := FpCtl.reset
  mx := MatrixRegs.reset
  ports := Vector.replicate 4 Port.reset
  timecmp := 0
  trap := TrapRegs.reset
  ptbr := ⟨0, 0⟩
  take := ⟨0, 0, 0⟩
  run := RunState.reset
  joinOwn := none
  joinParent := none
  plink := none

/-- A tile at reset; its row tags are the neutral tag (log 3). -/
def Tile.reset : Tile := ⟨0, List.replicate 32 0x047F, 0, false, false⟩

def CoreState.reset : CoreState where
  usable := true
  wdog := 0
  tags := []
  deferred := []
  icache := []
  tlb := []
  lastSlot := 7
  recent := []
  yields := []
  books := [0, 0, 0, 0]
  cbsel := 0
  mcap := 0
  nbars := []
  tiles := Vector.replicate 8 Tile.reset
  queue := []
  frozen := none
  disabled := []
  clock := 16
  hot := false
  residue := []

def DieState.reset : DieState := ⟨[], [], true, 0, [], 0, [], [], []⟩

def HostState.reset : HostState := ⟨0, 4, 0, 0, false, false, [], [], 0, [], true⟩

def ModuleState.reset : ModuleState where
  time := 0
  peers := []
  inService := true
  tttb := 0
  mevt := 0
  events := []
  counted := 0
  pool := []
  waiting := []
  succs := []
  grids := []
  clusterPtr := 0
  diePtr := 0
  timed := []
  actions := []
  taken := []
  unit := ⟨.locked, 0, 0, 0, 0⟩
  ports := []
  routes := []
  reroutes := []
  host := HostState.reset
  recording := ⟨[], [], 0⟩
  cap := 3200000
  spared := []
  reported := []
  corrected := 0
  channelErrors := []
  threshold := 0
  lost := []
  dieEvents := []
  attest := none
  stopped := false
  hotAt := 100
  coolAt := 90
  hold := 4000000000
  remto := 2000000
  bito := 1000000
  ptpDomain := 0
  ptpInterval := 125000000
  msets := []
  digests := []
  secver := 0

/-- The entry of the supervisor image. DESIGN CHOICE (log 2): R365 takes it from the image's header. -/
def bootPc : Word := 0x100000

/-- The boot strand: slot 0 of core 0 of die 0, supervisor, short mode, untranslated (R365). -/
def bootHart : HartState := { HartState.reset with pc := bootPc }

/-- The machine right after reset, with the boot strand released (R364, R365). Memory lists nothing: the boot information block and the supervisor
image are what a BRING_UP writes there (log 2). -/
def State.reset : State where
  mem := []
  extents := ⟨1, 1, 1, 1⟩
  poison := []
  harts := [(.strand 0 0, bootHart)]
  cores := []
  dies := []
  modules := []
  stores := []
  nextStore := 0
  prefetches := []
  pushes := []
  grains := []
  frames := []
  stubs := []
  splits := []
  tiles := []
  snoops := []
  arrivals := []
  copies := []
  cells := []
  combined := []
  kicks := []
  engines := []
  groups := []
  msgs := []
  ships := []
  longWait := []
  images := []
  leftBehind := []
  solo := []
  lateOver := []
  nextId := 1
  nextUid := 1
  now := 0
  timeSeen := 0
  cur := .strand 0 0
  word := ⟨false, 0⟩
  agenda := []
  burst := 0
  free := 0

end Sys2Proof.Machine
end

