-- ==== Sys2Proof/Machine/Parts.lean ====
section
/-!
DEFINITION. The parts of the machine by name: harts, cores, dies and modules, coordinates (R3, R44), registers and queue ports (R9, R23
to R25, R216, R217), and a hart's outstanding operations (R28, R29).
-/

namespace Sys2Proof.Machine

/-! Parts by name. -/

def hartOf (s : State) (h : Hart) : Option HartState := assocGet s.harts h
def setHart (s : State) (h : Hart) (hs : HartState) : State := { s with harts := assocSet s.harts h hs }
def dropHart (s : State) (h : Hart) : State := { s with harts := assocDel s.harts h }

def coreOf (s : State) (c : Nat) : CoreState := (assocGet s.cores c).getD CoreState.reset
def setCore (s : State) (c : Nat) (x : CoreState) : State := { s with cores := assocSet s.cores c x }

def dieState (s : State) (d : Nat) : DieState := (assocGet s.dies d).getD DieState.reset
def setDie (s : State) (d : Nat) (x : DieState) : State := { s with dies := assocSet s.dies d x }

def moduleOf (s : State) (m : Nat) : ModuleState := (assocGet s.modules m).getD ModuleState.reset
def setModule (s : State) (m : Nat) (x : ModuleState) : State := { s with modules := assocSet s.modules m x }

/-! Places (R3): a core's linear number over the system splits into module, die, quadrant, cluster and core. -/

def coreModule (c : Nat) : Nat := c / 1024
def coreLinear (c : Nat) : Nat := c % 1024
def coreDie (c : Nat) : Nat := c / 256
def coreCluster (c : Nat) : Nat := c / 8

/-- The core a hart runs on; an engine owns none (R206). -/
def hartCore : Hart → Option Nat
  | .strand c _ => some c
  | .engine _ => none

def hartModule : Hart → Nat
  | .strand c _ => coreModule c
  | .engine e => e / 128

/-- The die of the system a hart lies on. -/
def hartDie : Hart → Nat
  | .strand c _ => coreDie c
  | .engine e => e / 32

def hartSlot : Hart → Nat
  | .strand _ n => n
  | .engine _ => 0

def isEngine : Hart → Bool
  | .strand _ _ => false
  | .engine _ => true

/-- The core that relative coordinates count from: an engine's counts from core 0 of its die (R44, R206). -/
def ownCore : Hart → Nat
  | .strand c _ => c
  | .engine e => e / 32 * 256

/-- The core a coordinate word names (R44), over the system. Without a module id it is that of k6. -/
def coordCore (h : Hart) (hs : HartState) (c : Coord) : Nat :=
  let own := ownCore h
  let m := match c.modid with
    | some m => m.toNat
    | none => hs.id.k6.toNat
  let (die, quad, clus, core) :=
    if c.abs then (c.die.toNat, c.quad.toNat, c.clus.toNat, c.core.toNat)
    else ((own / 256 % 4 + c.die.toNat) % 4, (own / 64 % 4 + c.quad.toNat) % 4, (own / 8 % 8 + c.clus.toNat) % 8,
      (own % 8 + c.core.toNat) % 8)
  m * 1024 + die * 256 + quad * 64 + clus * 8 + core

/-- The physical window address of a core, kind and offset (R44). -/
def windowPa (core kind off : Nat) : Nat :=
  2 ^ 56 + core / 1024 * 2 ^ 42 + core % 1024 * 2 ^ 32 + kind * 2 ^ 28 + off % 2 ^ 28

/-- The core, kind and offset of a window address (R229). -/
def windowParts (pa : Nat) : Nat × Nat × Nat :=
  (pa / 2 ^ 32 % 2 ^ 24, pa / 2 ^ 28 % 16, pa % 2 ^ 28)

/-- Window space (R229). -/
def isWindow (pa : Nat) : Bool := decide (2 ^ 56 ≤ pa)

/-- The module that holds a physical address (R229). -/
def paModule (pa : Nat) : Nat := pa / 2 ^ 42 % 2 ^ 14

/-- Sign extension of an `n`-bit field (R39). -/
def sext (n : Nat) (x : Nat) : Word := (BitVec.ofNat n x).signExtend 64

/-- An immediate (R36). -/
def immValue : Imm → Word
  | .short x => x.signExtend 64
  | .mid x => x.signExtend 64
  | .long x => x
def immSize : Imm → Nat
  | .short _ => 8
  | .mid _ => 12
  | .long _ => 16
def dispValue : Disp → Word
  | .short x => x.signExtend 64
  | .mid x => x.signExtend 64
def dispSize : Disp → Nat
  | .short _ => 8
  | .mid _ => 12

/-! Causes and codes (R203). -/

def Cause.code : Cause → BitVec 6
  | .ialign => 1 | .illenc => 2 | .illop => 3 | .priv => 4 | .engop => 5 | .ifetch => 6 | .subn => 7 | .malign => 8
  | .pgflt => 9 | .prot => 10 | .winflt => 11 | .memerr => 12 | .feword => 13 | .redflt => 14 | .bovr => 15
  | .poison => 16 | .blkfmt => 17 | .tuncfg => 18 | .town => 19 | .tlazy => 20 | .tfmt => 21 | .mimg => 22
  | .ecall => 23 | .swtrap => 24 | .timer => 25 | .watch => 26 | .qstall => 27 | .qunb => 28 | .nbflt => 29
  | .lnchflt => 30 | .depcyc => 31 | .straggle => 32 | .clkloss => 33 | .linkmis => 34 | .ereply => 35
  | .parkfull => 36 | .double => 37 | .mchk => 38 | .recflt => 39

/-! Registers (R23 to R25, R9). -/

/-- The k registers (R9): k0 is zero, k3 the place. -/
def kReg (h : Hart) (hs : HartState) (r : Fin 8) : Word :=
  match r.val with
  | 1 => hs.id.k1
  | 2 => hs.id.k2
  | 3 => match h with
    | .strand c _ => BitVec.ofNat 64 (coreLinear c)
    | .engine e => BitVec.ofNat 64 (e % 128)
  | 4 => hs.id.k4
  | 5 => hs.id.k5
  | 6 => hs.id.k6
  | 7 => hs.id.k7
  | _ => 0

def gVal (hs : HartState) (r : Fin 16) : Word := (hs.regs.g.get r).val
def gFull (hs : HartState) (r : Fin 16) : Bool := (hs.regs.g.get r).full

def setG (hs : HartState) (r : Fin 16) (x : Reg Word) : HartState :=
  { hs with regs := { hs.regs with g := hs.regs.g.set r.val x r.isLt } }
def setV (hs : HartState) (r : Fin 16) (x : Reg V256) : HartState :=
  { hs with regs := { hs.regs with v := hs.regs.v.set r.val x r.isLt } }
def setW (hs : HartState) (r : Fin 16) (x : Reg W2048) : HartState :=
  { hs with regs := { hs.regs with w := hs.regs.w.set r.val x r.isLt } }

/-- Writes a g register and sets its full bit (R25). -/
def writeG (hs : HartState) (r : Fin 16) (v : Word) : HartState := setG hs r ⟨v, true⟩
/-- Clears the full bit of a g register (R25). -/
def emptyG (hs : HartState) (r : Fin 16) : HartState := setG hs r ⟨gVal hs r, false⟩

/-- A vector register by the strand's mode (R143), widened to 2,048 bits. -/
def vecVal (hs : HartState) (r : Fin 16) : W2048 :=
  if hs.st.vl then (hs.regs.w.get r).val else (hs.regs.v.get r).val.zeroExtend 2048
def vecFull (hs : HartState) (r : Fin 16) : Bool :=
  if hs.st.vl then (hs.regs.w.get r).full else (hs.regs.v.get r).full
/-- Writes a vector register by the strand's mode and sets its full bit. -/
def writeVec (hs : HartState) (r : Fin 16) (x : W2048) : HartState :=
  if hs.st.vl then setW hs r ⟨x, true⟩ else setV hs r ⟨x.truncate 256, true⟩
def emptyVec (hs : HartState) (r : Fin 16) : HartState :=
  if hs.st.vl then setW hs r ⟨(hs.regs.w.get r).val, false⟩ else setV hs r ⟨(hs.regs.v.get r).val, false⟩

/-! Queue ports (R216, R217). -/

def portOf (hs : HartState) (p : Fin 4) : Port := hs.ports.get p
def setPort (hs : HartState) (p : Fin 4) (x : Port) : HartState := { hs with ports := hs.ports.set p.val x p.isLt }

/-- QCFG.BOUND and QCFG.DIR (R216). -/
def Port.bound (p : Port) : Bool := p.cfg.getLsbD 39
def Port.out (p : Port) : Bool := p.cfg.getLsbD 37
def Port.low (p : Port) : Bool := p.cfg.getLsbD 38

/-- The coordinate word of 32 bits as fields, reserved bits taken as zero (R13, R44). -/
def coordOfWord (x : BitVec 32) : Coord where
  core := x.extractLsb' 0 3
  clus := x.extractLsb' 3 3
  quad := x.extractLsb' 6 2
  die := x.extractLsb' 8 2
  abs := x.getLsbD 16
  modid := if x.getLsbD 17 then some (x.extractLsb' 18 14) else none

/-- The hart and port that a bound port names (R216: PEER is absolute). -/
def Port.peer (h : Hart) (hs : HartState) (p : Port) : Hart × Fin 4 :=
  (.strand (coordCore h hs (coordOfWord (p.cfg.extractLsb' 0 32))) (p.cfg.extractLsb' 32 3).toNat,
    (p.cfg.extractLsb' 35 2).toFin)

/-- The strand in a slot takes entries of a context and an address space on a port (R272). -/
def takesEntries (ts : HartState) (tp : Fin 4) (gang : Nat) (asid : BitVec 16) : Bool :=
  ts.id.gang == gang && ts.ptbr.asid == asid && (portOf ts tp).bound && !(portOf ts tp).out

/-- Entries that an input port of a strand has accepted beside those in its buffer. -/
def comingEntries (s : State) (uid : Nat) (tp : Fin 4) : Nat := (s.pushes.filter fun m => m.target == uid && m.port == tp).length

/-- The entry that a push sends, when its target accepts it: a strand that takes it, with room, the entries counted that cannot be popped yet
(R217, R272). The push reaches its target, and is answered, as it issues (DESIGN CHOICE, log 89). -/
def pushTarget (s : State) (h : Hart) (hs : HartState) (p : Fin 4) : Option QueueMsg :=
  let port := portOf hs p
  let (t, tp) := port.peer h hs
  match hartOf s t with
  | none => none
  | some ts =>
    if takesEntries ts tp hs.id.gang hs.ptbr.asid = true ∧ (portOf ts tp).buf.length + comingEntries s ts.id.uid tp < 16 then
      some ⟨ts.id.uid, tp, port.low, 0, hs.id.uid, p, hs.run.seq⟩
    else none

/-- An output port shows go, and its target accepts (R217). -/
def canPush (s : State) (h : Hart) (hs : HartState) (p : Fin 4) : Bool :=
  !(portOf hs p).stop && (pushTarget s h hs p).isSome

/-- Sends one entry through an output port, at place `seq` of the program order (R217). -/
def push (s : State) (h : Hart) (hs : HartState) (p : Fin 4) (v : Word) (seq : Nat) : State :=
  match pushTarget s h hs p with
  | some m => { s with pushes := s.pushes ++ [{ m with val := v, seq := seq }] }
  | none => s

/-- The ports an instruction pops, in the order A, B, C (R24). -/
def popPorts (srcs : List Src) : List (Fin 4) :=
  srcs.filterMap fun
    | .q p => some p
    | _ => none
/-- The ports an instruction pushes. -/
def pushPorts (dsts : List Dst) : List (Fin 4) :=
  dsts.filterMap fun
    | .q p => some p
    | _ => none

/-- Reads the sources in order, popping ports (R24): the values and the hart after the pops. -/
def readSrcs (h : Hart) : List Src → HartState → List Word × HartState
  | [], hs => ([], hs)
  | .g r :: rest, hs =>
    let (vs, hs') := readSrcs h rest hs
    (gVal hs r :: vs, hs')
  | .k r :: rest, hs =>
    let (vs, hs') := readSrcs h rest hs
    (kReg h hs r :: vs, hs')
  | .q p :: rest, hs =>
    let port := portOf hs p
    let (vs, hs') := readSrcs h rest (setPort hs p { port with buf := port.buf.tail })
    (port.buf.headD 0 :: vs, hs')

/-- Writes a scalar destination: a register with its full bit, or a push (R24, R25). -/
def writeDst (s : State) (h : Hart) (hs : HartState) (d : Dst) (v : Word) : State × HartState :=
  match d with
  | .g r => (s, writeG hs r v)
  | .q p => (push s h hs p v hs.run.seq, hs)

/-- Clears the full bit of a destination whose result is due later (R25). A queue port has none. -/
def emptyDst (hs : HartState) : Dest → HartState
  | .none => hs
  | .scalar (.g r) => emptyG hs r
  | .scalar (.q _) => hs
  | .pair p => emptyG (emptyG hs ⟨2 * p.val, by omega⟩) ⟨2 * p.val + 1, by omega⟩
  | .v r => setV hs r ⟨(hs.regs.v.get r).val, false⟩
  | .w r => setW hs r ⟨(hs.regs.w.get r).val, false⟩

/-! Outstanding operations (R28, R29). -/

def Op.isFence : Op → Bool
  | .fence | .fenceLight => true
  | _ => false

/-- Every variable-latency result written, every store accepted, and every PUT and RED.ADD performed (R29, R107). -/
def drained (hs : HartState) : Bool := hs.run.ops.all fun p => p.op.isFence

/-- Every store accepted (R95, WAITST). -/
def storesAccepted (hs : HartState) : Bool := hs.run.ops.all fun p => !p.store || p.accepted || p.op.isFence

/-- Outstanding places in use (R28). -/
def placesUsed (hs : HartState) : Nat := (hs.run.ops.filter fun p => p.place).length
def remoteUsed (hs : HartState) : Bool := hs.run.ops.any fun p => p.remote

/-- The accepted stores of a strand that others do not see yet, and those that precede a place of its program order (R259). -/
def ownStores (s : State) (uid : Nat) : List Accepted := s.stores.filter fun a => a.uid == uid
def invisible (s : State) (uid : Nat) : List Accepted := (ownStores s uid).filter fun a => !a.performed
def invisibleBefore (s : State) (uid seq : Nat) : List Accepted := (invisible s uid).filter fun a => decide (a.p.seq < seq)

/-- The address of the instruction that issues next: the replay first (R33). -/
def issuePc (hs : HartState) : Word := hs.run.replay.todo.headD hs.pc

/-- The issue window of R28. -/
def inWindow (hs : HartState) : Bool :=
  match (hs.run.ops.filter fun p => !p.op.isFence).head? with
  | none => true
  | some p => decide ((issuePc hs).toNat < p.pc.toNat + 256)

def setRun (hs : HartState) (r : RunState) : HartState := { hs with run := r }
def setPark (hs : HartState) (p : Park) : HartState := { hs with run := { hs.run with park := p } }

/-- Adds an operation at the end of program order (R28): its destination is emptied (R25). -/
def addOp (hs : HartState) (p : Pending) : HartState :=
  let hs' := emptyDst hs p.dest
  { hs' with run := { hs'.run with seq := hs'.run.seq + 1, ops := hs'.run.ops ++ [{ p with seq := hs'.run.seq }] } }

/-- What a launch or an access takes from its hart at issue. -/
def posterOf (hs : HartState) : Poster := ⟨hs.id.gang, hs.ptbr, hs.st.priv, hs.trap.tvec, hs.trap.tscr⟩

/-- An operation of the issuing hart, before it enters program order. -/
def newOp (hs : HartState) (op : Op) (dest : Dest) : Pending where
  seq := 0
  pc := issuePc hs
  op := op
  dest := dest
  spans := []
  mod := ⟨.rlx, .strand⟩
  phase := .request
  store := false
  accepted := false
  place := true
  remote := false
  sent := 0
  coord := false
  fetched := false
  spoiled := false
  by_ := posterOf hs

def Pending.isFaulted (p : Pending) : Bool :=
  match p.phase with
  | .faulted _ _ => true
  | _ => false

/-- The bytes of a reduction cell of a descriptor (R125). -/
def redSize (desc : Word) : Nat := 64 + desc.toNat % 512 * (if desc.getLsbD 9 then 8 else 4)

/-- What an operation on a cell or a record may reach beside its first piece, from there on, whatever the cell's header says: the cell that REDDECL
writes, the slot of a RED.ADD, the slots of a RED.RD, a timed record (R124 to R127, R211). -/
def Op.reach : Op → List (Nat × Nat)
  | .redDecl desc => [(0, redSize desc)]
  | .redAdd slot _ => [(64 + 4 * (slot.toNat % 256), 4), (64 + 8 * (slot.toNat % 256), 8)]
  | .redRead _ => [(64, 8 * 256)]
  | .tpost => [(0, 64)]
  | _ => []

/-- The bytes an operation may touch: its pieces, and what it may reach beside the first. The places behind it on a striped page follow from the
table of stripes, and stand here by their virtual addresses. -/
def Pending.extent (p : Pending) : List Span :=
  match p.spans.head? with
  | some x => p.spans ++ p.op.reach.map fun (o, n) =>
      { x with
        va := x.va + BitVec.ofNat 64 o
        len := n
        at_ := if (x.at_.any fun a => a.stripe != 0) then none else x.at_.map fun a => { a with pa := a.pa + o, off := a.off + o } }
  | none => []

/-- Two spans share a byte of virtual or of physical address. -/
def Span.overlaps (a b : Span) : Bool :=
  match a.at_, b.at_ with
  | some x, some y => decide (x.pa < y.pa + b.len ∧ y.pa < x.pa + a.len)
  | _, _ => decide (a.va.toNat < b.va.toNat + b.len ∧ b.va.toNat < a.va.toNat + a.len)

def Pending.overlaps (p q : Pending) : Bool := p.extent.any fun a => q.extent.any fun b => a.overlaps b

/-- A bulk copy, which translates its pieces one by one as it goes (R209, R210). -/
def Op.isCopy : Op → Bool
  | .bcopy .. | .bcast .. => true
  | _ => false

/-- Whether every piece is translated. -/
def Pending.placed (p : Pending) : Bool := p.op.isCopy || p.spans.all fun x => x.at_.isSome

/-- Reads and writes in one event. -/
def Op.isRmw : Op → Bool
  | .take | .put _ | .atomic _ _ _ | .redAdd _ _ | .barArrive _ | .propose _ _ | .recycle _ | .vbenc _ _ _ _ => true
  | _ => false

/-- Writes memory or a window, or sends a message that counts as a store (R252): what FNC.rel holds back. -/
def Pending.writes (p : Pending) : Bool :=
  p.store || p.op.isRmw || match p.op with
    | .atomic _ _ _ | .bcopy .. | .bcast .. | .tfwd _ | .spawn _ _ _ | .kick _ _ | .tpost | .glaunch _ | .nbArrive _ _ _ => true
    | _ => false

/-- The cores whose windows an access names. -/
def Pending.windowCores (p : Pending) : List Nat :=
  p.spans.filterMap fun x => x.at_.bind fun a => if isWindow a.pa then some (windowParts a.pa).1 else none

/-! What a trap marks (R31, R32). -/

/-- Performed, or out of the way until it is replayed. -/
def Pending.settled (p : Pending) : Bool :=
  match p.phase with
  | .done _ | .found _ _ | .faulted _ _ => true
  | _ => false

/-- PUT and RED.ADD: accepted as stores, and outstanding until they are performed (R107). -/
def Op.heldStore : Op → Bool
  | .put _ | .redAdd _ _ => true
  | _ => false

/-- A request that a trap or a take withdraws or cancels while it has no result due (R117, R160, R205, R219). An NBARR that has yet to
arrive arrives first: only the wait is withdrawn. -/
def Pending.withdrawable (p : Pending) : Bool :=
  match p.op with
  | .take | .peek | .put _ | .barWait _ | .nbWait _ _ _ | .twait _ => decide (p.phase = .request ∨ p.phase = .waiting)
  | .nbArrive _ _ ph => decide (p.phase = .waiting) || (ph.isSome && decide (p.phase = .request))
  | .vector _ _ special => special.isSome && decide (p.phase = .request)
  | _ => false

/-- Performed. -/
def Pending.isDone (p : Pending) : Bool := match p.phase with
  | .done _ => true
  | _ => false

/-- A store that has not been accepted, nor sent to the core or the module that answers for it (R29, R348). -/
def Pending.unaccepted (p : Pending) : Bool := p.store && !p.accepted && decide (p.phase = .request)

/-- An access of the matrix unit. -/
def Op.isMatrix : Op → Bool
  | .matrix _ => true
  | _ => false

/-- The matrix unit has dropped the instruction, which is to be performed again (R295). -/
def Pending.dropped (p : Pending) : Bool := p.op.isMatrix && p.fetched

/-- The operations a trap marks (R31, R32), in program order: faulting ones, those the matrix unit has dropped, every store not yet accepted
that follows a faulting store, and every load that waits for a marked store; and, where `stop` says that the strand leaves them, its withdrawn requests. -/
def markOps (stop : Bool) : (marked : List Pending) → (storeFault : Bool) → List Pending → List Pending
  | _, _, [] => []
  | acc, sf, p :: rest =>
    let hit := p.isFaulted || p.dropped || (stop && p.withdrawable) || (p.unaccepted && sf) ||
      (decide (p.phase = .request) && acc.any fun q => q.store && q.overlaps p)
    if hit then p :: markOps stop (p :: acc) (sf || (p.store && (p.isFaulted || p.dropped))) rest else markOps stop acc sf rest

def marks (hs : HartState) : List Pending := markOps true [] false hs.run.ops

/-- An asynchronous cause is pending that the strand will take (R204). A strand that is about to ship carries it along (R282). -/
def asyncPending (hs : HartState) : Bool := !hs.st.tip && !hs.run.halted && hs.run.ship.isNone && !hs.run.async.isEmpty

/-- The oldest memory fault (R31). -/
def oldestFault (hs : HartState) : Option (Cause × Word) :=
  hs.run.ops.findSome? fun p => match p.phase with
    | .faulted c v => some (c, v)
    | _ => none

/-- A trap is due: an issue-time cause or a memory fault. -/
def trapDue (hs : HartState) : Bool := hs.run.due.isSome || (oldestFault hs).isSome

/-- The strand issues no more: a trap is due, an asynchronous cause is pending, or it is being taken (R31, R34, R35, R204). -/
def stopping (hs : HartState) : Bool := trapDue hs || asyncPending hs || hs.run.ship.isSome || hs.run.held

/-- The operations that will be executed again and keep no other waiting: what a trap marks now (R31, R32), and once the strand has
stopped what it withdraws (R34, R35). Their events come at their replay (R244). -/
def asideOps (hs : HartState) : List Pending := markOps (stopping hs) [] false hs.run.ops

/-- Performed, or to be executed again and out of the way until then. -/
def outOfWay (hs : HartState) (q : Pending) : Bool := q.settled || (asideOps hs).any fun x => x.seq == q.seq

end Sys2Proof.Machine
end

