-- ==== Sys2Proof/Machine/Flags.lean ====
section
/-!
DEFINITION. Status and flags: SSTAT, SMODE and FPCTL as words (R64, R198), the flags an operation raises, and the rounding mode an
instruction reads at issue (R63).
-/

namespace Sys2Proof.Machine

def FpFlags.or (a b : FpFlags) : FpFlags :=
  ⟨a.nv || b.nv, a.dz || b.dz, a.of || b.of, a.uf || b.uf, a.nx || b.nx⟩

/-- Sets the sticky flags (R64). -/
def raiseFlags (hs : HartState) (f : FpFlags) : HartState :=
  { hs with fp := { hs.fp with
      nv := hs.fp.nv || f.nv, dz := hs.fp.dz || f.dz, of := hs.fp.of || f.of, uf := hs.fp.uf || f.uf,
      nx := hs.fp.nx || f.nx } }

/-- FPCTL as MFS reads it (R64). -/
def fpctlWord (c : FpCtl) : Word :=
  ((0 : BitVec 55) ++ BitVec.ofBool c.nx ++ BitVec.ofBool c.uf ++ BitVec.ofBool c.of ++ BitVec.ofBool c.dz ++
    BitVec.ofBool c.nv ++ (0 : BitVec 1) ++ BitVec.ofBool c.subn ++ c.rm)

/-- MTS of FPCTL: RM and SUBN are written, a flag written as 1 is cleared (R64). -/
def fpctlWrite (c : FpCtl) (x : Word) : FpCtl where
  rm := x.extractLsb' 0 2
  subn := x.getLsbD 2
  nv := c.nv && !x.getLsbD 4
  dz := c.dz && !x.getLsbD 5
  of := c.of && !x.getLsbD 6
  uf := c.uf && !x.getLsbD 7
  nx := c.nx && !x.getLsbD 8

/-- FPCTL restored from a saved image (R276): every stored bit as saved. -/
def fpctlOfWord (x : Word) : FpCtl :=
  ⟨x.extractLsb' 0 2, x.getLsbD 2, x.getLsbD 4, x.getLsbD 5, x.getLsbD 6, x.getLsbD 7, x.getLsbD 8⟩

/-- SSTAT as MFS reads it (R198). -/
def sstatWord (st : Status) : Word :=
  (0 : BitVec 48) ++ st.jcnt ++ (0 : BitVec 2) ++ BitVec.ofBool st.tip ++ st.ppriv ++ st.priv ++ BitVec.ofBool st.vl

/-- A supervisor MTS of SSTAT (R198): VL and JCNT are read only; a level of 2 or 3 leaves its field unchanged. -/
def sstatWrite (st : Status) (x : Word) : Status :=
  let p := x.extractLsb' 1 2
  let q := x.extractLsb' 3 2
  { st with
    priv := if p.toNat < 2 then p else st.priv
    ppriv := if q.toNat < 2 then q else st.ppriv
    tip := x.getLsbD 5 }

/-- SSTAT restored from a saved image (R276). -/
def sstatOfWord (x : Word) : Status :=
  ⟨x.getLsbD 0, x.extractLsb' 1 2, x.extractLsb' 3 2, x.getLsbD 5, x.extractLsb' 8 8⟩

/-- SMODE as MFS reads it (R198). -/
def smodeWord (h : Hart) (hs : HartState) : Word :=
  (0 : BitVec 62) ++ BitVec.ofBool (isEngine h) ++ BitVec.ofBool hs.migr

/-- The rounding mode of FPCTL.RM (R64). -/
def rmMode (rm : BitVec 2) : Rnd :=
  match rm.toNat with
  | 0 => .rne
  | 1 => .rtz
  | 2 => .rup
  | _ => .rdn

/-- The modes an instruction reads at issue (R63). -/
def fpMode (hs : HartState) (r : Rnd) : FpMode :=
  ⟨match r with
    | .dyn => rmMode hs.fp.rm
    | r => r, hs.fp.subn⟩

/-- The writable bits of UNF0 to UNF3 (R183); a record's reserved bits are ignored as an MTS's are (R13). -/
def unfMask (n : Fin 4) (x : Word) : Word :=
  match n.val with
  | 0 => x &&& 0x00000FFF0F03FFFF#64
  | 3 => x &&& 0xFFFF#64
  | _ => x

/-- The writable bits of TVEC and TRES: bits [1:0] read as zero (R35, R198). -/
def wordAligned (x : Word) : Word := x &&& ~~~3#64

end Sys2Proof.Machine
end

