-- ==== Sys2Proof/Machine/Operands.lean ====
section
/-!
DEFINITION. Operand forms: the checks of R18 that depend on the mode at issue, lanes (R143), effective addresses and window
operands (R44, R106), and the pieces of an access (R106, R231).
-/

namespace Sys2Proof.Machine

/-! Checks 8 and 9 of R18. -/

/-- The bank rule of short mode (R26): A and B name different registers of one bank. -/
def bankConflict (hs : HartState) (a b : Fin 16) : Bool := !hs.st.vl && a != b && decide (a.val % 2 = b.val % 2)

/-- F64 in long mode (R144). -/
def badLong (hs : HartState) (f : Fmt) : Bool := hs.st.vl && f == .f64

/-- The register width in bits (R143). -/
def regBits (hs : HartState) : Nat := if hs.st.vl then 2048 else 256

/-- The lane count of a format (R143). -/
def laneCount (hs : HartState) (f : Fmt) : Nat := regBits hs / f.width

/-! Lanes (R143). -/

/-- Lane `i` of width `w`. -/
def laneGet (x : W2048) (w i : Nat) : Nat := (x.extractLsb' (w * i) w).toNat

/-- A register from lane values, lowest first. -/
def laneJoin (w : Nat) : List Nat → Nat
  | [] => 0
  | v :: rest => v % 2 ^ w + 2 ^ w * laneJoin w rest

/-- A register whose lanes `0` to `n - 1` are given; higher bits are zero. -/
def lanesOf (w n : Nat) (f : Nat → Nat) : W2048 := BitVec.ofNat 2048 (laneJoin w ((List.range n).map f))

/-- The lanes of a register. -/
def lanesTo (x : W2048) (w n : Nat) : List Nat := (List.range n).map (laneGet x w)

/-! Addresses (R106). -/

/-- Bits [63:57] all equal bit 56 (R106). -/
def canonical (va : Word) : Bool := (va.extractLsb' 0 57).signExtend 64 == va

/-- Splits `len` bytes from `va` at 256-byte boundaries, so that each piece lies in one page and one stripe (R347). -/
def pieces (va : Word) (len : Nat) (right : Right) (fuel : Nat) : List Span :=
  match fuel with
  | 0 => [⟨va, len, right, none⟩]
  | f + 1 =>
    let room := 256 - va.toNat % 256
    if len ≤ room then [⟨va, len, right, none⟩]
    else ⟨va, room, right, none⟩ :: pieces (va + BitVec.ofNat 64 room) (len - room) right f

/-- The place of a window operand: not paged (R44). -/
def windowPlaced (pa : Nat) : Placed := ⟨pa, 0, 0, pa, 0, 0, 0⟩

/-- The span of a 96-bit window operand: TVAL is the physical address (R106). -/
def windowSpan (pa len : Nat) (right : Right) : Span := ⟨BitVec.ofNat 64 pa, len, right, some (windowPlaced pa)⟩

/-- The window address of an operand (R44). -/
def windowAddr (core : Nat) (kind : Nat) (off : Word) (disp : BitVec 16) : Nat :=
  windowPa core kind (off + disp.signExtend 64).toNat

/-- The core of a form whose coordinate word may be left out: the word is then taken as zero (R98, R104). -/
def optCore (h : Hart) (hs : HartState) (c : Option Coord) : Nat := coordCore h hs (c.getD ⟨0, 0, 0, 0, false, none⟩)

/-- An operation on memory or a window. -/
def memOp (hs : HartState) (op : Op) (dest : Dest) (m : MemMod) (spans : List Span) : Pending :=
  { newOp hs op dest with mod := m, spans := spans }

/-- An access of `size` bytes is aligned (R106, check 1). -/
def aligned (va : Word) (size : Nat) : Bool := decide (va.toNat % size = 0)

/-- Marks an operation as failing when it is not aligned (R106, check 1). -/
def checkAlign (p : Pending) (va : Word) (size : Nat) : Pending :=
  if aligned va size then p else { p with phase := .found .malign va }

end Sys2Proof.Machine
end

