-- ==== Sys2Proof/Machine/Xlate.lean ====
section
/-!
DEFINITION. Translation: the physical map (R229), the walk (R231, R232), TLBs and walks in flight (R296, R297), permissions (R106),
untranslated running (R365) and striped pages (R347).
-/

namespace Sys2Proof.Machine

/-! The physical map (R229). -/

/-- Dispatcher memory: the 512 MiB of HBM that firmware reserves, which no hart reaches (R313). R313 names no place: the model takes the top of
HBM, and an access there meets what one to a hole does (DESIGN CHOICE, log 76). -/
def dispatcherBase : Nat := 2 ^ 39 - 2 ^ 29

/-- Memory offsets that exist: HBM and the second tier. -/
def memOffsetOk (off : Nat) : Bool := decide (off < dispatcherBase ∨ (2 ^ 40 ≤ off ∧ off < 3 * 2 ^ 40))
/-- A physical address of memory that exists. -/
def memPaOk (pa : Nat) : Bool := !isWindow pa && memOffsetOk (pa % 2 ^ 42)
/-- The second tier. -/
def isTier2 (pa : Nat) : Bool := decide (2 ^ 40 ≤ pa % 2 ^ 42)
/-- A range of memory without a hole, in one range of R229. -/
def memRangeOk (pa len : Nat) : Bool :=
  memPaOk pa && memPaOk (pa + len - 1) && isTier2 pa == isTier2 (pa + len - 1)

/-! The fabric (R340, R342, R344). -/

/-- A module that exists and is in service. -/
def live (s : State) (m : Nat) : Bool :=
  let e := s.extents
  decide (m % 32 < e.nx ∧ m / 32 % 32 < e.ny ∧ m / 1024 % 4 < e.nv ∧ m / 4096 < e.nw) && (moduleOf s m).inService

/-- The first port and the number of ports of a direction: X, Y, V, W, each upward and downward (R340). -/
def portGroup (dim : Nat) (down : Bool) : Nat × Nat :=
  if dim < 2 then (16 * dim + (if down then 8 else 0), 8) else (32 + 8 * (dim - 2) + (if down then 4 else 0), 4)

/-- Place value, extent and coordinate of a module in a dimension. -/
def dimUnit (dim : Nat) : Nat := [1, 32, 1024, 4096].getD dim 1
def dimExtent (s : State) (dim : Nat) : Nat := [s.extents.nx, s.extents.ny, s.extents.nv, s.extents.nw].getD dim 1
def dimSize (dim : Nat) : Nat := if dim < 2 then 32 else 4
def dimOf (m dim : Nat) : Nat := m / dimUnit dim % dimSize dim
def setDim (m dim x : Nat) : Nat := m + x * dimUnit dim - dimOf m dim * dimUnit dim

/-- The dimension and the way of a port (R340). -/
def portTurn (port : Nat) : Nat × Bool :=
  if port < 32 then (port / 16, decide (8 ≤ port % 16)) else (2 + (port - 32) / 8, decide (4 ≤ (port - 32) % 8))

/-- The module at the other end of a port. -/
def portPeer (s : State) (m port : Nat) : Option Nat :=
  let (dim, down) := portTurn port
  let n := dimExtent s dim
  let x := dimOf m dim
  if 48 ≤ port then none
  else if dim < 2 then some (setDim m dim (if down then (x + n - 1) % n else (x + 1) % n))
  else if down then (if x = 0 then none else some (setDim m dim (x - 1)))
  else if x + 1 < n then some (setDim m dim (x + 1)) else none

/-- A port as training has left it. One without an entry came up at bring-up; one whose peer does not exist stays down (R340). -/
def portState (s : State) (m port : Nat) : FabricPort :=
  let p := (assocGet (moduleOf s m).ports port).getD FabricPort.reset
  { p with up := p.up && (portPeer s m port).isSome }

/-- Every port of a group is down. -/
def groupDown (s : State) (m : Nat) (g : Nat × Nat) : Bool := (List.range g.2).all fun i => !(portState s m (g.1 + i)).up

/-- The first live port of a group, from its port `first` on in cyclic order (R342). -/
def livePort (s : State) (m : Nat) (g : Nat × Nat) (first : Nat) : Option Nat :=
  ((List.range g.2).map fun i => g.1 + (first + i) % g.2).find? fun p => (portState s m p).up

/-- The module beside one in the parallel ring of a detour (R344). -/
def beside (s : State) (m : Nat) : Option Nat :=
  let step (dim : Nat) : Option Nat :=
    let x := dimOf m dim
    if dimExtent s dim ≤ 1 then none else some (setDim m dim (if x + 1 < dimExtent s dim then x + 1 else x - 1))
  (step 2).orElse fun _ => step 3

/-- A packet goes from one module to the next of its route: by a port of the group, or beside it (R344). -/
def hopOk (s : State) (a b : Nat) (g : Nat × Nat) (ring : Bool) : Bool :=
  (live s a && live s b && !groupDown s a g) ||
    (ring && match beside s a, beside s b with
      | some x, some y => live s x && live s y
      | _, _ => false)

/-- The way a packet turns in a dimension: the shorter one of a ring, upward on a tie; and how many steps (R342). -/
def turn (s : State) (dim x y : Nat) : Bool × Nat :=
  let n := dimExtent s dim
  if dim < 2 then
    let up := (y + n - x) % n
    let dn := (x + n - y) % n
    if up ≤ dn then (false, up) else (true, dn)
  else if x ≤ y then (false, y - x) else (true, x - y)

/-- The dimension in which a packet goes on, and its way there (R342). -/
def nextTurn (s : State) (m dst : Nat) : Option (Nat × Bool) :=
  ((List.range 4).find? fun d => dimOf m d ≠ dimOf dst d).map fun d => (d, (turn s d (dimOf m d) (dimOf dst d)).1)

/-- The next module of a packet's route: by firmware's route table of a module in service, else in the order of the dimensions (R342, R344). -/
def nextModule (s : State) (m dst : Nat) : Option Nat :=
  match if live s m then assocGet (moduleOf s m).routes dst else none with
  | some p =>
    let (dim, down) := portTurn p
    (livePort s m (portGroup dim down) (p - (portGroup dim down).1)).bind fun q => (portPeer s m q).filter (live s)
  | none => (nextTurn s m dst).bind fun (dim, down) =>
    let n := dimExtent s dim
    let x := dimOf m dim
    let next := setDim m dim (if dim < 2 then (if down then (x + n - 1) % n else (x + 1) % n) else if down then x - 1 else x + 1)
    if hopOk s m next (portGroup dim down) (decide (dim < 2)) then some next else none

/-- A route that goes on from module to module by `next` reaches another in at most so many steps. -/
def arrivesIn (next : Nat → Option Nat) (dst : Nat) : (steps : Nat) → (m : Nat) → Bool
  | 0, m => m == dst
  | k + 1, m => m == dst || match next m with
    | some x => arrivesIn next dst k x
    | none => false

/-- The fabric carries packets from a module to another (R342, R344). No route is longer than every module. -/
def reachable (s : State) (src dst : Nat) : Bool :=
  live s dst && (src == dst || arrivesIn (fun m => nextModule s m dst) dst (s.extents.nx * s.extents.ny * s.extents.nv * s.extents.nw) src)

/-- A byte of a range is poisoned. -/
def poisoned (s : State) (pa len : Nat) : Bool := s.poison.any fun a => decide (pa ≤ a ∧ a < pa + len)

/-! The walk. -/

/-- The fields of a page-table entry (R231). -/
def pteValid (e : Word) : Bool := e.getLsbD 0
def pteLeaf (e : Word) : Bool := e.getLsbD 1
def ptePpn (e : Word) : Nat := (e.extractLsb' 12 45).toNat * 4096

/-- A table may lie at `pa` (R232): neither a hole nor window space. -/
def tableOk (pa : Nat) : Bool := memPaOk pa

/-- Reads a page-table entry: an error reply from a module that cannot be reached, an uncorrectable error (R297). -/
def readPte (s : State) (m pa : Nat) : Except Cause Word :=
  if !reachable s m (paModule pa) then .error .ereply
  else if poisoned s pa 8 then .error .memerr
  else .ok (memWord s.mem pa)

/-- A leaf of log2 size `size`, or PGFLT when the entry is invalid (R232). -/
def leafOf (e : Word) (size : Nat) (cont : Bool) : Except Cause Leaf :=
  let base := ptePpn e
  let leaf : Leaf := ⟨base, size, e.getLsbD 2, e.getLsbD 3, e.getLsbD 4, e.getLsbD 5, e.getLsbD 6,
    e.extractLsb' 8 2, e.extractLsb' 57 3, e.extractLsb' 60 4⟩
  if !pteValid e || base % 2 ^ size ≠ 0 || (e.getLsbD 7 && !cont) then .error .pgflt
  else if isWindow base then (if e.getLsbD 10 || leaf.stripe ≠ 0 then .error .pgflt else .ok leaf)
  else if leaf.grain = 3 || decide (3 ≤ leaf.pol.toNat) || !memRangeOk base (2 ^ size) || e.getLsbD 10 != isTier2 base then
    .error .pgflt
  else .ok leaf

/-- The index of a level (R231). -/
def levelIndex (va : Word) (level : Nat) : Nat := va.toNat / 2 ^ (12 + 9 * level) % 512

/-- The walk from a table of `level` (R231). What its reads are at the homes is log 116. `pick` chooses among the 16 entries of a 64 KiB page (R232). -/
def walkFrom (s : State) (m : Nat) (va : Word) (pick : Nat) : (level : Nat) → (table : Nat) → Except Cause Leaf
  | 0, t =>
    if !tableOk t then .error .pgflt
    else match readPte s m (t + 8 * levelIndex va 0) with
      | .error c => .error c
      | .ok e =>
        if !pteValid e || !pteLeaf e then .error .pgflt
        else if !e.getLsbD 7 then leafOf e 12 false
        else match readPte s m (t + 8 * (levelIndex va 0 / 16 * 16 + pick % 16)) with
          | .error c => .error c
          | .ok e' => if pteLeaf e' then leafOf e' 16 true else .error .pgflt
  | n + 1, t =>
    if !tableOk t then .error .pgflt
    else match readPte s m (t + 8 * levelIndex va (n + 1)) with
      | .error c => .error c
      | .ok e =>
        if !pteValid e then .error .pgflt
        else if pteLeaf e then (if n + 1 ≤ 2 then leafOf e (12 + 9 * (n + 1)) false else .error .pgflt)
        else walkFrom s m va pick n (ptePpn e)

/-- A walk for one address of an address space (R231). -/
def walk (s : State) (m : Nat) (ptbr : Ptbr) (va : Word) : Except Cause Leaf :=
  if ptbr.root = 0 then .error .pgflt
  else walkFrom s m va (Config.freeNat s.free) 4 (ptbr.root.toNat * 4096)

/-! Translations. -/

/-- The fault of a failed check, as the access reports it: instruction fetch and LDL report IFETCH (R22), but PGFLT where a user strand has no page
tables (R365). -/
def asFetch (r : Right) (c : Cause) : Cause :=
  if r = .exec && (c = .pgflt || c = .prot) then .ifetch else c

/-- Permission (R106, check 3). -/
def permitted (leaf : Leaf) (user : Bool) (r : Right) : Bool :=
  r = .probe || ((!user || leaf.u) && match r with
    | .read => leaf.r
    | .write => leaf.w
    | .both => leaf.r && leaf.w
    | .exec => leaf.x
    | .probe => true)

/-- The physical address of an offset in a striped page (R347); `none` for a peer set that is not written. -/
def stripePa (s : State) (m : Nat) (stripe : BitVec 4) (base off : Nat) : Option Nat :=
  (assocGet (moduleOf s m).peers stripe.toNat).map fun ms =>
    let n := ms.length
    let j := off / 256
    let q := j / n
    let r := j % n
    (ms.getD ((r + q) % n) 0) * 2 ^ 42 + base % 2 ^ 42 + q * 256 + off % 256

/-- Where an address lies under a leaf (R231, R347). -/
def placeUnder (s : State) (m : Nat) (leaf : Leaf) (va : Word) : Except Cause Placed :=
  let off := va.toNat % 2 ^ leaf.size
  if leaf.stripe = 0 then .ok ⟨leaf.base + off, leaf.pol, leaf.grain, leaf.base, leaf.size, off, 0⟩
  else match stripePa s m leaf.stripe leaf.base off with
    | none => .error .pgflt
    | some pa =>
      if memPaOk pa then .ok ⟨pa, leaf.pol, leaf.grain, leaf.base, leaf.size, off, leaf.stripe⟩ else .error .ereply

/-- The physical address `delta` bytes further in the page of a placed address. -/
def placedAt (s : State) (m : Nat) (p : Placed) (delta : Nat) : Nat :=
  if p.stripe = 0 then p.pa + delta else (stripePa s m p.stripe p.page (p.off + delta)).getD 0

/-- The virtual page base a leaf covers. -/
def pageBase (va : Word) (size : Nat) : Nat := va.toNat / 2 ^ size * 2 ^ size

/-- An entry of a TLB for an address of an address space (R296, R231 G). -/
def tlbFind (tlb : List TlbEntry) (asid : BitVec 16) (va : Word) : Option Leaf :=
  (tlb.find? fun e => (e.asid == asid || e.leaf.g) && e.va == pageBase va e.leaf.size).map (·.leaf)

/-- The answer of a translation request. -/
inductive Found where
  | hit (p : Placed)
  | fault (c : Cause)
  | miss
  deriving DecidableEq, Repr

/-- The page an untranslated access lies in: the 1 GiB region (R365). -/
def untranslated (va : Word) : Except Cause Placed :=
  let pa := va.toNat % 2 ^ 57
  if isWindow pa then .ok (windowPlaced pa)
  else if memPaOk pa then .ok ⟨pa, 0, 1, pa / 2 ^ 30 * 2 ^ 30, 30, pa % 2 ^ 30, 0⟩
  else .error .pgflt

/-- A hart that does not walk (R231, R365). -/
def runsUntranslated (ptbr : Ptbr) (priv : BitVec 2) : Bool := decide (priv ≠ 0) && ptbr.root == 0

/-- Checks 2 and 3 of R106 for one address under a leaf. -/
def checkLeaf (s : State) (m : Nat) (user : Bool) (r : Right) (va : Word) (leaf : Leaf) : Except Cause Placed :=
  if permitted leaf user r then placeUnder s m leaf va else .error .prot

/-- Translates one address with what the TLBs hold (R296). -/
def lookup (s : State) (h : Hart) (ptbr : Ptbr) (priv : BitVec 2) (va : Word) (r : Right) : Found :=
  if !canonical va then .fault (asFetch r .pgflt)
  else if runsUntranslated ptbr priv then
    match untranslated va with
    | .ok p => .hit p
    | .error c => .fault (asFetch r c)
  else if ptbr.root = 0 then .fault .pgflt
  else
    let own := match hartCore h with
      | some c => tlbFind (coreOf s c).tlb ptbr.asid va
      | none => none
    match own.orElse fun _ => tlbFind (dieState s (hartDie h)).cache ptbr.asid va with
    | none => .miss
    | some leaf => match checkLeaf s (hartModule h) (priv = 0) r va leaf with
      | .ok p => .hit p
      | .error c => .fault (asFetch r c)

/-- Translates one address at once, walking if it must: the dispatcher's own accesses on behalf of a context, and what the model looks at
ahead of a walk (DESIGN CHOICE, log 97). -/
def translate (s : State) (h : Hart) (ptbr : Ptbr) (priv : BitVec 2) (va : Word) (r : Right) : Except Cause Placed :=
  match lookup s h ptbr priv va r with
  | .hit p => .ok p
  | .fault c => .error c
  | .miss => match walk s (hartModule h) ptbr va with
    | .error c => .error (asFetch r c)
    | .ok leaf => match checkLeaf s (hartModule h) (priv = 0) r va leaf with
      | .ok p => .ok p
      | .error c => .error (asFetch r c)

/-- Translates the pieces of an access in order, as far as the TLBs go: the pieces, and the fault or the missing address. A piece
of no byte stands for a misaligned lane (R158). -/
def placeSpans (s : State) (h : Hart) (by_ : Poster) : List Span → List Span × Option (Word × Option Cause)
  | [] => ([], none)
  | x :: rest =>
    if x.len = 0 then (x :: rest, some (x.va, some .malign))
    else match x.at_ with
    | some _ => let (ys, r) := placeSpans s h by_ rest; (x :: ys, r)
    | none => match lookup s h by_.ptbr by_.priv x.va x.right with
      | .hit p => let (ys, r) := placeSpans s h by_ rest; ({ x with at_ := some p } :: ys, r)
      | .fault c => (x :: rest, some (x.va, some c))
      | .miss => (x :: rest, some (x.va, none))

/-- Joins a walk for an address, or starts one; refused while 16 walks and 256 waiting ones are held (R296). The size of the page a walk will find
is not known while it goes on: a miss joins the walk of its own 4 KiB page (DESIGN CHOICE, log 113). -/
def joinWalk (s : State) (h : Hart) (ptbr : Ptbr) (va : Word) (join : Walk → Walk) : State :=
  let d := hartDie h
  let ds := dieState s d
  let page := va.toNat / 4096 * 4096
  let joins : Walk → Bool := fun x => x.ptbr.asid == ptbr.asid && x.page == page
  let walks := if ds.walks.any joins then ds.walks.map fun x => if joins x then join x else x
    else if 16 + 256 ≤ ds.walks.length then ds.walks else ds.walks ++ [join ⟨ptbr, page, [], []⟩]
  setDie s d { ds with walks := walks }

/-- A hart's fetch joins a walk, once. -/
def joinFetch (uid : Nat) (x : Walk) : Walk := if x.fetching.contains uid then x else { x with fetching := x.fetching ++ [uid] }

/-- The answer to a translation that a hart needs before it goes on. -/
inductive Sought where
  | place (p : Placed)
  | fault (c : Cause)
  | wait (s : State)

/-- Translates one address for a hart that waits for it: a page in neither the TLB nor the die's translation cache is walked first (R296); the
fault of a walk that ended in one is this translation's. -/
def seek (s : State) (h : Hart) (hs : HartState) (ptbr : Ptbr) (priv : BitVec 2) (va : Word) (r : Right) : Sought :=
  match lookup s h ptbr priv va r with
  | .hit p => .place p
  | .fault c => .fault c
  | .miss => match hs.run.fetchFault with
    | some (page, c) => if page = va.toNat / 4096 * 4096 then .fault (asFetch r c) else .wait (joinWalk s h ptbr va (joinFetch hs.id.uid))
    | none => .wait (joinWalk s h ptbr va (joinFetch hs.id.uid))

/-- An access joins a walk. -/
def joinAccess (h : Hart) (uid seq : Nat) (x : Walk) : Walk := { x with joined := x.joined ++ [⟨h, uid, seq⟩] }

/-- Replaces an operation of a hart. -/
def setOp (hs : HartState) (p : Pending) : HartState :=
  { hs with run := { hs.run with ops := hs.run.ops.map fun q => if q.seq = p.seq then p else q } }
def dropOp (hs : HartState) (seq : Nat) : HartState :=
  { hs with run := { hs.run with ops := hs.run.ops.filter fun q => q.seq ≠ seq } }
def findOp (hs : HartState) (seq : Nat) : Option Pending := hs.run.ops.find? fun q => q.seq = seq

/-- The module an access goes to is not the hart's own (R28). -/
def spansRemote (m : Nat) (spans : List Span) : Bool :=
  spans.any fun x => match x.at_ with
    | some p => paModule p.pa != m
    | none => false

/-- Translates an operation as far as it goes: it moves on, faults (R106), or waits for a walk. -/
def translateOp (s : State) (h : Hart) (hs : HartState) (p : Pending) : State × HartState :=
  if p.phase ≠ .request then (s, hs)
  else
    let (spans, r) := placeSpans s h p.by_ p.spans
    let p' := { p with spans := spans, remote := p.remote || spansRemote (hartModule h) spans }
    match r with
    | none => (s, setOp hs p')
    | some (va, some c) => (s, setOp hs { p' with phase := .found c va })
    | some (va, none) => (joinWalk s h p.by_.ptbr va (joinAccess h hs.id.uid p.seq), setOp hs p')

/-- Whether an access goes to another module (R28): by its places, or where a piece has none yet by what its page's walk finds. -/
def goesRemote (s : State) (h : Hart) (p : Pending) : Bool :=
  p.spans.any fun x => match x.at_ with
    | some a => paModule a.pa != hartModule h
    | none => match translate s h p.by_.ptbr p.by_.priv x.va x.right with
      | .ok a => paModule a.pa != hartModule h
      | .error _ => false

/-- Issues a memory operation: it enters program order and is translated as far as the TLBs go. -/
def addMem (s : State) (h : Hart) (hs : HartState) (p : Pending) : State × HartState :=
  let hs' := addOp hs { p with remote := p.remote || goesRemote s h p, sent := s.now }
  match hs'.run.ops.getLast? with
  | none => (s, hs')
  | some q => translateOp s h hs' q

end Sys2Proof.Machine
end

