-- ==== Sys2Proof/Machine/Place.lean ====
section
/-!
DEFINITION. Places: the home of an address (R233, R359), free slots (R282, R288), strands coming and going (R277, R289), and module
events (R204).
-/

namespace Sys2Proof.Machine

/-! Homes (R233). -/

/-- The hash of a memory address. -/
def homeHash (pa : Nat) : Nat :=
  let f := pa / 512 % 2 ^ 48
  [0, 8, 16, 24, 32, 40].foldl (fun h k => h ^^^ (f / 2 ^ k % 256)) 0

/-- Dies of a module in service. -/
def liveDies (s : State) (m : Nat) : List Nat := (List.range 4).filter fun d => (dieState s (4 * m + d)).inService

/-- The home of an address: die of the system, and slice (R233); the degraded hash while its die is out of service (R359). -/
def homeOf (s : State) (pa : Nat) : Nat × Nat :=
  let m := paModule pa
  let h := homeHash pa
  let d := h / 64
  let live := liveDies s m
  if live.contains d || live.isEmpty then (4 * m + d, h % 64) else (4 * m + live.getD (h % 64 % live.length) 0, h % 64)

/-- The cluster of the system beside a slice of a die. -/
def sliceCluster (gdie slice : Nat) : Nat := gdie * 32 + slice / 16 * 8 + slice % 16 / 2

def homeCluster (s : State) (pa : Nat) : Nat := let (d, sl) := homeOf s pa; sliceCluster d sl

/-- TIME of a module (R205). -/
def timeOf (s : State) (m : Nat) : Nat := ((s.now : Int) + (moduleOf s m).time).toNat
def timeWord (s : State) (m : Nat) : Word := BitVec.ofNat 64 (timeOf s m)

/-! Tiles as registers (R165). -/

def shapeRows (w : Word) : Nat := (w.extractLsb' 0 6).toNat
def shapeCols (w : Word) : Nat := (w.extractLsb' 6 8).toNat
def shapeFmt (w : Word) : BitVec 4 := w.extractLsb' 16 4
def shapeOwner (w : Word) : Nat := (w.extractLsb' 24 3).toNat
def shapeValid (w : Word) : Bool := w.getLsbD 28

def tileOf (cs : CoreState) (t : Fin 8) : Tile := cs.tiles.get t
def setTile (cs : CoreState) (t : Fin 8) (x : Tile) : CoreState := { cs with tiles := cs.tiles.set t.val x t.isLt }

/-- The tiles a slot holds. -/
def heldTiles (cs : CoreState) (slot : Nat) : List (Fin 8) :=
  (List.finRange 8).filter fun t => shapeValid (tileOf cs t).shape && decide (shapeOwner (tileOf cs t).shape = slot)

/-- A zero shape word (R168, R173). -/
def releaseTile (cs : CoreState) (t : Fin 8) : CoreState :=
  setTile cs t { tileOf cs t with shape := 0, dirty := false, absent := false }
def releaseTiles (cs : CoreState) (slot : Nat) : CoreState := (heldTiles cs slot).foldl releaseTile cs

/-! Slots. -/

/-- The slot holds frozen state. -/
def frozenFor (cs : CoreState) (slot : Nat) : Bool := match cs.frozen with
  | some f => f.slot == slot
  | none => false

/-- A core that the coordinates may name (R230): usable, and of a die in service. -/
def coreUsable (s : State) (c : Nat) : Bool :=
  (coreOf s c).usable && (dieState s (coreDie c)).inService

/-- A slot free for a launch, an installation or a ship (R277, R282, R288). -/
def slotFree (s : State) (c n : Nat) : Bool :=
  let cs := coreOf s c
  (hartOf s (.strand c n)).isNone && !cs.disabled.contains n && (heldTiles cs n).isEmpty &&
    !frozenFor cs n &&
    !(s.ships.any fun x => x.core == c && x.slot == n)

def freeSlots (s : State) (c : Nat) : List Nat := if coreUsable s c then (List.range 8).filter (slotFree s c) else []

/-- The cores of a cluster in ascending order. -/
def clusterCores (g : Nat) : List Nat := (List.range 8).map (8 * g + ·)

/-- The lowest core of a cluster with a free slot. -/
def clusterFree (s : State) (g : Nat) : Option Nat := (clusterCores g).find? fun c => !(freeSlots s c).isEmpty

/-- A hart that holds live vector or tile state: long mode, a v register that is not zero or not full (R164), held tiles, frozen
or queued matrix work (R142). -/
def liveState (s : State) (h : Hart) (hs : HartState) : Bool :=
  match hartCore h with
  | none => false
  | some c =>
    let cs := coreOf s c
    hs.st.vl || (hs.regs.v.toList.any fun r => r.val != 0 || !r.full) || !(heldTiles cs (hartSlot h)).isEmpty || (cs.queue.any fun e => e.uid == hs.id.uid && !e.remote) ||
      match cs.frozen with
      | some f => f.slot == hartSlot h
      | none => false

/-- A bound input port (R278, R281). -/
def hasInput (hs : HartState) : Bool := hs.ports.toList.any fun p => p.bound && !p.out

/-- The modules of a context: those of its gang, or the one it runs on (R119, R317). -/
def contextModules (s : State) (m gang : Nat) : List Nat := (assocGet (moduleOf s m).msets gang).getD [m]

/-! Module events (R204). -/

/-- The strand MEVT names, when EN = 1. -/
def mevtStrand (s : State) (m : Nat) : Option Hart :=
  let w := (moduleOf s m).mevt
  if w.getLsbD 13 then some (.strand (m * 1024 + (w.extractLsb' 0 10).toNat) (w.extractLsb' 10 3).toNat) else none

/-- Delivers what is pending to the MEVT strand. -/
def deliverEvents (s : State) (m : Nat) : State :=
  match mevtStrand s m with
  | none => s
  | some h => match hartOf s h with
    | none => s
    | some hs =>
      let ms := moduleOf s m
      if ms.events.isEmpty then s
      else setModule (setHart s h { hs with run := { hs.run with async := hs.run.async ++ ms.events } }) m
        { ms with events := [] }

/-- A cause is already pending on the module or its MEVT strand. -/
def eventPending (s : State) (m : Nat) (c : Cause) : Bool :=
  ((moduleOf s m).events.any fun e => e.1 == c) ||
    match (mevtStrand s m).bind (hartOf s) with
    | some hs => hs.run.async.any fun e => e.1 == c
    | none => false

/-- Raises a module event: one pending per code, others only counted. -/
def raiseModule (s : State) (m : Nat) (c : Cause) (v : Word) : State :=
  let ms := moduleOf s m
  if eventPending s m c then setModule s m { ms with counted := ms.counted + 1 }
  else deliverEvents (setModule s m { ms with events := ms.events ++ [(c, v)] }) m

/-- Installs a strand in a slot: what a taken strand had left with the slot is gone (R305), the watchdog count starts at zero (R271), and
pending module events find the strand. -/
def install (s : State) (c n : Nat) (hs : HartState) : State :=
  let s1 := if (coreOf s c).residue.any fun x => x.1 == n then setCore s c { coreOf s c with residue := assocDel (coreOf s c).residue n } else s
  deliverEvents (setHart s1 (.strand c n) { hs with run := { hs.run with watch := 0 } }) (coreModule c)

/-! Launch values (R311). -/

/-- A strand as a group starts it: registers at reset, g0 to g15 zero and full, what it takes from the launcher. -/
def newStrand (uid : Nat) (role : Role) (group : Nat) (by_ : Poster) (pc : Word) : HartState :=
  { HartState.reset with
    id := { Ident.reset with uid := uid, role := role, gang := by_.gang, group := group }
    pc := pc
    st := { Status.reset with priv := by_.priv }
    ptbr := by_.ptbr
    trap := { TrapRegs.reset with tvec := by_.tvec, tscr := by_.tscr } }

/-! Messages. -/

/-- Sends a message. -/
def sendMsg (s : State) (m : Msg) : State := { s with msgs := s.msgs ++ [(s.nextId, m)], nextId := s.nextId + 1 }
def dropMsg (s : State) (i : Nat) : State := { s with msgs := assocDel s.msgs i }

/-- The hart with a uid. -/
def hartByUid (s : State) (uid : Nat) : Option (Hart × HartState) := s.harts.find? fun x => x.2.id.uid == uid

/-! Recording (R361). -/

/-- An input enters a gang from outside its harts: data or a completion word of the host in the gang's pages, a timed-launch record of the gang, a
packet from a module outside its MSET, to a window or to the gang's pages where its address is known. -/
def LogItem.enters (ms : ModuleState) (gang : Nat) (pages : List (Nat × Nat)) (x : LogItem) : Bool :=
  let within (pa len : Nat) : Bool := pages.any fun r => decide (pa < r.1 + r.2 ∧ r.1 < pa + len)
  let outside (m : Nat) : Bool := !((assocGet ms.msets gang).getD []).contains m
  match x with
  | .dma _ pa caddr data => within pa data.length || within caddr 8
  | .hostWrite pa data => within pa data.length
  | .timed t => t.gang == gang
  | .packet h => outside h.src
  | .request src pa data => outside (hartModule src) && (isWindow pa || within pa data.length)

/-- Logs an input of a gang that is recorded; a full ring drops it and counts. -/
def recordInput (s : State) (m : Nat) (x : LogItem) : State :=
  let ms := moduleOf s m
  if !ms.recording.gangs.any (fun g => x.enters ms g.1 g.2) then s
  else if Config.recordCapacity ≤ ms.recording.log.length then
    setModule s m { ms with recording := { ms.recording with drops := ms.recording.drops + 1 } }
  else setModule s m { ms with recording := { ms.recording with log := ms.recording.log ++ [(timeOf s m, x)] } }

/-- Logs what a hart's request has done on other modules than its own: the bytes at its pieces in memory and in scratchpads, and `other` at a window
without memory. -/
def recordRequest (s : State) (h : Hart) (p : Pending) (other : List Byte) : State :=
  if !p.remote then s
  else p.spans.foldl (fun t x => match x.at_ with
    | some q =>
      let (c, kind, _) := windowParts q.pa
      let m := if isWindow q.pa then coreModule c else paModule q.pa
      if m = hartModule h then t
      else recordInput t m (.request h q.pa (if isWindow q.pa && kind != 0 then other else memBytes s.mem q.pa x.len))
    | none => t) s

/-- Changes an operation of a hart. -/
def updateOp (s : State) (h : Hart) (seq : Nat) (f : Pending → Pending) : State :=
  match hartOf s h with
  | none => s
  | some hs => setHart s h { hs with run := { hs.run with ops := hs.run.ops.map fun q => if q.seq = seq then f q else q } }

def failOp (s : State) (h : Hart) (seq : Nat) (c : Cause) (v : Word) : State :=
  updateOp s h seq fun p => { p with phase := .faulted c v }

/-- The result of a request; one from another module is an input there (R361). -/
def finishOp (s : State) (h : Hart) (seq : Nat) (r : List Word) : State :=
  let s1 := match (hartOf s h).bind fun hs => hs.run.ops.find? fun p => p.seq == seq with
    | some p => recordRequest s h p []
    | none => s
  updateOp s1 h seq fun p => { p with phase := .done r }

/-! Gates (R327, R328). -/

/-- A module holds a report of every module of the set. -/
def allReports (t : Timed) : Bool := t.mset.all fun k => t.reports.any fun r => r.from_ == k

/-- The gate of an action may open: its records are installed and its packets replayed (R333), and it holds every report, none of them LATE, or
after STRAGGLE a RUN store has come to a held strand. -/
def gateReady (a : Action) : Bool :=
  !a.open_ && a.order.act != 1 && (a.stage == .release || a.stage == .tasks || a.stage == .done) &&
    (a.ran || (!a.order.straggled && allReports a.order && a.order.reports.all fun r => !r.late))

/-- Opens the gates of a module that may open. A strand marked halted stays so until its own RUN store. -/
def openGates (s : State) (m : Nat) : State :=
  let ns := ((moduleOf s m).actions.filter gateReady).map (·.order.n)
  if ns.isEmpty then s
  else
    let ms := moduleOf s m
    let s1 := setModule s m { ms with actions := ms.actions.map fun a => if ns.contains a.order.n then { a with open_ := true } else a }
    { s1 with harts := s1.harts.map fun (h, hs) => match hs.run.gate with
        | some n => if hartModule h = m && ns.contains n then (h, { hs with run := { hs.run with gate := none } }) else (h, hs)
        | none => (h, hs) }

end Sys2Proof.Machine
end

