-- ==== Sys2Proof/Machine/Cells.lean ====
section
/-!
DEFINITION. What leaves the results of barrier objects and of reduction and decide-once cells unspecified: ordinary stores to them (R124,
R128, R132), and two strands that feed one slot (R126).
-/

namespace Sys2Proof.Machine

def touches (pa len : Nat) (x : Nat × Nat) : Bool := decide (pa < x.1 + x.2 ∧ x.1 < pa + len)

/-- An ordinary store reaches bytes of cells. -/
def spoilCells (l : List CellUse) (pa len : Nat) : List CellUse :=
  l.map fun c => if c.parts.any (touches pa len) then { c with spoiled := true } else c

/-- Changes every outstanding operation of a hart. -/
def mapOps (hs : HartState) (f : Pending → Pending) : HartState :=
  { hs with run := { hs.run with ops := hs.run.ops.map f } }

/-- An operation that arrives or waits on a barrier object of which a store touches a byte. -/
def onBarrier (pa len : Nat) (p : Pending) : Bool :=
  (match p.op with
    | .barArrive _ | .barWait _ => true
    | _ => false) && (p.phase == .request || p.phase == .waiting) && p.spans.any fun x => match x.at_ with
      | some a => touches pa len (a.pa, 16)
      | none => false

def spoilOp (pa len : Nat) (p : Pending) : Pending := if onBarrier pa len p then { p with spoiled := true } else p

/-- An ordinary store of a program, an engine or an atomic to bytes of memory or a scratchpad. -/
def spoil (s : State) (pa len : Nat) : State :=
  { s with
    cells := spoilCells s.cells pa len
    harts := s.harts.map fun (h, hs) => (h, mapOps hs (spoilOp pa len)) }

/-- The placed pieces of an access. -/
def placedParts (spans : List Span) : List (Nat × Nat) := spans.filterMap fun x => x.at_.map fun a => (a.pa, x.len)

def spoilSpans (s : State) (spans : List Span) : State := (placedParts spans).foldl (fun t x => spoil t x.1 x.2) s

/-- REDDECL and DCELL make the cell at `pa` anew, and end any other that held one of its bytes. -/
def declareCell (s : State) (pa : Nat) (parts : List (Nat × Nat)) : State :=
  let others := (parts.foldl (fun l x => spoilCells l x.1 x.2) s.cells).filter fun c => c.pa ≠ pa
  { s with cells := others ++ [⟨pa, parts, false, []⟩] }

/-- An operation acts on the cell at `pa`. -/
def useCell (s : State) (pa : Nat) (parts : List (Nat × Nat)) : State :=
  if s.cells.any fun c => c.pa == pa then s else { s with cells := s.cells ++ [⟨pa, parts, false, []⟩] }

def cellSpoiled (s : State) (pa : Nat) : Bool := s.cells.any fun c => c.pa == pa && c.spoiled

/-- A strand feeds slot `i` of the cell at `pa`. -/
def feed (s : State) (pa uid i : Nat) : State :=
  { s with cells := s.cells.map fun c =>
      if c.pa = pa ∧ (i, uid) ∉ c.feeders then { c with feeders := c.feeders ++ [(i, uid)] } else c }

/-- The spec settles what slot `i` holds: no ordinary store to the cell, and no other strand has fed the slot (R124, R126). -/
def slotSettled (s : State) (pa uid i : Nat) : Bool :=
  !s.cells.any fun c => c.pa == pa && (c.spoiled || c.feeders.any fun g => g.1 == i && g.2 != uid)

/-- Free values in the place of unspecified ones. -/
def freeWords (n k : Nat) : List Word := (List.range k).map fun i => Config.freeWord (n + i)

/-- Counts the `k` free values used by a change from `s` to `t`, if it is one. -/
def drew (s t : State) (k : Nat) : State := if t = s then s else { t with free := t.free + k }

end Sys2Proof.Machine
end

