-- ==== Sys2Proof/Machine/Coherence.lean ====
section
/-!
DEFINITION. The directory at the homes: grains (R234 to R236), tiles (R237 to R240), the host's copies (R241, R242), and what a
request of a core, a home operation or the host does to them. Cached copies hold no values of their own: every copy equals
memory (R226), but for a line that the host owns, whose data come with its answer.
-/

namespace Sys2Proof.Machine

/-! Grains and tiles. -/

def grainBytes (g : BitVec 2) : Nat := match g.toNat with
  | 0 => 32
  | 1 => 128
  | _ => 512

def sectorOf (pa : Nat) : Nat := pa / 32 * 32
def frameOf (pa : Nat) : Nat := pa / 512 * 512

/-- The first and the last sector of row `r` of a tile (R138). -/
def tileRow (t : TileRec) (r : Nat) : Nat × Nat :=
  let a := t.base + r * t.pitch
  (sectorOf a, sectorOf (a + t.rbytes - 1))

/-- A sector belongs to a tile (R138). -/
def TileRec.covers (t : TileRec) (pa : Nat) : Bool :=
  (List.range t.rows).any fun r => let (a, b) := tileRow t r; decide (a ≤ sectorOf pa ∧ sectorOf pa ≤ b)

/-- The sectors of a tile. -/
def TileRec.sectors (t : TileRec) : List Nat :=
  ((List.range t.rows).flatMap fun r => let (a, b) := tileRow t r; if a = b then [a] else [a, b]).eraseDups

def tileAt (s : State) (pa : Nat) : Option TileRec := s.tiles.find? fun t => t.covers pa
def setTileRec (s : State) (t : TileRec) : State := { s with tiles := s.tiles.map fun u => if u.base = t.base then t else u }
def dropTileRec (s : State) (base : Nat) : State :=
  { s with tiles := s.tiles.filter fun u => u.base ≠ base, stubs := s.stubs.filter fun x => x.2 ≠ base }

/-- A frame has a live entry: a grain with copies or a sector of a tile (R235). -/
def frameLive (s : State) (f : Nat) : Bool :=
  (s.grains.any fun g => frameOf g.1 == f) || s.tiles.any fun t => t.sectors.any fun a => frameOf a == f

/-- The grain size of a frame for a request through a page of grain `g` (R235). -/
def frameGrain (s : State) (pa : Nat) (g : BitVec 2) : Nat :=
  match assocGet s.frames (frameOf pa) with
  | some n => if frameLive s (frameOf pa) then n else grainBytes g
  | none => grainBytes g

/-- A grain is split into sectors: a tile covers part of it, or did, and its frame has had a live entry ever since (R239). -/
def grainSplit (s : State) (b n : Nat) : Bool :=
  ((List.range (n / 32)).any fun i => (tileAt s (b + 32 * i)).isSome) || (s.splits.contains b && frameLive s (frameOf b))

/-- The unit of a sector: its tile, its grain, or the sector of a split grain (R239). -/
def unitOf (s : State) (pa : Nat) (g : BitVec 2) : CohUnit :=
  match tileAt s pa with
  | some t => .tile t.base
  | none =>
    let n := frameGrain s pa g
    let b := pa / n * n
    if grainSplit s b n then .line (sectorOf pa) 32 else .line b n

/-- The units of a range, in ascending order. -/
def unitsOf (s : State) (pa len : Nat) (g : BitVec 2) : List CohUnit :=
  ((List.range ((pa + len - 1) / 32 - pa / 32 + 1)).map fun i => unitOf s (sectorOf pa + 32 * i) g).eraseDups

/-- A range touches a live tile. -/
def inTile (s : State) (pa len : Nat) : Bool :=
  (List.range ((pa + len - 1) / 32 - pa / 32 + 1)).any fun i => (tileAt s (sectorOf pa + 32 * i)).isSome

def grainOf (s : State) (base : Nat) : Option GrainDir := assocGet s.grains base

/-- Sets the grain of a unit's frame when it has no live entry (R235); its split sectors have rejoined then (R239). -/
def noteFrame (s : State) (base size : Nat) : State :=
  if frameLive s (frameOf base) then s
  else { s with frames := assocSet s.frames (frameOf base) size, splits := s.splits.filter fun b => frameOf b ≠ frameOf base }

def setGrain (s : State) (base : Nat) (g : GrainDir) : State :=
  { noteFrame s base g.size with grains := assocSet s.grains base g }
def dropGrain (s : State) (base : Nat) : State := { s with grains := assocDel s.grains base }

/-! The host's copies (R241, R242). -/

/-- What a request needs: a readable copy, or the only one. -/
inductive Want where
  | read | own
  deriving DecidableEq, Repr

/-- The 64-byte lines of which the host's copy stands in the way of a request of the module. -/
def hostLines (s : State) (want : Want) : CohUnit → List Nat
  | .tile b => match s.tiles.find? fun t => t.base == b with
    | some t => if t.hostX || (t.host && want == .own) then (t.sectors.map fun a => a / 64 * 64).eraseDups else []
    | none => []
  | .line b n => match grainOf s b with
    | some g => if g.hostX || (g.host && want == .own) then
        ((List.range ((n + 63) / 64)).map fun i => (b + 64 * i) / 64 * 64) else []
    | none => []

/-- The units of which the host's copy stands in the way. -/
def hostUnits (s : State) (want : Want) (us : List CohUnit) : List CohUnit := us.filter fun u => !(hostLines s want u).isEmpty

/-- Sends the snoops that a request needs for units of the host (R242). A unit of which a line is snooped already waits for that answer first. -/
def sendSnoops (s : State) (req : Req) (want : Want) (us : List CohUnit) : State :=
  let idle := us.filter fun u => !(hostLines s want u).any fun l => s.snoops.any fun x => x.line == l
  let lines := (idle.flatMap (hostLines s want)).eraseDups
  { s with snoops := s.snoops ++ lines.map fun l => ⟨l, req, want == .own, s.now, idle.filter fun u => (hostLines s want u).contains l⟩ }

/-- The host gives up its copy of a unit, or with `keep` keeps what it has shared. -/
def releaseHost (s : State) (keep : Bool) : CohUnit → State
  | .tile b => { s with tiles := s.tiles.map fun t =>
      if t.base = b then
        { t with
          host := keep && (t.host || t.hostX)
          hostX := false
          dirty := if t.hostX then [] else t.dirty
          state := if t.hostX then (if keep then .ts else .ti) else t.state }
      else t }
  | .line b _ => match grainOf s b with
    | some g =>
      if !keep && g.hostX then dropGrain s b
      else { s with grains := assocSet s.grains b { g with host := keep && (g.host || g.hostX), hostX := false, dirty := if g.hostX then [] else g.dirty } }
    | none => s

/-! Requests of a core (R236, R238). `c` is the core; the host's copies are out of the way. -/

def addNew (l : List Nat) (x : Nat) : List Nat := if l.contains x then l else l ++ [x]

/-- The sharer vector and the presence bits with the bit of a core (R234): of its cluster on the home's die, or of its die. -/
def addSharer (s : State) (base c : Nat) (x : BitVec 32 × BitVec 4) : BitVec 32 × BitVec 4 :=
  if coreDie c = (homeOf s base).1 then (x.1 ||| (1 <<< (coreCluster c % 32)), x.2) else (x.1, x.2 ||| (1 <<< (coreDie c % 4)))

/-- The entry of a grain in state S with sharers. -/
def sharedGrain (s : State) (b n : Nat) (host : Bool) (cs : List Nat) : GrainDir :=
  let (v, d) := cs.foldl (fun x c => addSharer s b c x) (0, 0)
  ⟨n, none, v, d, cs, host, false, []⟩

/-- A grain in state S gets one more sharer. -/
def shareGrain (s : State) (b c : Nat) (g : GrainDir) : GrainDir :=
  let (v, d) := addSharer s b c (g.vec, g.dies)
  { g with vec := v, dies := d, copies := addNew g.copies c }

/-- RdS of a grain. -/
def lineRead (s : State) (c b n : Nat) : State :=
  match grainOf s b with
  | none => setGrain s b ⟨n, some c, 0, 0, [], false, false, []⟩
  | some g =>
    match g.owner with
    | some o => if o = c then s else setGrain s b (sharedGrain s b g.size false [o, c])
    | none => setGrain s b (shareGrain s b c g)

/-- RdX, upgrade or local atomic, with the sectors it makes dirty. -/
def lineOwn (s : State) (c b n : Nat) (dirty : List Nat) : State :=
  let old := match grainOf s b with
    | some g => g.dirty
    | none => []
  setGrain s b ⟨n, some c, 0, 0, [], false, false, dirty.foldl addNew old⟩

/-- UC load of a grain: a modified owner writes back and keeps a shared copy. -/
def lineUcRead (s : State) (b : Nat) : State :=
  match grainOf s b with
  | some g => match g.owner with
    | some o => setGrain s b (sharedGrain s b g.size false [o])
    | none => s
  | none => s

/-- The owner writes a grain back and gives it up; a sharer drops its copy silently, and its entry stays (R236). -/
def lineEvict (s : State) (c b : Nat) : State :=
  match grainOf s b with
  | some g =>
    if g.owner = some c then dropGrain s b
    else { s with grains := assocSet s.grains b { g with copies := g.copies.filter (· ≠ c) } }
  | none => s

/-- A holder's L2 evicts a tile as a whole (R238). -/
def tileEvict (s : State) (c : Nat) (t : TileRec) : State :=
  match t.state with
  | .te => if t.owner = some c then setTileRec s { t with state := .ti, owner := none, dirty := [] } else s
  | .ts => setTileRec s { t with copies := t.copies.filter (· ≠ c) }
  | _ => s

/-- A tile in state TS with the sharers it had and others. -/
def sharedTile (s : State) (t : TileRec) (cs : List Nat) : TileRec :=
  let (v, d) := cs.foldl (fun x c => addSharer s t.base c x) (t.vec, t.dies)
  { t with state := .ts, owner := none, vec := v, dies := d, copies := cs.foldl addNew t.copies, hostX := false, dirty := [] }

def tileRead (s : State) (c : Nat) (t : TileRec) : State :=
  match t.state with
  | .ti => setTileRec s { t with state := .te, owner := some c, vec := 0, dies := 0, copies := [], dirty := [] }
  | .ts => setTileRec s (sharedTile s t [c])
  | .te => match t.owner with
    | some o => if o = c then s else setTileRec s (sharedTile s t [o, c])
    | none => setTileRec s (sharedTile s t [c])
  | .tf _ => s

def tileOwn (s : State) (c : Nat) (t : TileRec) (dirty : List Nat) : State :=
  setTileRec s { t with state := .te, owner := some c, vec := 0, dies := 0, copies := [], host := false, hostX := false,
                        dirty := dirty.foldl addNew t.dirty }

/-- A home operation or recall: the home holds the data. -/
def tileHome (s : State) (t : TileRec) : State :=
  setTileRec s { t with state := .ti, owner := none, vec := 0, dies := 0, copies := [], host := false, hostX := false, dirty := [] }

/-- A tile read by the home itself: a holder keeps a clean copy. R238 counts a UC load as a tile read, which installs the tile in its requester;
R224 never caches UC data in a core. The model installs nothing: TI stays, TE(o) becomes TS{o} (DESIGN CHOICE, log 102). -/
def tileUcRead (s : State) (t : TileRec) : State :=
  match t.state, t.owner with
  | .te, some o => setTileRec s (sharedTile s t [o])
  | _, _ => s

/-- The state of one unit after a core's read or ownership request. -/
def cohCore (s : State) (want : Want) (c : Nat) (dirty : List Nat) : CohUnit → State
  | .tile b => match s.tiles.find? fun t => t.base == b with
    | some t => match want with
      | .read => tileRead s c t
      | .own => tileOwn s c t (dirty.filter t.covers)
    | none => s
  | .line b n => match want with
    | .read => lineRead s c b n
    | .own => lineOwn s c b n (dirty.filter fun a => decide (b ≤ a ∧ a < b + n))

/-- The state of one unit after an access performed at the home. -/
def cohHome (s : State) (want : Want) : CohUnit → State
  | .tile b => match s.tiles.find? fun t => t.base == b with
    | some t => match want with
      | .read => tileUcRead s t
      | .own => tileHome s t
    | none => s
  | .line b _ => match want with
    | .read => lineUcRead s b
    | .own => dropGrain s b

/-- A tile in the middle of a forward makes every request wait (R141, R240). -/
def forwarding (s : State) : CohUnit → Bool
  | .tile b => s.tiles.any fun t => t.base == b && match t.state with
    | .tf _ => true
    | _ => false
  | .line _ _ => false

/-- A core holds a unit so that a load hits, or a store (R236). -/
def holds (s : State) (want : Want) (c : Nat) : CohUnit → Bool
  | .tile b => match s.tiles.find? fun t => t.base == b with
    | some t => (t.owner == some c && t.state == .te) || (want == .read && t.state == .ts && t.copies.contains c)
    | none => false
  | .line b _ => match grainOf s b with
    | some g => g.owner == some c || (want == .read && g.copies.contains c)
    | none => false

/-! The order of arrival (R236, R237, R240, R242). -/

/-- A hart has an operation that is to be performed, and meets a test. -/
def opWaits (s : State) (h : Hart) (n : Nat) (f : Op → Bool) : Bool := match hartOf s h with
  | some hs => match findOp hs n with
    | some p => !outOfWay hs p && f p.op
    | none => false
  | none => false

/-- A copy has delivered a burst that has yet to arrive (R131). -/
def Op.arriving : Op → Bool
  | .bcopy _ _ _ bar sent done => bar.isSome && decide (done < sent)
  | .bcast _ _ _ _ ben _ sent done => ben && decide (done < sent)
  | _ => false

/-- Descriptors of the ring. -/
def HostState.ring (x : HostState) : Nat := 2 ^ x.log2.toNat

/-- The host DMA unit has a descriptor to perform: its indices wrap modulo the ring (R353, R354). -/
def dmaDue (x : HostState) : Bool := x.en && decide (x.head.toNat % x.ring ≠ x.tail.toNat % x.ring)

/-- A request that waits has not gone away, and will be made again: an access still to be performed, a store, a prefetch, a walk, an arrival, a
combined request, a descriptor. A fetch and the dispatcher keep no place. -/
def reqOpen (s : State) : Req → Bool
  | .store i => s.stores.any fun a => a.n == i
  | .op h n => opWaits s h n fun _ => true
  | .core c pa => s.prefetches.any fun x => x.1 == c && x.2.1 == pa
  | .walk d asid page => (dieState s d).walks.any fun x => x.ptbr.asid == asid && x.page == page
  | .arrival e n => opWaits s (.engine e) n Op.arriving
  | .combined n => s.combined.any fun c => c.n == n && !c.dropped
  | .dma m => dmaDue (moduleOf s m).host
  | .fetch _ | .unit _ => false

def visitorOpen (s : State) : Visitor → Bool
  | .req r => reqOpen s r
  | .host _ => true

/-- The sectors of a range. -/
def rangeSectors (pa len : Nat) : List Nat := (List.range ((pa + len - 1) / 32 - pa / 32 + 1)).map fun i => sectorOf pa + 32 * i

/-- Two requests act on one unit: they share a grain or a tile. -/
def CohUnit.meets (u w : CohUnit) : Bool :=
  match u, w with
  | .line b n, .line c k => decide (b < c + k ∧ c < b + n)
  | _, _ => u == w

/-- A request that arrived before stands in the way of units. -/
def Arrival.inWay (s : State) (us : List CohUnit) (x : Arrival) : Bool :=
  visitorOpen s x.who && x.ranges.any fun (pa, len) => (unitsOf s pa len 1).any fun u => us.any u.meets

/-- What arrived before a visitor and stands in its way. -/
def mustQueue (s : State) (v : Visitor) (us : List CohUnit) : Bool :=
  (s.arrivals.takeWhile fun x => x.who != v).any (Arrival.inWay s us)

/-- A request takes its place in the order of arrival, or keeps the one it has. A fetch and the dispatcher hold no place: they arrive when they are
served (DESIGN CHOICE, log 101). -/
def queueUp (s : State) (v : Visitor) (ranges : List (Nat × Nat)) : State :=
  let live := s.arrivals.filter fun x => visitorOpen s x.who
  if !visitorOpen s v then { s with arrivals := live }
  else if live.any fun x => x.who == v then { s with arrivals := live.map fun x => if x.who = v then { x with ranges := ranges } else x }
  else { s with arrivals := live ++ [⟨v, ranges⟩] }

/-- A request is served. -/
def served (s : State) (v : Visitor) : State := { s with arrivals := s.arrivals.filter fun x => x.who != v }

/-- The outcome of a coherence request. -/
inductive CohResult where
  /-- It waits: behind another, for a forward, or for the host. -/
  | wait (s : State)
  | ok (s : State)

/-- A range as it is asked for: its address, its length and its page's grain. -/
abbrev Range := Nat × Nat × BitVec 2

/-- Goes on with the state of a request that is served. -/
def CohResult.bind (r : CohResult) (f : State → CohResult) : CohResult :=
  match r with
  | .wait s => .wait s
  | .ok s => f s

/-- Makes requests for several ranges, by core (`some c`) or at the home (`none`); all or none. Each waits behind what arrived before it at one of
its units, for the end of a forward, and for the host's answers. Meanwhile it holds its place for `places`, and with `keep` also when it is served:
the rest of what it asks for is still to come. -/
def cohAsk (s : State) (req : Req) (places : List Range) (keep : Bool) (want : Want) (core : Option Nat) (rs : List Range) : CohResult :=
  let us := (rs.flatMap fun (pa, len, g) => unitsOf s pa len g).eraseDups
  let queued := queueUp s (.req req) (places.map fun (pa, len, _) => (pa, len))
  if mustQueue s (.req req) us || us.any (forwarding s) then .wait queued
  else match hostUnits s want us with
    | [] => .ok (rs.foldl (fun s (pa, len, g) => (unitsOf s pa len g).foldl (fun s u => match core with
        | some c => cohCore s want c (if want = .own then rangeSectors pa len else []) u
        | none => cohHome s want u) s) (if keep then s else served s (.req req)))
    | hosts => .wait (sendSnoops queued req want hosts)

/-- A request that asks for all it needs at once. -/
def cohAll (s : State) (req : Req) (want : Want) (core : Option Nat) (rs : List Range) : CohResult := cohAsk s req rs false want core rs

/-- Makes a request for one range. -/
def cohRequest (s : State) (req : Req) (want : Want) (core : Option Nat) (pa len : Nat) (g : BitVec 2) : CohResult :=
  cohAll s req want core [(pa, len, g)]

/-- The ranges of an operation's placed pieces. -/
def spanRanges (spans : List Span) : List (Nat × Nat × BitVec 2) :=
  spans.filterMap fun x => x.at_.map fun p => (p.pa, x.len, p.grain)

/-! The host's own requests (R241): a 64-byte line acts on every unit it touches. -/

/-- The units of which a 64-byte line is part. R235 takes the grain of a frame without a live entry from the page of its first request; a request
of the host has no page, and takes 128 bytes (DESIGN CHOICE, log 103). -/
def lineUnits (s : State) (line : Nat) : List CohUnit := unitsOf s line 64 1

/-- The host reads a unit: a sharer, or E when nobody holds it. -/
def hostReadUnit (s : State) : CohUnit → State
  | .tile b => match s.tiles.find? fun t => t.base == b with
    | some t => match t.state, t.owner with
      | .ti, _ => setTileRec s { t with state := .te, owner := none, hostX := true, dirty := [] }
      | .te, some o => setTileRec s { sharedTile s t [o] with host := true }
      | .ts, _ => setTileRec s { t with host := true }
      | _, _ => s
    | none => s
  | .line b n => match grainOf s b with
    | none => setGrain s b ⟨n, none, 0, 0, [], false, true, []⟩
    | some g => match g.owner with
      | some o => setGrain s b (sharedGrain s b g.size true [o])
      | none => if g.hostX then s else setGrain s b { g with host := true }

/-- The host owns a unit. -/
def hostOwnUnit (s : State) : CohUnit → State
  | .tile b => match s.tiles.find? fun t => t.base == b with
    | some t => setTileRec s { t with state := .te, owner := none, vec := 0, dies := 0, copies := [], host := false, hostX := true,
                                      dirty := t.sectors }
    | none => s
  | .line b n => setGrain s b ⟨n, none, 0, 0, [], false, true, (List.range (n / 32)).map fun i => b + 32 * i⟩

/-- A unit has a snoop on its way. -/
def snooped (s : State) (u : CohUnit) : Bool := s.snoops.any fun x => (lineUnits s x.line).contains u

/-- The host's request takes its turn at the home: it waits behind what arrived before it, a forward, and a request whose snoop is on its way
(R236, R242). -/
def hostMust (s : State) (line : Nat) (earlier : List Arrival) : Bool :=
  let us := lineUnits s line
  us.any (fun u => forwarding s u || snooped s u) || earlier.any (Arrival.inWay s us)

def hostPerform (s : State) (own : Bool) (line : Nat) : State :=
  (lineUnits s line).foldl (fun s u => if own then hostOwnUnit s u else hostReadUnit s u) s

/-- A request of the host arrives. -/
def hostRequest (s : State) (own : Bool) (line : Nat) : State :=
  if hostMust s line s.arrivals then { s with arrivals := s.arrivals ++ [⟨.host own, [(line, 64)]⟩] } else hostPerform s own line

/-- The first waiting request of the host whose turn has come is served. -/
def hostTurnFrom (s : State) (earlier : List Arrival) : List Arrival → State
  | [] => s
  | x :: rest => match x.who, x.ranges with
    | .host own, [(line, _)] =>
      if hostMust s line earlier then hostTurnFrom s (earlier ++ [x]) rest
      else hostPerform { s with arrivals := earlier ++ rest } own line
    | _, _ => hostTurnFrom s (earlier ++ [x]) rest

def hostTurn (s : State) : State := hostTurnFrom s [] s.arrivals

/-- The snoop of a line is answered: the host loses or shares every unit it was asked for whose lines are all answered (R242). A unit that only has
a line in common with those keeps the host's copy of its other lines. -/
def answerSnoop (s : State) (line : Nat) : State :=
  match s.snoops.find? fun x => x.line == line with
  | none => s
  | some x =>
    let s1 := { s with snoops := s.snoops.filter fun y => y.line ≠ line }
    x.units.foldl (fun t u => if t.snoops.any fun y => y.units.contains u then t else releaseHost t (!x.own) u) s1

/-- The host has a sector in E or M: what it writes back there counts. -/
def hostOwns (s : State) (sector : Nat) : Bool :=
  match unitOf s sector 1 with
  | .tile b => s.tiles.any fun t => t.base == b && t.hostX
  | .line b _ => (grainOf s b).any fun g => g.hostX

/-- The sectors of a 64-byte line that the host owns, with their bytes of its data. -/
def hostSectors (s : State) (line : Nat) (data : BitVec 512) : List (Nat × List Byte) :=
  [(line, leBytes 32 data.toNat), (line + 32, leBytes 32 (data.toNat / 2 ^ 256))].filter fun x => hostOwns s x.1

/-- The host writes back and gives up a unit it owns (R236, R238). -/
def hostEvictUnit (s : State) (u : CohUnit) : State :=
  match u with
  | .tile b => if s.tiles.any fun t => t.base == b && t.hostX then releaseHost s false u else s
  | .line b _ => if (grainOf s b).any fun g => g.hostX then dropGrain s b else s

/-! Page-table entries in coherent memory (R232, R243). -/

/-- The host's unit that holds a page-table entry: its contents are not yet known. -/
def pteUnits (s : State) (pa : Nat) : List CohUnit := hostUnits s .read (unitsOf s pa 8 1)

/-- The page-table entries that a walk from a table reads, up to the first that the host owns. -/
def walkReadsFrom (s : State) (va : Word) (pick : Nat) : (level : Nat) → (table : Nat) → List Nat
  | 0, t =>
    let a := t + 8 * levelIndex va 0
    if !tableOk t then []
    else a :: if (pteUnits s a).isEmpty && (memWord s.mem a).getLsbD 7 then [t + 8 * (levelIndex va 0 / 16 * 16 + pick % 16)] else []
  | n + 1, t =>
    let a := t + 8 * levelIndex va (n + 1)
    if !tableOk t then []
    else
      let e := memWord s.mem a
      a :: if !(pteUnits s a).isEmpty || !pteValid e || pteLeaf e then [] else walkReadsFrom s va pick n (ptePpn e)

/-- The page-table entries that a walk for an address reads, up to the first that the host owns. -/
def walkReads (s : State) (ptbr : Ptbr) (va : Word) : List Nat :=
  if ptbr.root = 0 then [] else walkReadsFrom s va (Config.freeNat s.free) 4 (ptbr.root.toNat * 4096)

/-- The host's units that a walk for an address must wait for. -/
def walkUnits (s : State) (ptbr : Ptbr) (va : Word) : List CohUnit := (walkReads s ptbr va).flatMap (pteUnits s)

/-- The host's units that a translation must wait for: none where a TLB answers. -/
def translateUnits (s : State) (h : Hart) (by_ : Poster) (va : Word) (r : Right) : List CohUnit :=
  match lookup s h by_.ptbr by_.priv va r with
  | .miss => walkUnits s by_.ptbr va
  | _ => []

end Sys2Proof.Machine
end

