-- ==== Sys2Proof/Machine/Fetch.lean ====
section
/-!
DEFINITION. Fetch: 32-byte blocks through the instruction cache (R21, R22), their translation (R296), PAD (R19), and the checks of R18
that decoding makes.
-/

namespace Sys2Proof.Machine

/-- The 32 bytes of a block in memory. -/
def memBlock (s : State) (pa : Nat) : BitVec 256 := BitVec.ofNat 256 (memNat s.mem pa 32)

/-- The version of a block that a core reads (R22): the cached one, or the one in memory, which then replaces it. Where they
differ, which one is unspecified. -/
def readBlock (s : State) (h : Hart) (pa : Nat) : BitVec 256 × State :=
  let m := memBlock s pa
  match hartCore h with
  | none => (m, s)
  | some c =>
    let cs := coreOf s c
    match assocGet cs.icache pa with
    | none => (m, setCore s c { cs with icache := assocSet cs.icache pa m })
    | some old =>
      if old = m then (m, s)
      else if Config.freeBool s.free then (old, { s with free := s.free + 1 })
      else (m, { setCore s c { cs with icache := assocSet cs.icache pa m } with free := s.free + 1 })

/-- Whether code may be read at a physical address: memory of a module in reach, or the scratchpad of a usable core in reach (R230). -/
def fetchable (s : State) (m pa : Nat) : Bool :=
  if isWindow pa then
    let (c, kind, off) := windowParts pa
    kind == 0 && decide (off < 0x40000) && coreUsable s c && reachable s m (coreModule c)
  else reachable s m (paModule pa)

/-- What comes of a request for a block of code: the block; a fault; or a wait, for a walk or for a line that the host holds. -/
inductive CodeBlock where
  | block (b : BitVec 256) (s : State)
  | fault (c : Cause)
  | wait (s : State)

/-- The block of code at a physical address, read for a request. R22 gives IFETCH for translation and permission faults; for a poisoned block, a
module out of reach and a window other than a usable scratchpad the spec names no cause, and the model takes IFETCH too (DESIGN CHOICE, log 71). -/
def codeAt (s : State) (h : Hart) (req : Req) (pa : Nat) : CodeBlock :=
  if !fetchable s (hartModule h) pa || poisoned s pa 32 then .fault .ifetch
  else if isWindow pa then let (b, s') := readBlock s h pa; .block b s'
  else match hostUnits s .read (unitsOf s pa 32 1) with
    | [] => let (b, s') := readBlock s h pa; .block b s'
    | us => .wait (sendSnoops s req .read us)

/-- The 32 bytes at the block of a virtual address (R22). A page in neither the TLB nor the die's translation cache is walked first (R296); a walk that
ended in a fault is this fetch's fault: IFETCH for one of translation or permission (R22), EREPLY and MEMERR as for all that joined it (R297). A
request for the block that the host has not answered in time gets an error reply (R242). -/
def fetchBlock (s : State) (h : Hart) (hs : HartState) (va : Word) : CodeBlock :=
  match seek s h hs hs.ptbr hs.st.priv va .exec with
  | .fault c => .fault c
  | .wait s' => .wait s'
  | .place p => match hs.run.fetchFault with
    | some (page, .ereply) => if page = va.toNat / 4096 * 4096 then .fault .ereply else codeAt s h (.fetch h) (p.pa / 32 * 32)
    | _ => codeAt s h (.fetch h) (p.pa / 32 * 32)

/-- What fetch finds at an address. -/
inductive Fetched where
  | instr (pc : Word) (d : Decoded)
  /-- PAD up to the end of the block (R19). -/
  | skip (pc : Word)
  | trap (pc : Word) (c : Cause) (tval : Word)
  /-- The block is not there yet. -/
  | wait
  deriving DecidableEq, Repr

/-- Scans a block from a byte offset, skipping PAD words (R19). -/
def scanBlock (pc : Word) : (fuel : Nat) → List Byte → Fetched
  | 0, _ => .skip pc
  | n + 1, bs =>
    match bs with
    | [] => .skip pc
    | _ =>
      match decode bs with
      | .ok d => .instr pc d
      | .error .pad => scanBlock (pc + 4) n (bs.drop 4)
      | .error .illenc => .trap pc .illenc (BitVec.ofNat 64 (leNat (bs.take 4)))
      | .error .illop => .trap pc .illop (BitVec.ofNat 64 (leNat (bs.take 4)))

/-- What stands at an address of a block. -/
def scanAt (pc : Word) (b : BitVec 256) : Fetched := scanBlock pc 8 ((leBytes 32 b.toNat).drop (pc.toNat % 32))

/-- Fetches the instruction at an address (R18, checks 1 to 8; R19 to R22). -/
def fetch (s : State) (h : Hart) (hs : HartState) (pc : Word) : Fetched × State :=
  if pc &&& 3#64 ≠ 0 then (.trap pc .ialign pc, s)
  else match fetchBlock s h hs pc with
    | .fault c => (.trap pc c pc, s)
    | .wait s' => (.wait, s')
    | .block b s' => (scanAt pc b, s')

/-- The first instruction at or after an address: PAD words in front of it take no turn (R19). An address that cannot be fetched stands
for itself. `fuel` bounds the blocks that hold nothing but PAD. -/
def skipPads (s : State) (h : Hart) (hs : HartState) : (fuel : Nat) → Word → Word
  | 0, pc => pc
  | n + 1, pc =>
    if pc &&& 3#64 ≠ 0 then pc
    else match translate s h hs.ptbr hs.st.priv pc .exec with
      | .error _ => pc
      | .ok p => match codeAt s h (.fetch h) (p.pa / 32 * 32) with
        | .block b _ => match scanAt pc b with
          | .instr a _ | .trap a _ _ => a
          | .skip a => skipPads s h hs n a
          | .wait => pc
        | _ => pc

/-- The most blocks of nothing but PAD that are looked through. -/
def padBlocks : Nat := 4096

/-- The first instruction that a hart has not issued (R31, R35): beyond the PAD words at its PC. While a replay goes on it is the address
where issue will go on after it (R33). -/
def nextPc (s : State) (h : Hart) (hs : HartState) : Word :=
  if hs.run.replay.todo = [] then skipPads s h hs padBlocks hs.pc else hs.pc

end Sys2Proof.Machine
end

