-- ==== Sys2Proof/Machine/Ops.lean ====
section
/-!
DEFINITION. Taking a trap and returning from one (R31 to R35, R199 to R201), and issue itself (R18, R25, R28, R29).
-/

namespace Sys2Proof.Machine

/-! Traps (R31 to R34, R199, R200). -/

/-- Nothing is outstanding but what a trap would mark (R31, R34, R35), the matrix unit has dropped what it will not perform (R295), and no
FNC.HV waits (R270). -/
def clean (hs : HartState) : Bool :=
  let m := marks hs
  hs.run.drain.isNone && hs.run.ops.all fun p => p.op.isFence || ((!p.op.isMatrix || p.fetched) && m.any fun q => q.seq == p.seq)

/-- The first address of a list. -/
def minAddr : List Word → Word
  | [] => 0
  | [a] => a
  | a :: rest => let m := minAddr rest; if a.toNat ≤ m.toNat then a else m

/-- One bit per 4-byte position from `base` (R31, R366). -/
def posMask (base : Word) (as : List Word) : Word :=
  as.foldl (fun m a => m ||| (1 <<< ((a - base).toNat / 4))) 0

/-- The entry of a withdrawn NBARR: its phase when it had arrived. -/
def Pending.nbEntry (p : Pending) : Option (Option (BitVec 4)) :=
  match p.op with
  | .nbArrive _ _ ph => some ph
  | _ => none

/-- NBPEND or TKNB from entries in ascending address order (R31): [3:0] the phase, [4] in use. -/
def nbWord : List (Option (BitVec 4)) → BitVec 40
  | [] => 0
  | e :: rest =>
    ((nbWord rest) <<< 5) ||| (match e with
      | some ph => (BitVec.ofNat 40 (16 + ph.toNat))
      | none => 0)

/-- The entries of an NBPEND word (R31). -/
def nbEntries (x : BitVec 40) : List (Option (BitVec 4)) :=
  (List.range 8).map fun e =>
    let f := x.extractLsb' (5 * e) 5
    if f.getLsbD 4 then some (f.extractLsb' 0 4) else none

/-- The marked addresses of a mask (R33, R366). -/
def maskAddrs (base mask : Word) : List Word :=
  (List.range 64).filterMap fun i => if mask.getLsbD i then some (base + BitVec.ofNat 64 (4 * i)) else none

/-- What a trap or a take records of the requests to be executed again: base address, mask and NBARR entries. Cancelled matrix
instructions (R295), and what a replay in progress has not yet executed again (R33), are among them. -/
def replayRecord (hs : HartState) : Word × Word × BitVec 40 :=
  let m := marks hs
  let as := m.map (·.pc) ++ hs.run.cancelled ++ hs.run.replay.todo
  let base := minAddr as
  (base, posMask base as, nbWord (m.filterMap (·.nbEntry) ++ hs.run.replay.phases))

/-- A strand that was restored in long mode and has yet to get its context (R164). -/
def longRestored (s : State) (uid : Nat) : Bool := match hartByUid s uid with
  | some (_, hs) => hs.st.vl
  | none => false

/-- A strand leaves the line for a long context of its cluster (R162). -/
def leaveLong (s : State) (uid : Nat) : State := { s with longWait := s.longWait.filter (· ≠ uid) }

/-- Withdraws a strand's requests from every list (R117, R162). Waiters at homes and named barriers are operations of the
strand itself, which the trap or take removes; a strand restored in long mode goes on waiting for its context (R164). -/
def withdraw (s : State) (uid : Nat) : State :=
  { s with
    longWait := if longRestored s uid then s.longWait else s.longWait.filter (· ≠ uid)
    cores := s.cores.map fun (c, cs) =>
      (c, { cs with deferred := cs.deferred.filter fun d => d.who.uid != uid }) }

/-- The issue side of a strand that has left its outstanding operations to be executed again. A fence that still holds stores back stays
(R264). -/
def stoppedRun (r : RunState) : RunState :=
  { r with
    ops := r.ops.filter fun p => p.op.isFence
    park := .ready
    need := none
    queued := false
    replay := ⟨[], []⟩
    due := none
    cancelled := []
    retiring := false
    fetchFault := none }

/-- Trap entry after the recording (R199): PPRIV, PRIV, TIP, TCAUSE, PC. -/
def enterHandler (hs : HartState) (c : Cause) (async : Bool) : HartState :=
  { hs with
    st := { hs.st with ppriv := hs.st.priv, priv := 1, tip := true }
    trap := { hs.trap with tcause := BitVec.ofBool async ++ c.code }
    pc := hs.trap.tvec
    run := { stoppedRun hs.run with watch := 0 } }

/-- A trap raised while TIP = 1 halts the strand and keeps the first trap's registers (R200). -/
def doubleTrap (hs : HartState) : HartState := { hs with run := { stoppedRun hs.run with halted := true, dbl := true } }

/-- The recording of R31 and R34, and entry. `tres` is the first instruction not issued. At a PC that is no multiple of 4, which only an
altered strand record gives, TPC holds the PC as it is, and TRES without the two low bits it does not hold: R34 has one address in both
(DESIGN CHOICE, log 72). -/
def recordTrap (hs : HartState) (c : Cause) (tval tres : Word) (async : Bool) : HartState :=
  if hs.st.tip then doubleTrap hs
  else
    let (base, mask, nb) := replayRecord hs
    enterHandler { hs with trap := { hs.trap with
        tpc := if mask = 0 then tres else base
        tval := tval
        rply := mask
        tres := wordAligned tres
        nbpend := nb } } c async

/-- Barrel bookkeeping of an issue: the slot that issued last (R269), and the obligations of YIELD (R94). -/
def noteIssue (s : State) (h : Hart) : State :=
  match h with
  | .engine _ => s
  | .strand c n =>
    let cs := coreOf s c
    setCore s c { cs with
      lastSlot := n
      recent := n :: cs.recent.filter (· ≠ n)
      yields := cs.yields.map fun (y, w) => (y, w.filter (· ≠ n)) }

/-- The strand's own count of an issue (R271, R278). -/
def countIssue (hs : HartState) : HartState :=
  { hs with run := { hs.run with lastPc := issuePc hs, issued := hs.run.issued + 1 } }

/-- A TRAP or ECALL that counts as issued is behind the strand (R202). -/
def pastTrap (hs : HartState) : HartState := if hs.run.replay.todo = [] then { hs with pc := hs.pc + 8 } else hs

/-- Trap entry of a core strand whose results are back (R31, R34, R199, R202); no change before. -/
def enterTrap (s : State) (h : Hart) : State :=
  match hartOf s h with
  | none => s
  | some hs =>
    if isEngine h || hs.run.halted || !clean hs then s
    else match oldestFault hs, hs.run.due with
      | some (c, v), _ => setHart (withdraw s hs.id.uid) h (recordTrap hs c v (nextPc s h hs) false)
      | none, some (c, v, issued) =>
        setHart (withdraw s hs.id.uid) h (recordTrap hs c v (nextPc s h (if issued then pastTrap hs else hs)) false)
      | none, none => s

/-- Raises an issue-time cause (R34): the instruction does not issue; the trap is entered once outstanding results are back.
`issued` tells the causes of R202, whose instruction counts as issued. -/
def raiseIssue (s : State) (h : Hart) (hs : HartState) (c : Cause) (tval : Word) (issued : Bool) : State :=
  let hs1 := if issued then countIssue hs else hs
  let s1 := setHart s h { hs1 with run := { hs1.run with due := some (c, tval, issued), park := .ready } }
  enterTrap (if issued then noteIssue s1 h else s1) h

/-- Raises an asynchronous cause, which stays pending until it is taken (R204). -/
def raiseAsync (hs : HartState) (c : Cause) (tval : Word) : HartState :=
  { hs with run := { hs.run with async := hs.run.async ++ [(c, tval)] } }

/-- The lowest pending code (R204). -/
def lowestAsync : List (Cause × Word) → Option (Cause × Word)
  | [] => none
  | x :: rest =>
    match lowestAsync rest with
    | none => some x
    | some y => if x.1.code.toNat ≤ y.1.code.toNat then some x else some y

/-- Whether a pending asynchronous cause may be taken: TIP = 0, not halted, at a clean point, no other trap due (R204). -/
def asyncReady (hs : HartState) : Bool := asyncPending hs && !trapDue hs && clean hs

/-- Takes the lowest pending asynchronous cause at a clean point (R204). -/
def enterAsync (s : State) (h : Hart) : State :=
  match hartOf s h with
  | none => s
  | some hs =>
    if isEngine h || !asyncReady hs then s
    else match lowestAsync hs.run.async with
      | none => s
      | some (c, v) =>
        let hs' := { hs with run := { hs.run with async := hs.run.async.erase (c, v) } }
        setHart (withdraw s hs.id.uid) h (recordTrap hs' c v (nextPc s h hs') true)

/-- Return from a trap (R33, R201): the mode, the replay list, and the resume address. -/
def trapReturn (hs : HartState) : HartState :=
  let t := hs.trap
  { hs with
    st := { hs.st with priv := hs.st.ppriv, ppriv := 0, tip := false }
    trap := { t with rply := 0, nbpend := 0 }
    pc := t.tres
    run := { hs.run with
      park := .ready
      watch := 0
      replay := if t.rply = 0 then ⟨[], []⟩ else ⟨maskAddrs t.tpc t.rply, nbEntries t.nbpend⟩ } }

/-! Issue. -/

/-- The answer of the readiness checks. -/
inductive Ready where
  | go
  | park (p : Park)
  | trap (c : Cause) (tval : Word)
  deriving DecidableEq, Repr

/-- The first 32 bits of the word that issues, zero-extended (R18). -/
def firstBits (s : State) : Word := s.word.first.zeroExtend 64

/-- A source register that is empty (R25). -/
def srcEmpty (hs : HartState) : Src → Bool
  | .g r => !gFull hs r
  | _ => false

/-- The first port used unbound or against its direction (R217). -/
def badPort (hs : HartState) (pops pushes : List (Fin 4)) : Option (Fin 4) :=
  match pops.find? fun p => !(portOf hs p).bound || (portOf hs p).out with
  | some p => some p
  | none => pushes.find? fun p => !(portOf hs p).bound || !(portOf hs p).out

/-- The ports on which an instruction must wait (R24): too few entries, or no room. -/
def blockedPorts (s : State) (h : Hart) (hs : HartState) (pops pushes : List (Fin 4)) : List (Fin 4) :=
  ((List.finRange 4).filter fun p => decide ((portOf hs p).buf.length < pops.count p)) ++
    pushes.filter fun p => !canPush s h hs p

/-- Whether an instruction issues, waits or traps: checks 8 to 10 of R18, then QUNB, empty registers, ports and places. -/
def ready (s : State) (h : Hart) (hs : HartState) (n : Need) : Ready :=
  let pops := popPorts n.srcs
  let pushes := pushPorts n.dsts
  if n.illenc then .trap .illenc (firstBits s)
  else if (n.profile = .coreOnly && isEngine h) || (n.profile = .engineOnly && !isEngine h) then
    .trap .engop (firstBits s)
  else if n.refused || (n.supervisor && hs.st.priv = 0) then .trap .priv (firstBits s)
  else match badPort hs pops pushes with
    | some p => .trap .qunb (BitVec.ofNat 64 p)
    | none =>
      if (n.srcs.any (srcEmpty hs)) || n.vecs.any fun r => !vecFull hs r then .park .reg
      else match blockedPorts s h hs pops pushes with
        | p :: ps => .park (.queue (p :: ps))
        | [] =>
          if (n.place && decide (8 ≤ placesUsed hs)) || !inWindow hs then .park .held else .go

/-- What an instruction that issues does. -/
inductive Issued where
  /-- Its effects; the PC moves past it. -/
  | done (s : State) (hs : HartState)
  /-- A taken transfer. -/
  | jump (s : State) (hs : HartState) (target : Word)
  /-- The strand is gone, or its next state is complete as it stands. -/
  | final (s : State)
  | trap (c : Cause) (tval : Word)
  /-- A cause whose instruction counts as issued (R202). -/
  | trapIssued (c : Cause) (tval : Word)
  | park (p : Park)

/-- The hart after its instruction has issued: the PC or the replay moves on, the marker parks (R29, R33). A replay mark that software has
set stands for what it names: on a taken transfer it ends the replay and goes on at the target, on a PAD word it executes the instruction
behind it; the spec gives neither (DESIGN CHOICE, log 73). -/
def afterIssue (s : State) (hs : HartState) (size : Nat) (target : Option Word) : HartState :=
  let hs1 := countIssue hs
  let r := hs1.run
  let r' := { r with
    watch := if r.queued then 0 else r.watch
    queued := false
    need := none
    fetchFault := none
    park := if s.word.sw || decide (r.replay.todo.length = 1) then .marker else .ready
    replay := { r.replay with todo := r.replay.todo.tail } }
  match target with
  | some t => { hs1 with pc := t, run := { r' with replay := ⟨[], []⟩ } }
  | none => { hs1 with pc := if r.replay.todo = [] then hs.pc + BitVec.ofNat 64 size else hs.pc, run := r' }

def Park.isQueue : Park → Bool
  | .queue _ => true
  | _ => false

/-- A hart waits (R270), for what `need` names or for something else. -/
def waitFor (hs : HartState) (p : Park) (need : Option Need) : HartState :=
  { hs with run := { hs.run with park := p, need := need, queued := hs.run.queued || p.isQueue } }

/-- The state in which a hart waits (R270). -/
def parked (s : State) (h : Hart) (hs : HartState) (p : Park) (need : Option Need) : State := setHart s h (waitFor hs p need)

/-- Issues an instruction of `size` bytes of the current hart: readiness, its sources read in order, its effects. -/
def issue (s : State) (size : Nat) (n : Need) (body : Hart → State → HartState → List Word → Issued) : Result :=
  match hartOf s s.cur with
  | none => .fault .noStrand
  | some hs =>
    let h := s.cur
    match ready s h hs n with
    | .trap c v => .next (raiseIssue s h hs c v false)
    | .park p => .next (parked s h hs p (some n))
    | .go =>
      let (vals, hs1) := readSrcs h n.srcs hs
      match body h s hs1 vals with
      | .done s' hs' => .next (noteIssue (setHart s' h (afterIssue s hs' size none)) h)
      | .jump s' hs' t => .next (noteIssue (setHart s' h (afterIssue s hs' size (some t))) h)
      | .final s' => .next s'
      | .trap c v => .next (raiseIssue s h hs c v false)
      | .trapIssued c v => .next (raiseIssue s h hs c v true)
      | .park p => .next (parked s h hs p none)

/-! What an instruction waits for (R270). -/

/-- The strand has parked as a marker does, and its own stores are visible: its drain requests may leave (R119). -/
def mayDrain (s : State) (hs : HartState) : Bool := drained hs && (invisible s hs.id.uid).isEmpty

/-- An accepted store to a port's data word, whose entry waits at its target (R218). -/
def Accepted.atPort (a : Accepted) : Bool :=
  a.p.spans.any fun x => x.at_.any fun q => isWindow q.pa && (windowParts q.pa).2.1 == 5 && decide ((windowParts q.pa).2.2 % 0x10 < 8)

/-- Nothing of a strand is outstanding any more: no operation, no store, no entry of it that cannot be popped yet (R215, R217). A store whose entry
waits at a full port is accepted, and its strand does not wait for it (R218). -/
def finished (s : State) (hs : HartState) : Bool :=
  drained hs && (ownStores s hs.id.uid).all Accepted.atPort && !s.pushes.any fun m => m.src == hs.id.uid

/-- A launch that has yet to reach what it names. -/
def Op.isLaunch : Op → Bool
  | .kick _ _ | .spawn _ _ _ | .tpost | .glaunch _ => true
  | _ => false

/-- A walk of the module is in flight. -/
def walking (s : State) (m : Nat) : Bool := s.dies.any fun (d, ds) => d / 4 == m && !ds.walks.isEmpty

/-- The lowest free join record of a die. -/
def freeJoin (s : State) (gdie : Nat) : Option JoinRef :=
  ((List.range 4096).find? fun i => (assocGet (dieState s gdie).joins i).isNone).map fun i => ⟨gdie, i⟩

/-- The strand's one remote place is taken: by an outstanding operation, or by a store not yet acknowledged (R28, R348). -/
def remoteBusy (s : State) (hs : HartState) : Bool :=
  remoteUsed hs || s.stores.any fun a => a.uid == hs.id.uid && a.p.remote

/-- A TRST still in the queue will set the shape of a tile (R195). -/
def restoring (cs : CoreState) (ts : List (Fin 8)) : Bool :=
  cs.queue.any fun e => match e.op with
    | .trst t => ts.contains t
    | _ => false

/-- A codebook set of the core is pending (R182). -/
def setPending (s : State) (h : Hart) : Bool :=
  match hartCore h with
  | none => false
  | some c => (coreOf s c).queue.any fun e => match e.op with
    | .cbload _ => true
    | _ => false

/-- Stores bytes where its pieces lie, an atomic among them. -/
def Pending.storesBytes (p : Pending) : Bool := p.store || match p.op with
  | .atomic _ _ _ => true
  | _ => false

/-- An access touches one of some bytes of a core's scratchpad. -/
def Pending.onScratch (p : Pending) (c : Nat) (bytes : List (Nat × Nat)) : Bool := p.spans.any fun x => x.at_.any fun a =>
  let (d, kind, off) := windowParts a.pa
  isWindow a.pa && d == c && kind == 0 && bytes.any fun b => decide (off < b.1 + b.2 ∧ b.1 < off + x.len)

/-- Stores of the strand to bytes of its scratchpad that are yet to be seen there, or that have no place yet and may be such (R185). -/
def ownScratchStores (s : State) (c : Nat) (hs : HartState) (bytes : List (Nat × Nat)) : Bool :=
  (hs.run.ops.any fun p => p.storesBytes && (!p.placed || p.onScratch c bytes)) ||
    (invisible s hs.id.uid).any fun a => a.p.onScratch c bytes

/-- A command that a slot of a core has issued and that is not performed. -/
def commandsOut (s : State) (c : Nat) : Bool := s.harts.any fun (h, hs) => hartCore h == some c && hs.run.ops.any fun p => match p.op with
  | .mcmd _ _ _ => !p.settled
  | _ => false

/-- Requests of a core in its special-function queue (R160). -/
def specialQueued (s : State) (c : Nat) : Nat :=
  (s.harts.filterMap fun (h, hs) => if hartCore h = some c then
    some (hs.run.ops.filter fun p => match p.op with
      | .vector _ _ sp => sp.isSome && !(asideOps hs).any fun x => x.seq == p.seq
      | _ => false).length else none).sum

/-- The places of the commands that wait at the port of a core (R188, R306). -/
def portTickets (s : State) (c : Nat) : List Nat :=
  s.harts.flatMap fun (_, hs) => hs.run.ops.filterMap fun p => match p.op with
    | .mcmd _ _ (some t) => if p.phase = .request && p.spans.any fun x => x.at_.any fun a => (windowParts a.pa).1 == c then some t else none
    | _ => none

/-- The tiles a queue entry names (R292). -/
def mxTiles : MxOp → List (Fin 8)
  | .zero t | .clear t | .tld t _ _ | .tst t | .tsave t | .trst t | .unspecified t => [t]
  | .rowv _ _ t _ _ _ _ => [t]
  | .vrow _ t _ _ _ _ _ => [t]
  | .mma d a b | .mmar d a b => [d, a, b]
  | .mmau d b _ _ _ _ => [d, b]
  | .window off _ | .windowRead off _ _ =>
    [⟨(if off < 0x2000 then off / 0x400 else if off < 0x2200 then (off - 0x2000) / 0x40 else (off - 0x2200) / 8) % 8, Nat.mod_lt _ (by omega)⟩]
  | .cbload _ | .msave _ _ | .mrestore _ _ => []

/-- What a held instruction waits for has come. -/
def holdOver (s : State) (h : Hart) (hs : HartState) : Hold → Bool
  | .remote => !remoteBusy s hs
  | .shown => mayDrain s hs
  | .finished => finished s hs
  | .quiet => hs.run.ops.all fun p => p.spans.isEmpty && !p.op.isLaunch
  | .walks => drained hs && !walking s (hartModule h)
  | .join => (freeJoin s (hartDie h)).isSome
  | .restored ts => !restoring (coreOf s (ownCore h)) ts
  | .thawed => !frozenFor (coreOf s (ownCore h)) (hartSlot h)
  | .queue => decide ((coreOf s (ownCore h)).queue.length < 16)
  | .books => !setPending s h
  | .scratch bytes => !ownScratchStores s (ownCore h) hs bytes
  | .special => decide (specialQueued s (ownCore h) < 16)
  | .commands => (portTickets s (ownCore h)).isEmpty && (coreOf s (ownCore h)).queue.all fun e => !e.remote || match e.op with
    | .window _ _ | .windowRead _ _ _ => true
    | _ => false
  | .entries t => (coreOf s (ownCore h)).queue.all fun e => !(mxTiles e.op).contains t
  | .allEntries => !commandsOut s (ownCore h) && (coreOf s (ownCore h)).queue.all fun e => e.remote && (mxTiles e.op).isEmpty
  | .walk => !(dieState s (hartDie h)).walks.any fun x => x.fetching.contains hs.id.uid

/-- An instruction that goes on once each of some things has come. -/
def holdUp (s : State) (h : Hart) (hs : HartState) (ws : List Hold) (k : Issued) : Issued :=
  match ws.find? fun w => !holdOver s h hs w with
  | some w => .park (.blocked w)
  | none => k

/-! Who may issue (R269, R270). -/

/-- A strand held by a take still ends by its RETIRE (R318). -/
def heldBack (hs : HartState) : Bool := hs.run.held && !(hs.run.retiring && hs.run.park == .blocked .finished)

/-- A TWAIT keeps its strand from issuing until it has its result (R205, R270). -/
def inTwait (hs : HartState) : Bool := hs.run.ops.any fun p => match p.op with
  | .twait _ => p.phase == .request || p.phase == .waiting
  | _ => false

/-- A hart whose next instruction may be looked at: installed, not halted, held, shipped or behind a gate, not stopped for a trap or an
asynchronous cause, and in no FNC.HV or TWAIT (R31, R204, R269, R270). -/
def awake (s : State) (h : Hart) (hs : HartState) : Bool :=
  !hs.run.halted && !heldBack hs && hs.run.gate.isNone && hs.run.ship.isNone && !trapDue hs && !asyncPending hs && !inTwait hs &&
    (hs.run.park != .marker || drained hs) && hs.run.drain.isNone && !(moduleOf s (hartModule h)).stopped

/-- Every g register named by the mask is full (R95). -/
def maskFull (hs : HartState) (m : BitVec 16) : Bool :=
  (List.finRange 16).all fun r => !m.getLsbD r.val || gFull hs r

/-- What a parked hart waits for has come (R270). -/
def waitOver (s : State) (h : Hart) (hs : HartState) : Bool :=
  match hs.run.park with
  | .ready => true
  | .marker => drained hs
  | .before => drained hs
  | .blocked w => holdOver s h hs w
  | .wait m => maskFull hs m
  | .waitst => storesAccepted hs
  | .children => hs.st.jcnt = 0
  | .longContext => !s.longWait.contains hs.id.uid
  | .reg | .queue _ | .held => match hs.run.need with
    | some n => match ready s h hs n with
      | .park _ => false
      | _ => true
    | none => false

/-- The ports on which a hart waits now (R271): those that its queue access needs and that still do not serve it. -/
def stalledPorts (s : State) (h : Hart) (hs : HartState) : List (Fin 4) :=
  match hs.run.park, hs.run.need with
  | .queue _, some n => match ready s h hs n with
    | .park (.queue ps) => ps
    | _ => []
  | _, _ => []

/-- The thaw check is due: the slot holds frozen state, and its strand is about to issue with TIP = 0. -/
def thawDue (s : State) (h : Hart) (hs : HartState) : Bool :=
  match hartCore h with
  | some c => frozenFor (coreOf s c) (hartSlot h) && !hs.st.tip
  | none => false

/-- A hart that is ready (R94, R269): it waits for nothing. -/
def canIssue (s : State) (h : Hart) (hs : HartState) : Bool :=
  awake s h hs && !hs.run.held && !thawDue s h hs && !(hs.st.vl && s.longWait.contains hs.id.uid) && waitOver s h hs

/-- A slot holds a strand that is ready. -/
def slotWilling (s : State) (c n : Nat) : Bool :=
  match hartOf s (.strand c n) with
  | some hs => canIssue s (.strand c n) hs
  | none => false

/-- A slot waits behind others by its YIELD: until each has issued or is no longer ready (R94). -/
def yielding (s : State) (c n : Nat) : Bool :=
  match assocGet (coreOf s c).yields n with
  | none => false
  | some w => w.any (slotWilling s c)

/-- A slot that has stopped being ready, or is gone, ends what a YIELD waits for (R94): it does not count again when it is ready once more. -/
def settleYields (s : State) : State :=
  if s.cores.all fun x => x.2.yields.isEmpty then s
  else { s with cores := s.cores.map fun (c, cs) =>
    (c, { cs with yields := (cs.yields.map fun (y, w) => (y, w.filter (slotWilling s c))).filter fun (y, w) =>
      !w.isEmpty && (hartOf s (.strand c y)).isSome }) }

/-- A slot of a core could issue now. -/
def slotReady (s : State) (c n : Nat) : Bool := slotWilling s c n && !yielding s c n

/-- The slots between the one that issued last and slot `n`, in cyclic order (R269). -/
def slotsBefore (last n : Nat) : List Nat := (List.range ((n + 7 - last % 8) % 8)).map fun i => (last + 1 + i) % 8

/-- A slot's turn may come (R269): no ready slot stands before it in cyclic order, but one whose own last issue is the later and keeps it
waiting for its eight cycles (R27); and no YIELD holds it back (R94). -/
def slotTurn (s : State) : Hart → Bool
  | .engine _ => true
  | .strand c n =>
    let cs := coreOf s c
    let place (k : Nat) : Nat := cs.recent.idxOf k
    !yielding s c n && (slotsBefore cs.lastSlot n).all fun k => !slotReady s c k || decide (place k < place n)

/-! Fetch and issue. -/

/-- Moves the fetch address of a hart: the replay's head, or the PC. -/
def setIssuePc (hs : HartState) (pc : Word) : HartState :=
  match hs.run.replay.todo with
  | [] => { hs with pc := pc }
  | _ :: rest => { hs with run := { hs.run with replay := { hs.run.replay with todo := pc :: rest } } }

/-- The state in which the instruction of a hart has been fetched, and the instruction; or the state after PAD or a trap. A slot whose fetch waits for
a page walk or for the host stays ready and eligible: R269 and R270 name no such wait (DESIGN CHOICE, log 120). -/
def fetchIssue (s : State) (h : Hart) (hs : HartState) : State × Option Instr :=
  let hs0 := if hs.run.park = .marker then setPark hs .ready else hs
  match fetch s h hs0 (issuePc hs0) with
  | (.instr pc d, s') =>
    ({ setHart s' h (setIssuePc hs0 pc) with cur := h, word := ⟨d.sw, d.first⟩ }, some d.instr)
  | (.skip pc, s') => (setHart s' h (setIssuePc hs0 pc), none)
  | (.wait, s') => (setHart s' h hs0, none)
  | (.trap pc c v, s') => (raiseIssue s' h (setIssuePc hs0 pc) c v false, none)

end Sys2Proof.Machine
end

