-- ==== Sys2Proof/Machine/Window.lean ====
section
/-!
DEFINITION. The window space: the checks of an access (R230, R99, R112, R190, R218, R219, R222), what a load reads, and what a store
of each kind does at its core.
-/

namespace Sys2Proof.Machine

/-- What R230 knows of the hart that makes an access. -/
structure Accessor where
  hart : Hart
  asid : BitVec 16
  user : Bool
  gang : Nat
  deriving DecidableEq, Repr

def accessorOf (h : Hart) (by_ : Poster) : Accessor := ⟨h, by_.ptbr.asid, decide (by_.priv = 0), by_.gang⟩

/-- An access to a window: a load, a store of data, a store without data (ST.z), or an access that reaches kind 0 only. -/
inductive WinAccess where
  | load | store | zero | wide
  deriving DecidableEq, Repr

/-- A core holds a strand of an address space (R230, check 6). -/
def coreHasAsid (s : State) (c : Nat) (asid : BitVec 16) : Bool :=
  (List.range 8).any fun n => match hartOf s (.strand c n) with
    | some hs => hs.ptbr.asid == asid
    | none => false

/-! Named barriers and SCTL as words. -/

def NamedBar.reset : NamedBar := ⟨0, 0, 0, false⟩
def nbarOf (cs : CoreState) (n : Nat) : NamedBar := (assocGet cs.nbars n).getD NamedBar.reset
def setNbar (cs : CoreState) (n : Nat) (b : NamedBar) : CoreState := { cs with nbars := assocSet cs.nbars n b }

/-- The state word of a named barrier (R219). -/
def nbarWord (b : NamedBar) : Word :=
  (0 : BitVec 45) ++ BitVec.ofBool b.init ++ b.phase ++ BitVec.ofNat 7 b.arr ++ BitVec.ofNat 7 b.exp
def nbarOfWord (w : Word) : NamedBar :=
  ⟨(w.extractLsb' 0 7).toNat, (w.extractLsb' 7 7).toNat, w.extractLsb' 14 4, w.getLsbD 18⟩

/-- SCTL of a slot (R222). -/
def sctlWord (x : Option HartState) : Word :=
  match x with
  | none => 0
  | some hs => (0 : BitVec 60) ++ BitVec.ofBool hs.run.dbl ++ 1#1 ++ BitVec.ofBool hs.run.halted ++ 0#1

/-- QSTAT's word of a port (R218). -/
def qstatWord (p : Port) : Word :=
  (0 : BitVec 56) ++ BitVec.ofBool p.out ++ BitVec.ofBool p.bound ++ BitVec.ofBool (p.out && p.stop) ++
    BitVec.ofNat 5 (if p.out then 0 else p.buf.length)

/-- A binding word without a nonzero reserved bit (R216, R44). -/
def bindingOk (w : Word) : Bool :=
  w.extractLsb' 40 24 == 0 && w.extractLsb' 10 6 == 0 && (w.getLsbD 17 || w.extractLsb' 18 14 == 0)

/-- QBIND of a port of a strand (R216): PEER becomes absolute, BOUND is set; an input port loses its entries. -/
def bindPort (h : Hart) (hs : HartState) (p : Fin 4) (w : Word) : HartState :=
  let old := portOf hs p
  let c := coordOfWord (w.extractLsb' 0 32)
  let t := coordCore h hs c
  let peer : BitVec 32 := (if w.getLsbD 17 then w.extractLsb' 18 14 else 0) ++ BitVec.ofBool (w.getLsbD 17) ++ 1#1 ++ 0#6 ++
    BitVec.ofNat 10 (coreLinear t)
  let cfg : BitVec 40 := if w = 0 then 0 else 1#1 ++ w.extractLsb' 32 7 ++ peer
  setPort hs p { cfg := cfg, buf := if old.bound && !old.out then [] else old.buf, stop := false }

/-- QBIND of a port, with the entries that its buffer has accepted and that cannot be popped yet: an input port loses these too (R216, R217). -/
def rebind (s : State) (h : Hart) (hs : HartState) (p : Fin 4) (w : Word) : State × HartState :=
  let lost (m : QueueMsg) : Bool := (portOf hs p).bound && !(portOf hs p).out && m.target == hs.id.uid && m.port == p
  ({ s with pushes := s.pushes.filter fun m => !lost m }, bindPort h hs p w)

/-! Layout checks (check 9). -/

def slotStrand (s : State) (c n : Nat) : Option HartState := hartOf s (.strand c n)

/-- The port that a kind-5 offset names: slot, port, and whether the binding word. -/
def qportParts (off : Nat) : Nat × Fin 4 × Bool := (off / 0x40, ⟨off / 0x10 % 4, Nat.mod_lt _ (by omega)⟩, off % 0x10 / 8 == 1)

/-- The bytes of a window kind (R230). -/
def windowSize : Nat → Nat
  | 0 => 0x40000
  | 1 => 0x800
  | 2 => 0x2240
  | 3 => 1
  | 5 => 0x200
  | 6 => 0x180
  | 7 => 0x40
  | _ => 0

/-- Whether the layout of a kind allows an access of `len` bytes with data `v` (R112, R99, R190, R218, R219, R222). -/
def layoutOk (s : State) (user : Bool) (c kind off len : Nat) (acc : WinAccess) (v : Word) : Bool :=
  let z := decide (acc = .zero)
  let ld := decide (acc = .load)
  if acc = .wide && kind != 0 then false
  else match kind with
  | 0 => if z then decide (off < 0x40000) else decide (off + len ≤ 0x40000)
  | 1 =>
    decide (off < 0x800 ∧ off % 0x100 < 0x80) && (z || decide (len = 8 ∧ off % 8 = 0)) && (slotStrand s c (off / 0x100)).isSome
  | 2 =>
    if z then decide (off < 0x2200)
    else decide (len ≤ 8 ∧ off % len = 0) &&
      if ld then decide (off + len ≤ 0x2240)
      else decide (off + len ≤ 0x2200) &&
        !(tileOf (coreOf s c) ⟨(if off < 0x2000 then off / 0x400 else (off - 0x2000) / 0x40) % 8, Nat.mod_lt _ (by omega)⟩).absent
  | 5 =>
    let (n, p, binding) := qportParts off
    decide (off < 0x200) && (z || decide (len = 8 ∧ off % 8 = 0)) && !(binding && user) &&
      match slotStrand s c n with
      | none => false
      | some hs => z || ld || (if binding then bindingOk v else (portOf hs p).bound && !(portOf hs p).out)
  | 6 => decide (off < 0x180) && (ld || !user) && (z || decide (len = 8 ∧ off % 8 = 0))
  | 7 => decide (off < 0x40) && (z || decide (len = 8 ∧ off % 8 = 0))
  | _ => false

/-- The checks of R230 in order, for a window access by other instructions than MCMD. `coord` tells a 96-bit form. -/
def windowCheck (s : State) (a : Accessor) (coord : Bool) (pa len : Nat) (acc : WinAccess) (v : Word) : Option Cause :=
  let (c, kind, off) := windowParts pa
  if 8 ≤ kind then some .winflt
  else if !(coreOf s c).usable then some .winflt
  else if kind = 4 then some .winflt
  else if kind = 3 then some .winflt
  else if kind = 7 && a.user then some .winflt
  else if a.user && coord && hartCore a.hart != some c && !coreHasAsid s c a.asid then some .winflt
  else if !reachable s (hartModule a.hart) (coreModule c) || !(dieState s (coreDie c)).inService then some .ereply
  else if kind = 1 && a.user && (match slotStrand s c (off / 0x100) with
      | some hs => hs.ptbr.asid != a.asid || hs.id.gang != a.gang
      | none => false) then some .winflt
  else if layoutOk s a.user c kind off len acc v then none
  else some .winflt

/-! Loads (R112, R190, R218, R219, R222). -/

/-- Bytes of a tile's register. -/
def tileBytes (t : Tile) (off len : Nat) : Nat := (t.data.extractLsb' (8 * off) (8 * len)).toNat

/-- Row tags of a tile as a number. -/
def tagsNat : List (BitVec 16) → Nat
  | [] => 0
  | t :: rest => t.toNat + 2 ^ 16 * tagsNat rest
/-- Row tags from a number; bits 15 to 11 of a tag read zero (R13, R167). -/
def tagsOf (x : Nat) : Nat → List (BitVec 16)
  | 0 => []
  | n + 1 => BitVec.ofNat 16 (x % 2 ^ 11) :: tagsOf (x / 2 ^ 16) n

/-- A load from the tile window. -/
def tileWindowRead (cs : CoreState) (off len : Nat) : Nat :=
  if off < 0x2000 then tileBytes (tileOf cs ⟨off / 0x400 % 8, Nat.mod_lt _ (by omega)⟩) (off % 0x400) len
  else if off < 0x2200 then
    tagsNat (tileOf cs ⟨(off - 0x2000) / 0x40 % 8, Nat.mod_lt _ (by omega)⟩).tags / 2 ^ (8 * (off % 0x40)) % 2 ^ (8 * len)
  else (tileOf cs ⟨(off - 0x2200) / 8 % 8, Nat.mod_lt _ (by omega)⟩).shape.toNat / 2 ^ (8 * (off % 8)) % 2 ^ (8 * len)

/-- Writes bytes into the tile window (R190). -/
def tileWindowWrite (cs : CoreState) (off : Nat) (bs : List Byte) : CoreState :=
  let v := leNat bs
  let n := 8 * bs.length
  if off < 0x2000 then
    let t : Fin 8 := ⟨off / 0x400 % 8, Nat.mod_lt _ (by omega)⟩
    let x := tileOf cs t
    let sh := 8 * (off % 0x400)
    let mask : TileData := BitVec.ofNat 8192 (2 ^ n - 1) <<< sh
    setTile cs t { x with data := (x.data &&& ~~~mask) ||| (BitVec.ofNat 8192 v <<< sh), dirty := true }
  else
    let t : Fin 8 := ⟨(off - 0x2000) / 0x40 % 8, Nat.mod_lt _ (by omega)⟩
    let x := tileOf cs t
    let sh := 8 * (off % 0x40)
    let mask : BitVec 512 := BitVec.ofNat 512 (2 ^ n - 1) <<< sh
    let old : BitVec 512 := BitVec.ofNat 512 (tagsNat x.tags)
    setTile cs t { x with tags := tagsOf ((old &&& ~~~mask) ||| (BitVec.ofNat 512 v <<< sh)).toNat 32, dirty := true }

/-- What a window load returns, as a number of `len` bytes. -/
def windowRead (s : State) (pa len : Nat) : Nat :=
  let (c, kind, off) := windowParts pa
  match kind with
  | 0 => memNat s.mem pa len
  | 1 => match slotStrand s c (off / 0x100) with
    | some hs => (gVal hs ⟨off % 0x100 / 8 % 16, Nat.mod_lt _ (by omega)⟩).toNat
    | none => 0
  | 2 => tileWindowRead (coreOf s c) off len
  | 5 =>
    let (n, p, binding) := qportParts off
    match slotStrand s c n with
    | some hs => if binding then (portOf hs p).cfg.toNat else (qstatWord (portOf hs p)).toNat
    | none => 0
  | 6 => (nbarWord (nbarOf (coreOf s c) (off / 8))).toNat
  | 7 => (sctlWord (slotStrand s c (off / 8))).toNat
  | _ => 0

/-! Writes to memory, and the unfolding unit (R185, R301). -/

/-- Bytes of an element; the codes of C4 lie two to a byte. -/
def elemSize (f : Fmt) : Nat := if f = .c4 then 1 else f.width / 8

/-- The pattern of an element at an offset of a core's scratchpad. -/
def unfoldRead (m : List Host.Cell) (core : Nat) (f : Fmt) (off : Nat) : Nat :=
  memNat m (windowPa core 0 off) (elemSize f) % (if f = .f6 then 64 else 2 ^ f.width)

/-- An element after a write to the scratchpad: one more value that the unit may have read. -/
def UnfoldElem.note (m : List Host.Cell) (core : Nat) (f : Fmt) (lo len : Nat) (e : UnfoldElem) : UnfoldElem :=
  match e.off with
  | none => e
  | some off =>
    let now := unfoldRead m core f off
    if off < lo + len ∧ lo < off + elemSize f ∧ e.vals.getLast? ≠ some now then { e with vals := e.vals ++ [now] } else e

def MxEntry.note (m : List Host.Cell) (core lo len : Nat) (e : MxEntry) : MxEntry :=
  match e.op with
  | .mmau d b k f es o => { e with op := .mmau d b k f (es.map (UnfoldElem.note m core f lo len)) o }
  | _ => e

/-- A frozen element after a write to a core's scratchpad: the unit reads nothing, but the element may have been copied there (R302). -/
def UnfoldElem.copyTo (core : Nat) (f : Fmt) (lo len : Nat) (e : UnfoldElem) : UnfoldElem :=
  match e.off with
  | none => e
  | some off => if off < lo + len ∧ lo < off + elemSize f then { e with copied := addNew e.copied core } else e

def MxEntry.copyTo (core lo len : Nat) (e : MxEntry) : MxEntry :=
  match e.op with
  | .mmau d b k f es o => { e with op := .mmau d b k f (es.map (UnfoldElem.copyTo core f lo len)) o }
  | _ => e

def MxEntry.unfolds (e : MxEntry) : Bool := match e.op with
  | .mmau .. => true
  | _ => false

/-- Bytes of a core's scratchpad have been written: frozen instructions, in a unit or in an image, may have had their elements copied (R302). -/
def noteCopied (s : State) (c lo len : Nat) : State :=
  if !(s.images.any fun x => x.2.any MxEntry.unfolds) && !(s.cores.any fun x => x.2.frozen.any fun f => f.entries.any MxEntry.unfolds) then s
  else { s with
    images := s.images.map fun (n, es) => (n, es.map (MxEntry.copyTo c lo len))
    cores := s.cores.map fun (k, cs) => (k, { cs with
      frozen := cs.frozen.map fun f => { f with entries := f.entries.map (MxEntry.copyTo c lo len) } }) }

/-- Bytes have been written: an MMAU that reads them may have read the old values or the new; a frozen one reads nothing before its thaw (R302). -/
def noteUnfold (s : State) (pa len : Nat) : State :=
  let (c, kind, off) := windowParts pa
  if !isWindow pa || kind != 0 then s
  else
    let s1 := noteCopied s c off len
    let cs := coreOf s1 c
    if cs.queue.any MxEntry.unfolds then setCore s1 c { cs with queue := cs.queue.map (MxEntry.note s.mem c off len) } else s1

/-- Memory with bytes written. -/
def putMem (s : State) (m : List Host.Cell) (pa len : Nat) : State := noteUnfold { s with mem := m } pa len

/-! Stores. -/

/-- A write through the strand-register window (R100). -/
def windowWriteReg (s : State) (c off : Nat) (v : Word) : State :=
  let h := Hart.strand c (off / 0x100)
  match hartOf s h with
  | some hs => setHart s h (writeG hs ⟨off % 0x100 / 8 % 16, Nat.mod_lt _ (by omega)⟩ v)
  | none => s

/-- After STRAGGLE the first RUN store to a strand that a gate holds opens that gate (R328). -/
def openGate (s : State) (m : Nat) (gate : Option Nat) : State :=
  let ms := moduleOf s m
  let ran (a : Action) : Action := if gate == some a.order.n && a.order.straggled then { a with ran := true } else a
  openGates (setModule s m { ms with actions := ms.actions.map ran }) m

/-- RUN of SCTL (R222): a halted strand resumes; after a double trap at TVEC, once DBL is clear. `wasDbl` tells that the halt
came from a double trap. -/
def sctlRun (s : State) (h : Hart) : State :=
  match hartOf s h with
  | none => s
  | some hs =>
    if !hs.run.halted || hs.run.dbl then s
    else openGate (setHart s h { hs with run := { hs.run with halted := false, park := .ready } })
      (hartModule h) hs.run.gate

/-- W1C of SCTL.DBL: supervisor software makes the strand resumable at TVEC (R222). -/
def sctlDblClear (s : State) (h : Hart) : State :=
  match hartOf s h with
  | none => s
  | some hs => if hs.run.dbl then setHart s h { hs with pc := hs.trap.tvec, run := { hs.run with dbl := false } } else s

/-- The bits a kind-5 data store pushes (R218); nothing while the buffer is full. -/
def windowPush (s : State) (c off : Nat) (v : Word) : State :=
  let (n, p, _) := qportParts off
  let h := Hart.strand c n
  match hartOf s h with
  | some hs => setHart s h (setPort hs p { portOf hs p with buf := (portOf hs p).buf ++ [v] })
  | none => s

/-- A window store of kind 0, 1, 5 (binding), 6 at its core. -/
def windowStoreEffect (s : State) (pa : Nat) (bs : List Byte) : State :=
  let (c, kind, off) := windowParts pa
  let v := BitVec.ofNat 64 (leNat bs)
  match kind with
  | 0 => putMem s (memSetBytes s.mem pa bs) pa bs.length
  | 1 => windowWriteReg s c off v
  | 5 =>
    let (n, p, binding) := qportParts off
    if binding then
      match hartOf s (.strand c n) with
      | some hs =>
        let (s', hs') := rebind s (.strand c n) hs p v
        setHart s' (.strand c n) hs'
      | none => s
    else windowPush s c off v
  | 6 => setCore s c (setNbar (coreOf s c) (off / 8) (nbarOfWord v))
  | _ => s

end Sys2Proof.Machine
end

