-- ==== Sys2Proof/Machine/MemInstr.lean ====
section
/-!
DEFINITION. Memory and synchronisation instructions at issue (R98, R104 to R142): their operands, the operation that enters program
order, and the checks made at once. What happens at the owning core or home stands in Home.lean.
-/

namespace Sys2Proof.Machine

/-- The access that a strand has just put at the end of program order is a second remote one (R28). -/
def secondRemote (s : State) (hs after : HartState) : Bool :=
  (match after.run.ops.getLast? with
    | some q => q.remote
    | none => false) && remoteBusy s hs

/-- Issues a memory operation; a second remote access waits unissued (R28). -/
def issueMem (h : Hart) (s : State) (hs : HartState) (p : Pending) : Issued :=
  let (s', hs') := addMem s h hs p
  if secondRemote s hs hs' then .park (.blocked .remote) else .done s' hs'

/-- A window operand over a kind, its span and whether it leaves the module (R44, R28). -/
def windowOp (h : Hart) (hs : HartState) (op : Op) (dest : Dest) (m : MemMod) (pa len : Nat) (r : Right) : Pending :=
  { memOp hs op dest m [windowSpan pa len r] with coord := true, remote := paModule pa != hartModule h }

/-- Marks an operation as a store without a result (R107). -/
def asStore (p : Pending) : Pending := { p with store := true, place := false }

/-- Splits the bytes of a store over its spans. -/
def splitBytes : List Span → List Byte → List (List Byte)
  | [], _ => []
  | x :: rest, bs => bs.take x.len :: splitBytes rest (bs.drop x.len)

/-- The pieces of an access. -/
def spansOf (va : Word) (len : Nat) (r : Right) : List Span := pieces va len r 16

/-! Loads and stores (R109 to R112). -/

def loadInstr (n : Nat) (signed : Bool) (d : Dst) (base : Src) (disp : Disp) (m : MemMod) (s : State) : Result :=
  issue s (dispSize disp) { srcs := [base], dsts := [d], place := true } fun h s hs vals =>
    let va := vals.getD 0 0 + dispValue disp
    issueMem h s hs (checkAlign (memOp hs (.load signed) (.scalar d) m (spansOf va n .read)) va n)

def windowLoad (n : Nat) (signed : Bool) (kind : BitVec 3) (d : Dst) (off : Src) (disp : BitVec 16) (c : Coord) (m : MemMod)
    (s : State) : Result :=
  issue s 12 { srcs := [off], dsts := [d], place := true } fun h s hs vals =>
    let pa := windowAddr (coordCore h hs c) kind.toNat (vals.getD 0 0) disp
    issueMem h s hs (checkAlign (windowOp h hs (.load signed) (.scalar d) m pa n .read) (BitVec.ofNat 64 pa) n)

def storeInstr (n : Nat) (base data : Src) (disp : Disp) (m : MemMod) (s : State) : Result :=
  issue s (dispSize disp) { srcs := [base, data] } fun h s hs vals =>
    let va := vals.getD 0 0 + dispValue disp
    let spans := spansOf va n .write
    let bs := leBytes n (vals.getD 1 0).toNat
    issueMem h s hs (checkAlign (asStore (memOp hs (.store (splitBytes spans bs)) .none m spans)) va n)

def windowStore (n : Nat) (kind : BitVec 3) (off data : Src) (disp : BitVec 16) (c : Coord) (m : MemMod) (s : State) : Result :=
  issue s 12 { srcs := [off, data] } fun h s hs vals =>
    let pa := windowAddr (coordCore h hs c) kind.toNat (vals.getD 0 0) disp
    let bs := leBytes n (vals.getD 1 0).toNat
    issueMem h s hs (checkAlign (asStore (windowOp h hs (.store [bs]) .none m pa n .write)) (BitVec.ofNat 64 pa) n)

def execLdN8 (d : Dst) (base : Src) (disp : Disp) (m : MemMod) (s : State) : Result := loadInstr 1 false d base disp m s
def execLdN16 (d : Dst) (base : Src) (disp : Disp) (m : MemMod) (s : State) : Result := loadInstr 2 false d base disp m s
def execLdN32 (d : Dst) (base : Src) (disp : Disp) (m : MemMod) (s : State) : Result := loadInstr 4 false d base disp m s
def execLd (d : Dst) (base : Src) (disp : Disp) (m : MemMod) (s : State) : Result := loadInstr 8 false d base disp m s
def execLdS8 (d : Dst) (base : Src) (disp : Disp) (m : MemMod) (s : State) : Result := loadInstr 1 true d base disp m s
def execLdS16 (d : Dst) (base : Src) (disp : Disp) (m : MemMod) (s : State) : Result := loadInstr 2 true d base disp m s
def execLdS32 (d : Dst) (base : Src) (disp : Disp) (m : MemMod) (s : State) : Result := loadInstr 4 true d base disp m s
def execWindowLdN8 (kind : BitVec 3) (d : Dst) (off : Src) (disp : BitVec 16) (c : Coord) (m : MemMod) (s : State) : Result :=
  windowLoad 1 false kind d off disp c m s
def execWindowLdN16 (kind : BitVec 3) (d : Dst) (off : Src) (disp : BitVec 16) (c : Coord) (m : MemMod) (s : State) : Result :=
  windowLoad 2 false kind d off disp c m s
def execWindowLdN32 (kind : BitVec 3) (d : Dst) (off : Src) (disp : BitVec 16) (c : Coord) (m : MemMod) (s : State) : Result :=
  windowLoad 4 false kind d off disp c m s
def execWindowLd (kind : BitVec 3) (d : Dst) (off : Src) (disp : BitVec 16) (c : Coord) (m : MemMod) (s : State) : Result :=
  windowLoad 8 false kind d off disp c m s
def execWindowLdS8 (kind : BitVec 3) (d : Dst) (off : Src) (disp : BitVec 16) (c : Coord) (m : MemMod) (s : State) : Result :=
  windowLoad 1 true kind d off disp c m s
def execWindowLdS16 (kind : BitVec 3) (d : Dst) (off : Src) (disp : BitVec 16) (c : Coord) (m : MemMod) (s : State) : Result :=
  windowLoad 2 true kind d off disp c m s
def execWindowLdS32 (kind : BitVec 3) (d : Dst) (off : Src) (disp : BitVec 16) (c : Coord) (m : MemMod) (s : State) : Result :=
  windowLoad 4 true kind d off disp c m s
def execStN8 (base data : Src) (disp : Disp) (m : MemMod) (s : State) : Result := storeInstr 1 base data disp m s
def execStN16 (base data : Src) (disp : Disp) (m : MemMod) (s : State) : Result := storeInstr 2 base data disp m s
def execStN32 (base data : Src) (disp : Disp) (m : MemMod) (s : State) : Result := storeInstr 4 base data disp m s
def execSt (base data : Src) (disp : Disp) (m : MemMod) (s : State) : Result := storeInstr 8 base data disp m s
def execWindowStN8 (kind : BitVec 3) (off data : Src) (disp : BitVec 16) (c : Coord) (m : MemMod) (s : State) : Result :=
  windowStore 1 kind off data disp c m s
def execWindowStN16 (kind : BitVec 3) (off data : Src) (disp : BitVec 16) (c : Coord) (m : MemMod) (s : State) : Result :=
  windowStore 2 kind off data disp c m s
def execWindowStN32 (kind : BitVec 3) (off data : Src) (disp : BitVec 16) (c : Coord) (m : MemMod) (s : State) : Result :=
  windowStore 4 kind off data disp c m s
def execWindowSt (kind : BitVec 3) (off data : Src) (disp : BitVec 16) (c : Coord) (m : MemMod) (s : State) : Result :=
  windowStore 8 kind off data disp c m s

/-- ST.z: a store of no byte, checked as one byte without alignment (R111). -/
def execStZ (base : Src) (disp : Disp) (m : MemMod) (s : State) : Result :=
  issue s (dispSize disp) { srcs := [base] } fun h s hs vals =>
    issueMem h s hs (asStore (memOp hs .storeNone .none m [⟨vals.getD 0 0 + dispValue disp, 1, .write, none⟩]))

def execWindowStZ (kind : BitVec 3) (off : Src) (disp : BitVec 16) (c : Coord) (m : MemMod) (s : State) : Result :=
  issue s 12 { srcs := [off] } fun h s hs vals =>
    issueMem h s hs (asStore (windowOp h hs .storeNone .none m (windowAddr (coordCore h hs c) kind.toNat (vals.getD 0 0) disp) 1 .write))

/-- PUTR: a 64-bit store through kind 1 of the named core, the issuing core in the 64-bit form (R98, R99). -/
def execPutr (c : Option Coord) (off val : Src) (disp : BitVec 16) (m : MemMod) (s : State) : Result :=
  issue s (if c.isSome then 12 else 8) { srcs := [off, val] } fun h s hs vals =>
    let pa := windowAddr (optCore h hs c) 1 (vals.getD 0 0) disp
    issueMem h s hs (asStore (windowOp h hs (.store [leBytes 8 (vals.getD 1 0).toNat]) .none m pa 8 .write))

/-! Bit-granular scratchpad access (R113). -/

/-- The operation on `w` bits from bit address `b` of the issuing core's scratchpad, or WINFLT with TVAL = rd(A). -/
def bitOp (h : Hart) (hs : HartState) (op : Nat → Op) (dest : Dest) (m : MemMod) (a : Word) (b w : Nat) (r : Right) : Pending :=
  let pa := windowPa (ownCore h) 0 (b / 8)
  let p := memOp hs (op (b % 8)) dest m [windowSpan pa ((b % 8 + w + 7) / 8) r]
  if 2 ^ 21 < b + w then { p with phase := .found .winflt a, spans := [] } else p

def execLdbit (d : Dst) (a b : Src) (wm1 : BitVec 6) (sx : Bool) (m : MemMod) (s : State) : Result :=
  issue s 8 { srcs := [a, b], dsts := [d], place := true } fun h s hs vals =>
    let w := wm1.toNat + 1
    let bit := (vals.getD 0 0).toNat * 8 + (vals.getD 1 0).toNat
    issueMem h s hs (bitOp h hs (fun j => .loadBits j w sx) (.scalar d) m (vals.getD 0 0) bit w .read)

def execStbit (a b c : Src) (wm1 : BitVec 6) (m : MemMod) (s : State) : Result :=
  issue s 8 { srcs := [a, b, c] } fun h s hs vals =>
    let w := wm1.toNat + 1
    let bit := (vals.getD 0 0).toNat * 8 + (vals.getD 1 0).toNat
    issueMem h s hs (asStore (bitOp h hs (fun j => .storeBits j w (vals.getD 2 0)) .none m (vals.getD 0 0) bit w .write))

/-! Full/empty words (R114, R115) and the operands of barrier objects (R128). -/

/-- The size of an instruction with such an operand (R104). -/
def wopSize : WOp → Nat
  | .mem _ _ => 8
  | .win _ _ _ => 12

/-- The operation on a memory operand or a kind-0 window operand. -/
def wopOp (h : Hart) (hs : HartState) (w : WOp) (base : Word) (op : Op) (dest : Dest) (m : MemMod) (len : Nat) (r : Right) :
    Pending :=
  match w with
  | .mem _ disp =>
    let va := base + disp.signExtend 64
    checkAlign (memOp hs op dest m [⟨va, len, r, none⟩]) va len
  | .win _ disp c =>
    let pa := windowAddr (coordCore h hs c) 0 base disp
    checkAlign (windowOp h hs op dest m pa len r) (BitVec.ofNat 64 pa) len

def wopBase : WOp → Src
  | .mem a _ => a
  | .win a _ _ => a

/-- TAKE. R106 names the page right of loads, stores, atomics, cache maintenance and tile instructions; for TAKE, BARV, PROPOSE and RECYCLE,
which read and write, the model asks both (DESIGN CHOICE, log 77). -/
def execTake (d : Dst) (w : WOp) (m : MemMod) (s : State) : Result :=
  issue s (wopSize w) { srcs := [wopBase w], dsts := [d], place := true } fun h s hs vals =>
    issueMem h s hs (wopOp h hs w (vals.getD 0 0) .take (.scalar d) m 8 .both)

/-- PUT is a store that also holds an outstanding place (R107). -/
def execPut (w : WOp) (data : Src) (m : MemMod) (s : State) : Result :=
  issue s (wopSize w) { srcs := [wopBase w, data], place := true } fun h s hs vals =>
    issueMem h s hs { wopOp h hs w (vals.getD 0 0) (.put (vals.getD 1 0)) .none m 8 .write with store := true }

def execPeek (d : Dst) (w : WOp) (m : MemMod) (s : State) : Result :=
  issue s (wopSize w) { srcs := [wopBase w], dsts := [d], place := true } fun h s hs vals =>
    issueMem h s hs (wopOp h hs w (vals.getD 0 0) .peek (.scalar d) m 8 .read)

/-! Fences (R118, R119). -/

/-- A fence stands in program order and holds no place. -/
def fenceOp (hs : HartState) (op : Op) (m : MemMod) : Pending := { newOp hs op .none with mod := m, place := false }

/-- FNC at strand scope has no effect beyond its turn (R118). -/
def execFnc (m : MemMod) (s : State) : Result :=
  issue s 8 {} fun _ s hs _ =>
    if m.scope = .strand then .done s hs else .done s (addOp hs (fenceOp hs .fence m))

def execFncLt (sc : Scope) (s : State) : Result :=
  issue s 8 {} fun _ s hs _ => .done s (addOp hs (fenceOp hs .fenceLight ⟨.rlx, sc⟩))

/-- Whether two harts share a scope (R247). -/
def sharesScope (a b : Hart) (gangs : Bool) : Scope → Bool
  | .strand => a == b
  | .core => a == b || match a, b with
    | .strand c _, .strand d _ => c == d
    | _, _ => hartDie a == hartDie b
  | .cluster => a == b || match a, b with
    | .strand c _, .strand d _ => coreCluster c == coreCluster d
    | _, _ => hartDie a == hartDie b
  | .die => hartDie a == hartDie b
  | .package => hartModule a == hartModule b
  | .system => hartModule a == hartModule b || gangs

/-- The agent that answers for a hart. -/
def agentOf : Hart → Agent
  | .strand c _ => .core c
  | .engine e => .engine e

/-- The agents a drain request of a hart goes to (R119): the cores and engines in scope that hold a hart or an accepted store.
System scope reaches the modules of the issuing context. -/
def drainAgents (s : State) (h : Hart) (hs : HartState) (sc : Scope) : List Agent :=
  let inGang (m : Nat) : Bool := (contextModules s (hartModule h) hs.id.gang).contains m
  let here := s.harts.filterMap fun x =>
    if sharesScope h x.1 (inGang (hartModule x.1)) sc then some (agentOf x.1) else none
  let bufs := s.stores.filterMap fun a =>
    if sharesScope h a.hart (inGang (hartModule a.hart)) sc then some (agentOf a.hart) else none
  (here ++ bufs).eraseDups

/-- The drain requests of a hart leave: they ask for the stores accepted until now. -/
def askDrain (s : State) (h : Hart) (hs : HartState) (sc : Scope) : HartState :=
  { hs with run := { hs.run with drain := some (s.nextStore, drainAgents s h hs sc) } }

/-- FNC.HV parks as a marker does, then waits for every drain answer (R119). -/
def execFncHv (sc : Scope) (s : State) : Result :=
  issue s 8 {} fun h s hs _ => holdUp s h hs [.shown] (.done s (askDrain s h hs sc))

/-! Cache maintenance (R120, R121). -/

/-- An instruction that must know its place as it issues: it waits for the walk of its page (R296). -/
def placed (s : State) (h : Hart) (hs : HartState) (va : Word) (r : Right) (k : Except Cause Placed → Issued) : Issued :=
  match seek s h hs hs.ptbr hs.st.priv va r with
  | .place p => k (.ok p)
  | .fault c => k (.error c)
  | .wait s' => .final (parked s' h ((hartOf s h).getD hs) (.blocked .walk) none)

/-- A prefetch: no fault, and nothing on a window address or where a check fails (R106, R120). -/
def prefetch (own : Bool) (base : Src) (disp : Disp) (s : State) : Result :=
  issue s (dispSize disp) { srcs := [base] } fun h s hs vals =>
    let va := vals.getD 0 0 + dispValue disp
    placed s h hs va .read fun q => match hartCore h, q with
      | some c, .ok p =>
        if isWindow p.pa || p.pol != 0 && p.pol != 1 || paModule p.pa != hartModule h then .done s hs
        else .done { s with prefetches := s.prefetches ++ [(c, p.pa, p.grain, own)] } hs
      | _, _ => .done s hs

def execPref (base : Src) (disp : Disp) (_sc : Scope) (s : State) : Result := prefetch false base disp s
def execPrefw (base : Src) (disp : Disp) (_sc : Scope) (s : State) : Result := prefetch true base disp s

/-- CFLUSH and CINVAL are checked as loads and ordered as stores (R120). -/
def cacheOp (op : Op) (base : Src) (disp : Disp) (sc : Scope) (s : State) : Result :=
  issue s (dispSize disp) { srcs := [base] } fun h s hs vals =>
    issueMem h s hs (asStore (memOp hs op .none ⟨.rlx, sc⟩ [⟨vals.getD 0 0 + dispValue disp, 1, .read, none⟩]))

def execCflush (base : Src) (disp : Disp) (sc : Scope) (s : State) : Result := cacheOp .cflush base disp sc s
def execCinval (base : Src) (disp : Disp) (sc : Scope) (s : State) : Result := cacheOp .cinval base disp sc s

/-- ISYNC parks as a marker does, then discards the core's instruction cache (R121). The strand's own stores, which it sees already, are to be
seen by fetch after it: it waits until they are visible. -/
def execIsync (_sc : Scope) (s : State) : Result :=
  issue s 8 {} fun h s hs _ =>
    holdUp s h hs [.shown] <| match hartCore h with
      | some c => .done (setCore s c { coreOf s c with icache := [] }) hs
      | none => .done s hs

/-! Tiles (R138 to R141) and migration (R142). -/

/-- A tile instruction is checked for translation and write permission at the base (R106, R140). -/
def tileOp (hs : HartState) (op : Op) (d : Dst) (m : MemMod) (va : Word) : Pending :=
  memOp hs op (.scalar d) m [⟨va, 1, .write, none⟩]

def execTdecl (d : Dst) (base desc : Src) (disp : BitVec 16) (m : MemMod) (s : State) : Result :=
  issue s 8 { srcs := [base, desc], dsts := [d], place := true } fun h s hs vals =>
    issueMem h s hs (tileOp hs (.tdecl (vals.getD 1 0)) d m (vals.getD 0 0 + disp.signExtend 64))

def execTundecl (d : Dst) (base : Src) (disp : BitVec 16) (m : MemMod) (s : State) : Result :=
  issue s 8 { srcs := [base], dsts := [d], place := true } fun h s hs vals =>
    issueMem h s hs (tileOp hs .tundecl d m (vals.getD 0 0 + disp.signExtend 64))

/-- The target of a register form of TFWD: no core when a bit that must be zero is set (R141). -/
def tfwdTarget (h : Hart) (hs : HartState) (w : Word) : Option Nat :=
  if w.extractLsb' 32 32 ≠ 0 then none
  else (Coord.dec (w.extractLsb' 0 32)).map (coordCore h hs)

def execTfwd (d : Dst) (base : Src) (t : TfwdTarget) (disp : BitVec 16) (m : MemMod) (s : State) : Result :=
  match t with
  | .reg b => issue s 8 { srcs := [base, b], dsts := [d], place := true } fun h s hs vals =>
      issueMem h s hs (tileOp hs (.tfwd (tfwdTarget h hs (vals.getD 1 0))) d m (vals.getD 0 0 + disp.signExtend 64))
  | .coord c => issue s 12 { srcs := [base], dsts := [d], place := true } fun h s hs vals =>
      issueMem h s hs (tileOp hs (.tfwd (some (coordCore h hs c))) d m (vals.getD 0 0 + disp.signExtend 64))

/-- The cluster and the core a MIG aims at; no core where none has a free slot. -/
def migTarget (s : State) (h : Hart) (pa : Nat) : Nat × Option Nat :=
  if isWindow pa then
    let c := (windowParts pa).1
    (coreCluster c, some c)
  else
    let g := homeCluster s pa
    (g, if coreCluster (ownCore h) = g then some (ownCore h) else clusterFree s g)

/-- The status a MIG decides as it issues, or the core to ship to. -/
def migDecide (s : State) (h : Hart) (hs : HartState) (pa : Nat) : Nat × Option Nat :=
  let (g, c) := migTarget s h pa
  if !(contextModules s (hartModule h) hs.id.gang).contains (g / 128) then (4, none)
  else if c = some (ownCore h) then (1, none)
  else if liveState s h hs then (2, none)
  else if (clusterFree s g).isNone then (3, none)
  else (0, c)

/-- Orders a ship: the strand issues no more, and is taken at its next clean point. -/
def orderShip (s : State) (h : Hart) (hs : HartState) (dest reason : Nat) (status : Option Dest) : State :=
  match h with
  | .engine _ => s
  | .strand c n =>
    let i := s.nextId
    { setHart s h { hs with run := { hs.run with ship := some i } } with
      nextId := i + 1
      ships := s.ships ++ [⟨i, hs.id.uid, none, [], c, n, dest, reason, status⟩] }

/-- Check 4 of R106 for a window address that MIG names: the kind exists and has that offset, MIG is no MCMD, and the hart may name it (R230). -/
def migRefused (hs : HartState) (pa : Nat) : Bool :=
  let (_, kind, off) := windowParts pa
  isWindow pa && (decide (kind = 3 ∨ windowSize kind ≤ off) || (kind == 7 && hs.st.priv == 0))

/-- MIG with its address: the fault of its translation or of check 4 of R106, its status, or its ship. -/
def migIssue (h : Hart) (s : State) (hs : HartState) (d : Dst) (va : Word) : Issued :=
  let op (k : Nat) : Pending := { newOp hs (.mig k) (.scalar d) with spans := [⟨va, 1, .probe, none⟩] }
  placed s h hs va .probe fun
    | .error c => .done s (addOp hs { op 0 with phase := .found c va })
    | .ok p =>
      if migRefused hs p.pa then .done s (addOp hs { op 0 with phase := .found .winflt va })
      else match migDecide s h hs p.pa with
        | (k, none) => .done s (addOp hs { op k with spans := [] })
        | (_, some c) =>
          let hs' := emptyDst hs (.scalar d)
          let s' := orderShip s h hs' c 0 (some (.scalar d))
          .done s' ((hartOf s' h).getD hs')

/-- MIG: its address is translated without a permission check, and its status decided as it issues (R142). -/
def execMig (d : Dst) (base : Src) (disp : Disp) (_sc : Scope) (s : State) : Result :=
  issue s (dispSize disp) { srcs := [base], dsts := [d], place := true, profile := .coreOnly } fun h s hs vals =>
    migIssue h s hs d (vals.getD 0 0 + dispValue disp)

/-! Atomics (R122). -/

def atomicInstr (fn : AtomicFn) (d : Dst) (base b : Src) (c : Option Src) (disp : Disp) (w32 : Bool) (m : MemMod) (s : State) :
    Result :=
  issue s (dispSize disp) { srcs := [base, b] ++ c.toList, dsts := [d], place := true } fun h s hs vals =>
    let va := vals.getD 0 0 + dispValue disp
    let n := if w32 then 4 else 8
    issueMem h s hs (checkAlign (memOp hs (.atomic fn (vals.getD 1 0) (vals.getD 2 0)) (.scalar d) m [⟨va, n, .both, none⟩]) va n)

def execCas (d : Dst) (base b c : Src) (disp : Disp) (w32 : Bool) (m : MemMod) (s : State) : Result :=
  atomicInstr .cas d base b (some c) disp w32 m s
def execSwap (d : Dst) (base b : Src) (disp : Disp) (w32 : Bool) (m : MemMod) (s : State) : Result :=
  atomicInstr .swap d base b none disp w32 m s
def execAadd (d : Dst) (base b : Src) (disp : Disp) (w32 : Bool) (m : MemMod) (s : State) : Result :=
  atomicInstr .add d base b none disp w32 m s
def execAand (d : Dst) (base b : Src) (disp : Disp) (w32 : Bool) (m : MemMod) (s : State) : Result :=
  atomicInstr .and d base b none disp w32 m s
def execAor (d : Dst) (base b : Src) (disp : Disp) (w32 : Bool) (m : MemMod) (s : State) : Result :=
  atomicInstr .or d base b none disp w32 m s
def execAxor (d : Dst) (base b : Src) (disp : Disp) (w32 : Bool) (m : MemMod) (s : State) : Result :=
  atomicInstr .xor d base b none disp w32 m s
def execAmin (d : Dst) (base b : Src) (disp : Disp) (w32 : Bool) (m : MemMod) (s : State) : Result :=
  atomicInstr .min d base b none disp w32 m s
def execAmax (d : Dst) (base b : Src) (disp : Disp) (w32 : Bool) (m : MemMod) (s : State) : Result :=
  atomicInstr .max d base b none disp w32 m s
def execAminn (d : Dst) (base b : Src) (disp : Disp) (w32 : Bool) (m : MemMod) (s : State) : Result :=
  atomicInstr .minn d base b none disp w32 m s
def execAmaxn (d : Dst) (base b : Src) (disp : Disp) (w32 : Bool) (m : MemMod) (s : State) : Result :=
  atomicInstr .maxn d base b none disp w32 m s
def execAfadd (d : Dst) (base b : Src) (disp : Disp) (w32 : Bool) (m : MemMod) (s : State) : Result :=
  atomicInstr .fadd d base b none disp w32 m s

/-! Reductions, barrier objects and decide-once cells (R124 to R137). -/

/-- An operation on a cell: the checks of R106 are made on its 64-byte header at the cell address. -/
def cellOp (hs : HartState) (op : Op) (dest : Dest) (m : MemMod) (va : Word) (r : Right) : Pending :=
  checkAlign (memOp hs op dest m [⟨va, 64, r, none⟩]) va 64

def execReddecl (cell desc : Src) (disp : BitVec 16) (m : MemMod) (s : State) : Result :=
  issue s 8 { srcs := [cell, desc] } fun h s hs vals =>
    issueMem h s hs (asStore (cellOp hs (.redDecl (vals.getD 1 0)) .none m (vals.getD 0 0 + disp.signExtend 64) .write))

/-- RED.ADD is a store that also holds an outstanding place (R107). -/
def execRedAdd (cell slot val : Src) (disp : BitVec 16) (m : MemMod) (s : State) : Result :=
  issue s 8 { srcs := [cell, slot, val], place := true } fun h s hs vals =>
    issueMem h s hs { cellOp hs (.redAdd (vals.getD 1 0) (vals.getD 2 0)) .none m (vals.getD 0 0 + disp.signExtend 64) .write with
      store := true }

def execRedRd (d : Dst) (cell : Src) (disp : BitVec 16) (m : MemMod) (s : State) : Result :=
  issue s 8 { srcs := [cell], dsts := [d], place := true } fun h s hs vals =>
    issueMem h s hs (cellOp hs (.redRead (fpMode hs .rne)) (.scalar d) m (vals.getD 0 0 + disp.signExtend 64) .read)

def execBinit (w : WOp) (exp : Src) (m : MemMod) (s : State) : Result :=
  issue s (wopSize w) { srcs := [wopBase w, exp] } fun h s hs vals =>
    issueMem h s hs (asStore (wopOp h hs w (vals.getD 0 0) (.barInit (vals.getD 1 0)) .none m 16 .write))

def execBarv (d : Dst) (w : WOp) (cnt : Src) (m : MemMod) (s : State) : Result :=
  issue s (wopSize w) { srcs := [wopBase w, cnt], dsts := [d], place := true } fun h s hs vals =>
    issueMem h s hs (wopOp h hs w (vals.getD 0 0) (.barArrive (vals.getD 1 0)) (.scalar d) m 16 .both)

def execBwait (d : Dst) (w : WOp) (ph : Src) (m : MemMod) (s : State) : Result :=
  issue s (wopSize w) { srcs := [wopBase w, ph], dsts := [d], place := true } fun h s hs vals =>
    issueMem h s hs (wopOp h hs w (vals.getD 0 0) (.barWait (vals.getD 1 0)) (.scalar d) m 16 .read)

def execBtest (d : Dst) (w : WOp) (ph : Src) (m : MemMod) (s : State) : Result :=
  issue s (wopSize w) { srcs := [wopBase w, ph], dsts := [d], place := true } fun h s hs vals =>
    issueMem h s hs (wopOp h hs w (vals.getD 0 0) (.barTest (vals.getD 1 0)) (.scalar d) m 16 .read)

def execPropose (pair : Fin 8) (cell val gen : Src) (disp : BitVec 16) (m : MemMod) (s : State) : Result :=
  issue s 8 { srcs := [cell, val, gen], place := true } fun h s hs vals =>
    issueMem h s hs (cellOp hs (.propose (vals.getD 1 0) (vals.getD 2 0)) (.pair pair) m
      (vals.getD 0 0 + disp.signExtend 64) .both)

def execDread (pair : Fin 8) (cell gen : Src) (disp : BitVec 16) (m : MemMod) (s : State) : Result :=
  issue s 8 { srcs := [cell, gen], place := true } fun h s hs vals =>
    issueMem h s hs (cellOp hs (.decRead (vals.getD 1 0)) (.pair pair) m (vals.getD 0 0 + disp.signExtend 64) .read)

def execDcell (cell gen : Src) (disp : BitVec 16) (m : MemMod) (s : State) : Result :=
  issue s 8 { srcs := [cell, gen] } fun h s hs vals =>
    issueMem h s hs (asStore (cellOp hs (.decOpen (vals.getD 1 0)) .none m (vals.getD 0 0 + disp.signExtend 64) .write))

/-- RECYCLE performs FNC.HV at system scope before it goes to the home (R137). -/
def execRecycle (d : Dst) (cell gen : Src) (disp : BitVec 16) (m : MemMod) (s : State) : Result :=
  issue s 8 { srcs := [cell, gen], dsts := [d], place := true } fun h s hs vals =>
    holdUp s h hs [.shown] <|
      issueMem h s (askDrain s h hs .system) (cellOp hs (.recycle (vals.getD 1 0)) (.scalar d) m (vals.getD 0 0 + disp.signExtend 64) .both)

end Sys2Proof.Machine
end

