-- ==== Sys2Proof/Machine/Scalar.lean ====
section
/-!
DEFINITION. Scalar and control instructions (R78 to R96, R103): integer arithmetic, compares, select, bit fields, divide,
the counter-based RNG, control transfers, waiting, and full/empty control.
-/

namespace Sys2Proof.Machine

/-! Values. -/

/-- 1 when a relation holds (R83). -/
def boolWord (b : Bool) : Word := if b then 1 else 0

def aluMulhs (a b : Word) : Word := (a.signExtend 128 * b.signExtend 128).extractLsb' 64 64
def aluMulhn (a b : Word) : Word := (a.zeroExtend 128 * b.zeroExtend 128).extractLsb' 64 64
/-- A shift amount is taken modulo 64 (R81). -/
def shiftAmount (b : Word) : Nat := b.toNat % 64
def aluShl (a b : Word) : Word := a <<< shiftAmount b
def aluShr (a b : Word) : Word := a >>> shiftAmount b
def aluSar (a b : Word) : Word := a.sshiftRight (shiftAmount b)
def aluRol (a b : Word) : Word := a.rotateLeft (shiftAmount b)
def aluRor (a b : Word) : Word := a.rotateRight (shiftAmount b)
def aluMin (a b : Word) : Word := if a.slt b then a else b
def aluMax (a b : Word) : Word := if a.slt b then b else a
def aluMinn (a b : Word) : Word := if a.ult b then a else b
def aluMaxn (a b : Word) : Word := if a.ult b then b else a

/-- DIV, DIVN, REM and REMN (R82). -/
def divS (a b : Word) : Word := if b = 0 then BitVec.allOnes 64 else a.sdiv b
def divN (a b : Word) : Word := if b = 0 then BitVec.allOnes 64 else a / b
def remS (a b : Word) : Word := if b = 0 then a else a.srem b
def remN (a b : Word) : Word := if b = 0 then a else a % b

/-- The field of BEXT and BINS (R85). -/
def bitField (a : Word) (pos len : Nat) : Word := (a >>> pos) &&& (BitVec.ofNat 64 (2 ^ len - 1))
def bitExtS (a : Word) (pos len : Nat) : Word := sext len (bitField a pos len).toNat
def bitIns (a b : Word) (pos len : Nat) : Word :=
  let m := BitVec.ofNat 64 (2 ^ len - 1) <<< pos
  (a &&& ~~~m) ||| ((b <<< pos) &&& m)

/-- Leading zeros among the low `n` bits (R86). -/
def leadZeros (a : Word) : Nat → Nat
  | 0 => 0
  | n + 1 => if a.getLsbD n then 0 else leadZeros a n + 1
/-- Trailing zeros from bit `64 - n` (R86). -/
def trailZeros (a : Word) : Nat → Nat
  | 0 => 0
  | n + 1 => if a.getLsbD (63 - n) then 0 else trailZeros a n + 1
def countOnes (a : Word) : Nat → Nat
  | 0 => 0
  | n + 1 => (if a.getLsbD n then 1 else 0) + countOnes a n
def clzWord (a : Word) : Word := BitVec.ofNat 64 (leadZeros a 64)
def ctzWord (a : Word) : Word := BitVec.ofNat 64 (trailZeros a 64)
def popcWord (a : Word) : Word := BitVec.ofNat 64 (countOnes a 64)
def brevWord (a : Word) : Word := a.reverse
def bswapWord (a : Word) : Word := BitVec.ofNat 64 (leNat (leBytes 8 a.toNat).reverse)

/-- The keyed mix of a counter (R88). -/
def rngMix (key ctr : Word) : Word :=
  let x := key ^^^ (ctr * 0x9E3779B97F4A7C15)
  let x := (x ^^^ (x >>> 30)) * 0xBF58476D1CE4E5B9
  let x := (x ^^^ (x >>> 27)) * 0x94D049BB133111EB
  x ^^^ (x >>> 31)

/-- Position of the highest one bit among the low `n` bits. -/
def topBit (x : Nat) : Nat → Nat
  | 0 => 0
  | n + 1 => if x.testBit n then n else topBit x n

/-- The F32 encoding of n × 2^-24 for n below 2^24 (R89). -/
def rngF32 (key ctr : Word) : BitVec 32 :=
  let n := ((rngMix key ctr).extractLsb' 40 24).toNat
  if n = 0 then 0
  else
    let t := topBit n 24
    BitVec.ofNat 32 ((t + 103) * 2 ^ 23 + (n * 2 ^ (23 - t)) % 2 ^ 23)

/-- The F64 encoding of n × 2^-53 for n below 2^53 (R89). -/
def rngF64 (key ctr : Word) : BitVec 64 :=
  let n := ((rngMix key ctr).extractLsb' 11 53).toNat
  if n = 0 then 0
  else
    let t := topBit n 53
    BitVec.ofNat 64 ((t + 970) * 2 ^ 52 + (n * 2 ^ (52 - t)) % 2 ^ 52)

/-! Shapes of execution. -/

/-- A fixed-latency result from scalar sources (R27, R80). -/
def scalarOp (size : Nat) (d : Dst) (srcs : List Src) (f : List Word → Word) (s : State) : Result :=
  issue s size { srcs := srcs, dsts := [d] } fun h s hs vals =>
    let (s', hs') := writeDst s h hs d (f vals)
    .done s' hs'

/-- Two register sources (R80). -/
def aluRR (d : Dst) (a b : Src) (f : Word → Word → Word) (s : State) : Result :=
  scalarOp 8 d [a, b] (fun vs => f (vs.getD 0 0) (vs.getD 1 0)) s

/-- A register source and an immediate (R80, R81). -/
def aluRI (d : Dst) (a : Src) (i : Imm) (f : Word → Word → Word) (s : State) : Result :=
  scalarOp (immSize i) d [a] (fun vs => f (vs.getD 0 0) (immValue i)) s

/-- A unary operation (R86). -/
def aluR (d : Dst) (a : Src) (f : Word → Word) (s : State) : Result :=
  scalarOp 8 d [a] (fun vs => f (vs.getD 0 0)) s

/-- A variable-latency result that needs nothing further (R27, R82). -/
def laterOp (d : Dst) (srcs : List Src) (f : List Word → Word) (s : State) : Result :=
  issue s 8 { srcs := srcs, dsts := [d], place := true } fun _ s hs vals =>
    .done s (addOp hs { newOp hs (.value (f vals)) (.scalar d) with phase := .done [f vals] })

/-- A transfer to `target` when `taken` (R91, R93), its size and link. The target of an indirect transfer is checked
first (R92). -/
def transfer (size : Nat) (srcs : List Src) (link : Option (Fin 16)) (taken : List Word → Bool)
    (target : Word → List Word → Word) (s : State) : Result :=
  issue s size { srcs := srcs } fun _ s hs vals =>
    if taken vals then
      let t := target (issuePc hs) vals
      if t &&& 3#64 ≠ 0 then .trap .ialign t
      else if !drained hs then .park .before
      else match link with
        | some r => .jump s (writeG hs r (issuePc hs + BitVec.ofNat 64 size)) t
        | none => .jump s hs t
    else .done s hs

/-- PC + imm × 4 (R90). -/
def branchTarget (o : Disp) (pc : Word) (_ : List Word) : Word := pc + dispValue o * 4

/-- A conditional branch on one register (R91). -/
def condBranch (a : Src) (o : Disp) (c : Word → Bool) (s : State) : Result :=
  transfer (dispSize o) [a] none (fun vs => c (vs.getD 0 0)) (branchTarget o) s

/-! Meanings: integer arithmetic and logic (R80, R81). -/

def execAdd (d : Dst) (a b : Src) (s : State) : Result := aluRR d a b (fun x y => x + y) s
def execSub (d : Dst) (a b : Src) (s : State) : Result := aluRR d a b (fun x y => x - y) s
def execMul (d : Dst) (a b : Src) (s : State) : Result := aluRR d a b (fun x y => x * y) s
def execMulhs (d : Dst) (a b : Src) (s : State) : Result := aluRR d a b (aluMulhs) s
def execAnd (d : Dst) (a b : Src) (s : State) : Result := aluRR d a b (fun x y => x &&& y) s
def execOr (d : Dst) (a b : Src) (s : State) : Result := aluRR d a b (fun x y => x ||| y) s
def execXor (d : Dst) (a b : Src) (s : State) : Result := aluRR d a b (fun x y => x ^^^ y) s
def execAndn (d : Dst) (a b : Src) (s : State) : Result := aluRR d a b (fun x y => x &&& ~~~y) s
def execShl (d : Dst) (a b : Src) (s : State) : Result := aluRR d a b (aluShl) s
def execShr (d : Dst) (a b : Src) (s : State) : Result := aluRR d a b (aluShr) s
def execSar (d : Dst) (a b : Src) (s : State) : Result := aluRR d a b (aluSar) s
def execRol (d : Dst) (a b : Src) (s : State) : Result := aluRR d a b (aluRol) s
def execRor (d : Dst) (a b : Src) (s : State) : Result := aluRR d a b (aluRor) s
def execMin (d : Dst) (a b : Src) (s : State) : Result := aluRR d a b (aluMin) s
def execMax (d : Dst) (a b : Src) (s : State) : Result := aluRR d a b (aluMax) s
def execMinn (d : Dst) (a b : Src) (s : State) : Result := aluRR d a b (aluMinn) s
def execMaxn (d : Dst) (a b : Src) (s : State) : Result := aluRR d a b (aluMaxn) s
def execMulhn (d : Dst) (a b : Src) (s : State) : Result := aluRR d a b (aluMulhn) s
def execAddImm (d : Dst) (a : Src) (i : Imm) (s : State) : Result := aluRI d a i (fun x y => x + y) s
def execSubImm (d : Dst) (a : Src) (i : Imm) (s : State) : Result := aluRI d a i (fun x y => x - y) s
def execMulImm (d : Dst) (a : Src) (i : Imm) (s : State) : Result := aluRI d a i (fun x y => x * y) s
def execMulhsImm (d : Dst) (a : Src) (i : Imm) (s : State) : Result := aluRI d a i (aluMulhs) s
def execAndImm (d : Dst) (a : Src) (i : Imm) (s : State) : Result := aluRI d a i (fun x y => x &&& y) s
def execOrImm (d : Dst) (a : Src) (i : Imm) (s : State) : Result := aluRI d a i (fun x y => x ||| y) s
def execXorImm (d : Dst) (a : Src) (i : Imm) (s : State) : Result := aluRI d a i (fun x y => x ^^^ y) s
def execAndnImm (d : Dst) (a : Src) (i : Imm) (s : State) : Result := aluRI d a i (fun x y => x &&& ~~~y) s
def execShlImm (d : Dst) (a : Src) (i : Imm) (s : State) : Result := aluRI d a i (aluShl) s
def execShrImm (d : Dst) (a : Src) (i : Imm) (s : State) : Result := aluRI d a i (aluShr) s
def execSarImm (d : Dst) (a : Src) (i : Imm) (s : State) : Result := aluRI d a i (aluSar) s
def execRolImm (d : Dst) (a : Src) (i : Imm) (s : State) : Result := aluRI d a i (aluRol) s
def execRorImm (d : Dst) (a : Src) (i : Imm) (s : State) : Result := aluRI d a i (aluRor) s
def execMinImm (d : Dst) (a : Src) (i : Imm) (s : State) : Result := aluRI d a i (aluMin) s
def execMaxImm (d : Dst) (a : Src) (i : Imm) (s : State) : Result := aluRI d a i (aluMax) s
def execMinnImm (d : Dst) (a : Src) (i : Imm) (s : State) : Result := aluRI d a i (aluMinn) s
def execMaxnImm (d : Dst) (a : Src) (i : Imm) (s : State) : Result := aluRI d a i (aluMaxn) s
def execMulhnImm (d : Dst) (a : Src) (i : Imm) (s : State) : Result := aluRI d a i (aluMulhn) s

/-! Compares (R83). -/

def execCmpeq (d : Dst) (a b : Src) (s : State) : Result := aluRR d a b (fun x y => boolWord (x == y)) s
def execCmpne (d : Dst) (a b : Src) (s : State) : Result := aluRR d a b (fun x y => boolWord (x != y)) s
def execCmplt (d : Dst) (a b : Src) (s : State) : Result := aluRR d a b (fun x y => boolWord (x.slt y)) s
def execCmple (d : Dst) (a b : Src) (s : State) : Result := aluRR d a b (fun x y => boolWord (x.sle y)) s
def execCmpltn (d : Dst) (a b : Src) (s : State) : Result := aluRR d a b (fun x y => boolWord (x.ult y)) s
def execCmplen (d : Dst) (a b : Src) (s : State) : Result := aluRR d a b (fun x y => boolWord (x.ule y)) s
def execCmpeqImm (d : Dst) (a : Src) (i : Imm) (s : State) : Result := aluRI d a i (fun x y => boolWord (x == y)) s
def execCmpneImm (d : Dst) (a : Src) (i : Imm) (s : State) : Result := aluRI d a i (fun x y => boolWord (x != y)) s
def execCmpltImm (d : Dst) (a : Src) (i : Imm) (s : State) : Result := aluRI d a i (fun x y => boolWord (x.slt y)) s
def execCmpleImm (d : Dst) (a : Src) (i : Imm) (s : State) : Result := aluRI d a i (fun x y => boolWord (x.sle y)) s
def execCmpltnImm (d : Dst) (a : Src) (i : Imm) (s : State) : Result := aluRI d a i (fun x y => boolWord (x.ult y)) s
def execCmplenImm (d : Dst) (a : Src) (i : Imm) (s : State) : Result := aluRI d a i (fun x y => boolWord (x.ule y)) s

/-! Select and bit fields (R84 to R86). -/

def execSel (d : Dst) (a b c : Src) (s : State) : Result :=
  scalarOp 8 d [a, b, c] (fun vs => if vs.getD 2 0 ≠ 0 then vs.getD 0 0 else vs.getD 1 0) s

def execBext (d : Dst) (a : Src) (pos : BitVec 6) (len : BitVec 7) (s : State) : Result :=
  aluR d a (fun x => bitField x pos.toNat len.toNat) s
def execBexts (d : Dst) (a : Src) (pos : BitVec 6) (len : BitVec 7) (s : State) : Result :=
  aluR d a (fun x => bitExtS x pos.toNat len.toNat) s
def execBins (d : Dst) (a b : Src) (pos : BitVec 6) (len : BitVec 7) (s : State) : Result :=
  aluRR d a b (fun x y => bitIns x y pos.toNat len.toNat) s
def execClz (d : Dst) (a : Src) (s : State) : Result := aluR d a clzWord s
def execCtz (d : Dst) (a : Src) (s : State) : Result := aluR d a ctzWord s
def execPopc (d : Dst) (a : Src) (s : State) : Result := aluR d a popcWord s
def execBrev (d : Dst) (a : Src) (s : State) : Result := aluR d a brevWord s
def execBswap (d : Dst) (a : Src) (s : State) : Result := aluR d a bswapWord s

/-! Divide (R82). -/

def execDiv (d : Dst) (a b : Src) (s : State) : Result := laterOp d [a, b] (fun vs => divS (vs.getD 0 0) (vs.getD 1 0)) s
def execDivn (d : Dst) (a b : Src) (s : State) : Result := laterOp d [a, b] (fun vs => divN (vs.getD 0 0) (vs.getD 1 0)) s
def execRem (d : Dst) (a b : Src) (s : State) : Result := laterOp d [a, b] (fun vs => remS (vs.getD 0 0) (vs.getD 1 0)) s
def execRemn (d : Dst) (a b : Src) (s : State) : Result := laterOp d [a, b] (fun vs => remN (vs.getD 0 0) (vs.getD 1 0)) s

/-! The counter-based RNG (R88, R89). -/

def execRng (d : Dst) (key ctr : Src) (s : State) : Result := aluRR d key ctr rngMix s
def execRngf32 (d : Dst) (key ctr : Src) (s : State) : Result :=
  aluRR d key ctr (fun k c => (rngF32 k c).zeroExtend 64) s
def execRngf64 (d : Dst) (key ctr : Src) (s : State) : Result := aluRR d key ctr rngF64 s

/-! Full/empty control (R96) and literal loads (R87). -/

def execEmpty (r : FeReg) (s : State) : Result :=
  issue s 8 {} fun _ s hs _ =>
    match r with
    | .g r => .done s (emptyG hs r)
    | .v r => .done s (emptyVec hs r)

/-- FILL sets the bit and keeps the value. -/
def execFill (r : FeReg) (s : State) : Result :=
  issue s 8 {} fun _ s hs _ =>
    match r with
    | .g r => .done s (setG hs r ⟨gVal hs r, true⟩)
    | .v r => .done s (writeVec hs r (vecVal hs r))

def execIsfull (d : Dst) (a : FeSrc) (s : State) : Result :=
  issue s 8 { dsts := [d] } fun h s hs _ =>
    let full := match a with
      | .g r => gFull hs r
      | .v r => vecFull hs r
      | .k _ => true
    let (s', hs') := writeDst s h hs d (boolWord full)
    .done s' hs'

/-- The address of an LDL's pool word (R37). -/
def poolAddr (pc : Word) (i : BitVec 16) : Word := (pc &&& ~~~7#64) + i.signExtend 64 * 8

def execLdl (d : Fin 16) (i : BitVec 16) (s : State) : Result :=
  issue s 8 { place := true } fun h s hs _ =>
    issueMem h s hs { newOp hs .literal (.scalar (.g d)) with spans := [⟨poolAddr (issuePc hs) i, 8, .exec, none⟩] }

/-! Control transfers (R90 to R93). -/

def execBr (o : Disp) (s : State) : Result := transfer (dispSize o) [] none (fun _ => true) (branchTarget o) s
def execBz (a : Src) (o : Disp) (s : State) : Result := condBranch a o (fun x => x == 0) s
def execBnz (a : Src) (o : Disp) (s : State) : Result := condBranch a o (fun x => x != 0) s
def execBltz (a : Src) (o : Disp) (s : State) : Result := condBranch a o (fun x => x.slt 0) s
def execBgez (a : Src) (o : Disp) (s : State) : Result := condBranch a o (fun x => !x.slt 0) s
def execCall (link : Fin 16) (o : Disp) (s : State) : Result :=
  transfer (dispSize o) [] (some link) (fun _ => true) (branchTarget o) s
def execJr (a : Src) (s : State) : Result := transfer 8 [a] none (fun _ => true) (fun _ vs => vs.getD 0 0) s
def execCallr (link : Fin 16) (a : Src) (s : State) : Result :=
  transfer 8 [a] (some link) (fun _ => true) (fun _ vs => vs.getD 0 0) s
/-- RET differs from JR in timing only (R91). -/
def execRet (a : Src) (s : State) : Result := transfer 8 [a] none (fun _ => true) (fun _ vs => vs.getD 0 0) s

/-! Giving up turns and waiting (R94, R95). -/

/-- The slots of a core, other than one, that are ready (R94). -/
def readySlots (s : State) (c n : Nat) : List Nat :=
  (List.range 8).filter fun k => k != n && slotWilling s c k

def execYield (s : State) : Result :=
  issue s 8 {} fun h s hs _ =>
    let hs' := { hs with run := { hs.run with watch := 0 } }
    match h with
    | .engine _ => .done s hs'
    | .strand c n =>
      let cs := coreOf s c
      .done (setCore s c { cs with yields := (cs.yields.filter fun y => y.1 != n) ++ [(n, readySlots s c n)] }) hs'

def execWait (m : BitVec 16) (s : State) : Result :=
  issue s 8 {} fun _ s hs _ => if maskFull hs m then .done s hs else .park (.wait m)

def execWaitst (s : State) : Result :=
  issue s 8 {} fun _ s hs _ => if storesAccepted hs then .done s hs else .park .waitst

end Sys2Proof.Machine
end

