-- ==== Sys2Proof/Machine/Float.lean ====
section
/-!
DEFINITION. Number formats and the order of sums (R58 to R77): decoding to exact values, exact arithmetic, the one rounding at the
end, conversions, and the fixed pairwise tree.
-/

namespace Sys2Proof.Machine

/-- An exact value: NaN, an infinity, or (-1)^neg × m × 2^e. -/
inductive FVal where
  | nan
  | inf (neg : Bool)
  | fin (neg : Bool) (m : Nat) (e : Int)
  deriving DecidableEq, Repr

/-- Exponent bits, fraction bits and bias of a floating-point format (R59). -/
structure FSpec where
  eb : Nat
  fb : Nat
  bias : Nat
  deriving DecidableEq, Repr

/-- The layouts of R59; integer and code formats take F32's, and are never decoded through it. -/
def fspec : Fmt → FSpec
  | .f64 => ⟨11, 52, 1023⟩
  | .h16 => ⟨5, 10, 15⟩
  | .b16 => ⟨8, 7, 127⟩
  | .f8a => ⟨4, 3, 7⟩
  | .f8b => ⟨5, 2, 15⟩
  | .f6 => ⟨3, 2, 3⟩
  | _ => ⟨8, 23, 127⟩

def signBit (f : Fmt) : Nat := 2 ^ ((fspec f).eb + (fspec f).fb)

/-- The exact value of a pattern (R59, R60). -/
def fdecode (f : Fmt) (x : Nat) : FVal :=
  let s := fspec f
  let neg := x.testBit (s.eb + s.fb)
  let e := x / 2 ^ s.fb % 2 ^ s.eb
  let fr := x % 2 ^ s.fb
  let lowest : Int := 1 - s.bias - s.fb
  if e = 0 then .fin neg fr lowest
  else if f = .f8a then
    (if e = 15 ∧ fr = 7 then .nan else .fin neg (2 ^ s.fb + fr) (lowest + e - 1))
  else if f = .f6 then .fin neg (2 ^ s.fb + fr) (lowest + e - 1)
  else if e = 2 ^ s.eb - 1 then (if fr = 0 then .inf neg else .nan)
  else .fin neg (2 ^ s.fb + fr) (lowest + e - 1)

/-- A subnormal pattern of a format that R67 names. -/
def isSubnormal (f : Fmt) (x : Nat) : Bool :=
  let s := fspec f
  f.isArith && decide (x / 2 ^ s.fb % 2 ^ s.eb = 0 ∧ x % 2 ^ s.fb ≠ 0)

/-- An operand as an instruction reads it: a subnormal is a zero of its sign when SUBN = 1 (R67). -/
def foperand (f : Fmt) (flush : Bool) (x : Nat) : FVal :=
  if flush && isSubnormal f x then .fin (x.testBit ((fspec f).eb + (fspec f).fb)) 0 0 else fdecode f x

/-- The canonical NaN (R60). A NaN converts to F6 as zero (R65). -/
def canonicalNan : Fmt → Nat
  | .f64 => 0x7FF8000000000000
  | .h16 => 0x7E00
  | .b16 => 0x7FC0
  | .f8a => 0x7F
  | .f8b => 0x7E
  | .f6 => 0
  | _ => 0x7FC00000

/-- The number of bits of a natural number. -/
def bitLen (x : Nat) : Nat := if x = 0 then 0 else Nat.log2 x + 1

/-- Whether a magnitude with quotient `q`, remainder `r` of `2^sh` rounds up (R63). -/
def roundsUp (rnd : Rnd) (neg : Bool) (q r sh : Nat) : Bool :=
  match rnd with
  | .rtz => false
  | .rup => !neg && r != 0
  | .rdn => neg && r != 0
  | _ => decide (2 ^ sh < 2 * r) || (decide (2 * r = 2 ^ sh) && q % 2 == 1)

/-- Rounds `m × 2^e` to a multiple of `2^qe`: the multiple, and whether it is inexact. -/
def quantize (rnd : Rnd) (neg : Bool) (m : Nat) (e qe : Int) : Nat × Bool :=
  if qe ≤ e then (m * 2 ^ (e - qe).toNat, false)
  else
    let sh := (qe - e).toNat
    let q := m / 2 ^ sh
    let r := m % 2 ^ sh
    (if roundsUp rnd neg q r sh then q + 1 else q, r != 0)

/-- The exponent of the largest finite value, and its significand (R59). -/
def topOf (f : Fmt) : Int × Nat :=
  let s := fspec f
  match f with
  | .f8a => (8, 14)
  | .f6 => (4, 7)
  | _ => ((2 ^ s.eb - 2 : Int) - s.bias, 2 ^ (s.fb + 1) - 1)

/-- The pattern of the largest finite magnitude. -/
def largest (f : Fmt) : Nat :=
  let s := fspec f
  let (e, q) := topOf f
  (e + s.bias).toNat * 2 ^ s.fb + (q - 2 ^ s.fb)

/-- The pattern of infinity, or of what stands for it in F8A and F6 (R65). -/
def infinityBits (f : Fmt) : Nat :=
  match f with
  | .f8a | .f6 => largest f
  | _ => (2 ^ (fspec f).eb - 1) * 2 ^ (fspec f).fb

/-- Overflow by format and mode (R65). -/
def overflowBits (f : Fmt) (rnd : Rnd) (neg : Bool) : Nat :=
  match f with
  | .f8a | .f6 => largest f
  | _ => match rnd with
    | .rtz => largest f
    | .rup => if neg then largest f else infinityBits f
    | .rdn => if neg then infinityBits f else largest f
    | _ => infinityBits f

def withSign (f : Fmt) (neg : Bool) (x : Nat) : Nat := if neg then signBit f + x else x

/-- A magnitude rounds above the largest finite one, with an unbounded exponent (R65). -/
def roundsAbove (f : Fmt) (rnd : Rnd) (neg : Bool) (m : Nat) (e : Int) : Bool :=
  let s := fspec f
  let p := s.fb + 1
  let ue := e + bitLen m - p
  let (q0, _) := quantize rnd neg m e ue
  let (q, ue) := if q0 = 2 ^ p then (2 ^ (p - 1), ue + 1) else (q0, ue)
  let (emax, qmax) := topOf f
  decide (emax < ue + s.fb) || (ue + s.fb == emax && decide (qmax < q))

/-- The row of R69's table that R65 does not give: 30.0 to F6 overflows in any mode, where rounding toward zero stops at 28. The model takes the row
for that value alone (DEDUCED, log 85). -/
def overflowRow (f : Fmt) (m : Nat) (e : Int) : Bool := decide (f = .f6 ∧ m * 2 ^ e.toNat = 30 * 2 ^ (-e).toNat)

/-- `round(x, F, m)` (R39, R65, R66, R69): the pattern and the flags. R154's worked example leaves its lane 3 (0.001 to F8A, 0x01) unchanged under
RTZ, where R63's rounding toward zero gives 0x00: the model follows R63 (DESIGN CHOICE, log 111). -/
def fround (f : Fmt) (md : FpMode) (v : FVal) : Nat × FpFlags :=
  let s := fspec f
  match v with
  | .nan => (canonicalNan f, if f = .f6 then { nv := true } else {})
  | .inf neg => (withSign f neg (infinityBits f), if f = .f8a || f = .f6 then { of := true } else {})
  | .fin neg m e =>
    if m = 0 then (withSign f neg 0, {})
    else
      let p := s.fb + 1
      let ue := e + bitLen m - p
      let (q0, inexact) := quantize md.rnd neg m e ue
      let (q, ue) := if q0 = 2 ^ p then (2 ^ (p - 1), ue + 1) else (q0, ue)
      let ex := ue + s.fb
      if roundsAbove f md.rnd neg m e || overflowRow f m e then
        (withSign f neg (overflowBits f md.rnd neg), { of := true, nx := true })
      else if ex < 1 - (s.bias : Int) then
        if md.flush && f.isArith then (withSign f neg 0, { uf := true, nx := true })
        else
          let (z, ix) := quantize md.rnd neg m e (1 - s.bias - s.fb)
          (withSign f neg z, { uf := ix, nx := ix })
      else (withSign f neg ((ex + s.bias).toNat * 2 ^ s.fb + (q - 2 ^ s.fb)), { nx := inexact })

/-! Exact arithmetic (R61, R148). -/

def fneg : FVal → FVal
  | .nan => .nan
  | .inf n => .inf !n
  | .fin n m e => .fin (!n) m e

def fabs : FVal → FVal
  | .nan => .nan
  | .inf _ => .inf false
  | .fin _ m e => .fin false m e

def invalid : FVal × FpFlags := (.nan, { nv := true })

/-- a + b; the sign of an exact zero follows the addends and the mode (R148). -/
def fadd (rnd : Rnd) (a b : FVal) : FVal × FpFlags :=
  match a, b with
  | .nan, _ => (.nan, {})
  | _, .nan => (.nan, {})
  | .inf x, .inf y => if x = y then (.inf x, {}) else invalid
  | .inf x, _ => (.inf x, {})
  | _, .inf y => (.inf y, {})
  | .fin na ma ea, .fin nb mb eb =>
    let e := min ea eb
    let x := ma * 2 ^ (ea - e).toNat
    let y := mb * 2 ^ (eb - e).toNat
    if na = nb then (.fin na (x + y) e, {})
    else if x = y then (.fin (rnd == .rdn) 0 e, {})
    else if y < x then (.fin na (x - y) e, {})
    else (.fin nb (y - x) e, {})

def fmul (a b : FVal) : FVal × FpFlags :=
  match a, b with
  | .nan, _ => (.nan, {})
  | _, .nan => (.nan, {})
  | .inf x, .inf y => (.inf (x != y), {})
  | .inf x, .fin y m _ => if m = 0 then invalid else (.inf (x != y), {})
  | .fin x m _, .inf y => if m = 0 then invalid else (.inf (x != y), {})
  | .fin x m e, .fin y n d => (.fin (x != y) (m * n) (e + d), {})

/-- a × b + c, the product unrounded. -/
def ffma (rnd : Rnd) (a b c : FVal) : FVal × FpFlags :=
  let (p, f) := fmul a b
  let (r, g) := fadd rnd p c
  (r, f.or g)

/-- A quotient with enough bits and a sticky last bit for every format. -/
def divBits (m n : Nat) (e d : Int) (neg : Bool) : FVal :=
  let k := 140 + bitLen n
  let x := m * 2 ^ k
  .fin neg (2 * (x / n) + (if x % n = 0 then 0 else 1)) (e - d - k - 1)

def fdiv (a b : FVal) : FVal × FpFlags :=
  match a, b with
  | .nan, _ => (.nan, {})
  | _, .nan => (.nan, {})
  | .inf _, .inf _ => invalid
  | .inf x, .fin y _ _ => (.inf (x != y), {})
  | .fin x _ _, .inf y => (.fin (x != y) 0 0, {})
  | .fin x m e, .fin y n d =>
    if n = 0 then (if m = 0 then invalid else (.inf (x != y), { dz := true }))
    else (divBits m n e d (x != y), {})

/-- The integer square root, from bit `n - 1` of the root downward. -/
def isqrtFrom (x : Nat) : (n : Nat) → (r : Nat) → Nat
  | 0, r => r
  | n + 1, r => let t := r + 2 ^ n; isqrtFrom x n (if t * t ≤ x then t else r)

def isqrt (x : Nat) : Nat := isqrtFrom x (bitLen x / 2 + 1) 0

def fsqrt (a : FVal) : FVal × FpFlags :=
  match a with
  | .nan => (.nan, {})
  | .inf neg => if neg then invalid else (.inf false, {})
  | .fin neg m e =>
    if m = 0 then (.fin neg 0 0, {})
    else if neg then invalid
    else
      let (m1, e1) := if e % 2 = 0 then (m, e) else (2 * m, e - 1)
      let x := m1 * 2 ^ 280
      let r := isqrt x
      (.fin false (2 * r + (if r * r = x then 0 else 1)) (e1 / 2 - 140 - 1), {})

/-- Order of two values that are not NaN; −0 equals +0. -/
def flt (a b : FVal) : Bool :=
  match a, b with
  | .nan, _ => false
  | _, .nan => false
  | .inf x, .inf y => x && !y
  | .inf x, _ => x
  | _, .inf y => !y
  | .fin na ma ea, .fin nb mb eb =>
    let e := min ea eb
    let x : Int := if na then -(ma * 2 ^ (ea - e).toNat : Nat) else (ma * 2 ^ (ea - e).toNat : Nat)
    let y : Int := if nb then -(mb * 2 ^ (eb - e).toNat : Nat) else (mb * 2 ^ (eb - e).toNat : Nat)
    decide (x < y)

def isNan (a : FVal) : Bool := a == .nan
def feq (a b : FVal) : Bool := !isNan a && !isNan b && !flt a b && !flt b a
def fle (a b : FVal) : Bool := flt a b || feq a b

def isNegative : FVal → Bool
  | .nan => false
  | .inf n => n
  | .fin n _ _ => n

/-- The smaller value, −0 counting below +0; NaN if either is NaN (R148). -/
def fmin (a b : FVal) : FVal :=
  if isNan a || isNan b then .nan
  else if flt a b then a
  else if flt b a then b
  else if isNegative a then a else b

def fmax (a b : FVal) : FVal :=
  if isNan a || isNan b then .nan
  else if flt a b then b
  else if flt b a then a
  else if isNegative a then b else a

/-- The pattern of a value a format holds exactly. -/
def fbits (f : Fmt) (v : FVal) : Nat := (fround f ⟨.rne, false⟩ v).1

/-! Conversions (R69). -/

/-- An exact integer as a value. -/
def fofInt (x : Int) : FVal := .fin (decide (x < 0)) x.natAbs 0

/-- The integer range of a format (R62). -/
def intRange (f : Fmt) : Int × Int :=
  if f.isSigned then (-(2 ^ (f.width - 1) : Int), 2 ^ (f.width - 1) - 1) else (0, 2 ^ f.width - 1)

/-- A pattern as an integer of its format. -/
def intOf (f : Fmt) (x : Nat) : Int :=
  if f.isSigned && x.testBit (f.width - 1) then (x : Int) - 2 ^ f.width else x

/-- An integer as a pattern of `w` bits. -/
def intBits (w : Nat) (x : Int) : Nat := (x % 2 ^ w).toNat

/-- Conversion into an integer format: rounded, then saturated (R69). -/
def toInt (f : Fmt) (rnd : Rnd) (v : FVal) : Nat × FpFlags :=
  let (lo, hi) := intRange f
  match v with
  | .nan => (0, { nv := true })
  | .inf neg => (intBits f.width (if neg then lo else hi), { nv := true })
  | .fin neg m e =>
    let (q, ix) := quantize rnd neg m e 0
    let x : Int := if neg then -(q : Int) else q
    if x < lo then (intBits f.width lo, { nv := true })
    else if hi < x then (intBits f.width hi, { nv := true })
    else (intBits f.width x, { nx := ix })

/-- A pattern as an exact value of its format, an integer format included. -/
def valueOf (f : Fmt) (flush : Bool) (x : Nat) : FVal :=
  if f.isInt then fofInt (intOf f x) else foperand f flush x

/-- Converts a lane (R69, R153). -/
def convert (src dst : Fmt) (md : FpMode) (x : Nat) : Nat × FpFlags :=
  let v := valueOf src md.flush (x % 2 ^ (if src = .f6 then 6 else src.width))
  if dst.isInt then toInt dst md.rnd v else fround dst md v

/-! The order of sums (R75). -/

/-- One node: the sum of two values rounded by RNE, with its flags. -/
def sumNode (f : Fmt) (flush : Bool) (a b : FVal) : FVal × FpFlags :=
  let (s, g) := fadd .rne a b
  let (r, h) := fround f ⟨.rne, flush⟩ s
  (fdecode f r, g.or h)

/-- One level of the tree: neighbours are added, +0.0 standing for a missing one. -/
def sumLevel (f : Fmt) (flush : Bool) : List FVal → List FVal × FpFlags
  | [] => ([], {})
  | [a] => let (r, g) := sumNode f flush a (.fin false 0 0); ([r], g)
  | a :: b :: rest =>
    let (r, g) := sumNode f flush a b
    let (rs, h) := sumLevel f flush rest
    (r :: rs, g.or h)

/-- The levels of the tree, `n` of them. -/
def sumTree (f : Fmt) (flush : Bool) : (n : Nat) → List FVal → FVal × FpFlags
  | 0, xs => (xs.headD (.fin false 0 0), {})
  | n + 1, xs =>
    let (ys, g) := sumLevel f flush xs
    let (r, h) := sumTree f flush n ys
    (r, g.or h)

/-- `ceil(log2 n)`. -/
def levels (n : Nat) : Nat := bitLen (n - 1)

/-- `pairsum` (R75). Padding slots hold +0.0; a level of padding alone sums to +0.0 and is left out. -/
def pairsum (f : Fmt) (flush : Bool) (xs : List FVal) : FVal × FpFlags :=
  match xs with
  | [x] => let (r, h) := fround f ⟨.rne, flush⟩ x; (fdecode f r, h)
  | _ => sumTree f flush (levels xs.length) xs

end Sys2Proof.Machine
end

