-- ==== Sys2Proof/Machine/Sfun.lean ====
section
/-!
DEFINITION. The special functions (R159), each the correctly rounded value of the exact function. They are computed as fixed-point
intervals of 600 fraction bits; where both ends of an interval agree on 200 bits below the leading one, the value lies
strictly between representable numbers and a sticky bit stands for the rest.
-/

namespace Sys2Proof.Machine

/-- Fraction bits of the fixed-point intervals. -/
def sfP : Nat := 600

/-- Σ 1/(k 2^k) for k = 1 .. n, each term rounded down: ln 2 from below within n units. -/
def ln2Terms : Nat → Nat
  | 0 => 0
  | n + 1 => ln2Terms n + 2 ^ sfP / ((n + 1) * 2 ^ (n + 1))

/-- ln 2 × 2^600, at most 600 units too small. -/
def ln2Fix : Nat := ln2Terms 599

/-- Σ y^k/k! from term `t` at index `k`, each step rounded down. -/
def expTerms (y : Nat) : (fuel k t : Nat) → Nat
  | 0, _, _ => 0
  | n + 1, k, t => t + expTerms y n (k + 1) (t * y / 2 ^ sfP / (k + 1))

/-- e^y × 2^600 for y in [0, 1): from below, at most 2,000 units too small. -/
def expFix (y : Nat) : Nat := expTerms y 120 0 (2 ^ sfP)

/-- Σ z^(2k+1)/(2k+1), from the power `p` at index `k`. -/
def atanhTerms (z2 : Nat) : (fuel k p : Nat) → Nat
  | 0, _, _ => 0
  | n + 1, k, p => p / (2 * k + 1) + atanhTerms z2 n (k + 1) (p * z2 / 2 ^ sfP)

/-- A positive value within `err` units above `lo`, at scale 2^e: a value between two neighbours at 200 bits, or nothing when
the interval does not settle it. -/
def settle (neg : Bool) (lo err : Nat) (e : Int) : Option FVal :=
  let sh := bitLen lo - 200
  if lo / 2 ^ sh = (lo + err) / 2 ^ sh then some (.fin neg (2 * (lo / 2 ^ sh) + 1) (e + sh - 1)) else none

/-- 2^a (R159). -/
def fexp2 (a : FVal) : Option FVal × FpFlags :=
  match a with
  | .nan => (some .nan, {})
  | .inf neg => (some (if neg then .fin false 0 0 else .inf false), {})
  | .fin neg m e =>
    if m = 0 then (some (.fin false 1 0), {})
    -- beyond the exponent range of every format: far above the largest or below the smallest value
    else if 20 < e + bitLen m then (some (.fin false 3 (if neg then -100000 else 100000)), {})
    else
      -- |a| × 2^600, rounded down, and whether that is exact
      let exact := decide (-(sfP : Int) ≤ e)
      let x := if exact then m * 2 ^ (e + sfP).toNat else m / 2 ^ (-(e + sfP)).toNat
      -- a = n + f with f in [0, 1)
      let n : Int := if neg then (if x % 2 ^ sfP = 0 && exact then -(x / 2 ^ sfP : Nat) else -(x / 2 ^ sfP : Nat) - 1) else x / 2 ^ sfP
      let f := if neg then (if x % 2 ^ sfP = 0 && exact then 0 else 2 ^ sfP - x % 2 ^ sfP - (if exact then 0 else 1)) else x % 2 ^ sfP
      if f = 0 && exact then (some (.fin false 1 n), {})
      else
        let lo := expFix (f * ln2Fix / 2 ^ sfP)
        let hi := min (lo + 10000) (2 * 2 ^ sfP - 1)
        (settle false lo (hi - lo) (n - sfP), {})

/-- log2 a (R159). -/
def flog2 (a : FVal) : Option FVal × FpFlags :=
  match a with
  | .nan => (some .nan, {})
  | .inf neg => if neg then (some .nan, { nv := true }) else (some (.inf false), {})
  | .fin neg m e =>
    if m = 0 then (some (.inf true), { dz := true })
    else if neg then (some .nan, { nv := true })
    else
      let k := bitLen m - 1
      let n : Int := e + k
      if m = 2 ^ k then (some (if n = 0 then .fin false 0 0 else fofInt n), {})
      else
        -- x = m / 2^k in (1, 2); ln x = 2 atanh ((x - 1)/(x + 1))
        let z := (m - 2 ^ k) * 2 ^ sfP / (m + 2 ^ k)
        let l := 2 * atanhTerms (z * z / 2 ^ sfP) 200 0 z
        let lo := l * 2 ^ sfP / (ln2Fix + 600)
        let err := 20000
        if 0 ≤ n then (settle false (n.toNat * 2 ^ sfP + lo) err (-(sfP : Int)), {})
        else
          let big := (-n).toNat * 2 ^ sfP
          (settle true (big - lo - err) err (-(sfP : Int)), {})

/-- 1/a (R159): the division of 1. -/
def frcp (a : FVal) : FVal × FpFlags := fdiv (.fin false 1 0) a

/-- 1/√a (R159). -/
def frsq (a : FVal) : FVal × FpFlags :=
  match a with
  | .nan => (.nan, {})
  | .inf neg => if neg then invalid else (.fin false 0 0, {})
  | .fin neg m e =>
    if m = 0 then (.inf neg, { dz := true })
    else if neg then invalid
    else
      let (m1, e1) := if e % 2 = 0 then (m, e) else (2 * m, e - 1)
      let k := 150 + bitLen m1
      let n := 2 ^ (2 * k)
      let r := isqrt (n / m1)
      (.fin false (2 * r + (if r * r * m1 = n then 0 else 1)) (-(e1 / 2) - k - 1), {})

/-- tanh a (R159). -/
def ftanh (a : FVal) : Option FVal × FpFlags :=
  match a with
  | .nan => (some .nan, {})
  | .inf neg => (some (.fin neg 1 0), {})
  | .fin neg m e =>
    if m = 0 then (some (.fin neg 0 0), {})
    -- |a| below 2^-100: between a (1 - 2^-200) and a
    else if e + bitLen m < -100 then (some (.fin neg (2 * (m * 2 ^ 120 - 1) + 1) (e - 121)), {})
    -- |a| at least 64: between 1 - 2^-180 and 1
    else if 6 < e + bitLen m then (some (.fin neg (2 * (2 ^ 170 - 1) + 1) (-171)), {})
    else
      -- t = e^(-2|a|) = 2^-n / e^r with 2|a| = n ln 2 + r
      let y := if -(sfP : Int) ≤ e + 1 then m * 2 ^ (e + 1 + sfP).toNat else m / 2 ^ (-(e + 1 + sfP)).toNat
      let n := y / (ln2Fix + 600)
      let r := y - n * (ln2Fix + 600)
      let t := 2 ^ sfP * 2 ^ sfP / expFix r / 2 ^ n
      -- t is within 200,000 units; tanh = (1 - t)/(1 + t)
      let err := 200000
      let lo := (2 ^ sfP - t - err) * 2 ^ sfP / (2 ^ sfP + t + err)
      (settle neg lo (4 * err) (-(sfP : Int)), {})

end Sys2Proof.Machine
end

