-- ==== Sys2Proof/Machine/Vector.lean ====
section
/-!
DEFINITION. Vector instructions (R143 to R164) in both modes, and the self-describing blocks that VBDEC and VBENC use (R70 to R74).
-/

namespace Sys2Proof.Machine

/-! Issue. -/

/-- The hart whose instruction issues. -/
def issuer (s : State) : HartState := (hartOf s s.cur).getD HartState.reset

/-- Bit j of a lane mask covers lanes j, j + 64, … (R67). -/
def laneMask (n : Nat) (p : Nat → Bool) : Word :=
  (List.range n).foldl (fun m i => if p i then m ||| (1 <<< (i % 64)) else m) 0

/-- The SUBN mask of an instruction; zero when SUBN = 1 (R67). -/
def subnMask (hs : HartState) (n : Nat) (p : Nat → Bool) : Word := if hs.fp.subn then 0 else laneMask n p

/-- Gives a vector result: at once in short mode, through the long-vector unit in long mode (R147), through the queue for a
short-mode special function (R160). -/
def giveVec (h : Hart) (s : State) (hs : HartState) (d : Fin 16) (v : W2048) (f : FpFlags) (mask : Word) (special : Bool) :
    Issued :=
  if hs.st.vl then
    .done s (addOp hs (newOp hs (if mask = 0 then .vector v f none else .subnormal mask) (.w d)))
  else if mask ≠ 0 then .trap .subn mask
  else if special then
    holdUp s h hs [.special] <| .done { s with nextId := s.nextId + 1 } (addOp hs (newOp hs (.vector v f (some s.nextId)) (.v d)))
  else .done s (raiseFlags (writeVec hs d v) f)

/-- Gives a scalar result of a vector instruction. -/
def giveScalar (h : Hart) (s : State) (hs : HartState) (d : Dst) (v : Word) (f : FpFlags) (mask : Word) : Issued :=
  if hs.st.vl then
    .done s (addOp hs (newOp hs (if mask = 0 then .scalarF v f else .subnormal mask) (.scalar d)))
  else if mask ≠ 0 then .trap .subn mask
  else
    let (s', hs') := writeDst s h (raiseFlags hs f) d v
    .done s' hs'

/-- What a vector instruction needs: full vector sources, a core, and a place for its variable-latency result. -/
def vecNeed (s : State) (vecs : List (Fin 16)) (fmts : List Fmt) (bank special : Bool) (srcs : List Src) (dsts : List Dst) : Need :=
  let hs := issuer s
  { srcs := srcs, dsts := dsts, vecs := vecs, profile := .coreOnly, place := hs.st.vl || special,
    illenc := fmts.any (badLong hs) || (bank && bankConflict hs (vecs.getD 0 0) (vecs.getD 1 0)) }

/-- Lanes computed one by one, with their flags. -/
def computeLanes (w n : Nat) (g : Nat → Nat × FpFlags) : W2048 × FpFlags :=
  let rs := (List.range n).map g
  (BitVec.ofNat 2048 (laneJoin w (rs.map (·.1))), rs.foldl (fun f r => f.or r.2) {})

/-! Floating-point arithmetic (R148). -/

/-- One rounded lane. -/
def roundLane (f : Fmt) (md : FpMode) (x : FVal × FpFlags) : Nat × FpFlags :=
  let (r, g) := fround f md x.1
  (r, x.2.or g)

/-- A lane-by-lane floating-point instruction over registers `vs`. -/
def floatInstr (d : Fin 16) (vs : List (Fin 16)) (f : Fmt) (rnd : Rnd) (special : Bool) (g : Rnd → List FVal → FVal × FpFlags)
    (rounded : Bool) (s : State) : Result :=
  issue s 8 (vecNeed s vs [f] (decide (1 < vs.length)) special [] []) fun h s hs _ =>
    let n := laneCount hs f
    let md := fpMode hs rnd
    let src (i : Nat) : List Nat := vs.map fun v => laneGet (vecVal hs v) f.width i
    let mask := subnMask hs n fun i => (src i).any (isSubnormal f)
    let lane (i : Nat) : Nat × FpFlags :=
      let r := g md.rnd ((src i).map (foperand f md.flush))
      if rounded then roundLane f md r else (fbits f r.1, r.2)
    let (v, fl) := computeLanes f.width n lane
    giveVec h s hs d v fl mask special

def fl1 (g : FVal → FVal × FpFlags) (_ : Rnd) (xs : List FVal) : FVal × FpFlags := g (xs.getD 0 .nan)
def fl2 (g : Rnd → FVal → FVal → FVal × FpFlags) (r : Rnd) (xs : List FVal) : FVal × FpFlags :=
  g r (xs.getD 0 .nan) (xs.getD 1 .nan)
def fl3 (g : Rnd → FVal → FVal → FVal → FVal × FpFlags) (r : Rnd) (xs : List FVal) : FVal × FpFlags :=
  g r (xs.getD 0 .nan) (xs.getD 1 .nan) (xs.getD 2 .nan)

def execVadd (d a b : Fin 16) (f : FMod) (s : State) : Result :=
  floatInstr d [a, b] f.fmt f.rnd false (fl2 fadd) true s
def execVsub (d a b : Fin 16) (f : FMod) (s : State) : Result :=
  floatInstr d [a, b] f.fmt f.rnd false (fl2 fun r x y => fadd r x (fneg y)) true s
def execVmul (d a b : Fin 16) (f : FMod) (s : State) : Result :=
  floatInstr d [a, b] f.fmt f.rnd false (fl2 fun _ x y => fmul x y) true s
def execVdiv (d a b : Fin 16) (f : FMod) (s : State) : Result :=
  floatInstr d [a, b] f.fmt f.rnd false (fl2 fun _ x y => fdiv x y) true s
def execVmin (d a b : Fin 16) (f : Fmt) (s : State) : Result :=
  floatInstr d [a, b] f .rne false (fl2 fun _ x y => (fmin x y, {})) false s
def execVmax (d a b : Fin 16) (f : Fmt) (s : State) : Result :=
  floatInstr d [a, b] f .rne false (fl2 fun _ x y => (fmax x y, {})) false s
def execVabs (d a : Fin 16) (f : Fmt) (s : State) : Result :=
  floatInstr d [a] f .rne false (fl1 fun x => (fabs x, {})) false s
def execVneg (d a : Fin 16) (f : Fmt) (s : State) : Result :=
  floatInstr d [a] f .rne false (fl1 fun x => (fneg x, {})) false s
def execVsqrt (d a : Fin 16) (f : FMod) (s : State) : Result :=
  floatInstr d [a] f.fmt f.rnd false (fl1 fsqrt) true s
def execVfma (d a b c : Fin 16) (f : FMod) (s : State) : Result :=
  floatInstr d [a, b, c] f.fmt f.rnd false (fl3 ffma) true s
def execVfms (d a b c : Fin 16) (f : FMod) (s : State) : Result :=
  floatInstr d [a, b, c] f.fmt f.rnd false (fl3 fun r x y z => ffma r x y (fneg z)) true s
def execVfnma (d a b c : Fin 16) (f : FMod) (s : State) : Result :=
  floatInstr d [a, b, c] f.fmt f.rnd false (fl3 fun r x y z => ffma r (fneg x) y z) true s
def execVfnms (d a b c : Fin 16) (f : FMod) (s : State) : Result :=
  floatInstr d [a, b, c] f.fmt f.rnd false (fl3 fun r x y z => ffma r (fneg x) y (fneg z)) true s

/-! Special functions (R159, R160). A value the interval arithmetic cannot settle is free. -/

/-- A number of its own for every finite operand of the four formats. -/
def valueKey : FVal → Nat
  | .fin n m e => (m * 16384 + e.natAbs % 4096 * 4) + (if e < 0 then 2 else 0) + (if n then 1 else 0)
  | _ => 0

/-- A special function whose exact value may stay unsettled; `k` is the function's number. -/
def specialFn (k : Nat) (g : FVal → Option FVal × FpFlags) (x : FVal) : FVal × FpFlags :=
  let (v, f) := g x
  (v.getD (.fin false (Config.freeNat (3 * valueKey x + k)) 0), f)

def specialInstr (d a : Fin 16) (f : FMod) (g : FVal → FVal × FpFlags) (s : State) : Result :=
  floatInstr d [a] f.fmt f.rnd true (fl1 g) true s

def execVexp2 (d a : Fin 16) (f : FMod) (s : State) : Result := specialInstr d a f (specialFn 0 fexp2) s
def execVlog2 (d a : Fin 16) (f : FMod) (s : State) : Result := specialInstr d a f (specialFn 1 flog2) s
def execVrcp (d a : Fin 16) (f : FMod) (s : State) : Result := specialInstr d a f frcp s
def execVrsq (d a : Fin 16) (f : FMod) (s : State) : Result := specialInstr d a f frsq s
def execVtanh (d a : Fin 16) (f : FMod) (s : State) : Result := specialInstr d a f (specialFn 2 ftanh) s

/-! Integer and logic (R149). -/

/-- A lane-by-lane instruction on patterns of two registers. -/
def bitsInstr (d a b : Fin 16) (f : Fmt) (g : Nat → Nat → Nat) (s : State) : Result :=
  issue s 8 (vecNeed s [a, b] [f] true false [] []) fun h s hs _ =>
    let va := vecVal hs a
    let vb := vecVal hs b
    let v := lanesOf f.width (laneCount hs f) fun i => g (laneGet va f.width i) (laneGet vb f.width i)
    giveVec h s hs d v {} 0 false

/-- Clamps to the range of an integer format (sat_s, sat_n of R39). -/
def saturate (f : Fmt) (x : Int) : Nat :=
  let (lo, hi) := intRange f
  intBits f.width (max lo (min hi x))

def execViadd (d a b : Fin 16) (f : Fmt) (s : State) : Result := bitsInstr d a b f (fun x y => x + y) s
def execVisub (d a b : Fin 16) (f : Fmt) (s : State) : Result := bitsInstr d a b f (fun x y => x + (2 ^ f.width - y)) s
def execVimul (d a b : Fin 16) (f : Fmt) (s : State) : Result := bitsInstr d a b f (fun x y => x * y) s
def execVand (d a b : Fin 16) (f : Fmt) (s : State) : Result := bitsInstr d a b f (fun x y => x &&& y) s
def execVor (d a b : Fin 16) (f : Fmt) (s : State) : Result := bitsInstr d a b f (fun x y => x ||| y) s
def execVxor (d a b : Fin 16) (f : Fmt) (s : State) : Result := bitsInstr d a b f (fun x y => x ^^^ y) s
def execVshl (d a b : Fin 16) (f : Fmt) (s : State) : Result := bitsInstr d a b f (fun x y => x * 2 ^ (y % f.width)) s
def execVshr (d a b : Fin 16) (f : Fmt) (s : State) : Result := bitsInstr d a b f (fun x y => x / 2 ^ (y % f.width)) s

/-- The signed value of an `n`-bit pattern. -/
def signedLane (n x : Nat) : Int := if x < 2 ^ (n - 1) then x else (x : Int) - 2 ^ n

def execVsar (d a b : Fin 16) (f : Fmt) (s : State) : Result :=
  bitsInstr d a b f (fun x y => intBits f.width (signedLane f.width x / 2 ^ (y % f.width))) s
def execViadds (d a b : Fin 16) (f : Fmt) (s : State) : Result :=
  bitsInstr d a b f (fun x y => saturate f (intOf f x + intOf f y)) s

/-! Compares, select and lane movement (R150, R151). -/

def compareInstr (d a b : Fin 16) (f : Fmt) (fg : FVal → FVal → Bool) (ig : Int → Int → Bool) (s : State) : Result :=
  issue s 8 (vecNeed s [a, b] [f] true false [] []) fun h s hs _ =>
    let va := vecVal hs a
    let vb := vecVal hs b
    let n := laneCount hs f
    let get (v : W2048) (i : Nat) : Nat := laneGet v f.width i
    let rel (i : Nat) : Bool :=
      if f.isInt then ig (intOf f (get va i)) (intOf f (get vb i))
      else fg (foperand f hs.fp.subn (get va i)) (foperand f hs.fp.subn (get vb i))
    let mask := if f.isInt then 0 else subnMask hs n fun i => isSubnormal f (get va i) || isSubnormal f (get vb i)
    giveVec h s hs d (lanesOf f.width n fun i => if rel i then 2 ^ f.width - 1 else 0) {} mask false

def execVcmpeq (d a b : Fin 16) (f : Fmt) (s : State) : Result := compareInstr d a b f feq (fun x y => decide (x = y)) s
def execVcmplt (d a b : Fin 16) (f : Fmt) (s : State) : Result := compareInstr d a b f flt (fun x y => decide (x < y)) s
def execVcmple (d a b : Fin 16) (f : Fmt) (s : State) : Result := compareInstr d a b f fle (fun x y => decide (x ≤ y)) s

def execVsel (d a b c : Fin 16) (f : Fmt) (s : State) : Result :=
  issue s 8 (vecNeed s [a, b, c] [f] true false [] []) fun h s hs _ =>
    let va := vecVal hs a
    let vb := vecVal hs b
    let vc := vecVal hs c
    let v := lanesOf f.width (laneCount hs f) fun i =>
      if laneGet vc f.width i ≠ 0 then laneGet va f.width i else laneGet vb f.width i
    giveVec h s hs d v {} 0 false

def execVperm (d a b : Fin 16) (f : Fmt) (s : State) : Result :=
  issue s 8 (vecNeed s [a, b] [f] true false [] []) fun h s hs _ =>
    let va := vecVal hs a
    let vb := vecVal hs b
    let n := laneCount hs f
    let v := lanesOf f.width n fun i =>
      let j := laneGet vb f.width i
      if j < n then laneGet va f.width j else 0
    giveVec h s hs d v {} 0 false

def execVbcast (d : Fin 16) (a : Src) (f : Fmt) (s : State) : Result :=
  issue s 8 (vecNeed s [] [f] false false [a] []) fun h s hs vals =>
    giveVec h s hs d (lanesOf f.width (laneCount hs f) fun _ => (vals.getD 0 0).toNat) {} 0 false

/-- A lane pattern as a scalar result: S formats extend the sign (R151, R152). -/
def laneWord (f : Fmt) (x : Nat) : Word := if f.isSigned then sext f.width x else BitVec.ofNat 64 x

/-- A lane index that the mode and format do not have is ILLENC (R146). -/
def badLane (s : State) (f : Fmt) (lane : BitVec 8) : Bool := decide (laneCount (issuer s) f ≤ lane.toNat)

def execVext (d : Dst) (a : Fin 16) (lane : BitVec 8) (f : Fmt) (s : State) : Result :=
  let n := vecNeed s [a] [f] false false [] [d]
  issue s 8 { n with illenc := n.illenc || badLane s f lane } fun h s hs _ =>
    giveScalar h s hs d (laneWord f (laneGet (vecVal hs a) f.width lane.toNat)) {} 0

def execVins (d a : Fin 16) (b : Src) (lane : BitVec 8) (f : Fmt) (s : State) : Result :=
  let n := vecNeed s [a] [f] false false [b] []
  issue s 8 { n with illenc := n.illenc || badLane s f lane } fun h s hs vals =>
    let va := vecVal hs a
    let v := lanesOf f.width (laneCount hs f) fun i =>
      if i = lane.toNat then (vals.getD 0 0).toNat else laneGet va f.width i
    giveVec h s hs d v {} 0 false

/-! Reductions within a register (R152). -/

/-- Float VRSUM: the tree of R77. -/
def floatSum (f : Fmt) (md : FpMode) (xs : List Nat) : Nat × FpFlags :=
  if f = .f32 || f = .f64 then
    let (v, g) := pairsum f md.flush (xs.map (foperand f md.flush))
    (fbits f v, g)
  else
    let (v, g) := pairsum .f32 md.flush (xs.map (foperand f md.flush))
    roundLane f md (v, g)

def execVrsum (d : Dst) (a : Fin 16) (f : FMod) (s : State) : Result :=
  issue s 8 (vecNeed s [a] [f.fmt] false false [] [d]) fun h s hs _ =>
    let n := laneCount hs f.fmt
    let xs := lanesTo (vecVal hs a) f.fmt.width n
    if f.fmt.isInt then giveScalar h s hs d (laneWord f.fmt (xs.sum % 2 ^ f.fmt.width)) {} 0
    else
      let (v, g) := floatSum f.fmt (fpMode hs f.rnd) xs
      giveScalar h s hs d (BitVec.ofNat 64 v) g (subnMask hs n fun i => isSubnormal f.fmt (xs.getD i 0))

/-- The smallest or largest of a list by a two-argument choice. -/
def foldChoice {α : Type} (g : α → α → α) : List α → Option α
  | [] => none
  | x :: rest => some (rest.foldl g x)

def extremeInstr (d : Dst) (a : Fin 16) (f : Fmt) (fg : FVal → FVal → FVal) (ig : Int → Int → Int) (s : State) : Result :=
  issue s 8 (vecNeed s [a] [f] false false [] [d]) fun h s hs _ =>
    let n := laneCount hs f
    let xs := lanesTo (vecVal hs a) f.width n
    if f.isInt then
      giveScalar h s hs d (laneWord f (intBits f.width ((foldChoice ig (xs.map (intOf f))).getD 0))) {} 0
    else
      let v := (foldChoice fg (xs.map (foperand f hs.fp.subn))).getD .nan
      giveScalar h s hs d (BitVec.ofNat 64 (fbits f v)) {} (subnMask hs n fun i => isSubnormal f (xs.getD i 0))

def execVrmin (d : Dst) (a : Fin 16) (f : Fmt) (s : State) : Result := extremeInstr d a f fmin min s
def execVrmax (d : Dst) (a : Fin 16) (f : Fmt) (s : State) : Result := extremeInstr d a f fmax max s

/-! Conversions (R153, R154). -/

def execVcvt (d a : Fin 16) (f : FMod) (src : Fmt) (s : State) : Result :=
  issue s 8 (vecNeed s [a] [f.fmt, src] false false [] []) fun h s hs _ =>
    let n := regBits hs / max src.width f.fmt.width
    let va := vecVal hs a
    let (v, g) := computeLanes f.fmt.width n fun i => convert src f.fmt (fpMode hs f.rnd) (laneGet va src.width i)
    giveVec h s hs d v g (subnMask hs n fun i => isSubnormal src (laneGet va src.width i)) false

def execVnarrow (d a b : Fin 16) (f : FMod) (src : Fmt) (s : State) : Result :=
  issue s 8 (vecNeed s [a, b] [f.fmt, src] true false [] []) fun h s hs _ =>
    let n := regBits hs / src.width
    let va := vecVal hs a
    let vb := vecVal hs b
    let lane (i : Nat) : Nat := if i < n then laneGet va src.width i else laneGet vb src.width (i - n)
    let (v, g) := computeLanes f.fmt.width (2 * n) fun i => convert src f.fmt (fpMode hs f.rnd) (lane i)
    giveVec h s hs d v g (subnMask hs (2 * n) fun i => isSubnormal src (lane i)) false

/-! Self-describing blocks (R70 to R74). -/

/-- What a block code names (R71): element format, element count, and the codebook set of a C4 block. -/
structure BlockCode where
  fmt : Fmt
  count : Nat
  set : Nat
  deriving DecidableEq, Repr

/-- A listed code other than 0x00. -/
def blockCode (code : Nat) : Option BlockCode :=
  if code = 0x10 then some ⟨.b16, 31, 0⟩
  else if code = 0x11 then some ⟨.h16, 31, 0⟩
  else if code = 0x20 then some ⟨.f8a, 62, 0⟩
  else if code = 0x21 then some ⟨.f8b, 62, 0⟩
  else if code = 0x30 then some ⟨.f6, 82, 0⟩
  else if 0x40 ≤ code ∧ code ≤ 0x43 then some ⟨.c4, 124, code - 0x40⟩
  else none

/-- The pattern of element `i` in a block as one number. -/
def blockElement (b : Nat) (c : BlockCode) (i : Nat) : Nat :=
  let w := match c.fmt with
    | .f6 => 6
    | .c4 => 4
    | f => f.width
  b / 2 ^ (16 + w * i) % 2 ^ w

/-- The entry of a code in a codebook set, as a B16 pattern (R70). -/
def bookEntry (books : List (BitVec 256)) (set code : Nat) : Nat := ((books.getD set 0).extractLsb' (16 * code) 16).toNat

/-- The exact value of a pattern of a block or tile format. -/
def elementValue (f : Fmt) (books : List (BitVec 256)) (set x : Nat) : FVal :=
  if f = .c4 then fdecode .b16 (bookEntry books set x) else fdecode f x

/-- A value times a power of two. -/
def scaleBy (v : FVal) (k : Int) : FVal :=
  match v with
  | .fin n m e => .fin n m (e + k)
  | v => v

/-- The checks of R72 on a block, as one number of 64 bytes. -/
def blockCheck (b : Nat) : Option Cause :=
  if b / 256 % 256 = 255 then some .poison
  else if b % 256 = 0 || (blockCode (b % 256)).isSome then none
  else some .blkfmt

/-- VBDEC: `n` F32 lanes from element `e0` (R155). -/
def decodeBlock (b : Nat) (books : List (BitVec 256)) (flush : Bool) (e0 : Word) (n : Nat) : W2048 × FpFlags :=
  match blockCode (b % 256) with
  | none => (0, {})
  | some c => computeLanes 32 n fun i =>
    let e := e0.toNat + i
    if c.count ≤ e then (0, {})
    else fround .f32 ⟨.rne, flush⟩
      (scaleBy (elementValue c.fmt books c.set (blockElement b c e)) ((b / 256 % 256 : Int) - 127))

/-- The descriptor of VBENC is legal (R156). -/
def encodeDescOk (desc : Word) : Bool :=
  desc.extractLsb' 23 41 == 0 && [0x00, 0x10, 0x11, 0x20, 0x21, 0x30].contains (desc.toNat % 256)

/-- Replaces `w` bits of a number at bit `k`. -/
def putBits (x k w v : Nat) : Nat := x - (x / 2 ^ k % 2 ^ w) * 2 ^ k + (v % 2 ^ w) * 2 ^ k

/-- VBENC: the new block and its flags (R156). -/
def encodeBlock (old : Nat) (desc : Word) (lanes : W2048) (n : Nat) (md : FpMode) : Nat × FpFlags :=
  let code := desc.toNat % 256
  let sc := desc.toNat / 256 % 256
  let e0 := desc.toNat / 65536 % 128
  if code = 0 || sc = 255 then (code + 256 * sc, {})
  else match blockCode code with
    | none => (code + 256 * sc, {})
    | some c =>
      let w := if c.fmt = .f6 then 6 else c.fmt.width
      let start := putBits (putBits old 0 8 code) 8 8 sc
      let (b, g) := (List.range n).foldl (fun (acc : Nat × FpFlags) i =>
        if e0 + i < c.count then
          let (x, f) := fround c.fmt md (scaleBy (foperand .f32 md.flush (laneGet lanes 32 i)) (127 - (sc : Int)))
          (putBits acc.1 (16 + w * (e0 + i)) w x, acc.2.or f)
        else acc) (start, {})
      (if code = 0x30 then putBits b (16 + 492) 4 0 else b, g)

/-- The destination register of a vector load by mode. -/
def vecDest (hs : HartState) (d : Fin 16) : Dest := if hs.st.vl then .w d else .v d

def execVbdec (d : Fin 16) (base elem : Src) (disp : BitVec 16) (s : State) : Result :=
  issue s 8 { srcs := [base, elem], profile := .coreOnly, place := true } fun h s hs vals =>
    holdUp s h hs [.books] <|
      let va := vals.getD 0 0 + disp.signExtend 64
      issueMem h s hs (checkAlign (memOp hs (.vbdec (vals.getD 1 0) hs.fp.subn (coreOf s (ownCore h)).books) (vecDest hs d)
        ⟨.rlx, .strand⟩ [⟨va, 64, .read, none⟩]) va 64)

/-- The subnormal lanes that VBENC uses under a legal descriptor (R67, R156). -/
def blockMask (hs : HartState) (c : Fin 16) (dw : Word) : Word :=
  if encodeDescOk dw then subnMask hs (laneCount hs .f32) fun i =>
    (match blockCode (dw.toNat % 256) with
      | some k => dw.toNat / 256 % 256 != 255 && decide (dw.toNat / 65536 % 128 + i < k.count)
      | none => false) && isSubnormal .f32 (laneGet (vecVal hs c) 32 i)
  else 0

def execVbenc (base desc : Src) (c : Fin 16) (disp : BitVec 16) (r : Rnd) (s : State) : Result :=
  issue s 8 { srcs := [base, desc], vecs := [c], profile := .coreOnly } fun h s hs vals =>
    let va := vals.getD 0 0 + disp.signExtend 64
    let dw := vals.getD 1 0
    let mask := blockMask hs c dw
    if mask ≠ 0 && !hs.st.vl then .trap .subn mask
    else
      let op := asStore (memOp hs (.vbenc dw (vecVal hs c) hs.st.vl (fpMode hs r)) .none ⟨.rlx, .strand⟩ [⟨va, 64, .write, none⟩])
      if mask ≠ 0 then issueMem h s hs { op with phase := .found .subn mask }
      else issueMem h s hs (checkAlign op va 64)

/-! Vector memory (R157, R158). -/

/-- A register as bytes. -/
def vecBytes (hs : HartState) (r : Fin 16) : List Byte := leBytes (regBits hs / 8) (vecVal hs r).toNat

def execVld (d : Fin 16) (base : Src) (disp : Disp) (m : MemMod) (s : State) : Result :=
  issue s (dispSize disp) { srcs := [base], profile := .coreOnly, place := true } fun h s hs vals =>
    let va := vals.getD 0 0 + dispValue disp
    issueMem h s hs (checkAlign (memOp hs .vload (vecDest hs d) m (spansOf va (regBits hs / 8) .read)) va 32)

def execVst (base : Src) (b : Fin 16) (disp : Disp) (m : MemMod) (s : State) : Result :=
  issue s (dispSize disp) { srcs := [base], vecs := [b], profile := .coreOnly } fun h s hs vals =>
    let va := vals.getD 0 0 + dispValue disp
    let spans := spansOf va (regBits hs / 8) .write
    issueMem h s hs (checkAlign (asStore (memOp hs (.store (splitBytes spans (vecBytes hs b))) .none m spans)) va 32)

/-- The lanes' pieces of a gather or scatter: a misaligned lane is a piece of no byte, which faults MALIGN in its turn. -/
def laneSpans (hs : HartState) (base : Word) (b : Fin 16) (w : Fin 3) (r : Right) : List Span :=
  let bits := 16 * 2 ^ w.val
  (lanesTo (vecVal hs b) bits (regBits hs / bits)).map fun x =>
    let va := base + sext bits x
    ⟨va, if aligned va (bits / 8) then bits / 8 else 0, r, none⟩

def execVgath (d : Fin 16) (base : Src) (b : Fin 16) (w : Fin 3) (m : MemMod) (s : State) : Result :=
  issue s 8 { srcs := [base], vecs := [b], profile := .coreOnly, place := true } fun h s hs vals =>
    issueMem h s hs (memOp hs .vgather (vecDest hs d) m (laneSpans hs (vals.getD 0 0) b w .read))

def execVscat (base : Src) (b c : Fin 16) (w : Fin 3) (m : MemMod) (s : State) : Result :=
  issue s 8 { srcs := [base], vecs := [b, c], profile := .coreOnly } fun h s hs vals =>
    let bits := 16 * 2 ^ w.val
    let data := (lanesTo (vecVal hs c) bits (regBits hs / bits)).map fun x => leBytes (bits / 8) x
    issueMem h s hs (asStore (memOp hs (.store data) .none m (laneSpans hs (vals.getD 0 0) b w .write)))

/-! Vector RNG (R161). -/

def rngInstr (d : Fin 16) (key ctr : Src) (f : Fmt) (g : Word → Word → Nat) (s : State) : Result :=
  issue s 8 (vecNeed s [] [f] false false [key, ctr] []) fun h s hs vals =>
    let v := lanesOf f.width (laneCount hs f) fun i => g (vals.getD 0 0) (vals.getD 1 0 + BitVec.ofNat 64 i)
    giveVec h s hs d v {} 0 false

def execVrng (d : Fin 16) (key ctr : Src) (s : State) : Result := rngInstr d key ctr .n64 (fun k c => (rngMix k c).toNat) s
def execVrngf32 (d : Fin 16) (key ctr : Src) (s : State) : Result := rngInstr d key ctr .n32 (fun k c => (rngF32 k c).toNat) s
def execVrngf64 (d : Fin 16) (key ctr : Src) (s : State) : Result := rngInstr d key ctr .f64 (fun k c => (rngF64 k c).toNat) s

/-! Vector mode (R162, R163). -/

/-- Long contexts in use in a cluster. A restored strand of long mode that waits has none yet (R164). -/
def longUsed (s : State) (g : Nat) : Nat :=
  (s.harts.filter fun x => match x.1 with
    | .strand c _ => coreCluster c == g && x.2.st.vl && !s.longWait.contains x.2.id.uid
    | .engine _ => false).length

/-- The waiting strands of a cluster, oldest first. -/
def longWaiters (s : State) (g : Nat) : List Nat :=
  s.longWait.filter fun u => match hartByUid s u with
    | some (.strand c _, _) => coreCluster c == g
    | _ => false

/-- A strand may take a long context now: one is free, and nobody asked before it. -/
def mayTakeLong (s : State) (g uid : Nat) : Bool :=
  decide (longUsed s g < 16) && ((longWaiters s g).head?.getD uid == uid)

/-- w0 to w15 zero and full (R162). -/
def enterLong (hs : HartState) : HartState :=
  { hs with st := { hs.st with vl := true }, regs := { hs.regs with w := Vector.replicate 16 ⟨0, true⟩ } }

def execVmodeL (s : State) : Result :=
  issue s 8 { profile := .coreOnly } fun h s hs _ =>
    let g := coreCluster (ownCore h)
    if !drained hs then .park .before
    else if hs.st.vl then .done s (enterLong hs)
    else if mayTakeLong s g hs.id.uid then
      .done (leaveLong s hs.id.uid) (enterLong hs)
    else .final (parked { s with longWait := addNewNat s.longWait hs.id.uid } h hs .longContext none)
where
  addNewNat (l : List Nat) (x : Nat) : List Nat := if l.contains x then l else l ++ [x]

def execVmodeS (s : State) : Result :=
  issue s 8 { profile := .coreOnly } fun _ s hs _ =>
    if !drained hs then .park .before
    else .done s { hs with st := { hs.st with vl := false }, regs := { hs.regs with w := Vector.replicate 16 ⟨0, true⟩ } }

/-- LONG_CONTEXT_GRANT: the oldest waiting strand of a cluster becomes ready when a context is free (R162); a restored strand of long
mode takes it (R164). -/
def execLongContextGrant (gcluster : Nat) (s : State) : Result :=
  match (longWaiters s gcluster).head? with
  | none => .next s
  | some u => match hartByUid s u with
    | some (h, hs) =>
      if 16 ≤ longUsed s gcluster then .next s
      else if hs.st.vl then .next (leaveLong s u)
      else .next (parked s h hs .ready none)
    | none => .next s

end Sys2Proof.Machine
end

