-- ==== Sys2Proof/Machine/Access.lean ====
section
/-!
DEFINITION. How accesses are performed: the order a strand's accesses keep (R29, R32, R118, R119, R248, R259 to R262), acceptance of
stores, and loads, stores and atomics at cores, homes and windows (R109 to R113, R122, R224, R236).
-/

namespace Sys2Proof.Machine

/-! Order. -/

/-- NBARR and NBWAIT, which release and acquire at cluster scope (R219). -/
def Op.isNamed : Op → Bool
  | .nbArrive _ _ _ | .nbWait _ _ _ => true
  | _ => false

/-- An access to memory or a window, or to a named barrier. -/
def Pending.isAccess (p : Pending) : Bool := !p.spans.isEmpty || p.op.isNamed

/-- Stores whose acceptance ends them for their strand, and cache maintenance (R107, R120). -/
def Op.buffered : Op → Bool
  | .store _ | .saveImage _ _ | .storeNone | .storeBits _ _ _ | .vbenc _ _ _ _ | .redDecl _ | .barInit _ | .decOpen _ | .cflush | .cinval => true
  | _ => false

/-- An acquire part wider than strand scope (R248). A PROPOSE or DREAD that finds the cell decided acquires at the winner's scope, whatever
its own (R251). -/
def Pending.acquires (p : Pending) : Bool :=
  match p.op with
  | .propose _ _ | .decRead _ => true
  | _ => p.mod.scope != .strand && (p.mod.order == .acq || p.mod.order == .ar || (p.mod.order == .sc && !p.store))
/-- The order asks for a release wider than strand scope (R248). -/
def Pending.relOrder (p : Pending) : Bool :=
  p.mod.scope != .strand && (p.mod.order == .rel || p.mod.order == .ar || (p.mod.order == .sc && (p.store || p.op.isRmw)))
/-- An event with a release part. ST.z is on no location: its release is the effect of FNC.rel (R261). -/
def Pending.releases (p : Pending) : Bool := p.op != .storeNone && p.relOrder
def Pending.isSc (p : Pending) : Bool := p.mod.order == .sc

/-- Has the effect of FNC.rel (R118, R248, R261): FNC itself, TDECL and TUNDECL, an ST.z or MCMD with a release part (R306), and a CAS with
one, which may turn out to store nothing. -/
def Pending.relFence (p : Pending) : Bool :=
  match p.op with
  | .fence => p.mod.order != .acq
  | .tdecl _ | .tundecl => p.mod.scope != .strand
  | .storeNone | .mcmd _ _ _ | .atomic .cas _ _ => p.relOrder
  | _ => false

/-- The operations before one in program order. -/
def before (hs : HartState) (seq : Nat) : List Pending := hs.run.ops.takeWhile fun q => decide (q.seq < seq)

/-- Every earlier access is performed and every earlier store visible: what an FNC.rel at a place of program order waits for (R118).
`stores` are the strand's invisible stores. -/
def relDone (stores : List Accepted) (hs : HartState) (seq : Nat) : Bool :=
  ((before hs seq).all fun q => !q.isAccess || outOfWay hs q) && stores.all fun a => decide (seq < a.p.seq)

/-- A fence holds later accesses back no longer (R118, R119). -/
def fenceDone (stores : List Accepted) (hs : HartState) (f : Pending) : Bool :=
  match f.op with
  | .fenceLight => (before hs f.seq).all fun q => !q.isAccess || outOfWay hs q
  | .fence =>
    (!(f.mod.order == .acq || f.mod.order == .ar) ||
      (before hs f.seq).all fun q => !q.isAccess || outOfWay hs q || (q.store && !q.op.isRmw)) &&
      (f.mod.order == .acq || relDone stores hs f.seq)
  | _ => true

/-- A fence orders a later access: an acquire fence every one, a release fence what writes, FNC.LT every one. The fence an ST.z of SC order
leaves behind keeps its place among the SC events too (R261). -/
def fenceHolds (f p : Pending) : Bool :=
  match f.op with
  | .fenceLight => true
  | .fence => f.mod.order == .acq || f.mod.order == .ar || p.writes || (f.isSc && p.isSc)
  | _ => false

/-! What an operation touches. -/

/-- The 64-byte pieces of a reduction cell, each within a stripe (R125, R347). -/
def redSpans (s : State) (m : Nat) (desc : Word) (x : Span) : List Span :=
  (List.range ((redSize desc + 63) / 64)).map fun k =>
    { x with
      va := x.va + BitVec.ofNat 64 (64 * k)
      len := min 64 (redSize desc - 64 * k)
      at_ := x.at_.map fun a => { a with pa := placedAt s m a (64 * k), off := a.off + 64 * k } }

/-- The header of a declared cell: slot count and format (R124). -/
def cellHeader (m : List Host.Cell) (pa : Nat) : Option (Nat × Fmt) :=
  let w := memWord m pa
  if w.getLsbD 63 then some (w.toNat % 512, if w.getLsbD 9 then .f64 else .f32) else none

/-- The byte of a cell at which a slot lies (R124). -/
def slotOffset (f : Fmt) (i : Nat) : Nat := 64 + i * (f.width / 8)

/-- The descriptor of a cell. -/
def cellDesc (n : Nat) (f : Fmt) : Word := BitVec.ofNat 64 n ||| (if f = .f64 then 512 else 0)

/-- Some bytes of a cell. -/
def cellSpan (s : State) (m : Nat) (x : Span) (off len : Nat) : Span :=
  { x with
    va := x.va + BitVec.ofNat 64 off
    len := len
    at_ := x.at_.map fun a => { a with pa := placedAt s m a off, off := a.off + off } }

/-- The pieces of a range of virtual addresses, one for each page or stripe, with the places that the page tables give them now. From a page that
does not translate on, the rest has none. `fuel` bounds the pieces. -/
def rangeSpans (s : State) (h : Hart) (by_ : Poster) (r : Right) : (fuel : Nat) → (va : Word) → (len : Nat) → List Span
  | 0, _, _ => []
  | k + 1, va, len =>
    if len = 0 then []
    else match translate s h by_.ptbr by_.priv va r with
      | .error _ => [⟨va, len, r, none⟩]
      | .ok a =>
        let n := min len (if a.stripe = 0 then 2 ^ a.size - a.off else 256 - a.off % 256)
        ⟨va, n, r, some a⟩ :: rangeSpans s h by_ r k (va + BitVec.ofNat 64 n) (len - n)

/-- The bytes that a copy has yet to read and to write, and the objects it arrives on (R209, R210, R131). -/
def copyTouched (s : State) (h : Hart) (p : Pending) : List Span :=
  let run (va : Word) (len : Nat) (r : Right) : List Span := rangeSpans s h p.by_ r len va len
  match p.op with
  | .bcopy dst src len bar sent _ =>
    run (src + BitVec.ofNat 64 sent) (len.toNat - sent) .read ++ run (dst + BitVec.ofNat 64 sent) (len.toNat - sent) .write ++
      match bar with
      | some b => run b 16 .both
      | none => []
  | .bcast src len doff boff ben cores sent _ =>
    run (src + BitVec.ofNat 64 sent) (len.toNat - sent) .read ++
      (cores.map fun c => windowSpan (windowPa c 0 (doff + sent)) (len.toNat - sent) .write) ++
      if ben then cores.map fun c => windowSpan (windowPa c 0 boff) 16 .both else []
  | _ => []

/-- The bytes an operation touches: its pieces; of an operation on a reduction cell, its header and slots as the header has them now (R124 to R127);
of a TPOST, the record (R211); of a bulk copy, what is still to be done. -/
def touched (s : State) (h : Hart) (p : Pending) : List Span :=
  let m := hartModule h
  match p.op, p.spans.head? with
  | .redDecl desc, some x => redSpans s m desc x
  | .redAdd slot _, some x =>
    let slotAs (f : Fmt) : Span := cellSpan s m x (slotOffset f slot.toNat) (f.width / 8)
    cellSpan s m x 0 8 :: match x.at_.bind fun a => cellHeader s.mem a.pa with
      | some (_, f) => [slotAs f]
      | none => [slotAs .f32, slotAs .f64]
  | .redRead _, some x =>
    cellSpan s m x 0 8 :: match x.at_.bind fun a => cellHeader s.mem a.pa with
      | some (n, f) => (redSpans s m (cellDesc n f) x).tail
      | none => []
  | .tpost, some x => [{ x with len := 64 }]
  | .bcopy .., _ | .bcast .., _ => copyTouched s h p
  | _, _ => p.spans

/-- The cores whose windows some pieces lie in. -/
def spanCores (l : List Span) : List Nat :=
  l.filterMap fun x => x.at_.bind fun a => if isWindow a.pa then some (windowParts a.pa).1 else none

/-- Two operations of a hart touch a common byte (R255, R259). -/
def sharesByte (s : State) (h : Hart) (p q : Pending) : Bool := (touched s h p).any fun a => (touched s h q).any fun b => a.overlaps b

/-- Two operations of a hart touch windows of one core (R262). -/
def sameWindow (s : State) (h : Hart) (p q : Pending) : Bool :=
  (spanCores (touched s h p)).any fun c => (spanCores (touched s h q)).contains c

/-- BARV and BWAIT of one strand may arrive at one object in either order (R266). -/
def eitherOrder (p q : Pending) : Bool :=
  match p.op, q.op with
  | .barArrive _, .barWait _ | .barWait _, .barArrive _ => p.overlaps q
  | _, _ => false

/-- A PUT or RED.ADD may still fail where it is performed, or its acknowledgement is still to come: no later store is seen before (R32, R126,
R348). -/
def Pending.mayFail (q : Pending) : Bool := q.op.heldStore && (q.remote || q.phase == .request)

/-- The orders of an earlier operation and a fence keep a later operation from being performed, or from becoming visible. Where an earlier access
has no place yet, it may name any. -/
def orders (stores : List Accepted) (hs : HartState) (q p : Pending) : Bool :=
  if q.op.isFence then fenceHolds q p && !fenceDone stores hs q
  else (q.relFence && !outOfWay hs q && (p.writes || (q.isSc && p.isSc)) && !relDone stores hs q.seq) ||
    (!outOfWay hs q && q.isAccess && (!q.placed || (q.mayFail && p.store) || q.acquires || p.releases || (q.isSc && p.isSc)))

/-- An earlier operation keeps a later one of the same bytes or the same core's windows waiting (R255, R262). A store that has found a fault, or waits
to be executed again, keeps what overlaps it until its replay (R32). -/
def shares (s : State) (h : Hart) (hs : HartState) (q p : Pending) : Bool :=
  if outOfWay hs q then !q.isDone && q.store && sharesByte s h q p
  else q.isAccess && !eitherOrder q p && (sharesByte s h q p || sameWindow s h q p)

/-- An earlier operation keeps a later one from being performed, or from becoming visible. -/
def blocks (s : State) (h : Hart) (stores : List Accepted) (hs : HartState) (q p : Pending) : Bool :=
  orders stores hs q p || (!q.op.isFence && shares s h hs q p)

/-- An access writes a byte of the scratchpad that an earlier MMAU of the strand still has to read (R185). -/
def unfoldHolds (s : State) (core : Option Nat) (uid : Nat) (p : Pending) : Bool :=
  let reads (c : Nat) (e : MxEntry) : Bool := e.uid == uid && decide (e.at_ ≤ p.seq) && match e.op with
    | .mmau _ _ _ f es _ => p.onScratch c (es.filterMap fun x => x.off.map fun o => (o, elemSize f))
    | _ => false
  match core with
  | some c => p.writes && p.op != .take && ((coreOf s c).queue.any (reads c) || (coreOf s c).frozen.any fun f => f.entries.any (reads c))
  | none => false

/-- The ordering rules let an operation be performed. `home` tells that it is performed where no store of its own strand can
be forwarded to it. Nor is one forwarded to an SC access, whose place among the SC events the others see (R257). -/
def mayPerform (s : State) (h : Hart) (hs : HartState) (p : Pending) (home : Bool) : Bool :=
  let st := invisibleBefore s hs.id.uid p.seq
  p.placed && (!p.op.heldStore || p.accepted) && !((before hs p.seq).any fun q => blocks s h st hs q p || (p.remote && q.remote && !outOfWay hs q)) &&
    (!p.releases || st.isEmpty) && (!p.isSc || !st.any fun a => a.p.isSc) &&
    !((home || p.isSc) && st.any fun a => sharesByte s h a.p p) && !(st.any fun a => sameWindow s h a.p p) && !unfoldHolds s (hartCore h) hs.id.uid p

/-- A store may be accepted: it is translated, and every earlier store is accepted (R29, R32). -/
def mayAccept (hs : HartState) (p : Pending) : Bool :=
  p.placed && (before hs p.seq).all fun q => !q.store || q.accepted

/-- Cache maintenance acts behind what the strand's program order puts before it: every earlier store to its grain is visible, and no fence or
order holds it back (R118, R120). -/
def mayFlush (s : State) (h : Hart) (hs : HartState) (p : Pending) : Bool :=
  let st := invisibleBefore s hs.id.uid p.seq
  let mine := p.spans.flatMap fun x => (x.at_.map fun a => unitsOf s a.pa x.len a.grain).getD []
  let touches (q : Pending) : Bool := (touched s h q).any fun x => x.at_.any fun a => (unitsOf s a.pa x.len a.grain).any (mine.contains ·)
  mayAccept hs p && !((before hs p.seq).any fun q => blocks s h st hs q p || (q.store && !outOfWay hs q && touches q)) &&
    !(st.any fun b => touches b.p)

/-- What the strand's program order puts before an accepted store lets it go to its target (R248, R255, R262), and for a release every earlier store
is visible. `there` tells which of the earlier stores have gone to the same core, and keep it waiting no more. -/
def mayGo (s : State) (there : Accepted → Bool) (a : Accepted) : Bool :=
  let st := invisibleBefore s a.uid a.p.seq
  !a.performed && !(st.any fun b => a.p.releases || (b.p.isSc && a.p.isSc) ||
      (!there b && (sharesByte s a.hart b.p a.p || sameWindow s a.hart b.p a.p))) &&
    !unfoldHolds s a.core a.uid a.p && match hartByUid s a.uid with
      | some (_, hs) => !(before hs a.p.seq).any fun q => blocks s a.hart st hs q a.p
      | none => true

/-- An accepted store may become visible. -/
def mayShow (s : State) (a : Accepted) : Bool := mayGo s (fun _ => false) a

/-- Removes the fences that hold nothing back any more. -/
def pruneFences (s : State) (hs : HartState) : HartState :=
  let st := invisible s hs.id.uid
  { hs with run := { hs.run with ops := hs.run.ops.filter fun q => !(q.op.isFence && fenceDone st hs q) } }

/-! Where an access goes. -/

/-- Never cached in a core: policy UC, memory of another module, an engine's access (R224, R225, R206). -/
def uncached (h : Hart) (p : Placed) : Bool :=
  isEngine h || p.pol == 2 || paModule p.pa != hartModule h

def anyPlaced (p : Pending) (f : Placed → Bool) : Bool := p.spans.any fun x => match x.at_ with
  | some a => f a
  | none => false

def goesHome (h : Hart) (p : Pending) : Bool := anyPlaced p fun a => !isWindow a.pa && uncached h a
def goesWindow (p : Pending) : Bool := anyPlaced p fun a => isWindow a.pa
/-- Its store is answered from elsewhere: by the core of a window, or by another module. It is accepted with that answer (R31, R99, R348). -/
def answered (p : Pending) : Bool := goesWindow p || p.remote
def inTiles (s : State) (p : Pending) : Bool := p.spans.any fun x => match x.at_ with
  | some a => !isWindow a.pa && inTile s a.pa x.len
  | none => false

/-- Memory held on the stacks of a die that is out (R359). -/
def onLostStack (s : State) (pa len : Nat) : Bool :=
  (List.range 4).any fun d =>
    let ds := dieState s (4 * paModule pa + d)
    decide (5 ≤ ds.stage) && (Config.stackRanges (4 * paModule pa + d)).any fun r => decide (r.1 < pa + len ∧ pa < r.1 + r.2)

/-- The error an access to memory meets: an error reply, or for a read an uncorrectable error (R106, R229). -/
def memError (s : State) (src : Nat) (read : Bool) (spans : List Span) : Option (Cause × Word) :=
  spans.findSome? fun x => match x.at_ with
    | some a =>
      if isWindow a.pa then (if read && poisoned s a.pa x.len then some (.memerr, x.va) else none)
      else if !reachable s src (paModule a.pa) || onLostStack s a.pa x.len then some (.ereply, x.va)
      else if read && poisoned s a.pa x.len then some (.memerr, x.va)
      else none
    | none => none

/-! Stores to memory. -/

/-- Writes bytes to memory; poison of the bytes is gone (R355). -/
def writeMem (s : State) (pa : Nat) (bs : List Byte) : State :=
  putMem { s with poison := s.poison.filter fun a => !decide (pa ≤ a ∧ a < pa + bs.length) } (memSetBytes s.mem pa bs) pa bs.length

/-- An object written whole loses its poison (R355). -/
def clearPoison (s : State) (pa len : Nat) : State :=
  { s with poison := s.poison.filter fun a => !decide (pa ≤ a ∧ a < pa + len) }

/-- Writes the pieces of a store in order. -/
def writeSpans (s : State) : List Span → List (List Byte) → State
  | x :: xs, bs :: bss => match x.at_ with
    | some a => writeSpans (writeMem s a.pa bs) xs bss
    | none => writeSpans s xs bss
  | _, _ => s

/-- The bytes of the pieces of an access. -/
def readSpans (m : List Host.Cell) : List Span → List Byte
  | [] => []
  | x :: rest => (match x.at_ with
    | some a => memBytes m a.pa x.len
    | none => []) ++ readSpans m rest

/-- The first placed address of an operation. -/
def Pending.pa (p : Pending) : Nat := match p.spans.head? with
  | some x => match x.at_ with
    | some a => a.pa
    | none => 0
  | none => 0
/-- The first window address of an operation. -/
def Pending.winPa (p : Pending) : Nat :=
  (p.spans.findSome? fun x => x.at_.bind fun a => if isWindow a.pa then some a.pa else none).getD 0
def Pending.va (p : Pending) : Word := match p.spans.head? with
  | some x => x.va
  | none => 0

/-- The scratchpad or memory bits of STBIT written (R113). -/
def writeBits (m : List Host.Cell) (pa len bit width : Nat) (v : Word) : List Host.Cell :=
  memSetNat m pa len (putBits (memNat m pa len) bit width v.toNat)

/-- The data effect of a store on memory. The objects of R125, R129 and R134 are written whole. -/
def storeEffect (s : State) (p : Pending) : State :=
  match p.op with
  | .store data | .saveImage _ data => writeSpans (spoilSpans s p.spans) p.spans data
  | .storeBits bit w v =>
    let n := (bit + w + 7) / 8
    putMem (spoil s p.pa n) (writeBits s.mem p.pa n bit w v) p.pa n
  | .vbenc desc lanes long md =>
    writeMem (spoil s p.pa 64) p.pa (leBytes 64 (encodeBlock (memNat s.mem p.pa 64) desc lanes (if long then 64 else 8) md).1)
  | .redDecl desc =>
    let blocks := leBytes 64 (desc.toNat % 1024 + 2 ^ 63) :: p.spans.tail.map fun x => leBytes x.len 0
    declareCell (writeSpans s p.spans blocks) p.pa (placedParts p.spans)
  | .barInit exp => { writeMem s p.pa (leBytes 16 (exp.toNat % 2 ^ 32)) with cells := spoilCells s.cells p.pa 16 }
  | .decOpen gen => declareCell (writeMem s p.pa (leBytes 64 (gen.toNat % 2 ^ 30 * 4))) p.pa [(p.pa, 64)]
  | _ => s

/-- What a strand's access at a place of its program order reads: memory with the strand's own earlier invisible stores over it (R260). -/
def seenMem (s : State) (uid seq : Nat) : List Host.Cell :=
  ((invisibleBefore s uid seq).foldl (fun t a => storeEffect t a.p) s).mem

/-! Results of loads. -/

/-- A list of bytes as 64-bit words, lowest first. -/
def wordsOf (x : Nat) : (n : Nat) → List Word
  | 0 => []
  | n + 1 => BitVec.ofNat 64 x :: wordsOf (x / 2 ^ 64) n

/-- What a load delivers: its words, the flags it raises, or a fault found in the data (R109, R113, R155, R157, R158). -/
def loadResult (p : Pending) (bs : List Byte) : Except (Cause × Word) (List Word × FpFlags) :=
  let x := leNat bs
  match p.op with
  | .load signed => .ok ([if signed then sext (8 * bs.length) x else BitVec.ofNat 64 x], {})
  | .loadBits bit w sx =>
    let f := x / 2 ^ bit % 2 ^ w
    .ok ([if sx then sext w f else BitVec.ofNat 64 f], {})
  | .vbdec e0 flush books => match blockCheck x with
    | some c => .error (c, p.va)
    | none =>
      let n := match p.dest with
        | .w _ => 64
        | _ => 8
      let (v, f) := decodeBlock x books flush e0 n
      .ok (wordsOf v.toNat 32, f)
  | _ => .ok (wordsOf x 32, {})

def Op.isLoad : Op → Bool
  | .load _ | .loadBits _ _ _ | .vload | .vgather | .vbdec _ _ _ => true
  | _ => false

/-- Writes a result to its destination and drops the operation; a stopped queue port makes it wait (R24, R25, R64). -/
def giveResult (s : State) (h : Hart) (hs : HartState) (p : Pending) (ws : List Word) (f : FpFlags) : State :=
  let hs1 := raiseFlags (dropOp hs p.seq) f
  let w0 := ws.getD 0 0
  let x := ws.foldr (fun w n => w.toNat + 2 ^ 64 * n) 0
  let done (s : State) (hs : HartState) : State := setHart s h (pruneFences s hs)
  match p.dest with
  | .none => done s hs1
  | .scalar (.g r) => done s (writeG hs1 r w0)
  | .scalar (.q q) => if canPush s h hs q then done (push s h hs q w0 p.seq) hs1 else s
  | .pair r => done s (writeG (writeG hs1 ⟨2 * r.val, by omega⟩ w0) ⟨2 * r.val + 1, by omega⟩ (ws.getD 1 0))
  | .v r => done s (setV hs1 r ⟨BitVec.ofNat 256 x, true⟩)
  | .w r => done s (setW hs1 r ⟨BitVec.ofNat 2048 x, true⟩)

/-- The ranges of an access that lie in memory. -/
def memRanges (spans : List Span) : List (Nat × Nat × BitVec 2) := (spanRanges spans).filter fun x => !isWindow x.1

/-- The grains a cached access needs are in the core. -/
def cachedHit (s : State) (want : Want) (c : Nat) (p : Pending) : Bool :=
  (memRanges p.spans).all fun (pa, len, g) => (unitsOf s pa len g).all (holds s want c)

/-- A cached load is performed: its grains are held, or were brought by its own request. -/
def cachedLoad (s : State) (h : Hart) (hs : HartState) (p : Pending) : State :=
  let hit := match hartCore h with
    | some c => p.fetched || cachedHit s .read c p
    | none => false
  if !mayPerform s h hs p false then s
  else match memError s (hartModule h) true p.spans with
    | some (c, v) => failOp s h p.seq c v
    | none =>
      if !hit then s
      else match loadResult p (readSpans (seenMem s hs.id.uid p.seq) p.spans) with
        | .error (c, v) => failOp s h p.seq c v
        | .ok (ws, f) => giveResult s h hs p ws f

/-! Events by name. -/

/-- An operation of a hart that is neither done nor failed. -/
def openOp (s : State) (h : Hart) (n : Nat) : Option (HartState × Pending) :=
  (hartOf s h).bind fun hs => (findOp hs n).bind fun p => if p.settled then none else some (hs, p)

def storeOf (s : State) (i : Nat) : Option Accepted := s.stores.find? fun a => a.n == i
def dropStore (s : State) (i : Nat) : State := { s with stores := s.stores.filter fun a => a.n ≠ i }

/-- The operation of a store that waits for its answer. -/
def sentOp (hs : HartState) (seq : Nat) : Option Pending := (findOp hs seq).bind fun p => if p.phase = .waiting then some p else none

/-- MSAVE's image is accepted: the frozen state of its slot is freed (R192). -/
def freeFrozen (s : State) (h : Hart) (op : Op) : State :=
  match op, hartCore h with
  | .saveImage slot _, some c => match (coreOf s c).frozen with
    | some f => if f.slot = slot then setCore s c { coreOf s c with frozen := none } else s
    | none => s
  | _, _ => s

/-- A store that its strand no longer waits for: it is accepted. An ST.z with a release part leaves its fence behind (R261). -/
def endStore (s0 : State) (h : Hart) (hs : HartState) (p : Pending) : State :=
  let s := freeFrozen s0 h p.op
  let hs' := if p.op = .storeNone ∧ p.relOrder then setOp hs { fenceOp hs .fence p.mod with seq := p.seq, pc := p.pc } else dropOp hs p.seq
  setHart s h (pruneFences s hs')

/-- The answer to a store has come: it is accepted (R31, R99, R348). -/
def storeAnswered (s : State) (a : Accepted) : State :=
  let s1 := dropStore s a.n
  match hartByUid s1 a.uid with
  | some (h, hs) => match sentOp hs a.p.seq with
    | some p => endStore s1 h hs p
    | none => s1
  | none => s1

/-- A store is performed: gone, unless it is remote and its acknowledgement is still on its way (R348). -/
def storePerformed (s : State) (a : Accepted) : State :=
  if a.p.remote then
    let s1 := recordRequest s a.hart a.p (match a.p.op with
      | .store (bs :: _) => bs
      | _ => [])
    { s1 with stores := s1.stores.map fun b => if b.n = a.n then { b with performed := true } else b }
  else storeAnswered s a

/-- An operation back in its place of program order. -/
def insertOp (p : Pending) : List Pending → List Pending
  | [] => [p]
  | q :: rest => if q.seq = p.seq then p :: rest else if p.seq < q.seq then p :: q :: rest else q :: insertOp p rest

/-- The stores of a strand from a place of its program order on that nobody has seen go back to it, not accepted any more: the one at that
place has failed (R32). -/
def recallStores (s : State) (h : Hart) (hs : HartState) (seq : Nat) : State :=
  let gone (b : Accepted) : Bool := b.uid == hs.id.uid && !b.performed && decide (seq ≤ b.p.seq)
  let back := (s.stores.filter gone).map fun b => { b.p with phase := .request, accepted := false }
  let held := hs.run.ops.map fun q => if seq ≤ q.seq && q.op.heldStore && q.phase != .waiting then { q with accepted := false } else q
  setHart { s with stores := s.stores.filter fun b => !gone b } h { hs with run := { hs.run with ops := back.foldl (fun l b => insertOp b l) held } }

/-- A PUT or RED.ADD fails where it is performed (R115, R126): no later store is seen before its replay (R32). -/
def heldFails (s : State) (h : Hart) (hs : HartState) (p : Pending) (c : Cause) (v : Word) : State :=
  failOp (recallStores s h hs p.seq) h p.seq c v

/-- An operation that is performed elsewhere fails there. -/
def opFails (s : State) (h : Hart) (hs : HartState) (p : Pending) (c : Cause) (v : Word) : State :=
  if p.op.heldStore then heldFails s h hs p c v else failOp s h p.seq c v

/-- A store fails: at its answer, which its strand awaits (R32, R99, R348); or after acceptance. It and every later store of the strand that
nobody has seen go back to the strand. -/
def storeFails (s : State) (a : Accepted) (c : Cause) (v : Word) : State :=
  match hartByUid s a.uid with
  | none => dropStore s a.n
  | some (h, hs) => failOp (recallStores { s with stores := s.stores.map fun b => if b.n = a.n then { b with performed := false } else b } h hs a.p.seq)
      h a.p.seq c v

/-! Atomics (R122). -/

/-- The new value of an atomic on `n` bits. -/
def atomicNew (fn : AtomicFn) (n old b c : Nat) : Nat :=
  let so := signedLane n old
  let sb := signedLane n b
  match fn with
  | .swap => b
  | .cas => if old = b then c else old
  | .add => (old + b) % 2 ^ n
  | .and => old &&& b
  | .or => old ||| b
  | .xor => old ^^^ b
  | .min => if so ≤ sb then old else b
  | .max => if so ≤ sb then b else old
  | .minn => if old ≤ b then old else b
  | .maxn => if old ≤ b then b else old
  | .fadd =>
    let f := if n = 32 then Fmt.f32 else Fmt.f64
    fbits f (fadd .rne (fdecode f old) (fdecode f b)).1

/-- Performs an atomic at an address: the state and the old value. -/
def atomicEffect (s : State) (pa len : Nat) (fn : AtomicFn) (b c : Word) : State × Word :=
  let n := 8 * len
  let old := memNat s.mem pa len
  let new := atomicNew fn n old (b.toNat % 2 ^ n) (c.toNat % 2 ^ n)
  (putMem s (memSetNat s.mem pa len new) pa len, BitVec.ofNat 64 old)

/-- A CAS that finds another value than it compares with is a load (R122). -/
def casFails (s : State) (p : Pending) : Bool :=
  match p.op, p.spans.head? with
  | .atomic .cas b _, some x => decide (memNat s.mem p.pa x.len ≠ b.toNat % 2 ^ (8 * x.len))
  | _, _ => false

/-- The atomic of an operation where it is performed: the state and the old value. -/
def atomicAt (s : State) (p : Pending) : State × Word :=
  match p.op, p.spans.head? with
  | .atomic fn b c, some x => atomicEffect (if casFails s p then s else spoil s p.pa x.len) p.pa x.len fn b c
  | _, _ => (s, 0)

/-- Performs the atomic of an operation and records its result. -/
def doAtomic (s : State) (h : Hart) (p : Pending) : State :=
  let (s', old) := atomicAt s p
  finishOp s' h p.seq [old]

/-! Acceptance (R29, R32). -/

/-- A scattered store (R158), or the rows of a tile. -/
def Pending.scatters (p : Pending) : Bool := match p.op with
  | .store _ => decide (2 < p.spans.length)
  | _ => false

/-- TVAL of an error that some pieces of an access meet: of a gather or a scatter the address of the lowest such lane (R158), else that of the access. -/
def Pending.laneVa (p : Pending) (bad : Span → Placed → Bool) : Word :=
  if p.scatters || p.op == .vgather then ((p.spans.find? fun x => x.at_.any (bad x)).map (·.va)).getD p.va else p.va

/-- TVAL of an error at an object on which a copy arrives. -/
def Pending.arrivalVa (p : Pending) : Word := match p.op with
  | .bcopy _ _ _ (some b) _ _ => b
  | _ => p.va

/-- The data of a store as one word, for the window checks that look at it. -/
def storeWord (op : Op) : Word :=
  match op with
  | .store (bs :: _) => BitVec.ofNat 64 (leNat bs)
  | _ => 0

/-- A reduction descriptor and cell (R124, R125): the slot count in range, other bits zero, the cell within its page. -/
def redDescOk (desc : Word) (p : Pending) : Bool :=
  let n := desc.toNat % 512
  desc.extractLsb' 10 54 == 0 && decide (1 ≤ n ∧ n ≤ 256) && match p.spans.head? with
    | some x => match x.at_ with
      | some a => decide (a.off + redSize desc ≤ 2 ^ a.size) && (a.stripe != 0 || memRangeOk a.pa (redSize desc))
      | none => false
    | none => false

/-- An access that reaches kind 0 only: vectors, rows, blocks, barrier objects (R157, R158, R128). VGATH and VSCAT: R158 names no kind, and
the model holds them to R157's (DESIGN CHOICE, log 74). -/
def Op.wide (op : Op) (pieces len : Nat) : Bool :=
  match op with
  | .load _ | .storeNone => false
  | .store _ => decide (1 < pieces ∨ 8 < len)
  | _ => true

/-- A gang is taken on a module, between its take and its resume (R331). -/
def takenOn (s : State) (m gang : Nat) : Bool := (moduleOf s m).taken.any fun t => t.gang == gang

/-- Stores that R331 parks as window stores: not cache maintenance, nor what opens a cell, which window space refuses (R120, R124). -/
def Op.parks : Op → Bool
  | .store _ | .saveImage _ _ | .storeNone | .storeBits _ _ _ | .vbenc _ _ _ _ | .barInit _ => true
  | _ => false

/-- A piece of a store goes to a window of kind 0, 1 or 2 of a module that has taken the gang: it parks there (R331). -/
def parkedPiece (s : State) (gang : Nat) (p : Pending) (x : Span) : Bool := p.op.parks && x.at_.any fun a =>
  isWindow a.pa && decide ((windowParts a.pa).2.1 ≤ 2) && takenOn s (coreModule (windowParts a.pa).1) gang

/-- The checks of R230 for one piece of a store; what R106 refuses in window space whatever the window comes first (R124, R120). A piece that parks is
acknowledged unchecked (R331). -/
def storePieceCause (s : State) (a : Accessor) (p : Pending) (x : Span) : Option Cause :=
  match x.at_ with
  | some q =>
    if !isWindow q.pa || parkedPiece s a.gang p x then none
    else match p.op with
      | .storeNone => windowCheck s a p.coord q.pa 1 .zero 0
      | .storeBits _ _ _ => none
      | .store _ | .saveImage _ _ | .vbenc _ _ _ _ | .barInit _ =>
        windowCheck s a p.coord q.pa x.len (if p.op.wide p.spans.length x.len then .wide else .store) (storeWord p.op)
      | _ => some .winflt
  | none => none

/-- The window checks of a store, lowest piece first: the cause, and TVAL. -/
def storeWindowCause (s : State) (a : Accessor) (p : Pending) : Option (Cause × Word) :=
  p.spans.findSome? fun x => (storePieceCause s a p x).map fun c => (c, x.va)

/-- The first core of an access whose module has taken a gang. -/
def takenCore (s : State) (gang : Nat) (p : Pending) : Option Nat := p.windowCores.find? fun c => takenOn s (coreModule c) gang

/-- Whether the access of a hart is parked or refused at its target module (R331). -/
def accessParked (s : State) (gang : Nat) (p : Pending) : Bool := (takenCore s gang p).isSome

/-- CFLUSH and CINVAL meet what a load does (R120); a store meets no uncorrectable error (R106). A VBENC on a poisoned block writes it without
MEMERR and ends the poison of all 64 bytes: the spec says neither (DESIGN CHOICE, log 75). -/
def readsOnStore : Op → Bool
  | .cflush | .cinval => true
  | _ => false

/-- What the placed pieces of a store meet in windows and in memory; of a scatter, what the lowest failing lane meets (R158). -/
def storeAccessCause (s : State) (h : Hart) (p : Pending) : Option (Cause × Word) :=
  let a := accessorOf h p.by_
  let read := readsOnStore p.op
  if p.scatters then p.spans.findSome? fun x =>
    ((storePieceCause s a p x).map fun c => (c, x.va)).orElse fun _ => memError s (hartModule h) read [x]
  else (storeWindowCause s a p).orElse fun _ => memError s (hartModule h) read p.spans

/-- The fault a store meets before acceptance, beyond R106's first three checks. -/
def storeCause (s : State) (h : Hart) (p : Pending) : Option (Cause × Word) :=
  (storeAccessCause s h p).orElse fun _ => match p.op with
    | .redDecl desc => if redDescOk desc p then none else some (.redflt, p.va)
    | .vbenc desc _ _ _ => if encodeDescOk desc then none else some (.blkfmt, p.va)
    | _ => none

/-- What a PUT or RED.ADD meets as it is accepted: RED.ADD makes the checks of R106 (R126); PUT is checked at its word's core (R114). -/
def heldCause (s : State) (h : Hart) (p : Pending) : Option (Cause × Word) :=
  match p.op with
  | .redAdd _ _ => storeAccessCause s h p
  | _ => none

/-- CFLUSH and CINVAL act on the grain or tile in their turn, and are accepted when that is done (R120). CFLUSH reaches every cached copy, the host's
too, and waits for a forward (R226, R240, R242). -/
def cacheEffect (s : State) (h : Hart) (hs : HartState) (p : Pending) : CohResult :=
  if !mayFlush s h hs p then .wait s
  else match p.spans.head?.bind (·.at_) with
  | none => .ok s
  | some a => match p.op with
    | .cflush => if paModule a.pa = hartModule h then cohRequest s (.op h p.seq) .own none a.pa 1 a.grain else .ok s
    | _ => match hartCore h with
      | none => .ok s
      | some c =>
        if (unitsOf s a.pa 1 a.grain).any (forwarding s) then .wait s
        else .ok ((unitsOf s a.pa 1 a.grain).foldl (fun t u => match u with
          | .tile b => (t.tiles.find? fun x => x.base == b).elim t (tileEvict t c)
          | .line b _ => lineEvict t c b) s)

/-- The flags a VBENC raises (R64, R156). -/
def storeFlags (s : State) (p : Pending) : FpFlags :=
  match p.op with
  | .vbenc desc lanes long md => (encodeBlock (memNat s.mem p.pa 64) desc lanes (if long then 64 else 8) md).2
  | _ => {}

/-- A store as it is accepted: a REDDECL reaches the whole of its cell (R125). -/
def wholeCell (s : State) (h : Hart) (p : Pending) : Pending :=
  match p.op, p.spans.head? with
  | .redDecl desc, some x => { p with spans := redSpans s (hartModule h) desc x }
  | _, _ => p

/-- A store as the others see it: on its way, with what it was issued with. -/
def storeEntry (s : State) (h : Hart) (hs : HartState) (p : Pending) : Accepted :=
  ⟨s.nextStore, h, hs.id.uid, p.by_.ptbr.asid, decide (p.by_.priv = 0), hs.id.gang, hartCore h, p, false⟩

/-- Puts a store behind the others. -/
def putStore (s : State) (a : Accepted) : State := { s with stores := s.stores ++ [a], nextStore := s.nextStore + 1 }

/-- Accepts a store, which is over for its strand. -/
def accept (s : State) (h : Hart) (hs : HartState) (q : Pending) : State :=
  let p := wholeCell s h q
  endStore (putStore s (storeEntry s h hs p)) h (raiseFlags hs (storeFlags s p)) p

/-- Sends a store to the core or the module that answers for it (R99, R348); its strand waits for the answer. -/
def send (s : State) (h : Hart) (hs : HartState) (q : Pending) : State :=
  let p := wholeCell s h q
  setHart (putStore s (storeEntry s h hs p)) h (setOp (raiseFlags hs (storeFlags s p)) { p with phase := .waiting })

/-- STORE_ACCEPT: an outstanding store is checked and takes its place in the strand's store order, or faults (R29, R32). One that another
core or module answers for is sent there, and accepted with its answer. An ST.z to memory and cache maintenance are complete with it, PUT
and RED.ADD go on to be performed (R107). -/
def execStoreAccept (h : Hart) (n : Nat) (s : State) : Result :=
  match openOp s h n with
  | none => .next s
  | some (hs, p) =>
    if !p.unaccepted || !(p.op.buffered || p.op.heldStore) || !mayAccept hs p then .next s
    else if p.op.heldStore then match heldCause s h p with
      | some (c, v) => .next (failOp s h n c v)
      | none => .next (setHart s h (setOp hs { p with accepted := true }))
    else match storeCause s h p with
      | some (c, v) => .next (failOp s h n c v)
      | none => match p.op with
        | .cflush | .cinval => match cacheEffect s h hs p with
          | .wait s' => .next s'
          | .ok s' => .next (endStore s' h hs p)
        | .storeNone => .next (if answered p then send s h hs p else endStore s h hs p)
        | _ => .next (if answered p then send s h hs p else accept s h hs p)

/-! Requests at the homes (R224, R236, R238). -/

/-- What a request is for: an accepted store, or an operation. -/
inductive Asked where
  | store (a : Accepted)
  | op (h : Hart) (hs : HartState) (p : Pending)

def askedOf (s : State) : Req → Option Asked
  | .store i => (storeOf s i).map .store
  | .op h n => (openOp s h n).map fun (hs, p) => .op h hs p
  | _ => none

/-- READ_REQUEST: a cached load's or prefetch's RdS brings its grains to the core (R236, R120). -/
def execReadRequest (r : Req) (s : State) : Result :=
  match r with
  | .core c pa => match s.prefetches.find? fun x => x.1 == c && x.2.1 == pa && !x.2.2.2 with
    | some x => match cohRequest s r .read (some c) pa 1 x.2.2.1 with
      | .wait s' => .next s'
      | .ok s' => .next { s' with prefetches := s'.prefetches.erase x }
    | none => .next s
  | .op h n => match openOp s h n, hartCore h with
    | some (_, p), some c =>
      if !p.op.isLoad || !p.placed || p.fetched || goesWindow p || goesHome h p || inTiles s p then .next s
      else match cohAll s r .read (some c) (spanRanges p.spans) with
        | .wait s' => .next s'
        | .ok s' => .next (updateOp s' h n fun q => { q with fetched := true })
    | _, _ => .next s
  | _ => .next s

/-- Stores that are always performed at the home (R128, R132, R124) and those of uncached pages. -/
def homeStore (a : Accepted) : Bool :=
  goesHome a.hart a.p || match a.p.op with
    | .redDecl _ | .barInit _ | .decOpen _ => true
    | _ => false

/-- A cached store made visible with ownership. -/
def showCached (s : State) (r : Req) (a : Accepted) (c : Nat) : State :=
  if !mayShow s a || goesWindow a.p || homeStore a then s
  else match cohAll s r .own (some c) (spanRanges a.p.spans) with
    | .wait s' => s'
    | .ok s' => storePerformed (storeEffect s' a.p) a

/-- An atomic performed with ownership. -/
def ownAtomic (s : State) (r : Req) (h : Hart) (hs : HartState) (p : Pending) (c : Nat) : State :=
  match p.op with
  | .atomic _ _ _ =>
    if p.phase != .request || goesWindow p || goesHome h p || !mayPerform s h hs p true then s
    else match memError s (hartModule h) true p.spans with
      | some (c, v) => failOp s h p.seq c v
      | none => match cohAll s r .own (some c) (spanRanges p.spans) with
        | .wait s' => s'
        | .ok s' => doAtomic s' h p
  | _ => s

/-- OWNERSHIP_REQUEST: RdX, upgrade or local atomic (R236, R123); a store that finds its grain owned needs no message. -/
def execOwnershipRequest (r : Req) (s : State) : Result :=
  match r with
  | .core c pa => match s.prefetches.find? fun x => x.1 == c && x.2.1 == pa && x.2.2.2 with
    | some x => match cohRequest s r .own (some c) pa 1 x.2.2.1 with
      | .wait s' => .next s'
      | .ok s' => .next { s' with prefetches := s'.prefetches.erase x }
    | none => .next s
  | _ => match askedOf s r with
    | some (.store a) => match a.core with
      | some c => if inTiles s a.p then .next s else .next (showCached s r a c)
      | none => .next s
    | some (.op h hs p) => match hartCore h with
      | some c => if inTiles s p then .next s else .next (ownAtomic s r h hs p c)
      | none => .next s
    | none => .next s

/-- EVICTION: a core gives up its copy of a grain or a whole tile (R236, R238). -/
def execEviction (c : Nat) (pa : Nat) (s : State) : Result :=
  match tileAt s pa with
  | some t => .next (tileEvict s c t)
  | none => match s.grains.find? fun g => decide (g.1 ≤ pa ∧ pa < g.1 + g.2.size) with
    | some g => .next (lineEvict s c g.1)
    | none => .next s

/-- UC_LOAD: a load performed at the home (R224, R225, R236). -/
def execUcLoad (h : Hart) (n : Nat) (s : State) : Result :=
  match openOp s h n with
  | none => .next s
  | some (hs, p) =>
    if !p.op.isLoad || !goesHome h p || goesWindow p || !mayPerform s h hs p true then .next s
    else match memError s (hartModule h) true p.spans with
      | some (c, v) => .next (failOp s h n c v)
      | none => match cohAll s (.op h n) .read none (spanRanges p.spans) with
        | .wait s' => .next s'
        | .ok s' => match loadResult p (readSpans s'.mem p.spans) with
          | .error (c, v) => .next (failOp s' h n c v)
          | .ok (ws, f) => match hartOf s' h with
            | some hs' => .next (giveResult s' h hs' p ws f)
            | none => .next s'

/-- A store performed at the home. An ST.z touches no copy (R111, R261). -/
def showHome (s : State) (r : Req) (a : Accepted) : State :=
  if !mayShow s a || goesWindow a.p then s
  else match memError s (hartModule a.hart) false a.p.spans with
    | some (c, v) => storeFails s a c v
    | none =>
      if a.p.op = .storeNone then storePerformed s a
      else match cohAll s r .own none (spanRanges a.p.spans) with
        | .wait s' => s'
        | .ok s' => storePerformed (storeEffect s' a.p) a

/-- An atomic performed at the home. -/
def homeAtomic (s : State) (r : Req) (h : Hart) (hs : HartState) (p : Pending) : State :=
  match p.op with
  | .atomic _ _ _ =>
    if p.phase != .request || goesWindow p || !mayPerform s h hs p true then s
    else match memError s (hartModule h) true p.spans with
      | some (c, v) => failOp s h p.seq c v
      | none => match cohAll s r .own none (spanRanges p.spans) with
        | .wait s' => s'
        | .ok s' => doAtomic s' h p
  | _ => s

/-- UC_STORE: a UC store or home atomic (R224, R236). -/
def execUcStore (r : Req) (s : State) : Result :=
  match askedOf s r with
  | some (.store a) => if inTiles s a.p || !homeStore a then .next s else .next (showHome s r a)
  | some (.op h hs p) => if inTiles s p then .next s else .next (homeAtomic s r h hs p)
  | none => .next s

/-! Window accesses (R230, R262). -/

/-- Parks a packet of a taken gang, or discards it and raises PARKFULL once per take (R331, R332). -/
def parkPacket (s : State) (m gang : Nat) (pk : Packet) : State :=
  let ms := moduleOf s m
  let room (t : Taken) : Bool := t.area && decide (t.packets.length < 2 ^ 18)
  match ms.taken.find? fun t => t.gang == gang with
  | none => s
  | some t =>
    if room t then setModule s m { ms with taken := ms.taken.map fun u => if u.gang = gang then { u with packets := u.packets ++ [pk] } else u }
    else
      let s1 := setModule s m { ms with taken := ms.taken.map fun u => if u.gang = gang then { u with full := true } else u }
      if t.full then s1 else raiseModule s1 m .parkfull (BitVec.ofNat 64 gang)

/-- The checks at arrival (R230), and of memory for the pieces there. -/
def arrivalFault (s : State) (a : Accepted) : Option (Cause × Word) := storeAccessCause s a.hart a.p

/-- A store of which only some pieces go on: the others have no place. -/
def Pending.onlyAt (p : Pending) (keep : Span → Bool) : Pending :=
  { p with spans := p.spans.map fun x => if keep x then x else { x with at_ := none } }

/-- The pieces of a store that park are parked, on each module for itself (R331). -/
def parkPieces (s : State) (a : Accepted) : State :=
  let parks := parkedPiece s a.gang a.p
  let there (m : Nat) (x : Span) : Bool := parks x && x.at_.any fun q => coreModule (windowParts q.pa).1 == m
  let ms := ((spanCores (a.p.onlyAt parks).spans).map coreModule).eraseDups
  ms.foldl (fun t m => parkPacket t m a.gang (.store { a with p := a.p.onlyAt (there m) })) s

/-- A window store reaches its core: refused, or performed by `f` for its pieces there and in memory, whose grains it has first; the pieces for a
module that has taken the gang are parked (R230, R331). -/
def arrive (s : State) (a : Accepted) (f : State → Pending → State) : State :=
  if !mayShow s a || !goesWindow a.p then s
  else match arrivalFault s a with
    | some (c, v) => storeFails s a c v
    | none =>
      let p := a.p.onlyAt fun x => !parkedPiece s a.gang a.p x
      match cohAll s (.store a.n) .own none (memRanges p.spans) with
      | .wait s' => s'
      | .ok s' => storePerformed (parkPieces (if anyPlaced p fun _ => true then f s' p else s') a) a

/-- The bytes that a load finds at its pieces. -/
def windowLoadBytes (s : State) (p : Pending) : List Byte :=
  p.spans.flatMap fun x => match x.at_ with
    | some a => if isWindow a.pa then leBytes x.len (windowRead s a.pa x.len) else memBytes s.mem a.pa x.len
    | none => []

/-- The window checks of one piece of a load or atomic: wide ones and atomics reach kind 0 only (R123, R155, R157). A module that has taken the gang
answers with an error (R331). -/
def loadPieceCause (s : State) (a : Accessor) (p : Pending) (x : Span) : Option Cause :=
  match x.at_ with
  | some q =>
    if !isWindow q.pa then none
    else if takenOn s (coreModule (windowParts q.pa).1) a.gang then some .ereply
    else match p.op with
      | .load _ => windowCheck s a p.coord q.pa x.len .load 0
      | .loadBits _ _ _ => none
      | _ => windowCheck s a p.coord q.pa x.len .wide 0
  | none => none

/-- The window checks of a load or atomic, lowest piece first: the cause, and TVAL. -/
def loadWindowCause (s : State) (a : Accessor) (p : Pending) : Option (Cause × Word) :=
  p.spans.findSome? fun x => (loadPieceCause s a p x).map fun c => (c, x.va)

/-- What a load or atomic meets, in the order of R106; of a gather, what its lowest failing lane meets (R158). -/
def loadCause (s : State) (h : Hart) (p : Pending) : Option (Cause × Word) :=
  let a := accessorOf h p.by_
  match p.op with
  | .vgather => p.spans.findSome? fun x => ((loadPieceCause s a p x).map fun c => (c, x.va)).orElse fun _ => memError s (hartModule h) true [x]
  | _ => (loadWindowCause s a p).orElse fun _ => memError s (hartModule h) true p.spans

/-- What a window access fixes at its arrival: nothing. -/
def MxSnap.empty : MxSnap := ⟨[], none, [], 0, 0, false⟩

/-- A window access to the tiles of a core joins its matrix queue in order of arrival (R190). -/
def joinQueue (s : State) (c : Nat) (e : MxEntry) : State :=
  let cs := coreOf s c
  { setCore s c { cs with queue := cs.queue ++ [e] } with nextId := s.nextId + 1 }

/-- The queue entry of a window access. -/
def windowEntry (s : State) (uid at_ : Nat) (pc : Word) (op : MxOp) : MxEntry := ⟨s.nextId, uid, 8, none, at_, true, op, MxSnap.empty, pc⟩

/-- A load of the tile window arrives: it is performed in its turn. -/
def tileLoad (s : State) (h : Hart) (hs : HartState) (p : Pending) (len : Nat) : State :=
  let (c, _, off) := windowParts p.winPa
  updateOp (joinQueue s c (windowEntry s hs.id.uid p.seq p.pc (.windowRead off len ⟨h, hs.id.uid, p.seq⟩))) h p.seq
    fun q => { q with phase := .waiting }

/-- WINDOW_ACCESS_ARRIVAL: a scratchpad store, a window ST.z, a window load or an atomic on a scratchpad reaches its core. -/
def execWindowAccessArrival (r : Req) (s : State) : Result :=
  match askedOf s r with
  | none => .next s
  | some (.store a) =>
    match a.p.op with
    | .storeNone => .next (arrive s a fun t _ => t)
    | _ => if (windowParts a.p.winPa).2.1 = 0 then .next (arrive s a storeEffect) else .next s
  | some (.op h hs p) =>
    let isAtomic := match p.op with
      | .atomic _ _ _ => true
      | _ => false
    if !goesWindow p || p.phase ≠ .request || !(p.op.isLoad || isAtomic) || !mayPerform s h hs p true then .next s
    else match loadCause s h p with
      | some (c, v) => .next (failOp s h p.seq c v)
      | none =>
        if isAtomic then .next (doAtomic s h p)
        else if (windowParts p.winPa).2.1 = 2 then .next (tileLoad s h hs p ((p.spans.map fun x => x.len).sum))
        else match cohAll s r .read none (memRanges p.spans) with
          | .wait s' => .next s'
          | .ok s' => match loadResult p (windowLoadBytes s' p) with
            | .error (c, v) => .next (failOp s' h p.seq c v)
            | .ok (ws, f) => match hartOf s' h with
              | some hs' => .next (giveResult s' h hs' p ws f)
              | none => .next s'

/-- PUTR_ARRIVAL: a store through the strand-register window writes the register and sets its full bit (R100, R102). -/
def execPutrArrival (i : Nat) (s : State) : Result :=
  match storeOf s i with
  | some a =>
    if (windowParts a.p.winPa).2.1 = 1 then .next (arrive s a fun t _ => windowStoreEffect t a.p.winPa (leBytes 8 (storeWord a.p.op).toNat))
    else .next s
  | none => .next s

/-- A store of kind 5, 6 or 7 with its word. -/
def kindStore (k : Nat) (i : Nat) (s : State) (f : State → Nat → Nat → Word → State) (ok : State → Nat → Nat → Word → Bool) : Result :=
  match storeOf s i with
  | some a =>
    let (c, kind, off) := windowParts a.p.winPa
    let v := storeWord a.p.op
    if kind = k && a.p.op != .storeNone && ok s c off v then .next (arrive s a fun t _ => f t c off v) else .next s
  | none => .next s

/-- SCTL_RUN: a store with RUN = 1; a store that also clears DBL clears it first (R222). -/
def execSctlRun (i : Nat) (s : State) : Result :=
  kindStore 7 i s (fun t c off v =>
    let h := Hart.strand c (off / 8)
    sctlRun (if v.getLsbD 3 then sctlDblClear t h else t) h) fun _ _ _ v => v.getLsbD 0

/-- SCTL_DBL_CLEAR: a store to SCTL without RUN (R222). -/
def execSctlDblClear (i : Nat) (s : State) : Result :=
  kindStore 7 i s (fun t c off v => if v.getLsbD 3 then sctlDblClear t (.strand c (off / 8)) else t) fun _ _ _ v => !v.getLsbD 0

/-- Room in the input port that a kind-5 data store names; a store that must be refused is let through to its fault. -/
def qportRoom (s : State) (c off : Nat) : Bool :=
  let (n, p, _) := qportParts off
  match slotStrand s c n with
  | some hs =>
    !(portOf hs p).bound || (portOf hs p).out || decide ((portOf hs p).buf.length + comingEntries s hs.id.uid p < 16)
  | none => true

/-- The strand of a store no longer waits for it: it is accepted, though its effect is still to come. -/
def storeAtTarget (s : State) (a : Accepted) : Bool := match hartByUid s a.uid with
  | some (_, hs) => (findOp hs a.p.seq).isNone
  | none => true

/-- An entry finds its port full: a store of the same module is accepted, and the entry waits at the target, behind those that wait there already;
one of another module goes on holding its remote place (R218, R230). -/
def entryWaits (s : State) (a : Accepted) : State :=
  if a.p.remote || !mayGo s (storeAtTarget s) a || (arrivalFault s a).isSome then s
  else match hartByUid s a.uid with
    | none => s
    | some (h, hs) => match sentOp hs a.p.seq with
      | some p => endStore s h hs p
      | none => s

/-- QPORT_DATA_STORE: a store to a bound input port pushes an entry, which waits while the buffer is full (R218). What becomes of one that
waits there when its port is bound anew or its strand is gone, the spec does not say: it is dropped (DESIGN CHOICE, log 100). -/
def execQportDataStore (i : Nat) (s : State) : Result :=
  match storeOf s i with
  | none => .next s
  | some a =>
    let (c, kind, off) := windowParts a.p.winPa
    if kind ≠ 5 || a.p.op == .storeNone || !decide (off % 0x10 < 8) then .next s
    else if !qportRoom s c off then .next (entryWaits s a)
    else if storeAtTarget s a && (arrivalFault s a).isSome then .next (dropStore s a.n)
    else .next (arrive s a fun t _ => windowPush t c off (storeWord a.p.op))

/-- QPORT_BINDING_STORE: a store to a binding word acts as QBIND by the slot's strand (R218). -/
def execQportBindingStore (i : Nat) (s : State) : Result :=
  kindStore 5 i s (fun t c off v => match hartOf t (.strand c (off / 0x40)) with
    | some hs =>
      let (t', hs') := rebind t (.strand c (off / 0x40)) hs (qportParts off).2.1 v
      setHart t' (.strand c (off / 0x40)) hs'
    | none => t) fun _ _ off _ => decide (8 ≤ off % 0x10)

/-- NBAR_WINDOW_STORE: a supervisor store restores a named barrier (R219). -/
def execNbarWindowStore (i : Nat) (s : State) : Result :=
  kindStore 6 i s (fun t c off v => setCore t c (setNbar (coreOf t c) (off / 8) (nbarOfWord v))) fun _ _ _ _ => true

/-- TILE_WINDOW_STORE: a store into the tile window joins the target's matrix queue (R190). -/
def execTileWindowStore (i : Nat) (s : State) : Result :=
  match storeOf s i with
  | some a =>
    let (c, kind, off) := windowParts a.p.winPa
    match a.p.op with
    | .store (bs :: _) =>
      if kind ≠ 2 then .next s
      else .next (arrive s a fun t _ => joinQueue t c (windowEntry t a.uid a.p.seq a.p.pc (.window off bs)))
    | _ => .next s
  | none => .next s

/-! Replies of other modules (R348). -/

/-- REMOTE_STORE_ACKNOWLEDGEMENT: a performed remote store is acknowledged, or answered with an error. -/
def execRemoteStoreAcknowledgement (i : Nat) (ok : Bool) (s : State) : Result :=
  match storeOf s i with
  | some a => if !a.performed then .next s
    else if ok then .next (storeAnswered s a)
    else .next (storeFails s a .ereply (a.p.laneVa fun _ q => paModule q.pa != hartModule a.hart))
  | none => .next s

/-- REMOTE_TIMEOUT: a remote request without a reply REMTO after its issue raises EREPLY (log 99); whether a store or atomic was performed is
unspecified (R348). One that its order still holds back was not (R249, R257). -/
def execRemoteTimeout (h : Hart) (n : Nat) (s : State) : Result :=
  match openOp s h n with
  | none => .next s
  | some (hs, p) =>
    if !p.remote || !p.placed || decide (s.now < p.sent + (moduleOf s (hartModule h)).remto) then .next s
    else
      let s1 := match p.op with
        | .atomic _ _ _ =>
          if mayPerform s h hs p true && (loadCause s h p).isNone && Config.freeBool s.free then (atomicAt s p).1 else s
        | _ => { s with stores := s.stores.filter fun a => !(a.uid == hs.id.uid && a.p.seq == n) }
      let s2 := { s1 with free := s.free + 1 }
      let va := p.laneVa fun _ q => paModule q.pa != hartModule h
      .next (if p.store then heldFails s2 h hs p .ereply va else failOp s2 h n .ereply va)

end Sys2Proof.Machine
end

