-- ==== Sys2Proof/Machine/Home.lean ====
section
/-!
DEFINITION. Operations at the owning core or the home: full/empty words (R114 to R117), barrier objects (R128 to R131, R265), cells
(R124 to R127, R132 to R137), drains (R119), tiles (R138 to R141, R237 to R240), the host's requests (R241, R242), and
translation walks (R296, R297).
-/

namespace Sys2Proof.Machine

/-- The checks of an operation that reaches windows of kind 0 only, or `other` when it does not name a window. -/
def objectCause (s : State) (h : Hart) (p : Pending) (other : Option Cause) : Option Cause :=
  match p.spans.head? with
  | some x => match x.at_ with
    | some a => if !isWindow a.pa then other else windowCheck s (accessorOf h p.by_) p.coord a.pa x.len .wide 0
    | none => none
  | none => none

/-! Full/empty words (R114, R115). -/

/-- The word index of a window address in its core's synchronisation region. -/
def syncWord (pa : Nat) : Option Nat :=
  let off := (windowParts pa).2.2
  if isWindow pa && 0x3C000 ≤ off && off < 0x40000 then some ((off - 0x3C000) / 8) else none

/-- The address of a word of a core's synchronisation region. -/
def syncPa (core w : Nat) : Nat := windowPa core 0 (0x3C000 + 8 * w)

/-- Removes the first entry of a deferred list that meets a test. -/
def dropDeferred (l : List Deferred) (f : Deferred → Bool) : List Deferred :=
  match l with
  | [] => []
  | d :: rest => if f d then rest else d :: dropDeferred rest f

/-- Delivers a PUT's value to the waiters of a word in order: every PEEK before the first TAKE, and that TAKE (R115). The
waiters left, those who receive, and whether a TAKE received. -/
def deliverPut (w : Nat) : List Deferred → List Deferred × List Waiter × Bool
  | [] => ([], [], false)
  | d :: rest =>
    if d.word ≠ w then let (l, ws, t) := deliverPut w rest; (d :: l, ws, t)
    else match d.kind with
      | .peek => let (l, ws, t) := deliverPut w rest; (l, d.who :: ws, t)
      | .take => (rest, [d.who], true)
      | _ => let (l, ws, t) := deliverPut w rest; (d :: l, ws, t)

/-- Gives a value to waiters. -/
def answer (s : State) (ws : List Waiter) (v : Word) : State :=
  ws.foldl (fun t w => match hartByUid t w.uid with
    | some (h, _) => finishOp t h w.seq [v]
    | none => t) s

def isPutOf (w : Nat) (d : Deferred) : Bool := d.word == w && match d.kind with
  | .put _ => true
  | _ => false

/-- Enters a request in a core's deferred list; refused while 64 entries are held (R116). -/
def defer (s : State) (core w : Nat) (k : DeferKind) (h : Hart) (hs : HartState) (seq : Nat) : State :=
  let cs := coreOf s core
  if 64 ≤ cs.deferred.length then s
  else updateOp (setCore s core { cs with deferred := cs.deferred ++ [⟨w, k, ⟨h, hs.id.uid, seq⟩⟩] }) h seq
    fun q => { q with phase := .waiting }

/-- TAKE, PEEK and PUT at the owning core (R115). -/
def feRequest (s : State) (h : Hart) (hs : HartState) (p : Pending) (core w : Nat) : State :=
  let cs := coreOf s core
  let pa := syncPa core w
  let full := cs.tags.contains w
  let v := memWord s.mem pa
  match p.op with
  | .take =>
    if !full then defer s core w .take h hs p.seq
    else match cs.deferred.find? (isPutOf w) with
      | some d =>
        let nv := match d.kind with
          | .put x => x
          | _ => 0
        let s1 := setCore s core { cs with deferred := dropDeferred cs.deferred (isPutOf w) }
        let s2 := writeMem s1 pa (leBytes 8 nv.toNat)
        finishOp (answer s2 [d.who] 0) h p.seq [v]
      | none => finishOp (setCore s core { cs with tags := cs.tags.filter (· ≠ w) }) h p.seq [v]
  | .peek => if full then finishOp s h p.seq [v] else defer s core w .peek h hs p.seq
  | .put x =>
    if full then defer s core w (.put x) h hs p.seq
    else
      let (l, ws, taken) := deliverPut w cs.deferred
      let cs1 := { cs with deferred := l, tags := if taken then cs.tags else cs.tags ++ [w] }
      let s1 := setCore s core cs1
      let s2 := if taken then s1 else writeMem s1 pa (leBytes 8 x.toNat)
      finishOp (answer s2 ws x) h p.seq []
  | _ => s

/-- A TAKE or PEEK of a full word reads it (R115). -/
def readsWord (s : State) (core w : Nat) : Op → Bool
  | .put _ => false
  | _ => (coreOf s core).tags.contains w

/-- FEWORD_REQUEST_ARRIVAL: a TAKE, PEEK or PUT reaches its core (R114, R115, R116). Only one that reads the word meets an uncorrectable error in it
(R106). -/
def execFewordRequestArrival (h : Hart) (n : Nat) (s : State) : Result :=
  match openOp s h n with
  | none => .next s
  | some (hs, p) =>
    let isFe := match p.op with
      | .take | .peek | .put _ => true
      | _ => false
    if !isFe || p.phase != .request || !mayPerform s h hs p true then .next s
    else if accessParked s hs.id.gang p then .next (opFails s h hs p .ereply p.va)
    else match objectCause s h p (some .feword) with
      | some c => .next (opFails s h hs p c p.va)
      | none => match syncWord p.pa with
        | none => .next (opFails s h hs p .feword p.va)
        | some w =>
          if poisoned s (syncPa (windowParts p.pa).1 w) 8 && readsWord s (windowParts p.pa).1 w p.op then .next (failOp s h n .memerr p.va)
          else .next (feRequest s h hs p (windowParts p.pa).1 w)

/-! Barrier objects (R128 to R130, R265). -/

def barExp (m : List Host.Cell) (pa : Nat) : Nat := memNat m pa 4
def barArr (m : List Host.Cell) (pa : Nat) : Nat := memNat m (pa + 4) 4
def barPhase (m : List Host.Cell) (pa : Nat) : BitVec 4 := BitVec.ofNat 4 (memNat m (pa + 8) 1)

def isBarWait (p : Pending) (pa : Nat) : Bool :=
  (match p.op with
    | .barWait _ => true
    | _ => false) && p.phase == .waiting && p.pa == pa

/-- One operation's answer when the phase of the object at `pa` moves on. -/
def wakeBarWait (pa : Nat) (ph : BitVec 4) (q : Pending) : Pending :=
  if isBarWait q pa then { q with phase := .done [ph.zeroExtend 64] } else q

/-- Answers every waiter of an object with the new phase (R265). -/
def wakeBarrier (s : State) (pa : Nat) (ph : BitVec 4) : State :=
  { s with
    harts := s.harts.map fun (h, hs) => (h, mapOps hs (wakeBarWait pa ph))
    cores := s.cores.map fun (c, cs) => (c, { cs with deferred := cs.deferred.filter fun d => match d.kind with
      | .bar a _ => a != pa
      | _ => true }) }

/-- BARV with count `c` at an object: the state and the phase arrived in, or `none` for an overrun (R129). -/
def arriveBarrier (s : State) (pa : Nat) (c : Nat) : Option (State × BitVec 4) :=
  let exp := barExp s.mem pa
  let arr := barArr s.mem pa
  let ph := barPhase s.mem pa
  if 2 ^ 32 ≤ c || exp < arr + c then none
  else if c = 0 then some (s, ph)
  else if arr + c = exp then
    let m := memSetNat (memSetNat s.mem (pa + 4) 4 0) (pa + 8) 1 (ph + 1).toNat
    some (wakeBarrier (putMem s m pa 16) pa (ph + 1), ph)
  else some (putMem s (memSetNat s.mem (pa + 4) 4 (arr + c)) pa 16, ph)

/-- BWAIT waiters held at one home slice (R265). -/
def sliceWaiters (s : State) (pa : Nat) : Nat :=
  (s.harts.map fun x => (x.2.run.ops.filter fun q => (match q.op with
    | .barWait _ => true
    | _ => false) && q.phase == .waiting && !isWindow q.pa && homeOf s q.pa == homeOf s pa).length).sum

/-- BARV, BWAIT or BTEST at the object. -/
def barRequest (s : State) (h : Hart) (hs : HartState) (p : Pending) : State :=
  let pa := p.pa
  let ph := barPhase s.mem pa
  match p.op with
  | .barArrive c => match arriveBarrier s pa c.toNat with
    | some (s', old) => finishOp s' h p.seq [old.zeroExtend 64]
    | none => failOp s h p.seq .bovr p.va
  | .barTest w => finishOp s h p.seq [if ph = w.truncate 4 then 0 else 1]
  | .barWait w =>
    if ph ≠ w.truncate 4 then finishOp s h p.seq [ph.zeroExtend 64]
    else if isWindow pa then defer s (windowParts pa).1 2048 (.bar pa (w.truncate 4)) h hs p.seq
    else if 512 ≤ sliceWaiters s pa then s
    else updateOp s h p.seq fun q => { q with phase := .waiting }
  | _ => s

def isBarOp : Op → Bool
  | .barArrive _ | .barWait _ | .barTest _ => true
  | _ => false

/-- BARRIER_OP_AT_HOME (R129, R130, R265). -/
def execBarrierOpAtHome (h : Hart) (n : Nat) (s : State) : Result :=
  match openOp s h n with
  | none => .next s
  | some (hs, p) =>
    if !isBarOp p.op || p.phase != .request || !mayPerform s h hs p true then .next s
    else if accessParked s hs.id.gang p then .next (failOp s h n .ereply p.va)
    else match (objectCause s h p none).orElse fun _ => (memError s (hartModule h) true p.spans).map (·.1) with
      | some c => .next (failOp s h n c p.va)
      | none =>
        if goesWindow p then .next (barRequest s h hs p)
        else match cohAll s (.op h n) .own none (spanRanges p.spans) with
          | .wait s' => .next s'
          | .ok s' => .next (barRequest s' h hs p)

/-! Reduction cells (R124 to R127). -/

/-- The pieces of the cell an operation acts on. -/
def cellParts (s : State) (h : Hart) (p : Pending) (n : Nat) (f : Fmt) : List (Nat × Nat) :=
  match p.spans.head? with
  | some x => placedParts (redSpans s (hartModule h) (cellDesc n f) x)
  | none => []

/-- The physical address of a byte offset of a cell. -/
def cellByte (s : State) (h : Hart) (p : Pending) (off : Nat) : Nat :=
  match p.spans.head?.bind (·.at_) with
  | some a => placedAt s (hartModule h) a off
  | none => 0

/-- An operation on a cell, allowed by order and by the memory it lies in. -/
def cellReady (s : State) (h : Hart) (hs : HartState) (p : Pending) : Except State Unit :=
  if !mayPerform s h hs p true then .error s
  else if goesWindow p then .error (opFails s h hs p .winflt p.va)
  else match memError s (hartModule h) true p.spans with
    | some (c, v) => .error (opFails s h hs p c v)
    | none => .ok ()

/-- A request of an operation on a cell: it holds its place for the header and the slots until all is served (R236). -/
def cellAsk (s : State) (h : Hart) (p : Pending) (keep : Bool) (want : Want) (rs : List Range) : CohResult :=
  cohAsk s (.op h p.seq) (spanRanges (touched s h p)) keep want none rs

/-- The header of a cell is read at its home, which first takes the host's modified line (R242, R243). -/
def cellRead (s : State) (h : Hart) (p : Pending) : CohResult :=
  match p.spans.head?.bind (·.at_) with
  | some a => cellAsk s h p true .read [(a.pa, 8, a.grain)]
  | none => .ok s

/-- A RED.ADD performed on a slot at `a`: the sum, or a free value where the slot's is unspecified (R124, R126). -/
def addSlot (s : State) (h : Hart) (hs : HartState) (p : Pending) (parts : List (Nat × Nat)) (f : Fmt) (slot a : Nat) (val : Word) : State :=
  let s1 := useCell s p.pa parts
  let s2 := feed s1 p.pa hs.id.uid slot
  let n := f.width / 8
  if slotSettled s1 p.pa hs.id.uid slot then
    let old := fdecode f (memNat s.mem a n)
    let v := fdecode f (val.toNat % 2 ^ f.width)
    finishOp { s2 with mem := memSetNat s.mem a n (fbits f (fadd .rne old v).1) } h p.seq []
  else
    finishOp { s2 with mem := memSetNat s.mem a n ((Config.freeWord s.free).toNat % 2 ^ f.width), free := s.free + 1 } h p.seq []

/-- RED_ADD_AT_HOME (R126). -/
def execRedAddAtHome (h : Hart) (n : Nat) (s : State) : Result :=
  match openOp s h n with
  | none => .next s
  | some (hs, p) => match p.op with
    | .redAdd slot val => match cellReady s h hs p with
      | .error s' => .next s'
      | .ok _ => match cellRead s h p with
        | .wait s' => .next s'
        | .ok s1 => match cellHeader s1.mem p.pa with
          | none => .next (heldFails s1 h hs p .redflt p.va)
          | some (cnt, f) =>
            let a := cellByte s1 h p (slotOffset f slot.toNat)
            if cnt ≤ slot.toNat then .next (heldFails s1 h hs p .redflt p.va)
            else if poisoned s1 a (f.width / 8) then .next (heldFails s1 h hs p .memerr p.va)
            else match cellAsk s1 h p false .own [(a, f.width / 8, 1)] with
            | .wait s' => .next s'
            | .ok s' => .next (addSlot s' h hs p (cellParts s' h p cnt f) f slot.toNat a val)
    | _ => .next s

/-- The value of slot `i` of a cell as RED.RD takes it (R77); a free value in a cell that ordinary stores have reached (R124, R127). -/
def slotValue (s : State) (h : Hart) (p : Pending) (f : Fmt) (cnt i : Nat) : FVal :=
  if i < cnt then
    fdecode f (if cellSpoiled s p.pa then (Config.freeWord (s.free + i)).toNat % 2 ^ f.width
      else memNat s.mem (cellByte s h p (slotOffset f i)) (f.width / 8))
  else .fin false 0 0

/-- The ranges a RED.RD reads. -/
def cellRanges (p : Pending) (parts : List (Nat × Nat)) : List (Nat × Nat × BitVec 2) :=
  match p.spans.head?.bind (·.at_) with
  | some a => parts.map fun x => (x.1, x.2, a.grain)
  | none => []

/-- A slot of a cell holds an uncorrectable error (R106). -/
def slotPoisoned (s : State) (h : Hart) (p : Pending) (f : Fmt) (cnt : Nat) : Bool :=
  (List.range cnt).any fun i => poisoned s (cellByte s h p (slotOffset f i)) (f.width / 8)

/-- RED.RD: the tree over the slots (R127). It raises the flags of its nodes in the reader's FPCTL: R64 gives flags to scalar and vector
instructions, and R127 has the nodes follow the reader's FPCTL without naming flags (DESIGN CHOICE, log 78). -/
def redRead (s : State) (h : Hart) (hs : HartState) (p : Pending) (md : FpMode) : State :=
  match cellReady s h hs p with
  | .error s' => s'
  | .ok _ => match cellRead s h p with
    | .wait s' => s'
    | .ok s1 => match cellHeader s1.mem p.pa with
      | none => failOp s1 h p.seq .redflt p.va
      | some (cnt, f) =>
        if slotPoisoned s1 h p f cnt then failOp s1 h p.seq .memerr p.va
        else match cellAsk s1 h p false .own (cellRanges p (cellParts s1 h p cnt f)) with
        | .wait s' => s'
        | .ok s' =>
          let (v, fl) := pairsum f md.flush ((List.range 256).map (slotValue s' h p f cnt))
          let t := giveResult s' h hs p [BitVec.ofNat 64 (fbits f v)] fl
          if cellSpoiled s' p.pa then drew s' t 256 else t

/-! Decide-once cells (R132 to R137). -/

def cellState (m : List Host.Cell) (pa : Nat) : Nat := memNat m pa 4 % 4
def cellGen (m : List Host.Cell) (pa : Nat) : Nat := memNat m pa 4 / 4
def cellValue (m : List Host.Cell) (pa : Nat) : Word := memWord m (pa + 8)
/-- Writes STATE, GEN, VALUE and WINNER. -/
def cellWrite (m : List Host.Cell) (pa st gen : Nat) (val : Word) (winner : Nat) : List Host.Cell :=
  memSetNat (memSetNat (memSetNat m pa 4 (st + 4 * gen)) (pa + 8) 8 val.toNat) (pa + 16) 8 winner

/-- The status word of R133. -/
def statusWord (code gen : Nat) : Word := BitVec.ofNat 64 (code + 16 * gen)

/-- The winner id of a strand (R132). R132 gives the fields of a strand alone; R206 admits PROPOSE on an engine: its number in the module stands in the
low bits, its module in its field (DESIGN CHOICE, log 104). -/
def winnerId : Hart → Nat
  | .strand c n => coreLinear c + n * 2 ^ 10 + coreModule c * 2 ^ 13
  | .engine e => e % 128 + e / 128 * 2 ^ 13

/-- A decided reply may be cached (R136). -/
def addCopy (s : State) (pa gen : Nat) (v : Word) : State :=
  let c : Copy := ⟨pa, BitVec.ofNat 30 gen, v⟩
  if s.copies.contains c || cellSpoiled s pa then s else { s with copies := s.copies ++ [c] }

/-- A cell's answer; free values where ordinary stores have reached the cell (R132). -/
def answerCell (s : State) (h : Hart) (p : Pending) (r : List Word) : State :=
  if cellSpoiled s p.pa then finishOp { s with free := s.free + r.length } h p.seq (freeWords s.free r.length) else finishOp s h p.seq r

/-- PROPOSE, DREAD and RECYCLE at the home (R135, R136, R137). -/
def decideRequest (s : State) (h : Hart) (p : Pending) : State :=
  let pa := p.pa
  let st := cellState s.mem pa
  let gen := cellGen s.mem pa
  let val := cellValue s.mem pa
  match p.op with
  | .propose v g =>
    if st = 2 then answerCell s h p [val, statusWord 4 gen]
    else if gen ≠ g.toNat % 2 ^ 30 then answerCell s h p [0, statusWord 3 gen]
    else if st = 0 then
      let s1 := { s with mem := cellWrite s.mem pa 1 gen v (winnerId h) }
      answerCell (addCopy s1 pa gen v) h p [v, statusWord 0 gen]
    else answerCell (addCopy s pa gen val) h p [val, statusWord 1 gen]
  | .decRead g =>
    if st = 2 then answerCell s h p [val, statusWord 4 gen]
    else if gen ≠ g.toNat % 2 ^ 30 then answerCell s h p [0, statusWord 3 gen]
    else if st = 1 then answerCell (addCopy s pa gen val) h p [val, statusWord 1 gen]
    else answerCell s h p [0, statusWord 2 gen]
  | .recycle g =>
    if st = 2 then answerCell s h p [statusWord 4 gen]
    else if gen ≠ g.toNat % 2 ^ 30 then answerCell s h p [statusWord 3 gen]
    else if st = 1 then
      if gen = 2 ^ 30 - 1 then
        answerCell { s with mem := memSetNat s.mem pa 4 (2 + 4 * gen) } h p [statusWord 4 gen]
      else answerCell { s with mem := cellWrite s.mem pa 0 (gen + 1) 0 0 } h p [statusWord 5 (gen + 1)]
    else answerCell s h p [statusWord 2 gen]
  | _ => s

/-- DECIDE_ONCE_AT_HOME: at the home, or for DREAD from a cached decided copy of its generation, without the home (R136). -/
def execDecideOnceAtHome (h : Hart) (n : Nat) (fromCopy : Bool) (s : State) : Result :=
  match openOp s h n with
  | none => .next s
  | some (hs, p) =>
    let isCell := match p.op with
      | .propose _ _ | .decRead _ => true
      | .recycle _ => hs.run.drain.isNone
      | _ => false
    if !isCell then .next s
    else if fromCopy then
      match p.op with
      | .decRead g => match s.copies.find? fun c => c.pa == p.pa && c.gen == g.truncate 30 with
        | some c => if mayPerform s h hs p true && !goesWindow p then .next (answerCell s h p [c.val, statusWord 1 c.gen.toNat]) else .next s
        | none => .next s
      | _ => .next s
    else match cellReady s h hs p with
      | .error s' => .next s'
      | .ok _ =>
        match cohAll s (.op h n) .own none (spanRanges p.spans) with
          | .wait s' => .next s'
          | .ok s' => .next (decideRequest (useCell s' p.pa [(p.pa, 64)]) h p)

/-! Drains (R119). -/

/-- DRAIN_REQUEST: an agent answers an FNC.HV once every store it had accepted before the request is visible. -/
def execDrainRequest (h : Hart) (a : Agent) (s : State) : Result :=
  match hartOf s h with
  | none => .next s
  | some hs => match hs.run.drain with
    | none => .next s
    | some (n, as) =>
      if s.stores.any fun x => agentOf x.hart == a && !x.performed && decide (x.n < n) then .next s
      else
        let rest := as.filter (· ≠ a)
        .next (setHart s h { hs with run := { hs.run with drain := if rest.isEmpty then none else some (n, rest) } })

/-! Tiles (R138 to R141, R239). -/

/-- The record a TDECL asks for. -/
def tileOfDesc (base : Nat) (desc : Word) (grain : BitVec 2) : TileRec :=
  ⟨base, desc.toNat % 64, desc.toNat / 64 % 128, desc.toNat / 65536 % 2 ^ 32, grainBytes grain, .ti, none, 0, 0, [], false, false, []⟩

/-- The descriptor, alignment, page and window rules of R138 and rule 8 of R239. -/
def tileShapeOk (m : Nat) (desc : Word) (a : Placed) : Bool :=
  let t := tileOfDesc a.pa desc a.grain
  desc.extractLsb' 13 3 == 0 && desc.extractLsb' 48 16 == 0 && decide (1 ≤ t.rows ∧ t.rows ≤ 32 ∧ 1 ≤ t.rbytes ∧ t.rbytes ≤ 64) &&
    decide (t.pitch % 32 = 0 ∧ (t.rows ≤ 1 ∨ t.rbytes ≤ t.pitch)) && decide (a.pa % 32 = 0) &&
    !isWindow a.pa && a.pol != 2 && a.stripe == 0 && paModule a.pa == m &&
    decide (a.off + (t.rows - 1) * t.pitch + t.rbytes ≤ 2 ^ a.size) && memRangeOk a.pa ((t.rows - 1) * t.pitch + t.rbytes)

/-- Live tiles whose home lies on the die of an address. -/
def dieTiles (s : State) (pa : Nat) : Nat := (s.tiles.filter fun t => (homeOf s t.base).1 == (homeOf s pa).1).length

/-- A tile's record, its stubs in the other frames (R237), and the grains that straddle its edge, which are split (R239). -/
def addTile (s : State) (t : TileRec) : State :=
  let frames := ((t.sectors.map frameOf).eraseDups).filter fun f => f ≠ frameOf t.base
  let grain (x : Nat) : Nat × Nat :=
    let n := (assocGet s.frames (frameOf x)).getD t.grain
    (x / n * n, n)
  let straddled := (((t.sectors.map grain).eraseDups).filter fun g => !(List.range (g.2 / 32)).all fun i => t.covers (g.1 + 32 * i)).map (·.1)
  { s with
    tiles := s.tiles ++ [t]
    stubs := s.stubs ++ frames.map fun f => (f, t.base)
    splits := s.splits ++ straddled.filter fun b => !s.splits.contains b }

/-- A TUNDECL of one of some tiles arrived before a request and waits: what it leaves decides what the request finds (R240). -/
def earlierUndecl (s : State) (v : Visitor) (bases : List Nat) : Bool :=
  (s.arrivals.takeWhile fun x => x.who != v).any fun x => match x.who with
    | .req (.op h n) => opWaits s h n (· == .tundecl) && x.ranges.any fun r => bases.contains r.1
    | _ => false

/-- TDECL: the state and the status (R138 to R140, R239), or a wait: for a TUNDECL that arrived before, or for the host. -/
def declareTile (s : State) (h : Hart) (n : Nat) (desc : Word) (a : Placed) : Except State (State × Nat) :=
  if !tileShapeOk (hartModule h) desc a then .ok (s, 3)
  else
    let t := tileOfDesc a.pa desc a.grain
    let secs := t.sectors
    let live := secs.filterMap fun x => (tileAt s x).map (·.base)
    if earlierUndecl s (.req (.op h n)) live then .error (queueUp s (.req (.op h n)) (secs.map fun x => (x, 32)))
    else if !live.isEmpty then .ok (s, 1)
    else if 4096 ≤ dieTiles s a.pa then .ok (s, 2)
    else match cohAll s (.op h n) .own none (secs.map fun x => (x, 32, a.grain)) with
      | .wait s' => .error s'
      | .ok s' =>
        let s2 := secs.foldl (fun t x => noteFrame (clearPoison t x 32) x (grainBytes a.grain)) s'
        .ok (addTile s2 t, 0)

/-- The sharers of a tile as the home of one of its grains holds them (R234, R238): bits of clusters stand for the home's die, presence bits for the
others. The tile's home knows of another die only that it holds copies, so that each of that die's clusters may (DEDUCED, log 105). -/
def sharersAt (s : State) (t : TileRec) (base : Nat) : BitVec 32 × BitVec 4 :=
  let d := (homeOf s t.base).1 % 4
  let e := (homeOf s base).1 % 4
  if d = e then (t.vec, t.dies)
  else
    let bit (k : Nat) : BitVec 4 := 1 <<< k
    (if t.dies.getLsbD e then BitVec.allOnes 32 else 0, (t.dies &&& ~~~bit e) ||| (if t.vec = 0 then 0 else bit d))

/-- The entry that a sector's grain takes when its tile ends (R238, R239). -/
def undeclareSector (t : TileRec) (s : State) (x : Nat) : State :=
  let n := (assocGet s.frames (frameOf x)).getD t.grain
  let b := x / n * n
  let whole := !s.splits.contains b && (List.range (n / 32)).all fun i => t.covers (b + 32 * i)
  let (base, size) := if whole then (b, n) else (x, 32)
  let (vec, dies) := sharersAt s t base
  let g : GrainDir := ⟨size, t.owner, vec, dies, t.copies, t.host, t.hostX, t.dirty.filter fun d => decide (base ≤ d ∧ d < base + size)⟩
  match t.state with
  | .ti => s
  | _ => { s with grains := assocSet s.grains base g }

/-- TUNDECL of a live tile. -/
def undeclareTile (s : State) (t : TileRec) : State := t.sectors.foldl (undeclareSector t) (dropTileRec s t.base)

def isForward (t : TileRec) : Bool := match t.state with
  | .tf _ => true
  | _ => false

/-- A tile instruction at the tile's record: a status, or the next stage. It takes its turn there (R237, R240). -/
def tileInstr (s : State) (h : Hart) (hs : HartState) (p : Pending) (a : Placed) : State :=
  let me := Visitor.req (.op h p.seq)
  let mine := [(a.pa, 1)]
  let status (s : State) (k : Nat) : State := finishOp s h p.seq [BitVec.ofNat 64 k]
  let rec? := if isWindow a.pa then none else s.tiles.find? fun t => t.base == a.pa
  match p.op with
  | .tdecl desc => match declareTile s h p.seq desc a with
    | .error s' => s'
    | .ok (s', k) => status s' k
  | .tundecl => match rec? with
    | none => status s 4
    | some t =>
      if isForward t then status s 5
      else if mustQueue s me [.tile t.base] then queueUp s me mine
      else status (undeclareTile (served s me) t) 0
  | .tfwd target =>
    if p.phase = .waiting then
      match rec?, target with
      | some t, some c => status (setTileRec s { t with state := .te, owner := some c, vec := 0, dies := 0, copies := [] }) 0
      | _, _ => status s 4
    else match target with
      | none => status s 6
      | some c =>
        if coreModule c ≠ paModule a.pa || !coreUsable s c then status s 6
        else match rec? with
          | none => status s 4
          | some t =>
            if isForward t then status s 5
            else if mustQueue s me [.tile t.base] then queueUp s me mine
            else if t.hostX || t.host then sendSnoops (queueUp s me mine) (.op h p.seq) .own [.tile t.base]
            else updateOp (setTileRec (served s me) { t with state := .tf c }) h p.seq fun q => { q with phase := .waiting }
  | _ => let _ := hs; s

def isTileInstr : Op → Bool
  | .tdecl _ | .tundecl | .tfwd _ => true
  | _ => false

/-- A TDECL that returns SHAPE reaches no home (R138, R239). -/
def tileRefused (h : Hart) (op : Op) (a : Placed) : Bool := match op with
  | .tdecl desc => !tileShapeOk (hartModule h) desc a
  | _ => false

/-- TILE_REQUEST: what reaches a tile record (R238 to R241). A forward takes two requests: its start and its end. -/
def execTileRequest (e : TileEvent) (r : Req) (s : State) : Result :=
  match askedOf s r with
  | none => .next s
  | some (.store a) =>
    if !inTiles s a.p then .next s
    else match e with
      | .read => .next s
      | .write => match a.core with
        | some c => .next (showCached s r a c)
        | none => .next s
      | .home => if homeStore a then .next (showHome s r a) else .next s
  | some (.op h hs p) => match e with
    | .read =>
      match hartCore h with
      | some c =>
        if !p.op.isLoad || !p.placed || p.fetched || goesWindow p || goesHome h p || !inTiles s p then .next s
        else match cohAll s r .read (some c) (spanRanges p.spans) with
          | .wait s' => .next s'
          | .ok s' => .next (updateOp s' h p.seq fun q => { q with fetched := true })
      | none => .next s
    | .write => match hartCore h with
      | some c => if inTiles s p then .next (ownAtomic s r h hs p c) else .next s
      | none => .next s
    | .home =>
      if isTileInstr p.op then
        match p.spans.head?.bind (·.at_) with
        | some a =>
          if !mayPerform s h hs p true then .next s
          else match if tileRefused h p.op a then none else memError s (hartModule h) false p.spans with
            | some (c, v) => .next (failOp s h p.seq c v)
            | none => .next (tileInstr s h hs p a)
        | none => .next s
      else if inTiles s p then .next (homeAtomic s r h hs p) else .next s

/-! Translation walks (R296, R297). -/

/-- Adds a translation to a TLB. -/
def addTlb (t : List TlbEntry) (asid : BitVec 16) (va : Word) (leaf : Leaf) : List TlbEntry :=
  let e : TlbEntry := ⟨asid, pageBase va leaf.size, leaf⟩
  if t.contains e then t else t ++ [e]

/-- One joined request takes the walk's result: its access goes on with the translation, or has found the fault. -/
def walkAnswer (r : Except Cause Leaf) (x : Walk) (s : State) (w : Waiter) : State :=
  match hartByUid s w.uid with
  | none => s
  | some (h, hs) => match findOp hs w.seq with
    | none => s
    | some p =>
      if p.phase ≠ .request then s
      else match r with
        | .ok leaf =>
          let s1 := match hartCore h with
            | some c => setCore s c { coreOf s c with tlb := addTlb (coreOf s c).tlb x.ptbr.asid (BitVec.ofNat 64 x.page) leaf }
            | none => s
          let (s2, hs2) := translateOp s1 h hs p
          setHart s2 h hs2
        | .error c => match p.spans.find? fun y => y.at_.isNone with
          | some y => updateOp s h p.seq fun q => { q with phase := .found (asFetch y.right c) y.va }
          | none => s

/-- A hart whose fetch joined a walk takes its result: the translation, or the fault (R22, R297). -/
def walkFetch (r : Except Cause Leaf) (x : Walk) (s : State) (uid : Nat) : State :=
  match hartByUid s uid with
  | none => s
  | some (h, hs) => match r with
    | .ok leaf => match hartCore h with
      | some c => setCore s c { coreOf s c with tlb := addTlb (coreOf s c).tlb x.ptbr.asid (BitVec.ofNat 64 x.page) leaf }
      | none => s
    | .error c => setHart s h { hs with run := { hs.run with fetchFault := some (x.page, c) } }

/-- The reads of a walk at the homes of its entries. -/
def walkAsk (s : State) (gdie : Nat) (x : Walk) : CohResult :=
  cohAll s (.walk gdie x.ptbr.asid x.page) .read none ((walkReads s x.ptbr (BitVec.ofNat 64 x.page)).map fun a => (a, 8, 1))

/-- A walk of a die ends: its translation is cached, and every request that joined it is answered. -/
def endWalk (s : State) (gdie : Nat) (x : Walk) (r : Except Cause Leaf) : State :=
  let ds := dieState s gdie
  let cache := match r with
    | .ok leaf => addTlb ds.cache x.ptbr.asid (BitVec.ofNat 64 x.page) leaf
    | .error _ => ds.cache
  let s1 := setDie s gdie { ds with walks := ds.walks.erase x, cache := cache }
  x.fetching.foldl (walkFetch r x) (x.joined.foldl (walkAnswer r x) s1)

/-- TRANSLATION_WALK: a walker of a die finishes walk `i`. Page tables are coherent memory: the walk reads its entries at their homes in its turn
there, and waits for one that the host owns (R232, R236, R243). R236 names no request of a walker: its reads act as UC loads (DESIGN CHOICE, log 116).
-/
def execTranslationWalk (gdie : Nat) (i : Nat) (s : State) : Result :=
  if 16 ≤ i then .next s
  else match (dieState s gdie).walks[i]? with
    | none => .next s
    | some x => match walkAsk s gdie x with
      | .wait s' => .next s'
      | .ok s' => .next (endWalk { s' with free := s.free + 1 } gdie x (walk s (gdie / 4) x.ptbr (BitVec.ofNat 64 x.page)))

/-! The host (R241, R242). -/

/-- The address of a byte of a module's memory. -/
def modulePa (m off : Nat) : Nat := m * 2 ^ 42 + off % 2 ^ 42

def execHostRead (m : Nat) (pa : Nat) (s : State) : Result :=
  if (moduleOf s m).host.up && memPaOk (modulePa m pa) then .next (hostRequest s false (modulePa m pa / 64 * 64)) else .next s

def execHostOwnershipRequest (m : Nat) (pa : Nat) (s : State) : Result :=
  if (moduleOf s m).host.up && memPaOk (modulePa m pa) then .next (hostRequest s true (modulePa m pa / 64 * 64)) else .next s

/-- The host's data for sectors that it owns come to memory. -/
def hostWrites (s : State) (xs : List (Nat × List Byte)) : State :=
  xs.foldl (fun t x => recordInput (writeMem t x.1 x.2) (paModule x.1) (.hostWrite x.1 x.2)) s

/-- BACK_INVALIDATION_RESPONSE: the host answers a snoop, with its data when it has modified the line (R242). -/
def execBackInvalidationResponse (m : Nat) (pa : Nat) (data : Option (BitVec 512)) (s : State) : Result :=
  let line := modulePa m pa / 64 * 64
  if !(s.snoops.any fun x => x.line == line) then .next s
  else
    let s1 := match data with
      | some d => hostWrites s (hostSectors s line d)
      | none => s
    .next (answerSnoop s1 line)

/-- The host writes back what it owns at a line and gives it up (R236, R238). -/
def hostEvicts (s : State) (line : Nat) (data : List (Nat × BitVec 512)) : State :=
  let us := lineUnits s line
  let written := data.flatMap fun x => (hostSectors s x.1 x.2).filter fun y => us.contains (unitOf s y.1 1)
  us.foldl hostEvictUnit (hostWrites s written)

/-- The waiting request of a snoop gets an error reply (R242): a gather or scatter of its lowest lane that acts on a unit of the snoop (R158), a walk for
all that joined it (R297), the arrival of a copy (R131), a fetch (R22). -/
def failReq (s : State) (x : Snoop) : State :=
  let asks (y : Span) (a : Placed) : Bool := (unitsOf s a.pa y.len a.grain).any fun u => x.units.any u.meets
  match askedOf s x.req with
  | some (.store a) => storeFails s a .ereply (a.p.laneVa asks)
  | some (.op h hs p) => opFails s h hs p .ereply (p.laneVa asks)
  | none => match x.req with
    | .core c pa => { s with prefetches := s.prefetches.filter fun y => !(y.1 == c && y.2.1 == pa) }
    | .walk d asid page => match (dieState s d).walks.find? fun w => w.ptbr.asid == asid && w.page == page with
      | some w => endWalk s d w (.error .ereply)
      | none => s
    | .arrival e n => match openOp s (.engine e) n with
      | some (_, p) => failOp s (.engine e) n .ereply p.arrivalVa
      | none => s
    | .fetch h => match hartOf s h with
      | some hs => setHart s h { hs with run := { hs.run with fetchFault := some ((issuePc hs).toNat / 4096 * 4096, .ereply) } }
      | none => s
    | _ => s

/-- Poisons a range. -/
def poisonRange (s : State) (pa len : Nat) : State :=
  { s with poison := s.poison ++ ((List.range len).map (pa + ·)).filter fun a => !s.poison.contains a }

/-- What the host holds alone it may have modified: where it asked for ownership, it has; where it took E by a read, a store of its own makes that M
without a request (R236), and whether it has done so only the host knows: a free value (log 125). -/
def hostModified (s : State) (dirty : List Nat) : Bool := !dirty.isEmpty || Config.freeBool s.free

/-- HOST goes from a grain; what the host held modified is poisoned (R355). -/
def loseLine (m : Nat) (s : State) (x : Nat × GrainDir) : State :=
  if paModule x.1 ≠ m || !(x.2.host || x.2.hostX) then s
  else
    let s1 := { releaseHost s false (.line x.1 x.2.size) with free := s.free + 1 }
    if x.2.hostX && hostModified s x.2.dirty then poisonRange s1 x.1 x.2.size else s1

/-- The same of a tile. -/
def loseTile (m : Nat) (s : State) (t : TileRec) : State :=
  if paModule t.base ≠ m || !(t.host || t.hostX) then s
  else
    let s1 := { releaseHost s false (.tile t.base) with free := s.free + 1 }
    if t.hostX && hostModified s t.dirty then t.sectors.foldl (fun u a => poisonRange u a 32) s1 else s1

def setHost (s : State) (m : Nat) (x : HostState) : State := setModule s m { moduleOf s m with host := x }

/-- A waiting request of a module's host. -/
def Arrival.ofHost (m : Nat) (x : Arrival) : Bool := match x.who with
  | .host _ => x.ranges.any fun r => paModule r.1 == m
  | .req _ => false

/-- The host link is down (R355): every copy of the host is lost, requests that wait for an answer fail (R242), and so do descriptors from
now on. -/
def linkDown (s : State) (m : Nat) : State :=
  let s1 := s.grains.foldl (loseLine m) s
  let s2 := s.tiles.foldl (loseTile m) s1
  let late := s2.snoops.filter fun x => paModule x.line == m
  let s3 := late.foldl (fun t x => failReq { t with snoops := t.snoops.filter fun y => y.line ≠ x.line } x) s2
  setHost { s3 with arrivals := s3.arrivals.filter fun x => !x.ofHost m } m { (moduleOf s3 m).host with up := false }

/-- BACK_INVALIDATION_TIMEOUT: the home drops HOST and keeps its own data, and the request that waits gets an error reply; the link is taken
down, which is the error handling of R355 (DEDUCED, log 79). -/
def execBackInvalidationTimeout (m : Nat) (pa : Nat) (s : State) : Result :=
  let line := modulePa m pa / 64 * 64
  match s.snoops.find? fun x => x.line == line with
  | none => .next s
  | some x =>
    if s.now < x.sent + (moduleOf s m).bito then .next s
    else
      let s1 := x.units.foldl (releaseHost · false ·) { s with snoops := s.snoops.filter fun y => y.line ≠ line }
      .next (linkDown (failReq s1 x) m)

end Sys2Proof.Machine
end

