-- ==== Sys2Proof/Machine/Fabric.lean ====
section
/-!
DEFINITION. The fabric's ports and routes: flits and their CRC (R341), acknowledgement and replay (R345), training (R346), route changes and the
port a packet leaves by (R342, R344).
-/

namespace Sys2Proof.Machine

/-! Flits (R341). R341 gives what a flit carries and neither the places of its fields nor the bytes its CRC covers: the model's are those of
`flitBytes` (DESIGN CHOICE, log 62). -/

/-- CRC-32 of IEEE 802.3, one byte further. -/
def crcByte (c : BitVec 32) (b : Byte) : BitVec 32 :=
  (List.range 8).foldl (fun x _ => if x.getLsbD 0 then (x >>> 1) ^^^ 0xEDB88320#32 else x >>> 1) (c ^^^ b.zeroExtend 32)
def crc32 (bs : List Byte) : BitVec 32 := ~~~(bs.foldl crcByte (BitVec.allOnes 32))

def classCode : PacketClass → Nat
  | .ctl => 0
  | .rsp => 1
  | .qhi => 2
  | .req => 3
  | .qlo => 4

/-- A hart as a header flit names it. -/
def hartCode : Hart → Nat
  | .strand c n => 8 * c + n
  | .engine e => 2 ^ 31 + e

/-- The bytes a flit's CRC covers. -/
def flitBytes (x : Flit) : List Byte :=
  leBytes 2 x.seq.toNat ++ leBytes 1 x.channel ++ match x.body with
    | .header h => leBytes 2 h.src ++ leBytes 2 h.dst ++ leBytes 4 (hartCode h.hart) ++
        leBytes 5 (h.gang.elim (2 ^ 32) fun g => g) ++ leBytes 1 (classCode h.cls) ++ leBytes 1 h.len
    | .payload data => data

/-! The way out of a module (R342, R344). -/

/-- The next module of a packet's own direction is in service, and so is a port to it. -/
def directOk (s : State) (m dst : Nat) : Bool := match nextTurn s m dst with
  | none => true
  | some (dim, down) =>
    let g := portGroup dim down
    !groupDown s m g && match portPeer s m g.1 with
      | some k => live s k
      | none => false

/-- The port a packet of linear core `core` leaves module `m` through, on its route from module `src` to module `dst`: firmware's, or that of the
first dimension that differs, with the ports after it in its group while it is down. Beside a group that is down or a module out of service it steps
over to the parallel ring, goes on there, and steps back where its own ring goes on (DEDUCED, log 53). An engine's packets, which have no source core,
count as those of linear core 0 (DESIGN CHOICE, log 53). -/
def portAt (s : State) (m src core dst : Nat) : Option Nat :=
  let by_ (t : Nat × Bool) : Option Nat :=
    let g := portGroup t.1 t.2
    livePort s m g ((core ^^^ dst) % g.2)
  let toward (k : Nat) : Option Nat := (nextTurn s m k).bind by_
  let own := setDim (setDim m 2 (dimOf src 2)) 3 (dimOf src 3)
  match assocGet (moduleOf s m).routes dst with
  | some p =>
    let g := portGroup (portTurn p).1 (portTurn p).2
    livePort s m g (p - g.1)
  | none => match nextTurn s m dst with
    | none => none
    | some t =>
      if 2 ≤ t.1 then by_ t
      else if m = own then (if directOk s m dst then by_ t else (beside s m).bind toward)
      else if live s own && directOk s own dst then toward own
      else by_ t

/-! Ports (R345). -/

def setPortState (s : State) (m p : Nat) (x : FabricPort) : State :=
  let ms := moduleOf s m
  setModule s m { ms with ports := assocSet ms.ports p x }

/-- The port at the other end of a link: the opposite group, the same place. -/
def farPort (port : Nat) : Nat := if port < 32 then port ^^^ 8 else port ^^^ 4

/-- The sender's port once it has sent a flit: one of its replay buffer again, or its next one while that buffer has room, which must be what it owes
first for a port held down. `none`: it has no such flit to send. -/
def sendsFlit (p : FabricPort) (x : Flit) : Option FabricPort :=
  if p.replay.contains x then some p
  else if x.seq ≠ p.next ∨ 512 ≤ p.replay.length then none
  else
    let sent := { p with next := p.next + 1, replay := p.replay ++ [x] }
    match p.owed with
    | [] => some sent
    | y :: rest => if y.channel = x.channel ∧ y.body = x.body then some { sent with owed := rest } else none

/-- The headers of packets that a link has in part: received without their last flit, or sent and not acknowledged, with the flits to come. -/
def linkParts (p q : FabricPort) : List (Nat × FlitHeader) :=
  (p.parts.map fun y => (y.1, y.2.1)) ++ q.replay.filterMap fun x => match x.body with
    | .header h => if h.len ≤ 1 then none else some (x.channel, h)
    | .payload _ => none

/-- The linear number of a header's source core (R342). -/
def headerCore (h : FlitHeader) : Nat := ((hartCore h.hart).map coreLinear).getD 0

/-- Two packets have one source core, or one engine, and one destination module. -/
def samePair (h k : FlitHeader) : Bool := h.dst == k.dst && match h.hart, k.hart with
  | .strand c _, .strand d _ => c == d
  | x, y => x == y

/-- A flit may leave module `k` through a port now: it is sent again, or it is owed by a port held down; or it is a header on a channel of its class
that no packet is using, at the port of its packet's route, behind every packet of its source core to its destination, but that a push of high
priority passes one of low priority (R217, R342, R343); or it goes on with a packet. `p` is the receiver's port, `q` the sender's. -/
def mayLeave (s : State) (k port : Nat) (p q : FabricPort) (x : Flit) : Bool :=
  let parts := linkParts p q
  q.replay.contains x || !q.owed.isEmpty || match x.body with
    | .header h => portAt s k h.src (headerCore h) h.dst == some port && decide (x.channel / 2 = classCode h.cls) && parts.all fun y =>
        y.1 != x.channel && (!samePair y.2 h || (h.cls == .qhi && y.2.cls == .qlo))
    | .payload _ => parts.any fun y => y.1 == x.channel

/-- An accepted flit continues the packets of its channel; the header of a packet that it completes. -/
def assemble (parts : List (Nat × FlitHeader × Nat)) (x : Flit) : List (Nat × FlitHeader × Nat) × Option FlitHeader :=
  let rest := parts.filter fun y => y.1 != x.channel
  match x.body, parts.find? fun y => y.1 == x.channel with
  | .header h, _ => if h.len ≤ 1 then (rest, some h) else (rest ++ [(x.channel, h, h.len - 1)], none)
  | .payload _, some (_, h, n) => if n ≤ 1 then (rest, some h) else (rest ++ [(x.channel, h, n - 1)], none)
  | .payload _, none => (parts, none)

/-- FLIT_RECEIVE: the flit that a port expects, with a good CRC, is acknowledged and leaves the sender's replay buffer; any other is answered with a
negative acknowledgement, and stays there. Its packet leaves by the port of its route (mayLeave). A flit that has been replayed 8 times in succession
and fails again retrains the link. `crc` is the CRC as it arrives. -/
def execFlitReceive (m port : Nat) (x : Flit) (crc : BitVec 32) (s : State) : Result :=
  match portPeer s m port with
  | none => .next s
  | some k =>
    let p := portState s m port
    let far := farPort port
    let q := portState s k far
    if !p.up || !q.up || !mayLeave s k far p q x then .next s
    else match sendsFlit q x with
      | none => .next s
      | some q1 =>
        if crc = crc32 (flitBytes x) ∧ x.seq = p.expected then
          let (parts, whole) := assemble p.parts x
          let s1 := setPortState s k far { q1 with replay := q1.replay.filter (· ≠ x) }
          let s2 := setPortState s1 m port { p with
            expected := p.expected + 1
            acks := p.acks + 1
            replays := 0
            parts := parts }
          .next (whole.elim s2 fun h => if h.dst = m then recordInput s2 m (.packet h) else s2)
        else
          let failed := decide (x.seq = p.expected)
          let down := failed && decide (8 ≤ p.replays)
          let s1 := setPortState s k far { q1 with up := q1.up && !down }
          .next (setPortState s1 m port { p with
            up := !down
            naks := p.naks + 1
            replays := if down then 0 else if failed then p.replays + 1 else p.replays })

/-! Training (R346). -/

/-- Raises an MSI-X vector. -/
def raiseMsix (s : State) (m vec : Nat) : State :=
  let ms := moduleOf s m
  setModule s m { ms with host := { ms.host with msix := ms.host.msix ++ [vec] } }

/-- What a port held down has not had acknowledged goes to the next live port of its group, before anything newer; so does what it has received of
packets. The port's next flit is then the one that the other end expects. -/
def handOver (s : State) (m port : Nat) : State :=
  let (dim, down) := portTurn port
  let g := portGroup dim down
  match livePort s m g (port - g.1) with
  | none => s
  | some q =>
    let p := portState s m port
    let t := portState s m q
    let next := match portPeer s m port with
      | some k => (portState s k (farPort port)).expected
      | none => p.next
    setPortState (setPortState s m port { p with replay := [], owed := [], parts := [], next := next }) m q
      { t with owed := t.owed ++ p.replay ++ p.owed, parts := t.parts ++ p.parts }

/-- A port that has trained goes on where the other end stands: it expects the first flit which that has yet to have acknowledged, and sends, behind
its replay buffer, the one which that expects. -/
def realigned (p q : FabricPort) : FabricPort :=
  { p with
    next := if p.replay.isEmpty then q.expected else p.next
    expected := match q.replay with
      | x :: _ => x.seq
      | [] => q.next }

/-- A port whose two ends have presented their views: up at the common one, or held down with LINKMIS. -/
def trainPort (s : State) (m port : Nat) (mine peer : LinkView) : State :=
  let p := portState s m port
  if mine = peer then setPortState s m port { (portPeer s m port).elim p fun k => realigned p (portState s k (farPort port)) with
    up := true
    width := mine.width
    lanes := mine.lanes
    rate := mine.rate
    replays := 0 }
  else
    let s1 := handOver (setPortState s m port { p with up := false, replays := 0 }) m port
    raiseModule (raiseMsix s1 m 59) m .linkmis (BitVec.ofNat 64 port)

/-- LINK_TRAINING. -/
def execLinkTraining (m port : Nat) (mine peer : LinkView) (s : State) : Result :=
  if (portPeer s m port).isNone then .next s else .next (trainPort s m port mine peer)

/-! Route changes (R344). -/

/-- The module a message goes to. -/
def Msg.dest : Msg → Option Nat
  | .launch target _ _ _ _ _ => target.map coreModule
  | .join r => some (r.die / 4)
  | .joinLink m _ _ => some m
  | .report m _ _ | .token m _ | .release m _ _ _ | .share m _ _ _ | .gridDone m _ _ _ _ => some m

/-- A packet from a module to another is in flight: a store or a request, a queue entry that cannot be popped yet, a ship, which may be returned; and
any message to that module, whose sender is not held (log 53). -/
def pairBusy (s : State) (m dst : Nat) : Bool :=
  let at_ (uid k : Nat) : Bool := match hartByUid s uid with
    | some (h, _) => hartModule h == k
    | none => false
  (s.stores.any fun a => hartModule a.hart == m && a.p.remote && paModule a.p.pa == dst) ||
    (s.harts.any fun x => hartModule x.1 == m && x.2.run.ops.any fun p => p.remote && paModule p.pa == dst) ||
    (m != dst && ((s.pushes.any fun x => at_ x.src m && at_ x.target dst) ||
      (s.ships.any fun x => [(coreModule x.core, coreModule x.dest), (coreModule x.dest, coreModule x.core)].contains (m, dst)) ||
      s.msgs.any fun x => x.2.dest == some dst))

/-- The route changes of a module whose pairs have no packet in flight take effect. -/
def settleRoutes (s : State) (m : Nat) : State :=
  let ms := moduleOf s m
  match ms.reroutes.filter fun r => !pairBusy s m r.1 with
  | [] => s
  | rs => setModule s m { ms with
      routes := rs.foldl (fun l r => assocSet l r.1 r.2) ms.routes
      reroutes := ms.reroutes.filter fun r => pairBusy s m r.1 }

/-- Those of every module, before anything else is sent. -/
def settleAll (s : State) : State := s.modules.foldl (fun t x => if x.2.reroutes.isEmpty then t else settleRoutes t x.1) s

/-- ROUTE_UPDATE: a CTL packet writes firmware's route change. -/
def execRouteUpdate (m dst port : Nat) (s : State) : Result :=
  let ms := moduleOf s m
  .next (settleRoutes (setModule s m { ms with reroutes := assocSet ms.reroutes dst port }) m)

end Sys2Proof.Machine
end

