-- ==== Sys2Proof/Machine/System.lean ====
section
/-!
DEFINITION. System registers (R198), traps and asynchronous causes (R199 to R205, R271), translation invalidation and halt (R220,
R221), queues (R216 to R218) and named barriers (R219).
-/

namespace Sys2Proof.Machine

/-! Reading system registers (R198). -/

/-- TDIRTY of a core (R168). -/
def tdirtyWord (cs : CoreState) : Word :=
  BitVec.ofNat 64 ((List.finRange 8).foldl (fun n t =>
    n + (if (tileOf cs t).dirty then 2 ^ t.val else 0) + (if (tileOf cs t).absent then 2 ^ (8 + t.val) else 0)) 0)

def tcauseWord (t : TrapRegs) : Word := t.tcause.zeroExtend 64
def ptbrWord (p : Ptbr) : Word := (0 : BitVec 3) ++ p.root ++ p.asid
def ptbrOfWord (x : Word) : Ptbr := ⟨x.extractLsb' 0 16, x.extractLsb' 16 45⟩

/-- TIME as a strand reads it: never less than what has been read before it (R205). -/
def timeRead (s : State) (h : Hart) : Nat := max (timeOf s (hartModule h)) s.timeSeen

/-- A strand has read TIME. -/
def sawTime (s : State) (h : Hart) : State := { s with timeSeen := timeRead s h }

/-- The value MFS returns. -/
def sysRead (s : State) (h : Hart) (hs : HartState) (r : SysReg) : Word :=
  let cs := coreOf s (ownCore h)
  let ms := moduleOf s (hartModule h)
  match r with
  | .sstat => sstatWord hs.st
  | .smode => smodeWord h hs
  | .fpctl => fpctlWord hs.fp
  | .cbsel => cs.cbsel.zeroExtend 64
  | .scale n => (hs.mx.scale.get n).zeroExtend 64
  | .unf n => hs.mx.unf.get n
  | .qcfg n => (portOf hs n).cfg.zeroExtend 64
  | .tshape n => (tileOf cs n).shape
  | .tdirty => tdirtyWord cs
  | .time => BitVec.ofNat 64 (timeRead s h)
  | .timecmp => hs.timecmp
  | .tvec => hs.trap.tvec
  | .tcause => tcauseWord hs.trap
  | .tpc => hs.trap.tpc
  | .tval => hs.trap.tval
  | .rply => hs.trap.rply
  | .tres => hs.trap.tres
  | .tscr => hs.trap.tscr
  | .nbpend => hs.trap.nbpend.zeroExtend 64
  | .ptbr => ptbrWord hs.ptbr
  | .wdog => cs.wdog.zeroExtend 64
  | .mcap => cs.mcap
  | .thrank => (dieState s (hartDie h)).thrank.zeroExtend 64
  | .tttb => ms.tttb
  | .mevt => ms.mevt

/-- Registers that user harts do not read. -/
def sysPrivileged : SysReg → Bool
  | .tvec | .tcause | .tpc | .tval | .rply | .tres | .tscr | .nbpend | .ptbr | .wdog | .mcap | .thrank | .tttb | .mevt => true
  | _ => false

/-- Registers held per core, which an engine hart does not reach (R206). -/
def sysOfCore : SysReg → Bool
  | .cbsel | .tshape _ | .tdirty | .wdog | .mcap => true
  | _ => false

/-- Registers read with variable latency. -/
def sysVariable : SysReg → Bool
  | .thrank | .tttb | .mevt => true
  | _ => false

def execMfs (d : Dst) (r : SysReg) (s : State) : Result :=
  issue s 8 { dsts := [d], supervisor := sysPrivileged r, profile := if sysOfCore r then .coreOnly else .any,
              place := sysVariable r } fun h s hs _ =>
    let v := sysRead s h hs r
    if sysVariable r then .done s (addOp hs (newOp hs (.value v) (.scalar d)))
    else
      let (s', hs') := writeDst (if r = .time then sawTime s h else s) h hs d v
      .done s' hs'

/-! Writing system registers (R198). -/

/-- An MTS of a register of the strand. -/
def mtsStrand (a : Src) (supervisor : Bool) (f : HartState → Word → HartState) (s : State) : Result :=
  issue s 8 { srcs := [a], supervisor := supervisor } fun _ s hs vals => .done s (f hs (vals.getD 0 0))

/-- QCFGn under a supervisor MTS: every field is written, and the entries stay. R13 has the coordinate word of PEER checked and MTS names no cause
for it: nonzero reserved bits of that word are stored as they stand, and read back; so are those of a record (DESIGN CHOICE, log 117). -/
def qcfgWrite (hs : HartState) (n : Fin 4) (x : Word) : HartState :=
  setPort hs n { portOf hs n with cfg := x.truncate 40 }

/-- The registers whose write needs nothing but the strand. -/
def plainWrite (r : PlainReg) (hs : HartState) (x : Word) : HartState :=
  match r with
  | .smode => { hs with migr := x.getLsbD 0 }
  | .scale n => { hs with mx := { hs.mx with scale := hs.mx.scale.set n.val (x.truncate 32) n.isLt } }
  | .unf n => { hs with mx := { hs.mx with unf := hs.mx.unf.set n.val (unfMask n x) n.isLt } }
  | .qcfg n => qcfgWrite hs n x
  | .time => hs
  | .tvec => { hs with trap := { hs.trap with tvec := wordAligned x } }
  | .tcause => { hs with trap := { hs.trap with tcause := x.truncate 7 } }
  | .tpc => { hs with trap := { hs.trap with tpc := x } }
  | .tval => { hs with trap := { hs.trap with tval := x } }
  | .rply => { hs with trap := { hs.trap with rply := x } }
  | .tres => { hs with trap := { hs.trap with tres := wordAligned x } }
  | .tscr => { hs with trap := { hs.trap with tscr := x } }
  | .nbpend => { hs with trap := { hs.trap with nbpend := x.truncate 40 } }

/-- Registers that only supervisor harts write. -/
def plainPrivileged : PlainReg → Bool
  | .scale _ | .unf _ => false
  | _ => true

/-- MTS of the plain registers. TIME is refused to every hart. -/
def execMts (r : PlainReg) (a : Src) (s : State) : Result :=
  match r with
  | .time => issue s 8 { srcs := [a], refused := true } fun _ s hs _ => .done s hs
  | r => mtsStrand a (plainPrivileged r) (plainWrite r) s

def execSstatWrite (a : Src) (s : State) : Result := mtsStrand a true (fun hs x => { hs with st := sstatWrite hs.st x }) s
def execFpctlWrite (a : Src) (s : State) : Result := mtsStrand a false (fun hs x => { hs with fp := fpctlWrite hs.fp x }) s
def execTimecmpWrite (a : Src) (s : State) : Result := mtsStrand a false (fun hs x => { hs with timecmp := x }) s

/-- An MTS of a register of the core. -/
def mtsCore (a : Src) (supervisor : Bool) (ws : List Hold) (f : State → Nat → CoreState → Word → CoreState) (s : State) : Result :=
  issue s 8 { srcs := [a], supervisor := supervisor, profile := .coreOnly } fun h s hs vals =>
    let c := ownCore h
    holdUp s h hs ws (.done (setCore s c (f s c (coreOf s c) (vals.getD 0 0))) hs)

def execCbselWrite (a : Src) (s : State) : Result :=
  mtsCore a false [] (fun _ _ cs x => { cs with cbsel := x.truncate 2 }) s

/-- MTS of MCAP parks until every command accepted under the old value has been performed (R189). -/
def execMcapWrite (a : Src) (s : State) : Result :=
  mtsCore a true [.commands] (fun _ _ cs x => { cs with mcap := x }) s

/-- The stored fields of a shape word under MTS (R165). -/
def shapeMask (x : Word) : Word := x &&& 0x170F3FFF#64

/-- MTS of TSHAPEn changes the register only, after every earlier instruction that names tn (R165, R292). A VALID shape that R166 does not allow,
written so or by a TRST, has no effect in the spec: the instructions that use the tile take it as it stands (DESIGN CHOICE, log 119). -/
def execTshapeWrite (n : Fin 8) (a : Src) (s : State) : Result :=
  mtsCore a true [.entries n] (fun _ _ cs x => setTile cs n { tileOf cs n with shape := shapeMask x }) s

/-- A tile whose TDIRTY bits an MTS may change (R292). -/
def dirtyWritable (s : State) (c : Nat) (cs : CoreState) (t : Fin 8) : Bool :=
  let w := (tileOf cs t).shape
  !shapeValid w || match hartOf s (.strand c (shapeOwner w)) with
    | none => true
    | some hs => hs.run.halted

def execTdirtyWrite (a : Src) (s : State) : Result :=
  mtsCore a true [.allEntries] (fun s c cs x => (List.finRange 8).foldl (fun k t =>
      if dirtyWritable s c cs t then
        setTile k t { tileOf k t with dirty := x.getLsbD t.val, absent := x.getLsbD (8 + t.val) }
      else k) cs) s

/-- MTS of WDOG zeroes the count of every slot of the core (R271). -/
def execWdogWrite (a : Src) (s : State) : Result :=
  issue s 8 { srcs := [a], supervisor := true, profile := .coreOnly } fun h s hs vals =>
    let c := ownCore h
    let s1 := setCore s c { coreOf s c with wdog := (vals.getD 0 0).truncate 32 }
    let s2 := (List.range 8).foldl (fun t n => match hartOf t (.strand c n) with
      | some x => setHart t (.strand c n) { x with run := { x.run with watch := 0 } }
      | none => t) s1
    .done s2 { hs with run := { hs.run with watch := 0 } }

/-- MTS of PTBR parks the strand until its outstanding accesses return. -/
def execPtbrWrite (a : Src) (s : State) : Result :=
  issue s 8 { srcs := [a], supervisor := true } fun h s hs vals =>
    holdUp s h hs [.quiet] (.done s { hs with ptbr := ptbrOfWord (vals.getD 0 0) })

/-- MTS of THRANK, TTTB and MEVT: the next instruction issues when every core uses the new value, which here is at once. -/
def mtsModule (a : Src) (f : State → Hart → Word → State) (s : State) : Result :=
  issue s 8 { srcs := [a], supervisor := true } fun h s hs vals => .done (f s h (vals.getD 0 0)) hs

def execThrankWrite (a : Src) (s : State) : Result :=
  mtsModule a (fun s h x =>
    let d := hartDie h
    let ds := dieState s d
    setDie s d { ds with
      thrank := x.truncate 16
      ranks := assocSet ds.ranks (x.toNat % 256) (x.toNat / 256 % 256) }) s

def execTttbWrite (a : Src) (s : State) : Result :=
  mtsModule a (fun s h x =>
    let m := hartModule h
    setModule s m { moduleOf s m with tttb := x &&& 0x01FFFFFFFFFFFFC0#64 }) s

/-- MTS of MEVT; what is pending goes to the strand it now names (R204). Its own strand takes events when it has issued. -/
def execMevtWrite (a : Src) (s : State) : Result :=
  issue s 8 { srcs := [a], supervisor := true } fun h s hs vals =>
    let m := hartModule h
    let s1 := setModule s m { moduleOf s m with mevt := (vals.getD 0 0) &&& 0x3FFF#64 }
    let s2 := deliverEvents (setHart s1 h hs) m
    .done s2 ((hartOf s2 h).getD hs)

/-! Traps (R199 to R202). -/

def execTrap (code : BitVec 16) (s : State) : Result :=
  issue s 8 {} fun _ _ _ _ => .trapIssued .swtrap (code.zeroExtend 64)
def execEcall (code : BitVec 16) (s : State) : Result :=
  issue s 8 {} fun _ _ _ _ => .trapIssued .ecall (code.zeroExtend 64)

/-- ERET: the three steps of R33 at the restored level (R201). -/
def execEret (s : State) : Result :=
  issue s 8 { profile := .coreOnly, supervisor := true } fun h s hs _ =>
    .final (noteIssue (setHart s h ((fun x => if s.word.sw then setPark x .marker else x) <| trapReturn (countIssue hs))) h)

/-- TRAP_ENTRY (R31, R34, R199, R200). -/
def execTrapEntry (h : Hart) (s : State) : Result := .next (enterTrap s h)

/-- ASYNC_CAUSE_TAKEN (R204). -/
def execAsyncCauseTaken (h : Hart) (s : State) : Result := .next (enterAsync s h)

/-- TIMER (R205). -/
def execTimer (h : Hart) (s : State) : Result :=
  match hartOf s h with
  | none => .next s
  | some hs =>
    let t := timeWord s (hartModule h)
    if hs.timecmp ≠ 0 ∧ hs.timecmp.toNat ≤ t.toNat then .next (setHart s h { raiseAsync hs .timer t with timecmp := 0 })
    else .next s

/-- WATCHDOG_EXPIRY: QSTALL on a queue port, WATCH otherwise (R271). -/
def execWatchdogExpiry (h : Hart) (s : State) : Result :=
  match hartOf s h, hartCore h with
  | some hs, some c =>
    let limit := (coreOf s c).wdog.toNat
    let raised := hs.run.async.any fun x => x.1 == .watch || x.1 == .qstall
    if limit = 0 || hs.run.watch < limit || raised || hs.run.halted then .next s
    else match stalledPorts s h hs with
      | [] => .next (setHart s h (raiseAsync hs .watch hs.run.lastPc))
      | ps => .next (setHart s h (raiseAsync hs .qstall (ps.foldl (fun m p => m ||| (1 <<< p.val)) 0)))
  | _, _ => .next s

/-! Time (R205). -/

def execTwait (d : Dst) (a : Src) (s : State) : Result :=
  issue s 8 { srcs := [a], dsts := [d], place := true } fun _ s hs vals =>
    .done s (addOp hs (newOp hs (.twait (vals.getD 0 0)) (.scalar d)))

/-- TWAIT_DEADLINE: TIME has reached the deadline of a waiting TWAIT; the TIME observed is its result. -/
def execTwaitDeadline (h : Hart) (n : Nat) (s : State) : Result :=
  match openOp s h n with
  | some (_, p) => match p.op with
    | .twait t =>
      let now := timeRead s h
      if t.toNat ≤ now then .next (finishOp (sawTime s h) h n [BitVec.ofNat 64 now]) else .next s
    | _ => .next s
  | none => .next s

/-! Translation invalidation (R220) and halt (R221). -/

/-- Removes the entries a test names from every TLB and die cache of a module. -/
def dropTranslations (s : State) (m : Nat) (f : TlbEntry → Bool) : State :=
  { s with
    cores := s.cores.map fun (c, cs) => (c, if coreModule c = m then { cs with tlb := cs.tlb.filter fun e => !f e } else cs)
    dies := s.dies.map fun (d, ds) => (d, if d / 4 = m then { ds with cache := ds.cache.filter fun e => !f e } else ds) }

/-- Which entries a form names: `none` for the all-ones ASID. -/
def taggedBy (b : Word) (e : TlbEntry) : Bool :=
  b == BitVec.allOnes 64 || (!e.leaf.g && e.asid == b.truncate 16)

def invalidate (srcs : List Src) (f : List Word → TlbEntry → Bool) (s : State) : Result :=
  issue s 8 { srcs := srcs, profile := .coreOnly, supervisor := true } fun h s hs vals =>
    holdUp s h hs [.walks] (.done (dropTranslations s (hartModule h) (f vals)) hs)

def execTlbinvPg (a b : Src) (s : State) : Result :=
  invalidate [a, b] (fun vals e => e.va == pageBase (vals.getD 0 0) e.leaf.size && taggedBy (vals.getD 1 0) e) s
def execTlbinvAll (b : Src) (s : State) : Result := invalidate [b] (fun vals e => taggedBy (vals.getD 0 0) e) s

def execHalt (s : State) : Result :=
  issue s 8 { profile := .coreOnly, supervisor := true } fun _ s hs _ =>
    if !drained hs then .park .before else .done s { hs with run := { hs.run with halted := true } }

/-! Queues (R216 to R218). -/

def execQbind (port : Fin 4) (a : Src) (s : State) : Result :=
  issue s 8 { srcs := [a], profile := .coreOnly } fun h s hs vals =>
    if bindingOk (vals.getD 0 0) then
      let (s', hs') := rebind s h hs port (vals.getD 0 0)
      .done s' hs'
    else .trap .illenc (firstBits s)

/-- QSND.NB pushes when the port shows go, and never parks (R217). -/
def execQsndNb (d : Dst) (port : Fin 4) (b : Src) (_m : MemMod) (s : State) : Result :=
  issue s 8 { srcs := [b], dsts := [d], profile := .coreOnly } fun h s hs vals =>
    let p := portOf hs port
    if !p.bound || !p.out then .trap .qunb (BitVec.ofNat 64 port.val)
    else if canPush s h hs port then
      let (s', hs') := writeDst (push s h hs port (vals.getD 0 0) hs.run.seq) h hs d 0
      .done s' hs'
    else
      let (s', hs') := writeDst s h (setPort hs port { p with stop := true }) d 1
      .done s' hs'

def execQstat (d : Dst) (port : Fin 4) (s : State) : Result :=
  issue s 8 { dsts := [d], profile := .coreOnly } fun h s hs _ =>
    let (s', hs') := writeDst s h hs d (qstatWord (portOf hs port))
    .done s' hs'

/-- What a push releases is performed: the earlier accesses of the strand that pushed (R217), but for those that a trap's handler will have
executed again, whose effect comes at the replay (R244). -/
def pushReleased (s : State) (m : QueueMsg) : Bool :=
  ((invisible s m.src).all fun a => decide (m.seq ≤ a.p.seq)) && match hartByUid s m.src with
    | some (_, hs) => hs.run.ops.all fun q => decide (m.seq ≤ q.seq) || outOfWay hs q || !q.isAccess
    | none => true

/-- The address of a port's data word (R218). -/
def portWindow (t : Hart) (p : Fin 4) : Nat := windowPa (ownCore t) 5 (hartSlot t * 0x40 + p.val * 0x10)

/-- QUEUE_PUSH: an accepted entry can be popped once what it releases is performed; entries of one output port keep their order (R217). A strand
that ships takes its entries along; those of a strand that has ended are lost with it. An entry
from another module is an input there (R361). -/
def execQueuePush (i : Nat) (s : State) : Result :=
  match s.pushes[i]? with
  | none => .next s
  | some m =>
    let s1 := { s with pushes := s.pushes.eraseIdx i }
    let earlier := (s.pushes.take i).any fun x => x.src == m.src && x.from_ == m.from_ && x.target == m.target
    match hartByUid s m.target with
    | some (t, ts) =>
      if earlier || !pushReleased s m then .next s
      else
        let p := portOf ts m.port
        let s2 := match hartByUid s m.src with
          | some (h, _) => if hartModule h = hartModule t then s1 else recordInput s1 (hartModule t) (.request h (portWindow t m.port) (leBytes 8 m.val.toNat))
          | none => s1
        .next (setHart s2 t (setPort ts m.port { p with buf := p.buf ++ [m.val] }))
    | none => .next (if s.ships.any fun x => x.uid == m.target then s else s1)

/-- QUEUE_GO_SIGNAL: the input side of an output port tells go or stop (R217, R272). -/
def execQueueGoSignal (h : Hart) (port : Fin 4) (s : State) : Result :=
  match hartOf s h with
  | none => .next s
  | some hs =>
    let p := portOf hs port
    if p.bound && p.out then .next (setHart s h (setPort hs port { p with stop := (pushTarget s h hs port).isNone })) else .next s

/-! Named barriers (R219). -/

/-- The core of a barrier operand, in the strand's own cluster. -/
def nbCore (h : Hart) (hs : HartState) (w : Word) : Option Nat :=
  if w = 0 then some (ownCore h)
  else if w.extractLsb' 32 32 ≠ 0 then none
  else match Coord.dec (w.extractLsb' 0 32) with
    | some c => if coreCluster (coordCore h hs c) = coreCluster (ownCore h) then some (coordCore h hs c) else none
    | none => none

/-- An operation that waits at a barrier. -/
def nbWaits (core n : Nat) (p : Pending) : Bool :=
  p.phase == .waiting && match p.op with
    | .nbArrive c b _ | .nbWait c b _ => c == core && b == n
    | _ => false

/-- Waiters of a barrier (R219). -/
def nbWaiters (s : State) (core n : Nat) : Bool := s.harts.any fun x => x.2.run.ops.any (nbWaits core n)

def execNbinit (a b : Src) (n : Fin 48) (s : State) : Result :=
  issue s 8 { srcs := [a, b], profile := .coreOnly } fun h s hs vals =>
    let cnt := (vals.getD 1 0).toNat
    match nbCore h hs (vals.getD 0 0) with
    | none => .trap .nbflt (BitVec.ofNat 64 n.val)
    | some c =>
      let cs := coreOf s c
      if cnt < 1 || 64 < cnt || (nbarOf cs n.val).arr ≠ 0 || nbWaiters s c n.val then .trap .nbflt (BitVec.ofNat 64 n.val)
      else .done (setCore s c (setNbar cs n.val ⟨cnt, 0, 0, true⟩)) hs

/-- An operation on a named barrier: NBARR releases and acquires at cluster scope, NBWAIT acquires (R219). -/
def nbOp (hs : HartState) (op : Op) (d : Dst) : Pending :=
  { newOp hs op (.scalar d) with
    mod := ⟨match op with
      | .nbWait _ _ _ => .acq
      | _ => .ar, .cluster⟩ }

/-- The phase a replayed NBARR arrived in, and the hart with its entry taken (R33, R219). -/
def takePhase (hs : HartState) : Option (BitVec 4) × HartState :=
  if hs.run.replay.todo.isEmpty then (none, hs)
  else ((hs.run.replay.phases.headD none),
    { hs with run := { hs.run with replay := { hs.run.replay with phases := hs.run.replay.phases.tail } } })

def execNbarr (d : Dst) (a : Src) (n : Fin 48) (s : State) : Result :=
  issue s 8 { srcs := [a], dsts := [d], profile := .coreOnly, place := true } fun h s hs vals =>
    match nbCore h hs (vals.getD 0 0) with
    | none => .trap .nbflt (BitVec.ofNat 64 n.val)
    | some c =>
      let (ph, hs') := takePhase hs
      if !(nbarOf (coreOf s c) n.val).init then .trap .nbflt (BitVec.ofNat 64 n.val)
      else .done s (addOp hs' (nbOp hs (.nbArrive c n.val ph) d))

def execNbwait (d : Dst) (a b : Src) (n : Fin 48) (s : State) : Result :=
  issue s 8 { srcs := [a, b], dsts := [d], profile := .coreOnly, place := true } fun h s hs vals =>
    match nbCore h hs (vals.getD 0 0) with
    | none => .trap .nbflt (BitVec.ofNat 64 n.val)
    | some c => .done s (addOp hs (nbOp hs (.nbWait c n.val (vals.getD 1 0)) d))

/-- One waiter's answer at an advance. -/
def wakeNamed (core n : Nat) (ph : BitVec 4) (p : Pending) : Pending :=
  if nbWaits core n p then { p with phase := .done [ph.zeroExtend 64] } else p

/-- The barrier advances and wakes every waiter. -/
def advanceNamed (s : State) (core n : Nat) : State :=
  let b := nbarOf (coreOf s core) n
  let s1 := setCore s core (setNbar (coreOf s core) n { b with arr := 0, phase := b.phase + 1 })
  { s1 with harts := s1.harts.map fun (h, hs) => (h, { hs with run := { hs.run with
      ops := hs.run.ops.map (wakeNamed core n (b.phase + 1)) } }) }

/-- NBARR reaches its barrier: an arrival, or the wait of one that was withdrawn. -/
def namedArrive (s : State) (h : Hart) (p : Pending) (core n : Nat) (ph : Option (BitVec 4)) : State :=
  let cs := coreOf s core
  let b := nbarOf cs n
  match ph with
  | some old =>
    if b.phase = old then updateOp s h p.seq fun q => { q with phase := .waiting } else finishOp s h p.seq [b.phase.zeroExtend 64]
  | none =>
    let s1 := updateOp s h p.seq fun q => { q with phase := .waiting, op := .nbArrive core n (some b.phase) }
    if b.arr + 1 = b.exp then advanceNamed s1 core n
    else setCore s1 core (setNbar (coreOf s1 core) n { b with arr := b.arr + 1 })

/-- NBWAIT reaches its barrier, under the rule of R130. -/
def namedWait (s : State) (h : Hart) (p : Pending) (core n : Nat) (w : Word) : State :=
  let b := nbarOf (coreOf s core) n
  if b.phase = w.truncate 4 then updateOp s h p.seq fun q => { q with phase := .waiting }
  else finishOp s h p.seq [b.phase.zeroExtend 64]

end Sys2Proof.Machine
end

