-- ==== Sys2Proof/Machine/Matrix.lean ====
section
/-!
DEFINITION. Matrix instructions (R165 to R195, R292 to R306): issue, the core's queue and its completions, commands from other
cores, freeze, save and restore.
-/

namespace Sys2Proof.Machine

/-! Shapes and elements (R165 to R167). -/

/-- The tile formats (R166). -/
def tileFmt (f : Fmt) : Bool := [Fmt.f32, .h16, .b16, .f8a, .f8b, .f6, .c4].contains f
def fmtOfShape (w : Word) : Fmt := Fmt.dec (shapeFmt w)
/-- Bytes of a row. -/
def rowBytes (w : Word) : Nat := if fmtOfShape w = .c4 then shapeCols w / 2 else shapeCols w * elemSize (fmtOfShape w)

/-- A legal shape (R166). -/
def shapeLegal (w : Word) : Bool :=
  let rows := shapeRows w
  let cols := shapeCols w
  decide (1 ≤ rows ∧ rows ≤ 32 ∧ 1 ≤ cols ∧ cols ≤ 128) && tileFmt (fmtOfShape w) &&
    (fmtOfShape w != .c4 || cols % 2 == 0) && decide (rowBytes w ≤ 64 ∧ rows * rowBytes w ≤ 1024)

def neutralTag : BitVec 16 := 0x047F

/-- The pattern of element (r, c). -/
def elemRaw (t : Tile) (w : Word) (r c : Nat) : Nat :=
  match fmtOfShape w with
  | .c4 => tileBytes t (r * rowBytes w + c / 2) 1 / 16 ^ (c % 2) % 16
  | .f6 => tileBytes t (r * rowBytes w + c) 1 % 64
  | f => tileBytes t (r * rowBytes w + c * elemSize f) (elemSize f)

def tagOf (t : Tile) (r : Nat) : BitVec 16 := t.tags.getD r neutralTag

/-- val(T, r, c) with the codebooks and CBSEL fixed for the instruction (R167, R303). A tag's SCALE of 255, which R167 does not give and a window
store or a TRST may put there, counts as the others do, as 2^128 (DESIGN CHOICE, log 118). -/
def elemVal (t : Tile) (w : Word) (sn : MxSnap) (r c : Nat) : FVal :=
  let tag := tagOf t r
  let set := if tag.getLsbD 10 then sn.cbsel.toNat else (tag.extractLsb' 8 2).toNat
  scaleBy (elementValue (fmtOfShape w) sn.books set (elemRaw t w r c)) (((tag.extractLsb' 0 8).toNat : Int) - 127)

/-- Replaces `n` bytes of a tile's register at `off`. -/
def setBytes (d : TileData) (off n v : Nat) : TileData :=
  let m : TileData := BitVec.ofNat 8192 (2 ^ (8 * n) - 1) <<< (8 * off)
  (d &&& ~~~m) ||| (BitVec.ofNat 8192 (v % 2 ^ (8 * n)) <<< (8 * off))

/-- Writes one element that is not C4. -/
def setElem (d : TileData) (w : Word) (r c raw : Nat) : TileData :=
  setBytes d (r * rowBytes w + c * elemSize (fmtOfShape w)) (elemSize (fmtOfShape w)) raw

/-- Tags with the first `n` rows replaced. R180 says "every row tag of D" and R167 the tags of the rows an instruction writes; the tags of
register rows at and beyond ROWS, which belong to no row of the tile, stay as they are, but for TSHAPE's zeroing (DESIGN CHOICE, log 80). -/
def setTags (tags : List (BitVec 16)) (n : Nat) (f : Nat → BitVec 16) : List (BitVec 16) :=
  (List.range 32).map fun r => if r < n then f r else tags.getD r neutralTag

/-- A tile written by an instruction or a command: DIRTY is set (R168). -/
def writeTile (cs : CoreState) (t : Fin 8) (data : TileData) (tags : List (BitVec 16)) : CoreState :=
  let x := tileOf cs t
  setTile cs t { x with data := data, tags := tags, dirty := true }

/-! Issue (R169, R170, R182, R293). -/

/-- The checks of R169 that the tile fields fail, in the order of the fields. -/
def tileCause (cs : CoreState) (slot : Nat) : List (Fin 8) → Option (Cause × Word)
  | [] => none
  | t :: rest =>
    let x := tileOf cs t
    let v : Word := BitVec.ofNat 64 t.val
    if !shapeValid x.shape then some (.tuncfg, v)
    else if shapeOwner x.shape ≠ slot then some (.town, v)
    else if x.absent then some (.tlazy, v)
    else tileCause cs slot rest

/-- A matrix instruction that has passed readiness: its tile checks, its own rules, and what it waits for. `ahead` tells TSAVE,
TRST, MSAVE and MRESTORE; `c4` one that may decode C4. -/
def mxBody (h : Hart) (s : State) (tiles : List (Fin 8)) (bad : CoreState → Bool) (c4 : CoreState → Bool) (ahead : Bool)
    (k : Nat → CoreState → Issued) : Issued :=
  let c := ownCore h
  let cs := coreOf s c
  holdUp s h (issuer s) (if ahead then [] else [.restored tiles]) (match (if ahead then none else tileCause cs (hartSlot h) tiles) with
    | some (e, v) => .trap e v
    | none =>
      if bad cs then .trap .tfmt (firstBits s)
      else holdUp s h (issuer s) ((if ahead then [] else [.thawed]) ++ [.queue] ++ if c4 cs then [.books] else []) (k c cs))

/-- What an instruction fixes at issue. -/
def snapOf (cs : CoreState) (hs : HartState) (ts : List (Fin 8)) (scale : Option (BitVec 32)) : MxSnap :=
  ⟨ts.map fun t => (tileOf cs t).shape, scale, cs.books, cs.cbsel, hs.mx.ucode, hs.fp.subn⟩

/-- Puts an instruction of a strand at the end of the queue. -/
def enqueue (s : State) (h : Hart) (hs : HartState) (c : Nat) (op : MxOp) (seq : Option Nat) (sn : MxSnap) : State :=
  let cs := coreOf s c
  { setCore s c { cs with queue := cs.queue ++ [⟨s.nextId, hs.id.uid, hartSlot h, seq, hs.run.seq, false, op, sn, issuePc hs⟩] } with
    nextId := s.nextId + 1 }

/-- What every matrix instruction needs: a core, and short mode (R171). -/
def mxNeed (s : State) (srcs : List Src) (place supervisor : Bool) : Need :=
  { srcs := srcs, profile := .coreOnly, place := place, supervisor := supervisor, illenc := (issuer s).st.vl }

/-- An instruction without an outstanding place. -/
def mxPlain (h : Hart) (s : State) (hs : HartState) (tiles : List (Fin 8)) (bad : CoreState → Bool) (c4 : CoreState → Bool)
    (scale : Option (BitVec 32)) (op : MxOp) : Issued :=
  mxBody h s tiles bad c4 false fun c cs => .done (enqueue s h hs c op none (snapOf cs hs tiles scale)) hs

/-- An instruction that accesses memory. -/
def mxMemory (h : Hart) (s : State) (hs : HartState) (tiles : List (Fin 8)) (bad : CoreState → Bool) (ahead : Bool) (op : MxOp)
    (p : CoreState → Pending) : Issued :=
  mxBody h s tiles bad (fun _ => false) ahead fun c cs =>
    issueMem h (enqueue s h hs c op (some hs.run.seq) (snapOf cs hs tiles none)) hs { p cs with op := .matrix s.nextId }

/-! Shape and zero (R173, R174). -/

/-- TSHAPE's word: rows, columns and format only. -/
def shapeWordOk (w : Word) : Bool := (w &&& ~~~0xF3FFF#64) == 0 && shapeLegal w

/-- TSHAPE of a tile with a word. -/
def tshapeBody (h : Hart) (s : State) (hs : HartState) (t : Fin 8) (w : Word) : Issued :=
  let c := ownCore h
  let cs := coreOf s c
  let x := tileOf cs t
  let slot := hartSlot h
  holdUp s h hs [.restored [t]] (
  if shapeValid x.shape && shapeOwner x.shape != slot then .trap .town (BitVec.ofNat 64 t.val)
  else if w ≠ 0 && !shapeWordOk w then .trap .tfmt (firstBits s)
  else holdUp s h hs (.thawed :: if w = 0 then [] else [.queue]) (
  if w = 0 then .done (setCore s c (releaseTile cs t)) hs
  else
    let cs1 := setTile cs t { x with shape := w ||| BitVec.ofNat 64 (slot * 2 ^ 24 + 2 ^ 28), absent := false }
    .done (enqueue (setCore s c cs1) h hs c (.clear t) none (snapOf cs1 hs [t] none)) hs))

def execTshape (t : Fin 8) (w : ShapeOp) (s : State) : Result :=
  match w with
  | .reg a => issue s 8 (mxNeed s [a] false false) fun h s hs vals => tshapeBody h s hs t (vals.getD 0 0)
  | .word x => issue s 12 (mxNeed s [] false false) fun h s hs _ => tshapeBody h s hs t (x.zeroExtend 64)

def execTzero (t : Fin 8) (s : State) : Result :=
  issue s 8 (mxNeed s [] false false) fun h s hs _ =>
    mxPlain h s hs [t] (fun _ => false) (fun _ => false) none (.zero t)

/-! Tile loads and stores (R175, R176). -/

/-- The pieces of the rows of a tile. -/
def rowSpans (rows len : Nat) (a pitch : Word) (r : Right) : List Span :=
  (List.range rows).flatMap fun i => pieces (a + BitVec.ofNat 64 i * pitch) len r 1

/-- Marks a tile access as failing when base or pitch is not aligned. -/
def alignTile (p : Pending) (a pitch : Word) (n : Nat) : Pending :=
  if aligned a n && aligned pitch n then p else { p with phase := .found .malign a }

def execTld (t : Fin 8) (base pitch : Src) (disp : Disp) (m : MemMod) (s : State) : Result :=
  issue s (dispSize disp) (mxNeed s [base, pitch] true false) fun h s hs vals =>
    let a := vals.getD 0 0 + dispValue disp
    let pt := vals.getD 1 0
    mxMemory h s hs [t] (fun _ => false) false (.tld t none []) fun cs =>
      let w := (tileOf cs t).shape
      alignTile (memOp hs .fence .none m (rowSpans (shapeRows w) (rowBytes w) a pt .read)) a pt (elemSize (fmtOfShape w))

def execTldBlk (t : Fin 8) (base pitch e0 : Src) (disp : Disp) (m : MemMod) (s : State) : Result :=
  issue s (dispSize disp) (mxNeed s [base, pitch, e0] true false) fun h s hs vals =>
    let a := vals.getD 0 0 + dispValue disp
    let pt := vals.getD 1 0
    mxMemory h s hs [t] (fun _ => false) false (.tld t (some (vals.getD 2 0)) []) fun cs =>
      alignTile (memOp hs .fence .none m (rowSpans (shapeRows (tileOf cs t).shape) 64 a pt .read)) a pt 64

def execTst (t : Fin 8) (base pitch : Src) (disp : Disp) (m : MemMod) (s : State) : Result :=
  issue s (dispSize disp) (mxNeed s [base, pitch] true false) fun h s hs vals =>
    let a := vals.getD 0 0 + dispValue disp
    let pt := vals.getD 1 0
    mxMemory h s hs [t] (fun _ => false) false (.tst t) fun cs =>
      let w := (tileOf cs t).shape
      let p := memOp hs .fence .none m (rowSpans (shapeRows w) (rowBytes w) a pt .write)
      alignTile { p with store := true } a pt (elemSize (fmtOfShape w))

/-! Slice moves (R177, R178). -/

/-- The index is out of the tile. -/
def sliceBad (t : Fin 8) (col : Bool) (idx : Word) (cs : CoreState) : Bool :=
  let w := (tileOf cs t).shape
  decide ((if col then shapeCols w else shapeRows w) ≤ idx.toNat)

def isC4 (t : Fin 8) (cs : CoreState) : Bool := fmtOfShape (tileOf cs t).shape == .c4

/-- The rounding mode of a slice move, FPCTL.RM read at issue. -/
def sliceRnd (hs : HartState) (r : Rnd) : Rnd := (fpMode hs r).rnd

def sliceRead (col : Bool) (d : Fin 16) (t : Fin 8) (idx : Src) (start : BitVec 8) (f : FMod) (s : State) : Result :=
  issue s 8 (mxNeed s [idx] true false) fun h s hs vals =>
    let i := vals.getD 0 0
    mxBody h s [t] (sliceBad t col i) (isC4 t) false fun c cs =>
      let op := MxOp.rowv col d t i start.toNat f.fmt (sliceRnd hs f.rnd)
      .done (enqueue s h hs c op (some hs.run.seq) (snapOf cs hs [t] none)) (addOp hs (newOp hs (.matrix s.nextId) (.v d)))

def execTrowv (d : Fin 16) (t : Fin 8) (idx : Src) (start : BitVec 8) (f : FMod) (s : State) : Result :=
  sliceRead false d t idx start f s
def execTcolv (d : Fin 16) (t : Fin 8) (idx : Src) (start : BitVec 8) (f : FMod) (s : State) : Result :=
  sliceRead true d t idx start f s

def sliceWrite (col : Bool) (t : Fin 8) (a : Fin 16) (idx : Src) (start : BitVec 8) (f : FMod) (s : State) : Result :=
  issue s 8 { mxNeed s [idx] false false with vecs := [a] } fun h s hs vals =>
    let i := vals.getD 0 0
    mxPlain h s hs [t] (fun cs => sliceBad t col i cs || isC4 t cs) (fun _ => false) none
      (.vrow col t (vecVal hs a) i start.toNat f.fmt (sliceRnd hs f.rnd))

def execVtrow (t : Fin 8) (a : Fin 16) (idx : Src) (start : BitVec 8) (f : FMod) (s : State) : Result :=
  sliceWrite false t a idx start f s
def execVtcol (t : Fin 8) (a : Fin 16) (idx : Src) (start : BitVec 8) (f : FMod) (s : State) : Result :=
  sliceWrite true t a idx start f s

/-! Multiply-accumulate (R179 to R187). -/

/-- Rate classes (R179): 16-bit formats and C4, 8-bit formats. -/
def rateClass : Fmt → Nat
  | .h16 | .b16 | .c4 => 16
  | .f8a | .f8b | .f6 => 8
  | _ => 0

/-- D and B agree with an A of `m` by `k` elements of a format (R179). -/
def mmaOk (wd wb : Word) (m k : Nat) (fa : Fmt) : Bool :=
  fmtOfShape wd == .f32 && shapeRows wd == m && shapeRows wb == k && shapeCols wb == shapeCols wd &&
    [Fmt.h16, .b16, .f8a, .f8b, .f6].contains fa && rateClass fa == rateClass (fmtOfShape wb)

def mmaShapesOk (wd wa wb : Word) : Bool := mmaOk wd wb (shapeRows wa) (shapeCols wa) (fmtOfShape wa)

/-- D, A and B break the rules of R179. -/
def mmaBad (d a b : Fin 8) (cs : CoreState) : Bool :=
  !mmaShapesOk (tileOf cs d).shape (tileOf cs a).shape (tileOf cs b).shape

def scaleSel (hs : HartState) (scsel : BitVec 2) (scen : Bool) : Option (BitVec 32) :=
  if scen then some (hs.mx.scale.get scsel.toFin) else none

def execMma (d a b : Fin 8) (scsel : BitVec 2) (scen : Bool) (s : State) : Result :=
  issue s 8 (mxNeed s [] false false) fun h s hs _ =>
    mxPlain h s hs [d, a, b] (mmaBad d a b) (isC4 b) (scaleSel hs scsel scen) (.mma d a b)

def execMmar (d a b : Fin 8) (s : State) : Result :=
  issue s 8 (mxNeed s [] false false) fun h s hs _ => mxPlain h s hs [d, a, b] (mmaBad d a b) (isC4 b) none (.mmar d a b)

/-! The unfolding unit (R183 to R185, R301). -/

/-- The unfolding descriptors as numbers. -/
structure Unfold where
  base : Nat
  fmt : Fmt
  ch : Nat
  h : Nat
  w : Nat
  oh : Nat
  ow : Nat
  kh : Nat
  kw : Nat
  sy : Nat
  sx : Nat
  dy : Nat
  dx : Nat
  pt : Nat
  pl : Nat
  padv : Nat
  deriving DecidableEq, Repr

def unfoldOf (u : Vector Word 4) : Unfold :=
  let f (n : Fin 4) (k w : Nat) : Nat := ((u.get n).extractLsb' k w).toNat
  { base := f 0 0 18, fmt := Fmt.dec ((u.get 0).extractLsb' 24 4), ch := f 0 32 12, h := f 1 0 16, w := f 1 16 16,
    oh := f 1 32 16, ow := f 1 48 16, kh := f 2 0 8, kw := f 2 8 8, sy := f 2 16 8, sx := f 2 24 8, dy := f 2 32 8,
    dx := f 2 40 8, pt := f 2 48 8, pl := f 2 56 8, padv := f 3 0 16 }

/-- The TFMT conditions of R185 on the descriptors and the tiles. -/
def unfoldBad (u : Unfold) (d b : Fin 8) (cs : CoreState) : Bool :=
  let wd := (tileOf cs d).shape
  let wb := (tileOf cs b).shape
  let m := shapeRows wd
  let k := shapeRows wb
  let size := elemSize u.fmt
  [u.ch, u.h, u.w, u.oh, u.ow, u.kh, u.kw, u.sy, u.sx, u.dy, u.dx].contains 0 || !mmaOk wd wb m k u.fmt ||
    decide (u.base % size ≠ 0 ∨ 0x40000 < u.base + u.h * u.w * u.ch * size ∨ 1024 < m * k * size ∨ 64 < k * size)

/-- Element (i, k) of the virtual A (R184): its scratchpad offset and the value there, or the value it has without one. -/
def unfoldElem (m : List Host.Cell) (core : Nat) (u : Unfold) (p q : Nat) : UnfoldElem :=
  if u.oh * u.ow ≤ p || u.kh * u.kw * u.ch ≤ q then ⟨none, [0], []⟩
  else
    let iy : Int := p / u.ow * u.sy - u.pt + q / (u.kw * u.ch) * u.dy
    let ix : Int := p % u.ow * u.sx - u.pl + q / u.ch % u.kw * u.dx
    if 0 ≤ iy ∧ iy < u.h ∧ 0 ≤ ix ∧ ix < u.w then
      let off := u.base + ((iy.toNat * u.w + ix.toNat) * u.ch + q % u.ch) * elemSize u.fmt
      ⟨some off, [unfoldRead m core u.fmt off], [core]⟩
    else ⟨none, [u.padv % (if u.fmt = .f6 then 64 else 2 ^ u.fmt.width)], []⟩

/-- The bytes of a core's scratchpad that an MMAU reads (R185). -/
def unfoldBytes (f : Fmt) (es : List UnfoldElem) : List (Nat × Nat) := es.filterMap fun e => e.off.map fun o => (o, elemSize f)

def execMmau (d : Fin 8) (a : Src) (b : Fin 8) (scsel : BitVec 2) (scen : Bool) (s : State) : Result :=
  issue s 8 (mxNeed s [a] false false) fun h s hs vals =>
    let u := unfoldOf hs.mx.unf
    let v := vals.getD 0 0
    let c := ownCore h
    let cs := coreOf s c
    let k := shapeRows (tileOf cs b).shape
    let m := shapeRows (tileOf cs d).shape
    let es := (List.range m).flatMap fun i => (List.range k).map fun j =>
      unfoldElem s.mem c u ((v.extractLsb' 0 32).toNat + i) ((v.extractLsb' 32 32).toNat + j)
    match mxPlain h s hs [d, b] (unfoldBad u d b) (isC4 b) (scaleSel hs scsel scen) (.mmau d b k u.fmt es false) with
    | .done s' hs' => holdUp s h hs [.scratch (unfoldBytes u.fmt es)] (.done s' hs')
    | r => r

/-! Codebooks and recurrences (R182, R186). -/

def execCbload (set : Fin 4) (base : Src) (disp : Disp) (m : MemMod) (s : State) : Result :=
  issue s (dispSize disp) (mxNeed s [base] true false) fun h s hs vals =>
    let a := vals.getD 0 0 + dispValue disp
    mxMemory h s hs [] (fun _ => false) false (.cbload set) fun _ =>
      checkAlign (memOp hs .fence .none m [⟨a, 32, .read, none⟩]) a 32

/-- A legal micro-operation (R186). -/
def microOk (x : BitVec 16) : Bool :=
  decide ((x.extractLsb' 0 4).toNat ≤ 6 ∧ (x.extractLsb' 4 2).toNat ≤ 1) && x.extractLsb' 10 6 == 0

def execMucode (a : Src) (s : State) : Result :=
  issue s 8 (mxNeed s [a] false false) fun h s hs vals =>
    let w := vals.getD 0 0
    if (List.range 4).all fun n => microOk (w.extractLsb' (16 * n) 16) then
      holdUp s h hs [.thawed] (.done s { hs with mx := { hs.mx with ucode := w } })
    else .trap .tfmt (firstBits s)

/-! Save and restore (R192, R193, R195). -/

/-- An image: 64-byte aligned, in one run of bytes. -/
def imageOp (hs : HartState) (m : MemMod) (a : Word) (len : Nat) (r : Right) (store : Bool) : Pending :=
  checkAlign { memOp hs .fence .none m (pieces a len r 80) with store := store } a 64

def execMsave (base slot : Src) (disp : Disp) (m : MemMod) (s : State) : Result :=
  issue s (dispSize disp) (mxNeed s [base, slot] true true) fun h s hs vals =>
    mxMemory h s hs [] (fun _ => false) true (.msave (vals.getD 1 0) (firstBits s)) fun _ =>
      imageOp hs m (vals.getD 0 0 + dispValue disp) 18432 .write true

def execMrestore (base slot : Src) (disp : Disp) (m : MemMod) (s : State) : Result :=
  issue s (dispSize disp) (mxNeed s [base, slot] true true) fun h s hs vals =>
    mxMemory h s hs [] (fun _ => false) true (.mrestore (vals.getD 1 0) (firstBits s)) fun _ =>
      imageOp hs m (vals.getD 0 0 + dispValue disp) 18432 .read false

def execTsave (t : Fin 8) (base : Src) (disp : Disp) (m : MemMod) (s : State) : Result :=
  issue s (dispSize disp) (mxNeed s [base] true true) fun h s hs vals =>
    mxMemory h s hs [t] (fun _ => false) true (.tsave t) fun _ => imageOp hs m (vals.getD 0 0 + dispValue disp) 1152 .write true

def execTrst (t : Fin 8) (base : Src) (disp : Disp) (m : MemMod) (s : State) : Result :=
  issue s (dispSize disp) (mxNeed s [base] true true) fun h s hs vals =>
    mxMemory h s hs [t] (fun _ => false) true (.trst t) fun _ => imageOp hs m (vals.getD 0 0 + dispValue disp) 1152 .read false

/-! Arithmetic when performed (R180, R187). -/

/-- One element of MMA: the tree, the accumulator, the scale, each step rounded. -/
def mmaElem (sn : MxSnap) (as bs : List FVal) (c : FVal) : Nat :=
  let md : FpMode := ⟨.rne, sn.flush⟩
  let (t, _) := pairsum .f32 sn.flush (List.zipWith (fun x y => (fmul x y).1) as bs)
  let x := (fround .f32 md (fadd .rne t c).1).1
  match sn.scale with
  | none => x
  | some sc => (fround .f32 md (fmul (fdecode .f32 x) (fdecode .f32 sc.toNat)).1).1

/-- One micro-operation on (s, t) with operands a and b (R187). -/
def microStep (flush : Bool) (a b : FVal) (op : BitVec 16) (st : FVal × FVal) : FVal × FVal :=
  let pick (i : Nat) : FVal := match i with
    | 0 => st.1
    | 1 => st.2
    | 2 => a
    | _ => b
  let x := pick (op.extractLsb' 6 2).toNat
  let y := pick (op.extractLsb' 8 2).toNat
  let rnd (v : FVal) : FVal := fdecode .f32 (fround .f32 ⟨.rne, flush⟩ v).1
  let put (v : FVal) : FVal × FVal := if op.getLsbD 4 then (st.1, v) else (v, st.2)
  match (op.extractLsb' 0 4).toNat with
  | 1 => put (rnd (fadd .rne x y).1)
  | 2 => put (rnd (fadd .rne x (fneg y)).1)
  | 3 => put (rnd (fmul x y).1)
  | 4 => put (fmin x y)
  | 5 => put (fmax x y)
  | 6 => put (rnd (fabs (fadd .rne x (fneg y)).1))
  | _ => st

/-- One element of MMAR. It is s itself, whatever FPCTL.SUBN (R68, R187). An s that is no F32 value, because the row scale of D is not 127 and
no step has rounded it, is rounded once, to nearest even: R187 states no result there (DESIGN CHOICE, log 81). -/
def mmarElem (sn : MxSnap) (as bs : List FVal) (c : FVal) : Nat :=
  let rnd (v : FVal) : FVal := fdecode .f32 (fround .f32 ⟨.rne, sn.flush⟩ v).1
  let ops := (List.range 4).map fun n => sn.ucode.extractLsb' (16 * n) 16
  let s := (List.zip as bs).foldl (fun s (a, b) =>
    (ops.foldl (fun st op => microStep sn.flush (rnd a) (rnd b) op st) (s, .fin false 0 0)).1) c
  (fround .f32 ⟨.rne, false⟩ s).1

/-- Computes a D tile from the rows of A, the tile B and the old D. -/
def multiply (cs : CoreState) (d b : Fin 8) (wd wb : Word) (sn : MxSnap) (k : Nat) (arow : Nat → List FVal)
    (f : MxSnap → List FVal → List FVal → FVal → Nat) : CoreState :=
  let m := shapeRows wd
  let n := shapeCols wd
  let td := tileOf cs d
  let cols := (List.range n).map fun j => (List.range k).map fun i => elemVal (tileOf cs b) wb sn i j
  let data := (List.range m).foldl (fun t i =>
    let as := arow i
    (List.range n).foldl (fun t j => setElem t wd i j (f sn as (cols.getD j []) (elemVal td wd sn i j))) t) td.data
  writeTile cs d data (setTags td.tags m fun _ => neutralTag)

/-- Rows of a tile A. -/
def tileRows (cs : CoreState) (a : Fin 8) (wa : Word) (sn : MxSnap) (i : Nat) : List FVal :=
  (List.range (shapeCols wa)).map fun k => elemVal (tileOf cs a) wa sn i k

/-- The lanes and elements of a slice move: lane number, row and column (R177). -/
def sliceCells (col : Bool) (w : Word) (idx start lanes : Nat) : List (Nat × Nat × Nat) :=
  ((List.range lanes).map fun l => if col then (l, start + l, idx) else (l, idx, start + l)).filter fun (_, r, c) =>
    decide (r < shapeRows w ∧ c < shapeCols w)

/-- TROWV and TCOLV: the vector result. -/
def sliceValue (cs : CoreState) (col : Bool) (t : Fin 8) (w : Word) (sn : MxSnap) (idx start : Nat) (f : Fmt) (rnd : Rnd) :
    BitVec 256 :=
  (sliceCells col w idx start (256 / f.width)).foldl (fun v (l, r, c) =>
    v ||| (BitVec.ofNat 256 (fround f ⟨rnd, false⟩ (elemVal (tileOf cs t) w sn r c)).1 <<< (f.width * l))) 0

/-- VTROW and VTCOL. -/
def sliceStore (cs : CoreState) (col : Bool) (t : Fin 8) (w : Word) (lanes : W2048) (idx start : Nat) (f : Fmt) (rnd : Rnd) :
    CoreState :=
  let x := tileOf cs t
  let data := (sliceCells col w idx start (256 / f.width)).foldl (fun d (l, r, c) =>
    let v := scaleBy (fdecode f (laneGet lanes f.width l)) (127 - (((tagOf x r).extractLsb' 0 8).toNat : Int))
    setElem d w r c (fround (fmtOfShape w) ⟨rnd, false⟩ v).1) x.data
  writeTile cs t data x.tags

/-- The value of an MMAU's element: one of those it has had since issue (R185, R301). -/
def unfoldNow (free : Nat) (e : UnfoldElem) : Nat :=
  if e.vals.length ≤ 1 then e.vals.headD 0 else e.vals.getD (Config.freeNat free % e.vals.length) 0

/-- D of an MMAU whose elements are not known: unspecified values (R302). -/
def unspecifiedD (cs : CoreState) (d : Fin 8) (w : Word) (free : Nat) : CoreState :=
  let x := tileOf cs d
  writeTile cs d (setBytes x.data 0 (shapeRows w * rowBytes w) (Config.freeTile free).toNat) (setTags x.tags (shapeRows w) fun _ => neutralTag)

/-- What an instruction without memory access does to its core. -/
def mxEffect (s : State) (cs : CoreState) (e : MxEntry) : CoreState :=
  let sn := e.snap
  let w (n : Nat) : Word := sn.shapes.getD n 0
  match e.op with
  | .zero t =>
    let x := tileOf cs t
    writeTile cs t (setBytes x.data 0 (shapeRows (w 0) * rowBytes (w 0)) 0) (setTags x.tags (shapeRows (w 0)) fun _ => neutralTag)
  | .clear t => writeTile cs t 0 (List.replicate 32 neutralTag)
  | .vrow col t lanes idx start f rnd => sliceStore cs col t (w 0) lanes idx.toNat start f rnd
  | .mma d a b => multiply cs d b (w 0) (w 2) sn (shapeCols (w 1)) (tileRows cs a (w 1) sn) mmaElem
  | .mmar d a b => multiply cs d b (w 0) (w 2) sn (shapeCols (w 1)) (tileRows cs a (w 1) sn) mmarElem
  | .mmau d b k f es open_ =>
    if open_ then unspecifiedD cs d (w 0) s.free
    else multiply cs d b (w 0) (w 1) sn k
      (fun i => (List.range k).map fun j => fdecode f (unfoldNow (s.free + i * k + j) (es.getD (i * k + j) ⟨none, [0], []⟩))) mmaElem
  | .window off bs => tileWindowWrite cs off bs
  | .unspecified t => writeTile cs t (Config.freeTile s.free) ((tileOf cs t).tags)
  | _ => cs

/-! The queue (R170, R293, R295). -/

/-- An entry must be performed before another: of one strand, or on a tile both name. -/
def mxBefore (e f : MxEntry) : Bool :=
  (!e.remote && !f.remote && e.uid == f.uid) || (e.remote && f.remote) ||
    (mxTiles e.op).any fun t => (mxTiles f.op).contains t

/-- TRST, TSAVE, MSAVE and MRESTORE, which are performed ahead of the frozen instructions of their slot (R293). -/
def goesAhead : MxOp → Bool
  | .trst _ | .tsave _ | .msave _ _ | .mrestore _ _ => true
  | _ => false

/-- An own instruction of a slot that holds frozen state waits for the thaw, also one that was queued before the state came (R293). -/
def frozenOut (cs : CoreState) (e : MxEntry) : Bool := !e.remote && frozenFor cs e.slot && !goesAhead e.op

/-- An own instruction has an acquire in front of it in program order that is not performed. What that acquires may be a command's writes, so that the
instruction arrives at the queue only then (R306). -/
def acquiring (s : State) (e : MxEntry) : Bool :=
  !e.remote && match hartByUid s e.uid with
    | none => false
    | some (_, hs) => (before hs e.at_).any fun q =>
        if q.op.isFence then (q.op == .fenceLight || q.mod.order != .rel) && !fenceDone (invisible s hs.id.uid) hs q
        else q.acquires && !outOfWay hs q

def removeEntry (cs : CoreState) (id : Nat) : CoreState := { cs with queue := cs.queue.filter fun e => e.id ≠ id }

/-- The matrix unit drops an instruction, which its strand is to perform again. -/
def dropEntry (s : State) (c : Nat) (e : MxEntry) : State := setCore s c (removeEntry (coreOf s c) e.id)

/-- Marks the operations of queue entries as dropped. -/
def markDropped (hs : HartState) (f : Pending → Bool) : HartState :=
  { hs with run := { hs.run with ops := hs.run.ops.map fun p => if f p then { p with fetched := true } else p } }

/-- Cancels what stands behind a faulting load of a strand (R295). -/
def cancelBehind (s : State) (c : Nat) (e : MxEntry) : State :=
  let cs := coreOf s c
  let gone := (cs.queue.dropWhile fun f => f.id ≠ e.id).filter fun f => f.uid == e.uid && !f.remote && f.id != e.id
  let s1 := setCore s c { cs with queue := cs.queue.filter fun f => !(gone.any fun g => g.id == f.id) }
  match hartByUid s1 e.uid with
  | none => s1
  | some (h, hs) =>
    let hs' := markDropped hs fun p => gone.any fun g => g.seq == some p.seq
    setHart s1 h { hs' with run := { hs'.run with cancelled := hs.run.cancelled ++ (gone.filter fun g => g.seq.isNone).map (·.pc) } }

def isMxLoad : MxOp → Bool
  | .tld _ _ _ | .trst _ | .cbload _ | .mrestore _ _ => true
  | _ => false

/-- The instruction is not performed now: it has faulted, or waits for a store that will be executed again (R31). What stands behind a load is
cancelled. -/
def mxAside (s : State) (c : Nat) (e : MxEntry) (h : Hart) (seq : Nat) : State :=
  let s1 := updateOp s h seq fun p => { p with fetched := true }
  dropEntry (if isMxLoad e.op then cancelBehind s1 c e else s1) c e

/-- The instruction faults: its tile or set is unchanged. -/
def mxFault (s : State) (c : Nat) (e : MxEntry) (h : Hart) (seq : Nat) (cause : Cause) (v : Word) : State :=
  mxAside (failOp s h seq cause v) c e h seq

/-- Only scratchpads are reached in window space (R175). The fault is that of the instruction, with its base address in TVAL, whichever row
meets such a window: R175 names no address (DESIGN CHOICE, log 82). -/
def mxWindowCause (s : State) (h : Hart) (p : Pending) (acc : WinAccess) : Option Cause :=
  p.spans.findSome? fun x => match x.at_ with
    | some a =>
      if !isWindow a.pa then none
      else if (windowParts a.pa).2.1 ≠ 0 then some .winflt
      else windowCheck s (accessorOf h p.by_) false a.pa (min x.len 8) acc 0
    | none => none

/-- The memory a load reads, once it may be performed: its grains are brought to the core, or it is performed at the home. -/
def mxLoad (s : State) (h : Hart) (hs : HartState) (c : Nat) (p : Pending) :
    Except (State × Option (Cause × Word)) (State × List Host.Cell) :=
  if !mayPerform s h hs p (goesHome h p) then .error (s, none)
  else if accessParked s hs.id.gang p then .error (s, some (.ereply, p.va))
  else match (mxWindowCause s h p .load).map (fun k => (k, p.va)) |>.orElse fun _ => memError s (hartModule h) true p.spans with
    | some f => .error (s, some f)
    | none =>
      match cohAll s (.op h p.seq) .read (if goesHome h p then none else some c) (memRanges p.spans) with
      | .wait s' => .error (s', none)
      | .ok s' => .ok (s', seenMem s' hs.id.uid p.seq)

/-- The naturally aligned 8-byte words of a piece: address and length within the piece. -/
def wordChunks : (fuel : Nat) → (pa len : Nat) → List (Nat × Nat)
  | 0, _, _ => []
  | n + 1, pa, len =>
    let k := min len (8 - pa % 8)
    if len = 0 then [] else (pa, k) :: wordChunks n (pa + k) (len - k)

/-- The words of the rows of a tile access, in order. -/
def tileChunks (spans : List Span) : List (Nat × Nat) := spans.flatMap fun x => match x.at_ with
  | some a => wordChunks 9 a.pa x.len
  | none => []

/-- Reads some words of a tile access, each at one moment (R175, R300): of those unread, the one at place `must` and any others. -/
def readChunks (m : List Host.Cell) : (draw : Nat) → (must : Nat) → List (Nat × Nat) → List (Option (List Byte)) → List (Option (List Byte))
  | _, _, [], _ => []
  | n, must, (pa, len) :: rest, got => match got.headD none with
    | some bs => some bs :: readChunks m (n + 1) must rest got.tail
    | none =>
      (if must = 0 || Config.freeBool n then some (memBytes m pa len) else none) ::
        readChunks m (n + 1) (if must = 0 then rest.length else must - 1) rest got.tail

/-- Words of a tile access that are not read yet. -/
def unread (chunks : List (Nat × Nat)) (got : List (Option (List Byte))) : Nat := chunks.length - (got.filter Option.isSome).length

/-- The bytes of a tile access once every word is read. -/
def allRead : List (Option (List Byte)) → Option (List Byte)
  | [] => some []
  | none :: _ => none
  | some bs :: rest => (allRead rest).map (bs ++ ·)

/-- The rows of TLD with BLK = 1: data, tags, or the fault of a block (R72, R176). SET and USESEL of rows other than C4 are not stated. -/
def blockRows (w : Word) (draw e0 : Nat) (base pitch : Word) : (n : Nat) → (r : Nat) → List Byte → TileData → List (BitVec 16) →
    Except (Cause × Word) (TileData × List (BitVec 16))
  | 0, _, _, d, tags => .ok (d, tags)
  | n + 1, r, bs, d, tags =>
    let b := leNat (bs.take 64)
    let va := base + BitVec.ofNat 64 r * pitch
    let f := fmtOfShape w
    match blockCheck b with
    | some c => .error (c, va)
    | none => match blockCode (b % 256) with
      | none =>
        blockRows w draw e0 base pitch n (r + 1) (bs.drop 64) (setBytes d (r * rowBytes w) (rowBytes w) 0)
          (tags.set r neutralTag)
      | some k =>
        if k.fmt ≠ f || k.count < e0 + shapeCols w then .error (.blkfmt, va)
        else
          let row := (List.range (shapeCols w)).foldl (fun x c => x + blockElement b k (e0 + c) *
            2 ^ (if f = .c4 then 4 * c else 8 * elemSize f * c)) 0
          let tag : BitVec 16 := BitVec.ofNat 16 (b / 256 % 256 + (if f = .c4 then k.set else (Config.freeWord (draw + r)).toNat % 8) * 256)
          blockRows w draw e0 base pitch n (r + 1) (bs.drop 64) (setBytes d (r * rowBytes w) (rowBytes w) row) (tags.set r tag)

/-- Row `r`'s bytes of a raw load as a number, the top bits of F6 elements zero (R175). -/
def rawRow (w : Word) (bs : List Byte) : Nat :=
  leNat (if fmtOfShape w = .f6 then bs.map fun b => b &&& 0x3F else bs)

/-- TLD with BLK = 0: data. -/
def rawRows (w : Word) : (n : Nat) → (r : Nat) → List Byte → TileData → TileData
  | 0, _, _, d => d
  | n + 1, r, bs, d =>
    rawRows w n (r + 1) (bs.drop (rowBytes w)) (setBytes d (r * rowBytes w) (rowBytes w) (rawRow w (bs.take (rowBytes w))))

/-- The first word of every image (R193). -/
def imageHead : Nat := 0x10240001

/-- The bytes of an image: header, its number, then opaque bytes (R192). -/
def imageBytes (id slot : Nat) : List Byte :=
  leBytes 64 (imageHead + slot * 2 ^ 65) ++ leBytes 8 id ++ (List.range 18360).map (Config.imageByte id)
def emptyImage : List Byte := leBytes 18432 (imageHead + 2 ^ 64)

/-- The image of a tile (R195). -/
def tileImage (x : Tile) : List Byte := leBytes 1024 x.data.toNat ++ leBytes 64 (tagsNat x.tags) ++ leBytes 64 x.shape.toNat

/-- Frozen instructions of an image nobody wrote: at most 16, on tiles t0 to t7 (R193). -/
def alteredEntries (free uid slot : Nat) : List MxEntry :=
  (List.range (Config.freeNat free % 17)).map fun i =>
    ⟨i, uid, slot, none, 0, false, .unspecified ⟨Config.freeNat (free + 1 + i) % 8, Nat.mod_lt _ (by omega)⟩,
      MxSnap.empty, 0⟩

/-- The strand of a slot, by its uid. -/
def slotUid (s : State) (c slot : Nat) : Nat := match hartOf s (.strand c slot) with
  | some hs => hs.id.uid
  | none => 0

/-- MRESTORE's effect on its core, or its fault (R193). -/
def mxRestore (s : State) (c : Nat) (slot first va : Word) (bs : List Byte) : Except (Cause × Word) State :=
  let cs := coreOf s c
  let n := leNat bs
  if leNat (bs.take 8) ≠ imageHead then .error (.mimg, va)
  else if 7 < slot.toNat then .error (.tfmt, first)
  else if n / 2 ^ 64 % 2 = 1 then .ok s
  else if cs.frozen.isSome then .error (.tfmt, first)
  else
    let id := leNat ((bs.drop 64).take 8)
    let uid := slotUid s c slot.toNat
    match assocGet s.images id with
    | some es =>
      if bs.drop 64 = (imageBytes id 0).drop 64 then
        .ok (setCore s c { cs with frozen := some ⟨slot.toNat, es.map fun e => { e with uid := uid, slot := slot.toNat }⟩ })
      else .ok { setCore s c { cs with frozen := some ⟨slot.toNat, alteredEntries s.free uid slot.toNat⟩ } with free := s.free + 17 }
    | none => .ok { setCore s c { cs with frozen := some ⟨slot.toNat, alteredEntries s.free uid slot.toNat⟩ } with free := s.free + 17 }

/-- A queued TSAVE of a tile saves the shape that a TRST in front of it installs (R195). -/
def reshape (t : Fin 8) (sh : Word) (e : MxEntry) : MxEntry :=
  match e.op with
  | .tsave u => if u = t then { e with snap := { e.snap with shapes := [sh] } } else e
  | _ => e

/-- The effect of a load's bytes on its core. -/
def mxLoaded (s : State) (c : Nat) (e : MxEntry) (p : Pending) (bs : List Byte) : Except (Cause × Word) State :=
  let cs := coreOf s c
  let w := e.snap.shapes.getD 0 0
  match e.op with
  | .tld t none _ =>
    let x := tileOf cs t
    .ok (setCore s c (writeTile cs t (rawRows w (shapeRows w) 0 bs x.data) (setTags x.tags (shapeRows w) fun _ => neutralTag)))
  | .tld t (some e0) _ =>
    let x := tileOf cs t
    let pitch := match p.spans[1]? with
      | some y => y.va - p.va
      | none => 0
    match blockRows w s.free e0.toNat p.va pitch (shapeRows w) 0 bs x.data x.tags with
    | .error f => .error f
    | .ok (d, tags) => .ok { setCore s c (writeTile cs t d tags) with free := s.free + 32 }
  | .cbload set => .ok (setCore s c { cs with books := cs.books.set set.val (BitVec.ofNat 256 (leNat bs)) })
  | .trst t =>
    let sh := (BitVec.ofNat 64 (leNat ((bs.drop 1088).take 8)) &&& 0x100F3FFF#64) ||| BitVec.ofNat 64 (e.slot * 2 ^ 24)
    .ok (setCore s c (setTile { cs with queue := cs.queue.map (reshape t sh) } t
      ⟨BitVec.ofNat 8192 (leNat (bs.take 1024)), tagsOf (leNat ((bs.drop 1024).take 64)) 32, sh, false, false⟩))
  | .mrestore slot first => mxRestore s c slot first p.va bs
  | _ => .ok s

/-- The store that an entry of the queue becomes, and what it does to its core and to the table of images; `none` for no store. MSAVE frees the
frozen state when its store is accepted (R192). -/
def mxStored (s : State) (c : Nat) (e : MxEntry) (spans : List Span) : Except (Cause × Word) (State × Option Op) :=
  let cs := coreOf s c
  match e.op with
  | .tst t =>
    let w := e.snap.shapes.getD 0 0
    .ok (s, some (.store (splitBytes spans (leBytes (shapeRows w * rowBytes w) (tileBytes (tileOf cs t) 0 (shapeRows w * rowBytes w))))))
  | .tsave t =>
    let x := tileOf cs t
    let s1 := setCore s c (setTile cs t { x with dirty := false })
    if x.absent then .ok (s1, none)
    else .ok (s1, some (.store (splitBytes spans (tileImage { x with shape := e.snap.shapes.getD 0 0 }))))
  | .msave slot first =>
    if 7 < slot.toNat then .error (.tfmt, first)
    else match cs.frozen with
      | some f =>
        if f.slot = slot.toNat then
          .ok ({ s with images := s.images ++ [(s.nextId, f.entries)], nextId := s.nextId + 1 },
            some (.saveImage f.slot (splitBytes spans (imageBytes s.nextId f.slot))))
        else .ok (s, some (.store (splitBytes spans emptyImage)))
      | none => .ok (s, some (.store (splitBytes spans emptyImage)))
  | _ => .ok (s, none)

/-- Whether an entry stores to memory. -/
def isMxStore : MxOp → Bool
  | .tst _ | .tsave _ | .msave _ _ => true
  | _ => false

/-- MSAVE and MRESTORE: they follow one another, and no image of the core may be on its way to its acceptance (R192, R293). -/
def isImage : MxOp → Bool
  | .msave _ _ | .mrestore _ _ => true
  | _ => false

/-- An MSAVE of a strand of the core has written its image, and its store is not yet accepted. -/
def savingImage (s : State) (c : Nat) : Bool :=
  (List.range 8).any fun n => (hartOf s (.strand c n)).any fun hs => hs.run.ops.any fun p => match p.op with
    | .saveImage _ _ => !p.settled
    | _ => false

/-- The entry's access is done: its operation is over. -/
def mxDone (s : State) (c : Nat) (e : MxEntry) (h : Hart) (seq : Nat) : State :=
  let s1 := dropEntry s c e
  match hartOf s1 h with
  | some hs => setHart s1 h (pruneFences s1 (dropOp hs seq))
  | none => s1

/-- A store of the queue is performed: it takes the tile's or the frozen state's bytes. An MSAVE's is accepted at once, where no other core or
module answers for it. -/
def mxStore (s : State) (c : Nat) (e : MxEntry) (h : Hart) (hs : HartState) (p : Pending) : Option State :=
  match ((mxWindowCause s h p .store).map fun k => (k, p.va)).orElse fun _ => memError s (hartModule h) false p.spans with
  | some (k, v) => some (mxFault s c e h p.seq k v)
  | none =>
    if isImage e.op && !mayAccept hs p then none
    else match mxStored s c e p.spans with
      | .error (k, v) => some (mxFault s c e h p.seq k v)
      | .ok (s1, none) => some (mxDone s1 c e h p.seq)
      | .ok (s1, some op) =>
        let s2 := dropEntry s1 c e
        match op with
        | .saveImage _ _ => some (if answered p then send s2 h hs { p with op := op } else accept s2 h hs { p with op := op })
        | _ => some (updateOp s2 h p.seq fun q => { q with op := op })

/-- A load of the queue is performed; a TLD in as many steps as it takes to read its words. -/
def mxRead (s : State) (c : Nat) (e : MxEntry) (h : Hart) (hs : HartState) (p : Pending) : Option State :=
  let done (s1 : State) (bs : List Byte) : State := match mxLoaded s1 c e p bs with
    | .error (k, v) => mxFault s1 c e h p.seq k v
    | .ok s2 => mxDone s2 c e h p.seq
  match mxLoad s h hs c p with
  | .error (s', none) => if s'.snoops.length = s.snoops.length then none else some s'
  | .error (s', some (k, v)) => some (mxFault s' c e h p.seq k v)
  | .ok (s1, m) => match e.op with
    | .tld t e0 got =>
      let chunks := tileChunks p.spans
      let got' := readChunks m s1.free (Config.freeNat s1.free % unread chunks got) chunks got
      let s2 := { s1 with free := s1.free + got'.length }
      match allRead got' with
      | some bs => some (done s2 bs)
      | none =>
        let cs := coreOf s2 c
        some (setCore s2 c { cs with queue := cs.queue.map fun x => if x.id = e.id then { x with op := .tld t e0 got' } else x })
    | _ => some (done s1 (readSpans m p.spans))

/-- An entry's memory access when it is performed; `none` when it cannot be performed yet. -/
def mxAccess (s : State) (c : Nat) (e : MxEntry) (seq : Nat) : Option State :=
  match hartByUid s e.uid with
  | none => some (dropEntry s c e)
  | some (h, hs) => match findOp hs seq with
    | none => some (dropEntry s c e)
    | some p =>
      if (asideOps hs).any fun x => x.seq == seq then some (mxAside s c e h seq)
      else if p.settled || !p.placed || (isImage e.op && savingImage s c) then none
      else if isMxStore e.op then mxStore s c e h hs p else mxRead s c e h hs p

/-- A load of the tile window is performed: the operation that waits for it gets its result (R190). -/
def tileReadDone (s : State) (cs : CoreState) (off len : Nat) (who : Waiter) : State :=
  match hartByUid s who.uid with
  | none => s
  | some (h, hs) => match findOp hs who.seq with
    | none => s
    | some p => match loadResult p (leBytes len (tileWindowRead cs off len)) with
      | .ok (ws, _) => finishOp s h who.seq ws
      | .error (k, v) => failOp s h who.seq k v

/-- Performs an entry at its turn. -/
def mxPerform (s : State) (c : Nat) (e : MxEntry) : Option State :=
  let cs := coreOf s c
  match e.op, e.seq with
  | .rowv col _ t idx start f rnd, some seq =>
    let v := sliceValue cs col t (e.snap.shapes.getD 0 0) e.snap idx.toNat start f rnd
    let s1 := setCore s c (removeEntry cs e.id)
    match hartByUid s1 e.uid with
    | some (h, _) => some (finishOp s1 h seq (wordsOf v.toNat 4))
    | none => some s1
  | op, some seq =>
    if isMxLoad op || isMxStore op then mxAccess s c e seq
    else
      let s1 := setCore s c (removeEntry (mxEffect s cs e) e.id)
      match hartByUid s1 e.uid with
      | some (h, _) => some (finishOp s1 h seq [0])
      | none => some s1
  | .windowRead off len who, none => some (tileReadDone (dropEntry s c e) cs off len who)
  | .mmau .., none => some { setCore s c (removeEntry (mxEffect s cs e) e.id) with free := s.free + 1024 }
  | .unspecified _, none => some { setCore s c (removeEntry (mxEffect s cs e) e.id) with free := s.free + 1 }
  | _, none => some (setCore s c (removeEntry (mxEffect s cs e) e.id))

/-- Performs the first entry that can be performed. An entry of frozen state's slot lets the slot's images and restores pass (R293); one that has yet to
arrive lets other sources pass (R306). -/
def mxFirst (s : State) (c : Nat) : (earlier : List MxEntry) → List MxEntry → Option State
  | _, [] => none
  | earlier, e :: rest =>
    let cs := coreOf s c
    let ahead (f : MxEntry) : Bool := (f.uid == e.uid && frozenOut cs f && goesAhead e.op) || (e.remote && acquiring s f)
    if frozenOut cs e || acquiring s e || earlier.any fun f => mxBefore f e && !ahead f then mxFirst s c (earlier ++ [e]) rest
    else match mxPerform s c e with
      | some s' => some s'
      | none => mxFirst s c (earlier ++ [e]) rest

/-- MATRIX_INSTRUCTION_COMPLETION: the unit of a core completes an instruction of its queue (R170). -/
def execMatrixInstructionCompletion (c : Nat) (s : State) : Result :=
  .next ((mxFirst s c [] (coreOf s c).queue).getD s)

/-! Commands (R188, R305, R306). -/

/-- MCMD's operation: a store event on no location (R306), with WINFLT for an offset that is not 0. -/
def mcmdOp (h : Hart) (hs : HartState) (d : Dst) (m : MemMod) (pa : Nat) (cmd cap : Word) : Pending :=
  let p := { windowOp h hs (.mcmd cmd cap none) (.scalar d) m pa 8 .write with store := true }
  if (windowParts pa).2.2 ≠ 0 then { p with phase := .found .winflt (BitVec.ofNat 64 pa) } else p

def execMcmd (d : Dst) (c : Option Coord) (off cmd cap : Src) (disp : BitVec 16) (m : MemMod) (s : State) : Result :=
  issue s (if c.isSome then 12 else 8) { mxNeed s [off, cmd, cap] true false with dsts := [d] } fun h s hs vals =>
    holdUp s h hs [.thawed] <| issueMem h s hs (mcmdOp h hs d m (windowAddr (optCore h hs c) 3 (vals.getD 0 0) disp) (vals.getD 1 0) (vals.getD 2 0))

/-- A command head: TZERO, MMA or MMAR, unmarked, in 64 bits. -/
def commandOf (w : Word) : Option MxOp :=
  match decode (leBytes 8 w.toNat) with
  | .ok d =>
    if d.sw || d.size ≠ 8 then none
    else match d.instr with
      | .tzero t => some (.zero t)
      | .mma a b c _ _ => some (.mma a b c)
      | .mmar a b c => some (.mmar a b c)
      | _ => none
  | .error _ => none

/-- SCSEL of an MMA head when SCEN is set. -/
def commandScale (w : Word) : Option (Fin 4) :=
  match decode (leBytes 8 w.toNat) with
  | .ok d => match d.instr with
    | .mma _ _ _ sc true => some sc.toFin
    | _ => none
  | .error _ => none

/-- SCALE, inner-loop buffer and SUBN of the slot that holds a tile (R305). A slot whose strand has retired or shipped has neither a resident nor a taken
strand, and has held one: R305 names no values there, and the model takes those of a slot that has held none (DESIGN CHOICE, log 108). -/
def slotValues (s : State) (c slot : Nat) : MatrixRegs × Bool :=
  match hartOf s (.strand c slot) with
  | some hs => (hs.mx, hs.fp.subn)
  | none => match assocGet (coreOf s c).residue slot with
    | some r => (r.mx, r.flush)
    | none => (MatrixRegs.reset, false)

/-- The capability does not match MCAP (R188, R304). -/
def capRefused (cs : CoreState) (cap : Word) : Bool := cs.mcap == 0 || cs.mcap != cap

/-- The status of a command for its tiles, or `none` when it is accepted (R188). -/
def tileStatus (cs : CoreState) (op : MxOp) : Option Nat :=
  if (mxTiles op).any fun t => !shapeValid (tileOf cs t).shape || (tileOf cs t).absent then some 2
  else match op with
    | .mma d a b | .mmar d a b => if mmaBad d a b cs then some 3 else none
    | _ => none

/-- The queue entry of an accepted command. -/
def commandEntry (s : State) (c uid seq : Nat) (cmd pc : Word) (op : MxOp) : MxEntry :=
  let cs := coreOf s c
  let ts := mxTiles op
  let slot := shapeOwner (tileOf cs (ts.getD 0 0)).shape
  let (mx, flush) := slotValues s c slot
  ⟨s.nextId, uid, 8, some seq, seq, true, op,
    ⟨ts.map fun t => (tileOf cs t).shape, (commandScale cmd).map fun n => mx.scale.get n, cs.books, cs.cbsel, mx.ucode, flush⟩, pc⟩

/-- A command waits at the port: behind one that came before it, for a place in the queue, or with a C4 B tile for a pending set (R182,
R188). -/
def commandWaits (s : State) (c ticket : Nat) (op : MxOp) : Bool :=
  let cs := coreOf s c
  decide (16 ≤ cs.queue.length) || ((portTickets s c).any fun t => decide (t < ticket)) || match op with
    | .mma _ _ b | .mmar _ _ b => isC4 b cs && cs.queue.any fun e => match e.op with
      | .cbload _ => true
      | _ => false
    | _ => false

/-- The target answers a command with a status. -/
def answerCommand (s : State) (h : Hart) (n k : Nat) : State :=
  updateOp s h n fun q => { q with phase := .done [BitVec.ofNat 64 k], accepted := true }

/-- A command at the port is accepted, or answered for its tiles; or it waits. -/
def commandTurn (s : State) (h : Hart) (hs : HartState) (p : Pending) (c ticket : Nat) (cmd : Word) (op : MxOp) : State :=
  if commandWaits s c ticket op then s
  else match tileStatus (coreOf s c) op with
    | some k => answerCommand s h p.seq k
    | none =>
      let cs := coreOf s c
      updateOp { setCore s c { cs with queue := cs.queue ++ [commandEntry s c hs.id.uid p.seq cmd p.pc op] } with nextId := s.nextId + 1 }
        h p.seq fun q => { q with phase := .waiting, accepted := true }

/-- A command comes to its target: refused by the target or by MCAP as it stands now (R306), or at the port. -/
def commandArrives (s : State) (h : Hart) (hs : HartState) (p : Pending) (cmd cap : Word) : State :=
  let c := (windowParts p.pa).1
  if coreModule c ≠ hartModule h || !coreUsable s c then answerCommand s h p.seq 4
  else if accessParked s hs.id.gang p then failOp s h p.seq .ereply p.va
  else if capRefused (coreOf s c) cap then answerCommand s h p.seq 1
  else match commandOf cmd with
    | none => answerCommand s h p.seq 3
    | some op =>
      let s1 := updateOp { s with nextId := s.nextId + 1 } h p.seq fun q => { q with op := .mcmd cmd cap (some s.nextId), accepted := true }
      commandTurn s1 h hs p c s.nextId cmd op

/-- MCMD_COMMAND_ARRIVAL (R188, R306): the command's release is done, and its target checks it; or it has waited at the port, where its tiles
are checked as it is accepted. -/
def execMcmdCommandArrival (h : Hart) (n : Nat) (s : State) : Result :=
  match openOp s h n with
  | none => .next s
  | some (hs, p) => match p.op with
    | .mcmd cmd cap none =>
      if p.phase ≠ .request || !mayPerform s h hs p false || !mayAccept hs p then .next s else .next (commandArrives s h hs p cmd cap)
    | .mcmd cmd _ (some t) => match commandOf cmd with
      | some op => if p.phase ≠ .request then .next s else .next (commandTurn s h hs p (windowParts p.pa).1 t cmd op)
      | none => .next s
    | _ => .next s

/-! Freeze and thaw (R191, R194). -/

/-- Instructions of a strand that a take freezes. -/
def ownEntries (cs : CoreState) (uid : Nat) : List MxEntry := cs.queue.filter fun e => e.uid == uid && !e.remote

/-- Freezes a strand's incomplete instructions; `none` when another slot's state is in the way. -/
def freeze (s : State) (c slot uid : Nat) : Option State :=
  let cs := coreOf s c
  let mine := ownEntries cs uid
  if mine.isEmpty then some s
  else
    let rest := { cs with queue := cs.queue.filter fun e => e.uid ≠ uid || e.remote }
    match cs.frozen with
    | none => some (setCore s c { rest with frozen := some ⟨slot, mine⟩ })
    | some f => if f.slot = slot then some (setCore s c { rest with frozen := some ⟨slot, f.entries ++ mine⟩ }) else none

/-- The strand's own TRST, TSAVE, MSAVE and MRESTORE are performed ahead of its frozen instructions (R293). -/
def thawWaits (s : State) (c uid : Nat) : Bool := ((ownEntries (coreOf s c) uid).any fun e => goesAhead e.op) || savingImage s c

/-- An element as the unit finds it at the thaw: the value it had fetched, or the one it reads now, from the core of the thaw (R302). -/
def UnfoldElem.thawed (m : List Host.Cell) (core : Nat) (f : Fmt) (e : UnfoldElem) : UnfoldElem :=
  match e.off with
  | none => e
  | some off =>
    let now := unfoldRead m core f off
    { e with vals := if e.vals.getLast? = some now then e.vals else e.vals ++ [now], copied := [core] }

/-- An instruction that thaws. An MMAU on a core to which an element has not been copied since the freeze computes unspecified values (R302, log
107). -/
def thawed (s : State) (c uid id : Nat) (e : MxEntry) : MxEntry :=
  let e' := { e with uid := uid, id := id }
  match e.op with
  | .mmau d b k f es o => { e' with op := .mmau d b k f (es.map (UnfoldElem.thawed s.mem c f)) (o || es.any fun x => x.off.isSome && !x.copied.contains c) }
  | _ => e'

/-- THAW_CHECK: TLAZY keeps the frozen state, TUNCFG and TOWN discard it; otherwise the instructions go on, before any new one of
the strand. -/
def execThawCheck (h : Hart) (s : State) : Result :=
  match hartOf s h, hartCore h with
  | some hs, some c =>
    let cs := coreOf s c
    match cs.frozen with
    | none => .next s
    | some f =>
      if !thawDue s h hs || hs.run.halted || hs.run.held || trapDue hs || thawWaits s c hs.id.uid then .next s
      else match tileCause cs f.slot (f.entries.flatMap fun e => mxTiles e.op) with
        | some (k, v) =>
          let s1 := if k = .tlazy then s else setCore s c { cs with frozen := none }
          .next (raiseIssue s1 h hs k v false)
        | none =>
          let again := f.entries.zipIdx.map fun (e, i) => thawed s c hs.id.uid (s.nextId + i) e
          .next { setCore s c { cs with frozen := none, queue := again ++ cs.queue } with nextId := s.nextId + again.length }
  | _, _ => .next s

end Sys2Proof.Machine
end

