-- ==== Sys2Proof/Machine/Pool.lean ====
section
/-!
DEFINITION. The dispatcher: its own stores and reads, the task-type table (R212), task records (R211), the ready pool (R307, R308),
placement (R309, R310, R311), and the retirement of groups with what it releases (R211, R312, R313, R315, R330).
-/

namespace Sys2Proof.Machine

/-! Stores and reads of the hardware. -/

/-- The engine whose number stands for the dispatchers of a module in what they store. -/
def dispatcherOf (m : Nat) : Hart := .engine (m * 128)

/-- A store by the hardware to physical memory, in the store order of `uid`. -/
def hwStore (s : State) (m gang uid : Nat) (md : MemMod) (pa : Nat) (bs : List Byte) : State :=
  let span : Span := ⟨BitVec.ofNat 64 pa, bs.length, .write, some ⟨pa, 2, 0, pa, 0, 0, 0⟩⟩
  let p : Pending :=
    { seq := 0, pc := 0, op := .store [bs], dest := .none, spans := [span], mod := md, phase := .request, store := true, accepted := true,
      place := false, remote := false, sent := s.now, coord := false, fetched := false, spoiled := false, by_ := ⟨gang, ⟨0, 0⟩, 1, 0, 0⟩ }
  { s with
    stores := s.stores ++ [⟨s.nextStore, dispatcherOf m, uid, 0, false, gang, none, p, false⟩]
    nextStore := s.nextStore + 1 }

/-- A fresh uid. -/
def freshUid (s : State) : State × Nat := ({ s with nextUid := s.nextUid + 1 }, s.nextUid)

/-- A store of one word, after nothing else. -/
def hwWord (s : State) (m gang : Nat) (md : MemMod) (pa : Nat) (v : Word) : State :=
  let (s1, u) := freshUid s
  hwStore s1 m gang u md pa (leBytes 8 v.toNat)

/-- Memory that the hardware may read at a physical address. -/
def readableMem (s : State) (m pa len : Nat) : Bool :=
  reachable s m (paModule pa) && !onLostStack s pa len && !poisoned s pa len

/-- Translates an access the hardware makes for a poster, and meets the checks of R106 and R230, an error reply and an uncorrectable error: the
place, or the cause (R208, R211). A store has its word `v`. -/
def posterPlace (s : State) (m : Nat) (by_ : Poster) (va : Word) (len : Nat) (r : Right) (v : Word) : Except Cause Placed :=
  if !aligned va len then .error .malign
  else match translate s (dispatcherOf m) by_.ptbr by_.priv va r with
    | .error c => .error c
    | .ok p =>
      let read := r != .write
      if isWindow p.pa then
        let access : WinAccess := match r with
          | .write => .store
          | .read => if len ≤ 8 then .load else .wide
          | _ => .wide
        match windowCheck s (accessorOf (dispatcherOf m) by_) false p.pa len access v with
        | some c => .error c
        | none =>
          if read && takenOn s (coreModule (windowParts p.pa).1) by_.gang then .error .ereply
          else if read && poisoned s p.pa len then .error .memerr
          else .ok p
      else if !reachable s m (paModule p.pa) || onLostStack s p.pa len then .error .ereply
      else if read && poisoned s p.pa len then .error .memerr
      else .ok p

/-- What the hardware reads at a place. -/
def posterNat (s : State) (p : Placed) (len : Nat) : Nat := if isWindow p.pa then windowRead s p.pa len else memNat s.mem p.pa len

/-- A read of the tile window waits for what the core's matrix queue holds for the tile (R190). -/
def tileQueued (s : State) (pa : Nat) : Bool :=
  let (c, kind, off) := windowParts pa
  isWindow pa && kind == 2 && (coreOf s c).queue.any fun e => (mxTiles e.op).any fun t => (mxTiles (.window off [])).contains t

/-- The host's copies of a range of memory that a reader must wait for (R243). -/
def rangeUnits (s : State) (pa len : Nat) : List CohUnit := if isWindow pa then [] else hostUnits s .read (unitsOf s pa len 1)

/-- What the hardware meets when it reads for a poster: the place, a cause, or lines of the host that it must wait for, in the page tables or
where it reads (R232, R243). -/
inductive PosterGot where
  | place (p : Placed)
  | fault (c : Cause)
  | wait (s : State)

def posterRead (s : State) (m : Nat) (by_ : Poster) (va : Word) (len : Nat) (r : Right) : PosterGot :=
  match translateUnits s (dispatcherOf m) by_ va r with
  | l :: ls => .wait (sendSnoops s (.unit va.toNat) .read (l :: ls))
  | [] => match posterPlace s m by_ va len r 0 with
    | .error c => .fault c
    | .ok p => match rangeUnits s p.pa len with
      | [] => if tileQueued s p.pa then .wait s else .place p
      | ls => .wait (sendSnoops s (.unit p.pa) .read ls)

/-! The task-type table (R212). -/

structure TaskType where
  epc : Word
  strands : Nat
  spk : Nat
  ntile : Nat
  prio : Nat
  deriving DecidableEq, Repr

/-- The host's lines of a table entry (R243). -/
def tttUnits (s : State) (m tti : Nat) : List CohUnit := rangeUnits s ((moduleOf s m).tttb.toNat + 32 * tti) 32

/-- An entry's fields, when it is in use and every field lies in the range of R212. -/
def taskTypeOf (x : Nat) : Option TaskType :=
  let f (lo n : Nat) : Nat := x / 2 ^ lo % 2 ^ n
  let t : TaskType := ⟨BitVec.ofNat 64 (f 0 64), f 64 7, f 71 9, f 80 4, f 84 2⟩
  if f 87 1 = 1 ∧ f 86 1 = 0 ∧ f 88 168 = 0 ∧ f 0 2 = 0 ∧ 1 ≤ t.strands ∧ t.strands ≤ 64 ∧ t.spk ≤ 256 ∧ t.ntile ≤ 8 then
    some t
  else none

/-- The entry of a task type on a module. -/
def taskType (s : State) (m tti : Nat) : Option TaskType :=
  let pa := (moduleOf s m).tttb.toNat + 32 * tti
  if memRangeOk pa 32 && readableMem s m pa 32 then taskTypeOf (memNat s.mem pa 32) else none

/-! Task records (R211). -/

/-- PRED of a task record. -/
def predOf (x : Nat) : Nat := x / 2 ^ 64 % 2 ^ 16

/-- The task of a record's 256 bits, unless a rule of the record is broken. Its number is the next one. -/
def taskOf (s : State) (m : Nat) (va : Word) (pa x : Nat) (by_ : Poster) (act : Option Nat) : Option Task :=
  let f (lo n : Nat) : Nat := x / 2 ^ lo % 2 ^ n
  match taskType s m (f 0 8) with
  | none => none
  | some e =>
    if f 9 7 ≠ 0 ∨ f 88 40 ≠ 0 ∨ (f 8 1 = 1 ∧ e.strands ≠ 1) then none
    else some ⟨s.nextId, va, pa, f 0 8, f 8 1 == 1, BitVec.ofNat 64 (f 16 48), f 80 8, BitVec.ofNat 64 (f 128 64), BitVec.ofNat 64 (f 192 64),
      by_, act⟩

/-! The pool (R307). -/

def PoolItem.isTask : PoolItem → Bool
  | .task _ => true
  | .grid _ => false

/-- Task entries in a module's pool. -/
def poolTasks (ms : ModuleState) : Nat := (ms.pool.filter fun e => e.item.isTask).length
def poolFull (ms : ModuleState) : Bool := decide (4096 ≤ poolTasks ms)

/-- The class of a task type; an entry that is no longer in use stands in class 3. -/
def prioOf (s : State) (m tti : Nat) : Nat := match taskType s m tti with
  | some e => e.prio
  | none => 3

/-- Adds an entry at the tail of its class. -/
def poolAdd (s : State) (m : Nat) (item : PoolItem) (prio : Nat) : State :=
  let ms := moduleOf s m
  setModule s m { ms with pool := ms.pool ++ [⟨item, prio, prio, 0, 0⟩] }

/-- A gang's take is in progress on a module (R318). -/
def takeRunning (s : State) (m gang : Nat) : Bool :=
  (moduleOf s m).actions.any fun a => a.order.gang == gang && a.stage == .take

/-- A task whose count is zero enters the pool, or the save area of a running take (R318). One that becomes ready between the take's DONE and the
resume enters the pool and is placed: R318 speaks of the time within the take (DESIGN CHOICE, log 114). -/
def readyTask (s : State) (m : Nat) (t : Task) : State :=
  if takeRunning s m t.by_.gang then
    let ms := moduleOf s m
    setModule s m { ms with actions := ms.actions.map fun a =>
      if a.order.gang = t.by_.gang && a.stage == .take then { a with tasks := a.tasks ++ [t.va] } else a }
  else poolAdd s m (.task t) (prioOf s m t.tti)

/-! Grids (R213, R311, R312). -/

def Grid.field (g : Grid) (lo n : Nat) : Nat := (g.desc.getD (lo / 64) 0).toNat / 2 ^ (lo % 64) % 2 ^ n
def Grid.tti (g : Grid) : Nat := g.field 0 8
def Grid.nvec (g : Grid) : Nat := g.field 10 3
def Grid.ex (g : Grid) (d : Nat) : Nat := g.field (16 + 16 * d) 16 + 1
def Grid.size (g : Grid) : Nat := g.ex 0 * g.ex 1 * g.ex 2
def Grid.stage (g : Grid) : Nat := g.field 112 8
def Grid.scope (g : Grid) : Nat := g.field 120 3
def Grid.arg (g : Grid) : Word := g.desc.getD 2 0

/-- Vector `k`, components x, y, z (R213). -/
def gridVec (desc : List Word) (k : Nat) : List Int :=
  let v := (desc.getD 1 0).extractLsb' (12 * k) 12
  [(v.extractLsb' 0 3).toInt, (v.extractLsb' 3 3).toInt, (v.extractLsb' 6 3).toInt]

def Grid.vecs (g : Grid) : List (List Int) := (List.range g.nvec).map (gridVec g.desc)

/-- The place of a group (R311). -/
def Grid.place (g : Grid) (i : Nat) : List Int :=
  [((i % g.ex 0 : Nat) : Int), ((i / g.ex 0 % g.ex 1 : Nat) : Int), ((i / g.ex 0 / g.ex 1 : Nat) : Int)]

/-- The index of a place inside the extents. -/
def Grid.index (g : Grid) (p : List Int) : Option Nat :=
  let x := p.getD 0 0
  let y := p.getD 1 0
  let z := p.getD 2 0
  if 0 ≤ x ∧ x < g.ex 0 ∧ 0 ≤ y ∧ y < g.ex 1 ∧ 0 ≤ z ∧ z < g.ex 2 then
    some (x.toNat + g.ex 0 * (y.toNat + g.ex 1 * z.toNat))
  else none

def vecAdd (p d : List Int) : List Int := List.zipWith (· + ·) p d
def vecSub (p d : List Int) : List Int := List.zipWith (· - ·) p d

/-- A group has retired, in this share or another. -/
def Grid.hasRetired (g : Grid) (i : Nat) : Bool := g.retired.contains i || g.others.contains i

/-- Every predecessor of a group lies outside the extents or has retired (R312). -/
def Grid.free (g : Grid) (i : Nat) : Bool :=
  g.vecs.all fun d => match g.index (vecAdd (g.place i) d) with
    | none => true
    | some j => g.hasRetired j

/-- The position whose share holds a group (R329). -/
def Grid.owner (g : Grid) (i : Nat) : Nat := match g.share with
  | some sh => i * sh.mset.length / g.size
  | none => 0

/-- A group of this module's share. -/
def Grid.mine (g : Grid) (i : Nat) : Bool := match g.share with
  | some sh => g.owner i == sh.pos
  | none => true

/-- A grid keeps a scoreboard (R313, R329). -/
def Grid.boarded (g : Grid) : Bool := decide (0 < g.nvec) || g.share.isSome

def gridOf (s : State) (m id : Nat) : Option Grid := (moduleOf s m).grids.find? fun g => g.id == id
def setGrid (s : State) (m : Nat) (g : Grid) : State :=
  let ms := moduleOf s m
  setModule s m { ms with grids := ms.grids.map fun x => if x.id = g.id then g else x }

/-- A group of a grid is in flight on a module. -/
def inFlight (s : State) (m id i : Nat) : Bool :=
  s.groups.any fun x => x.2.module_ == m && x.2.kind == .grid id i

/-- A group has retired, runs on this module, or runs on another one (R320, R338): it is not placed here again. -/
def Grid.spent (s : State) (m : Nat) (g : Grid) (i : Nat) : Bool := g.hasRetired i || g.away.contains i || inFlight s m g.id i

/-- Groups of a grid in flight on a module. -/
def flying (s : State) (m id : Nat) : Nat := (s.groups.filter fun x => x.2.module_ == m && match x.2.kind with
  | .grid i _ => i == id
  | _ => false).length

/-- The group a grid entry places next (R308): one that is neither retired nor in flight, which after a resume with an altered NEXT may stand
at or beyond it (R320). -/
def nextGroup (s : State) (m : Nat) (g : Grid) : Option Nat :=
  if 0 < g.nvec then g.pending.min?
  else if g.share.isSome then
    (List.range (g.size - g.next)).findSome? fun k =>
      let i := g.next + k
      if g.mine i && !g.spent s m i then some i else none
  else (List.range (min (g.size - g.next) (flying s m g.id + g.retired.length + 1))).findSome? fun k =>
    let i := g.next + k
    if !g.retired.contains i && !inFlight s m g.id i then some i else none

/-- Puts a grid with a released, unplaced group into the pool, once (R307). -/
def enterGrid (s : State) (m id : Nat) : State :=
  match gridOf s m id with
  | none => s
  | some g =>
    if (nextGroup s m g).isNone || ((moduleOf s m).pool.any fun e => e.item == .grid id) then s
    else poolAdd s m (.grid id) (prioOf s m g.tti)

/-- Releases those of a list of groups whose condition holds, once each, in ascending order (R312). -/
def releaseGroups (s : State) (m id : Nat) (is : List Nat) : State :=
  match gridOf s m id with
  | none => s
  | some g =>
    let new := (is.filter fun i => g.mine i && g.free i && !g.released.contains i && !g.spent s m i).eraseDups
    enterGrid (setGrid s m { g with pending := g.pending ++ new, released := g.released ++ new }) m id

/-- The successors of a group, in the order of the vectors (R312). -/
def Grid.successors (g : Grid) (j : Nat) : List Nat := g.vecs.filterMap fun d => g.index (vecSub (g.place j) d)

/-! Completion (R213, R313, R330). -/

/-- The memory order of a grid's completion store. -/
def Grid.mod (g : Grid) : MemMod := ⟨.rel, if g.scope = 5 then .system else .package⟩

/-- Frees a grid's id and scoreboard. -/
def dropGrid (s : State) (m id : Nat) : State :=
  let ms := moduleOf s m
  setModule s m { ms with grids := ms.grids.filter (fun g => g.id ≠ id), pool := ms.pool.filter (fun e => e.item ≠ .grid id) }

/-- DESC and CADDR of a grid. -/
def Grid.key (g : Grid) : List Word := g.desc ++ [BitVec.ofNat 64 g.caddr]

/-- The completion store, and the end of the grid. -/
def completeGrid (s : State) (m : Nat) (g : Grid) : State :=
  let s1 := if g.caddr = 0 then s else hwWord s m g.by_.gang g.mod g.caddr (BitVec.ofNat 64 (2 ^ 63 + g.id))
  dropGrid s1 m g.id

/-- Position 0 knows a share complete; when all are, the grid is (R330). -/
def shareDone (s : State) (m : Nat) (g : Grid) (pos : Nat) : State :=
  match g.share with
  | none => s
  | some sh =>
    let sh' := { sh with complete := if sh.complete.contains pos then sh.complete else sh.complete ++ [pos] }
    let g' := { g with share := some sh' }
    if sh'.complete.length < sh.mset.length then setGrid s m g'
    else (sh.mset.filter (· ≠ m)).foldl (fun t dest => sendMsg t (.gridDone dest (g.act.getD 0) g.order g.by_.gang g.key)) (completeGrid s m g')

/-- Every group of the module's share has retired, here or where its records were installed. -/
def Grid.shareEmpty (g : Grid) : Bool := (List.range g.size).all fun i => !g.mine i || g.hasRetired i

/-- Completes a grid or a share when nothing of it is left. -/
def checkGrid (s : State) (m id : Nat) : State :=
  match gridOf s m id with
  | none => s
  | some g => match g.share with
    | none => if g.size ≤ g.nret then completeGrid s m g else s
    | some sh =>
      if !g.shareEmpty then s
      else if sh.pos = 0 then shareDone s m g 0
      else sendMsg s (.share (sh.mset.getD 0 0) (g.act.getD 0) g.order sh.pos)

/-- GROUP_RELEASE and GRID_COMPLETION: group `i` of a grid has retired (R312, R313, R318, R330). The modules of its successors' shares are told,
and that of its own share, which may be another (R338). -/
def gridGroupRetired (s : State) (m id i : Nat) : State :=
  match gridOf s m id with
  | none => s
  | some g =>
    let g' := { g with nret := g.nret + 1, retired := if g.boarded || decide (g.next ≤ i) then g.retired ++ [i] else g.retired }
    let s1 := setGrid s m g'
    let succ := g'.successors i
    let others := ((i :: succ).filterMap fun j => match g'.share with
      | some sh => if g'.owner j = sh.pos then none else sh.mset[g'.owner j]?
      | none => none).eraseDups
    let s2 := others.foldl (fun t dest => sendMsg t (.release dest (g'.act.getD 0) g'.order i)) s1
    let s3 := if takeRunning s2 m g'.by_.gang then s2 else releaseGroups s2 m id succ
    checkGrid s3 m id

/-! Successor lists (R211, R315). -/

/-- A task posted from a record, and its module: the next of those that wait (R307). -/
def waitingTask (s : State) (pa : Nat) : Option (Nat × Task) :=
  s.modules.findSome? fun (m, ms) => (ms.waiting.find? fun t => t.pa == pa).map fun t => (m, t)

/-- A waiting task enters the pool of its module; `none` while that is full. -/
def enterTask (s : State) (m : Nat) (t : Task) : Option State :=
  if poolFull (moduleOf s m) && !takeRunning s m t.by_.gang then none
  else
    let ms := moduleOf s m
    some (readyTask (setModule s m { ms with waiting := ms.waiting.filter fun x => x.n ≠ t.n }) m t)

/-- One entry of a successor list. -/
inductive Walked where
  | go (s : State) (w : SuccWalk)
  | pause (s : State) (w : SuccWalk)
  | stop (s : State)

/-- SUCCESSOR_DECREMENT: the entry at the walk's place. -/
def walkEntry (s : State) (m : Nat) (w : SuccWalk) : Walked :=
  match w.wait with
  | some (tm, t) => match enterTask s tm t with
    | some s' => .go s' { w with wait := waitingTask s' t.pa }
    | none => .pause s w
  | none =>
    if w.left = 0 then .stop s
    else match posterRead s m w.by_ w.at_ 8 .read with
      | .wait s' => .pause s' w
      | .fault _ => .stop (raiseModule s m .recflt w.at_)
      | .place p =>
        let r := BitVec.ofNat 64 (posterNat s p 8)
        if r = 0 then .stop s
        else match posterRead s m w.by_ (r + 8) 2 .both with
          | .wait s' => .pause s' w
          | .fault _ => .stop (raiseModule s m .recflt (r + 8))
          | .place q => match cohRequest s (.unit q.pa) .own none q.pa 2 q.grain with
            | .wait s' => .pause s' w
            | .ok s1 =>
              let n := (memNat s1.mem q.pa 2 + 2 ^ 16 - 1) % 2 ^ 16
              let s2 := putMem s1 (memSetNat s1.mem q.pa 2 n) q.pa 2
              .go s2 { w with at_ := w.at_ + 8, left := w.left - 1, wait := if n = 0 then waitingTask s2 (q.pa - 8) else none }

/-- Walks a list as far as it goes: the state, and the walk that pauses. -/
def walkList (m : Nat) : (fuel : Nat) → State → SuccWalk → State × Option SuccWalk
  | 0, s, _ => (s, none)
  | n + 1, s, w => match walkEntry s m w with
    | .go s' w' => walkList m n s' w'
    | .pause s' w' => (s', some w')
    | .stop s' => (s', none)

/-- Starts or goes on with a walk; a paused one is kept. It takes a step for each of its 64 entries and for each task that waits. -/
def walkSucc (s : State) (m : Nat) (w : SuccWalk) : State :=
  match walkList m (66 + (s.modules.map fun x => x.2.waiting.length).sum) s w with
  | (s', none) => s'
  | (s', some w') => setModule s' m { moduleOf s' m with succs := (moduleOf s' m).succs ++ [w'] }

/-- Goes on with every paused walk of a module, in order. -/
def walkPaused (s : State) (m : Nat) : State :=
  let ws := (moduleOf s m).succs
  ws.foldl (fun t w => walkSucc t m w) (setModule s m { moduleOf s m with succs := [] })

/-! Retirement of a group (R215). -/

/-- A group is gone: its grid or its successors learn of it. -/
def groupRetired (s : State) (gid : Nat) (g : Group) : State :=
  let s1 := { s with groups := assocDel s.groups gid }
  match g.kind with
  | .grid id i => gridGroupRetired s1 g.module_ id i
  | .task t => if t.succ = 0 then s1 else walkSucc s1 g.module_ ⟨t.succ, 64, t.by_, none⟩
  | .child => s1

/-- One strand of a group ended. -/
def groupStrandEnds (s : State) (gid : Nat) : State :=
  match assocGet s.groups gid with
  | none => s
  | some g =>
    if g.left ≤ 1 then groupRetired s gid g
    else { s with groups := assocSet s.groups gid { g with left := g.left - 1 } }

/-! Rooms (R309). -/

/-- Scratchpad reserved on a core, in KiB. -/
def spkUsed (s : State) (c : Nat) : Nat := (s.groups.map fun x => ((x.2.spk.filter fun r => r.1 == c).map (·.2)).sum).sum

/-- The lowest free slot of a core that an assignment does not use yet. -/
def slotLeft (s : State) (c : Nat) (used : List (Nat × Nat)) : Option Nat :=
  (freeSlots s c).find? fun n => !used.contains (c, n)

/-- The core for the next strand: a free slot, the fewest strands of the group, room for a first strand. -/
def nextCore (s : State) (g spk : Nat) (used : List (Nat × Nat)) : Option Nat :=
  let count (c : Nat) : Nat := (used.filter fun x => x.1 == c).length
  let ok (c : Nat) : Bool := (slotLeft s c used).isSome && (decide (0 < count c) || decide (spkUsed s c + spk ≤ 256))
  let cs := (clusterCores g).filter ok
  ((cs.map count).min?).bind fun k => cs.find? fun c => count c == k

/-- The cores and slots of `n` strands on a cluster, in strand order. -/
def assign (s : State) (g spk : Nat) : (n : Nat) → (used : List (Nat × Nat)) → Option (List (Nat × Nat))
  | 0, used => some used
  | n + 1, used =>
    match nextCore s g spk used with
    | none => none
    | some c => match slotLeft s c used with
      | none => none
      | some k => assign s g spk n (used ++ [(c, k)])

/-- The SPK reservations of an assignment. -/
def spkOf (spk : Nat) (used : List (Nat × Nat)) : List (Nat × Nat) := ((used.map (·.1)).eraseDups).map fun c => (c, spk)

/-- The four bands around a home: quadrants of its die, then the neighbouring dies, then the diagonal one. -/
def bands (m die slice : Nat) : List (List Nat) :=
  let q := slice / 16
  let quad (k : Nat) : List Nat := (List.range 8).map fun i => m * 128 + die * 32 + k * 8 + i
  let whole (d : Nat) : List Nat := (List.range 32).map fun i => m * 128 + d * 32 + i
  let near := ((List.range 4).filter fun d => d != die && d + die != 3).flatMap whole
  [quad q, ((List.range 4).filter (· ≠ q)).flatMap quad, near, whole (3 - die)]

/-- Where the first tile base of a group lies, when it yields memory of this module (R309, R310). -/
def tileHomeOf (s : State) (m : Nat) (by_ : Poster) (va : Word) : Option (Nat × Nat) :=
  match posterPlace s m by_ va 8 .read 0 with
  | .error _ => none
  | .ok p => match translate s (dispatcherOf m) by_.ptbr by_.priv (BitVec.ofNat 64 (posterNat s p 8)) .probe with
    | .error _ => none
    | .ok q =>
      if isWindow q.pa || paModule q.pa != m then none
      else let (d, sl) := homeOf s q.pa; some (d % 4, sl)

/-- Clusters in cyclic order from the module's pointer. -/
def cyclicClusters (s : State) (m : Nat) : List Nat :=
  (List.range 128).map fun i => m * 128 + ((moduleOf s m).clusterPtr + i) % 128

/-- The first cluster of a list with room, and the assignment. -/
def firstRoom (s : State) (n spk : Nat) (gs : List Nat) : Option (Nat × List (Nat × Nat)) :=
  gs.findSome? fun g => (assign s g spk n []).map fun a => (g, a)

/-- A cluster for a group by step 2 of R309. -/
def cyclicRoom (s : State) (m n spk : Nat) : Option (State × List (Nat × Nat)) :=
  (firstRoom s n spk (cyclicClusters s m)).map fun (g, a) =>
    (setModule s m { moduleOf s m with clusterPtr := (g % 128 + 1) % 128 }, a)

/-- A cluster for a group, and the assignment. -/
def roomFor (s : State) (m n spk : Nat) (home : Option (Nat × Nat)) : Option (State × List (Nat × Nat)) :=
  match home with
  | some (d, sl) => (firstRoom s n spk (bands m d sl).flatten).map fun (_, a) => (s, a)
  | none => cyclicRoom s m n spk

/-! Starting strands (R311, R327, R328). -/

/-- What the gate of a context does to a strand placed now: a shut gate holds it, and after STRAGGLE marks it halted too. -/
def gateFor (s : State) (m gang : Nat) (act : Option Nat) (hs : HartState) : HartState :=
  let shut := (moduleOf s m).actions.filter fun a =>
    a.order.gang == gang && !a.open_ && a.stage != .take && a.order.act != 1
  match shut.find? fun a => a.order.straggled with
  | some a => { hs with run := { hs.run with
      halted := hs.run.halted || !a.ran
      gate := some a.order.n } }
  | none => match shut.find? fun a => act == some a.order.n with
    | some a => { hs with run := { hs.run with gate := some a.order.n } }
    | none => hs

/-- The values of a started strand that its group gives. -/
structure Launch where
  role : Role
  k2 : Word
  stage : Nat
  k5 : Word
  arg : Word
  act : Option Nat

/-- Starts the strands of a group on their slots, `k1` counting up. -/
def startStrands (m gid : Nat) (by_ : Poster) (epc : Word) (l : Launch) : (k1 : Nat) → List (Nat × Nat) → State → State
  | _, [], s => s
  | k, (c, n) :: rest, s =>
    let (s1, u) := freshUid s
    let hs := newStrand u l.role gid by_ epc
    let hs' := { hs with id := { hs.id with
      k1 := BitVec.ofNat 64 k
      k2 := l.k2
      k4 := BitVec.ofNat 64 l.stage
      k5 := l.k5
      k6 := BitVec.ofNat 64 m
      k7 := l.arg } }
    startStrands m gid by_ epc l (k + 1) rest (install s1 c n (gateFor s1 m by_.gang l.act hs'))

/-- Starts a group on an assignment. -/
def startGroup (s : State) (m : Nat) (kind : GroupKind) (e : TaskType) (by_ : Poster) (l : Launch) (used : List (Nat × Nat)) :
    State :=
  let gid := s.nextId
  let s1 := { s with
    nextId := s.nextId + 1
    groups := s.groups ++ [(gid, ⟨m, by_.gang, kind, used.length, spkOf e.spk used⟩)] }
  startStrands m gid by_ e.epc l 0 used s1

/-- Places one group of a grid. -/
def placeGrid (s : State) (m : Nat) (g : Grid) : Option State :=
  match taskType s m g.tti, nextGroup s m g with
  | some e, some i =>
    let home := if e.ntile = 0 then none else tileHomeOf s m g.by_ (g.arg + BitVec.ofNat 64 (8 * e.ntile * i))
    (roomFor s m e.strands e.spk home).map fun (s1, used) =>
      let g' := { g with
        pending := g.pending.erase i
        next := if g.nvec = 0 then i + 1 else g.next }
      startGroup (setGrid s1 m g') m (.grid g.id i) e g.by_
        ⟨.gridStrand, BitVec.ofNat 64 i, g.stage, BitVec.ofNat 64 g.id, g.arg, g.act⟩ used
  | _, _ => none

/-- An engine at rest: no hart, no kick, its die in service. -/
def engineIdle (s : State) (e : Nat) : Bool :=
  (hartOf s (.engine e)).isNone && (assocGet s.kicks e).isNone && (dieState s (e / 32)).inService

/-- The lowest idle engine of a die. -/
def dieEngine (s : State) (gdie : Nat) : Option Nat := ((List.range 32).map (gdie * 32 + ·)).find? (engineIdle s)

/-- A die for a copy task by step 2 of R309, and its engine. -/
def cyclicEngine (s : State) (m : Nat) : Option (State × Nat) :=
  let start := (moduleOf s m).diePtr
  ((List.range 4).findSome? fun i => (dieEngine s (4 * m + (start + i) % 4)).map fun e => ((start + i) % 4, e)).map fun (d, e) =>
    (setModule s m { moduleOf s m with diePtr := (d + 1) % 4 }, e)

/-- The dies of the bands, in order. -/
def bandDies (die : Nat) : List Nat := die :: ((List.range 4).filter fun d => d != die && d + die != 3) ++ [3 - die]

/-- Starts an engine hart: what R206 and R311 give it of its starter. -/
def startEngine (s : State) (e group : Nat) (by_ : Poster) (pc k7 : Word) (gs : List Word) : State :=
  let (s1, u) := freshUid s
  let hs := newStrand u .taskStrand group by_ pc
  let hs1 := { hs with id := { hs.id with k6 := BitVec.ofNat 64 (e / 128), k7 := k7 } }
  let hs2 := (gs.zipIdx.foldl (fun x (v, i) => writeG x ⟨(i + 1) % 16, Nat.mod_lt _ (by omega)⟩ v) hs1)
  setHart { s1 with engines := assocSet s1.engines e by_ } (.engine e) hs2

/-- Places a posted task. -/
def placeTask (s : State) (m : Nat) (t : Task) : Option State :=
  match taskType s m t.tti with
  | none => none
  | some e =>
    let home := if e.ntile = 0 then none else tileHomeOf s m t.by_ t.arg
    if t.copy then
      let found := match home with
        | some (d, _) => ((bandDies d).findSome? fun x => dieEngine s (4 * m + x)).map fun en => (s, en)
        | none => cyclicEngine s m
      found.map fun (s1, en) =>
        let gid := s1.nextId
        let s2 := { s1 with nextId := s1.nextId + 1, groups := s1.groups ++ [(gid, ⟨m, t.by_.gang, .task t, 1, []⟩)] }
        startEngine s2 en gid t.by_ e.epc t.arg
          [t.xyz &&& 0xFFFF#64, (t.xyz >>> 16) &&& 0xFFFF#64, (t.xyz >>> 32) &&& 0xFFFF#64, BitVec.ofNat 64 t.stage]
    else (roomFor s m e.strands e.spk home).map fun (s1, used) =>
      startGroup s1 m (.task t) e t.by_ ⟨.taskStrand, t.xyz, t.stage, 0, t.arg, t.act⟩ used

/-! The scan (R308). -/

/-- The gang of an entry. -/
def PoolItem.gang (s : State) (m : Nat) : PoolItem → Nat
  | .task t => t.by_.gang
  | .grid id => match gridOf s m id with
    | some g => g.by_.gang
    | none => 0

/-- Places an entry, if it can be placed at this moment. -/
def placeItem (s : State) (m : Nat) (x : PoolItem) : Option State :=
  if takeRunning s m (x.gang s m) then none
  else match x with
    | .task t => placeTask s m t
    | .grid id => (gridOf s m id).bind (placeGrid s m)

/-- The pool in scan order. -/
def scanOrder (pool : List PoolEntry) : List PoolEntry :=
  (List.range 4).flatMap fun c => pool.filter fun e => e.cls == c

/-- The first entry that can be placed, the entries passed over, and the state after. A reserved entry ends the scan. -/
def scanPool (s : State) (m : Nat) : (skipped : List PoolItem) → List PoolEntry → Option (PoolEntry × List PoolItem × State)
  | _, [] => none
  | skipped, e :: rest => match placeItem s m e.item with
    | some s' => some (e, skipped, s')
    | none => if 1024 ≤ e.passed then none else scanPool s m (skipped ++ [e.item]) rest

/-- The head of a class. -/
def classHead (pool : List PoolEntry) (c : Nat) : Option PoolItem := (pool.find? fun e => e.cls == c).map (·.item)

/-- Ageing after a placement of class `c`: the head of every lower class counts, and moves up at 64. -/
def age (c : Nat) (pool : List PoolEntry) : List PoolEntry :=
  let counted := pool.map fun e => if c < e.cls && classHead pool e.cls == some e.item then { e with aged := e.aged + 1 } else e
  (counted.filter fun e => e.aged < 64) ++ (counted.filter fun e => 64 ≤ e.aged).map fun e => { e with cls := e.cls - 1, aged := 0 }

/-- The pool after a placement. A grid with groups left goes back to the tail of its TTT class. -/
def poolAfter (s : State) (m : Nat) (e : PoolEntry) (skipped : List PoolItem) : State :=
  let ms := moduleOf s m
  let rest := (ms.pool.filter fun x => x.item ≠ e.item).map fun x =>
    if skipped.contains x.item then { x with passed := x.passed + 1 } else x
  let s1 := setModule s m { ms with pool := age e.cls rest }
  match e.item with
  | .grid id => enterGrid s1 m id
  | .task _ => s1

/-- The host's lines that the placement of an entry must wait for: of its TTT entry, and of the tile base and page tables by which its home is
found (R243). -/
def itemUnits (s : State) (m : Nat) (x : PoolItem) : List CohUnit :=
  let home (tti : Nat) (by_ : Poster) (va : Nat → Word) (i : Nat) : List CohUnit :=
    match tttUnits s m tti with
    | [] => match taskType s m tti with
      | none => []
      | some e =>
        if e.ntile = 0 then []
        else match translateUnits s (dispatcherOf m) by_ (va (8 * e.ntile * i)) .read with
          | [] => match posterPlace s m by_ (va (8 * e.ntile * i)) 8 .read 0 with
            | .error _ => []
            | .ok p => match rangeUnits s p.pa 8 with
              | [] => translateUnits s (dispatcherOf m) by_ (BitVec.ofNat 64 (posterNat s p 8)) .probe
              | ls => ls
          | ls => ls
    | ls => ls
  match x with
  | .task t => home t.tti t.by_ (fun _ => t.arg) 0
  | .grid id => match gridOf s m id with
    | none => []
    | some g => match nextGroup s m g with
      | none => []
      | some i => home g.tti g.by_ (fun k => g.arg + BitVec.ofNat 64 k) i

/-- PLACEMENT (R308, R309): paused successor lists go on as room allows, then one entry is placed. -/
def execPlacement (m : Nat) (s : State) : Result :=
  let s1 := if (moduleOf s m).succs.isEmpty then s else walkPaused s m
  match (moduleOf s1 m).pool.flatMap fun e => itemUnits s1 m e.item with
  | l :: ls => .next (sendSnoops s1 (.unit m) .read (l :: ls))
  | [] => match scanPool s1 m [] (scanOrder (moduleOf s1 m).pool) with
    | none => .next s1
    | some (e, skipped, s2) => .next (poolAfter s2 m e skipped)

end Sys2Proof.Machine
end

