-- ==== Sys2Proof/Machine/Launch.lean ====
section
/-!
DEFINITION. Launch instructions: TPOST and timed-launch records (R211, R215, R325), GLAUNCH (R213), SPAWN, JOIN and RETIRE (R214,
R215, R279).
-/

namespace Sys2Proof.Machine

/-! TPOST (R211, R325). -/

/-- The order of TPOST: its record is read with acquire. -/
def postMod (m : MemMod) : MemMod :=
  if m.order = .rel ∧ m.scope ≠ .strand then ⟨.ar, m.scope⟩ else ⟨.acq, .package⟩

def execTpost (d : Dst) (base : Src) (disp : BitVec 16) (m : MemMod) (s : State) : Result :=
  issue s 8 { srcs := [base], dsts := [d], place := true } fun h s hs vals =>
    let va := vals.getD 0 0 + disp.signExtend 64
    issueMem h s hs (checkAlign (memOp hs .tpost (.scalar d) (postMod m) [⟨va, 32, .read, none⟩]) va 32)

def ascending : List Nat → Bool
  | [] => true
  | [_] => true
  | a :: b :: rest => decide (a < b) && ascending (b :: rest)

/-- A timed-launch record's fields, when R325's checks pass. -/
def timedOf (s : State) (x : Nat) (by_ : Poster) : Option Timed :=
  let f (lo n : Nat) : Nat := x / 2 ^ lo % 2 ^ n
  let n := f 320 16
  let ids := (List.range n).map fun i => memNat s.mem (f 256 64 + 2 * i) 2
  if f 8 8 = 0x80 ∧ f 0 8 ≤ 2 ∧ f 16 16 = 0 ∧ f 160 32 = 0 ∧ f 336 176 = 0 ∧ f 192 6 = 0 ∧ 1 ≤ n ∧ n ≤ 16384 ∧
      ascending ids = true then
    some ⟨0, f 0 8, f 32 32, f 64 64, if f 128 32 = 0 then 2000 else f 128 32, f 192 64, ids, by_, false, [], false⟩
  else none

/-- Gives every module of the set the record. -/
def holdTimed (s : State) (t : Timed) : State :=
  let n := s.nextId
  t.mset.foldl (fun u m =>
    let ms := moduleOf u m
    recordInput (setModule u m { ms with timed := ms.timed ++ [{ t with n := n }] }) m (.timed t)) { s with nextId := n + 1 }

/-- What a post answers: a status, or a fault at the record's address. R211 gives no order to PRIV and MALIGN: a record that is no multiple of 32 has
met MALIGN before its byte 1 is read, and one that is only no multiple of 64 meets PRIV first (DESIGN CHOICE, log 106). -/
def postTimed (s : State) (m : Nat) (by_ : Poster) (pa : Nat) (va : Word) : Except Cause (State × Nat) :=
  if by_.priv = 0 then .error .priv
  else if !aligned va 64 then .error .malign
  else if poisoned s pa 64 then .error .memerr
  else match timedOf s (memNat s.mem pa 64) by_ with
    | none => .error .lnchflt
    | some t =>
      if t.mset.any fun k => !reachable s m k then .error .ereply
      else if t.mset.any fun m => 16 ≤ (moduleOf s m).timed.length then .ok (s, 3)
      else .ok (holdTimed s t, 4)

/-- A task record posted on a module. -/
def postTask (s : State) (m : Nat) (by_ : Poster) (va : Word) (pa : Nat) : State × Nat :=
  let x := memNat s.mem pa 32
  match taskOf s m va pa x by_ none with
  | none => (s, 2)
  | some t =>
    let ms := moduleOf s m
    let s1 := { s with nextId := s.nextId + 1 }
    if predOf x ≠ 0 then (setModule s1 m { ms with waiting := ms.waiting ++ [t] }, 1)
    else if poolFull ms then (s, 3)
    else (readyTask s1 m t, 0)

/-- TPOST's answer (RESULT_RETURN). -/
def tpostResult (s : State) (h : Hart) (hs : HartState) (p : Pending) : State :=
  if !mayPerform s h hs p true then s
  else match loadCause s h p, cohAll s (.op h p.seq) .read none (memRanges p.spans) with
    | some (c, v), _ => failOp s h p.seq c v
    | none, .wait s' => s'
    | none, .ok s' =>
      if 128 ≤ memNat s'.mem (p.pa + 1) 1 then
        match postTimed s' (hartModule h) p.by_ p.pa p.va with
        | .error c => failOp s h p.seq c p.va
        | .ok (s1, k) => giveResult s1 h hs p [BitVec.ofNat 64 k] {}
      else match tttUnits s' (hartModule h) (memNat s'.mem p.pa 1) with
        | l :: ls => sendSnoops s' (.op h p.seq) .read (l :: ls)
        | [] =>
          let (s1, k) := postTask s' (hartModule h) p.by_ p.va p.pa
          giveResult s1 h hs p [BitVec.ofNat 64 k] {}

/-! GLAUNCH (R213, R313), which acquires its descriptor and releases to its groups (R251). -/

def execGlaunch (d : Dst) (desc : Src) (done : BitVec 64) (s : State) : Result :=
  issue s 16 { srcs := [desc], dsts := [d], profile := .coreOnly, place := true } fun h s hs vals =>
    let a := vals.getD 0 0
    let word : List Span := if done = 0 then [] else [⟨done, 8, .write, none⟩]
    let op := memOp hs (.glaunch done) (.scalar d) ⟨.ar, .package⟩ (word ++ [⟨a, if aligned a 32 then 32 else 0, .read, none⟩])
    issueMem h s hs (if done = 0 then op else checkAlign op done 8)

/-- A vector is lexicographically negative (R213, check 2). -/
def lexNegative (v : List Int) : Bool :=
  match v.find? fun x => x ≠ 0 with
  | some x => decide (x < 0)
  | none => false

/-- The rules of a grid descriptor, in the order of R213. -/
def gridCause (s : State) (m : Nat) (desc : List Word) : Option Cause :=
  let g : Grid := ⟨0, desc, ⟨0, ⟨0, 0⟩, 0, 0, 0⟩, 0, [], [], [], [], [], 0, 0, none, none, 0⟩
  let ndim := g.field 8 2
  let nvec := g.nvec
  let raw (k : Nat) : Nat := (desc.getD 1 0).toNat / 2 ^ (12 * k) % 2 ^ 12
  let inRange (k : Nat) : Bool := decide (raw k / 512 = 0) && (gridVec desc k).zipIdx.all fun (x, d) =>
    decide (-3 ≤ x ∧ x ≤ 0) && (decide (d < ndim) || decide (x = 0))
  if (List.range (min nvec 4)).any fun k => !lexNegative (gridVec desc k) then some .depcyc
  else if ndim = 0 ∨ 4 < nvec ∨ g.field 13 3 ≠ 0 ∨ g.field 123 5 ≠ 0 ∨ (g.scope ≠ 4 ∧ g.scope ≠ 5) ∨ desc.getD 3 0 ≠ 0 ∨
      ((List.range 3).any fun d => decide (ndim ≤ d ∧ g.ex d ≠ 1)) = true ∨
      ((List.range nvec).any fun k => !inRange k) = true ∨
      ((List.range 4).any fun k => decide (nvec ≤ k ∧ raw k ≠ 0)) = true ∨ (taskType s m g.tti).isNone = true then some .lnchflt
  else if 0 < nvec ∧ 2 ^ 24 < g.size then some .lnchflt
  else none

/-- The lowest free grid id of a module. -/
def freeGridId (s : State) (m : Nat) : Option Nat := (List.range 64).find? fun i => (gridOf s m i).isNone

/-- Adds a grid under an id, in ascending order of id. -/
def addGrid (s : State) (m : Nat) (g : Grid) : State :=
  let ms := moduleOf s m
  let s1 := setModule s m { ms with
    grids := (ms.grids.filter fun x => x.id < g.id) ++ [g] ++ ms.grids.filter fun x => g.id < x.id }
  s1

/-- Releases the groups that wait for nobody; none while the context's take runs (R318). -/
def releaseAll (s : State) (m id : Nat) : State :=
  match gridOf s m id with
  | none => s
  | some g =>
    if takeRunning s m g.by_.gang then s
    else if g.nvec = 0 then enterGrid s m id
    else releaseGroups s m id (List.range g.size)

/-- The physical address of the completion word: the first piece when there are two. -/
def glaunchCaddr (p : Pending) : Nat := if 2 ≤ p.spans.length then p.pa else 0

/-- What the completion word of a GLAUNCH meets as an 8-byte store, before its descriptor is looked at (R106, R213). -/
def glaunchWordCause (s : State) (h : Hart) (p : Pending) : Option (Cause × Word) :=
  let word := p.spans.take (p.spans.length - 1)
  let winCause (y : Span) : Option (Cause × Word) := y.at_.bind fun b =>
    if isWindow b.pa then (windowCheck s (accessorOf h p.by_) false b.pa 8 .store (2 ^ 63)).map fun c => (c, y.va) else none
  (word.findSome? winCause).orElse fun _ => memError s (hartModule h) false word

/-- What a GLAUNCH meets at its completion word, then at its descriptor. -/
def glaunchCause (s : State) (h : Hart) (p : Pending) (x : Span) : Option (Cause × Word) :=
  (glaunchWordCause s h p).orElse fun _ => loadCause s h { p with spans := [x] }

/-- GLAUNCH's answer (RESULT_RETURN). It waits while no grid id is free. -/
def glaunchResult (s : State) (h : Hart) (hs : HartState) (p : Pending) : State :=
  let m := hartModule h
  match p.spans.getLast? with
  | none => s
  | some x => match x.at_ with
    | none => s
    | some a =>
      if !mayPerform s h hs p true then s
      else match glaunchCause s h p x, cohAll s (.op h p.seq) .read none (memRanges [x]) with
        | some (c, v), _ => failOp s h p.seq c v
        | none, .wait s' => s'
        | none, .ok s' =>
          let desc := (List.range 4).map fun i => memWord s'.mem (a.pa + 8 * i)
          match tttUnits s' m ((desc.getD 0 0).toNat % 256) with
          | l :: ls => sendSnoops s' (.op h p.seq) .read (l :: ls)
          | [] => match gridCause s' m desc with
            | some c => failOp s h p.seq c x.va
            | none => match freeGridId s' m with
              | none => updateOp s' h p.seq fun q => { q with phase := .waiting }
              | some id =>
                let g : Grid := ⟨id, desc, p.by_, glaunchCaddr p, [], [], [], [], [], 0, 0, none, none, 0⟩
                giveResult (releaseAll (addGrid s' m g) m id) h hs p [BitVec.ofNat 64 id] {}

/-! Join records (R279). -/

def joinOf (s : State) (r : JoinRef) : Option JoinRec := assocGet (dieState s r.die).joins r.index
def setJoin (s : State) (r : JoinRef) (x : JoinRec) : State :=
  setDie s r.die { dieState s r.die with joins := assocSet (dieState s r.die).joins r.index x }
def dropJoin (s : State) (r : JoinRef) : State :=
  setDie s r.die { dieState s r.die with joins := assocDel (dieState s r.die).joins r.index }

def isSpawn (p : Pending) : Bool := match p.op with
  | .spawn _ _ _ => true
  | _ => false

/-- Frees a strand's join record when nothing uses it (R279). -/
def tidyJoin (s : State) (h : Hart) : State :=
  match hartOf s h with
  | none => s
  | some hs => match hs.joinOwn with
    | none => s
    | some r =>
      if hs.st.jcnt = 0 && !hs.run.ops.any isSpawn then dropJoin (setHart s h { hs with joinOwn := none }) r else s

/-! SPAWN (R214, R252). -/

/-- SPAWN waits unissued while its die has no join record left. -/
def spawnInstr (size : Nat) (d : Dst) (entry arg : Src) (target : Hart → HartState → Option Nat) (s : State) : Result :=
  issue s size { srcs := [entry, arg], dsts := [d], profile := .coreOnly, place := true } fun h s hs vals =>
    let op := newOp hs (.spawn (vals.getD 0 0) (vals.getD 1 0) (target h hs)) (.scalar d)
    match hs.joinOwn with
    | some _ => .done s (addOp hs op)
    | none => match freeJoin s (hartDie h) with
      | none => .park (.blocked .join)
      | some r => .done (setJoin s r ⟨hs.id.uid, 0⟩) (addOp { hs with joinOwn := some r } op)

def execSpawn (d : Dst) (entry arg : Src) (c : Option Coord) (s : State) : Result :=
  match c with
  | none => spawnInstr 8 d entry arg (fun _ _ => none) s
  | some co => spawnInstr 16 d entry arg (fun h hs => some (coordCore h hs co)) s

/-- A window store of the parent may still be on its way to the target, or an earlier fence does not release yet (R252). -/
def spawnWaits (s : State) (h : Hart) (hs : HartState) (p : Pending) (target : Option Nat) : Bool :=
  let near (c : Nat) : Bool := match target with
    | some t => c == t
    | none => coreCluster c == coreCluster (ownCore h)
  let aims (q : Pending) : Bool := q.windowCores.any near
  let st := invisibleBefore s hs.id.uid p.seq
  (st.any fun a => aims a.p) || (before hs p.seq).any fun q =>
    if q.op.isFence then !fenceDone st hs q
    else (q.store && !q.settled && (!q.placed || aims q)) || (q.relFence && !outOfWay hs q && !relDone st hs q.seq)

/-- SPAWN's message leaves (RESULT_RETURN). -/
def spawnSend (s : State) (h : Hart) (hs : HartState) (p : Pending) (entry arg : Word) (target : Option Nat) : State :=
  if p.phase ≠ .request || spawnWaits s h hs p target then s
  else updateOp (sendMsg s (.launch target hs.id.uid p.seq entry arg p.by_)) h p.seq fun q => { q with phase := .waiting }

/-- A child of a strand on a slot, with what its SPAWN took from the parent (R311); `act` is the action that replays its launch (R333). -/
def startChild (s : State) (parent : HartState) (by_ : Poster) (act : Option Nat) (c n : Nat) (entry arg : Word) : State :=
  let (s1, u) := freshUid s
  let gid := s1.nextId
  let s2 := { s1 with nextId := gid + 1, groups := s1.groups ++ [(gid, ⟨coreModule c, parent.id.gang, .child, 1, []⟩)] }
  let hs := newStrand u .child gid by_ entry
  let hs' := { hs with
    id := { hs.id with
      k2 := parent.id.k2
      k4 := parent.id.k4
      k5 := parent.id.k5
      k6 := parent.id.k6
      k7 := arg }
    joinParent := parent.joinOwn }
  install s2 c n (gateFor s2 (coreModule c) parent.id.gang act hs')

/-- Counts a child at its parent and in the join record. -/
def countChild (s : State) (h : Hart) : State :=
  match hartOf s h with
  | none => s
  | some hs =>
    let s1 := setHart s h { hs with st := { hs.st with jcnt := hs.st.jcnt + 1 } }
    match hs.joinOwn with
    | none => s1
    | some r => match joinOf s1 r with
      | some x => setJoin s1 r { x with count := x.count + 1 }
      | none => s1

/-- What a launch message meets: a status, and the core and slot of the child when it is LAUNCHED. A parked one has no slot. -/
def launchStatus (s : State) (h : Hart) (hs : HartState) (target : Option Nat) (entry : Word) : Nat × Option (Nat × Option Nat) :=
  let place (c : Nat) : Nat × Option (Nat × Option Nat) :=
    if takenOn s (coreModule c) hs.id.gang then (0, some (c, none))
    else match (freeSlots s c).head? with
      | some n => (0, some (c, some n))
      | none => (1, none)
  if entry &&& 3#64 ≠ 0 then (4, none)
  else if hs.st.jcnt = 255 then (3, none)
  else match target with
    | some c => if coreModule c ≠ hartModule h || !coreUsable s c then (2, none) else place c
    | none => match clusterFree s (coreCluster (ownCore h)) with
      | some c => place c
      | none => (1, none)

/-- LAUNCH_MESSAGE: a launch message reaches the target's task inbox (R214, R252, R331). -/
def execLaunchMessage (i : Nat) (s : State) : Result :=
  match assocGet s.msgs i with
  | some (.launch target parent seq entry arg by_) =>
    let s0 := dropMsg s i
    match hartByUid s0 parent with
    | none => .next s0
    | some (h, hs) =>
      let (k, at_) := launchStatus s0 h hs target entry
      let s1 := match at_ with
        | some (c, some n) => startChild (countChild s0 h) hs by_ none c n entry arg
        | some (c, none) => parkPacket (countChild s0 h) (coreModule c) hs.id.gang (.launch c parent entry arg by_)
        | none => s0
      .next (finishOp s1 h seq [BitVec.ofNat 64 k])
  | _ => .next s

/-! JOIN and RETIRE (R214, R215). -/

def execJoin (s : State) : Result :=
  issue s 8 { profile := .coreOnly } fun _ s hs _ => if hs.st.jcnt = 0 then .done s hs else .park .children

/-- What a strand gives back when it ends (R173, R162, R215). -/
def leaveSlot (s : State) (h : Hart) (uid : Nat) : State :=
  let s1 := match h with
    | .strand c n => setCore s c (releaseTiles (coreOf s c) n)
    | .engine e => { s with engines := assocDel s.engines e }
  dropHart (leaveLong s1 uid) h

/-- A strand or engine hart ends: its group, its parent. -/
def endHart (s : State) (h : Hart) (hs : HartState) : State :=
  let s1 := leaveSlot s h hs.id.uid
  let s2 := match hs.joinParent, hs.plink with
    | some r, _ => sendMsg s1 (.join r)
    | none, some (m, k) => sendMsg s1 (.joinLink m hs.id.gang k)
    | none, none => s1
  groupStrandEnds s2 hs.id.group

/-- RETIRE (R215): as a switch marker, then the wait for children, then the end. -/
def execRetire (s : State) : Result :=
  issue s 8 {} fun h s hs _ =>
    let hs' := { hs with run := { hs.run with retiring := true } }
    if !finished s hs then .final (parked s h hs' (.blocked .finished) none)
    else if hs.st.jcnt ≠ 0 then .final (parked s h hs' .children none)
    else .final (endHart (noteIssue s h) h hs)

/-- The strand of a record restored on a module (R287). -/
def restoredUid (s : State) (m gang record : Nat) : Option Nat :=
  ((moduleOf s m).actions.find? fun a => a.order.gang == gang && a.order.act == 2).bind fun a => assocGet a.done record

/-- A decrement reaches a parent: JCNT and the record fall together; the record is freed at zero. -/
def decrementParent (s : State) (uid : Nat) : Option State :=
  (hartByUid s uid).map fun (h, hs) =>
    let s1 := setHart s h { hs with st := { hs.st with jcnt := hs.st.jcnt - 1 } }
    let s2 := match hs.joinOwn with
      | none => s1
      | some r => match joinOf s1 r with
        | some x => setJoin s1 r { x with count := x.count - 1 }
        | none => s1
    tidyJoin s2 h

/-- JOIN_DECREMENT: a child's decrement reaches its join record and its parent, wherever it then runs (R279, R280, R287). -/
def execJoinDecrement (i : Nat) (s : State) : Result :=
  match assocGet s.msgs i with
  | some (.join r) => match joinOf s r with
    | some x => match decrementParent s x.parent with
      | some s' => .next (dropMsg s' i)
      | none => .next s
    | none => .next s
  | some (.joinLink m gang k) => match (restoredUid s m gang k).bind (decrementParent s) with
    | some s' => .next (dropMsg s' i)
    | none => .next s
  | _ => .next s

end Sys2Proof.Machine
end

