-- ==== Sys2Proof/Machine/Engine.lean ====
section
/-!
DEFINITION. Copy engines: KICK and the start of an engine (R206, R207), its trap (R208), and bulk copies (R209, R210, R131).
-/

namespace Sys2Proof.Machine

/-! KICK (R207). -/

def execKick (d : Dst) (a b : Src) (m : MemMod) (s : State) : Result :=
  issue s 8 { srcs := [a, b], dsts := [d], place := true } fun _ s hs vals =>
    .done s (addOp hs { newOp hs (.kick (vals.getD 0 0) (vals.getD 1 0)) (.scalar d) with mod := m })

/-- The engine an id names, when it is well formed and exists. -/
def kickTarget (s : State) (h : Hart) (id : Word) : Option Nat :=
  let m := if id.getLsbD 21 then (id.extractLsb' 7 14).toNat else hartModule h
  let e := m * 128 + (id.extractLsb' 5 2).toNat * 32 + (id.extractLsb' 0 5).toNat
  if id.extractLsb' 22 42 = 0 ∧ reachable s (hartModule h) m = true ∧ (dieState s (e / 32)).inService = true then some e else none

/-- KICK performed with its release: the first status that applies (RESULT_RETURN). -/
def kickResult (s : State) (h : Hart) (hs : HartState) (p : Pending) (id desc : Word) : State :=
  if !mayPerform s h hs p true then s
  else
    let answer (s : State) (k : Nat) : State := giveResult s h hs p [BitVec.ofNat 64 k] {}
    match kickTarget s h id with
    | none => answer s 2
    | some e =>
      if desc.toNat % 64 ≠ 0 then answer s 3
      else if (assocGet s.kicks e).isSome then answer s 1
      else answer { s with kicks := assocSet s.kicks e ⟨desc, p.by_⟩ } 0

/-! Reports (R208). -/

/-- The trap word. -/
def trapWord (c : Cause) (v : Word) : Word := 1#1 ++ 0#1 ++ c.code ++ v.extractLsb' 0 56

/-- Stores report words in order, as the starter of the engine; the first that fails ends them with RECFLT. -/
def reportWords (s : State) (m uid : Nat) (by_ : Poster) : List (Word × Word) → State
  | [] => s
  | (va, v) :: rest => match posterPlace s m by_ va 8 .write v with
    | .error _ => raiseModule s m .recflt va
    | .ok p => reportWords (hwStore s m by_.gang uid ⟨.rel, .system⟩ p.pa (leBytes 8 v.toNat)) m uid by_ rest

/-- Bytes of the bursts that a bulk copy has delivered, with their arrivals. -/
def copyDone : Op → Option Nat
  | .bcopy _ _ _ _ _ d => some d
  | .bcast _ _ _ _ _ _ _ d => some d
  | _ => none

/-- The oldest fault of an engine: its cause, TVAL, and the progress of the copy that met it. -/
def engineFault (hs : HartState) : Option (Cause × Word × Option Nat) :=
  hs.run.ops.findSome? fun p => match p.phase with
    | .faulted c v => some (c, v, copyDone p.op)
    | _ => none

/-- The trap an engine takes now (R31, R34, R204). -/
def engineCause (hs : HartState) : Option (Cause × Word × Option Nat) :=
  if !clean hs then none
  else match engineFault hs, hs.run.due with
    | some x, _ => some x
    | none, some (c, v, _) => some (c, v, none)
    | none, none => if asyncReady hs then (lowestAsync hs.run.async).map fun (c, v) => (c, v, none) else none

/-- ENGINE_TRAP (R208, R314): the reports, and the engine is idle. A copy task does not complete. -/
def execEngineTrap (e : Nat) (s : State) : Result :=
  match hartOf s (.engine e) with
  | none => .next s
  | some hs => match engineCause hs with
    | none => .next s
    | some (c, v, progress) =>
      let by_ := (assocGet s.engines e).getD (posterOf hs)
      let p := hs.id.k7
      let words := (match progress with
        | some n => [(p + 56, BitVec.ofNat 64 n)]
        | none => []) ++ [(p + 8, trapWord c v)]
      match words.flatMap fun w => translateUnits s (dispatcherOf (e / 128)) by_ w.1 .write with
      | l :: ls => .next (sendSnoops s (.unit p.toNat) .read (l :: ls))
      | [] =>
        let s1 := { s with groups := assocDel s.groups hs.id.group }
        .next (reportWords (leaveSlot s1 (.engine e) hs.id.uid) (e / 128) hs.id.uid by_ words)

/-- ENGINE_START (R207): an idle engine takes the pending descriptor; a PC that cannot be read is reported as a trap is. TVEC and TSCR, which R206
does not take from the hart that kicked it, are zero. -/
def execEngineStart (e : Nat) (s : State) : Result :=
  match assocGet s.kicks e with
  | none => .next s
  | some k =>
    if (hartOf s (.engine e)).isSome || !(dieState s (e / 32)).inService then .next s
    else
      let m := e / 128
      let s1 := { s with kicks := assocDel s.kicks e }
      match posterRead s m k.by_ k.desc 8 .read with
      | .wait s' => .next s'
      | .fault c =>
        let (s2, u) := freshUid s1
        .next (reportWords s2 m u k.by_ [(k.desc + 8, trapWord c k.desc)])
      | .place p =>
        let start (t : State) : State :=
          startEngine { t with kicks := assocDel t.kicks e } e 0 { k.by_ with tvec := 0, tscr := 0 } (BitVec.ofNat 64 (posterNat t p 8)) k.desc []
        if isWindow p.pa then .next (start s)
        else match cohRequest s (.unit p.pa) .read none p.pa 8 p.grain with
          | .wait s' => .next s'
          | .ok s' => .next (start s')

/-! Bulk copies (R209, R210). -/

/-- A copy's ranges, for the order of the engine's own accesses. -/
def copySpans (src dst : Word) (len : Nat) : List Span := [⟨src, len, .read, none⟩, ⟨dst, len, .write, none⟩]

def execBcopy (a b c : Src) (bar : Option (BitVec 64)) (m : MemMod) (s : State) : Result :=
  issue s (if bar.isSome then 16 else 8) { srcs := [a, b, c], profile := .engineOnly, place := true } fun h s hs vals =>
    let dst := vals.getD 0 0
    let src := vals.getD 1 0
    let len := vals.getD 2 0
    if len = 0 then issueMem h s hs { memOp hs .storeNone .none m [⟨vals.getD 0 0, 1, .write, none⟩] with store := true }
    else .done s (addOp hs (memOp hs (.bcopy dst src len bar 0 0) .none m (copySpans src dst len.toNat)))

/-- The cores a BCAST names (R210). -/
def castCores (h : Hart) (mask : Word) (quad die : BitVec 2) : List Nat :=
  (List.range 64).filterMap fun i =>
    if mask.getLsbD i then some (hartModule h * 1024 + die.toNat * 256 + quad.toNat * 64 + i) else none

/-- BCAST. The TVAL of its WINFLT is not stated: a free value. -/
def execBcast (a b c : Src) (mask : BitVec 64) (quad die : BitVec 2) (s : State) : Result :=
  issue s 16 { srcs := [a, b, c], profile := .engineOnly, place := true } fun h s hs vals =>
    let src := vals.getD 0 0
    let w := vals.getD 1 0
    let len := vals.getD 2 0
    let cores := castCores h mask quad die
    let op := memOp hs (.bcast src len (w.toNat % 2 ^ 18) (w.toNat / 2 ^ 32 % 2 ^ 18) (w.getLsbD 50) cores 0 0) .none ⟨.rlx, .system⟩
      [⟨src, len.toNat, .read, none⟩]
    let bad := decide (0x40000 < w.toNat % 2 ^ 18 + len.toNat) || mask == 0 || (cores.any fun k => !coreUsable s k) ||
      w.extractLsb' 18 14 != 0 || w.extractLsb' 51 13 != 0
    if bad then .done { s with free := s.free + 1 } (addOp hs { op with phase := .found .winflt (Config.freeWord s.free) })
    else .done s (addOp hs (if len = 0 then { op with phase := .done [] } else op))

/-- The order of the engine's own accesses lets a copy go on: a piece of it waits where an earlier one touches it. -/
def mayCopy (s : State) (hs : HartState) (p : Pending) : Bool :=
  let st := invisibleBefore s hs.id.uid p.seq
  !((before hs p.seq).any fun q => orders st hs q p) && (!p.releases || st.isEmpty)

/-- A place of a copy that an earlier access of the engine has yet to reach: a byte of it, or the same core's window (R262). -/
def placeBusy (s : State) (h : Hart) (hs : HartState) (p : Pending) (x : Span) : Bool :=
  let here : Pending := { p with spans := [x], op := .load false }
  ((before hs p.seq).any fun q => !q.op.isFence && shares s h hs q here) ||
    (invisibleBefore s hs.id.uid p.seq).any fun a => sharesByte s h a.p here || sameWindow s h a.p here

/-- A piece of a copy's source: its bytes, a fault, or a wait for the host. -/
inductive Got (α : Type) where
  | ok (s : State) (x : α)
  | wait (s : State)
  | fault (c : Cause) (va : Word)

def Got.bind {α β : Type} (g : Got α) (f : State → α → Got β) : Got β :=
  match g with
  | .ok s x => f s x
  | .wait s => .wait s
  | .fault c v => .fault c v

/-- Translates an address for a copy, with the rights the copy was issued with. -/
def copySeek (s : State) (h : Hart) (hs : HartState) (p : Pending) (va : Word) (r : Right) : Got Placed :=
  match seek s h hs p.by_.ptbr p.by_.priv va r with
  | .place a => .ok s a
  | .fault c => .fault c va
  | .wait s' => .wait s'

/-- Translates a piece of a copy, once the place is free. -/
def copyPlace (s : State) (h : Hart) (hs : HartState) (p : Pending) (va : Word) (len : Nat) (r : Right) : Got Placed :=
  (copySeek s h hs p va r).bind fun s a => if placeBusy s h hs p ⟨va, len, r, some a⟩ then .wait s else .ok s a

/-- The places in memory of the word that a copy reads and writes next: it holds them in the order of arrival until the word is written (R236). -/
def copyPlaces (s : State) (h : Hart) (p : Pending) : List Range :=
  let near (va : Word) (n : Nat) (r : Right) : List Span := rangeSpans s h p.by_ r n va n
  memRanges (match p.op with
    | .bcopy dst src len _ sent _ =>
      let n := min (8 - (dst.toNat + sent) % 8) (len.toNat - sent)
      near (src + BitVec.ofNat 64 sent) n .read ++ near (dst + BitVec.ofNat 64 sent) n .write
    | .bcast src len doff _ _ _ sent _ => near (src + BitVec.ofNat 64 sent) (min (8 - (doff + sent) % 8) (len.toNat - sent)) .read
    | _ => [])

/-- Reads one piece. -/
def copyRead (s : State) (h : Hart) (hs : HartState) (p : Pending) (x : Span) : Got (List Byte) :=
  (copyPlace s h hs p x.va x.len .read).bind fun s a =>
    if isWindow a.pa then
      if takenOn s (coreModule (windowParts a.pa).1) hs.id.gang then .fault .ereply x.va
      else match (windowCheck s (accessorOf h p.by_) false a.pa x.len .load 0).orElse
          fun _ => if poisoned s a.pa x.len then some .memerr else none with
        | some c => .fault c x.va
        | none => if tileQueued s a.pa then .wait s else .ok s (leBytes x.len (windowRead s a.pa x.len))
    else match memError s (hartModule h) true [{ x with at_ := some a }] with
      | some (c, v) => .fault c v
      | none => match cohAsk s (.op h p.seq) (copyPlaces s h p) true .read none [(a.pa, x.len, a.grain)] with
        | .wait s' => .wait s'
        | .ok s' => .ok s' (memBytes s'.mem a.pa x.len)

/-- Reads pieces in order. -/
def copyReads (s : State) (h : Hart) (hs : HartState) (p : Pending) : List Span → Got (List Byte)
  | [] => .ok s []
  | x :: rest => (copyRead s h hs p x).bind fun s1 bs => (copyReads s1 h hs p rest).bind fun s2 bs' => .ok s2 (bs ++ bs')

/-- A store of a copy into a window, at most one word, as an accepted store that has arrived. -/
def engineStore (s : State) (h : Hart) (hs : HartState) (p : Pending) (pa : Nat) (bs : List Byte) : Accepted :=
  storeEntry s h hs { p with
    op := .store [bs], dest := .none, spans := [windowSpan pa bs.length .write], mod := ⟨.rlx, .system⟩, store := true, accepted := true, place := false }

/-- What a window store of kind 0, 1, 2, 5, 6 or 7 does when it is performed. -/
def windowPut (s : State) (uid : Nat) (p : Pending) (pa : Nat) (bs : List Byte) : State :=
  let (c, kind, off) := windowParts pa
  let v := BitVec.ofNat 64 (leNat bs)
  match kind with
  | 0 => writeMem (spoil s pa bs.length) pa bs
  | 2 => joinQueue s c (windowEntry s uid p.seq p.pc (.window off bs))
  | 7 =>
    let h := Hart.strand c (off / 8)
    let s1 := if v.getLsbD 3 then sctlDblClear s h else s
    if v.getLsbD 0 then sctlRun s1 h else s1
  | _ => windowStoreEffect s pa bs

/-- Writes one word or part of one to a window: parked, refused, delayed by a full port, or performed (R230, R331, R218). -/
def copyWindow (s : State) (h : Hart) (hs : HartState) (p : Pending) (va : Word) (pa : Nat) (bs : List Byte) : Got Unit :=
  let (c, kind, off) := windowParts pa
  if placeBusy s h hs p (windowSpan pa bs.length .write) then .wait s
  else if takenOn s (coreModule c) hs.id.gang && decide (kind ≤ 2) then
    .ok (parkPacket s (coreModule c) hs.id.gang (.store (engineStore s h hs p pa bs))) ()
  else match windowCheck s (accessorOf h p.by_) false pa bs.length .store (BitVec.ofNat 64 (leNat bs)) with
    | some k => .fault k va
    | none =>
      if kind = 5 && decide (off % 0x10 < 8) && !qportRoom s c off then .wait s
      else .ok (windowPut s hs.id.uid p pa bs) ()

/-- Writes one piece of a BCOPY's destination. -/
def copyWrite (s : State) (h : Hart) (hs : HartState) (p : Pending) (va : Word) (bs : List Byte) : Got Unit :=
  (copyPlace s h hs p va bs.length .write).bind fun s a =>
    if isWindow a.pa then copyWindow s h hs p va a.pa bs
    else match memError s (hartModule h) false [⟨va, bs.length, .write, some a⟩] with
      | some (c, v) => .fault c v
      | none => match cohAsk s (.op h p.seq) (copyPlaces s h p) true .own none [(a.pa, bs.length, a.grain)] with
        | .wait s' => .wait s'
        | .ok s' => .ok (writeMem (spoil s' a.pa bs.length) a.pa bs) ()

/-- Writes one piece into the scratchpads of a BCAST's receivers. -/
def castWrite (h : Hart) (hs : HartState) (p : Pending) (off : Nat) (bs : List Byte) : List Nat → State → Got Unit
  | [], s => .ok s ()
  | c :: rest, s =>
    let pa := windowPa c 0 off
    (copyWindow s h hs p (BitVec.ofNat 64 pa) pa bs).bind fun s1 _ => castWrite h hs p off bs rest s1

/-- The end of a burst (R209): a 512-byte boundary of the destination, or the end. -/
def burstEnds (dst sent len : Nat) : Bool := decide (sent = len) || (dst + sent) % 512 == 0

/-- The state after one word: a fault, a wait, or the copy's progress. -/
def copyGoes (s0 : State) (h : Hart) (p : Pending) (g : Got Unit) (op : Op) (finished : Bool) : State :=
  match g with
  | .wait s => if s.snoops.length = s0.snoops.length ∧ s.dies = s0.dies ∧ s.arrivals = s0.arrivals then s0 else s
  | .fault c v => failOp s0 h p.seq c v
  | .ok s _ => updateOp (served s (.req (.op h p.seq))) h p.seq fun q => { q with op := op, phase := if finished then .done [] else q.phase }

/-- The next word of a bulk copy (RESULT_RETURN). Each aligned word of the destination is written whole; the bytes of a copy whose
ranges overlap are free. A burst that must arrive waits for BURST_ARRIVAL. -/
def copyStep (s : State) (h : Hart) (hs : HartState) (p : Pending) : State :=
  if !mayCopy s hs p then s
  else match p.op with
    | .bcopy dst src len bar sent done =>
      let n := min (8 - (dst.toNat + sent) % 8) (len.toNat - sent)
      let arriving := bar.isSome && decide (done < sent) && burstEnds dst.toNat sent len.toNat
      if arriving then s
      else
        let overlap := decide (src.toNat < dst.toNat + len.toNat ∧ dst.toNat < src.toNat + len.toNat)
        let got := (copyReads s h hs p (pieces (src + BitVec.ofNat 64 sent) n .read 1)).bind fun s1 bs =>
          let s2 := if overlap then { s1 with free := s1.free + 1 } else s1
          copyWrite s2 h hs p (dst + BitVec.ofNat 64 sent) (if overlap then leBytes n (Config.freeWord s1.free).toNat else bs)
        let ends := burstEnds dst.toNat (sent + n) len.toNat
        copyGoes s h p got (.bcopy dst src len bar (sent + n) (if ends && bar.isNone then sent + n else done))
          (bar.isNone && decide (sent + n = len.toNat))
    | .bcast src len doff boff ben cores sent done =>
      let n := min (8 - (doff + sent) % 8) (len.toNat - sent)
      let arriving := ben && decide (done < sent) && burstEnds doff sent len.toNat
      if arriving then s
      else
        let got := (copyReads s h hs p (pieces (src + BitVec.ofNat 64 sent) n .read 1)).bind fun s1 bs =>
          castWrite h hs p (doff + sent) bs cores s1
        let ends := burstEnds doff (sent + n) len.toNat
        copyGoes s h p got (.bcast src len doff boff ben cores (sent + n) (if ends && !ben then sent + n else done))
          (!ben && decide (sent + n = len.toNat))
    | _ => s

/-! Arrivals (R131). -/

/-- An arrival of an engine's copy with count `c` on the object at a place. -/
def engineArrive (s : State) (req : Req) (m : Nat) (hs : HartState) (va : Word) (p : Placed) (c : Nat) : Got Unit :=
  let taken := isWindow p.pa && takenOn s (coreModule (windowParts p.pa).1) hs.id.gang
  if taken then .fault .ereply va
  else match memError s m true [⟨va, 16, .both, some p⟩] with
    | some (k, _) => .fault k va
    | none => match if isWindow p.pa then CohResult.ok s else cohRequest s req .own none p.pa 16 p.grain with
      | .wait s' => .wait s'
      | .ok s' => match arriveBarrier s' p.pa c with
        | some (s2, _) => .ok s2 ()
        | none => .fault .bovr va

/-- Where a BCOPY's object lies, with its checks (R106, R128). -/
def barPlace (s : State) (h : Hart) (hs : HartState) (p : Pending) (va : Word) : Got Placed :=
  if !aligned va 16 then .fault .malign va
  else (copySeek s h hs p va .both).bind fun s a =>
    if !isWindow a.pa then .ok s a
    else match windowCheck s (accessorOf h p.by_) false a.pa 16 .wide 0 with
      | some c => .fault c va
      | none => .ok s a

/-- One arrival at each receiver of a BCAST, with the checks of a barrier operation there (R106, R128, R230). -/
def castArrive (h : Hart) (hs : HartState) (p : Pending) (boff c : Nat) : List Nat → State → Got Unit
  | [], s => .ok s ()
  | k :: rest, s =>
    let pa := windowPa k 0 boff
    let va := BitVec.ofNat 64 pa
    if boff % 16 ≠ 0 then .fault .malign va
    else match windowCheck s (accessorOf h p.by_) false pa 16 .wide 0 with
      | some x => .fault x va
      | none => (engineArrive s (.op h p.seq) (coreModule k) hs va (windowPlaced pa) c).bind fun s1 _ => castArrive h hs p boff c rest s1

/-- An operation of an engine whose delivered burst is due to arrive. -/
def arrivalDue (p : Pending) : Bool :=
  p.phase == .request && match p.op with
    | .bcopy dst _ len bar sent done => bar.isSome && decide (done < sent) && burstEnds dst.toNat sent len.toNat
    | .bcast _ len doff _ ben _ sent done => ben && decide (done < sent) && burstEnds doff sent len.toNat
    | _ => false

/-- Everything the release of an arrival covers is performed. -/
def arrivalReleased (s : State) (hs : HartState) (p : Pending) : Bool :=
  relDone (invisibleBefore s hs.id.uid p.seq) hs p.seq

/-- BURST_ARRIVAL: a delivered burst, once visible, arrives on its object (R131). -/
def execBurstArrival (e : Nat) (s : State) : Result :=
  let h := Hart.engine e
  match hartOf s h with
  | none => .next s
  | some hs => match hs.run.ops.find? arrivalDue with
    | none => .next s
    | some p =>
      if !arrivalReleased s hs p then .next s
      else match p.op with
        | .bcopy dst src len (some bar) sent done =>
          let got := (barPlace s h hs p bar).bind fun s1 q => engineArrive s1 (.arrival e p.seq) (hartModule h) hs bar q (sent - done)
          .next (copyGoes s h p got (.bcopy dst src len (some bar) sent sent) (decide (sent = len.toNat)))
        | .bcast src len doff boff ben cores sent done =>
          .next (copyGoes s h p (castArrive h hs p boff (sent - done) cores s) (.bcast src len doff boff ben cores sent sent)
            (decide (sent = len.toNat)))
        | _ => .next s

end Sys2Proof.Machine
end

