-- ==== Sys2Proof/Machine/Results.lean ====
section
/-!
DEFINITION. RESULT_RETURN: how each outstanding operation comes to its result, (R25, R142, R147, R160).
-/

namespace Sys2Proof.Machine

/-! Results of the units. -/

/-- No earlier result of the long-vector unit is still due: it serves a strand in its order (R147). -/
def unitOrder (hs : HartState) (p : Pending) : Bool :=
  (before hs p.seq).all fun q => match q.op with
    | .vector _ _ _ | .scalarF _ _ | .subnormal _ => q.settled
    | _ => true

/-- A special-function request is at the head of its core's queue: no strand of the core has one that came before it, but for those that are
cancelled (R160). -/
def specialTurn (s : State) (h : Hart) (hs : HartState) (p : Pending) (ticket : Nat) : Bool :=
  !((asideOps hs).any fun x => x.seq == p.seq) && s.harts.all fun (k, ks) => hartCore k != hartCore h || ks.run.ops.all fun q => match q.op with
    | .vector _ _ (some t) => decide (ticket ≤ t) || outOfWay ks q
    | _ => true

/-- LDL's word comes from the instruction cache (R87). -/
def literalResult (s : State) (h : Hart) (hs : HartState) (p : Pending) : State :=
  if !p.placed then s
  else match codeAt s h (.op h p.seq) (p.pa / 32 * 32) with
    | .fault c => failOp s h p.seq c p.va
    | .wait s' => s'
    | .block b s' => giveResult s' h hs p [b.extractLsb' (8 * (p.va.toNat % 32)) 64] {}

/-- An operation that is not yet performed takes its next step. -/
def openResult (s : State) (h : Hart) (hs : HartState) (p : Pending) : State :=
  match p.op with
  | .value v => giveResult s h hs p [v] {}
  | .vector v f (some t) => if specialTurn s h hs p t then giveResult s h hs p (wordsOf v.toNat 32) f else s
  | .vector v f none => if unitOrder hs p then giveResult s h hs p (wordsOf v.toNat 32) f else s
  | .scalarF v f => if unitOrder hs p then giveResult s h hs p [v] f else s
  | .subnormal mask => if unitOrder hs p then failOp s h p.seq .subn mask else s
  | .literal => literalResult s h hs p
  | .load _ | .loadBits _ _ _ | .vload | .vgather | .vbdec _ _ _ =>
    if goesWindow p || goesHome h p then s else cachedLoad s h hs p
  | .redRead m => redRead s h hs p m
  | .nbArrive c n ph => if p.phase = .request && mayPerform s h hs p true then namedArrive s h p c n ph else s
  | .nbWait c n w => if p.phase = .request && mayPerform s h hs p true then namedWait s h p c n w else s
  | .kick e d => kickResult s h hs p e d
  | .tpost => tpostResult s h hs p
  | .spawn e a t => spawnSend s h hs p e a t
  | .glaunch _ => glaunchResult s h hs p
  | .mig k => giveResult s h hs p [BitVec.ofNat 64 k] {}
  | .bcopy .. | .bcast .. => copyStep s h hs p
  | _ => s

/-- A result due to its destination; free words for a strand whose barrier object an ordinary store has reached (R128). -/
def giveDone (s : State) (h : Hart) (hs : HartState) (p : Pending) (r : List Word) : State :=
  if p.spoiled then drew s (giveResult s h hs p (freeWords s.free r.length) {}) r.length else giveResult s h hs p r {}

/-- The fault that translation has found is reported; of a gather or a scatter, what a lower lane meets (R158); of a GLAUNCH, what its completion word
meets, once that has its place (R213). -/
def foundCause (s : State) (h : Hart) (p : Pending) (c : Cause) (v : Word) : Cause × Word :=
  let lower := { p with spans := p.spans.takeWhile fun x => x.at_.isSome }
  (match p.op with
    | .vgather => loadCause s h lower
    | .glaunch _ => glaunchWordCause s h p
    | _ => if p.scatters then lower.spans.findSome? fun x => storeAccessCause s h { p with spans := [x] } else none).getD (c, v)

/-- RESULT_RETURN: a result reaches its register, or the operation takes its next step (R24, R25, R28). -/
def execResultReturn (h : Hart) (n : Nat) (s : State) : Result :=
  match hartOf s h with
  | none => .next s
  | some hs => match findOp hs n with
    | none => .next s
    | some p => match p.phase with
      | .found c v => let (c, v) := foundCause s h p c v; .next (failOp s h n c v)
      | .faulted _ _ => .next s
      | .done r => .next (tidyJoin (giveDone s h hs p r) h)
      | _ => .next (openResult s h hs p)

end Sys2Proof.Machine
end

