-- ==== Sys2Proof/Machine/Image.lean ====
section
/-!
DEFINITION. Strand records and grid save areas as memory images (R276, R284, R285, R286, R319).
-/

namespace Sys2Proof.Machine

/-! Writing. -/

/-- A field: byte offset, value; it must fit where it stands. -/
def placeFields (fs : List (Nat × Nat)) : Nat := fs.foldl (fun n (off, v) => n + v * 2 ^ (8 * off)) 0

/-- Words from an offset upward. -/
def wordFields (off : Nat) (ws : List Word) : List (Nat × Nat) := ws.zipIdx.map fun (w, i) => (off + 8 * i, w.toNat)

/-- Full bits of a register bank. -/
def fullBits {α : Type} (rs : List (Reg α)) : Nat := rs.zipIdx.foldl (fun n (r, i) => n + (if r.full then 2 ^ i else 0)) 0

/-- The buffered entries of the input ports, port 0 first (R276). -/
def portEntries (hs : HartState) : List Word := hs.ports.toList.flatMap fun p => p.buf

/-- The word of counts at 0x198. -/
def portCounts (hs : HartState) : Nat := hs.ports.toList.zipIdx.foldl (fun n (p, i) => n + p.buf.length * 2 ^ (8 * i)) 0

/-- The entries that the input ports of a strand have accepted and that it cannot pop yet (R217). -/
def comingOf (s : State) (uid : Nat) : List QueueMsg := s.pushes.filter fun m => m.target == uid

/-- The values of such entries for one port. -/
def comingAt (ms : List QueueMsg) (p : Fin 4) : List Word := (ms.filter fun m => m.port == p).map (·.val)

/-- The strand with these entries in its buffers, as a message or a record carries it (R273, R276). -/
def withComing (ms : List QueueMsg) (hs : HartState) : HartState :=
  { hs with ports := Vector.ofFn fun p => { portOf hs p with buf := (portOf hs p).buf ++ comingAt ms p } }

/-- Where a message or a record is installed: the entries that cannot be popped yet, of the ports whose buffers still end with them, and the strand
without these. -/
def splitComing (ms : List QueueMsg) (hs : HartState) : List QueueMsg × HartState :=
  let ends (p : Fin 4) : Bool := (comingAt ms p).isSuffixOf (portOf hs p).buf
  let rest (p : Fin 4) : List Word :=
    if ends p then (portOf hs p).buf.take ((portOf hs p).buf.length - (comingAt ms p).length) else (portOf hs p).buf
  (ms.filter fun m => ends m.port, { hs with ports := Vector.ofFn fun p => { portOf hs p with buf := rest p } })

def roleCode : Role → Nat
  | .gridStrand => 0
  | .taskStrand => 1
  | .child => 2

/-- What a record says of a strand beside its own state. -/
structure RecordInfo where
  core : Nat
  slot : Nat
  gseq : Nat
  held : Nat
  dirty : Nat
  frozen : Bool
  cbsel : BitVec 2
  books : List (BitVec 256)
  plink : Nat

/-- JREC, JDIE and JMOD of a header word 1 (R276). -/
def joinField (hs : HartState) : Nat := match hs.joinOwn with
  | some r => if hs.st.jcnt = 0 then 0 else r.index * 2 ^ 28 + r.die % 4 * 2 ^ 40 + r.die / 4 * 2 ^ 42
  | none => 0

/-- Offsets 0x010 to 0x1BF and the buffered entries, as a migration message and a record have them (R276, R285). -/
def contextFields (h : Hart) (hs : HartState) : List (Nat × Nat) :=
  let t := hs.trap
  wordFields 0x10 [hs.id.k1, hs.id.k2, hs.id.k4, hs.id.k5, hs.id.k6, hs.id.k7] ++
  wordFields 0x40 (hs.regs.g.toList.map (·.val)) ++
  wordFields 0xC0 [hs.pc, sstatWord hs.st] ++ [(0xD0, fullBits hs.regs.g.toList)] ++
  wordFields 0xD8 [smodeWord h hs, fpctlWord hs.fp, hs.timecmp, ptbrWord hs.ptbr, t.tvec] ++
  wordFields 0x100 [tcauseWord t, t.tpc, t.tval, t.rply, t.tres, t.tscr] ++
  wordFields 0x130 (hs.mx.scale.toList.map (·.zeroExtend 64)) ++ wordFields 0x150 hs.mx.unf.toList ++
  wordFields 0x170 (hs.ports.toList.map fun p => p.cfg.zeroExtend 64) ++
  [(0x190, hs.mx.ucode.toNat), (0x198, portCounts hs), (0x1A0, hs.take.tkpc.toNat), (0x1A8, hs.take.tkmask.toNat),
    (0x1B0, hs.take.tknb.toNat), (0x1B8, t.nbpend.toNat)] ++
  wordFields 0x1C0 (portEntries hs)

/-- A strand record (R285). -/
def recordBytes (hs : HartState) (x : RecordInfo) : List Byte :=
  let h := Hart.strand x.core x.slot
  let w0 : Nat := 4 + (portEntries hs).length * 2 ^ 8 + coreLinear x.core * 2 ^ 16 + x.slot * 2 ^ 26
  let w1 : Nat := coreModule x.core + joinField hs
  let save : Nat := x.held + x.dirty * 2 ^ 8 + (if x.frozen then 2 ^ 16 else 0) + (if hs.st.vl then 2 ^ 17 else 0) +
    (if hs.run.halted then 2 ^ 18 else 0) + roleCode hs.id.role * 2 ^ 24 + x.gseq * 2 ^ 32
  let vfull : Nat := fullBits hs.regs.v.toList + (if hs.st.vl then fullBits hs.regs.w.toList * 2 ^ 16 else 0)
  leBytes 0x1800 (placeFields (
    [(0, w0), (8, w1)] ++ contextFields h hs ++
    [(0x3C0, save), (0x3C8, vfull), (0x3D0, x.cbsel.toNat), (0x3D8, x.plink)] ++
    (x.books.zipIdx.map fun (b, i) => (0x400 + 32 * i, b.toNat)) ++
    (hs.regs.v.toList.zipIdx.map fun (r, i) => (0x500 + 32 * i, r.val.toNat)) ++
    (if hs.st.vl then hs.regs.w.toList.zipIdx.map fun (r, i) => (0x700 + 256 * i, r.val.toNat) else [])))

/-- Scoreboard bytes of a grid (R319). -/
def boardBytes (g : Grid) : Nat := if g.boarded then (g.size + 511) / 512 * 64 else 0

/-- A grid record and its scoreboard (R319): of a gang grid, the retired groups of its own share (R329), and those of other shares that retired
here, where their records had been moved (R338). -/
def gridBytes (g : Grid) : List Byte :=
  let n := boardBytes g
  leBytes 64 (placeFields (wordFields 0 g.desc ++
    [(32, g.id + (if g.boarded then 0 else g.next) * 2 ^ 16), (40, g.nret), (48, g.caddr), (56, n)])) ++
  leBytes n (((g.retired ++ g.others.filter g.mine).eraseDups.filter (· < g.size)).foldl (fun x i => x + 2 ^ i) 0)

/-- The grid save area (R319). -/
def areaBytes (gs : List Grid) (tasks : List Word) : List Byte :=
  leBytes 64 (gs.length + tasks.length * 2 ^ 16) ++ gs.flatMap gridBytes ++ tasks.flatMap fun t => leBytes 8 t.toNat

/-! Reading. -/

/-- A strand record as read. -/
structure Record where
  index : Nat
  hs : HartState
  gseq : Nat
  pa : Nat
  role : Nat
  held : Nat
  frozen : Bool
  reslot : Bool
  core : Nat
  slot : Nat
  prec : Nat
  pmod : Nat
  save : Nat
  w0 : Nat
  w1 : Nat

/-- A bank of registers from values and full bits. -/
def regsOf {α : Type} (n : Nat) (val : Nat → α) (full : Nat) : Vector (Reg α) n :=
  Vector.ofFn fun i => ⟨val i.val, full.testBit i.val⟩

/-- The buffered entries of port `p` from the counts and the run of entries. -/
def entriesOf (w : Nat → Word) (counts p : Nat) : List Word :=
  let cnt (k : Nat) : Nat := counts / 2 ^ (8 * k) % 32
  let start := ((List.range p).map cnt).sum
  (List.range (cnt p)).map fun i => w (0x1C0 + 8 * (start + i))

/-- The role of a record's code. -/
def roleOf (n : Nat) : Role := match n with
  | 0 => .gridStrand
  | 1 => .taskStrand
  | _ => .child

/-- The strand that the words of a migration message or a record describe, with its v registers zero and full; `w` reads a word at an
offset (R276, R285, R366). -/
def contextOf (w : Nat → Word) : HartState :=
  let counts := (w 0x198).toNat
  let mask := w 0x1A8
  { HartState.reset with
    id := { Ident.reset with k1 := w 0x10, k2 := w 0x18, k4 := w 0x20, k5 := w 0x28, k6 := w 0x30, k7 := w 0x38 }
    regs := { RegFile.reset with g := regsOf 16 (fun i => w (0x40 + 8 * i)) (w 0xD0).toNat }
    pc := w 0xC0
    st := sstatOfWord (w 0xC8)
    migr := (w 0xD8).getLsbD 0
    fp := fpctlOfWord (w 0xE0)
    mx := ⟨Vector.ofFn fun i => (w (0x130 + 8 * i.val)).truncate 32, Vector.ofFn fun i => unfMask i (w (0x150 + 8 * i.val)), w 0x190⟩
    ports := Vector.ofFn fun i => ⟨(w (0x170 + 8 * i.val)).truncate 40, entriesOf w counts i.val, false⟩
    timecmp := w 0xE8
    trap := ⟨wordAligned (w 0xF8), (w 0x100).truncate 7, w 0x108, w 0x110, w 0x118, wordAligned (w 0x120), w 0x128, (w 0x1B8).truncate 40⟩
    ptbr := ptbrOfWord (w 0xF0)
    run := { RunState.reset with replay := if mask = 0 then ⟨[], []⟩ else ⟨maskAddrs (w 0x1A0) mask, nbEntries ((w 0x1B0).truncate 40)⟩ } }

/-- Reads a strand record (R285). The strand gets the gang it will have. -/
def readRecord (m : List Host.Cell) (pa index gang module_ : Nat) : Record :=
  let w (off : Nat) : Word := memWord m (pa + off)
  let save := (w 0x3C0).toNat
  let vf := (w 0x3C8).toNat
  let role := save / 2 ^ 24 % 4
  let x := contextOf w
  let hs : HartState := { x with
    id := { x.id with role := roleOf role, gang := gang }
    regs := { x.regs with
      v := regsOf 16 (fun i => BitVec.ofNat 256 (memNat m (pa + 0x500 + 32 * i) 32)) vf
      w := if x.st.vl then regsOf 16 (fun i => BitVec.ofNat 2048 (memNat m (pa + 0x700 + 256 * i) 256)) (vf / 2 ^ 16) else x.regs.w }
    run := { x.run with halted := decide (save / 2 ^ 18 % 4 ≠ 0) } }
  ⟨index, hs, save / 2 ^ 32 % 2 ^ 16, pa, role, save % 256, decide (save / 2 ^ 16 % 2 = 1), decide (save / 2 ^ 20 % 2 = 1),
    module_ * 1024 + (w 0).toNat / 2 ^ 16 % 1024, (w 0).toNat / 2 ^ 26 % 8, (w 0x3D8).toNat % 2 ^ 32, (w 0x3D8).toNat / 2 ^ 32 % 2 ^ 14,
    save, (w 0).toNat, (w 8).toNat⟩

/-- The core and slot of the take, by which a record is known wherever it lies: SMOD, SCORE and SSLOT (R276, R285). -/
def Record.source (r : Record) : Nat × Nat := (r.w1 % 2 ^ 14 * 1024 + r.w0 / 2 ^ 16 % 1024, r.w0 / 2 ^ 26 % 8)

/-- The words of a strand that stay as they are in its record until it is installed: k1, k2, k4, k5, k7, PC and g0 to g15 (R320). -/
def keptWords (hs : HartState) : List Word :=
  [hs.id.k1, hs.id.k2, hs.id.k4, hs.id.k5, hs.id.k7, hs.pc] ++ hs.regs.g.toList.map (·.val)

/-- SCOPE and SBLEN of a grid record (R213, R319). -/
def recordScope (m : List Host.Cell) (pa : Nat) : Nat := (memWord m (pa + 8)).toNat / 2 ^ 56 % 8
def recordSblen (m : List Host.Cell) (pa : Nat) : Nat := (memWord m (pa + 56)).toNat % 2 ^ 32

/-- The addresses of the grid records of a save area (R319). -/
def gridRecords (m : List Host.Cell) : (n : Nat) → (pa : Nat) → List Nat
  | 0, _ => []
  | n + 1, pa => pa :: gridRecords m n (pa + 64 + recordSblen m pa)

/-- ID of a grid record (R319). -/
def recordId (m : List Host.Cell) (pa : Nat) : Nat := memNat m (pa + 32) 1 % 64

/-- DESC and CADDR of a grid record, by which the modules' records of a gang grid agree (R329). -/
def recordKey (m : List Host.Cell) (pa : Nat) : List Word := ((List.range 4).map fun i => memWord m (pa + 8 * i)) ++ [memWord m (pa + 48)]

/-- A grid record as read: its grid under a new id, as a share of a gang grid or not (R319, R321, R329). -/
def readGrid (m : List Host.Cell) (pa id : Nat) (by_ : Poster) (share : Option Share) (act order : Nat) : Grid :=
  let w (off : Nat) : Word := memWord m (pa + off)
  let g : Grid := ⟨id, [w 0, w 8, w 16, w 24], by_, (w 48).toNat, [], [], [], [], [], (w 32).toNat / 2 ^ 16, (w 40).toNat,
    share, some act, order⟩
  let board := memNat m (pa + 64) (recordSblen m pa)
  if g.boarded then { g with retired := (List.range g.size).filter (board.testBit ·), next := 0 } else g

end Sys2Proof.Machine
end

