-- ==== Sys2Proof/Machine/Gang.lean ====
section
/-!
DEFINITION. Timed actions of a gang (R325 to R334): their start, reports and gates; the take (R283 to R288, R318, R319), the launch
and the resume (R289, R321, R326, R333), and gang grids (R329, R330).
-/

namespace Sys2Proof.Machine

/-! Records of a module. -/

/-- The position of a module in a set. -/
def posIn (mset : List Nat) (m : Nat) : Nat := mset.idxOf m

/-- The header of a position in the context area (R284). -/
def headerPa (t : Timed) (pos : Nat) : Nat := t.ctx + 64 * pos
def headerRecBase (s : State) (t : Timed) (pos : Nat) : Nat := (memWord s.mem (headerPa t pos + 8)).toNat
def headerNmax (s : State) (t : Timed) (pos : Nat) : Nat := memNat s.mem (headerPa t pos + 16) 4
def headerNrec (s : State) (t : Timed) (pos : Nat) : Nat := memNat s.mem (headerPa t pos) 4
def headerGrids (s : State) (t : Timed) (pos : Nat) : Nat := (memWord s.mem (headerPa t pos + 24)).toNat

def actionOf (s : State) (m n : Nat) : Option Action := (moduleOf s m).actions.find? fun a => a.order.n == n
def setAction (s : State) (m : Nat) (a : Action) : State :=
  let ms := moduleOf s m
  setModule s m { ms with actions := ms.actions.map fun x => if x.order.n = a.order.n then a else x }

/-- Changes a gang's record on a module, pending or begun. -/
def mapTimed (s : State) (m : Nat) (f : Timed → Timed) : State :=
  let ms := moduleOf s m
  setModule s m { ms with
    timed := ms.timed.map f
    actions := ms.actions.map fun a => { a with order := f a.order } }

/-- Every record of a module, pending or begun. -/
def allTimed (s : State) (m : Nat) : List Timed := (moduleOf s m).timed ++ (moduleOf s m).actions.map (·.order)

/-! STRAGGLE and gates (R327, R328). -/

/-- Marks the strands that an action's gate holds halted. -/
def haltHeld (s : State) (m n : Nat) : State :=
  { s with harts := s.harts.map fun (h, hs) =>
      if hartModule h = m && hs.run.gate == some n then (h, { hs with run := { hs.run with halted := true } }) else (h, hs) }

/-- STRAGGLE, once per action. -/
def straggle (s : State) (m : Nat) (t : Timed) : State :=
  if t.straggled then s
  else
    let s1 := mapTimed s m fun x => if x.n = t.n then { x with straggled := true } else x
    raiseModule (haltHeld s1 m t.n) m .straggle (BitVec.ofNat 64 t.gang)

/-- A report comes to a module: of its own, or in a message. -/
def takeReport (s : State) (m : Nat) (t : Timed) (r : Report) : State :=
  let s1 := mapTimed s m fun x => if x.n = t.n then { x with reports := x.reports ++ [r] } else x
  openGates (if r.late then straggle s1 m t else s1) m

/-! Starting (R326, R327, R334). -/

/-- A module acts on the switch token: free-running, and not at position 0. -/
def onToken (s : State) (m : Nat) (t : Timed) : Bool := (moduleOf s m).unit.clock == .free && posIn t.mset m != 0

/-- A resume that waits for a report after its STRAGGLE makes room for the pre-empt that takes its strands (R328, R330). -/
def givesWay (a : Action) (t : Timed) : Bool := t.act == 1 && a.order.straggled && a.stage == .release

/-- A pending record may be performed: first of its gang in START order, no other action of it under way, and its time has come. -/
def mayBegin (s : State) (m : Nat) (t : Timed) : Bool :=
  let ms := moduleOf s m
  let first := ms.timed.all fun u => u.gang != t.gang || u.n == t.n || decide (t.start < u.start) || (u.start == t.start && decide (t.n < u.n))
  first && (ms.actions.all fun a => a.order.gang != t.gang || a.stage == .done || givesWay a t) && !ms.stopped &&
    (if onToken s m t then t.token else decide (t.start ≤ timeOf s m))

/-- The grid records of a position's save area. -/
def areaRecords (s : State) (t : Timed) (pos : Nat) : List Nat :=
  gridRecords s.mem (memNat s.mem (headerGrids s t pos) 1) (headerGrids s t pos + 64)

/-- A record is that of a gang grid (R329). In a launch it has SCOPE = 5, and NMOD ≥ 2. Other grids with SCOPE = 5 are taken too, and GLAUNCH
never creates a gang grid: in a resume a gang grid is one that has a scoreboard, that every module's area records, and that no take of this machine
recorded as another grid under its id (DEDUCED, log 65). -/
def gangRecord (s : State) (t : Timed) (pa : Nat) : Bool :=
  recordScope s.mem pa == 5 &&
    if t.act = 0 then decide (2 ≤ t.mset.length)
    else recordSblen s.mem pa != 0 && !s.solo.contains (t.gang, recordKey s.mem pa, recordId s.mem pa) && (List.range t.mset.length).all fun pos =>
      (areaRecords s t pos).any fun q => recordKey s.mem q == recordKey s.mem pa

/-- Inserts by ascending key. -/
def insertKey {α : Type} (key : α → Nat) (x : α) : List α → List α
  | [] => [x]
  | y :: rest => if key x ≤ key y then x :: y :: rest else y :: insertKey key x rest
def sortKey {α : Type} (key : α → Nat) (l : List α) : List α := l.foldr (insertKey key) []

/-- The records of the gang grids of a position, in an order that every module finds alike: by DESC and CADDR. The areas themselves are in the order
of each module's own ids (R319). -/
def gangRecords (s : State) (t : Timed) (pos : Nat) : List Nat :=
  sortKey (fun pa => (recordKey s.mem pa).foldl (fun n w => n * 2 ^ 64 + w.toNat) 0) ((areaRecords s t pos).filter (gangRecord s t))

/-- The gang grids of a position, as read under no id. -/
def gangGrids (s : State) (t : Timed) (pos : Nat) : List Grid :=
  (gangRecords s t pos).map fun pa => readGrid s.mem pa 0 t.by_ (some ⟨[0, 1], 0, []⟩) 0 0

/-- The groups of each gang grid of a position that its strand records hold in flight: of ROLE 0, with k5 the grid's id (R320). -/
def gangFlying (s : State) (t : Timed) (pos : Nat) : List (List Nat) :=
  let rs := (List.range (headerNrec s t pos)).map fun i => readRecord s.mem (headerRecBase s t pos + i * 0x1800) i t.gang 0
  (gangRecords s t pos).map fun pa =>
    ((rs.filter fun r => r.role = 0 && r.hs.id.k5.toNat == recordId s.mem pa).map (·.hs.id.k2.toNat)).eraseDups

/-- Every module's area holds the same gang grids in the same order, none too large (R326, R329). R313 refuses every grid with a dependence vector
and more than 2^24 groups, and gives the way for GLAUNCH and for gang grids alone: any other grid record of a launch is accepted (DESIGN CHOICE,
log 124). -/
def launchAgrees (s : State) (t : Timed) : Bool :=
  let key (pos : Nat) : List (List Word) := ((areaRecords s t pos).filter (gangRecord s t)).map (recordKey s.mem)
  (List.range t.mset.length).all (fun pos => key pos == key 0) && (gangGrids s t 0).all fun g => decide (g.size ≤ 2 ^ 24)

/-- The host's own lines in a range of memory, which the dispatchers read coherently (R243). -/
def ownedUnits (s : State) (pa len : Nat) : List CohUnit :=
  hostUnits s .read ((s.grains.filterMap fun (b, g) => if b < pa + len && pa < b + g.size then some (.line b g.size) else none) ++
    s.tiles.filterMap fun t => if t.sectors.any fun a => decide (a < pa + len ∧ pa < a + 32) then some (.tile t.base) else none)

/-- The host's lines in what an action reads of its context area: the headers, then the records and the grid save areas (R284). -/
def contextUnits (s : State) (t : Timed) : List CohUnit :=
  let ps := List.range t.mset.length
  match ownedUnits s t.ctx (64 * t.mset.length) with
  | l :: ls => l :: ls
  | [] => if t.act = 1 then [] else ps.flatMap fun pos =>
      (if t.act = 2 then ownedUnits s (headerRecBase s t pos) (headerNrec s t pos * 0x1800) else []) ++
      let pa := headerGrids s t pos
      let rs := areaRecords s t pos
      ownedUnits s pa (64 + (rs.map fun q => 64 + recordSblen s.mem q).sum + 8 * (memNat s.mem (pa + 2) 2 % 2 ^ 13))

/-- DONE with its fields (R283, R284). -/
def storeDone (s : State) (m : Nat) (a : Action) (nrec : Nat) (fail : Bool) : State :=
  let w := nrec + a.order.act * 2 ^ 56 + (if fail then 2 ^ 62 else 0) + 2 ^ 63
  hwStore s m a.order.gang a.uid ⟨.rel, .system⟩ (headerPa a.order (posIn a.order.mset m)) (leBytes 8 w)

/-- Ends an action with its DONE. -/
def finish (s : State) (m : Nat) (a : Action) (nrec : Nat) (fail : Bool) : State :=
  openGates (setAction (storeDone s m a nrec fail) m { a with stage := .done, open_ := a.open_ || a.order.act == 1 || fail }) m

/-! The take (R283, R318). -/

/-- The strands of a gang on a module, by core and slot. -/
def members (s : State) (m gang : Nat) : List (Nat × Nat × HartState) :=
  sortKey (fun x => x.1 * 8 + x.2.1) (s.harts.filterMap fun (h, hs) => match h with
    | .strand c n => if coreModule c = m && hs.id.gang == gang then some (c, n, hs) else none
    | .engine _ => none)

/-- A strand that will end by its RETIRE, and is not taken, unless it comes to wait for its children (R318). -/
def ending (hs : HartState) : Bool := hs.run.retiring && hs.run.park == .blocked .finished

/-- Ships that carry a strand of a gang to or from a module. -/
def gangShips (s : State) (m gang : Nat) : List Ship :=
  s.ships.filter fun x => (coreModule x.core == m || coreModule x.dest == m) && match x.hs with
    | some hs => hs.id.gang == gang
    | none => match hartByUid s x.uid with
      | some (_, hs) => hs.id.gang == gang
      | none => false

/-- Records a take would need now: of the strands that will end by their RETIRE, those that have children are counted (R318). -/
def recordsNeeded (s : State) (m gang : Nat) : Nat :=
  ((members s m gang).filter fun x => !ending x.2.2 || x.2.2.st.jcnt != 0).length + ((gangShips s m gang).filter fun x => x.hs.isSome).length

/-- Holds the strands of a gang, and withdraws a GLAUNCH that waits for an id (R318). -/
def holdMembers (s : State) (m gang : Nat) : State :=
  { s with harts := s.harts.map fun (h, hs) =>
      if hartModule h = m && hs.id.gang == gang && !isEngine h then
        let waits (p : Pending) : Bool := (match p.op with
          | .glaunch _ => true
          | _ => false) && p.phase == .waiting
        (h, { hs with run := { hs.run with
          held := true
          ops := hs.run.ops.filter fun p => !waits p
          cancelled := hs.run.cancelled ++ (hs.run.ops.filter waits).map (·.pc) } })
      else (h, hs) }

/-- The task addresses that the unfinished actions of a gang have yet to enter. -/
def tasksLeft (s : State) (m gang : Nat) : List Word :=
  ((moduleOf s m).actions.filter fun a => a.order.gang == gang && a.stage != .take && a.stage != .done).flatMap fun a =>
    (List.range a.ntask).map fun i => memWord s.mem (a.cursor + 8 * i)

/-- The first cycle of a take: NMAX, the parking area, the pool, the strands (R283, R318, R332). A gang that is still taken keeps its parked packets
and its area, or gets one that is free. -/
def takeBegin (s : State) (m : Nat) (a : Action) : State :=
  let t := a.order
  let need := recordsNeeded s m t.gang
  if headerNmax s t (posIn t.mset m) < need then finish s m a need true
  else
    let ms := moduleOf s m
    let areas := (ms.taken.filter (·.area)).length
    let old := (ms.taken.find? fun x => x.gang == t.gang).getD ⟨t.gang, false, [], false⟩
    let taken := (ms.taken.filter fun x => x.gang != t.gang) ++ [{ old with area := old.area || decide (areas < 16), full := false }]
    let own (e : PoolEntry) : Bool := e.item.gang s m == t.gang
    let tasks := (scanOrder (ms.pool.filter own)).filterMap fun e => match e.item with
      | .task x => some x.va
      | .grid _ => none
    let s1 := setModule s m { ms with taken := taken, pool := ms.pool.filter fun e => !own e }
    holdMembers (setAction s1 m { a with stage := .take, tasks := tasks ++ tasksLeft s m t.gang }) m t.gang

/-- A store that may stay behind: it waits for a full port, or for the strand's own frozen MMAU, or behind such a store. -/
def mayStay (s : State) (uid : Nat) (a : Accepted) : Bool :=
  let toPort (x : Span) : Bool := x.at_.any fun q => isWindow q.pa && (windowParts q.pa).2.1 == 5
  (ownStores s uid).any fun b => decide (b.n ≤ a.n) && !b.performed && (b.p.spans.any toPort || unfoldHolds s b.core uid b.p)

/-- A strand is at a clean point with no trap due, and what it has accepted is visible or may stay behind (R35, R298). One that waits in RETIRE may
ship: it executes its RETIRE again where it is installed (R270, R281). -/
def movable (s : State) (hs : HartState) : Bool :=
  !trapDue hs && clean hs && (ownStores s hs.id.uid).all (mayStay s hs.id.uid)

/-- A strand at a clean point for a take: it does not end by its RETIRE, and an asynchronous cause that it can take comes first. -/
def takable (s : State) (hs : HartState) : Bool := !ending hs && movable s hs && !asyncReady hs && hs.run.ship.isNone

/-- A decrement still travels to a strand of a set (R287), or a SPAWN of it has yet to reach its target. -/
def awaited (s : State) (uids : List Nat) : Bool :=
  s.msgs.any fun x => match x.2 with
    | .launch _ p _ _ _ _ => uids.contains p
    | .join r => match joinOf s r with
      | some j => uids.contains j.parent
      | none => false
    | .joinLink m gang k => match restoredUid s m gang k with
      | some u => uids.contains u
      | none => false
    | _ => false

/-- Freezes every strand of a list (R191), or none. -/
def freezeAll (s : State) : List (Nat × Nat × HartState) → Option State
  | [] => some s
  | (c, n, hs) :: rest => (freeze s c n hs.id.uid).bind fun s' => freezeAll s' rest

/-- The parent of a child, by uid (R279, R287). -/
def parentUid (s : State) (gang : Nat) (hs : HartState) : Option Nat :=
  match hs.joinParent, hs.plink with
  | some r, _ => (joinOf s r).map (·.parent)
  | none, some (m, k) => restoredUid s m gang k
  | none, none => none

/-- PLINK of a child (R285, R287): the record of its parent, in this take or in an earlier one that no resume has followed; or its parent's uid,
while that is still to be taken on another module, whose take then writes PLINK. -/
def plinkOf (s : State) (m : Nat) (mset : List Nat) (gang : Nat) (us : List Nat) (hs : HartState) : Nat × Option Nat :=
  if hs.id.role ≠ .child then (0, none)
  else match parentUid s gang hs, hs.joinParent, hs.plink with
    | some u, _, _ => if us.contains u then (us.idxOf u + posIn mset m * 2 ^ 32, none) else (0, some u)
    | none, none, some (k, i) => (i + posIn mset k * 2 ^ 32, none)
    | none, _, _ => (0, none)

/-- What the record of a strand says of its place. `cs` is its core after the freeze. -/
def infoOf (cs : CoreState) (c n gseq plink : Nat) : RecordInfo where
  core := c
  slot := n
  gseq := gseq
  held := (heldTiles cs n).foldl (fun x t => x + 2 ^ t.val) 0
  dirty := ((heldTiles cs n).filter fun t => (tileOf cs t).dirty).foldl (fun x t => x + 2 ^ t.val) 0
  frozen := frozenFor cs n
  cbsel := cs.cbsel
  books := cs.books
  plink := plink

/-- The strand as its record or message keeps it: at the first instruction not issued (R35), its requests in the take replay state (R366). -/
def taken (s : State) (h : Hart) (hs : HartState) : HartState :=
  let (base, mask, nb) := replayRecord hs
  { hs with
    pc := nextPc s h hs
    take := if mask = 0 then ⟨0, 0, 0⟩ else ⟨base, mask, nb⟩ }

/-- The matrix values of a strand that is taken off its slot stay with the slot (R305). -/
def keepResidue (s : State) (c n : Nat) (hs : HartState) : State :=
  setCore s c { coreOf s c with residue := assocSet (coreOf s c).residue n ⟨hs.id.uid, hs.mx, hs.fp.subn⟩ }

/-- Takes one strand off its slot: it stands in line for no long context (R162). -/
def vacate (s : State) (c n : Nat) (hs : HartState) : State :=
  dropHart (keepResidue (leaveLong (withdraw s hs.id.uid) hs.id.uid) c n hs) (.strand c n)

/-- A group loses a strand to a take. -/
def groupTaken (s : State) (gid : Nat) : State :=
  match assocGet s.groups gid with
  | none => s
  | some g =>
    if g.left ≤ 1 then { s with groups := assocDel s.groups gid }
    else { s with groups := assocSet s.groups gid { g with left := g.left - 1 } }

/-- A child learns the record of its parent, taken on module `m`. -/
def relinked (s : State) (m gang : Nat) (us : List Nat) (hs : HartState) : HartState :=
  match parentUid s gang hs with
  | some u => if hs.id.gang == gang && us.contains u then { hs with joinParent := none, plink := some (m, us.idxOf u) } else hs
  | none => hs

/-- Children elsewhere, installed or in a ship, learn the records of parents taken here (R287). -/
def relink (s : State) (m gang : Nat) (us : List Nat) : State :=
  { s with
    harts := s.harts.map fun (h, hs) => (h, relinked s m gang us hs)
    ships := s.ships.map fun x => { x with hs := x.hs.map (relinked s m gang us) } }

/-- The records of children taken before their parents get their PLINK, from the take of these on module `m` (R287). -/
def adopt (s : State) (m gang : Nat) (us : List Nat) : State :=
  s.modules.foldl (fun u (k, ms) => ms.actions.foldl (fun v a =>
    let t := a.order
    let mine := if t.gang = gang then a.orphans.filter fun x => us.contains x.2 else []
    let v1 := mine.foldl (fun w (i, p) =>
      hwStore w k gang a.uid ⟨.rlx, .system⟩ (headerRecBase s t (posIn t.mset k) + i * 0x1800 + 0x3D8)
        (leBytes 8 (us.idxOf p + posIn t.mset m * 2 ^ 32))) v
    if mine.isEmpty then v1 else setAction v1 k { a with orphans := a.orphans.filter fun x => !us.contains x.2 }) u) s

/-- Frees the join records of parents taken (R287). -/
def freeJoins (s : State) (us : List Nat) : State :=
  { s with dies := s.dies.map fun (d, ds) => (d, { ds with joins := ds.joins.filter fun x => !us.contains x.2.parent }) }

/-- What a strand taken leaves behind (R264, R273, R322), with its record at `pa`. -/
def leaves (s : State) (gang c n pa : Nat) (hs : HartState) : LeftBehind :=
  ⟨gang, c, n, hs.id.uid, hs.run.seq, hs.run.ops.filter fun p => p.op.isFence, (assocGet s.groups hs.id.group).bind fun g => match g.kind with
    | .task t => some t
    | _ => none, comingOf s hs.id.uid, pa, keptWords (taken s (.strand c n) hs)⟩

/-- A grid with SCOPE = 5 as a record of it is known under an id (R329). -/
def scopeKey (g : Grid) (id : Nat) : Nat × List Word × Nat := (g.by_.gang, g.key, id)

/-- The grids with SCOPE = 5 that a take records: those that are no gang grids are known by that when they resume, and a gang grid is none of
them (R329). -/
def noteSolo (s : State) (grids : List Grid) : State :=
  let five := grids.filter fun g => g.scope = 5
  let gangs := (five.filter (·.share.isSome)).map fun g => scopeKey g g.id
  { s with solo := ((five.filter (·.share.isNone)).map (fun g => scopeKey g g.id) ++ s.solo.filter fun x => !gangs.contains x).eraseDups }

/-- The end of a take: every strand off its slot, the images, DONE (R283, R287, R319). `s` is the state after the freeze. -/
def takeEnd (s : State) (m : Nat) (a : Action) (ms : List (Nat × Nat × HartState)) : State :=
  let t := a.order
  let pos := posIn t.mset m
  let us := ms.map fun x => x.2.2.id.uid
  let gids := (ms.map fun x => x.2.2.id.group).eraseDups
  let base := headerRecBase s t pos
  let link (hs : HartState) : Nat × Option Nat := plinkOf s m t.mset t.gang us hs
  let images := ms.map fun (c, n, hs) =>
    recordBytes (withComing (comingOf s hs.id.uid) (taken s (.strand c n) hs)) (infoOf (coreOf s c) c n (gids.idxOf hs.id.group) (link hs).1)
  let s1 := images.zipIdx.foldl (fun u (b, i) => hwStore u m t.gang a.uid ⟨.rlx, .system⟩ (base + i * 0x1800) b) s
  let md := moduleOf s1 m
  let grids := md.grids.filter fun g => g.by_.gang == t.gang
  let s2 := hwStore s1 m t.gang a.uid ⟨.rlx, .system⟩ (headerGrids s t pos) (areaBytes grids a.tasks)
  let s3 := adopt (relink (setModule s2 m { moduleOf s2 m with
    grids := md.grids.filter fun g => g.by_.gang != t.gang
    pool := md.pool.filter fun e => e.item.gang s1 m != t.gang }) m t.gang us) m t.gang us
  let s4 := noteSolo (setModule s3 m { moduleOf s3 m with actions := (moduleOf s3 m).actions.filter fun x =>
    x.order.gang != t.gang || x.order.n == t.n || !x.orphans.isEmpty || (x.order.act == 1 && !x.order.straggled && !allReports x.order) }) grids
  let left := ms.zipIdx.map fun ((c, n, hs), i) => leaves s t.gang c n (base + i * 0x1800) hs
  let s5 := { s4 with
    leftBehind := left ++ s4.leftBehind.filter fun x => !left.any fun y => y.record == x.record
    pushes := s4.pushes.filter fun x => !us.contains x.target }
  let s6 := ms.foldl (fun u (c, n, hs) => groupTaken (vacate u c n hs) hs.id.group) s5
  finish (freeJoins s6 us) m { a with
    done := us.zipIdx.map fun (u, i) => (i, u)
    orphans := ms.zipIdx.filterMap fun (x, i) => (link x.2.2).2.map fun u => (i, u) } ms.length false

/-- A take goes on: it ends when every strand of the gang on the module is at a clean point. -/
def takeStep (s0 : State) (m : Nat) (a : Action) : State :=
  let s := holdMembers s0 m a.order.gang
  let ms := members s m a.order.gang
  if (ms.any fun x => !takable s x.2.2) || !(gangShips s m a.order.gang).isEmpty || awaited s (ms.map fun x => x.2.2.id.uid) then s
  else match freezeAll s ms with
    | none => s
    | some s1 => takeEnd s1 m a (members s1 m a.order.gang)

/-! Launch and resume (R289, R321, R326). -/

/-- What the strands and grids of a timed action take from its poster (R311). -/
def timedPoster (t : Timed) : Poster := { t.by_ with gang := t.gang }

/-- Grids: the next record under the lowest free id; `none` while no id is free. A gang grid that was complete after this module had been taken is no
grid any more (R330). A grid that a GLAUNCH made takes what its waiting groups start with from the strand that posted the resume: its record has no
field for it, and R311 names that source for a timed launch (DESIGN CHOICE, log 123). -/
def stepGrids (s : State) (m : Nat) (a : Action) : Option State :=
  if a.left = 0 then some (setAction s m { a with stage := .records })
  else if a.order.act = 2 && !gangRecord s a.order a.cursor && s.lateOver.contains (a.order.gang, recordKey s.mem a.cursor) &&
      !s.solo.contains (a.order.gang, recordKey s.mem a.cursor, recordId s.mem a.cursor) then
    some (setAction s m { a with cursor := a.cursor + 64 + recordSblen s.mem a.cursor, left := a.left - 1 })
  else match freeGridId s m with
    | none => none
    | some id =>
      let t := a.order
      let share : Option Share := if gangRecord s t a.cursor then some ⟨t.mset, posIn t.mset m, []⟩ else none
      let order := (gangRecords s t (posIn t.mset m)).idxOf a.cursor
      let g := readGrid s.mem a.cursor id (timedPoster t) share t.n order
      let old := recordId s.mem a.cursor
      let s0 := if s.solo.contains (scopeKey g old) then { s with solo := scopeKey g id :: s.solo } else s
      let s1 := hwStore (addGrid s0 m g) m t.gang a.uid ⟨.rlx, .system⟩ (a.cursor + 32) [BitVec.ofNat 8 id]
      some (setAction s1 m { a with cursor := a.cursor + 64 + recordSblen s.mem a.cursor, left := a.left - 1, grids := a.grids ++ [(old, id)] })

/-- k5 of the strand of a uid, wherever it is. -/
def k5Of (s : State) (uid : Nat) : Option Word :=
  match hartByUid s uid with
  | some (_, hs) => some hs.id.k5
  | none => s.ships.findSome? fun x => if x.uid = uid then x.hs.map (·.id.k5) else none

/-- k5 of record `i` of a position once it is rewritten (R321): of an installed strand, what it holds; of a grid's group, the grid's new id; of
a child, its parent's. `none` while the module that holds the record has yet to recreate its grids. The fuel is a step for each record. -/
def newK5 (s : State) (t : Timed) : (fuel : Nat) → (pos i : Nat) → Option Word
  | 0, pos, i => some (readRecord s.mem (headerRecBase s t pos + i * 0x1800) i t.gang 0).hs.id.k5
  | n + 1, pos, i =>
    let r := readRecord s.mem (headerRecBase s t pos + i * 0x1800) i t.gang 0
    let m := t.mset.getD pos 0
    match ((actionOf s m t.n).bind fun a => assocGet a.done i).bind (k5Of s) with
    | some v => some v
    | none => match r.role with
      | 0 => match actionOf s m t.n with
        | some a => if a.stage = .grids then none else some (((assocGet a.grids r.hs.id.k5.toNat).map (BitVec.ofNat 64 ·)).getD r.hs.id.k5)
        | none =>
          if (moduleOf s m).timed.any fun u => u.n == t.n then none else some r.hs.id.k5
      | 1 => some r.hs.id.k5
      | _ => newK5 s t n r.pmod r.prec

/-- Records of the whole context. -/
def contextRecords (s : State) (t : Timed) : Nat := ((List.range t.mset.length).map (headerNrec s t)).sum

/-- What a restored strand left behind at its take, wherever software has moved its record since (R322, R338). -/
def leftOf (s : State) (gang : Nat) (r : Record) : Option LeftBehind :=
  let xs := s.leftBehind.filter fun x => x.gang == gang && (x.core, x.slot) == r.source && x.words == keptWords r.hs
  (xs.find? fun x => x.record == r.pa).orElse fun _ => xs.head?

/-- The slot of a record with RESLOT is free, or not free only for the strand's own tiles and frozen state (R289): those of the strand that
left the slot last, where that is this one. -/
def reslotOk (s : State) (gang : Nat) (r : Record) : Bool :=
  let cs := coreOf s r.core
  let own := match assocGet cs.residue r.slot, leftOf s gang r with
    | some x, some y => x.uid == y.uid
    | _, _ => false
  r.reslot && coreUsable s r.core && (hartOf s (.strand r.core r.slot)).isNone && !cs.disabled.contains r.slot &&
    !(s.ships.any fun x => x.core == r.core && x.slot == r.slot) &&
    (own || ((heldTiles cs r.slot).isEmpty && !frozenFor cs r.slot))

/-- Slots of a group on a cluster: its own for those that keep them, by R309 for the others. -/
def placeRest (s : State) (keeps : Record → Bool) (g spk : Nat) :
    List Record → (used : List (Nat × Nat)) → Option (List (Nat × Nat × Bool))
  | [], _ => some []
  | r :: rest, used =>
    if keeps r then (placeRest s keeps g spk rest used).map fun l => (r.core, r.slot, true) :: l
    else match nextCore s g spk used with
      | none => none
      | some c => match slotLeft s c used with
        | none => none
        | some k => (placeRest s keeps g spk rest (used ++ [(c, k)])).map fun l => (c, k, false) :: l

/-- Slots for the records of a group, in order: the state, and for each its core, slot, and whether it kept its own. R289 keeps a group within
one cluster and sends a strand with RESLOT back to its slot, and does not say which yields where the free RESLOT slots of a group lie in different
clusters, or in one that has no room for the group's other records: the group is then placed elsewhere as a whole, and RESLOT is cleared (DESIGN
CHOICE, log 112). -/
def placeRecords (s : State) (m : Nat) (keeps : Record → Bool) (spk : Nat) (rs : List Record) :
    Option (State × List (Nat × Nat × Bool)) :=
  let pinned := (rs.filter keeps).map fun r => (r.core, r.slot)
  let own := match pinned with
    | [] => none
    | x :: rest =>
      if rest.all fun y => coreCluster y.1 == coreCluster x.1 then (placeRest s keeps (coreCluster x.1) spk rs pinned).map fun l => (s, l)
      else none
  own.orElse fun _ => (cyclicRoom s m rs.length spk).map fun (s1, l) => (s1, l.map fun (c, n) => (c, n, false))

/-- Writes back what the installation decides of a record (R287, R289, R321). -/
def rewriteRecord (s : State) (m : Nat) (a : Action) (pa : Nat) (r : Record) (k5 k6 : Word) (c n : Nat) (kept : Bool)
    (j : Option JoinRef) : State :=
  let put (s : State) (off v : Nat) : State := hwStore s m a.order.gang a.uid ⟨.rlx, .system⟩ (pa + off) (leBytes 8 v)
  let w0 := r.w0 % 2 ^ 32 + coreLinear c * 2 ^ 32
  let jw : Nat := match j with
    | some x => x.index * 2 ^ 28 + x.die % 4 * 2 ^ 40 + x.die / 4 * 2 ^ 42
    | none => 0
  let w1 := r.w1 % 2 ^ 14 + coreModule c * 2 ^ 14 + jw
  let save0 := (BitVec.ofNat 64 r.save &&& ~~~(BitVec.ofNat 64 (7 * 2 ^ 21))).toNat + n * 2 ^ 21
  let save := if kept then save0 else (BitVec.ofNat 64 save0 &&& ~~~(BitVec.ofNat 64 (2 ^ 20))).toNat
  put (put (put (put (put s 0 w0) 8 w1) 0x28 k5.toNat) 0x30 k6.toNat) 0x3C0 save

/-- The uid of a restored strand: its own, while what it left behind bears it, else a new one (R264, R322). -/
def restoredAs (s : State) (left : Option LeftBehind) : State × Nat :=
  match left with
  | some x => ({ s with leftBehind := s.leftBehind.erase x }, x.uid)
  | none => freshUid s

/-- Installs one record on its slot. -/
def installRecord (m : Nat) (a : Action) (gid : Nat) (base : Nat) (s : State) (x : Record × Nat × Nat × Bool) : State :=
  let (r, c, n, kept) := x
  let t := a.order
  let pos := posIn t.mset m
  let k5 := (newK5 s t (contextRecords s t + 1) pos r.index).getD r.hs.id.k5
  let k6 : Word := BitVec.ofNat 64 m
  let left := leftOf s t.gang r
  let (s1, u) := restoredAs s left
  let j := if r.hs.st.jcnt = 0 then none else freeJoin s1 (coreDie c)
  let s2 := match j with
    | some ref => setJoin s1 ref ⟨u, r.hs.st.jcnt.toNat⟩
    | none => s1
  let hs : HartState := { r.hs with
    id := { r.hs.id with
      uid := u
      group := gid
      k5 := k5
      k6 := k6 }
    run := { r.hs.run with
      seq := left.elim 0 (·.seq)
      ops := left.elim [] (·.fences) }
    joinOwn := j
    plink := if r.role = 2 then (t.mset[r.pmod]?).map fun k => (k, r.prec) else none }
  let (cm, hs) := splitComing (left.elim [] (·.coming)) hs
  let s3 := install { s2 with pushes := s2.pushes ++ cm } c n (gateFor s2 m t.gang (some t.n) hs)
  let s4 := if hs.st.vl && !mayTakeLong s2 (coreCluster c) u then { s3 with longWait := s3.longWait ++ [u] } else s3
  let s5 := rewriteRecord s4 m a (base + r.index * 0x1800) r k5 k6 c n kept j
  match actionOf s5 m t.n with
  | some b => setAction s5 m { b with done := b.done ++ [(r.index, u)] }
  | none => s5

/-- What the group of records runs; `none` while its k5 is not known. -/
def recordKind (s : State) (m : Nat) (a : Action) (r : Record) : Option GroupKind :=
  (newK5 s a.order (contextRecords s a.order + 1) (posIn a.order.mset m) r.index).map fun k5 => match r.role with
  | 0 => .grid k5.toNat r.hs.id.k2.toNat
  | 1 => match (leftOf s a.order.gang r).bind (·.task) with
    | some t => .task t
    | none => .child
  | _ => .child

/-- SPK of a restored group: its grid's. -/
def recordSpk (s : State) (m : Nat) : GroupKind → Nat
  | .grid id _ => ((gridOf s m id).bind fun g => taskType s m g.tti).elim 0 (·.spk)
  | .task t => (taskType s m t.tti).elim 0 (·.spk)
  | .child => 0

/-- A gang grid of a module, by the action that made it and its order there. -/
def gangGrid (s : State) (m n order : Nat) : Option Grid :=
  (moduleOf s m).grids.find? fun g => g.share.isSome && g.act == some n && g.order == order

/-- A group of a grid that runs already, here or, of a gang grid, on another module, or that has retired: it runs once (R320). -/
def alreadyRuns (s : State) (m : Nat) : GroupKind → Bool
  | .grid id i => inFlight s m id i || match gridOf s m id with
    | some g => g.hasRetired i || ((g.share.elim [] (·.mset)).filter (· ≠ m)).any fun k => match gangGrid s k (g.act.getD 0) g.order with
      | some g' => inFlight s k g'.id i || g'.hasRetired i
      | none => false
    | none => false
  | _ => false

/-- Join records enough for those that need one. -/
def joinsLeft (s : State) (rs : List (Record × Nat × Nat × Bool)) : Bool :=
  rs.all fun x => x.1.hs.st.jcnt = 0 ||
    decide ((dieState s (coreDie x.2.1)).joins.length + rs.length ≤ 4096)

/-- Records: the group of the first that is still to be installed; `none` while there is no room (R289). -/
def stepRecords (s : State) (m : Nat) (a : Action) : Option State :=
  let t := a.order
  let base := headerRecBase s t (posIn t.mset m)
  let read (i : Nat) : Record := readRecord s.mem (base + i * 0x1800) i t.gang m
  match a.todo with
  | [] => some (setAction s m { a with stage := .packets })
  | i :: _ =>
    let r0 := read i
    let rs := (a.todo.map read).filter fun r => r.gseq == r0.gseq
    let a' := { a with todo := a.todo.filter fun k => !rs.any fun r => r.index == k }
    match recordKind s m a r0 with
    | none => none
    | some kind =>
      let spk := recordSpk s m kind
      if alreadyRuns s m kind then some (setAction s m a')
      else if rs.any fun r => (newK5 s t (contextRecords s t + 1) (posIn t.mset m) r.index).isNone then none
      else match placeRecords s m (reslotOk s t.gang) spk rs with
        | none => none
        | some (s1, at_) =>
          let xs := rs.zip at_
          if !joinsLeft s1 xs then none
          else
            let gid := s1.nextId
            let used := at_.map fun y => (y.1, y.2.1)
            let s2 := { s1 with nextId := gid + 1, groups := s1.groups ++ [(gid, ⟨m, t.gang, kind, rs.length, spkOf spk used⟩)] }
            some (xs.foldl (installRecord m a gid base) (setAction s2 m a'))

/-- The union of every report's scoreboard of gang grid `k` (R330). -/
def unionBoards (t : Timed) (k : Nat) : List Nat := (t.reports.flatMap fun r => r.boards.getD k []).eraseDups

/-- Groups of gang grid `k` in flight on other modules than `m`. -/
def awayBoards (t : Timed) (m k : Nat) : List Nat := ((t.reports.filter fun r => r.from_ != m).flatMap fun r => r.flying.getD k []).eraseDups

/-- Release: each grid of the action against the retired set. A resume with gang grids needs every module's scoreboards first (R330), and what
its records hold in flight elsewhere runs there (R338). -/
def stepRelease (s : State) (m : Nat) (a : Action) : Option State :=
  let t := a.order
  let ids := a.grids.map (·.2)
  let shared := ids.any fun id => match gridOf s m id with
    | some g => g.share.isSome
    | none => false
  if t.act = 2 && shared && !allReports t then none
  else
    let s1 := ids.foldl (fun u id => match gridOf u m id with
      | some g => if g.share.isSome then setGrid u m { g with
          retired := g.retired.filter g.mine
          others := unionBoards t g.order
          away := (awayBoards t m g.order).filter g.mine } else u
      | none => u) s
    let s2 := ids.foldl (fun u id => checkGrid (releaseAll u m id) m id) s1
    some (openGates (setAction s2 m { a with stage := .tasks }) m)

/-- Replays a parked packet as though it arrived now; a refused one is discarded (R333). -/
def replayPacket (a : Action) (s : State) (p : Packet) : State :=
  match p with
  | .store x => match arrivalFault s x with
    | some _ => s
    | none => match x.p.op with
      | .storeNone => s
      | .store (bs :: _) => if (windowParts x.p.pa).2.1 = 0 then storeEffect s x.p else windowPut s x.uid x.p x.p.pa bs
      | _ => storeEffect s x.p
  | .launch target parent entry arg by_ => match hartByUid s parent with
    | none => s
    | some (_, hs) => match (freeSlots s target).head? with
      | some n => startChild s hs by_ (some a.order.n) target n entry arg
      | none => s

/-- Packets: a resume replays them in order, and the gang is no longer taken (R331, R333). -/
def stepPackets (s : State) (m : Nat) (a : Action) : State :=
  let ms := moduleOf s m
  let s1 := match if a.order.act = 2 then ms.taken.find? fun x => x.gang == a.order.gang else none with
    | some x => x.packets.foldl (replayPacket a) (setModule s m { ms with taken := ms.taken.filter fun y => y.gang != a.order.gang })
    | none => s
  match actionOf s1 m a.order.n with
  | some b => openGates (setAction s1 m { b with stage := .release }) m
  | none => s1

/-- Tasks: the next address of the task list enters the pool; `none` while that is full. -/
def stepTasks (s : State) (m : Nat) (a : Action) : Option State :=
  let t := a.order
  let by_ := timedPoster t
  if a.ntask = 0 then some (finish s m a (if t.act = 2 then a.done.length else 0) false)
  else
    let va := memWord s.mem a.cursor
    let s1 := setAction s m { a with cursor := a.cursor + 8, ntask := a.ntask - 1 }
    let waits (s' : State) : Option State := if s'.snoops.length = s.snoops.length then none else some s'
    match posterRead s m by_ va 32 .read with
    | .wait s' => waits s'
    | .fault _ => some (raiseModule s1 m .recflt va)
    | .place p =>
      let x := memNat s.mem p.pa 32
      match tttUnits s m (x % 2 ^ 8) with
      | l :: ls => waits (sendSnoops s (.unit p.pa) .read (l :: ls))
      | [] => match if 128 ≤ x / 2 ^ 8 % 2 ^ 8 then none else taskOf s m va p.pa x by_ (some t.n) with
        | none => some (raiseModule s1 m .recflt va)
        | some task =>
          let s2 := { s1 with nextId := s1.nextId + 1 }
          if predOf x ≠ 0 then some (setModule s2 m { moduleOf s2 m with waiting := (moduleOf s2 m).waiting ++ [task] })
          else if poolFull (moduleOf s m) then none
          else some (readyTask s2 m task)

/-- One step of an action; `none` when it waits or is done. -/
def actionStep (s : State) (m : Nat) (a : Action) : Option State :=
  match a.stage with
  | .grids => stepGrids s m a
  | .records => stepRecords s m a
  | .packets => some (stepPackets s m a)
  | .release => stepRelease s m a
  | .tasks => stepTasks s m a
  | .take => some (takeStep s m a)
  | .done => none

/-- An action goes on as far as it can. A take looks once at its strands. -/
def actionRun (m n : Nat) : (fuel : Nat) → State → State
  | 0, s => s
  | k + 1, s => match actionOf s m n with
    | none => s
    | some a => match actionStep s m a with
      | none => s
      | some s' => if a.stage == .take then s' else actionRun m n k s'

/-- Enough steps for an action of any size: grids, groups, tasks and stages. -/
def actionFuel : Nat := 16384

/-- Discards the parked packets of modules that a resume leaves out (R333). -/
def leaveOut (s : State) (t : Timed) : State :=
  { s with modules := s.modules.map fun (k, ms) =>
      (k, if t.mset.contains k then ms else { ms with taken := ms.taken.filter fun x => x.gang != t.gang }) }

/-- Earlier actions that stay beside a new one: those that lack a report, whose STRAGGLE may yet come, and those whose gate is shut (R328); a
launch leaves restored parents; a take ends launches and resumes when it is complete. -/
def keepAction (t : Timed) (a : Action) : Bool :=
  a.order.gang != t.gang || t.act == 1 || (!a.order.straggled && !allReports a.order) || !a.open_ || !a.orphans.isEmpty || (t.act == 0 && !a.done.isEmpty)

/-- A module begins an action: its report, its token, its first steps. -/
def beginAction (s : State) (m : Nat) (t : Timed) : State :=
  let pos := posIn t.mset m
  let now := timeOf s m
  let fb := onToken s m t
  let late := decide (t.start + t.tol < now)
  let boards := if t.act = 1 then [] else (gangGrids s t pos).map (·.retired)
  let r : Report := ⟨m, now, late, fb, boards, if t.act = 2 then gangFlying s t pos else []⟩
  let (s1, u) := freshUid (if t.act = 2 then leaveOut s t else s)
  let ms := moduleOf s1 m
  let pa := headerGrids s t pos
  let nrec := if t.act = 2 then headerNrec s t pos else 0
  let a : Action := ⟨t, .grids, false, false, pa + 64, if t.act = 1 then 0 else memNat s.mem pa 1,
    if t.act = 1 then 0 else memNat s.mem (pa + 2) 2 % 2 ^ 13, [], List.range nrec, [], [], [], u⟩
  let s2 := setModule s1 m { ms with
    timed := ms.timed.filter fun x => x.n ≠ t.n
    msets := assocSet ms.msets t.gang t.mset
    actions := a :: ms.actions.filter (keepAction t) }
  let others := t.mset.filter (· ≠ m)
  let s3 := others.foldl (fun x k => sendMsg x (.report k t.n r)) s2
  let s4 := if pos = 0 then others.foldl (fun x k => sendMsg x (.token k t.n)) s3 else s3
  let s5 := takeReport s4 m t r
  match actionOf s5 m t.n with
  | none => s5
  | some b =>
    if t.act = 1 then takeBegin s5 m b
    else if t.act = 0 && !launchAgrees s t then finish s5 m { b with grids := [], todo := [] } 0 true
    else s5

/-- What an action reads of its context area is there, or the host is asked for it (R243). -/
def withContext (s : State) (t : Timed) (f : State → State) : State :=
  match contextUnits s t with
  | l :: ls => sendSnoops s (.unit t.ctx) .read (l :: ls)
  | [] => f s

/-- A record of one kind begins or goes on. -/
def timedEvent (act m i : Nat) (s : State) : State :=
  match (moduleOf s m).timed.find? fun t => t.n == i with
  | some t => if t.act = act && mayBegin s m t then withContext s t fun u => actionRun m i actionFuel (beginAction u m t) else s
  | none => match actionOf s m i with
    | some a => if a.order.act = act then withContext s a.order (actionRun m i actionFuel) else s
    | none => s

/-- TIMED_LAUNCH (R326). -/
def execTimedLaunch (m i : Nat) (s : State) : Result := .next (timedEvent 0 m i s)
/-- PRE_EMPT (R283, R318). -/
def execPreEmpt (m i : Nat) (s : State) : Result := .next (timedEvent 1 m i s)
/-- RESUME (R289, R321). -/
def execResume (m i : Nat) (s : State) : Result := .next (timedEvent 2 m i s)

/-! Messages between the modules of a gang. -/

/-- GANG_REPORT (R327, R328). -/
def execGangReport (i : Nat) (s : State) : Result :=
  match assocGet s.msgs i with
  | some (.report dest n r) =>
    let s1 := dropMsg s i
    match (allTimed s1 dest).find? fun t => t.n == n with
    | some t => .next (takeReport s1 dest t r)
    | none => .next s1
  | _ => .next s

/-- REPORT_DEADLINE: START + TOL + 20 µs has passed and a report is missing (R328). -/
def execReportDeadline (m gang : Nat) (s : State) : Result :=
  match (allTimed s m).find? fun t => t.gang == gang && !t.straggled && !allReports t &&
      decide (t.start + t.tol + 20000 ≤ timeOf s m) with
  | some t => .next (straggle s m t)
  | none => .next s

/-- SWITCH_TOKEN: a free-running module may perform its record (R334). -/
def execSwitchToken (i : Nat) (s : State) : Result :=
  match assocGet s.msgs i with
  | some (.token dest n) =>
    let s1 := dropMsg s i
    if (moduleOf s dest).unit.clock != .free then .next s1
    else .next (mapTimed s1 dest fun t => if t.n = n then { t with token := true } else t)
  | _ => .next s

/-- The module has yet to make the grid that a message names, or to learn what has retired of it. -/
def gridComing (s : State) (m n : Nat) : Bool :=
  ((moduleOf s m).timed.any fun t => t.n == n) ||
    (moduleOf s m).actions.any fun a => a.order.n == n &&
      (a.stage == .grids || a.stage == .records || a.stage == .packets || a.stage == .release)

/-- RELEASE_MESSAGE: a group retired in another share (R330). -/
def execReleaseMessage (i : Nat) (s : State) : Result :=
  match assocGet s.msgs i with
  | some (.release dest n order j) =>
    if gridComing s dest n then .next s
    else match gangGrid s dest n order with
      | none => .next (dropMsg s i)
      | some g =>
        let g' := { g with others := if g.others.contains j then g.others else g.others ++ [j] }
        let s1 := setGrid (dropMsg s i) dest g'
        .next (checkGrid (if takeRunning s1 dest g.by_.gang then s1 else releaseGroups s1 dest g.id (g'.successors j)) dest g.id)
  | _ => .next s

/-- SHARE_COMPLETE (R330). -/
def execShareComplete (i : Nat) (s : State) : Result :=
  match assocGet s.msgs i with
  | some (.share dest n order pos) =>
    if gridComing s dest n then .next s
    else match gangGrid s dest n order with
      | none => .next (dropMsg s i)
      | some g => .next (shareDone (dropMsg s i) dest g pos)
  | _ => .next s

/-- GRID_COMPLETE (R330). Where a take has recorded the grid by then, its record names a grid that is over. -/
def execGridComplete (i : Nat) (s : State) : Result :=
  match assocGet s.msgs i with
  | some (.gridDone dest n order gang key) => match gangGrid s dest n order with
    | none => .next { dropMsg s i with lateOver := ((gang, key) :: s.lateOver).eraseDups }
    | some g => .next (dropGrid (dropMsg s i) dest g.id)
  | _ => .next s

end Sys2Proof.Machine
end

