-- ==== Sys2Proof/Machine/Move.lean ====
section
/-!
DEFINITION. Moving strands: the migration message (R276, R277, R280), automatic migration (R278), thermal displacement (R281, R282) and
the power cap (R363).
-/

namespace Sys2Proof.Machine

/-! Ships (R276, R277). -/

def shipOf (s : State) (i : Nat) : Option Ship := s.ships.find? fun x => x.n == i
def dropShip (s : State) (i : Nat) : State := { s with ships := s.ships.filter fun x => x.n ≠ i }

/-- The migration message (R276): header words, the context, the buffered entries, in flits of 64 bytes. `ret` tells that it goes back to
the source. -/
def messageBytes (x : Ship) (hs : HartState) (ret : Bool) : List Byte :=
  let n := (portEntries hs).length
  let w0 : Nat := 3 + x.reason * 2 ^ 4 + (if ret then 2 ^ 6 else 0) + n * 2 ^ 8 + coreLinear x.core * 2 ^ 16 + x.slot * 2 ^ 26 + coreLinear x.dest * 2 ^ 32
  let w1 : Nat := coreModule x.core + coreModule x.dest * 2 ^ 14 + joinField hs
  leBytes (64 * (7 + (n + 7) / 8)) (placeFields ([(0, w0), (8, w1)] ++ contextFields (.strand x.core x.slot) hs))

/-- A word of a message. -/
def messageWord (bs : List Byte) (off : Nat) : Word := BitVec.ofNat 64 (leNat ((bs.drop off).take 8))

/-- RET of a message. -/
def returned (bs : List Byte) : Bool := (messageWord bs 0).getLsbD 6

/-- The strand as it arrives: what the message carries, its replay (R366), its v registers zero and full (R276), a count of instructions that
starts again (R278); and what it is to the machine, its pending causes (R282) and its fences (R264). -/
def arriving (bs : List Byte) (hs : HartState) : HartState :=
  let x := contextOf (messageWord bs)
  { x with
    id := { x.id with uid := hs.id.uid, role := hs.id.role, gang := hs.id.gang, group := hs.id.group }
    joinOwn := hs.joinOwn
    joinParent := hs.joinParent
    plink := hs.plink
    run := { x.run with
      halted := hs.run.halted
      dbl := hs.run.dbl
      gate := hs.run.gate
      async := hs.run.async
      seq := hs.run.seq
      ops := hs.run.ops.filter fun p => p.op.isFence
      lastPc := hs.run.lastPc } }

/-- The message of a ship, with the entries that its strand's ports have accepted (R273, R276). -/
def shipMessage (s : State) (x : Ship) (hs : HartState) (ret : Bool) : List Byte := messageBytes x (withComing (comingOf s hs.id.uid) hs) ret

/-- The strand leaves its slot, which stays reserved and keeps its matrix values (R305); the message is sent (R277, steps 1 to 3). -/
def shipSend (s : State) (x : Ship) (h : Hart) (hs : HartState) : State :=
  let hs' := taken s h hs
  { dropHart (keepResidue (withdraw s hs.id.uid) x.core x.slot hs) h with
    ships := s.ships.map fun y => if y.n = x.n then { y with hs := some hs', message := shipMessage s x hs' false } else y }

/-- The core and slot where a message installs its strand: DCORE, then the other cores of its cluster. The source slot, which is reserved, is none
of them. -/
def shipPlace (s : State) (dest : Nat) : Option (Nat × Nat) :=
  (dest :: (clusterCores (coreCluster dest)).filter (· ≠ dest)).findSome? fun c => (freeSlots s c).head?.map fun n => (c, n)

/-- A strand as its ship ends, with the status of its MIG, if it was one, due to its destination (R142, R277). -/
def shipped (s : State) (x : Ship) (hs : HartState) (k : Nat) : HartState :=
  let hs' := (splitComing (comingOf s hs.id.uid) (arriving x.message hs)).2
  match x.status with
  | none => hs'
  | some d => addOp hs' (newOp hs' (.value (BitVec.ofNat 64 k)) d)

/-- MIGRATION_MESSAGE: the ordered ship leaves at its strand's clean point; its message installs the strand or is returned, and then installs
it again in its old slot (R277, R280). -/
def execMigrationMessage (i : Nat) (s : State) : Result :=
  match shipOf s i with
  | none => .next s
  | some x => match x.hs with
    | none => match hartByUid s x.uid with
      | none => .next (dropShip s i)
      | some (h, hs) => if movable s hs then .next (shipSend s x h hs) else .next s
    | some hs =>
      if returned x.message then .next (install (dropShip s i) x.core x.slot (shipped s x hs 3))
      else match shipPlace s x.dest with
        | some (c, n) => .next (install (dropShip s i) c n (shipped s x hs 0))
        | none => .next { s with ships := s.ships.map fun y => if y.n = i then { y with message := shipMessage s x hs true } else y }

/-! Automatic migration (R278). -/

/-- The base, the displacement and the needs of a load, store or atomic (R109 to R111, R122, R123, R156 to R158). A gather or scatter counts by its
first lane, whose index is its displacement. LDBIT and STBIT reach the scratchpad only (R113). -/
def accessBase (hs : HartState) : Instr → Option (Src × Word × Need)
  | .ldN8 r b d _ | .ldN16 r b d _ | .ldN32 r b d _ | .ld r b d _ | .ldS8 r b d _ | .ldS16 r b d _ | .ldS32 r b d _ =>
    some (b, dispValue d, { srcs := [b], dsts := [r], place := true })
  | .stN8 b x d _ | .stN16 b x d _ | .stN32 b x d _ | .st b x d _ => some (b, dispValue d, { srcs := [b, x] })
  | .stZ b d _ => some (b, dispValue d, { srcs := [b] })
  | .cas r b x y d _ _ => some (b, dispValue d, { srcs := [b, x, y], dsts := [r], place := true })
  | .swap r b x d _ _ | .aadd r b x d _ _ | .aand r b x d _ _ | .aor r b x d _ _ | .axor r b x d _ _ | .amin r b x d _ _
  | .amax r b x d _ _ | .aminn r b x d _ _ | .amaxn r b x d _ _ | .afadd r b x d _ _ =>
    some (b, dispValue d, { srcs := [b, x], dsts := [r], place := true })
  | .vld _ b d _ => some (b, dispValue d, { srcs := [b], place := true })
  | .vst b v d _ => some (b, dispValue d, { srcs := [b], vecs := [v] })
  | .vbdec _ b e d => some (b, d.signExtend 64, { srcs := [b, e], place := true })
  | .vbenc b x v d _ => some (b, d.signExtend 64, { srcs := [b, x], vecs := [v] })
  | .vgath _ b x w _ => some (b, firstLane x w, { srcs := [b], vecs := [x], place := true })
  | .vscat b x v w _ => some (b, firstLane x w, { srcs := [b], vecs := [x, v] })
  | _ => none
where
  firstLane (x : Fin 16) (w : Fin 3) : Word := ((laneSpans hs 0 x w .read).head?.map (·.va)).getD 0

/-- The value of a source that can be read without a pop. -/
def peekSrc (h : Hart) (hs : HartState) : Src → Option Word
  | .g r => if gFull hs r then some (gVal hs r) else none
  | .k r => some (kReg h hs r)
  | .q _ => none

/-- The place of the access that a strand is about to issue. -/
def nextAccess (s : State) (h : Hart) (hs : HartState) : Option Sought :=
  match (fetch s h hs (issuePc hs)).1 with
  | .instr _ d => (accessBase hs d.instr).bind fun (b, disp, need) =>
    if ready s h hs need = .go then (peekSrc h hs b).map fun v => seek s h hs hs.ptbr hs.st.priv (v + disp) .probe else none
  | _ => none

/-- A strand that migrates by itself: what R278 asks of it before its next access. -/
def migrates (s : State) (h : Hart) (hs : HartState) : Bool :=
  hs.migr && !isEngine h && decide (64 ≤ hs.run.issued) && !liveState s h hs && !hasInput hs && (hs.run.ops.all fun p => p.dest == .none) && canIssue s h hs

/-- The core to ship to (R278): the access goes to memory of its own module whose home lies in another cluster with a free slot. -/
def autoDest (s : State) (h : Hart) (hs : HartState) : Option Nat :=
  if !migrates s h hs then none
  else match nextAccess s h hs with
    | some (.place p) =>
      if isWindow p.pa || paModule p.pa != hartModule h || homeCluster s p.pa = coreCluster (ownCore h) then none
      else clusterFree s (homeCluster s p.pa)
    | _ => none

/-- The strand is about to access a page that must be walked before R278 can be judged: the state in which it has asked for the walk. -/
def autoWalk (s : State) (h : Hart) (hs : HartState) : Option State :=
  if !migrates s h hs then none
  else match nextAccess s h hs with
    | some (.wait s') => some s'
    | _ => none

/-- AUTOMATIC_MIGRATION (R278). -/
def execAutomaticMigration (h : Hart) (s : State) : Result :=
  match hartOf s h with
  | none => .next s
  | some hs => match autoDest s h hs with
    | none => .next s
    | some c =>
      let s1 := orderShip s h hs c 1 none
      match s1.ships.getLast? with
      | some x => execMigrationMessage x.n s1
      | none => .next s1

/-! Thermal displacement (R281, R282). -/

/-- The ranking table's cores, in position order, once each. -/
def rankedCores (s : State) (c : Nat) : List Nat :=
  let d := coreDie c
  (((List.range 256).filterMap fun i => assocGet (dieState s d).ranks i).eraseDups.map fun k => d * 256 + k).filter (· ≠ c)

/-- The occupied slot to displace: the highest whose strand holds no live state and no bound input. A strand that waits in RETIRE is one
(R270): it executes its RETIRE again where it is installed. -/
def hotCandidate (s : State) (c : Nat) : Option (Nat × HartState) :=
  (List.range 8).reverse.findSome? fun n => match hartOf s (.strand c n) with
    | some hs =>
      if (coreOf s c).disabled.contains n || liveState s (.strand c n) hs || hasInput hs || hs.run.ship.isSome then none
      else some (n, hs)
    | none => none

def disable (s : State) (c n : Nat) : State := setCore s c { coreOf s c with disabled := addNew (coreOf s c).disabled n }

/-- One step of the clock down, to no less than 2.0 GHz, or up, to no more than 4.0 GHz. -/
def clockDown (cs : CoreState) : CoreState := { cs with clock := max 8 (cs.clock - 1) }
def clockUp (cs : CoreState) : CoreState := { cs with clock := min 16 (cs.clock + 1) }

/-- What the controller does on a core above HOT. The candidate's slot is disabled as its ship is ordered. A displaced strand whose message is returned
is installed in it again (R277); whether the slot is then to be disabled the spec does not say: it stays disabled, and its strand runs on in it
(DESIGN CHOICE, log 121). -/
def hotStep (s : State) (c : Nat) : State :=
  match (freeSlots s c).getLast? with
  | some n => disable s c n
  | none => match hotCandidate s c with
    | none => setCore s c (clockDown (coreOf s c))
    | some (n, hs) =>
      match (rankedCores s c).find? fun k => !(coreOf s k).hot && !(freeSlots s k).isEmpty with
      | none => setCore s c (clockDown (coreOf s c))
      | some k => disable (orderShip s (.strand c n) hs k 2 none) c n

/-- THERMAL_STEP: the controller reads a core's temperature, in degrees (R281). `hot` tells that the core is not at or below COOL. Which
disabled slot is enabled again the rule leaves open: the one that has been disabled longest (DESIGN CHOICE, log 98). -/
def execThermalStep (c : Nat) (temp : Nat) (s : State) : Result :=
  let ms := moduleOf s (coreModule c)
  let s1 := setCore s c { coreOf s c with hot := decide (ms.coolAt < temp) }
  if ms.hotAt < temp then .next (hotStep s1 c)
  else if temp ≤ ms.coolAt then
    let cs := coreOf s1 c
    .next (setCore s1 c (clockUp { cs with disabled := cs.disabled.drop 1 }))
  else .next s1

/-! Power (R363). -/

/-- Every core of a module. -/
def mapCores (s : State) (m : Nat) (f : CoreState → CoreState) : State :=
  (List.range 1024).foldl (fun t i => let c := m * 1024 + i; if f (coreOf t c) = coreOf t c then t else setCore t c (f (coreOf t c))) s

/-- POWER_CAP_STEP: power averaged over 1 ms against the cap. -/
def execPowerCapStep (m : Nat) (milliwatts : Nat) (s : State) : Result :=
  let cap := (moduleOf s m).cap
  if cap < milliwatts then .next (mapCores s m clockDown)
  else if milliwatts * 100 ≤ cap * 95 then .next (mapCores s m clockUp)
  else .next s

/-- POWER_CAP_SETTING: a cap between 1.6 kW and 3.2 kW. -/
def execPowerCapSetting (m : Nat) (milliwatts : Nat) (s : State) : Result :=
  if 1600000 ≤ milliwatts && milliwatts ≤ 3200000 then .next (setModule s m { moduleOf s m with cap := milliwatts }) else .next s

end Sys2Proof.Machine
end

