-- ==== Sys2Proof/Machine/Edge.lean ====
section
/-!
DEFINITION. The edges of a module: the clock (R323, R324), combined requests of the welts (R350, R351), the host (R352 to R355),
spares and errors (R356 to R358), the warm reset of a die (R359), the fatal dump (R360), firmware (R362), and bring-up (R363 to R365).
-/

namespace Sys2Proof.Machine

/-! The clock (R323, R324). -/

def setUnit (s : State) (m : Nat) (u : TimeUnit) : State := setModule s m { moduleOf s m with unit := u }

/-- PTP_SYNC: one sync interval of the unit's PTP domain has passed, with a usable sync that found the master `offset` nanoseconds ahead of TIME, or
without one. -/
def execPtpSync (m : Nat) (offset : Int) (usable : Bool) (s : State) : Result :=
  let u := (moduleOf s m).unit
  if !usable then .next (setUnit s m { u with good := 0, missed := u.missed + 1 })
  else
    let good := if -50 ≤ offset ∧ offset ≤ 50 then min 16 (u.good + 1) else 0
    .next (setUnit s m { u with
      good := good
      missed := 0
      slew := offset
      clock := if good = 16 then .locked else u.clock })

/-- HOLDOVER: three intervals without a usable sync. -/
def execHoldover (m : Nat) (s : State) : Result :=
  let u := (moduleOf s m).unit
  if u.clock == .locked && 3 ≤ u.missed then
    .next (setUnit s m { u with
      clock := .holdover
      since := s.now
      slew := 0 })
  else .next s

/-- FREE_RUNNING: holdover has lasted HOLD; CLKLOSS with TVAL = TIME. -/
def execFreeRunning (m : Nat) (s : State) : Result :=
  let ms := moduleOf s m
  if ms.unit.clock == .holdover && decide (ms.unit.since + ms.hold ≤ s.now) then
    .next (raiseModule (setUnit s m { ms.unit with clock := .free }) m .clkloss (timeWord s m))
  else .next s

/-- TIME_STEP: firmware steps TIME forward when the offset exceeds 1 ms. -/
def execTimeStep (m : Nat) (by_ : Nat) (s : State) : Result :=
  let ms := moduleOf s m
  if 1000000 < ms.unit.slew then
    .next (setModule s m { ms with
      time := ms.time + by_
      unit := { ms.unit with slew := ms.unit.slew - by_ } })
  else .next s

/-- The unit disciplines TIME: it is locked, or the last interval gave it a sync on its way back to lock. -/
def TimeUnit.slewing (u : TimeUnit) : Bool := u.clock == .locked || u.missed == 0

/-- How far TIME moves beside `dt` nanoseconds: by at most 200 ppm when it slews, by at most 0.1 ppm on its own oscillator. -/
def clockDrift (u : TimeUnit) (dt draw : Nat) : Int :=
  match u.slewing with
  | true => max (-((dt / 5000 : Nat) : Int)) (min ((dt / 5000 : Nat) : Int) u.slew)
  | false => ((draw % (2 * (dt / 10000000) + 1) : Nat) : Int) - ((dt / 10000000 : Nat) : Int)

/-- `dt` nanoseconds pass on a module. -/
def tickModule (dt draw : Nat) (ms : ModuleState) : ModuleState :=
  let d := clockDrift ms.unit dt draw
  { ms with
    time := ms.time + d
    unit := { ms.unit with slew := if ms.unit.slewing then ms.unit.slew - d else ms.unit.slew } }

/-! Combined requests (R350, R351). -/

/-- The functions a welt combines. -/
def AtomicFn.combines : AtomicFn → Bool
  | .add | .and | .or | .xor | .min | .max | .minn | .maxn => true
  | _ => false

/-- What a contributor asks of a welt: function, width in bytes, address. -/
def weltAsk (s : State) (gdie : Nat) (x : Hart × Nat) : Option (AtomicFn × Nat × Nat) :=
  match openOp s x.1 x.2 with
  | none => none
  | some (hs, p) => match p.op, p.spans with
    | .atomic fn _ _, [y] => match y.at_ with
      | none => none
      | some a =>
        if p.phase == .request && fn.combines && p.mod.order == .rlx && hartDie x.1 == gdie && !isWindow a.pa &&
            paModule a.pa == hartModule x.1 && (homeOf s a.pa).1 != gdie && !inTile s a.pa y.len && mayPerform s x.1 hs p true && decide ((dieState s gdie).stage < 2) &&
            (memError s (hartModule x.1) true p.spans).isNone then
          some (fn, y.len, a.pa)
        else none
    | _, _ => none

/-- WELT_COMBINING_WINDOW: the requests of a window, in arrival order, become one request with its deadline. Those that do not go with
the first are left. -/
def execWeltCombiningWindow (gdie : Nat) (ops : List (Hart × Nat)) (s : State) : Result :=
  match ops.eraseDups.find? fun x => (weltAsk s gdie x).isSome with
  | none => .next s
  | some x0 => match weltAsk s gdie x0 with
    | none => .next s
    | some (fn, width, pa) =>
      let go := ops.eraseDups.filter fun x => weltAsk s gdie x == some (fn, width, pa)
      let s1 := go.foldl (fun t x => updateOp t x.1 x.2 fun q => { q with phase := .waiting }) s
      .next { s1 with
        nextId := s1.nextId + 1
        combined := s1.combined ++ [⟨s1.nextId, gdie, fn, width, pa, go, s1.now + 100000, false⟩] }

def dropCombined (s : State) (n : Nat) : State := { s with combined := s.combined.filter fun c => c.n ≠ n }

/-- One contributor's atomic, in its place in the order. -/
def contribute (s : State) (x : Hart × Nat) : State :=
  match openOp s x.1 x.2 with
  | some (_, p) => doAtomic s x.1 p
  | none => s

/-- A combined request is discarded: every contributor raises EREPLY. -/
def discardCombined (s : State) (c : Combined) : State :=
  c.ops.foldl (fun t x => match openOp t x.1 x.2 with
    | some (_, p) => failOp t x.1 x.2 .ereply p.va
    | none => t) (dropCombined s c.n)

/-- COMBINED_REQUEST: it reaches the home, which performs it once before its deadline and drops it afterwards. -/
def execCombinedRequest (i : Nat) (s : State) : Result :=
  match s.combined.find? fun c => c.n == i && !c.dropped with
  | none => .next s
  | some c =>
    if c.deadline ≤ s.now then
      .next { s with combined := s.combined.map fun x => if x.n = i then { x with dropped := true } else x }
    else match cohRequest s (.combined c.n) .own none c.pa c.width 1 with
      | .wait s' => .next s'
      | .ok s' => .next (c.ops.foldl contribute (dropCombined s' i))

/-- WELT_QUERY: 10 µs after the deadline, a request that has not been performed is one that was dropped. -/
def execWeltQuery (i : Nat) (s : State) : Result :=
  match s.combined.find? fun c => c.n == i with
  | none => .next s
  | some c => if s.now < c.deadline + 10000 then .next s else .next (discardCombined s c)

/-! The host's registers (R354). -/

/-- A host write, which needs the link. -/
def hostWrite (s : State) (m : Nat) (f : HostState → HostState) : Result :=
  let x := (moduleOf s m).host
  if x.up then .next (setHost s m (f x)) else .next s

def execDmatail (m : Nat) (v : Word) (s : State) : Result := hostWrite s m fun x => { x with tail := v.truncate 16 }
def execDmactlEn (m : Nat) (en : Bool) (s : State) : Result := hostWrite s m fun x => { x with en := en }
def execDmactlReset (m : Nat) (s : State) : Result := hostWrite s m fun x => { x with head := 0, tail := 0 }
def execDmastatErrClear (m : Nat) (v : Word) (s : State) : Result :=
  hostWrite s m fun x => { x with err := x.err && !v.getLsbD 0 }
def execMbxbell (m : Nat) (v : Word) (s : State) : Result :=
  hostWrite s m fun x => if v.toNat < 16 then { x with bells := addNew x.bells v.toNat } else x
def execMbxdoneClear (m : Nat) (v : Word) (s : State) : Result := hostWrite s m fun x => { x with mbxdone := x.mbxdone &&& ~~~v }

/-- The registers without behaviour of their own, and the words of a mailbox that carry host to firmware. -/
def hostReg (x : HostState) (r : HostReg) (v : Word) : HostState :=
  match r with
  | .dmabase => if x.en then x else { x with base := v.truncate 56 &&& ~~~63#56 }
  | .dmasize =>
    let n := v.toNat % 32
    if x.en then x else { x with log2 := if 4 ≤ n ∧ n ≤ 16 then v.truncate 5 else 4 }
  | .mailbox off =>
    if off < 0x1000000 ∧ off % 0x10000 < 0x8000 ∧ off % 8 = 0 then { x with mailbox := assocSet x.mailbox off v } else x

def execRegisterWrite (m : Nat) (r : HostReg) (v : Word) (s : State) : Result := hostWrite s m fun x => hostReg x r v

/-- What the host reads from the BAR, eight aligned bytes at an offset (R354). -/
def barRead (x : HostState) (off : Nat) : Word :=
  if off % 8 ≠ 0 then 0
  else if off < 0x1000000 then (assocGet x.mailbox off).getD 0
  else match off with
    | 0x1000000 => x.base.zeroExtend 64
    | 0x1000008 => x.log2.zeroExtend 64
    | 0x1000010 => x.head.zeroExtend 64
    | 0x1000018 => x.tail.zeroExtend 64
    | 0x1000020 => if x.en then 1 else 0
    | 0x1000028 => (if x.err then 1 else 0) + (if dmaDue x then 2 else 0)
    | 0x1000048 => x.mbxdone
    | _ => 0

/-! The host DMA unit (R353). -/

/-- A descriptor (R353). -/
structure Descriptor where
  haddr : Nat
  maddr : Nat
  len : Nat
  out : Bool
  irq : Bool
  vec : Nat
  caddr : Nat
  reserved : Bool
  deriving DecidableEq, Repr

def descriptorOf (x : Nat) : Descriptor :=
  let f (lo n : Nat) : Nat := x / 2 ^ lo % 2 ^ n
  ⟨f 0 64, f 64 56, f 128 31, f 159 1 == 1, f 160 1 == 1, f 161 6, f 192 64, f 120 8 != 0 || f 167 25 != 0⟩

/-- Memory of the module, whole, at a physical address. -/
def ownMemory (s : State) (m pa len : Nat) : Bool := paModule pa == m && memRangeOk pa len && !onLostStack s pa len

/-- Where a completion word may go. -/
def completionOk (s : State) (m : Nat) (d : Descriptor) : Bool := d.caddr % 8 == 0 && ownMemory s m d.caddr 8

/-- A descriptor that can be performed: its ranges on the module, that of the data and that of the completion word, are good. R353 does not name memory
with an uncorrectable error: a transfer that reads it fails too (DESIGN CHOICE, log 115). -/
def descriptorOk (s : State) (m : Nat) (d : Descriptor) : Bool :=
  !d.reserved && decide (1 ≤ d.len ∧ d.len ≤ 2 ^ 30 ∧ d.vec ≤ 55) && ownMemory s m d.maddr d.len && completionOk s m d &&
    !(d.out && poisoned s d.maddr d.len)

/-- The descriptor at an address of the ring. One that cannot be read has no place for a completion word. -/
def descriptorAt (s : State) (m at_ : Nat) : Descriptor :=
  let d := descriptorOf (memNat s.mem at_ 32)
  if ownMemory s m at_ 32 && !poisoned s at_ 32 then d else { d with reserved := true, caddr := 1 }

/-- The completion: the word, ERR, the vectors, the head (R353, R354). `bad` marks a failed descriptor. -/
def complete (s : State) (m : Nat) (d : Descriptor) (bad : Bool) : State :=
  let x := (moduleOf s m).host
  let idx := x.head.toNat % x.ring
  let w := 2 ^ 63 + (if bad then 2 ^ 62 else 0) + idx
  let s1 := if completionOk s m d then writeMem s d.caddr (leBytes 8 w) else s
  let s2 := setHost s1 m { x with
    err := x.err || bad
    head := BitVec.ofNat 16 ((idx + 1) % x.ring) }
  let s3 := if bad && !x.err then raiseMsix s2 m 56 else s2
  if d.irq && decide (d.vec ≤ 55) then raiseMsix s3 m d.vec else s3

/-- The ranges a descriptor touches, and how: the unit keeps its place in the order of arrival until it has them all (R236). -/
def dmaAccess (s : State) (m : Nat) (d : Descriptor) (ok : Bool) : CohResult :=
  let word : List Range := if completionOk s m d then [(d.caddr, 8, 1)] else []
  let data : List Range := if ok then [(d.maddr, d.len, 1)] else []
  (cohAsk s (.dma m) (data ++ word) true (if d.out then .read else .own) none data).bind fun s' => cohAsk s' (.dma m) word false .own none word

/-- DMA_DESCRIPTOR: the unit performs the descriptor at its head. -/
def execDmaDescriptor (m : Nat) (s : State) : Result :=
  let x := (moduleOf s m).host
  if !dmaDue x || (moduleOf s m).stopped then .next s
  else
    let at_ := x.base.toNat + 32 * (x.head.toNat % x.ring)
    let d := descriptorAt s m at_
    let ok := x.up && descriptorOk s m d && !Config.freeBool s.free
    match (cohAsk s (.dma m) [(at_, 32, 1)] true .read none [(at_, 32, 1)]).bind fun t => dmaAccess t m d ok with
    | .wait s' => .next s'
    | .ok s' =>
      let data := if d.out then memBytes s'.mem d.maddr d.len else (List.range d.len).map (Config.hostByte s.free)
      let s1 := if ok && !d.out then writeMem (spoil s' d.maddr d.len) d.maddr data else s'
      let s2 := recordInput { s1 with free := s.free + 1 } m (.dma (x.head.toNat % x.ring) d.maddr d.caddr (if ok then data else []))
      .next (complete s2 m d !ok)

/-! The host link (R355). -/

/-- HOST_LINK_DOWN: the host's copies are lost, requests that wait for it fail, and descriptors fail from now on. -/
def execHostLinkDown (m : Nat) (s : State) : Result := .next (linkDown s m)

/-- HOST_LINK_RETRAINING: the link retrains, or comes back; not while the module stays in recovery (R362). -/
def execHostLinkRetraining (m : Nat) (s : State) : Result :=
  if !(moduleOf s m).inService then .next s else .next (raiseMsix (setHost s m { (moduleOf s m).host with up := true }) m 59)

/-! Corrected errors and spares (R357, R358). -/

/-- A corrected soft error is counted, and by channel where it lies in HBM. -/
def correctedError (s : State) (m : Nat) (ch : Option (Nat × Nat)) : State :=
  let ms := moduleOf s m
  setModule s m { ms with
    corrected := ms.corrected + 1
    channelErrors := ch.elim ms.channelErrors fun c => assocSet ms.channelErrors c ((assocGet ms.channelErrors c).getD 0 + 1) }

/-- The first failing channel of a stack moves to its spare; a second is only reported. -/
def spareChannel (s : State) (m : Nat) (ch : Nat × Nat) : State :=
  let ms := moduleOf s m
  match assocGet ms.spared ch.1 with
  | none => setModule s m { ms with spared := ms.spared ++ [ch] }
  | some c => if c = ch.2 || ms.reported.contains ch then s else setModule s m { ms with reported := ms.reported ++ [ch] }

/-- The corrected errors of a channel have passed firmware's threshold. -/
def channelFails (ms : ModuleState) (ch : Nat × Nat) : Bool := decide (ms.threshold < (assocGet ms.channelErrors ch).getD 0)

/-- CHANNEL_SPARING. -/
def execChannelSparing (m stack channel : Nat) (s : State) : Result :=
  if channelFails (moduleOf s m) (stack, channel) then .next (spareChannel s m (stack, channel)) else .next s

/-! The fatal dump (R360). -/

/-- The bottom of the dump region: the top 1 GiB of the HBM on a die. -/
def dumpBase (gdie : Nat) : Nat := ((Config.stackRanges gdie).foldl (fun n r => max n (r.1 + r.2)) 0) - 2 ^ 30

/-- The 64-byte header. -/
def dumpHeader (s : State) (m : Nat) (cause : Word) : List Byte :=
  leBytes 64 (0x44504D46 + 2 ^ 32 + ((liveDies s m).foldl (fun n d => n + 2 ^ d) 0) * 2 ^ 48 + (timeWord s m).toNat * 2 ^ 64 +
    cause.toNat * 2 ^ 128 + Config.dumpOffset 5 % 2 ^ 64 * 2 ^ 192)

/-- The strand records of the module's slots. -/
def dumpRecords (s : State) (m : Nat) : List Byte :=
  s.harts.flatMap fun (h, hs) => match h with
    | .strand c n => if coreModule c = m then recordBytes (taken s h hs) (infoOf (coreOf s c) c n 0 0) else []
    | .engine _ => []

/-- The tile images and the frozen images of the module's cores. -/
def dumpTiles (s : State) (m : Nat) : List Byte :=
  s.cores.flatMap fun (c, cs) =>
    if coreModule c ≠ m then []
    else ((cs.tiles.toList.filter fun x => shapeValid x.shape).flatMap tileImage) ++ match cs.frozen with
      | some f => imageBytes s.nextId f.slot
      | none => []

/-- A list of numbers of eight bytes. -/
def dumpWords (xs : List Nat) : List Byte := xs.flatMap fun x => leBytes 8 (x % 2 ^ 64)

/-- A number or nothing, as one number. -/
def dumpOption (x : Option Nat) : Nat := x.elim 0 (· + 1)

/-- The home-slice directories of the module: its grains and its tiles. -/
def dumpDirectories (s : State) (m : Nat) : List Byte :=
  (s.grains.flatMap fun (b, g) => if paModule b ≠ m then [] else
    dumpWords [b, g.size, dumpOption g.owner, g.vec.toNat, g.dies.toNat, g.host.toNat + 2 * g.hostX.toNat]) ++
  s.tiles.flatMap fun t => if paModule t.base ≠ m then [] else
    dumpWords ([t.base, dumpOption t.owner, t.vec.toNat, t.dies.toNat, t.host.toNat + 2 * t.hostX.toNat, t.sectors.length] ++ t.sectors)

/-- Bytes behind their number. -/
def dumpBytes (bs : List Byte) : List Byte := dumpWords [bs.length] ++ bs

/-- What a store or a launch takes from its hart. -/
def dumpPoster (x : Poster) : List Byte := dumpWords [x.gang, (ptbrWord x.ptbr).toNat, x.priv.toNat, x.tvec.toNat, x.tscr.toNat]

/-- A parked packet (R331): a store with its hart, its pieces and its data, or a launch message. -/
def dumpPacket : Packet → List Byte
  | .store a => dumpWords ([0, hartCode a.hart, a.uid, a.p.spans.length] ++
      a.p.spans.flatMap fun x => [x.va.toNat, x.len, dumpOption (x.at_.map (·.pa))]) ++ dumpPoster a.p.by_ ++ (match a.p.op with
        | .store xs | .saveImage _ xs => xs.flatMap dumpBytes
        | .storeBits bit width v => dumpWords [bit, width, v.toNat]
        | .barInit v => dumpWords [v.toNat]
        | _ => [])
  | .launch target parent entry arg by_ => dumpWords [1, target, parent, entry.toNat, arg.toNat] ++ dumpPoster by_

/-- A report of a gang's action (R327): its module, TIME, LATE and FB, and the scoreboards it carries. -/
def dumpReport (r : Report) : List Byte :=
  dumpWords ([r.from_, r.time, (if r.late then 1 else 0) + (if r.fb then 2 else 0), r.boards.length] ++ r.boards.flatMap fun b => b.length :: b)

/-- A timed-launch record (R215, R325), with the reports that came for it. -/
def dumpTimed (t : Timed) : List Byte :=
  dumpWords ([t.act, t.gang, t.start, t.tol, t.ctx, t.mset.length] ++ t.mset) ++ dumpPoster t.by_ ++ dumpWords [t.reports.length] ++
    t.reports.flatMap dumpReport

/-- An entry of the input log (R361). -/
def dumpLog (x : Nat × LogItem) : List Byte := dumpWords [x.1] ++ match x.2 with
  | .dma i pa caddr data => dumpWords [0, i, pa, caddr] ++ dumpBytes data
  | .hostWrite pa data => dumpWords [1, pa] ++ dumpBytes data
  | .timed t => dumpWords [2] ++ dumpTimed t
  | .packet h => dumpWords [3, h.src, h.dst, hartCode h.hart, dumpOption h.gang, classCode h.cls, h.len]
  | .request src pa data => dumpWords [4, hartCode src, pa] ++ dumpBytes data

/-- Dispatcher memory (R313): grids with their scoreboards, the tasks of the pool and those that wait, join records, timed-launch records, pending and
begun, with the reports of their gangs, the parked packets by gang, and the input log. -/
def dumpDispatcher (s : State) (m : Nat) : List Byte :=
  let ms := moduleOf s m
  areaBytes ms.grids (ms.pool.filterMap fun e => match e.item with
    | .task t => some t.va
    | .grid _ => none) ++
  dumpWords (ms.waiting.map fun t => t.va.toNat) ++
  ((List.range 4).flatMap fun d => (dieState s (4 * m + d)).joins.flatMap fun j => dumpWords [j.1, j.2.parent, j.2.count]) ++
  (allTimed s m).flatMap dumpTimed ++
  (ms.taken.flatMap fun t => dumpWords [t.gang, t.packets.length] ++ t.packets.flatMap dumpPacket) ++
  dumpWords [ms.recording.log.length] ++ ms.recording.log.flatMap dumpLog

/-- The counters of the links, and of errors. -/
def dumpCounters (s : State) (m : Nat) : List Byte :=
  let ms := moduleOf s m
  (ms.ports.flatMap fun (p, x) => dumpWords [p, x.acks, x.naks, x.replays]) ++
  dumpWords [ms.corrected] ++ (ms.channelErrors.flatMap fun (c, n) => dumpWords [c.1, c.2, n]) ++ dumpWords [ms.counted, ms.recording.drops]

/-- The sections of a dump, in R360's order. -/
def dumpSections (s : State) (m : Nat) : List (List Byte) :=
  [dumpRecords s m, dumpTiles s m, dumpDirectories s m, dumpDispatcher s m, dumpCounters s m]

/-- The section table: the offset and the length of each section. R360 gives neither its layout nor that of the last three sections (DESIGN CHOICE,
log 57). -/
def sectionTable (xs : List (List Byte)) : List Byte := xs.zipIdx.flatMap fun (x, i) => dumpWords [Config.dumpOffset i, x.length]

/-- MCHK is raised: vector 60, every hart stops, and firmware writes the dump. -/
def machineCheck (s : State) (m : Nat) (cause : Word) : State :=
  if (moduleOf s m).stopped then s
  else
    let s1 := raiseMsix s m 60
    let s2 := setModule s1 m { moduleOf s1 m with stopped := true }
    match (liveDies s m).head? with
    | none => s2
    | some d =>
      let base := dumpBase (4 * m + d)
      let xs := dumpSections s m
      let s3 := (xs ++ [sectionTable xs]).zipIdx.foldl (fun t (b, i) => writeMem t (base + Config.dumpOffset i) b) { s2 with free := s.free + 1 }
      writeMem s3 base (dumpHeader s m cause)

/-- MCHK (R360). -/
def execMchk (m : Nat) (cause : Word) (s : State) : Result := .next (machineCheck s m cause)

/-- Takes a die out of service. -/
def dieOut (s : State) (gdie : Nat) : State := setDie s gdie { dieState s gdie with inService := false }

/-- THERMAL_TRIP: MCHK, the dump, and no more power for the dies (R363). -/
def execThermalTrip (m die : Nat) (s : State) : Result :=
  let _ := die
  let s1 := machineCheck s m (Config.freeWord s.free)
  .next ((List.range 4).foldl (fun t d => dieOut t (4 * m + d)) { s1 with free := s1.free + 1 })

/-! Remap tables (R3, R356). -/

/-- The core numbers of a cluster, each with the physical core the table gives it: of its nine physical cores, numbers 0 to 7 are the first
eight and the ninth is the spare. A working core keeps its own number, and the number of a failed one goes to a core in reserve: the spare, and
with two failures core 7 after it, whose number then stays unusable (R3, R356; which number falls away is a DESIGN CHOICE, log 84). -/
def remapOf (failed : List Nat) (g : Nat) : List Nat :=
  let ok (i : Nat) : Bool := !failed.contains (9 * g + i)
  let k := min 8 ((List.range 9).filter ok).length
  let reserve := (8 :: (List.range (8 - k)).map (k + ·)).filter ok
  (List.range k).map fun n => 9 * g + (if ok n then n else reserve.getD ((List.range n).filter fun i => !ok i).length 8)

/-- The core numbers of a cluster that a remap table leaves without a physical core stay unusable. -/
def useCores (s : State) (gdie g n : Nat) : State :=
  (List.range 8).foldl (fun t i =>
    let c := gdie * 256 + g * 8 + i
    if (coreOf t c).usable = decide (i < n) then t else setCore t c { coreOf t c with usable := decide (i < n) }) s

/-- The physical core behind a core number. -/
def physicalCore (s : State) (c : Nat) : Nat :=
  let g := c % 256 / 8
  ((assocGet (dieState s (coreDie c)).remap g).getD (remapOf [] g)).getD (c % 8) (9 * g + 8)

/-- Self-test of a die: it may find further cores failed, and firmware writes the remap tables (R356). -/
def selfTest (s : State) (gdie : Nat) : State :=
  let ds := dieState s gdie
  let failed := ((Config.failedCores s.free).filter (· < 288)).foldl addNew ds.failed
  let remap := (List.range 32).map fun g => (g, remapOf failed g)
  let s1 := setDie { s with free := s.free + 1 } gdie { ds with failed := failed, remap := remap }
  remap.foldl (fun t x => useCores t gdie x.1 x.2.length) s1

/-! Warm reset of a die (R359). -/

/-- Contexts with strands or engines on a die. -/
def dieGangs (s : State) (gdie : Nat) : List Nat :=
  (s.harts.filterMap fun (h, hs) => if hartDie h = gdie then some hs.id.gang else none).eraseDups

/-- Firmware posts the take of a context, with an area of its own (R283, R284). -/
def postTake (m : Nat) (s : State) (gang : Nat) : State :=
  let ctx := Config.firmwareArea s.nextId
  let mem := memSetBytes s.mem ctx (leBytes 64 ((ctx + 64) * 2 ^ 64 + 2 ^ 16 * 2 ^ 128 + (ctx + 64 + 2 ^ 16 * 0x1800) * 2 ^ 192))
  let t : Timed := ⟨s.nextId, 1, gang, timeOf s m, 2 ^ 64, ctx, [m], ⟨gang, ⟨0, 0⟩, 1, 0, 0⟩, false, [], false⟩
  { setModule { s with mem := mem } m { moduleOf s m with timed := (moduleOf s m).timed ++ [t] } with nextId := s.nextId + 1 }

/-- A strand or engine that could not be taken is discarded, and its context is lost. -/
def discardHart (m : Nat) (s : State) (x : Hart × HartState) : State :=
  let ms := moduleOf s m
  let s1 := setModule s m { ms with lost := addNew ms.lost x.2.id.gang }
  groupTaken (dropHart (leaveLong (withdraw s1 x.2.id.uid) x.2.id.uid) x.1) x.2.id.group

/-- Firmware's takes on a module go on: each strand reaches its clean point, and what a take that has ended has left cannot be taken. -/
def takesOpen (s : State) (m gdie : Nat) : Bool :=
  (dieGangs s gdie).any fun g => (moduleOf s m).timed.any (fun t => t.gang == g && t.act == 1) || takeRunning s m g

/-- Step 1: contexts are taken. -/
def warmTake (s : State) (m gdie : Nat) : State :=
  let s1 := raiseMsix (setDie s gdie { dieState s gdie with stage := 1 }) m 58
  (dieGangs s gdie).foldl (postTake m) s1

/-- Step 2: what is left on the die is discarded, with the combined requests of its welts. The die event names the contexts lost, and the physical
ranges of the die's stacks. -/
def warmDrain (s : State) (m gdie : Nat) : State :=
  let s0 := setModule s m { moduleOf s m with dieEvents := (moduleOf s m).dieEvents ++ [⟨gdie, dieGangs s gdie, Config.stackRanges gdie⟩] }
  let s1 := (s0.harts.filter fun x => hartDie x.1 == gdie).foldl (discardHart m) s0
  let s2 := (s1.combined.filter fun c => c.die == gdie).foldl discardCombined s1
  setDie s2 gdie { dieState s2 gdie with stage := 2 }

/-- What a die has sent is still on its way: its accepted stores, but for those that a full port holds. -/
def dieBusy (s : State) (gdie : Nat) : Bool :=
  s.stores.any fun a => hartDie a.hart == gdie && !a.performed && !a.p.spans.any fun x => x.at_.any fun q => isWindow q.pa && (windowParts q.pa).2.1 == 5

/-- The homes write back and drop what they hold of some memory; what the host has modified there comes first (R242, R243). -/
def writeBack (s : State) (here : Nat → Bool) (f : State → State) : State :=
  let gs := s.grains.filter fun g => here g.1
  let ts := s.tiles.filter fun t => here t.base
  match hostUnits s .own (gs.map (fun g => .line g.1 g.2.size) ++ ts.map fun t => .tile t.base) with
  | u :: us => sendSnoops s (.unit 0) .own (u :: us)
  | [] => f { s with
      grains := s.grains.filter fun g => !here g.1
      tiles := s.tiles.filter fun t => !here t.base
      stubs := s.stubs.filter fun x => !here x.2 }

/-- Step 3: the home slices write back, and their tiles return to line state. -/
def warmWriteBack (s : State) (gdie : Nat) : State :=
  writeBack s (fun pa => (homeOf s pa).1 == gdie) fun t => setDie t gdie { dieState t gdie with stage := 3 }

/-- An operation waits at a core of a die. -/
def waitsAt (gdie : Nat) (p : Pending) : Bool := p.phase == .waiting && p.windowCores.any fun c => coreDie c == gdie

/-- Step 5: requests that wait at the cores of the die get error replies. -/
def dieAnswers (s : State) (gdie : Nat) : State :=
  s.harts.foldl (fun t (h, hs) => (hs.run.ops.filter (waitsAt gdie)).foldl (fun u p => failOp u h p.seq .ereply p.va) t) s

/-- Step 6: the die is reset and self-tested. -/
def resetDie (s : State) (gdie : Nat) : State :=
  let inScratch (a : Nat) : Bool := isWindow a && coreDie (windowParts a).1 == gdie
  selfTest { s with
    cores := s.cores.filter fun x => coreDie x.1 ≠ gdie
    kicks := s.kicks.filter fun x => x.1 / 32 ≠ gdie
    engines := s.engines.filter fun x => x.1 / 32 ≠ gdie
    stores := s.stores.filter fun a => hartDie a.hart ≠ gdie
    prefetches := s.prefetches.filter fun x => coreDie x.1 ≠ gdie
    mem := s.mem.filter fun c => !inScratch c.1
    poison := s.poison.filter fun a => !inScratch a } gdie

/-- A die as its reset leaves it: what it knows of its cores stays. -/
def freshDie (s : State) (gdie : Nat) : DieState := { DieState.reset with failed := (dieState s gdie).failed, remap := (dieState s gdie).remap }

/-- Step 7: the die is admitted again under the normal hash. -/
def warmAdmit (s : State) (m gdie : Nat) : State :=
  let normal := setDie s gdie { freshDie s gdie with inService := true }
  writeBack s (fun pa => (homeOf normal pa).1 == gdie) fun t => raiseMsix (setDie t gdie { freshDie t gdie with inService := true }) m 58

/-- A die of a module is in warm reset. -/
def resetting (s : State) (d : Nat) : Bool := decide (1 ≤ (dieState s d).stage ∧ (dieState s d).stage ≤ 6)

/-- A warm reset goes on by one step of R359, once the one before has ended. Where the die's home slices cannot write back, which only the part
knows (a free choice), or a second die fails meanwhile, the module raises MCHK. A die held out of service since bring-up, at stage 7, is
admitted again (R364). -/
def warmStep (s : State) (m gdie : Nat) : State :=
  let ds := dieState s gdie
  match ds.stage with
  | 0 =>
    if (List.range 4).any (fun d => resetting s (4 * m + d)) || Config.freeBool s.free then
      { machineCheck s m (Config.freeWord s.free) with free := s.free + 2 }
    else warmTake { s with free := s.free + 1 } m gdie
  | 1 => if takesOpen s m gdie then s else warmDrain s m gdie
  | 2 => if dieBusy s gdie then s else warmWriteBack s gdie
  | 3 => setDie s gdie { ds with inService := false, stage := 4 }
  | 4 => dieAnswers (setDie s gdie { ds with stage := 5 }) gdie
  | 5 => resetDie (setDie s gdie { freshDie s gdie with inService := false, stage := 6 }) gdie
  | _ => warmAdmit s m gdie

/-- WARM_RESET. -/
def execWarmReset (m die : Nat) (s : State) : Result :=
  if (moduleOf s m).stopped then .next s else .next (warmStep s m (4 * m + die))

/-- A core that fails is replaced when its die's remap tables are next written, in the warm reset that its failure starts (R356). -/
def failCore (s : State) (c : Nat) : State :=
  let ds := dieState s (coreDie c)
  setDie s (coreDie c) { ds with failed := addNew ds.failed (physicalCore s c) }

/-- UNCORRECTABLE_ERROR, by where it lies (R349, R356, R358). -/
def execUncorrectableError (site : ErrorSite) (s : State) : Result :=
  match site with
  | .data pa => .next (poisonRange s pa 1)
  | .register core => .next { machineCheck s (coreModule core) (Config.freeWord s.free) with free := s.free + 2 }
  | .core c => execWarmReset (coreDie c / 4) (coreDie c % 4) (failCore s c)
  | .control gdie | .welt gdie => execWarmReset (gdie / 4) (gdie % 4) s

/-! Firmware and bring-up (R362, R364, R365). -/

/-- What a report's signature covers: its fields in the order in which R362 names them (DESIGN CHOICE, log 83). -/
def reportBytes (digests : List (BitVec 256)) (version : BitVec 32) (nonce : Word) (m : Nat) : List Byte :=
  digests.flatMap (fun d => beBytes 32 d.toNat) ++ beBytes 4 version.toNat ++ beBytes 8 nonce.toNat ++ beBytes 2 m

/-- Firmware has written a response to a mailbox: its bell is answered, and its done bit set (R354). -/
def respond (s : State) (m n : Nat) : State :=
  let x := (moduleOf s m).host
  let s1 := setHost s m { x with
    bells := x.bells.filter (· ≠ n)
    mbxdone := x.mbxdone ||| (1 <<< n) }
  if x.mbxdone.getLsbD n then s1 else raiseMsix s1 m 57

/-- A word of the half of a mailbox that carries firmware to host. -/
def mailWord (s : State) (m off : Nat) (v : Word) : State :=
  let x := (moduleOf s m).host
  if off < 0x1000000 ∧ 0x8000 ≤ off % 0x10000 ∧ off % 8 = 0 then setHost s m { x with mailbox := assocSet x.mailbox off v } else s

/-- The report as a mailbox carries it, in firmware's own format (R354; DESIGN CHOICE, log 60): the fields signed, the signature, the certificate. -/
def mailReport (x : Attest) : List Word :=
  let bs := reportBytes x.digests x.version x.nonce x.module_ ++ beBytes 32 x.sig.r ++ beBytes 32 x.sig.s ++ x.cert
  wordsOf (leNat bs) ((bs.length + 7) / 8)

/-- ATTESTATION_REQUEST: firmware returns its report, signed with the module's identity key, through the mailbox whose bell rang first if one
did. The number that ECDSA draws for each signature is free. -/
def execAttestationRequest (m : Nat) (nonce : Word) (s : State) : Result :=
  let ms := moduleOf s m
  let k := Config.freeNat s.free % (p256N - 1) + 1
  let sig := ecdsaSign (Config.identityKey m) k (sha256 (reportBytes ms.digests ms.secver nonce m))
  let x : Attest := ⟨ms.digests, ms.secver, nonce, m, sig, Config.certificate m⟩
  let s1 := setModule { s with free := s.free + 1 } m { ms with attest := some x }
  .next (match ms.host.bells.head? with
    | none => s1
    | some n => respond ((mailReport x).zipIdx.foldl (fun t (w, i) => mailWord t m (n * 0x10000 + 0x8000 + 8 * i) w) s1) m n)

/-- A cold reset of a module: everything it holds but its fused images, its clock, and which of its cores have failed (R356). -/
def coldReset (s : State) (m : Nat) : State :=
  let ms := moduleOf s m
  let mine (pa : Nat) : Bool := paModule pa == m
  { s with
    mem := s.mem.filter fun c => !mine c.1
    poison := s.poison.filter fun a => !mine a
    harts := s.harts.filter fun x => hartModule x.1 != m
    cores := s.cores.filter fun x => coreModule x.1 != m
    dies := s.dies.filterMap fun (d, ds) =>
      if d / 4 ≠ m then some (d, ds) else if ds.failed.isEmpty then none else some (d, { DieState.reset with failed := ds.failed })
    modules := assocSet s.modules m { ModuleState.reset with
      time := ms.time
      peers := ms.peers }
    stores := s.stores.filter fun a => hartModule a.hart != m
    prefetches := s.prefetches.filter fun x => coreModule x.1 != m
    pushes := s.pushes.filter fun x => !s.harts.any fun y => hartModule y.1 == m && y.2.id.uid == x.target
    grains := s.grains.filter fun x => !mine x.1
    frames := s.frames.filter fun x => !mine x.1
    stubs := s.stubs.filter fun x => !mine x.2
    splits := s.splits.filter fun b => !mine b
    arrivals := s.arrivals.filter fun x => !x.ranges.any fun r => mine r.1
    longWait := s.longWait.filter fun u => !s.harts.any fun x => hartModule x.1 == m && x.2.id.uid == u
    tiles := s.tiles.filter fun t => !mine t.base
    snoops := s.snoops.filter fun x => !mine x.line
    copies := s.copies.filter fun x => !mine x.pa
    cells := s.cells.filter fun x => !mine x.pa
    combined := s.combined.filter fun c => c.die / 4 != m
    kicks := s.kicks.filter fun x => x.1 / 128 != m
    engines := s.engines.filter fun x => x.1 / 128 != m
    groups := s.groups.filter fun x => x.2.module_ != m
    ships := s.ships.filter fun x => coreModule x.core != m && coreModule x.dest != m }

/-- The boot ROM runs an image: its signature over its SHA-256 digest, under the key whose digest is fused, and its security version (R362). The
digest of a key is that of its two coordinates (DESIGN CHOICE, log 83). -/
def imageOk (m : Nat) (x : FirmwareImage) : Bool :=
  sha256 (beBytes 32 x.key.1 ++ beBytes 32 x.key.2) == Config.vendorDigest m && ecdsaVerify x.key (sha256 x.bytes) x.sig &&
    decide ((Config.leastVersion m).toNat ≤ x.version.toNat)

/-- The lowest security version of the images loaded. -/
def lowestVersion (xs : List FirmwareImage) : BitVec 32 :=
  BitVec.ofNat 32 (((xs.map fun x => x.version.toNat).min?).getD 0)

/-- Bytes of HBM held on a die, and the lowest of them. -/
def hbmSize (gdie : Nat) : Nat := ((Config.stackRanges gdie).map (·.2)).sum
def hbmBase (gdie : Nat) : Nat := (((Config.stackRanges gdie).map (·.1)).min?).getD 0

/-- The boot information block (R365): the size of HBM in service, and the regions reserved: dispatcher memory, the fatal dump, the parking areas. -/
def bootBlock (s : State) (m gdie : Nat) : List Byte :=
  ([((liveDies s m).map fun d => hbmSize (4 * m + d)).sum, m * 2 ^ 42 + dispatcherBase, 2 ^ 29, dumpBase gdie, 2 ^ 30, Config.parkingBase m, 2 ^ 28]
    : List Nat).flatMap (leBytes 8)

/-- Self-test of a module's dies; one that fails, which only the part knows, is held out of service (R364). -/
def testDies (s : State) (m : Nat) : State :=
  (List.range 4).foldl (fun t d =>
    let u := selfTest t (4 * m + d)
    if Config.freeBool u.free then
      setDie { u with free := u.free + 1 } (4 * m + d) { dieState u (4 * m + d) with inService := false, stage := 7 }
    else { u with free := u.free + 1 }) s

/-- Self-test of HBM: the failing channels it finds are spared (R357, R364). -/
def testChannels (s : State) (m : Nat) : State :=
  (Config.failedChannels s.free).foldl (fun t c => spareChannel t m c) { s with free := s.free + 1 }

/-- The fabric's ports are trained, those that have a peer (R340, R364). -/
def trainPorts (s : State) (m : Nat) : State :=
  (List.range 48).foldl (fun t p => if (portPeer t m p).isSome then trainPort t m p (Config.linkViews s.free p).1 (Config.linkViews s.free p).2 else t)
    { s with free := s.free + 1 }

/-- Firmware loads the supervisor image into HBM (R365). -/
def loadImage (s : State) (xs : List FirmwareImage) : State := match xs.find? (·.entry.isSome) with
  | some x => writeMem s x.base x.bytes
  | none => s

/-- A module that stays in recovery: only the management port reaches it (R362). -/
def inRecovery (s : State) (m : Nat) : State :=
  let ms := moduleOf s m
  setModule s m { ms with stopped := true, inService := false, host := { ms.host with up := false } }

/-- The boot strand of a die (R365): at the entry that the supervisor image names, with the address of the boot information block in g1. -/
def bootStrand (s : State) (m gdie : Nat) (xs : List FirmwareImage) : HartState :=
  let pc := ((xs.find? (·.entry.isSome)).bind (·.entry)).getD bootPc
  writeG { bootHart with pc := pc, id := { bootHart.id with uid := s.nextUid, k6 := BitVec.ofNat 64 m } } 1 (BitVec.ofNat 64 (hbmBase gdie))

/-- BRING_UP: verification decides whether the module leaves recovery; self-test, which dies, cores and channels are in service; ports are trained;
the boot strand is released on the lowest die. -/
def execBringUp (m : Nat) (s : State) : Result :=
  let xs := Config.firmwareImages s.free
  let s1 := { coldReset s m with free := s.free + 1 }
  if xs.isEmpty || !xs.all (imageOk m) then .next (inRecovery s1 m)
  else
    let known := setModule s1 m { moduleOf s1 m with digests := xs.map fun x => sha256 x.bytes, secver := lowestVersion xs }
    let s2 := trainPorts (testChannels (testDies known m) m) m
    match (liveDies s2 m).head? with
    | none => .next s2
    | some d =>
      let g := 4 * m + d
      let s3 := writeMem (loadImage { s2 with nextUid := s2.nextUid + 1 } xs) (hbmBase g) (bootBlock s2 m g)
      .next (install s3 (g * 256) 0 (bootStrand s2 m g xs))

/-! Firmware's settings. -/

/-- A number of members that firmware accepts for a peer set (R347): a power of two up to 4,096, or a prime below it. -/
def peerCountOk (n : Nat) : Bool :=
  ((List.range 13).any fun k => n == 2 ^ k) ||
    (decide (2 ≤ n ∧ n < 4096) && (List.range 63).all fun k => decide (n ≤ k + 2) || n % (k + 2) != 0)

/-- Firmware sets a value of a module. It accepts no extent outside R340 and no peer set outside R347. -/
def applySetting (s : State) (m : Nat) (x : Setting) : State :=
  let ms := moduleOf s m
  match x with
  | .hot t => setModule s m { ms with hotAt := t }
  | .cool t => setModule s m { ms with coolAt := t }
  | .hold t => setModule s m { ms with hold := t }
  | .remto t => setModule s m { ms with remto := t }
  | .bito t => setModule s m { ms with bito := t }
  | .ptpDomain n => setModule s m { ms with ptpDomain := n }
  | .ptpInterval t => setModule s m { ms with ptpInterval := t }
  | .extents e =>
    if 1 ≤ e.nx ∧ e.nx ≤ 32 ∧ 1 ≤ e.ny ∧ e.ny ≤ 32 ∧ 1 ≤ e.nv ∧ e.nv ≤ 4 ∧ 1 ≤ e.nw ∧ e.nw ≤ 4 then { s with extents := e } else s
  | .peerSet n ids => if 1 ≤ n && n ≤ 15 && peerCountOk ids.length then setModule s m { ms with peers := assocSet ms.peers n ids } else s
  | .record g pages on =>
    let gs := ms.recording.gangs.filter fun x => x.1 != g
    setModule s m { ms with recording := { ms.recording with gangs := if on then (g, pages) :: gs else gs } }
  | .threshold n => setModule s m { ms with threshold := n }
  | .mailbox off v => mailWord s m off v
  | .respond n => if n < 16 then respond s m n else s
  | .drainLog => setModule s m { ms with recording := { ms.recording with log := [] } }

end Sys2Proof.Machine
end

