-- ==== Sys2Proof/Machine/Dispatch.lean ====
section
/-!
DEFINITION. The meaning of every instruction, one arm per constructor of `Instr`.
-/

namespace Sys2Proof.Machine

def exec (i : Instr) (s : State) : Host.Outcome State Fault Refusal :=
  match i with
  | .add d a b => Sys2Proof.Machine.execAdd d a b s
  | .sub d a b => Sys2Proof.Machine.execSub d a b s
  | .mul d a b => Sys2Proof.Machine.execMul d a b s
  | .mulhs d a b => Sys2Proof.Machine.execMulhs d a b s
  | .and d a b => Sys2Proof.Machine.execAnd d a b s
  | .or d a b => Sys2Proof.Machine.execOr d a b s
  | .xor d a b => Sys2Proof.Machine.execXor d a b s
  | .andn d a b => Sys2Proof.Machine.execAndn d a b s
  | .shl d a b => Sys2Proof.Machine.execShl d a b s
  | .shr d a b => Sys2Proof.Machine.execShr d a b s
  | .sar d a b => Sys2Proof.Machine.execSar d a b s
  | .rol d a b => Sys2Proof.Machine.execRol d a b s
  | .ror d a b => Sys2Proof.Machine.execRor d a b s
  | .min d a b => Sys2Proof.Machine.execMin d a b s
  | .max d a b => Sys2Proof.Machine.execMax d a b s
  | .minn d a b => Sys2Proof.Machine.execMinn d a b s
  | .maxn d a b => Sys2Proof.Machine.execMaxn d a b s
  | .mulhn d a b => Sys2Proof.Machine.execMulhn d a b s
  | .addImm d a imm => Sys2Proof.Machine.execAddImm d a imm s
  | .subImm d a imm => Sys2Proof.Machine.execSubImm d a imm s
  | .mulImm d a imm => Sys2Proof.Machine.execMulImm d a imm s
  | .mulhsImm d a imm => Sys2Proof.Machine.execMulhsImm d a imm s
  | .andImm d a imm => Sys2Proof.Machine.execAndImm d a imm s
  | .orImm d a imm => Sys2Proof.Machine.execOrImm d a imm s
  | .xorImm d a imm => Sys2Proof.Machine.execXorImm d a imm s
  | .andnImm d a imm => Sys2Proof.Machine.execAndnImm d a imm s
  | .shlImm d a imm => Sys2Proof.Machine.execShlImm d a imm s
  | .shrImm d a imm => Sys2Proof.Machine.execShrImm d a imm s
  | .sarImm d a imm => Sys2Proof.Machine.execSarImm d a imm s
  | .rolImm d a imm => Sys2Proof.Machine.execRolImm d a imm s
  | .rorImm d a imm => Sys2Proof.Machine.execRorImm d a imm s
  | .minImm d a imm => Sys2Proof.Machine.execMinImm d a imm s
  | .maxImm d a imm => Sys2Proof.Machine.execMaxImm d a imm s
  | .minnImm d a imm => Sys2Proof.Machine.execMinnImm d a imm s
  | .maxnImm d a imm => Sys2Proof.Machine.execMaxnImm d a imm s
  | .mulhnImm d a imm => Sys2Proof.Machine.execMulhnImm d a imm s
  | .cmpeq d a b => Sys2Proof.Machine.execCmpeq d a b s
  | .cmpne d a b => Sys2Proof.Machine.execCmpne d a b s
  | .cmplt d a b => Sys2Proof.Machine.execCmplt d a b s
  | .cmple d a b => Sys2Proof.Machine.execCmple d a b s
  | .cmpltn d a b => Sys2Proof.Machine.execCmpltn d a b s
  | .cmplen d a b => Sys2Proof.Machine.execCmplen d a b s
  | .cmpeqImm d a imm => Sys2Proof.Machine.execCmpeqImm d a imm s
  | .cmpneImm d a imm => Sys2Proof.Machine.execCmpneImm d a imm s
  | .cmpltImm d a imm => Sys2Proof.Machine.execCmpltImm d a imm s
  | .cmpleImm d a imm => Sys2Proof.Machine.execCmpleImm d a imm s
  | .cmpltnImm d a imm => Sys2Proof.Machine.execCmpltnImm d a imm s
  | .cmplenImm d a imm => Sys2Proof.Machine.execCmplenImm d a imm s
  | .sel d a b c => Sys2Proof.Machine.execSel d a b c s
  | .bext d a pos len => Sys2Proof.Machine.execBext d a pos len s
  | .bexts d a pos len => Sys2Proof.Machine.execBexts d a pos len s
  | .bins d a b pos len => Sys2Proof.Machine.execBins d a b pos len s
  | .clz d a => Sys2Proof.Machine.execClz d a s
  | .ctz d a => Sys2Proof.Machine.execCtz d a s
  | .popc d a => Sys2Proof.Machine.execPopc d a s
  | .brev d a => Sys2Proof.Machine.execBrev d a s
  | .bswap d a => Sys2Proof.Machine.execBswap d a s
  | .div d a b => Sys2Proof.Machine.execDiv d a b s
  | .divn d a b => Sys2Proof.Machine.execDivn d a b s
  | .rem d a b => Sys2Proof.Machine.execRem d a b s
  | .remn d a b => Sys2Proof.Machine.execRemn d a b s
  | .rng d key ctr => Sys2Proof.Machine.execRng d key ctr s
  | .rngf32 d key ctr => Sys2Proof.Machine.execRngf32 d key ctr s
  | .rngf64 d key ctr => Sys2Proof.Machine.execRngf64 d key ctr s
  | .empty r => Sys2Proof.Machine.execEmpty r s
  | .fill r => Sys2Proof.Machine.execFill r s
  | .isfull d a => Sys2Proof.Machine.execIsfull d a s
  | .putr c off val disp m => Sys2Proof.Machine.execPutr c off val disp m s
  | .ldl d imm => Sys2Proof.Machine.execLdl d imm s
  | .br off => Sys2Proof.Machine.execBr off s
  | .bz a off => Sys2Proof.Machine.execBz a off s
  | .bnz a off => Sys2Proof.Machine.execBnz a off s
  | .bltz a off => Sys2Proof.Machine.execBltz a off s
  | .bgez a off => Sys2Proof.Machine.execBgez a off s
  | .call link off => Sys2Proof.Machine.execCall link off s
  | .jr a => Sys2Proof.Machine.execJr a s
  | .callr link a => Sys2Proof.Machine.execCallr link a s
  | .ret a => Sys2Proof.Machine.execRet a s
  | .wait mask => Sys2Proof.Machine.execWait mask s
  | .ldN8 d base disp m => Sys2Proof.Machine.execLdN8 d base disp m s
  | .ldN16 d base disp m => Sys2Proof.Machine.execLdN16 d base disp m s
  | .ldN32 d base disp m => Sys2Proof.Machine.execLdN32 d base disp m s
  | .ld d base disp m => Sys2Proof.Machine.execLd d base disp m s
  | .ldS8 d base disp m => Sys2Proof.Machine.execLdS8 d base disp m s
  | .ldS16 d base disp m => Sys2Proof.Machine.execLdS16 d base disp m s
  | .ldS32 d base disp m => Sys2Proof.Machine.execLdS32 d base disp m s
  | .windowLdN8 kind d off disp c m => Sys2Proof.Machine.execWindowLdN8 kind d off disp c m s
  | .windowLdN16 kind d off disp c m => Sys2Proof.Machine.execWindowLdN16 kind d off disp c m s
  | .windowLdN32 kind d off disp c m => Sys2Proof.Machine.execWindowLdN32 kind d off disp c m s
  | .windowLd kind d off disp c m => Sys2Proof.Machine.execWindowLd kind d off disp c m s
  | .windowLdS8 kind d off disp c m => Sys2Proof.Machine.execWindowLdS8 kind d off disp c m s
  | .windowLdS16 kind d off disp c m => Sys2Proof.Machine.execWindowLdS16 kind d off disp c m s
  | .windowLdS32 kind d off disp c m => Sys2Proof.Machine.execWindowLdS32 kind d off disp c m s
  | .ldbit d a b wm1 sx m => Sys2Proof.Machine.execLdbit d a b wm1 sx m s
  | .stN8 base data disp m => Sys2Proof.Machine.execStN8 base data disp m s
  | .stN16 base data disp m => Sys2Proof.Machine.execStN16 base data disp m s
  | .stN32 base data disp m => Sys2Proof.Machine.execStN32 base data disp m s
  | .st base data disp m => Sys2Proof.Machine.execSt base data disp m s
  | .stZ base disp m => Sys2Proof.Machine.execStZ base disp m s
  | .windowStN8 kind off data disp c m => Sys2Proof.Machine.execWindowStN8 kind off data disp c m s
  | .windowStN16 kind off data disp c m => Sys2Proof.Machine.execWindowStN16 kind off data disp c m s
  | .windowStN32 kind off data disp c m => Sys2Proof.Machine.execWindowStN32 kind off data disp c m s
  | .windowSt kind off data disp c m => Sys2Proof.Machine.execWindowSt kind off data disp c m s
  | .windowStZ kind off disp c m => Sys2Proof.Machine.execWindowStZ kind off disp c m s
  | .stbit a b c wm1 m => Sys2Proof.Machine.execStbit a b c wm1 m s
  | .take d w m => Sys2Proof.Machine.execTake d w m s
  | .put w data m => Sys2Proof.Machine.execPut w data m s
  | .peek d w m => Sys2Proof.Machine.execPeek d w m s
  | .fnc m => Sys2Proof.Machine.execFnc m s
  | .fncLt sc => Sys2Proof.Machine.execFncLt sc s
  | .fncHv sc => Sys2Proof.Machine.execFncHv sc s
  | .pref base disp sc => Sys2Proof.Machine.execPref base disp sc s
  | .prefw base disp sc => Sys2Proof.Machine.execPrefw base disp sc s
  | .cflush base disp sc => Sys2Proof.Machine.execCflush base disp sc s
  | .cinval base disp sc => Sys2Proof.Machine.execCinval base disp sc s
  | .isync sc => Sys2Proof.Machine.execIsync sc s
  | .tdecl d base desc disp m => Sys2Proof.Machine.execTdecl d base desc disp m s
  | .tundecl d base disp m => Sys2Proof.Machine.execTundecl d base disp m s
  | .tfwd d base t disp m => Sys2Proof.Machine.execTfwd d base t disp m s
  | .mig d base disp sc => Sys2Proof.Machine.execMig d base disp sc s
  | .swap d base b disp w32 m => Sys2Proof.Machine.execSwap d base b disp w32 m s
  | .cas d base b c disp w32 m => Sys2Proof.Machine.execCas d base b c disp w32 m s
  | .aadd d base b disp w32 m => Sys2Proof.Machine.execAadd d base b disp w32 m s
  | .aand d base b disp w32 m => Sys2Proof.Machine.execAand d base b disp w32 m s
  | .aor d base b disp w32 m => Sys2Proof.Machine.execAor d base b disp w32 m s
  | .axor d base b disp w32 m => Sys2Proof.Machine.execAxor d base b disp w32 m s
  | .amin d base b disp w32 m => Sys2Proof.Machine.execAmin d base b disp w32 m s
  | .amax d base b disp w32 m => Sys2Proof.Machine.execAmax d base b disp w32 m s
  | .aminn d base b disp w32 m => Sys2Proof.Machine.execAminn d base b disp w32 m s
  | .amaxn d base b disp w32 m => Sys2Proof.Machine.execAmaxn d base b disp w32 m s
  | .afadd d base b disp w32 m => Sys2Proof.Machine.execAfadd d base b disp w32 m s
  | .reddecl cell desc disp m => Sys2Proof.Machine.execReddecl cell desc disp m s
  | .redAdd cell slot val disp m => Sys2Proof.Machine.execRedAdd cell slot val disp m s
  | .redRd d cell disp m => Sys2Proof.Machine.execRedRd d cell disp m s
  | .binit w exp m => Sys2Proof.Machine.execBinit w exp m s
  | .barv d w cnt m => Sys2Proof.Machine.execBarv d w cnt m s
  | .bwait d w ph m => Sys2Proof.Machine.execBwait d w ph m s
  | .btest d w ph m => Sys2Proof.Machine.execBtest d w ph m s
  | .propose pair cell val gen disp m => Sys2Proof.Machine.execPropose pair cell val gen disp m s
  | .dread pair cell gen disp m => Sys2Proof.Machine.execDread pair cell gen disp m s
  | .dcell cell gen disp m => Sys2Proof.Machine.execDcell cell gen disp m s
  | .recycle d cell gen disp m => Sys2Proof.Machine.execRecycle d cell gen disp m s
  | .vadd d a b f => Sys2Proof.Machine.execVadd d a b f s
  | .vsub d a b f => Sys2Proof.Machine.execVsub d a b f s
  | .vmul d a b f => Sys2Proof.Machine.execVmul d a b f s
  | .vdiv d a b f => Sys2Proof.Machine.execVdiv d a b f s
  | .vmin d a b f => Sys2Proof.Machine.execVmin d a b f s
  | .vmax d a b f => Sys2Proof.Machine.execVmax d a b f s
  | .vabs d a f => Sys2Proof.Machine.execVabs d a f s
  | .vneg d a f => Sys2Proof.Machine.execVneg d a f s
  | .vsqrt d a f => Sys2Proof.Machine.execVsqrt d a f s
  | .vfma d a b c f => Sys2Proof.Machine.execVfma d a b c f s
  | .vfms d a b c f => Sys2Proof.Machine.execVfms d a b c f s
  | .vfnma d a b c f => Sys2Proof.Machine.execVfnma d a b c f s
  | .vfnms d a b c f => Sys2Proof.Machine.execVfnms d a b c f s
  | .viadd d a b f => Sys2Proof.Machine.execViadd d a b f s
  | .visub d a b f => Sys2Proof.Machine.execVisub d a b f s
  | .vimul d a b f => Sys2Proof.Machine.execVimul d a b f s
  | .vand d a b f => Sys2Proof.Machine.execVand d a b f s
  | .vor d a b f => Sys2Proof.Machine.execVor d a b f s
  | .vxor d a b f => Sys2Proof.Machine.execVxor d a b f s
  | .vshl d a b f => Sys2Proof.Machine.execVshl d a b f s
  | .vshr d a b f => Sys2Proof.Machine.execVshr d a b f s
  | .vsar d a b f => Sys2Proof.Machine.execVsar d a b f s
  | .viadds d a b f => Sys2Proof.Machine.execViadds d a b f s
  | .vcmpeq d a b f => Sys2Proof.Machine.execVcmpeq d a b f s
  | .vcmplt d a b f => Sys2Proof.Machine.execVcmplt d a b f s
  | .vcmple d a b f => Sys2Proof.Machine.execVcmple d a b f s
  | .vsel d a b c f => Sys2Proof.Machine.execVsel d a b c f s
  | .vperm d a b f => Sys2Proof.Machine.execVperm d a b f s
  | .vbcast d a f => Sys2Proof.Machine.execVbcast d a f s
  | .vext d a lane f => Sys2Proof.Machine.execVext d a lane f s
  | .vins d a b lane f => Sys2Proof.Machine.execVins d a b lane f s
  | .vrsum d a f => Sys2Proof.Machine.execVrsum d a f s
  | .vrmin d a f => Sys2Proof.Machine.execVrmin d a f s
  | .vrmax d a f => Sys2Proof.Machine.execVrmax d a f s
  | .vcvt d a f src => Sys2Proof.Machine.execVcvt d a f src s
  | .vnarrow d a b f src => Sys2Proof.Machine.execVnarrow d a b f src s
  | .vbdec d base elem disp => Sys2Proof.Machine.execVbdec d base elem disp s
  | .vbenc base desc c disp r => Sys2Proof.Machine.execVbenc base desc c disp r s
  | .vld d base disp m => Sys2Proof.Machine.execVld d base disp m s
  | .vst base b disp m => Sys2Proof.Machine.execVst base b disp m s
  | .vgath d base b w m => Sys2Proof.Machine.execVgath d base b w m s
  | .vscat base b c w m => Sys2Proof.Machine.execVscat base b c w m s
  | .vexp2 d a f => Sys2Proof.Machine.execVexp2 d a f s
  | .vlog2 d a f => Sys2Proof.Machine.execVlog2 d a f s
  | .vrcp d a f => Sys2Proof.Machine.execVrcp d a f s
  | .vrsq d a f => Sys2Proof.Machine.execVrsq d a f s
  | .vtanh d a f => Sys2Proof.Machine.execVtanh d a f s
  | .vrng d key ctr => Sys2Proof.Machine.execVrng d key ctr s
  | .vrngf32 d key ctr => Sys2Proof.Machine.execVrngf32 d key ctr s
  | .vrngf64 d key ctr => Sys2Proof.Machine.execVrngf64 d key ctr s
  | .tshape t w => Sys2Proof.Machine.execTshape t w s
  | .tzero t => Sys2Proof.Machine.execTzero t s
  | .tld t base pitch disp m => Sys2Proof.Machine.execTld t base pitch disp m s
  | .tldBlk t base pitch e0 disp m => Sys2Proof.Machine.execTldBlk t base pitch e0 disp m s
  | .tst t base pitch disp m => Sys2Proof.Machine.execTst t base pitch disp m s
  | .trowv d t idx start f => Sys2Proof.Machine.execTrowv d t idx start f s
  | .tcolv d t idx start f => Sys2Proof.Machine.execTcolv d t idx start f s
  | .vtrow t a idx start f => Sys2Proof.Machine.execVtrow t a idx start f s
  | .vtcol t a idx start f => Sys2Proof.Machine.execVtcol t a idx start f s
  | .mma d a b scsel scen => Sys2Proof.Machine.execMma d a b scsel scen s
  | .mmau d a b scsel scen => Sys2Proof.Machine.execMmau d a b scsel scen s
  | .cbload set base disp m => Sys2Proof.Machine.execCbload set base disp m s
  | .mucode a => Sys2Proof.Machine.execMucode a s
  | .mmar d a b => Sys2Proof.Machine.execMmar d a b s
  | .mcmd d c off cmd cap disp m => Sys2Proof.Machine.execMcmd d c off cmd cap disp m s
  | .msave base slot disp m => Sys2Proof.Machine.execMsave base slot disp m s
  | .mrestore base slot disp m => Sys2Proof.Machine.execMrestore base slot disp m s
  | .tsave t base disp m => Sys2Proof.Machine.execTsave t base disp m s
  | .trst t base disp m => Sys2Proof.Machine.execTrst t base disp m s
  | .kick d a b m => Sys2Proof.Machine.execKick d a b m s
  | .tpost d base disp m => Sys2Proof.Machine.execTpost d base disp m s
  | .spawn d entry arg c => Sys2Proof.Machine.execSpawn d entry arg c s
  | .glaunch d desc done => Sys2Proof.Machine.execGlaunch d desc done s
  | .qbind port a => Sys2Proof.Machine.execQbind port a s
  | .qsndNb d port b m => Sys2Proof.Machine.execQsndNb d port b m s
  | .qstat d port => Sys2Proof.Machine.execQstat d port s
  | .nbinit a b n => Sys2Proof.Machine.execNbinit a b n s
  | .nbarr d a n => Sys2Proof.Machine.execNbarr d a n s
  | .nbwait d a b n => Sys2Proof.Machine.execNbwait d a b n s
  | .bcopy a b c bar m => Sys2Proof.Machine.execBcopy a b c bar m s
  | .bcast a b c mask quad die => Sys2Proof.Machine.execBcast a b c mask quad die s
  | .mfs d r => Sys2Proof.Machine.execMfs d r s
  | .mts r a => Sys2Proof.Machine.execMts r a s
  | .trap code => Sys2Proof.Machine.execTrap code s
  | .ecall code => Sys2Proof.Machine.execEcall code s
  | .tlbinvPg a b => Sys2Proof.Machine.execTlbinvPg a b s
  | .tlbinvAll b => Sys2Proof.Machine.execTlbinvAll b s
  | .twait d a => Sys2Proof.Machine.execTwait d a s
  | .sstatWrite a => Sys2Proof.Machine.execSstatWrite a s
  | .fpctlWrite a => Sys2Proof.Machine.execFpctlWrite a s
  | .cbselWrite a => Sys2Proof.Machine.execCbselWrite a s
  | .tshapeWrite n a => Sys2Proof.Machine.execTshapeWrite n a s
  | .tdirtyWrite a => Sys2Proof.Machine.execTdirtyWrite a s
  | .timecmpWrite a => Sys2Proof.Machine.execTimecmpWrite a s
  | .wdogWrite a => Sys2Proof.Machine.execWdogWrite a s
  | .mcapWrite a => Sys2Proof.Machine.execMcapWrite a s
  | .ptbrWrite a => Sys2Proof.Machine.execPtbrWrite a s
  | .thrankWrite a => Sys2Proof.Machine.execThrankWrite a s
  | .tttbWrite a => Sys2Proof.Machine.execTttbWrite a s
  | .mevtWrite a => Sys2Proof.Machine.execMevtWrite a s
  | .yield => Sys2Proof.Machine.execYield s
  | .waitst => Sys2Proof.Machine.execWaitst s
  | .join => Sys2Proof.Machine.execJoin s
  | .retire => Sys2Proof.Machine.execRetire s
  | .eret => Sys2Proof.Machine.execEret s
  | .halt => Sys2Proof.Machine.execHalt s
  | .vmodeL => Sys2Proof.Machine.execVmodeL s
  | .vmodeS => Sys2Proof.Machine.execVmodeS s
  | .sctlRun imm => Sys2Proof.Machine.execSctlRun imm s
  | .sctlDblClear imm => Sys2Proof.Machine.execSctlDblClear imm s
  | .qportDataStore imm => Sys2Proof.Machine.execQportDataStore imm s
  | .qportBindingStore imm => Sys2Proof.Machine.execQportBindingStore imm s
  | .tileWindowStore imm => Sys2Proof.Machine.execTileWindowStore imm s
  | .nbarWindowStore imm => Sys2Proof.Machine.execNbarWindowStore imm s
  | .dmatail m v => Sys2Proof.Machine.execDmatail m v s
  | .dmactlEn m en => Sys2Proof.Machine.execDmactlEn m en s
  | .dmactlReset m => Sys2Proof.Machine.execDmactlReset m s
  | .dmastatErrClear m v => Sys2Proof.Machine.execDmastatErrClear m v s
  | .mbxbell m v => Sys2Proof.Machine.execMbxbell m v s
  | .mbxdoneClear m v => Sys2Proof.Machine.execMbxdoneClear m v s
  | .registerWrite m r v => Sys2Proof.Machine.execRegisterWrite m r v s
  | .resultReturn h n => Sys2Proof.Machine.execResultReturn h n s
  | .storeAccept h n => Sys2Proof.Machine.execStoreAccept h n s
  | .trapEntry h => Sys2Proof.Machine.execTrapEntry h s
  | .asyncCauseTaken h => Sys2Proof.Machine.execAsyncCauseTaken h s
  | .timer h => Sys2Proof.Machine.execTimer h s
  | .twaitDeadline h n => Sys2Proof.Machine.execTwaitDeadline h n s
  | .watchdogExpiry h => Sys2Proof.Machine.execWatchdogExpiry h s
  | .putrArrival imm => Sys2Proof.Machine.execPutrArrival imm s
  | .windowAccessArrival r => Sys2Proof.Machine.execWindowAccessArrival r s
  | .fewordRequestArrival h n => Sys2Proof.Machine.execFewordRequestArrival h n s
  | .barrierOpAtHome h n => Sys2Proof.Machine.execBarrierOpAtHome h n s
  | .redAddAtHome h n => Sys2Proof.Machine.execRedAddAtHome h n s
  | .decideOnceAtHome h n fromCopy => Sys2Proof.Machine.execDecideOnceAtHome h n fromCopy s
  | .drainRequest h a => Sys2Proof.Machine.execDrainRequest h a s
  | .readRequest r => Sys2Proof.Machine.execReadRequest r s
  | .ownershipRequest r => Sys2Proof.Machine.execOwnershipRequest r s
  | .eviction c pa => Sys2Proof.Machine.execEviction c pa s
  | .ucLoad h n => Sys2Proof.Machine.execUcLoad h n s
  | .ucStore r => Sys2Proof.Machine.execUcStore r s
  | .tileRequest e r => Sys2Proof.Machine.execTileRequest e r s
  | .hostRead m pa => Sys2Proof.Machine.execHostRead m pa s
  | .hostOwnershipRequest m pa => Sys2Proof.Machine.execHostOwnershipRequest m pa s
  | .backInvalidationResponse m pa data => Sys2Proof.Machine.execBackInvalidationResponse m pa data s
  | .backInvalidationTimeout m pa => Sys2Proof.Machine.execBackInvalidationTimeout m pa s
  | .translationWalk gdie imm => Sys2Proof.Machine.execTranslationWalk gdie imm s
  | .mcmdCommandArrival h n => Sys2Proof.Machine.execMcmdCommandArrival h n s
  | .thawCheck h => Sys2Proof.Machine.execThawCheck h s
  | .longContextGrant gcluster => Sys2Proof.Machine.execLongContextGrant gcluster s
  | .engineStart e => Sys2Proof.Machine.execEngineStart e s
  | .engineTrap e => Sys2Proof.Machine.execEngineTrap e s
  | .burstArrival e => Sys2Proof.Machine.execBurstArrival e s
  | .launchMessage imm => Sys2Proof.Machine.execLaunchMessage imm s
  | .queuePush imm => Sys2Proof.Machine.execQueuePush imm s
  | .joinDecrement imm => Sys2Proof.Machine.execJoinDecrement imm s
  | .placement m => Sys2Proof.Machine.execPlacement m s
  | .migrationMessage imm => Sys2Proof.Machine.execMigrationMessage imm s
  | .automaticMigration h => Sys2Proof.Machine.execAutomaticMigration h s
  | .thermalStep c temp => Sys2Proof.Machine.execThermalStep c temp s
  | .powerCapStep m milliwatts => Sys2Proof.Machine.execPowerCapStep m milliwatts s
  | .thermalTrip m die => Sys2Proof.Machine.execThermalTrip m die s
  | .timedLaunch m imm => Sys2Proof.Machine.execTimedLaunch m imm s
  | .preEmpt m imm => Sys2Proof.Machine.execPreEmpt m imm s
  | .resume m imm => Sys2Proof.Machine.execResume m imm s
  | .gangReport imm => Sys2Proof.Machine.execGangReport imm s
  | .reportDeadline m gang => Sys2Proof.Machine.execReportDeadline m gang s
  | .switchToken imm => Sys2Proof.Machine.execSwitchToken imm s
  | .releaseMessage imm => Sys2Proof.Machine.execReleaseMessage imm s
  | .shareComplete imm => Sys2Proof.Machine.execShareComplete imm s
  | .gridComplete imm => Sys2Proof.Machine.execGridComplete imm s
  | .ptpSync m offset usable => Sys2Proof.Machine.execPtpSync m offset usable s
  | .holdover m => Sys2Proof.Machine.execHoldover m s
  | .freeRunning m => Sys2Proof.Machine.execFreeRunning m s
  | .timeStep m by_ => Sys2Proof.Machine.execTimeStep m by_ s
  | .flitReceive m port flit crc => Sys2Proof.Machine.execFlitReceive m port flit crc s
  | .linkTraining m port mine peer => Sys2Proof.Machine.execLinkTraining m port mine peer s
  | .routeUpdate m dst port => Sys2Proof.Machine.execRouteUpdate m dst port s
  | .remoteTimeout h n => Sys2Proof.Machine.execRemoteTimeout h n s
  | .combinedRequest imm => Sys2Proof.Machine.execCombinedRequest imm s
  | .weltQuery imm => Sys2Proof.Machine.execWeltQuery imm s
  | .dmaDescriptor m => Sys2Proof.Machine.execDmaDescriptor m s
  | .hostLinkDown m => Sys2Proof.Machine.execHostLinkDown m s
  | .channelSparing m stack channel => Sys2Proof.Machine.execChannelSparing m stack channel s
  | .uncorrectableError site => Sys2Proof.Machine.execUncorrectableError site s
  | .warmReset m die => Sys2Proof.Machine.execWarmReset m die s
  | .mchk m cause => Sys2Proof.Machine.execMchk m cause s
  | .attestationRequest m nonce => Sys2Proof.Machine.execAttestationRequest m nonce s
  | .bringUp m => Sys2Proof.Machine.execBringUp m s
  | .matrixInstructionCompletion c => Sys2Proof.Machine.execMatrixInstructionCompletion c s
  | .remoteStoreAcknowledgement imm ok => Sys2Proof.Machine.execRemoteStoreAcknowledgement imm ok s
  | .queueGoSignal h port => Sys2Proof.Machine.execQueueGoSignal h port s
  | .hostLinkRetraining m => Sys2Proof.Machine.execHostLinkRetraining m s
  | .powerCapSetting m milliwatts => Sys2Proof.Machine.execPowerCapSetting m milliwatts s
  | .weltCombiningWindow gdie ops => Sys2Proof.Machine.execWeltCombiningWindow gdie ops s

end Sys2Proof.Machine
end

