-- ==== Sys2Proof/Machine/Sched.lean ====
section
/-!
DEFINITION. Who moves next: the agenda first, then the machine's own units, then the harts in barrel order (R269).
-/

namespace Sys2Proof.Machine

/-! Turns of the agenda. -/

/-- A hart that fetches: awake, its frozen matrix state back (R302), its long context granted (R164). -/
def fetches (s : State) (h : Hart) (hs : HartState) : Bool :=
  awake s h hs && !thawDue s h hs && !(hs.st.vl && s.longWait.contains hs.id.uid)

/-- A hart's turn: in migratory mode it may ship itself first (R278); else what it fetches, and its meaning. A hart that does not fetch, or whose
turn in the barrel has not come (R269), is left as it is. -/
def issueTurn (h : Hart) (s : State) : Result :=
  match hartOf s h with
  | none => .next s
  | some hs =>
    if !fetches s h hs || !slotTurn s h then .next s
    else if (autoDest s h hs).isSome then execAutomaticMigration h s
    else match autoWalk s h hs with
      | some s' => .next s'
      | none => match fetchIssue s h hs with
        | (s', none) => .next s'
        | (s', some i) => exec i s'

/-- A turn of the agenda. -/
def runTurn (t : Turn) (s : State) : Result :=
  match t with
  | .issue h => issueTurn h s
  | .event i => exec i (settleYields s)
  | .setting m x => .next (applySetting (settleYields s) m x)
  | .hostEviction line data => .next (hostEvicts (settleYields s) line data)
  | .corrected m ch => .next (correctedError (settleYields s) m ch)

/-! The hardware's own steps: each is the meaning of its event, and does nothing while the event is not due. -/

/-- Steps of an accepted store. -/
def storeTurns (i : Nat) : List (State → Result) :=
  [execWindowAccessArrival (.store i), execPutrArrival i, execQportDataStore i, execQportBindingStore i, execTileWindowStore i,
   execNbarWindowStore i, execSctlRun i, execSctlDblClear i, execOwnershipRequest (.store i), execTileRequest .write (.store i),
   execTileRequest .home (.store i), execUcStore (.store i), execRemoteStoreAcknowledgement i true]

/-- An access refused by full walkers asks again (R296). -/
def askAgain (h : Hart) (n : Nat) (s : State) : Result :=
  match openOp s h n with
  | none => .next s
  | some (hs, p) =>
    if p.placed || (dieState s (hartDie h)).walks.any fun w => w.joined.any fun x => x.uid == hs.id.uid && x.seq == n then .next s
    else
      let (s', hs') := translateOp s h hs p
      .next (setHart s' h hs')

/-- Steps of an outstanding operation. -/
def opTurns (h : Hart) (n : Nat) : List (State → Result) :=
  [askAgain h n, execStoreAccept h n, execWindowAccessArrival (.op h n), execFewordRequestArrival h n, execBarrierOpAtHome h n,
   execRedAddAtHome h n, execDecideOnceAtHome h n false, execTileRequest .read (.op h n), execTileRequest .write (.op h n),
   execTileRequest .home (.op h n), execReadRequest (.op h n), execOwnershipRequest (.op h n), execUcLoad h n,
   execUcStore (.op h n), execMcmdCommandArrival h n, execTwaitDeadline h n, execResultReturn h n]

/-- A frozen state goes on when its strand is about to issue (R302). -/
def thawTurn (h : Hart) (s : State) : Result :=
  match hartOf s h with
  | none => .next s
  | some hs => if awake s h hs then execThawCheck h s else .next s

/-- Steps of a hart beside its operations. -/
def hartTurns (h : Hart) (hs : HartState) : List (State → Result) :=
  [execTrapEntry h, execTimer h, execWatchdogExpiry h, execAsyncCauseTaken h, thawTurn h] ++
    (List.finRange 4).map (execQueueGoSignal h) ++
    (match hs.run.drain with
      | none => []
      | some (_, as) => as.map (execDrainRequest h)) ++
    hs.run.ops.flatMap fun p => opTurns h p.seq

/-- Steps of an engine. -/
def engineTurns (e : Nat) : List (State → Result) := [execEngineTrap e, execBurstArrival e, execEngineStart e]

/-- Steps of a message. -/
def msgTurns (i : Nat) : List (State → Result) :=
  [execLaunchMessage i, execJoinDecrement i, execGangReport i, execSwitchToken i, execReleaseMessage i, execShareComplete i,
   execGridComplete i]

/-- Steps of a gang's record or action. -/
def timedTurns (m : Nat) (t : Timed) : List (State → Result) :=
  [execTimedLaunch m t.n, execPreEmpt m t.n, execResume m t.n, execReportDeadline m t.gang]

/-- Steps of a module. -/
def moduleTurns (m : Nat) (ms : ModuleState) : List (State → Result) :=
  (ms.timed ++ ms.actions.map (·.order)).flatMap (timedTurns m) ++ [execPlacement m, execDmaDescriptor m, execHoldover m, execFreeRunning m]

/-- The hardware's steps, in the order in which they are tried. -/
def hardwareTurns (s : State) : List (State → Result) :=
  s.harts.flatMap (fun x => hartTurns x.1 x.2) ++
  s.stores.flatMap (fun a => storeTurns a.n) ++
  s.prefetches.flatMap (fun x => [execReadRequest (.core x.1 x.2.1), execOwnershipRequest (.core x.1 x.2.1)]) ++
  (List.range s.pushes.length).map execQueuePush ++
  s.cores.map (fun x => execMatrixInstructionCompletion x.1) ++
  s.dies.flatMap (fun x => (List.range (min 16 x.2.walks.length)).map (execTranslationWalk x.1)) ++
  (s.kicks.map (·.1) ++ s.engines.map (·.1)).eraseDups.flatMap engineTurns ++
  s.msgs.flatMap (fun x => msgTurns x.1) ++
  s.ships.map (fun x => execMigrationMessage x.n) ++
  (s.longWait.filterMap fun u => (hartByUid s u).map fun x => coreCluster (ownCore x.1)).eraseDups.map execLongContextGrant ++
  s.combined.flatMap (fun c => [execCombinedRequest c.n, execWeltQuery c.n]) ++
  s.snoops.map (fun x => execBackInvalidationTimeout (paModule x.line) x.line) ++
  (if s.arrivals.isEmpty then [] else [fun t => .next (hostTurn t)]) ++
  s.modules.flatMap (fun x => moduleTurns x.1 x.2)

/-- The first turn of a list that changes the state or stops. -/
def firstTurn (s : State) : List (State → Result) → Option Result
  | [] => none
  | f :: rest => match f s with
    | .next s' => if s' = s then firstTurn s rest else some (.next s')
    | r => some r

/-! The barrel (R269, R94). -/

/-- The slots of a core from the one after the slot that issued last. -/
def barrel (s : State) (c : Nat) : List Hart :=
  ((List.range 8).map fun i => ((coreOf s c).lastSlot + 1 + i) % 8).filterMap fun n =>
    if (hartOf s (.strand c n)).isSome then some (.strand c n) else none

/-- Cores and engines in turn, from the one after the agent that issued last. -/
def turnOrder (s : State) : List Hart :=
  let as := (s.harts.map fun x => agentOf x.1).eraseDups
  let me := agentOf s.cur
  let order := (as.dropWhile (· ≠ me)).drop 1 ++ as.takeWhile (· ≠ me) ++ as.filter (· = me)
  order.flatMap fun a => match a with
    | .core c => barrel s c
    | .engine e => [.engine e]

/-- An attempt to issue changed something. -/
def progressed (s : State) (r : Result) : Bool :=
  match r with
  | .next s' => { s' with cur := s.cur, word := s.word } != s
  | _ => true

/-- The first hart of a list whose turn changes something. -/
def firstIssue (s : State) : List Hart → Option Result
  | [] => none
  | h :: rest => let r := issueTurn h s; if progressed s r then some r else firstIssue s rest

/-! Time. -/

/-- The watchdog counts strands that are ready or wait on a queue (R270, R271). -/
def watches (s : State) (h : Hart) (hs : HartState) : Bool :=
  canIssue s h hs || (hs.run.park.isQueue && !hs.run.halted && !hs.run.held && hs.run.gate.isNone)

/-- Time passes: TIME of every module (R205, R324), and the watchdog counts; route changes whose pairs are idle take effect (R344). -/
def tick (s0 : State) (dt : Nat) : State :=
  let s := settleAll s0
  { s with
    now := s.now + dt
    free := s.free + 1
    modules := s.modules.map fun (m, ms) => (m, tickModule dt (Config.freeNat s.free) ms)
    harts := s.harts.map fun (h, hs) =>
      (h, if watches s h hs then { hs with run := { hs.run with watch := hs.run.watch + Config.watchTick } } else hs) }

/-- The most issues that go before the hardware has its turn. -/
def burstMax : Nat := 64

/-- An issue of the first hart that can, while time passes. -/
def issueStep (s : State) : Option Result :=
  let s' := { tick s (Config.timeTick s.free) with burst := s.burst + 1 }
  firstIssue s' (turnOrder s')

/-- A step of the hardware, which then goes on until it has nothing left to do. -/
def hardwareStep (s : State) : Option Result :=
  let s' := { s with burst := burstMax }
  firstTurn s' (hardwareTurns s')

/-- The machine's own turn: harts issue, up to `burstMax` times or until none can; then the hardware does all it has to do; and when
neither has anything to do, time passes. -/
def autoTurn (s0 : State) : Result :=
  let s := settleYields s0
  let r := if s.burst < burstMax then (issueStep s).orElse fun _ => hardwareStep s
    else (hardwareStep s).orElse fun _ => issueStep { s with burst := 0 }
  r.getD (.next (tick { s with burst := 0 } (Config.timeTick s.free + 1)))

/-- The bytes of an instruction word of `nbits` bits with zeros above, as they lie in memory. -/
def wordBytes (nbits w : Nat) : List Byte := leBytes 16 (w % 2 ^ nbits)

/-- A hart at the start of a fetch block, ready to fetch. -/
def atBlock (hs : HartState) : HartState :=
  { hs with
    pc := hs.pc &&& ~~~31#64
    run := { hs.run with park := .ready, replay := ⟨[], []⟩ } }

/-- The core of a hart whose turn in the barrel comes next (R94, R269), with the block at `pa` fetched anew. -/
def nextInBarrel (cs : CoreState) (n pa : Nat) : CoreState :=
  { cs with
    lastSlot := (n + 7) % 8
    yields := assocDel cs.yields n
    icache := assocDel cs.icache (pa / 32 * 32) }

/-- Places a word where a hart fetches next, and gives that hart the next turn. -/
def placeWord (s : State) (nbits w : Nat) : State :=
  match hartOf s s.cur with
  | none => s
  | some hs =>
    let hs' := atBlock hs
    match translate s s.cur hs'.ptbr hs'.st.priv hs'.pc .exec with
    | .error _ => s
    | .ok p =>
      let s1 := setHart { s with mem := memSetBytes s.mem p.pa (wordBytes nbits w) } s.cur hs'
      let s2 := match hartCore s.cur with
        | none => s1
        | some c => setCore s1 c (nextInBarrel (coreOf s1 c) (hartSlot s.cur) p.pa)
      { s2 with agenda := .issue s.cur :: s.agenda }

end Sys2Proof.Machine
end

