-- ==== Sys2Proof/Machine/Step.lean ====
section
/-!
DEFINITION. One step of the system: the first turn of the agenda, or the machine's own next turn.
-/

namespace Sys2Proof.Machine

def step (s : State) : Host.Outcome State Fault Refusal :=
  match s.agenda with
  | t :: rest => runTurn t { s with agenda := rest }
  | [] => autoTurn s

/-- An instruction word where `step` fetches its next instruction. -/
def State.withFetchWord (s : State) (nbits w : Nat) : State := placeWord s nbits w

end Sys2Proof.Machine
end

