-- ==== Sys2Proof/Safety.lean ====
section
/-!
DEFINITION. What the statements speak of: an instruction that completes, what it needs and what it does then, family by family; what
memory, a hart and the system keep; and the states a statement is about.
-/

namespace Sys2Proof.Machine

/-! Completion. -/

/-- The state in which the instruction of `s.cur` has issued: `s'` and `hs'` are the system and the hart after its own effect. The hart
moves past it (R18, R33), parks as a marker where it must (R29), and its slot counts as the last that issued (R269). -/
def completed (s s' : State) (hs' : HartState) (size : Nat) : State :=
  noteIssue (setHart s' s.cur (afterIssue s hs' size none)) s.cur

/-- The same for a taken transfer (R90). -/
def jumped (s s' : State) (hs' : HartState) (size : Nat) (target : Word) : State :=
  noteIssue (setHart s' s.cur (afterIssue s hs' size (some target))) s.cur

/-- How an instruction completes: its length in bytes, what it needs to issue, the conditions on operands and state under which it has
its effect, and that effect. -/
structure Form where
  size : Nat
  need : Need
  ok : Hart → State → HartState → List Word → Bool
  effect : Hart → State → HartState → List Word → State × HartState

/-- An instruction completes in `s` as a form says: for every hart that is ready for it (R18, R24, R25, R28). The operands are read
first (R24). -/
def Completes (i : Instr) (s : State) (f : Form) : Prop :=
  ∀ hs : HartState, hartOf s s.cur = some hs → ready s s.cur hs f.need = .go →
    f.ok s.cur s (readSrcs s.cur f.need.srcs hs).2 (readSrcs s.cur f.need.srcs hs).1 = true →
    exec i s = .next (completed s
      (f.effect s.cur s (readSrcs s.cur f.need.srcs hs).2 (readSrcs s.cur f.need.srcs hs).1).1
      (f.effect s.cur s (readSrcs s.cur f.need.srcs hs).2 (readSrcs s.cur f.need.srcs hs).1).2 f.size)

/-- A hart of the profile that an instruction asks for (R206). -/
def ofProfile (h : Hart) (n : Need) : Prop :=
  (n.profile = .coreOnly → isEngine h = false) ∧ (n.profile = .engineOnly → isEngine h = true)

/-- An instruction that passes the checks 8 to 10 of R18. -/
def admitted (h : Hart) (hs : HartState) (n : Need) : Prop :=
  n.illenc = false ∧ ofProfile h n ∧ n.refused = false ∧ (n.supervisor = true → hs.st.priv ≠ 0)

/-! Ports at issue (R24, R216). -/

/-- A port that entries come through. -/
def receives (hs : HartState) (p : Fin 4) : Prop := (portOf hs p).bound = true ∧ (portOf hs p).out = false
/-- A port that entries go out through. -/
def sends (hs : HartState) (p : Fin 4) : Prop := (portOf hs p).bound = true ∧ (portOf hs p).out = true
/-- An instruction waits on a port: it pops more entries than the port holds, or pushes one that cannot go. -/
def portWaits (s : State) (h : Hart) (hs : HartState) (n : Need) (p : Fin 4) : Prop :=
  (portOf hs p).buf.length < (popPorts n.srcs).count p ∨ (Dst.q p ∈ n.dsts ∧ canPush s h hs p = false)

/-- A form without conditions of its own. -/
def Form.plain (size : Nat) (need : Need) (effect : Hart → State → HartState → List Word → State × HartState) : Form :=
  ⟨size, need, fun _ _ _ _ => true, effect⟩

/-! Scalar instructions. -/

/-- A result written to a scalar destination at issue (R27). -/
def scalarForm (size : Nat) (d : Dst) (srcs : List Src) (f : List Word → Word) : Form :=
  .plain size { srcs := srcs, dsts := [d] } fun h s hs vals => writeDst s h hs d (f vals)
def form2 (d : Dst) (a b : Src) (f : Word → Word → Word) : Form := scalarForm 8 d [a, b] fun v => f (v.getD 0 0) (v.getD 1 0)
def formI (d : Dst) (a : Src) (i : Imm) (f : Word → Word → Word) : Form :=
  scalarForm (immSize i) d [a] fun v => f (v.getD 0 0) (immValue i)
def form1 (d : Dst) (a : Src) (f : Word → Word) : Form := scalarForm 8 d [a] fun v => f (v.getD 0 0)

/-! Results in exact arithmetic: an unsigned view is `toNat`, a signed view `toInt`, and a number is taken modulo 2^64 at the end. -/

def natWord (n : Nat) : Word := BitVec.ofNat 64 n
def intWord (n : Int) : Word := BitVec.ofInt 64 n
/-- 2 to the shift amount, which is taken modulo 64 (R81). -/
def power (y : Word) : Nat := 2 ^ (y.toNat % 64)
def copower (y : Word) : Nat := 2 ^ (64 - y.toNat % 64)

/-- The functions of OP 0x00 and 0x01, in the order of FN (R80). -/
def resAdd (x y : Word) : Word := natWord (x.toNat + y.toNat)
def resSub (x y : Word) : Word := intWord (x.toInt - y.toInt)
def resMul (x y : Word) : Word := natWord (x.toNat * y.toNat)
def resMulhs (x y : Word) : Word := intWord (x.toInt * y.toInt / 2 ^ 64)
def resShl (x y : Word) : Word := natWord (x.toNat * power y)
def resShr (x y : Word) : Word := natWord (x.toNat / power y)
def resSar (x y : Word) : Word := intWord (x.toInt / power y)
def resRol (x y : Word) : Word := natWord (x.toNat * power y + x.toNat / copower y)
def resRor (x y : Word) : Word := natWord (x.toNat / power y + x.toNat * copower y)
def resMin (x y : Word) : Word := if x.toInt ≤ y.toInt then x else y
def resMax (x y : Word) : Word := if y.toInt ≤ x.toInt then x else y
def resMinn (x y : Word) : Word := if x.toNat ≤ y.toNat then x else y
def resMaxn (x y : Word) : Word := if y.toNat ≤ x.toNat then x else y
def resMulhn (x y : Word) : Word := natWord (x.toNat * y.toNat / 2 ^ 64)

/-- Integer arithmetic and logic (R80, R81). -/
def aluForm : Instr → Option Form
  | .add d a b => some (form2 d a b resAdd)
  | .sub d a b => some (form2 d a b resSub)
  | .mul d a b => some (form2 d a b resMul)
  | .mulhs d a b => some (form2 d a b resMulhs)
  | .and d a b => some (form2 d a b (· &&& ·))
  | .or d a b => some (form2 d a b (· ||| ·))
  | .xor d a b => some (form2 d a b (· ^^^ ·))
  | .andn d a b => some (form2 d a b fun x y => x &&& ~~~y)
  | .shl d a b => some (form2 d a b resShl)
  | .shr d a b => some (form2 d a b resShr)
  | .sar d a b => some (form2 d a b resSar)
  | .rol d a b => some (form2 d a b resRol)
  | .ror d a b => some (form2 d a b resRor)
  | .min d a b => some (form2 d a b resMin)
  | .max d a b => some (form2 d a b resMax)
  | .minn d a b => some (form2 d a b resMinn)
  | .maxn d a b => some (form2 d a b resMaxn)
  | .mulhn d a b => some (form2 d a b resMulhn)
  | .addImm d a i => some (formI d a i resAdd)
  | .subImm d a i => some (formI d a i resSub)
  | .mulImm d a i => some (formI d a i resMul)
  | .mulhsImm d a i => some (formI d a i resMulhs)
  | .andImm d a i => some (formI d a i (· &&& ·))
  | .orImm d a i => some (formI d a i (· ||| ·))
  | .xorImm d a i => some (formI d a i (· ^^^ ·))
  | .andnImm d a i => some (formI d a i fun x y => x &&& ~~~y)
  | .shlImm d a i => some (formI d a i resShl)
  | .shrImm d a i => some (formI d a i resShr)
  | .sarImm d a i => some (formI d a i resSar)
  | .rolImm d a i => some (formI d a i resRol)
  | .rorImm d a i => some (formI d a i resRor)
  | .minImm d a i => some (formI d a i resMin)
  | .maxImm d a i => some (formI d a i resMax)
  | .minnImm d a i => some (formI d a i resMinn)
  | .maxnImm d a i => some (formI d a i resMaxn)
  | .mulhnImm d a i => some (formI d a i resMulhn)
  | _ => none

/-- 1 when a relation holds and 0 otherwise. -/
def relation (b : Bool) : Word := if b then 1 else 0

/-- Compares (R83). -/
def relationForm : Instr → Option Form
  | .cmpeq d a b => some (form2 d a b fun x y => relation (decide (x = y)))
  | .cmpne d a b => some (form2 d a b fun x y => relation (decide (x ≠ y)))
  | .cmplt d a b => some (form2 d a b fun x y => relation (decide (x.toInt < y.toInt)))
  | .cmple d a b => some (form2 d a b fun x y => relation (decide (x.toInt ≤ y.toInt)))
  | .cmpltn d a b => some (form2 d a b fun x y => relation (decide (x.toNat < y.toNat)))
  | .cmplen d a b => some (form2 d a b fun x y => relation (decide (x.toNat ≤ y.toNat)))
  | .cmpeqImm d a i => some (formI d a i fun x y => relation (decide (x = y)))
  | .cmpneImm d a i => some (formI d a i fun x y => relation (decide (x ≠ y)))
  | .cmpltImm d a i => some (formI d a i fun x y => relation (decide (x.toInt < y.toInt)))
  | .cmpleImm d a i => some (formI d a i fun x y => relation (decide (x.toInt ≤ y.toInt)))
  | .cmpltnImm d a i => some (formI d a i fun x y => relation (decide (x.toNat < y.toNat)))
  | .cmplenImm d a i => some (formI d a i fun x y => relation (decide (x.toNat ≤ y.toNat)))
  | _ => none

/-- Bits of a word, from bit 0. -/
def bitsOf (x : Word) : List Bool := (List.range 64).map x.getLsbD
/-- The number of bits before the first one bit. -/
def zerosBefore (l : List Bool) : Nat := (l.takeWhile (· == false)).length
/-- Byte `j` of a word. -/
def byteNat (x : Word) (j : Nat) : Nat := x.toNat / 256 ^ j % 256

/-- Select and the unary bit operations (R84, R86). -/
def selectForm : Instr → Option Form
  | .sel d a b c => some (scalarForm 8 d [a, b, c] fun v => if v.getD 2 0 ≠ 0 then v.getD 0 0 else v.getD 1 0)
  | .clz d a => some (form1 d a fun x => natWord (zerosBefore (bitsOf x).reverse))
  | .ctz d a => some (form1 d a fun x => natWord (zerosBefore (bitsOf x)))
  | .popc d a => some (form1 d a fun x => natWord ((bitsOf x).count true))
  | .brev d a => some (form1 d a fun x => natWord ((bitsOf x).foldl (fun n b => 2 * n + b.toNat) 0))
  | .bswap d a => some (form1 d a fun x => natWord ((List.range 8).foldl (fun n j => 256 * n + byteNat x j) 0))
  | _ => none

/-- Bit fields (R85). -/
def fieldForm : Instr → Option Form
  | .bext d a pos len => some (form1 d a fun x => natWord (x.toNat / 2 ^ pos.toNat % 2 ^ len.toNat))
  | .bexts d a pos len => some (form1 d a fun x => intWord (Int.bmod (x.toNat / 2 ^ pos.toNat) (2 ^ len.toNat)))
  | .bins d a b pos len => some (form2 d a b fun x y => natWord (x.toNat % 2 ^ pos.toNat + y.toNat % 2 ^ len.toNat * 2 ^ pos.toNat +
      x.toNat / 2 ^ (pos.toNat + len.toNat) * 2 ^ (pos.toNat + len.toNat)))
  | _ => none

/-- The keyed mix of a counter in arithmetic modulo 2^64 (R88). -/
def mixNat (key ctr : Nat) : Nat :=
  let x := key ^^^ (ctr * 0x9E3779B97F4A7C15 % 2 ^ 64)
  let x := (x ^^^ (x / 2 ^ 30)) * 0xBF58476D1CE4E5B9 % 2 ^ 64
  let x := (x ^^^ (x / 2 ^ 27)) * 0x94D049BB133111EB % 2 ^ 64
  x ^^^ (x / 2 ^ 31)

/-- Random numbers (R88, R89): the mix, its top 24 bits as an F32 and its top 53 bits as an F64. -/
def randomForm : Instr → Option Form
  | .rng d k c => some (form2 d k c fun x y => natWord (mixNat x.toNat y.toNat))
  | .rngf32 d k c => some (form2 d k c fun x y => natWord (unitBits (mixNat x.toNat y.toNat / 2 ^ 40) 23 103))
  | .rngf64 d k c => some (form2 d k c fun x y => natWord (unitBits (mixNat x.toNat y.toNat / 2 ^ 11) 52 970))
  | _ => none
where
  /-- The encoding of n × 2^-(fb + 1) with `fb` fraction bits: the exponent of its leading one, and the bits below it. -/
  unitBits (n fb bias : Nat) : Nat := if n = 0 then 0 else (Nat.log2 n + bias) * 2 ^ fb + (n * 2 ^ (fb - Nat.log2 n) - 2 ^ fb)

/-- Divide and remainder (R82). -/
def quotS (x y : Word) : Word := if y.toNat = 0 then natWord (2 ^ 64 - 1) else intWord (x.toInt.tdiv y.toInt)
def quotN (x y : Word) : Word := if y.toNat = 0 then natWord (2 ^ 64 - 1) else natWord (x.toNat / y.toNat)
def restS (x y : Word) : Word := if y.toNat = 0 then x else intWord (x.toInt - y.toInt * x.toInt.tdiv y.toInt)
def restN (x y : Word) : Word := if y.toNat = 0 then x else natWord (x.toNat % y.toNat)

/-- A result that returns later: the operation enters program order and its destination is emptied (R25, R27, R28). -/
def laterForm (srcs : List Src) (d : Dst) (op : HartState → List Word → Pending) : Form :=
  .plain 8 { srcs := srcs, dsts := [d], place := true } fun _ s hs vals => (s, addOp hs (op hs vals))

/-- An operation that goes to memory or a window: it enters program order and is translated as far as the TLBs go. A second remote
access waits (R28). -/
def memForm (size : Nat) (n : Need) (op : Hart → State → HartState → List Word → Pending) : Form :=
  ⟨size, n, fun h s hs v => !secondRemote s hs (addMem s h hs (op h s hs v)).2, fun h s hs v => addMem s h hs (op h s hs v)⟩

/-- Divide and remainder (R82) and TWAIT (R205). -/
def divideForm : Instr → Option Form
  | .div d a b => some (laterForm [a, b] d fun hs v => known hs d (quotS (v.getD 0 0) (v.getD 1 0)))
  | .divn d a b => some (laterForm [a, b] d fun hs v => known hs d (quotN (v.getD 0 0) (v.getD 1 0)))
  | .rem d a b => some (laterForm [a, b] d fun hs v => known hs d (restS (v.getD 0 0) (v.getD 1 0)))
  | .remn d a b => some (laterForm [a, b] d fun hs v => known hs d (restN (v.getD 0 0) (v.getD 1 0)))
  | .twait d a => some (laterForm [a] d fun hs v => newOp hs (.twait (v.getD 0 0)) (.scalar d))
  | _ => none
where
  /-- A result that is known and has to be returned. -/
  known (hs : HartState) (d : Dst) (v : Word) : Pending := { newOp hs (.value v) (.scalar d) with phase := .done [v] }

/-- Full/empty control, LDL, and the instructions that give up turns or wait, once what they wait for holds (R87, R94 to R96). -/
def stepForm : Instr → Option Form
  | .empty r => some (.plain 8 {} fun _ s hs _ => (s, emptied hs r))
  | .fill r => some (.plain 8 {} fun _ s hs _ => (s, filled hs r))
  | .isfull d r => some (.plain 8 { dsts := [d] } fun h s hs _ => writeDst s h hs d (boolWord (isFull hs r)))
  | .ldl d i => some (memForm 8 { place := true } fun _ _ hs _ => { newOp hs .literal (.scalar (.g d)) with
      spans := [⟨(issuePc hs &&& ~~~7#64) + i.signExtend 64 * 8, 8, .exec, none⟩] })
  | .yield => some (.plain 8 {} fun h s hs _ => (yielded h s, { hs with run := { hs.run with watch := 0 } }))
  | .wait m => some ⟨8, {}, fun _ _ hs _ => maskFull hs m, fun _ s hs _ => (s, hs)⟩
  | .waitst => some ⟨8, {}, fun _ _ hs _ => storesAccepted hs, fun _ s hs _ => (s, hs)⟩
  | .join => some ⟨8, { profile := .coreOnly }, fun _ _ hs _ => hs.st.jcnt == 0, fun _ s hs _ => (s, hs)⟩
  | _ => none
where
  /-- EMPTY clears a full bit, and FILL sets it and keeps the value (R87). -/
  emptied (hs : HartState) : FeReg → HartState
    | .g r => emptyG hs r
    | .v r => emptyVec hs r
  filled (hs : HartState) : FeReg → HartState
    | .g r => setG hs r ⟨gVal hs r, true⟩
    | .v r => writeVec hs r (vecVal hs r)
  /-- A k register is always full. -/
  isFull (hs : HartState) : FeSrc → Bool
    | .g r => gFull hs r
    | .v r => vecFull hs r
    | .k _ => true
  /-- The slot waits for the others that are ready (R94). An engine has no core to share. -/
  yielded (h : Hart) (s : State) : State := match h with
    | .engine _ => s
    | .strand c n => setCore s c { coreOf s c with
        yields := ((coreOf s c).yields.filter fun y => y.1 != n) ++ [(n, readySlots s c n)] }

/-! Transfers (R90 to R93). -/

/-- A control transfer: its length, its sources, when it is taken, where to, and the register that takes the return address. -/
structure Flow where
  size : Nat
  srcs : List Src
  taken : List Word → Bool
  target : Word → List Word → Word
  link : Option (Fin 16)

/-- A branch to PC + imm × 4. -/
def branchFlow (a : Option Src) (o : Disp) (c : Word → Bool) (link : Option (Fin 16)) : Flow :=
  ⟨dispSize o, a.toList, fun v => c (v.getD 0 0), fun pc _ => pc + dispValue o * 4, link⟩
def indirectFlow (a : Src) (link : Option (Fin 16)) : Flow := ⟨8, [a], fun _ => true, fun _ v => v.getD 0 0, link⟩

def flowForm : Instr → Option Flow
  | .br o => some (branchFlow none o (fun _ => true) none)
  | .bz a o => some (branchFlow (some a) o (fun x => decide (x = 0)) none)
  | .bnz a o => some (branchFlow (some a) o (fun x => decide (x ≠ 0)) none)
  | .bltz a o => some (branchFlow (some a) o (fun x => decide (x.toInt < 0)) none)
  | .bgez a o => some (branchFlow (some a) o (fun x => decide (0 ≤ x.toInt)) none)
  | .call r o => some (branchFlow none o (fun _ => true) (some r))
  | .jr a => some (indirectFlow a none)
  | .callr r a => some (indirectFlow a (some r))
  | .ret a => some (indirectFlow a none)
  | _ => none

/-! Memory and synchronisation at issue (R104 to R142). -/

/-- The same for a form without further needs. -/
def accessForm (size : Nat) (srcs : List Src) (dsts : List Dst) (place : Bool) (op : Hart → HartState → List Word → Pending) : Form :=
  memForm size { srcs := srcs, dsts := dsts, place := place } fun h _ hs v => op h hs v

/-- An aligned access of `n` bytes at a virtual address, in pieces within pages. -/
def atVa (hs : HartState) (op : Op) (d : Dest) (m : MemMod) (va : Word) (n : Nat) (r : Right) : Pending :=
  checkAlign (memOp hs op d m (spansOf va n r)) va n
/-- An aligned access of `n` bytes at a window address (R44). -/
def atWin (h : Hart) (hs : HartState) (op : Op) (d : Dest) (m : MemMod) (pa n : Nat) (r : Right) : Pending :=
  checkAlign (windowOp h hs op d m pa n r) (BitVec.ofNat 64 pa) n
/-- An access that is one piece, aligned to its size. -/
def atWord (hs : HartState) (op : Op) (d : Dest) (m : MemMod) (va : Word) (n : Nat) (r : Right) : Pending :=
  checkAlign (memOp hs op d m [⟨va, n, r, none⟩]) va n

def loadForm (n : Nat) (sg : Bool) (d : Dst) (b : Src) (o : Disp) (m : MemMod) : Form :=
  accessForm (dispSize o) [b] [d] true fun _ hs v => atVa hs (.load sg) (.scalar d) m (v.getD 0 0 + dispValue o) n .read
def windowLoadForm (n : Nat) (sg : Bool) (k : BitVec 3) (d : Dst) (b : Src) (o : BitVec 16) (c : Coord) (m : MemMod) : Form :=
  accessForm 12 [b] [d] true fun h hs v =>
    atWin h hs (.load sg) (.scalar d) m (windowAddr (coordCore h hs c) k.toNat (v.getD 0 0) o) n .read

/-- Loads (R109, R112, R113). -/
def loadsForm : Instr → Option Form
  | .ldN8 d b o m => some (loadForm 1 false d b o m)
  | .ldN16 d b o m => some (loadForm 2 false d b o m)
  | .ldN32 d b o m => some (loadForm 4 false d b o m)
  | .ld d b o m => some (loadForm 8 false d b o m)
  | .ldS8 d b o m => some (loadForm 1 true d b o m)
  | .ldS16 d b o m => some (loadForm 2 true d b o m)
  | .ldS32 d b o m => some (loadForm 4 true d b o m)
  | .windowLdN8 k d b o c m => some (windowLoadForm 1 false k d b o c m)
  | .windowLdN16 k d b o c m => some (windowLoadForm 2 false k d b o c m)
  | .windowLdN32 k d b o c m => some (windowLoadForm 4 false k d b o c m)
  | .windowLd k d b o c m => some (windowLoadForm 8 false k d b o c m)
  | .windowLdS8 k d b o c m => some (windowLoadForm 1 true k d b o c m)
  | .windowLdS16 k d b o c m => some (windowLoadForm 2 true k d b o c m)
  | .windowLdS32 k d b o c m => some (windowLoadForm 4 true k d b o c m)
  | .ldbit d a b w sx m => some (accessForm 8 [a, b] [d] true fun h hs v =>
      bitOp h hs (fun j => .loadBits j (w.toNat + 1) sx) (.scalar d) m (v.getD 0 0)
        ((v.getD 0 0).toNat * 8 + (v.getD 1 0).toNat) (w.toNat + 1) .read)
  | _ => none

def storeForm (n : Nat) (b x : Src) (o : Disp) (m : MemMod) : Form :=
  accessForm (dispSize o) [b, x] [] false fun _ hs v =>
    let va := v.getD 0 0 + dispValue o
    checkAlign (asStore (memOp hs (.store (splitBytes (spansOf va n .write) (leBytes n (v.getD 1 0).toNat))) .none m
      (spansOf va n .write))) va n
def windowStoreForm (n : Nat) (k : BitVec 3) (b x : Src) (o : BitVec 16) (c : Coord) (m : MemMod) : Form :=
  accessForm 12 [b, x] [] false fun h hs v =>
    let pa := windowAddr (coordCore h hs c) k.toNat (v.getD 0 0) o
    checkAlign (asStore (windowOp h hs (.store [leBytes n (v.getD 1 0).toNat]) .none m pa n .write)) (BitVec.ofNat 64 pa) n

/-- Stores (R98, R110 to R113). -/
def storesForm : Instr → Option Form
  | .stN8 b x o m => some (storeForm 1 b x o m)
  | .stN16 b x o m => some (storeForm 2 b x o m)
  | .stN32 b x o m => some (storeForm 4 b x o m)
  | .st b x o m => some (storeForm 8 b x o m)
  | .windowStN8 k b x o c m => some (windowStoreForm 1 k b x o c m)
  | .windowStN16 k b x o c m => some (windowStoreForm 2 k b x o c m)
  | .windowStN32 k b x o c m => some (windowStoreForm 4 k b x o c m)
  | .windowSt k b x o c m => some (windowStoreForm 8 k b x o c m)
  | .stZ b o m => some (accessForm (dispSize o) [b] [] false fun _ hs v =>
      asStore (memOp hs .storeNone .none m [⟨v.getD 0 0 + dispValue o, 1, .write, none⟩]))
  | .windowStZ k b o c m => some (accessForm 12 [b] [] false fun h hs v =>
      asStore (windowOp h hs .storeNone .none m (windowAddr (coordCore h hs c) k.toNat (v.getD 0 0) o) 1 .write))
  | .putr c b x o m => some (accessForm (if c.isSome then 12 else 8) [b, x] [] false fun h hs v =>
      asStore (windowOp h hs (.store [leBytes 8 (v.getD 1 0).toNat]) .none m (windowAddr (optCore h hs c) 1 (v.getD 0 0) o) 8 .write))
  | .stbit a b c w m => some (accessForm 8 [a, b, c] [] false fun h hs v =>
      asStore (bitOp h hs (fun j => .storeBits j (w.toNat + 1) (v.getD 2 0)) .none m (v.getD 0 0)
        ((v.getD 0 0).toNat * 8 + (v.getD 1 0).toNat) (w.toNat + 1) .write))
  | .cflush b o sc => some (cacheForm .cflush b o sc)
  | .cinval b o sc => some (cacheForm .cinval b o sc)
  | _ => none
where
  /-- Cache maintenance of the grain at an address (R120). -/
  cacheForm (op : Op) (b : Src) (o : Disp) (sc : Scope) : Form :=
    accessForm (dispSize o) [b] [] false fun _ hs v =>
      asStore (memOp hs op .none ⟨.rlx, sc⟩ [⟨v.getD 0 0 + dispValue o, 1, .read, none⟩])

def atomicForm (fn : AtomicFn) (d : Dst) (b x : Src) (c : Option Src) (o : Disp) (w32 : Bool) (m : MemMod) : Form :=
  accessForm (dispSize o) ([b, x] ++ c.toList) [d] true fun _ hs v =>
    atWord hs (.atomic fn (v.getD 1 0) (v.getD 2 0)) (.scalar d) m (v.getD 0 0 + dispValue o) (if w32 then 4 else 8) .both

/-- Atomics (R122). -/
def atomicsForm : Instr → Option Form
  | .swap d b x o w m => some (atomicForm .swap d b x none o w m)
  | .cas d b x c o w m => some (atomicForm .cas d b x (some c) o w m)
  | .aadd d b x o w m => some (atomicForm .add d b x none o w m)
  | .aand d b x o w m => some (atomicForm .and d b x none o w m)
  | .aor d b x o w m => some (atomicForm .or d b x none o w m)
  | .axor d b x o w m => some (atomicForm .xor d b x none o w m)
  | .amin d b x o w m => some (atomicForm .min d b x none o w m)
  | .amax d b x o w m => some (atomicForm .max d b x none o w m)
  | .aminn d b x o w m => some (atomicForm .minn d b x none o w m)
  | .amaxn d b x o w m => some (atomicForm .maxn d b x none o w m)
  | .afadd d b x o w m => some (atomicForm .fadd d b x none o w m)
  | _ => none

/-- A cell operand: A + disp, checked on its 64-byte header (R124). -/
def cellForm (srcs : List Src) (dsts : List Dst) (place store : Bool) (o : BitVec 16) (m : MemMod) (r : Right) (d : Dest)
    (op : HartState → List Word → Op) : Form :=
  accessForm 8 srcs dsts place fun _ hs v =>
    let p := atWord hs (op hs v) d m (v.getD 0 0 + o.signExtend 64) 64 r
    if store then (if place then { p with store := true } else asStore p) else p

def objectForm (w : WOp) (srcs : List Src) (dsts : List Dst) (place store : Bool) (n : Nat) (m : MemMod) (r : Right) (d : Dest)
    (op : List Word → Op) : Form :=
  accessForm (wopSize w) (wopBase w :: srcs) dsts place fun h hs v =>
    let p := wopOp h hs w (v.getD 0 0) (op v) d m n r
    if store then (if place then { p with store := true } else asStore p) else p

/-- Full/empty words, reduction cells, barrier objects and decide-once cells (R115, R124 to R136). -/
def objectsForm : Instr → Option Form
  | .take d w m => some (objectForm w [] [d] true false 8 m .both (.scalar d) fun _ => .take)
  | .put w x m => some (objectForm w [x] [] true true 8 m .write .none fun v => .put (v.getD 1 0))
  | .peek d w m => some (objectForm w [] [d] true false 8 m .read (.scalar d) fun _ => .peek)
  | .binit w x m => some (objectForm w [x] [] false true 16 m .write .none fun v => .barInit (v.getD 1 0))
  | .barv d w x m => some (objectForm w [x] [d] true false 16 m .both (.scalar d) fun v => .barArrive (v.getD 1 0))
  | .bwait d w x m => some (objectForm w [x] [d] true false 16 m .read (.scalar d) fun v => .barWait (v.getD 1 0))
  | .btest d w x m => some (objectForm w [x] [d] true false 16 m .read (.scalar d) fun v => .barTest (v.getD 1 0))
  | .reddecl a x o m => some (cellForm [a, x] [] false true o m .write .none fun _ v => .redDecl (v.getD 1 0))
  | .redAdd a i x o m => some (cellForm [a, i, x] [] true true o m .write .none fun _ v => .redAdd (v.getD 1 0) (v.getD 2 0))
  | .redRd d a o m => some (cellForm [a] [d] true false o m .read (.scalar d) fun hs _ => .redRead (fpMode hs .rne))
  | .propose p a x g o m => some (cellForm [a, x, g] [] true false o m .both (.pair p) fun _ v => .propose (v.getD 1 0) (v.getD 2 0))
  | .dread p a g o m => some (cellForm [a, g] [] true false o m .read (.pair p) fun _ v => .decRead (v.getD 1 0))
  | .dcell a g o m => some (cellForm [a, g] [] false true o m .write .none fun _ v => .decOpen (v.getD 1 0))
  | _ => none

/-- The translation of an address is known: it needs no walk, or its walk is over (R296). -/
def sought (s : State) (h : Hart) (hs : HartState) (va : Word) (r : Right) : Bool :=
  match seek s h hs hs.ptbr hs.st.priv va r with
  | .wait _ => false
  | _ => true

/-- Tiles and migration (R138 to R142). -/
def tilesForm : Instr → Option Form
  | .tdecl d a x o m => some (tileForm [a, x] d m (fun v => v.getD 0 0 + o.signExtend 64) fun _ _ v => .tdecl (v.getD 1 0))
  | .tundecl d a o m => some (tileForm [a] d m (fun v => v.getD 0 0 + o.signExtend 64) fun _ _ _ => .tundecl)
  | .tfwd d a t o m => some (fwdForm d a o m t)
  | .mig d a o _ => some ⟨dispSize o, { srcs := [a], dsts := [d], place := true, profile := .coreOnly },
      fun h s hs v => sought s h hs (v.getD 0 0 + dispValue o) .probe,
      fun h s hs v => migrates h s hs d (v.getD 0 0 + dispValue o)⟩
  | _ => none
where
  /-- MIG by what its address translates to (R142): a fault is found (R106), a status is due, or the strand's ship is ordered. -/
  migrates (h : Hart) (s : State) (hs : HartState) (d : Dst) (va : Word) : State × HartState :=
    let op (k : Nat) : Pending := { newOp hs (.mig k) (.scalar d) with spans := [⟨va, 1, .probe, none⟩] }
    match seek s h hs hs.ptbr hs.st.priv va .probe with
    | .fault c => (s, addOp hs { op 0 with phase := .found c va })
    | .place p =>
      if migRefused hs p.pa then (s, addOp hs { op 0 with phase := .found .winflt va })
      else match migDecide s h hs p.pa with
        | (k, none) => (s, addOp hs { op k with spans := [] })
        | (_, some c) => ordered h hs d (orderShip s h (emptyDst hs (.scalar d)) c 0 (some (.scalar d)))
    | .wait _ => (s, hs)
  ordered (h : Hart) (hs : HartState) (d : Dst) (s : State) : State × HartState := (s, (hartOf s h).getD (emptyDst hs (.scalar d)))
  /-- TFWD's target: a register, or a coordinate in a word of its own (R141). -/
  fwdForm (d : Dst) (a : Src) (o : BitVec 16) (m : MemMod) : TfwdTarget → Form
    | .reg b => tileForm [a, b] d m (fun v => v.getD 0 0 + o.signExtend 64) fun h hs v => .tfwd (tfwdTarget h hs (v.getD 1 0))
    | .coord c =>
      { tileForm [a] d m (fun v => v.getD 0 0 + o.signExtend 64) (fun h hs _ => .tfwd (some (coordCore h hs c))) with size := 12 }
  /-- Translation and write permission at the base (R140). -/
  tileForm (srcs : List Src) (d : Dst) (m : MemMod) (va : List Word → Word) (op : Hart → HartState → List Word → Op) : Form :=
    accessForm 8 srcs [d] true fun h hs v => memOp hs (op h hs v) (.scalar d) m [⟨va v, 1, .write, none⟩]

/-- Fences and cache control that act at issue (R118 to R121). FNC.HV, ISYNC and RECYCLE issue once nothing is outstanding. -/
def fencesForm : Instr → Option Form
  | .fnc m => some (.plain 8 {} fun _ s hs _ => (s, if m.scope = .strand then hs else addOp hs (fenceOp hs .fence m)))
  | .fncLt sc => some (.plain 8 {} fun _ s hs _ => (s, addOp hs (fenceOp hs .fenceLight ⟨.rlx, sc⟩)))
  | .fncHv sc => some ⟨8, {}, fun _ s hs _ => seenByAll s hs, fun h s hs _ => (s, drains h s hs sc)⟩
  | .isync _ => some ⟨8, {}, fun _ s hs _ => seenByAll s hs, fun h s hs _ => (match hartCore h with
      | some c => setCore s c { coreOf s c with icache := [] }
      | none => s, hs)⟩
  | .recycle d a g o m => some ⟨8, { srcs := [a, g], dsts := [d], place := true },
      fun h s hs v => seenByAll s hs && !secondRemote s (drains h s hs .system) (cellOp d m o h s hs v).2, cellOp d m o⟩
  | .pref a o _ => some (fetchForm a o false)
  | .prefw a o _ => some (fetchForm a o true)
  | _ => none
where
  /-- Nothing is outstanding, and the strand's stores are visible. -/
  seenByAll (s : State) (hs : HartState) : Bool := drained hs && (invisible s hs.id.uid).isEmpty
  /-- The hart waits for the drain answers of every agent in scope, for the stores accepted until now (R119). -/
  drains (h : Hart) (s : State) (hs : HartState) (sc : Scope) : HartState :=
    { hs with run := { hs.run with drain := some (s.nextStore, drainAgents s h hs sc) } }
  /-- RECYCLE's request, behind its drain (R137). -/
  cellOp (d : Dst) (m : MemMod) (o : BitVec 16) (h : Hart) (s : State) (hs : HartState) (v : List Word) : State × HartState :=
    addMem s h (drains h s hs .system)
      (atWord hs (.recycle (v.getD 1 0)) (.scalar d) m (v.getD 0 0 + o.signExtend 64) 64 .both)
  /-- A prefetch, once the page of its address is translated. -/
  fetchForm (a : Src) (o : Disp) (own : Bool) : Form :=
    ⟨dispSize o, { srcs := [a] }, fun h s hs v => sought s h hs (v.getD 0 0 + dispValue o) .read, fun h s hs v =>
      (fetched h s hs (v.getD 0 0 + dispValue o) own, hs)⟩
  /-- A prefetch goes out for an address of cacheable memory on the hart's own module, which it may read, else nothing happens (R120). -/
  fetched (h : Hart) (s : State) (hs : HartState) (va : Word) (own : Bool) : State :=
    match hartCore h, seek s h hs hs.ptbr hs.st.priv va .read with
    | some c, .place p =>
      if isWindow p.pa || p.pol != 0 && p.pol != 1 || paModule p.pa != hartModule h then s
      else { s with prefetches := s.prefetches ++ [(c, p.pa, p.grain, own)] }
    | _, _ => s

/-! Vector instructions (R143 to R164). -/

/-- A vector result enters a register: at once in short mode with its flags; as an outstanding operation in long mode, where subnormal lanes
that trap are its result (R67), or for a special function in short mode, which joins the core's queue (R147, R160). -/
def vecResult (d : Fin 16) (special : Bool) (s : State) (hs : HartState) (subn : Word) (v : W2048 × FpFlags) : State × HartState :=
  if hs.st.vl then (s, addOp hs (newOp hs (if subn = 0 then .vector v.1 v.2 none else .subnormal subn) (.w d)))
  else if special then ({ s with nextId := s.nextId + 1 }, addOp hs (newOp hs (.vector v.1 v.2 (some s.nextId)) (.v d)))
  else (s, raiseFlags (writeVec hs d v.1) v.2)

/-- A vector instruction: in short mode no lane that it uses is subnormal where that traps (R67), and a special function finds room in its
queue (R160). -/
def vecForm (d : Fin 16) (n : Need) (special : Bool) (subn : HartState → Word) (value : HartState → List Word → W2048 × FpFlags) :
    Form :=
  ⟨8, n, fun h s hs _ => hs.st.vl || (subn hs == 0 && (!special || decide (specialQueued s (ownCore h) < 16))),
   fun _ s hs v => vecResult d special s hs (subn hs) (value hs v)⟩

/-- The patterns of lane `i` of the sources. -/
def lanesAt (hs : HartState) (vs : List (Fin 16)) (w i : Nat) : List Nat := vs.map fun v => laneGet (vecVal hs v) w i

/-- Lane by lane over float registers (R148); `g` is given the rounding mode and the operands' values. -/
def floatForm (s : State) (d : Fin 16) (vs : List (Fin 16)) (f : FMod) (special rounded : Bool)
    (g : Rnd → List FVal → FVal × FpFlags) : Form :=
  vecForm d (vecNeed s vs [f.fmt] (decide (1 < vs.length)) special [] []) special
    (fun hs => subnMask hs (laneCount hs f.fmt) fun i => (lanesAt hs vs f.fmt.width i).any (isSubnormal f.fmt))
    fun hs _ => computeLanes f.fmt.width (laneCount hs f.fmt) fun i =>
      let r := g (fpMode hs f.rnd).rnd ((lanesAt hs vs f.fmt.width i).map (foperand f.fmt (fpMode hs f.rnd).flush))
      if rounded then roundLane f.fmt (fpMode hs f.rnd) r else (fbits f.fmt r.1, r.2)

/-- Float arithmetic (R148) and special functions (R159). -/
def vecFloatForm (s : State) : Instr → Option Form
  | .vadd d a b f => some (floatForm s d [a, b] f false true (fl2 fadd))
  | .vsub d a b f => some (floatForm s d [a, b] f false true (fl2 fun r x y => fadd r x (fneg y)))
  | .vmul d a b f => some (floatForm s d [a, b] f false true (fl2 fun _ x y => fmul x y))
  | .vdiv d a b f => some (floatForm s d [a, b] f false true (fl2 fun _ x y => fdiv x y))
  | .vmin d a b f => some (floatForm s d [a, b] ⟨f, .rne⟩ false false (fl2 fun _ x y => (fmin x y, {})))
  | .vmax d a b f => some (floatForm s d [a, b] ⟨f, .rne⟩ false false (fl2 fun _ x y => (fmax x y, {})))
  | .vabs d a f => some (floatForm s d [a] ⟨f, .rne⟩ false false (fl1 fun x => (fabs x, {})))
  | .vneg d a f => some (floatForm s d [a] ⟨f, .rne⟩ false false (fl1 fun x => (fneg x, {})))
  | .vsqrt d a f => some (floatForm s d [a] f false true (fl1 fsqrt))
  | .vfma d a b c f => some (floatForm s d [a, b, c] f false true (fl3 ffma))
  | .vfms d a b c f => some (floatForm s d [a, b, c] f false true (fl3 fun r x y z => ffma r x y (fneg z)))
  | .vfnma d a b c f => some (floatForm s d [a, b, c] f false true (fl3 fun r x y z => ffma r (fneg x) y z))
  | .vfnms d a b c f => some (floatForm s d [a, b, c] f false true (fl3 fun r x y z => ffma r (fneg x) y (fneg z)))
  | .vexp2 d a f => some (floatForm s d [a] f true true (fl1 (specialFn 0 fexp2)))
  | .vlog2 d a f => some (floatForm s d [a] f true true (fl1 (specialFn 1 flog2)))
  | .vrcp d a f => some (floatForm s d [a] f true true (fl1 frcp))
  | .vrsq d a f => some (floatForm s d [a] f true true (fl1 frsq))
  | .vtanh d a f => some (floatForm s d [a] f true true (fl1 (specialFn 2 ftanh)))
  | _ => none

/-- Lanes given one by one, without flags. -/
def plainLanes (d : Fin 16) (n : Need) (f : Fmt) (lane : HartState → List Word → Nat → Nat) : Form :=
  vecForm d n false (fun _ => 0) fun hs v => (lanesOf f.width (laneCount hs f) (lane hs v), {})

/-- A pattern by pattern instruction on two registers (R149). -/
def bitsLanes (s : State) (d a b : Fin 16) (f : Fmt) (g : Nat → Nat → Nat) : Form :=
  plainLanes d (vecNeed s [a, b] [f] true false [] []) f fun hs _ i =>
    g (laneGet (vecVal hs a) f.width i) (laneGet (vecVal hs b) f.width i)

/-- A compare (R150): all ones where the relation holds. -/
def compareForm (s : State) (d a b : Fin 16) (f : Fmt) (fg : FVal → FVal → Bool) (ig : Int → Int → Bool) : Form :=
  vecForm d (vecNeed s [a, b] [f] true false [] []) false
    (fun hs => if f.isInt then 0 else subnMask hs (laneCount hs f) fun i =>
      isSubnormal f (laneGet (vecVal hs a) f.width i) || isSubnormal f (laneGet (vecVal hs b) f.width i))
    fun hs _ => (lanesOf f.width (laneCount hs f) fun i =>
      if (if f.isInt then ig (intOf f (laneGet (vecVal hs a) f.width i)) (intOf f (laneGet (vecVal hs b) f.width i))
        else fg (foperand f hs.fp.subn (laneGet (vecVal hs a) f.width i)) (foperand f hs.fp.subn (laneGet (vecVal hs b) f.width i)))
      then 2 ^ f.width - 1 else 0, {})

/-- Random lanes (R161). -/
def rngForm (s : State) (d : Fin 16) (k c : Src) (f : Fmt) (g : Word → Word → Nat) : Form :=
  plainLanes d (vecNeed s [] [f] false false [k, c] []) f fun _ v i => g (v.getD 0 0) (v.getD 1 0 + BitVec.ofNat 64 i)

/-- Integer lanes, logic, compares, select, movement and random lanes (R149 to R151, R161). -/
def vecLaneForm (s : State) : Instr → Option Form
  | .viadd d a b f => some (bitsLanes s d a b f fun x y => x + y)
  | .visub d a b f => some (bitsLanes s d a b f fun x y => x + (2 ^ f.width - y))
  | .vimul d a b f => some (bitsLanes s d a b f fun x y => x * y)
  | .vand d a b f => some (bitsLanes s d a b f fun x y => x &&& y)
  | .vor d a b f => some (bitsLanes s d a b f fun x y => x ||| y)
  | .vxor d a b f => some (bitsLanes s d a b f fun x y => x ^^^ y)
  | .vshl d a b f => some (bitsLanes s d a b f fun x y => x * 2 ^ (y % f.width))
  | .vshr d a b f => some (bitsLanes s d a b f fun x y => x / 2 ^ (y % f.width))
  | .vsar d a b f => some (bitsLanes s d a b f fun x y => intBits f.width (signedLane f.width x / 2 ^ (y % f.width)))
  | .viadds d a b f => some (bitsLanes s d a b f fun x y => saturate f (intOf f x + intOf f y))
  | .vcmpeq d a b f => some (compareForm s d a b f feq fun x y => decide (x = y))
  | .vcmplt d a b f => some (compareForm s d a b f flt fun x y => decide (x < y))
  | .vcmple d a b f => some (compareForm s d a b f fle fun x y => decide (x ≤ y))
  | .vsel d a b c f => some (plainLanes d (vecNeed s [a, b, c] [f] true false [] []) f fun hs _ i =>
      if laneGet (vecVal hs c) f.width i ≠ 0 then laneGet (vecVal hs a) f.width i else laneGet (vecVal hs b) f.width i)
  | .vperm d a b f => some (plainLanes d (vecNeed s [a, b] [f] true false [] []) f fun hs _ i =>
      if laneGet (vecVal hs b) f.width i < laneCount hs f then laneGet (vecVal hs a) f.width (laneGet (vecVal hs b) f.width i) else 0)
  | .vbcast d a f => some (plainLanes d (vecNeed s [] [f] false false [a] []) f fun _ v _ => (v.getD 0 0).toNat)
  | .vins d a b l f => some (plainLanes d (laneNeed s (vecNeed s [a] [f] false false [b] []) f l) f fun hs v i =>
      if i = l.toNat then (v.getD 0 0).toNat else laneGet (vecVal hs a) f.width i)
  | .vrng d k c => some (rngForm s d k c .n64 fun x y => (rngMix x y).toNat)
  | .vrngf32 d k c => some (rngForm s d k c .n32 fun x y => (rngF32 x y).toNat)
  | .vrngf64 d k c => some (rngForm s d k c .f64 fun x y => (rngF64 x y).toNat)
  | _ => none
where
  /-- VINS of a lane that the register does not have is no instruction (R146). -/
  laneNeed (s : State) (n : Need) (f : Fmt) (l : BitVec 8) : Need := { n with illenc := n.illenc || badLane s f l }

/-- A scalar result of a vector instruction (R147, R151, R152). -/
def vecScalar (d : Dst) (n : Need) (subn : HartState → Word) (value : HartState → Word × FpFlags) : Form :=
  ⟨8, n, fun _ _ hs _ => hs.st.vl || subn hs == 0, fun h s hs _ =>
    if hs.st.vl then
      (s, addOp hs (newOp hs (if subn hs = 0 then .scalarF (value hs).1 (value hs).2 else .subnormal (subn hs)) (.scalar d)))
    else writeDst s h (raiseFlags hs (value hs).2) d (value hs).1⟩

/-- The lanes of a register, as patterns. -/
def allLanes (hs : HartState) (a : Fin 16) (f : Fmt) : List Nat := lanesTo (vecVal hs a) f.width (laneCount hs f)

/-- The subnormal lanes of a register; no lane of an integer format counts. -/
def subnLanes (f : Fmt) (a : Fin 16) (hs : HartState) : Word :=
  if f.isInt then 0 else subnMask hs (laneCount hs f) fun i => isSubnormal f ((allLanes hs a f).getD i 0)

def extremeForm (s : State) (d : Dst) (a : Fin 16) (f : Fmt) (fg : FVal → FVal → FVal) (ig : Int → Int → Int) : Form :=
  vecScalar d (vecNeed s [a] [f] false false [] [d]) (subnLanes f a) fun hs =>
    (if f.isInt then laneWord f (intBits f.width ((foldChoice ig ((allLanes hs a f).map (intOf f))).getD 0))
     else BitVec.ofNat 64 (fbits f ((foldChoice fg ((allLanes hs a f).map (foperand f hs.fp.subn))).getD .nan)), {})

/-- Lane extraction and reductions (R151, R152). -/
def vecScalarForm (s : State) : Instr → Option Form
  | .vext d a l f => some (vecScalar d (vecLaneForm.laneNeed s (vecNeed s [a] [f] false false [] [d]) f l) (fun _ => 0) fun hs =>
      (laneWord f (laneGet (vecVal hs a) f.width l.toNat), {}))
  | .vrsum d a f => some (vecScalar d (vecNeed s [a] [f.fmt] false false [] [d]) (subnLanes f.fmt a) fun hs =>
      if f.fmt.isInt then (laneWord f.fmt ((allLanes hs a f.fmt).sum % 2 ^ f.fmt.width), {})
      else (BitVec.ofNat 64 (floatSum f.fmt (fpMode hs f.rnd) (allLanes hs a f.fmt)).1,
        (floatSum f.fmt (fpMode hs f.rnd) (allLanes hs a f.fmt)).2))
  | .vrmin d a f => some (extremeForm s d a f fmin min)
  | .vrmax d a f => some (extremeForm s d a f fmax max)
  | _ => none

/-- Conversion of `n` lanes (R153, R154). -/
def convertForm (d : Fin 16) (n : Need) (f : FMod) (src : Fmt) (count : HartState → Nat) (lane : HartState → Nat → Nat) : Form :=
  vecForm d n false (fun hs => subnMask hs (count hs) fun i => isSubnormal src (lane hs i)) fun hs _ =>
    computeLanes f.fmt.width (count hs) fun i => convert src f.fmt (fpMode hs f.rnd) (lane hs i)

/-- VBENC of a block (R156): its subnormal lanes trap in short mode at issue, and are what the operation finds in long mode (R67). -/
def blockForm (b x : Src) (c : Fin 16) (o : BitVec 16) (r : Rnd) : Form :=
  let op (h : HartState) (v : List Word) : Pending :=
    asStore (memOp h (.vbenc (v.getD 1 0) (vecVal h c) h.st.vl (fpMode h r)) .none ⟨.rlx, .strand⟩
      [⟨v.getD 0 0 + o.signExtend 64, 64, .write, none⟩])
  let f := memForm 8 { srcs := [b, x], vecs := [c], profile := .coreOnly } fun _ _ h v =>
    let mask := blockMask h c (v.getD 1 0)
    if mask = 0 then checkAlign (op h v) (v.getD 0 0 + o.signExtend 64) 64 else { op h v with phase := .found .subn mask }
  { f with ok := fun h s hs v => (hs.st.vl || blockMask hs c (v.getD 1 0) == 0) && f.ok h s hs v }

/-- Conversions, blocks and vector memory (R153 to R158). -/
def vecMemoryForm (s : State) : Instr → Option Form
  | .vcvt d a f src => some (convertForm d (vecNeed s [a] [f.fmt, src] false false [] []) f src
      (fun hs => regBits hs / max src.width f.fmt.width) fun hs i => laneGet (vecVal hs a) src.width i)
  | .vnarrow d a b f src => some (convertForm d (vecNeed s [a, b] [f.fmt, src] true false [] []) f src
      (fun hs => 2 * (regBits hs / src.width)) fun hs i =>
        if i < regBits hs / src.width then laneGet (vecVal hs a) src.width i
        else laneGet (vecVal hs b) src.width (i - regBits hs / src.width))
  | .vbdec d b e o =>
    let f := memForm 8 { srcs := [b, e], profile := .coreOnly, place := true } fun h s hs v =>
      atWord hs (.vbdec (v.getD 1 0) hs.fp.subn (coreOf s (ownCore h)).books) (vecDest hs d) ⟨.rlx, .strand⟩
        (v.getD 0 0 + o.signExtend 64) 64 .read
    some { f with ok := fun h s hs v => !setPending s h && f.ok h s hs v }
  | .vbenc b x c o r => some (blockForm b x c o r)
  | .vld d b o m => some (memForm (dispSize o) { srcs := [b], profile := .coreOnly, place := true } fun _ _ hs v =>
      checkAlign (memOp hs .vload (vecDest hs d) m (spansOf (v.getD 0 0 + dispValue o) (regBits hs / 8) .read)) (v.getD 0 0 + dispValue o) 32)
  | .vst b x o m => some (memForm (dispSize o) { srcs := [b], vecs := [x], profile := .coreOnly } fun _ _ hs v =>
      let spans := spansOf (v.getD 0 0 + dispValue o) (regBits hs / 8) .write
      checkAlign (asStore (memOp hs (.store (splitBytes spans (vecBytes hs x))) .none m spans)) (v.getD 0 0 + dispValue o) 32)
  | .vgath d b x w m => some (memForm 8 { srcs := [b], vecs := [x], profile := .coreOnly, place := true } fun _ _ hs v =>
      memOp hs .vgather (vecDest hs d) m (laneSpans hs (v.getD 0 0) x w .read))
  | .vscat b x c w m => some (memForm 8 { srcs := [b], vecs := [x, c], profile := .coreOnly } fun _ _ hs v =>
      asStore (memOp hs (.store ((lanesTo (vecVal hs c) (16 * 2 ^ w.val) (regBits hs / (16 * 2 ^ w.val))).map fun x =>
        leBytes (16 * 2 ^ w.val / 8) x)) .none m (laneSpans hs (v.getD 0 0) x w .write)))
  | _ => none

/-! Matrix instructions (R165 to R195). -/

/-- A matrix instruction enters the queue of its core (R170): the tiles it names pass the checks of R169, no restore of one is queued,
no state of the slot is frozen, the queue has room, and a C4 tile does not wait for a codebook set (R182). -/
def mxReady (h : Hart) (s : State) (tiles : List (Fin 8)) (bad c4 : CoreState → Bool) (ahead : Bool) : Bool :=
  let cs := coreOf s (ownCore h)
  (ahead || (!restoring cs tiles && (tileCause cs (hartSlot h) tiles).isNone && !frozenFor cs (hartSlot h))) && !bad cs &&
    decide (cs.queue.length < 16) && !(c4 cs && setPending s h)

/-- A matrix instruction without an outstanding place. -/
def mxForm (n : Need) (tiles : List (Fin 8)) (bad : List Word → CoreState → Bool) (c4 : CoreState → Bool)
    (scale : HartState → Option (BitVec 32)) (op : HartState → List Word → MxOp) : Form :=
  ⟨8, n, fun h s _ v => mxReady h s tiles (bad v) c4 false, fun h s hs v =>
    (enqueue s h hs (ownCore h) (op hs v) none (snapOf (coreOf s (ownCore h)) hs tiles (scale hs)), hs)⟩

/-- A matrix instruction that accesses memory: its access enters program order too. -/
def mxMemForm (size : Nat) (n : Need) (tiles : List (Fin 8)) (ahead : Bool) (op : State → List Word → MxOp)
    (p : HartState → List Word → CoreState → Pending) : Form :=
  let q (h : Hart) (s : State) (hs : HartState) (v : List Word) : State :=
    enqueue s h hs (ownCore h) (op s v) (some hs.run.seq) (snapOf (coreOf s (ownCore h)) hs tiles none)
  let r (h : Hart) (s : State) (hs : HartState) (v : List Word) : State × HartState :=
    addMem (q h s hs v) h hs { p hs v (coreOf s (ownCore h)) with op := .matrix s.nextId }
  ⟨size, n, fun h s hs v => mxReady h s tiles (fun _ => false) (fun _ => false) ahead && !secondRemote (q h s hs v) hs (r h s hs v).2, r⟩

/-- A slice move to a register. -/
def sliceForm (s : State) (col : Bool) (d : Fin 16) (t : Fin 8) (a : Src) (start : BitVec 8) (f : FMod) : Form :=
  ⟨8, mxNeed s [a] true false, fun h s _ v => mxReady h s [t] (sliceBad t col (v.getD 0 0)) (isC4 t) false, fun h s hs v =>
    (enqueue s h hs (ownCore h) (.rowv col d t (v.getD 0 0) start.toNat f.fmt (sliceRnd hs f.rnd)) (some hs.run.seq)
      (snapOf (coreOf s (ownCore h)) hs [t] none), addOp hs (newOp hs (.matrix s.nextId) (.v d)))⟩

/-- TSHAPE of a tile that this slot owns or that has no shape (R173): a word of zero releases it, a legal one shapes it. -/
def shapeForm (n : Need) (size : Nat) (t : Fin 8) (w : List Word → Word) : Form :=
  ⟨size, n, fun h s _ v =>
    let cs := coreOf s (ownCore h)
    !restoring cs [t] && !(shapeValid (tileOf cs t).shape && shapeOwner (tileOf cs t).shape != hartSlot h) && !frozenFor cs (hartSlot h) &&
      (w v == 0 || (shapeWordOk (w v) && decide (cs.queue.length < 16))),
   fun h s hs v =>
    let c := ownCore h
    let cs := coreOf s c
    let cs1 := setTile cs t { tileOf cs t with
      shape := w v ||| BitVec.ofNat 64 (hartSlot h * 2 ^ 24 + 2 ^ 28)
      absent := false }
    if w v = 0 then (setCore s c (releaseTile cs t), hs)
    else (enqueue (setCore s c cs1) h hs c (.clear t) none (snapOf cs1 hs [t] none), hs)⟩

/-- Matrix instructions without memory (R173, R174, R177 to R187). -/
def matrixForm (s : State) : Instr → Option Form
  | .tshape t w => some (shapeOpForm s t w)
  | .tzero t => some (mxForm (mxNeed s [] false false) [t] (fun _ _ => false) (fun _ => false) (fun _ => none) fun _ _ => .zero t)
  | .trowv d t a st f => some (sliceForm s false d t a st f)
  | .tcolv d t a st f => some (sliceForm s true d t a st f)
  | .vtrow t x a st f => some (rowForm s false t x a st f)
  | .vtcol t x a st f => some (rowForm s true t x a st f)
  | .mma d a b sc e => some (mxForm (mxNeed s [] false false) [d, a, b] (fun _ => mmaBad d a b) (isC4 b) (fun hs => scaleSel hs sc e)
      fun _ _ => .mma d a b)
  | .mmar d a b => some (mxForm (mxNeed s [] false false) [d, a, b] (fun _ => mmaBad d a b) (isC4 b) (fun _ => none) fun _ _ => .mmar d a b)
  | .mmau d a b sc e => some (unfoldForm s d a b sc e)
  | .mucode a => some ⟨8, mxNeed s [a] false false, fun h s _ v =>
      ((List.range 4).all fun n => microOk ((v.getD 0 0).extractLsb' (16 * n) 16)) && !frozenFor (coreOf s (ownCore h)) (hartSlot h),
      fun _ s hs v => (s, { hs with mx := { hs.mx with ucode := v.getD 0 0 } })⟩
  | _ => none
where
  /-- TSHAPE's word: a register, or a word of its own. -/
  shapeOpForm (s : State) (t : Fin 8) : ShapeOp → Form
    | .reg a => shapeForm (mxNeed s [a] false false) 8 t fun v => v.getD 0 0
    | .word x => shapeForm (mxNeed s [] false false) 12 t fun _ => x.zeroExtend 64
  /-- A slice move to a tile. -/
  rowForm (s : State) (col : Bool) (t : Fin 8) (x : Fin 16) (a : Src) (st : BitVec 8) (f : FMod) : Form :=
    mxForm { mxNeed s [a] false false with vecs := [x] } [t] (fun v cs => sliceBad t col (v.getD 0 0) cs || isC4 t cs) (fun _ => false)
      (fun _ => none) fun hs v => .vrow col t (vecVal hs x) (v.getD 0 0) st.toNat f.fmt (sliceRnd hs f.rnd)
  /-- MMAU: the elements of its virtual A are read from the scratchpad, after the strand's own stores to it (R184, R185). -/
  unfoldForm (s : State) (d : Fin 8) (a : Src) (b : Fin 8) (sc : BitVec 2) (e : Bool) : Form :=
    ⟨8, mxNeed s [a] false false, fun h s hs v =>
      mxReady h s [d, b] (unfoldBad (unfoldOf hs.mx.unf) d b) (isC4 b) false && !ownScratchStores s (ownCore h) hs
        (unfoldBytes (unfoldOf hs.mx.unf).fmt (unfolded h s hs d b v)), fun h s hs v =>
      let cs := coreOf s (ownCore h)
      (enqueue s h hs (ownCore h) (.mmau d b (shapeRows (tileOf cs b).shape) (unfoldOf hs.mx.unf).fmt (unfolded h s hs d b v) false) none
        (snapOf cs hs [d, b] (scaleSel hs sc e)), hs)⟩
  /-- The elements of an MMAU's virtual A, row by row (R184). -/
  unfolded (h : Hart) (s : State) (hs : HartState) (d b : Fin 8) (v : List Word) : List UnfoldElem :=
    let cs := coreOf s (ownCore h)
    (List.range (shapeRows (tileOf cs d).shape)).flatMap fun i => (List.range (shapeRows (tileOf cs b).shape)).map fun j =>
      unfoldElem s.mem (ownCore h) (unfoldOf hs.mx.unf) (((v.getD 0 0).extractLsb' 0 32).toNat + i) (((v.getD 0 0).extractLsb' 32 32).toNat + j)

/-- Tile loads, stores and images, and commands to another core (R175, R176, R182, R188, R192, R193, R195). -/
def matrixMemoryForm (s : State) : Instr → Option Form
  | .tld t b p o m => some (mxMemForm (dispSize o) (mxNeed s [b, p] true false) [t] false (fun _ _ => .tld t none []) fun hs v cs =>
      alignTile (memOp hs .fence .none m (rowSpans (shapeRows (tileOf cs t).shape) (rowBytes (tileOf cs t).shape)
        (v.getD 0 0 + dispValue o) (v.getD 1 0) .read)) (v.getD 0 0 + dispValue o) (v.getD 1 0) (elemSize (fmtOfShape (tileOf cs t).shape)))
  | .tldBlk t b p e o m => some (mxMemForm (dispSize o) (mxNeed s [b, p, e] true false) [t] false (fun _ v => .tld t (some (v.getD 2 0)) [])
      fun hs v cs => alignTile (memOp hs .fence .none m (rowSpans (shapeRows (tileOf cs t).shape) 64
        (v.getD 0 0 + dispValue o) (v.getD 1 0) .read)) (v.getD 0 0 + dispValue o) (v.getD 1 0) 64)
  | .tst t b p o m => some (mxMemForm (dispSize o) (mxNeed s [b, p] true false) [t] false (fun _ _ => .tst t) fun hs v cs =>
      alignTile { memOp hs .fence .none m (rowSpans (shapeRows (tileOf cs t).shape) (rowBytes (tileOf cs t).shape)
        (v.getD 0 0 + dispValue o) (v.getD 1 0) .write) with store := true }
        (v.getD 0 0 + dispValue o) (v.getD 1 0) (elemSize (fmtOfShape (tileOf cs t).shape)))
  | .cbload set b o m => some (mxMemForm (dispSize o) (mxNeed s [b] true false) [] false (fun _ _ => .cbload set) fun hs v _ =>
      checkAlign (memOp hs .fence .none m [⟨v.getD 0 0 + dispValue o, 32, .read, none⟩]) (v.getD 0 0 + dispValue o) 32)
  | .msave b n o m => some (mxMemForm (dispSize o) (mxNeed s [b, n] true true) [] true (fun s v => .msave (v.getD 1 0) (firstBits s))
      fun hs v _ => imageOp hs m (v.getD 0 0 + dispValue o) 18432 .write true)
  | .mrestore b n o m => some (mxMemForm (dispSize o) (mxNeed s [b, n] true true) [] true (fun s v => .mrestore (v.getD 1 0) (firstBits s))
      fun hs v _ => imageOp hs m (v.getD 0 0 + dispValue o) 18432 .read false)
  | .tsave t b o m => some (mxMemForm (dispSize o) (mxNeed s [b] true true) [t] true (fun _ _ => .tsave t) fun hs v _ =>
      imageOp hs m (v.getD 0 0 + dispValue o) 1152 .write true)
  | .trst t b o m => some (mxMemForm (dispSize o) (mxNeed s [b] true true) [t] true (fun _ _ => .trst t) fun hs v _ =>
      imageOp hs m (v.getD 0 0 + dispValue o) 1152 .read false)
  | .mcmd d c a b x o m => some (commandForm (if c.isSome then 12 else 8) { mxNeed s [a, b, x] true false with dsts := [d] } fun h _ hs v =>
      let pa := windowAddr (optCore h hs c) 3 (v.getD 0 0) o
      let p := { windowOp h hs (.mcmd (v.getD 1 0) (v.getD 2 0) none) (.scalar d) m pa 8 .write with store := true }
      if (windowParts pa).2.2 ≠ 0 then { p with phase := .found .winflt (BitVec.ofNat 64 pa) } else p)
  | _ => none
where
  /-- MCMD waits while the slot holds frozen state (R293). -/
  commandForm (size : Nat) (n : Need) (op : Hart → State → HartState → List Word → Pending) : Form :=
    let f := memForm size n op
    { f with ok := fun h s hs v => !frozenFor (coreOf s (ownCore h)) (hartSlot h) && f.ok h s hs v }

/-! Launches, queues, named barriers and bulk copies at issue (R207 to R219). -/

/-- SPAWN: its die has a join record for the strand, or one is free (R279). -/
def spawnForm (size : Nat) (d : Dst) (e a : Src) (target : Hart → HartState → Option Nat) : Form :=
  let op (h : Hart) (hs : HartState) (v : List Word) : Pending := newOp hs (.spawn (v.getD 0 0) (v.getD 1 0) (target h hs)) (.scalar d)
  ⟨size, { srcs := [e, a], dsts := [d], profile := .coreOnly, place := true },
   fun h s hs _ => hs.joinOwn.isSome || (freeJoin s (hartDie h)).isSome,
   fun h s hs v => match hs.joinOwn, freeJoin s (hartDie h) with
     | none, some r => (setJoin s r ⟨hs.id.uid, 0⟩, addOp { hs with joinOwn := some r } (op h hs v))
     | _, _ => (s, addOp hs (op h hs v))⟩

/-- A bulk copy is an outstanding operation of its engine; of no byte, it is a store of none (R209). -/
def copyForm (a b c : Src) (bar : Option (BitVec 64)) (m : MemMod) : Form :=
  let none_ (h : Hart) (s : State) (hs : HartState) (dst : Word) : State × HartState :=
    addMem s h hs { memOp hs .storeNone .none m [⟨dst, 1, .write, none⟩] with store := true }
  ⟨if bar.isSome then 16 else 8, { srcs := [a, b, c], profile := .engineOnly, place := true },
   fun h s hs v => v.getD 2 0 != 0 || !secondRemote s hs (none_ h s hs (v.getD 0 0)).2,
   fun h s hs v => if v.getD 2 0 = 0 then none_ h s hs (v.getD 0 0) else (s, addOp hs (memOp hs
     (.bcopy (v.getD 0 0) (v.getD 1 0) (v.getD 2 0) bar 0 0) .none m (copySpans (v.getD 1 0) (v.getD 0 0) (v.getD 2 0).toNat)))⟩

/-- A broadcast: W gives the destination offset, the barrier's offset and whether there is one (R210). -/
def castForm (a b c : Src) (mask : BitVec 64) (quad die : BitVec 2) : Form :=
  ⟨16, { srcs := [a, b, c], profile := .engineOnly, place := true },
   fun h s _ v => decide ((v.getD 1 0).toNat % 2 ^ 18 + (v.getD 2 0).toNat ≤ 0x40000) && mask != 0 &&
     ((castCores h mask quad die).all fun k => coreUsable s k) && (v.getD 1 0).extractLsb' 18 14 == 0 &&
     (v.getD 1 0).extractLsb' 51 13 == 0,
   fun h s hs v =>
     let w := v.getD 1 0
     let op := memOp hs (.bcast (v.getD 0 0) (v.getD 2 0) (w.toNat % 2 ^ 18) (w.toNat / 2 ^ 32 % 2 ^ 18) (w.getLsbD 50)
       (castCores h mask quad die) 0 0) .none ⟨.rlx, .system⟩ [⟨v.getD 0 0, (v.getD 2 0).toNat, .read, none⟩]
     (s, addOp hs (if v.getD 2 0 = 0 then { op with phase := .done [] } else op))⟩

/-- QSND.NB on a bound output port: 0 and a push where the port shows go, else 1, and the port stops (R217). -/
def sendForm (d : Dst) (p : Fin 4) (b : Src) : Form :=
  ⟨8, { srcs := [b], dsts := [d], profile := .coreOnly }, fun _ _ hs _ => (portOf hs p).bound && (portOf hs p).out, fun h s hs v =>
    if canPush s h hs p then writeDst (push s h hs p (v.getD 0 0) hs.run.seq) h hs d 0
    else writeDst s h (setPort hs p { portOf hs p with stop := true }) d 1⟩

/-- An operation on an initialised barrier of the strand's own cluster (R219). -/
def namedForm (d : Dst) (srcs : List Src) (init : Bool) (n : Fin 48) (op : HartState → Nat → List Word → HartState × Op) : Form :=
  ⟨8, { srcs := srcs, dsts := [d], profile := .coreOnly, place := true },
   fun h s hs v => match nbCore h hs (v.getD 0 0) with
     | none => false
     | some c => !init || (nbarOf (coreOf s c) n.val).init,
   fun h s hs v => match nbCore h hs (v.getD 0 0) with
     | none => (s, hs)
     | some c => (s, addOp (op hs c v).1 (nbOp hs (op hs c v).2 d))⟩

def launchForm : Instr → Option Form
  | .kick d a b m => some (.plain 8 { srcs := [a, b], dsts := [d], place := true } fun _ s hs v =>
      (s, addOp hs { newOp hs (.kick (v.getD 0 0) (v.getD 1 0)) (.scalar d) with mod := m }))
  | .tpost d b o m => some (accessForm 8 [b] [d] true fun _ hs v => atWord hs .tpost (.scalar d) (postMod m) (v.getD 0 0 + o.signExtend 64) 32 .read)
  | .glaunch d a done => some (memForm 16 { srcs := [a], dsts := [d], profile := .coreOnly, place := true } fun _ _ hs v =>
      gridOp hs d done (v.getD 0 0))
  | .spawn d e a c => some (spawnForm (if c.isSome then 16 else 8) d e a fun h hs => c.map (coordCore h hs))
  | .bcopy a b c bar m => some (copyForm a b c bar m)
  | .bcast a b c mask quad die => some (castForm a b c mask quad die)
  | .qbind p a => some ⟨8, { srcs := [a], profile := .coreOnly }, fun _ _ _ v => bindingOk (v.getD 0 0), fun h s hs v =>
      rebind s h hs p (v.getD 0 0)⟩
  | .qsndNb d p b _ => some (sendForm d p b)
  | .qstat d p => some (.plain 8 { dsts := [d], profile := .coreOnly } fun h s hs _ => writeDst s h hs d (qstatWord (portOf hs p)))
  | .nbinit a b n => some ⟨8, { srcs := [a, b], profile := .coreOnly },
      fun h s hs v => decide (1 ≤ (v.getD 1 0).toNat ∧ (v.getD 1 0).toNat ≤ 64) && match nbCore h hs (v.getD 0 0) with
        | none => false
        | some c => (nbarOf (coreOf s c) n.val).arr == 0 && !nbWaiters s c n.val,
      fun h s hs v => match nbCore h hs (v.getD 0 0) with
        | none => (s, hs)
        | some c => (setCore s c (setNbar (coreOf s c) n.val ⟨(v.getD 1 0).toNat, 0, 0, true⟩), hs)⟩
  | .nbarr d a n => some (namedForm d [a] true n fun hs c _ => ((takePhase hs).2, .nbArrive c n.val (takePhase hs).1))
  | .nbwait d a b n => some (namedForm d [a, b] false n fun hs c v => (hs, .nbWait c n.val (v.getD 1 0)))
  | _ => none
where
  /-- GLAUNCH's request: the completion word first, when there is one, then the descriptor (R213). -/
  gridOp (hs : HartState) (d : Dst) (done : BitVec 64) (a : Word) : Pending :=
    let word : List Span := if done = 0 then [] else [⟨done, 8, .write, none⟩]
    let op := memOp hs (.glaunch done) (.scalar d) ⟨.ar, .package⟩ (word ++ [⟨a, if aligned a 32 then 32 else 0, .read, none⟩])
    if done = 0 then op else checkAlign op done 8

/-! System registers, translation, halt and vector mode (R162, R163, R198, R220, R221). -/

/-- An MTS of a register of the strand. -/
def strandForm (a : Src) (supervisor : Bool) (f : HartState → Word → HartState) : Form :=
  .plain 8 { srcs := [a], supervisor := supervisor } fun _ s hs v => (s, f hs (v.getD 0 0))

/-- An MTS of a register of the core, once the queue entries it waits for are gone. -/
def coreForm (a : Src) (supervisor : Bool) (free : State → Nat → CoreState → Bool) (f : State → Nat → CoreState → Word → CoreState) :
    Form :=
  ⟨8, { srcs := [a], supervisor := supervisor, profile := .coreOnly }, fun h s _ _ => free s (ownCore h) (coreOf s (ownCore h)), fun h s hs v =>
    (setCore s (ownCore h) (f s (ownCore h) (coreOf s (ownCore h)) (v.getD 0 0)), hs)⟩

/-- An MTS of a register of the die or the module. -/
def moduleForm (a : Src) (f : State → Hart → Word → State) : Form :=
  .plain 8 { srcs := [a], supervisor := true } fun h s hs v => (f s h (v.getD 0 0), hs)

/-- A translation invalidation: nothing is outstanding, and no walk of the module is in flight (R220). -/
def invalidateForm (srcs : List Src) (f : List Word → TlbEntry → Bool) : Form :=
  ⟨8, { srcs := srcs, profile := .coreOnly, supervisor := true }, fun h s hs _ => drained hs && !walking s (hartModule h), fun h s hs v =>
    (dropTranslations s (hartModule h) (f v), hs)⟩

def systemForm : Instr → Option Form
  | .mfs d r => some (.plain 8 (readNeed d r) fun h s hs _ =>
      if sysVariable r then (s, addOp hs (newOp hs (.value (sysRead s h hs r)) (.scalar d)))
      else writeDst (if r = .time then sawTime s h else s) h hs d (sysRead s h hs r))
  | .mts r a => if r = .time then none else some (strandForm a (plainPrivileged r) (plainWrite r))
  | .sstatWrite a => some (strandForm a true fun hs x => { hs with st := sstatWrite hs.st x })
  | .fpctlWrite a => some (strandForm a false fun hs x => { hs with fp := fpctlWrite hs.fp x })
  | .timecmpWrite a => some (strandForm a false fun hs x => { hs with timecmp := x })
  | .cbselWrite a => some (coreForm a false (fun _ _ _ => true) fun _ _ cs x => { cs with cbsel := x.truncate 2 })
  | .mcapWrite a => some (coreForm a true (fun s c cs => (portTickets s c).isEmpty && cs.queue.all fun e => !isCommand e) fun _ _ cs x => { cs with mcap := x })
  | .tshapeWrite n a => some (coreForm a true (fun _ _ cs => cs.queue.all fun e => !(mxTiles e.op).contains n) fun _ _ cs x =>
      setTile cs n { tileOf cs n with shape := shapeMask x })
  | .tdirtyWrite a => some (coreForm a true (fun _ _ cs => cs.queue.all fun e => e.remote && (mxTiles e.op).isEmpty) fun s c cs x =>
      (List.finRange 8).foldl (fun k t => if dirtyWritable s c cs t then dirtied k t x else k) cs)
  | .wdogWrite a => some (.plain 8 { srcs := [a], supervisor := true, profile := .coreOnly } fun h s hs v =>
      ((List.range 8).foldl (unwatch (ownCore h)) (setCore s (ownCore h) { coreOf s (ownCore h) with wdog := (v.getD 0 0).truncate 32 }),
       { hs with run := { hs.run with watch := 0 } }))
  | .ptbrWrite a => some ⟨8, { srcs := [a], supervisor := true }, fun _ _ hs _ => hs.run.ops.all fun p => p.spans.isEmpty && !p.op.isLaunch, fun _ s hs v =>
      (s, { hs with ptbr := ptbrOfWord (v.getD 0 0) })⟩
  | .thrankWrite a => some (moduleForm a fun s h x => setDie s (hartDie h) (ranked (dieState s (hartDie h)) x))
  | .tttbWrite a => some (moduleForm a fun s h x =>
      setModule s (hartModule h) { moduleOf s (hartModule h) with tttb := x &&& 0x01FFFFFFFFFFFFC0#64 })
  | .mevtWrite a => some (.plain 8 { srcs := [a], supervisor := true } fun h s hs v =>
      (events h s hs (v.getD 0 0), (hartOf (events h s hs (v.getD 0 0)) h).getD hs))
  | .tlbinvPg a b => some (invalidateForm [a, b] fun v e => e.va == pageBase (v.getD 0 0) e.leaf.size && taggedBy (v.getD 1 0) e)
  | .tlbinvAll b => some (invalidateForm [b] fun v e => taggedBy (v.getD 0 0) e)
  | .halt => some ⟨8, { profile := .coreOnly, supervisor := true }, fun _ _ hs _ => drained hs, fun _ s hs _ =>
      (s, { hs with run := { hs.run with halted := true } })⟩
  | .vmodeL => some ⟨8, { profile := .coreOnly }, fun h s hs _ =>
      drained hs && (hs.st.vl || mayTakeLong s (coreCluster (ownCore h)) hs.id.uid), fun _ s hs _ =>
      (if hs.st.vl then s else { s with longWait := s.longWait.filter (· ≠ hs.id.uid) }, enterLong hs)⟩
  | .vmodeS => some ⟨8, { profile := .coreOnly }, fun _ _ hs _ => drained hs, fun _ s hs _ =>
      (s, { hs with st := { hs.st with vl := false }, regs := { hs.regs with w := Vector.replicate 16 ⟨0, true⟩ } })⟩
  | _ => none
where
  /-- What MFS needs: supervisor level for a privileged register, a core for one of a core. -/
  readNeed (d : Dst) (r : SysReg) : Need :=
    { dsts := [d], supervisor := sysPrivileged r, profile := if sysOfCore r then .coreOnly else .any, place := sysVariable r }
  /-- A command of another core, accepted under the capability (R189). -/
  isCommand (e : MxEntry) : Bool := e.remote && match e.op with
    | .window _ _ | .windowRead _ _ _ => false
    | _ => true
  /-- MEVT written: what is pending goes to the strand that it now names (R204). -/
  events (h : Hart) (s : State) (hs : HartState) (x : Word) : State :=
    deliverEvents (setHart (setModule s (hartModule h) { moduleOf s (hartModule h) with mevt := x &&& 0x3FFF#64 }) h hs) (hartModule h)
  /-- TDIRTY's two bits of a tile (R168). -/
  dirtied (k : CoreState) (t : Fin 8) (x : Word) : CoreState := setTile k t { tileOf k t with
    dirty := x.getLsbD t.val
    absent := x.getLsbD (8 + t.val) }
  /-- THRANK: one place of the die's ranking table (R282). -/
  ranked (ds : DieState) (x : Word) : DieState := { ds with
    thrank := x.truncate 16
    ranks := assocSet ds.ranks (x.toNat % 256) (x.toNat / 256 % 256) }
  /-- The watchdog of a slot counts from zero (R271). -/
  unwatch (c : Nat) (s : State) (n : Nat) : State := match hartOf s (.strand c n) with
    | some x => setHart s (.strand c n) { x with run := { x.run with watch := 0 } }
    | none => s

/-- The form of every program instruction that completes by going past itself; transfers, TRAP, ECALL, ERET, RETIRE and an MTS of TIME
have none. -/
def programForm (s : State) (i : Instr) : Option Form :=
  ([aluForm i, relationForm i, selectForm i, fieldForm i, randomForm i, divideForm i, stepForm i, loadsForm i, storesForm i, atomicsForm i,
    objectsForm i, tilesForm i, fencesForm i, vecFloatForm s i, vecLaneForm s i, vecScalarForm s i, vecMemoryForm s i, matrixForm s i,
    matrixMemoryForm s i, launchForm i, systemForm i] : List (Option Form)).findSome? id

/-- The scalar instructions whose result is written at issue. -/
def scalarTable (i : Instr) : Option Form :=
  ([aluForm i, relationForm i, selectForm i, fieldForm i, randomForm i] : List (Option Form)).findSome? id

/-- The instructions whose access enters program order at issue and is performed later. -/
def accessTable (i : Instr) : Option Form := ([loadsForm i, storesForm i, atomicsForm i] : List (Option Form)).findSome? id

/-! What stays. -/

/-- The hart's status, control, trap and matrix registers, its translation, its identity, and what its children count on are as they
were. -/
def sameControl (a b : HartState) : Prop :=
  b.st = a.st ∧ b.migr = a.migr ∧ b.fp = a.fp ∧ b.mx = a.mx ∧ b.timecmp = a.timecmp ∧ b.trap = a.trap ∧ b.ptbr = a.ptbr ∧
    b.take = a.take ∧ b.id = a.id ∧ b.joinOwn = a.joinOwn ∧ b.joinParent = a.joinParent ∧ b.plink = a.plink

/-- Every byte of memory reads as it did. -/
def sameMemory (s t : State) : Prop := ∀ a : Nat, memByte t.mem a = memByte s.mem a

/-- A byte at an address is no byte of a piece. -/
def outside (x : Span) (b : Nat) : Prop := ∀ a : Placed, x.at_ = some a → b < a.pa ∨ a.pa + x.len ≤ b

/-- A number with its sign. -/
def signedNat (neg : Bool) (n : Nat) : Int := if neg then -(n : Int) else n

/-! Invariants. -/

/-- No slot and no engine holds two harts. -/
def oneHartPerSlot (s : State) : Prop := (s.harts.map Prod.fst).Nodup

/-- The stores on their way have numbers of their own, below the next one to be given: a request names one store. -/
def storesNumbered (s : State) : Prop := (s.stores.map Accepted.n).Nodup ∧ ∀ a ∈ s.stores, a.n < s.nextStore

/-- Every hart but one is as it was. -/
def otherHarts (s t : State) (h : Hart) : Prop := ∀ k : Hart, k ≠ h → hartOf t k = hartOf s k

/-- A queue port's binding and its entries are as they were. -/
def samePorts (a b : HartState) (except : List Src) : Prop :=
  ∀ p : Fin 4, (portOf b p).cfg = (portOf a p).cfg ∧ (Src.q p ∉ except → portOf b p = portOf a p)

/-- The units of every core beside its barrel, every die and every module are as they were. -/
def sameUnits (s t : State) : Prop :=
  (∀ c : Nat, (coreOf t c).tiles = (coreOf s c).tiles ∧ (coreOf t c).queue = (coreOf s c).queue ∧ (coreOf t c).tags = (coreOf s c).tags ∧
    (coreOf t c).deferred = (coreOf s c).deferred ∧ (coreOf t c).nbars = (coreOf s c).nbars ∧ (coreOf t c).books = (coreOf s c).books ∧
    (coreOf t c).cbsel = (coreOf s c).cbsel ∧ (coreOf t c).mcap = (coreOf s c).mcap ∧ (coreOf t c).wdog = (coreOf s c).wdog) ∧
  (∀ d : Nat, dieState t d = dieState s d) ∧ ∀ m : Nat, moduleOf t m = moduleOf s m

/-- A strand that nothing keeps from entering a trap: it runs, no trap is in progress, and nothing is outstanding but what a trap
withdraws, without a memory fault among it (R31, R34, R200). -/
def mayTrap (hs : HartState) : Prop :=
  hs.run.halted = false ∧ hs.st.tip = false ∧ clean hs = true ∧ oldestFault hs = none

/-- The strand in its handler (R31, R34, R199): `tres` is the first instruction that has not issued. Of what was outstanding only the fences
stay (R264). -/
def inHandler (hs hs' : HartState) (cause : BitVec 7) (tval tres : Word) : Prop :=
  hs'.st = { hs.st with ppriv := hs.st.priv, priv := 1, tip := true } ∧
  hs'.trap = { hs.trap with
    tcause := cause
    tval := tval
    tres := tres &&& ~~~3#64
    rply := (replayRecord hs).2.1
    nbpend := (replayRecord hs).2.2
    tpc := if (replayRecord hs).2.1 = 0 then tres else (replayRecord hs).1 } ∧
  hs'.pc = hs.trap.tvec ∧ hs'.regs = hs.regs ∧ hs'.fp = hs.fp ∧ hs'.mx = hs.mx ∧ hs'.ports = hs.ports ∧ hs'.ptbr = hs.ptbr ∧
  hs'.timecmp = hs.timecmp ∧ hs'.id = hs.id ∧ hs'.migr = hs.migr ∧ hs'.run.ops = hs.run.ops.filter (fun p => p.op.isFence) ∧ hs'.run.halted = false ∧ hs'.run.replay.todo = []

/-- A hart that is to be trapped: it issues no more, and its trap waits for what is outstanding (R34), an engine's for its report (R208).
`issued` tells the causes of R202, whose instruction counts as issued. -/
def trapRaised (s : State) (h : Hart) (hs : HartState) (c : Cause) (v : Word) (issued : Bool) : State :=
  let hs1 := if issued then countIssue hs else hs
  let s1 := setHart s h { hs1 with run := { hs1.run with due := some (c, v, issued), park := .ready } }
  if issued then noteIssue s1 h else s1

/-! Events. A table gives the state after each event of its family, where the event is due. -/

/-- An event that is due. -/
def due (b : Bool) (t : State) : Option State := if b then some t else none

/-- The state after a coherence request that goes through, and what follows it. -/
def granted (r : CohResult) (f : State → State) : Option State := match r with
  | .ok s' => some (f s')
  | .wait _ => none

/-- What a strand's own hardware does: results, traps, time, its ports, its queue of matrix instructions (R24, R25, R29, R31, R119, R142,
R147, R158, R160, R162, R170, R199, R204, R205, R217, R271, R302, R306). -/
def hartEvents (s : State) : Instr → Option State
  | .resultReturn h n => (hartOf s h).bind fun hs => (findOp hs n).bind fun p => match p.phase with
      | .found c v => some (failOp s h n (foundCause s h p c v).1 (foundCause s h p c v).2)
      | .done r => some (tidyJoin (giveDone s h hs p r) h)
      | .request => unitResult s h hs p
      | _ => none
  | .storeAccept h n => (openOp s h n).bind fun x => let (hs, p) := x
      if p.unaccepted && mayAccept hs p then
        if p.op.heldStore then due (heldCause s h p).isNone (setHart s h (setOp hs { p with accepted := true }))
        else if p.op.buffered && (storeCause s h p).isNone then match p.op with
          | .cflush | .cinval => granted (cacheEffect s h hs p) fun s' => endStore s' h hs p
          | .storeNone => some (if answered p then send s h hs p else endStore s h hs p)
          | _ => some (if answered p then send s h hs p else accept s h hs p)
        else none
      else none
  | .trapEntry h => some (enterTrap s h)
  | .asyncCauseTaken h => some (enterAsync s h)
  | .timer h => (hartOf s h).bind fun hs =>
      due (hs.timecmp != 0 && decide (hs.timecmp.toNat ≤ (timeWord s (hartModule h)).toNat))
        (setHart s h { raiseAsync hs .timer (timeWord s (hartModule h)) with timecmp := 0 })
  | .twaitDeadline h n => (openOp s h n).bind fun x => match x.2.op with
      | .twait t => due (decide (t.toNat ≤ timeRead s h)) (finishOp (sawTime s h) h n [natWord (timeRead s h)])
      | _ => none
  | .watchdogExpiry h => (hartOf s h).bind fun hs => (hartCore h).bind fun c =>
      due ((coreOf s c).wdog != 0 && decide ((coreOf s c).wdog.toNat ≤ hs.run.watch) && !hs.run.halted &&
        !hs.run.async.any fun x => x.1 == .watch || x.1 == .qstall) (setHart s h (stalled s h hs))
  | .drainRequest h a => (hartOf s h).bind fun hs => hs.run.drain.bind fun x =>
      due (!s.stores.any fun y => agentOf y.hart == a && !y.performed && decide (y.n < x.1))
        (setHart s h { hs with run := { hs.run with drain := remaining x.1 (x.2.filter (· ≠ a)) } })
  | .longContextGrant g => (longWaiters s g).head?.bind fun u => (hartByUid s u).bind fun x =>
      due (decide (longUsed s g < 16)) (if x.2.st.vl then { s with longWait := s.longWait.filter (· ≠ u) } else parked s x.1 x.2 .ready none)
  | .queuePush i => s.pushes[i]?.bind fun m =>
      match hartByUid s m.target with
      | some (t, ts) =>
        due (!((s.pushes.take i).any fun y => y.src == m.src && y.from_ == m.from_ && y.target == m.target) && pushReleased s m)
          (setHart (entryHeard { s with pushes := s.pushes.eraseIdx i } m t) t
            (setPort ts m.port { portOf ts m.port with buf := (portOf ts m.port).buf ++ [m.val] }))
      | none => due (!s.ships.any fun x => x.uid == m.target) { s with pushes := s.pushes.eraseIdx i }
  | .queueGoSignal h p => (hartOf s h).bind fun hs =>
      due ((portOf hs p).bound && (portOf hs p).out) (setHart s h (setPort hs p { portOf hs p with stop := (pushTarget s h hs p).isNone }))
  | .thawCheck h => (hartOf s h).bind fun hs => (hartCore h).bind fun c => (coreOf s c).frozen.bind fun f =>
      if thawDue s h hs && !hs.run.halted && !hs.run.held && !trapDue hs && !thawWaits s c hs.id.uid then
        match tileCause (coreOf s c) f.slot (f.entries.flatMap fun e => mxTiles e.op) with
        | some (.tlazy, v) => some (raiseIssue s h hs .tlazy v false)
        | some (k, v) => some (raiseIssue (setCore s c { coreOf s c with frozen := none }) h hs k v false)
        | none => some (thaws s hs c f)
      else none
  | .matrixInstructionCompletion c => mxFirst s c [] (coreOf s c).queue
  | .mcmdCommandArrival h n => (openOp s h n).bind fun x => match x.2.op with
      | .mcmd cmd cap none => due (x.2.phase == .request && mayPerform s h x.1 x.2 false && mayAccept x.1 x.2) (commandArrives s h x.1 x.2 cmd cap)
      | .mcmd cmd _ (some t) => (commandOf cmd).bind fun op =>
          due (x.2.phase == .request) (commandTurn s h x.1 x.2 (windowParts x.2.pa).1 t cmd op)
      | _ => none
  | .automaticMigration h => (hartOf s h).bind fun hs => (autoDest s h hs).bind fun c =>
      let s1 := orderShip s h hs c 1 none
      s1.ships.getLast?.bind fun x => (shipOf s1 x.n).bind fun y => (hartByUid s1 y.uid).bind fun k =>
        due y.hs.isNone (if movable s1 k.2 then shipSend s1 y k.1 k.2 else s1)
  | .migrationMessage i => (shipOf s i).bind fun x => match x.hs with
      | none => (hartByUid s x.uid).bind fun k => due (movable s k.2) (shipSend s x k.1 k.2)
      | some hs => if returned x.message then some (install (dropShip s i) x.core x.slot (shipped s x hs 3))
          else some (match shipPlace s x.dest with
            | some (c, n) => install (dropShip s i) c n (shipped s x hs 0)
            | none => { s with ships := s.ships.map fun y => if y.n = i then { y with message := shipMessage s x hs true } else y })
  | _ => none
where
  /-- A result of a unit of the core: known ones return in any order, the long-vector unit serves a strand in its order (R147), and the
  special-function unit serves its core one by one (R160). -/
  unitResult (s : State) (h : Hart) (hs : HartState) (p : Pending) : Option State := match p.op with
    | .value v => some (giveResult s h hs p [v] {})
    | .mig k => some (giveResult s h hs p [natWord k] {})
    | .vector v f (some t) => due (specialTurn s h hs p t) (giveResult s h hs p (wordsOf v.toNat 32) f)
    | .vector v f none => due (unitOrder hs p) (giveResult s h hs p (wordsOf v.toNat 32) f)
    | .scalarF v f => due (unitOrder hs p) (giveResult s h hs p [v] f)
    | .subnormal mask => due (unitOrder hs p) (failOp s h p.seq .subn mask)
    | _ => none
  /-- An entry from another module is an input there (R361). -/
  entryHeard (s : State) (m : QueueMsg) (t : Hart) : State := match hartByUid s m.src with
    | some (h, _) => if hartModule h = hartModule t then s
        else recordInput s (hartModule t) (.request h (portWindow t m.port) (leBytes 8 m.val.toNat))
    | none => s
  /-- QSTALL with the blocked ports, WATCH with the last PC otherwise (R271). -/
  stalled (s : State) (h : Hart) (hs : HartState) : HartState := match stalledPorts s h hs with
    | [] => raiseAsync hs .watch hs.run.lastPc
    | ps => raiseAsync hs .qstall (ps.foldl (fun m p => m ||| (1 <<< p.val)) 0)
  remaining (n : Nat) (as : List Agent) : Option (Nat × List Agent) := if as.isEmpty then none else some (n, as)
  /-- Frozen instructions return to the queue, in front (R293, R302). -/
  thaws (s : State) (hs : HartState) (c : Nat) (f : Frozen) : State :=
    let again := f.entries.zipIdx.map fun (e, i) => thawed s c hs.id.uid (s.nextId + i) e
    { setCore s c { coreOf s c with frozen := none, queue := again ++ (coreOf s c).queue } with nextId := s.nextId + again.length }

/-- A store of kind `k` that reaches its core. -/
def windowStoreEvent (s : State) (k i : Nat) (ok : Nat → Nat → Word → Bool) (f : State → Nat → Nat → Word → State) : Option State :=
  (storeOf s i).bind fun a =>
    let w := windowParts a.p.winPa
    let v := storeWord a.p.op
    due (w.2.1 == k && a.p.op != .storeNone && ok w.1 w.2.2 v) (arrive s a fun t _ => f t w.1 w.2.2 v)

/-- What arrives through a window of a core (R98 to R102, R190, R218, R219, R222, R230, R348). -/
def windowEvents (s : State) : Instr → Option State
  | .sctlRun i => windowStoreEvent s 7 i (fun _ _ v => v.getLsbD 0) fun t c off v =>
      sctlRun (if v.getLsbD 3 then sctlDblClear t (.strand c (off / 8)) else t) (.strand c (off / 8))
  | .sctlDblClear i => windowStoreEvent s 7 i (fun _ _ v => !v.getLsbD 0) fun t c off v =>
      if v.getLsbD 3 then sctlDblClear t (.strand c (off / 8)) else t
  | .qportDataStore i => (storeOf s i).bind fun a =>
      let w := windowParts a.p.winPa
      due (w.2.1 == 5 && a.p.op != .storeNone && decide (w.2.2 % 0x10 < 8)) (if !qportRoom s w.1 w.2.2 then entryWaits s a
        else if storeAtTarget s a && (arrivalFault s a).isSome then dropStore s a.n
        else arrive s a fun t _ => windowPush t w.1 w.2.2 (storeWord a.p.op))
  | .qportBindingStore i => windowStoreEvent s 5 i (fun _ off _ => decide (8 ≤ off % 0x10)) fun t c off v =>
      match hartOf t (.strand c (off / 0x40)) with
      | some hs => setHart (rebind t (.strand c (off / 0x40)) hs (qportParts off).2.1 v).1 (.strand c (off / 0x40))
          (rebind t (.strand c (off / 0x40)) hs (qportParts off).2.1 v).2
      | none => t
  | .nbarWindowStore i => windowStoreEvent s 6 i (fun _ _ _ => true) fun t c off v =>
      setCore t c (setNbar (coreOf t c) (off / 8) (nbarOfWord v))
  | .tileWindowStore i => (storeOf s i).bind fun a => match a.p.op with
      | .store (bs :: _) => due ((windowParts a.p.winPa).2.1 == 2) (arrive s a fun t _ =>
          joinQueue t (windowParts a.p.winPa).1 (windowEntry t a.uid a.p.seq a.p.pc (.window (windowParts a.p.winPa).2.2 bs)))
      | _ => none
  | .putrArrival i => (storeOf s i).bind fun a => due ((windowParts a.p.winPa).2.1 == 1)
      (arrive s a fun t _ => windowStoreEffect t a.p.winPa (leBytes 8 (storeWord a.p.op).toNat))
  | .windowAccessArrival (.store i) => (storeOf s i).bind fun a =>
      if a.p.op = .storeNone then some (arrive s a fun t _ => t) else due ((windowParts a.p.winPa).2.1 == 0) (arrive s a storeEffect)
  | .windowAccessArrival (.op h n) => (openOp s h n).bind fun x => let (hs, p) := x
      if goesWindow p && p.phase == .request && mayPerform s h hs p true && (loadCause s h p).isNone then
        if isAtomic p.op then some (doAtomic s h p)
        else if !p.op.isLoad then none
        else if (windowParts p.winPa).2.1 = 2 then some (tileLoad s h hs p ((p.spans.map fun y => y.len).sum))
        else granted (cohAll s (.op h n) .read none (memRanges p.spans)) fun s' => loaded s' h p (windowLoadBytes s' p)
      else none
  | .remoteStoreAcknowledgement i true => (storeOf s i).bind fun a => due a.performed (storeAnswered s a)
  | .remoteStoreAcknowledgement i false => (storeOf s i).bind fun a => due a.performed
      (storeFails s a .ereply (a.p.laneVa fun _ q => paModule q.pa != hartModule a.hart))
  | .remoteTimeout h n => (openOp s h n).bind fun x =>
      due (x.2.remote && x.2.placed && !isAtomic x.2.op && decide (x.2.sent + (moduleOf s (hartModule h)).remto ≤ s.now))
        (timedOut { s with stores := s.stores.filter fun a => !(a.uid == x.1.id.uid && a.p.seq == n), free := s.free + 1 } h x.1 x.2)
  | _ => none
where
  isAtomic : Op → Bool
    | .atomic _ _ _ => true
    | _ => false
  /-- A request without a reply: EREPLY, and of a store every later one that nobody has seen comes back (R32, R348). -/
  timedOut (s : State) (h : Hart) (hs : HartState) (p : Pending) : State :=
    let va := p.laneVa fun _ q => paModule q.pa != hartModule h
    if p.store then heldFails s h hs p .ereply va else failOp s h p.seq .ereply va
  /-- A load returns what its bytes give. -/
  loaded (s : State) (h : Hart) (p : Pending) (bs : List Byte) : State := match loadResult p bs with
    | .error (c, v) => failOp s h p.seq c v
    | .ok (ws, f) => match hartOf s h with
      | some hs => giveResult s h hs p ws f
      | none => s

/-- A store that may become visible now, in memory. -/
def shows (s : State) (a : Accepted) : Bool := mayShow s a && !goesWindow a.p

/-- An atomic that may be performed now, and whose memory can be read. -/
def atomicGoes (s : State) (h : Hart) (hs : HartState) (p : Pending) : Bool :=
  windowEvents.isAtomic p.op && p.phase == .request && !goesWindow p && mayPerform s h hs p true && (memError s (hartModule h) true p.spans).isNone

/-- What reaches the owners and homes of memory, and of its cells and tiles (R114 to R141, R224 to R243, R348). -/
def memoryEvents (s : State) : Instr → Option State
  | .readRequest (.core c pa) => (s.prefetches.find? fun x => x.1 == c && x.2.1 == pa && !x.2.2.2).bind fun x =>
      granted (cohRequest s (.core c pa) .read (some c) pa 1 x.2.2.1) fun s' => { s' with prefetches := s'.prefetches.erase x }
  | .readRequest (.op h n) => (openOp s h n).bind fun x => (hartCore h).bind fun c =>
      if fetching h x.2 && !inTiles s x.2 then
        granted (cohAll s (.op h n) .read (some c) (spanRanges x.2.spans)) fun s' => updateOp s' h n fun q => { q with fetched := true }
      else none
  | .ownershipRequest (.core c pa) => (s.prefetches.find? fun x => x.1 == c && x.2.1 == pa && x.2.2.2).bind fun x =>
      granted (cohRequest s (.core c pa) .own (some c) pa 1 x.2.2.1) fun s' => { s' with prefetches := s'.prefetches.erase x }
  | .ownershipRequest (.store i) => (storeOf s i).bind fun a => a.core.bind fun c =>
      if shows s a && !homeStore a && !inTiles s a.p then
        granted (cohAll s (.store i) .own (some c) (spanRanges a.p.spans)) fun s' => storePerformed (storeEffect s' a.p) a
      else none
  | .ownershipRequest (.op h n) => (openOp s h n).bind fun x => (hartCore h).bind fun c =>
      if atomicGoes s h x.1 x.2 && !goesHome h x.2 && !inTiles s x.2 then
        granted (cohAll s (.op h n) .own (some c) (spanRanges x.2.spans)) fun s' => doAtomic s' h x.2
      else none
  | .eviction c pa => match tileAt s pa with
      | some t => some (tileEvict s c t)
      | none => (s.grains.find? fun g => decide (g.1 ≤ pa ∧ pa < g.1 + g.2.size)).map fun g => lineEvict s c g.1
  | .ucLoad h n => (openOp s h n).bind fun x =>
      if x.2.op.isLoad && goesHome h x.2 && !goesWindow x.2 && mayPerform s h x.1 x.2 true && (memError s (hartModule h) true x.2.spans).isNone then
        granted (cohAll s (.op h n) .read none (spanRanges x.2.spans)) fun s' => windowEvents.loaded s' h x.2 (readSpans s'.mem x.2.spans)
      else none
  | .ucStore (.store i) => (storeOf s i).bind fun a =>
      if shows s a && homeStore a && !inTiles s a.p && (memError s (hartModule a.hart) false a.p.spans).isNone then
        if a.p.op = .storeNone then some (storePerformed s a)
        else granted (cohAll s (.store i) .own none (spanRanges a.p.spans)) fun s' => storePerformed (storeEffect s' a.p) a
      else none
  | .ucStore (.op h n) => (openOp s h n).bind fun x =>
      if atomicGoes s h x.1 x.2 && !inTiles s x.2 then
        granted (cohAll s (.op h n) .own none (spanRanges x.2.spans)) fun s' => doAtomic s' h x.2
      else none
  | .tileRequest .read (.op h n) => (openOp s h n).bind fun x => (hartCore h).bind fun c =>
      if fetching h x.2 && inTiles s x.2 then
        granted (cohAll s (.op h n) .read (some c) (spanRanges x.2.spans)) fun s' => updateOp s' h x.2.seq fun q => { q with fetched := true }
      else none
  | .tileRequest .write (.store i) => (storeOf s i).bind fun a => a.core.bind fun c =>
      if shows s a && !homeStore a && inTiles s a.p then
        granted (cohAll s (.store i) .own (some c) (spanRanges a.p.spans)) fun s' => storePerformed (storeEffect s' a.p) a
      else none
  | .tileRequest .home (.store i) => (storeOf s i).bind fun a =>
      if shows s a && homeStore a && inTiles s a.p && (memError s (hartModule a.hart) false a.p.spans).isNone then
        if a.p.op = .storeNone then some (storePerformed s a)
        else granted (cohAll s (.store i) .own none (spanRanges a.p.spans)) fun s' => storePerformed (storeEffect s' a.p) a
      else none
  | .tileRequest .home (.op h n) => (openOp s h n).bind fun x => (x.2.spans.head?.bind (·.at_)).bind fun a =>
      due (isTileInstr x.2.op && mayPerform s h x.1 x.2 true && (tileRefused h x.2.op a || (memError s (hartModule h) false x.2.spans).isNone))
        (tileInstr s h x.1 x.2 a)
  | .fewordRequestArrival h n => (openOp s h n).bind fun x => (syncWord x.2.pa).bind fun w =>
      due (isFe x.2.op && x.2.phase == .request && mayPerform s h x.1 x.2 true && !accessParked s x.1.id.gang x.2 &&
        (objectCause s h x.2 (some .feword)).isNone && !(poisoned s (syncPa (windowParts x.2.pa).1 w) 8 && readsWord s (windowParts x.2.pa).1 w x.2.op))
        (feRequest s h x.1 x.2 (windowParts x.2.pa).1 w)
  | .barrierOpAtHome h n => (openOp s h n).bind fun x =>
      if isBarOp x.2.op && x.2.phase == .request && mayPerform s h x.1 x.2 true && !accessParked s x.1.id.gang x.2 &&
        (objectCause s h x.2 none).isNone && (memError s (hartModule h) true x.2.spans).isNone then
        if goesWindow x.2 then some (barRequest s h x.1 x.2)
        else granted (cohAll s (.op h n) .own none (spanRanges x.2.spans)) fun s' => barRequest s' h x.1 x.2
      else none
  | .redAddAtHome h n => (openOp s h n).bind fun x => match x.2.op, cellRead s h x.2 with
      | .redAdd slot val, .ok s1 => (cellHeader s1.mem x.2.pa).bind fun (cnt, f) =>
        let a := cellByte s1 h x.2 (slotOffset f slot.toNat)
        if cellGoes s h x.1 x.2 && decide (slot.toNat < cnt) && !poisoned s1 a (f.width / 8) then
          granted (cellAsk s1 h x.2 false .own [(a, f.width / 8, 1)]) fun s' =>
            let used := useCell s' x.2.pa (cellParts s' h x.2 cnt f)
            let fed := feed used x.2.pa x.1.id.uid slot.toNat
            if slotSettled used x.2.pa x.1.id.uid slot.toNat then finishOp (added fed a f val) h n []
            else finishOp (unsettled fed a f) h n []
        else none
      | _, _ => none
  | .decideOnceAtHome h n false => (openOp s h n).bind fun x =>
      if decides x.1 x.2.op && cellGoes s h x.1 x.2 then
        granted (cohAll s (.op h n) .own none (spanRanges x.2.spans)) fun s' => decideRequest (useCell s' x.2.pa [(x.2.pa, 64)]) h x.2
      else none
  | .decideOnceAtHome h n true => (openOp s h n).bind fun x => match x.2.op with
      | .decRead g => (s.copies.find? fun c => c.pa == x.2.pa && c.gen == g.truncate 30).bind fun c =>
          due (mayPerform s h x.1 x.2 true && !goesWindow x.2) (answerCell s h x.2 [c.val, statusWord 1 c.gen.toNat])
      | _ => none
  | .hostRead m pa => due ((moduleOf s m).host.up && memPaOk (modulePa m pa)) (hostRequest s false (lineOf m pa))
  | .hostOwnershipRequest m pa => due ((moduleOf s m).host.up && memPaOk (modulePa m pa)) (hostRequest s true (lineOf m pa))
  | .backInvalidationResponse m pa none => due (snooped s (lineOf m pa)) (answerSnoop s (lineOf m pa))
  | .backInvalidationResponse m pa (some d) => due (snooped s (lineOf m pa))
      (answerSnoop (hostWrites s (hostSectors s (lineOf m pa) d)) (lineOf m pa))
  | .backInvalidationTimeout m pa => (s.snoops.find? fun x => x.line == lineOf m pa).bind fun x =>
      due (decide (x.sent + (moduleOf s m).bito ≤ s.now)) (linkDown (failReq (dropped s (lineOf m pa) x.units) x) m)
  | .translationWalk d i => (dieState s d).walks[i]?.bind fun x => if i < 16 then
        granted (walkAsk s d x) fun s' => walkEnds { s' with free := s'.free + 1 } d x (walk s (d / 4) x.ptbr (BitVec.ofNat 64 x.page))
      else none
  | _ => none
where
  /-- A cached load whose grains have not come yet. -/
  fetching (h : Hart) (p : Pending) : Bool := p.op.isLoad && p.placed && !p.fetched && !goesWindow p && !goesHome h p
  isFe : Op → Bool
    | .take | .peek | .put _ => true
    | _ => false
  /-- A cell in memory that may be reached now. -/
  cellGoes (s : State) (h : Hart) (hs : HartState) (p : Pending) : Bool :=
    mayPerform s h hs p true && !goesWindow p && (memError s (hartModule h) true p.spans).isNone
  /-- RECYCLE goes to the home behind its drain (R137). -/
  decides (hs : HartState) : Op → Bool
    | .propose _ _ | .decRead _ => true
    | .recycle _ => hs.run.drain.isNone
    | _ => false
  /-- A value added to a slot of a cell (R126). -/
  added (s : State) (a : Nat) (f : Fmt) (v : Word) : State := { s with
    mem := memSetNat s.mem a (f.width / 8) (fbits f (fadd .rne (fdecode f (memNat s.mem a (f.width / 8))) (fdecode f (v.toNat % 2 ^ f.width))).1) }
  /-- A free value in a slot that two strands have fed, or of a cell that ordinary stores have reached (R124, R126). -/
  unsettled (s : State) (a : Nat) (f : Fmt) : State :=
    { s with mem := memSetNat s.mem a (f.width / 8) ((Config.freeWord s.free).toNat % 2 ^ f.width), free := s.free + 1 }
  /-- The line of 64 bytes that an offset of a module's memory lies in. -/
  lineOf (m pa : Nat) : Nat := modulePa m pa / 64 * 64
  /-- A line whose snoop the host has not answered. -/
  snooped (s : State) (line : Nat) : Bool := s.snoops.any fun x => x.line == line
  /-- The home drops HOST of what it asked for (R242). -/
  dropped (s : State) (line : Nat) (us : List CohUnit) : State :=
    us.foldl (releaseHost · false ·) { s with snoops := s.snoops.filter fun y => y.line ≠ line }
  /-- A walk ends: the die's cache learns the leaf, and every request that joined is answered (R227, R296, R297). -/
  walkEnds (s : State) (d : Nat) (x : Walk) (r : Except Cause Leaf) : State :=
    let cache := match r with
      | .ok leaf => addTlb (dieState s d).cache x.ptbr.asid (BitVec.ofNat 64 x.page) leaf
      | .error _ => (dieState s d).cache
    x.fetching.foldl (walkFetch r x) (x.joined.foldl (walkAnswer r x)
      (setDie s d { dieState s d with walks := (dieState s d).walks.erase x, cache := cache }))

/-- Messages between strands, pools and engines (R131, R207, R208, R214, R252, R279, R308). -/
def launchEvents (s : State) : Instr → Option State
  | .engineTrap e => (hartOf s (.engine e)).bind fun hs => (engineCause hs).bind fun x =>
      let by_ := (assocGet s.engines e).getD (posterOf hs)
      due ((reports hs.id.k7 x).flatMap fun w => translateUnits s (dispatcherOf (e / 128)) by_ w.1 .write).isEmpty
        (reportWords (leaveSlot { s with groups := assocDel s.groups hs.id.group } (.engine e) hs.id.uid) (e / 128) hs.id.uid by_
          (reports hs.id.k7 x))
  | .engineStart e => (assocGet s.kicks e).bind fun k =>
      if (hartOf s (.engine e)).isNone && (dieState s (e / 32)).inService then match posterRead s (e / 128) k.by_ k.desc 8 .read with
        | .place p => if isWindow p.pa then some (starts s e k p)
            else granted (cohRequest s (.core 0 p.pa) .read none p.pa 8 p.grain) fun s' => starts s' e k p
        | .fault c => some (reportWords (freshUid { s with kicks := assocDel s.kicks e }).1 (e / 128)
            (freshUid { s with kicks := assocDel s.kicks e }).2 k.by_ [(k.desc + 8, trapWord c k.desc)])
        | .wait _ => none
      else none
  | .burstArrival e => (hartOf s (.engine e)).bind fun hs => (hs.run.ops.find? arrivalDue).bind fun p => match p.op with
      | .bcopy dst src len (some bar) sent done => due (arrivalReleased s hs p) (copyGoes s (.engine e) p (atBar s e hs p bar (sent - done))
          (.bcopy dst src len (some bar) sent sent) (decide (sent = len.toNat)))
      | .bcast src len doff boff ben cores sent done => due (arrivalReleased s hs p) (copyGoes s (.engine e) p
          (castArrive (.engine e) hs p boff (sent - done) cores s) (.bcast src len doff boff ben cores sent sent) (decide (sent = len.toNat)))
      | _ => none
  | .launchMessage i => match assocGet s.msgs i with
      | some (.launch target parent seq entry arg by_) => (hartByUid (dropMsg s i) parent).map fun x =>
          finishOp (child (dropMsg s i) x.1 x.2 by_ parent entry arg (launchStatus (dropMsg s i) x.1 x.2 target entry).2) x.1 seq
            [natWord (launchStatus (dropMsg s i) x.1 x.2 target entry).1]
      | _ => none
  | .joinDecrement i => match assocGet s.msgs i with
      | some (.join r) => (joinOf s r).bind fun x => (decrementParent s x.parent).map fun s' => dropMsg s' i
      | some (.joinLink m gang k) => ((restoredUid s m gang k).bind (decrementParent s)).map fun s' => dropMsg s' i
      | _ => none
  | .placement m => if ((moduleOf (resumed s m) m).pool.flatMap fun e => itemUnits (resumed s m) m e.item).isEmpty then
      (scanPool (resumed s m) m [] (scanOrder (moduleOf (resumed s m) m).pool)).map fun x => poolAfter x.2.2 m x.1 x.2.1
    else none
  | _ => none
where
  /-- Progress, then the trap word (R208). -/
  reports (desc : Word) (x : Cause × Word × Option Nat) : List (Word × Word) :=
    (match x.2.2 with
      | some n => [(desc + 56, BitVec.ofNat 64 n)]
      | none => []) ++ [(desc + 8, trapWord x.1 x.2.1)]
  /-- A burst's arrivals on a barrier object (R131). -/
  atBar (s : State) (e : Nat) (hs : HartState) (p : Pending) (bar : Word) (n : Nat) : Got Unit :=
    (barPlace s (.engine e) hs p bar).bind fun s1 q => engineArrive s1 (.arrival e p.seq) (hartModule (.engine e)) hs bar q n
  /-- An engine takes its pending descriptor: its PC is the first word (R207). -/
  starts (s : State) (e : Nat) (k : Kick) (p : Placed) : State :=
    startEngine { s with kicks := assocDel s.kicks e } e 0 { k.by_ with tvec := 0, tscr := 0 } (natWord (posterNat s p 8)) k.desc []
  /-- The child of a launch: on a slot, or parked with its gang (R331). -/
  child (s : State) (h : Hart) (hs : HartState) (by_ : Poster) (parent : Nat) (entry arg : Word) : Option (Nat × Option Nat) → State
    | some (c, some n) => startChild (countChild s h) hs by_ none c n entry arg
    | some (c, none) => parkPacket (countChild s h) (coreModule c) hs.id.gang (.launch c parent entry arg by_)
    | none => s
  /-- Paused successor lists go on (R309). -/
  resumed (s : State) (m : Nat) : State := if (moduleOf s m).succs.isEmpty then s else walkPaused s m

/-- What the modules of a gang do and tell each other (R283, R289, R318 to R334). -/
def gangEvents (s : State) : Instr → Option State
  | .timedLaunch m i => begins s 0 m i
  | .preEmpt m i => begins s 1 m i
  | .resume m i => begins s 2 m i
  | .gangReport i => match assocGet s.msgs i with
      | some (.report dest n r) => ((allTimed (dropMsg s i) dest).find? fun t => t.n == n).map fun t => takeReport (dropMsg s i) dest t r
      | _ => none
  | .reportDeadline m gang => ((allTimed s m).find? fun t => t.gang == gang && !t.straggled && !allReports t &&
      decide (t.start + t.tol + 20000 ≤ timeOf s m)).map (straggle s m)
  | .switchToken i => match assocGet s.msgs i with
      | some (.token dest n) => due ((moduleOf (dropMsg s i) dest).unit.clock == .free)
          (mapTimed (dropMsg s i) dest fun t => if t.n = n then { t with token := true } else t)
      | _ => none
  | .releaseMessage i => match assocGet s.msgs i with
      | some (.release dest n order j) => (gangGrid s dest n order).bind fun g =>
          due (!gridComing s dest n) (released (dropMsg s i) dest j { g with others := if g.others.contains j then g.others else g.others ++ [j] })
      | _ => none
  | .shareComplete i => match assocGet s.msgs i with
      | some (.share dest n order pos) => (gangGrid s dest n order).bind fun g =>
          due (!gridComing s dest n) (shareDone (dropMsg s i) dest g pos)
      | _ => none
  | .gridComplete i => match assocGet s.msgs i with
      | some (.gridDone dest n order gang key) => some (match gangGrid s dest n order with
          | some g => dropGrid (dropMsg s i) dest g.id
          | none => { dropMsg s i with lateOver := ((gang, key) :: s.lateOver).eraseDups })
      | _ => none
  | _ => none
where
  /-- A held record of a kind begins at its time. -/
  begins (s : State) (act m i : Nat) : Option State := ((moduleOf s m).timed.find? fun t => t.n == i).bind fun t =>
    due (t.act == act && mayBegin s m t && (contextUnits s t).isEmpty) (actionRun m i actionFuel (beginAction s m t))
  /-- A group of another share has retired (R330). -/
  released (s : State) (m j : Nat) (g : Grid) : State :=
    let s1 := setGrid s m g
    checkGrid (if takeRunning s1 m g.by_.gang then s1 else releaseGroups s1 m g.id (g.successors j)) m g.id

/-- The host interface, the DMA unit and the mailbox (R350 to R354). -/
def hostEvents (s : State) : Instr → Option State
  | .dmatail m v => written s m fun x => { x with tail := v.truncate 16 }
  | .dmactlEn m en => written s m fun x => { x with en := en }
  | .dmactlReset m => written s m fun x => { x with head := 0, tail := 0 }
  | .dmastatErrClear m v => written s m fun x => { x with err := x.err && !v.getLsbD 0 }
  | .mbxbell m v => written s m fun x => if v.toNat < 16 then { x with bells := addNew x.bells v.toNat } else x
  | .mbxdoneClear m v => written s m fun x => { x with mbxdone := x.mbxdone &&& ~~~v }
  | .registerWrite m r v => written s m fun x => hostReg x r v
  | .dmaDescriptor m =>
    let x := (moduleOf s m).host
    let at_ := x.base.toNat + 32 * (x.head.toNat % x.ring)
    let d := descriptorAt s m at_
    let ok := x.up && descriptorOk s m d && !Config.freeBool s.free
    if dmaDue x && !(moduleOf s m).stopped then
      granted ((cohAsk s (.dma m) [(at_, 32, 1)] true .read none [(at_, 32, 1)]).bind fun t => dmaAccess t m d ok)
        fun s' => performed s m (x.head.toNat % x.ring) d ok s'
    else none
  | .hostLinkRetraining m => due (moduleOf s m).inService (raiseMsix (setHost s m { (moduleOf s m).host with up := true }) m 59)
  | .hostLinkDown m => some (linkDown s m)
  | .attestationRequest m nonce => some (match (moduleOf s m).host.bells.head? with
      | none => reported s m (report s m nonce)
      | some n => respond (mailed (reported s m (report s m nonce)) m n (mailReport (report s m nonce))) m n)
  | _ => none
where
  /-- A write of the host, which needs its link. -/
  written (s : State) (m : Nat) (f : HostState → HostState) : Option State := due (moduleOf s m).host.up (setHost s m (f (moduleOf s m).host))
  /-- A descriptor performed or failed: the data of a copy in are the host's, and every descriptor completes (R353). -/
  performed (s : State) (m idx : Nat) (d : Descriptor) (ok : Bool) (s' : State) : State :=
    let data := if d.out then memBytes s'.mem d.maddr d.len else (List.range d.len).map (Config.hostByte s.free)
    let s1 := if ok && !d.out then writeMem (spoil s' d.maddr d.len) d.maddr data else s'
    complete (recordInput { s1 with free := s.free + 1 } m (.dma idx d.maddr d.caddr (if ok then data else []))) m d !ok
  /-- The report of a module: what it measured at boot, the nonce, its number, and the signature of its identity key over them (R362). -/
  report (s : State) (m : Nat) (nonce : Word) : Attest :=
    let ms := moduleOf s m
    ⟨ms.digests, ms.secver, nonce, m, ecdsaSign (Config.identityKey m) (Config.freeNat s.free % (p256N - 1) + 1)
      (sha256 (reportBytes ms.digests ms.secver nonce m)), Config.certificate m⟩
  reported (s : State) (m : Nat) (x : Attest) : State :=
    setModule { s with free := s.free + 1 } m { moduleOf s m with attest := some x }
  /-- Words in a mailbox's half that carries firmware to host (R354). -/
  mailed (s : State) (m n : Nat) (ws : List Word) : State :=
    ws.zipIdx.foldl (fun t (w, i) => mailWord t m (n * 0x10000 + 0x8000 + 8 * i) w) s

/-- Clocks and links (R323, R324, R340 to R351). -/
def linkEvents (s : State) : Instr → Option State
  | .ptpSync m _ false => some (setUnit s m { (moduleOf s m).unit with good := 0, missed := (moduleOf s m).unit.missed + 1 })
  | .ptpSync m offset true => some (setUnit s m (synced (moduleOf s m).unit offset))
  | .holdover m => due ((moduleOf s m).unit.clock == .locked && decide (3 ≤ (moduleOf s m).unit.missed))
      (setUnit s m { (moduleOf s m).unit with clock := .holdover, since := s.now, slew := 0 })
  | .freeRunning m => due ((moduleOf s m).unit.clock == .holdover && decide ((moduleOf s m).unit.since + (moduleOf s m).hold ≤ s.now))
      (raiseModule (setUnit s m { (moduleOf s m).unit with clock := .free }) m .clkloss (timeWord s m))
  | .timeStep m n => due (decide (1000000 < (moduleOf s m).unit.slew)) (setModule s m { moduleOf s m with
      time := (moduleOf s m).time + n
      unit := { (moduleOf s m).unit with slew := (moduleOf s m).unit.slew - n } })
  | .flitReceive m port x crc => (portPeer s m port).bind fun k => (sendsFlit (portState s k (farPort port)) x).bind fun q =>
      due ((portState s m port).up && (portState s k (farPort port)).up && mayLeave s k (farPort port) (portState s m port) (portState s k (farPort port)) x)
       (if crc = crc32 (flitBytes x) ∧ x.seq = (portState s m port).expected
        then taken (setPortState s k (farPort port) { q with replay := q.replay.filter (· ≠ x) }) m port (portState s m port) x
        else refused s k m port q (portState s m port) (decide (x.seq = (portState s m port).expected)))
  | .linkTraining m port mine peer => due (portPeer s m port).isSome (trained s m port mine (decide (mine = peer)))
  | .routeUpdate m dst port => some (settleRoutes (setModule s m { moduleOf s m with reroutes := assocSet (moduleOf s m).reroutes dst port }) m)
  | .weltCombiningWindow d ops => (ops.eraseDups.find? fun x => (weltAsk s d x).isSome).bind fun x => (weltAsk s d x).map fun y =>
      let go := ops.eraseDups.filter fun z => weltAsk s d z == some y
      let s1 := go.foldl (fun t z => updateOp t z.1 z.2 fun q => { q with phase := .waiting }) s
      { s1 with nextId := s1.nextId + 1, combined := s1.combined ++ [⟨s1.nextId, d, y.1, y.2.1, y.2.2, go, s1.now + 100000, false⟩] }
  | .combinedRequest i => (s.combined.find? fun c => c.n == i && !c.dropped).bind fun c =>
      if c.deadline ≤ s.now then some { s with combined := s.combined.map fun x => if x.n = i then { x with dropped := true } else x }
      else granted (cohRequest s (.combined c.n) .own none c.pa c.width 1) fun s' => c.ops.foldl contribute (dropCombined s' i)
  | .weltQuery i => (s.combined.find? fun c => c.n == i).bind fun c => due (decide (c.deadline + 10000 ≤ s.now)) (discardCombined s c)
  | _ => none
where
  /-- A usable sync: sixteen within 50 ns lock the clock (R323). -/
  synced (u : TimeUnit) (offset : Int) : TimeUnit :=
    let good := if -50 ≤ offset ∧ offset ≤ 50 then min 16 (u.good + 1) else 0
    { u with good := good, missed := 0, slew := offset, clock := if good = 16 then .locked else u.clock }
  /-- The expected flit is acknowledged, and may complete a packet, which is an input (R341, R345, R361). -/
  taken (s : State) (m port : Nat) (p : FabricPort) (x : Flit) : State :=
    let s1 := setPortState s m port { p with expected := p.expected + 1, acks := p.acks + 1, replays := 0, parts := (assemble p.parts x).1 }
    (assemble p.parts x).2.elim s1 fun h => if h.dst = m then recordInput s1 m (.packet h) else s1
  /-- Any other is refused; the link retrains after a flit's eighth replay (R345). -/
  refused (s : State) (k m port : Nat) (q p : FabricPort) (failed : Bool) : State :=
    let down := failed && decide (8 ≤ p.replays)
    setPortState (setPortState s k (farPort port) { q with up := q.up && !down }) m port
      { p with up := !down, naks := p.naks + 1, replays := if down then 0 else if failed then p.replays + 1 else p.replays }
  /-- Equal views bring the link up; others hold it down, with LINKMIS (R346). -/
  trained (s : State) (m port : Nat) (mine : LinkView) (agree : Bool) : State :=
    let p := portState s m port
    if agree then setPortState s m port
      { (portPeer s m port).elim p fun k => realigned p (portState s k (farPort port)) with
          up := true, width := mine.width, lanes := mine.lanes, rate := mine.rate, replays := 0 }
    else raiseModule (raiseMsix (handOver (setPortState s m port { p with up := false, replays := 0 }) m port) m 59) m .linkmis (BitVec.ofNat 64 port)

/-- Heat, power, errors and resets (R281, R282, R356 to R363). -/
def moduleEvents (s : State) : Instr → Option State
  | .thermalStep c temp =>
    let ms := moduleOf s (coreModule c)
    let s1 := setCore s c { coreOf s c with hot := decide (ms.coolAt < temp) }
    if ms.hotAt < temp then some (hotStep s1 c)
    else if temp ≤ ms.coolAt then some (setCore s1 c (clockUp { coreOf s1 c with disabled := (coreOf s1 c).disabled.drop 1 }))
    else some s1
  | .powerCapStep m mw => if (moduleOf s m).cap < mw then some (mapCores s m clockDown)
      else due (decide (mw * 100 ≤ (moduleOf s m).cap * 95)) (mapCores s m clockUp)
  | .powerCapSetting m mw => due (decide (1600000 ≤ mw) && decide (mw ≤ 3200000)) (setModule s m { moduleOf s m with cap := mw })
  | .thermalTrip m _ => some ((List.range 4).foldl (fun t d => dieOut t (4 * m + d))
      { machineCheck s m (Config.freeWord s.free) with free := (machineCheck s m (Config.freeWord s.free)).free + 1 })
  | .channelSparing m stack ch => if channelFails (moduleOf s m) (stack, ch) then match assocGet (moduleOf s m).spared stack with
      | none => some (setModule s m { moduleOf s m with spared := (moduleOf s m).spared ++ [(stack, ch)] })
      | some c => due (c != ch && !(moduleOf s m).reported.contains (stack, ch))
          (setModule s m { moduleOf s m with reported := (moduleOf s m).reported ++ [(stack, ch)] })
    else none
  | .uncorrectableError (.data pa) => some (poisonRange s pa 1)
  | .uncorrectableError (.register c) => some { machineCheck s (coreModule c) (Config.freeWord s.free) with free := s.free + 2 }
  | .uncorrectableError (.control d) => due (!(moduleOf s (d / 4)).stopped) (warmStep s (d / 4) (4 * (d / 4) + d % 4))
  | .uncorrectableError (.welt d) => due (!(moduleOf s (d / 4)).stopped) (warmStep s (d / 4) (4 * (d / 4) + d % 4))
  | .uncorrectableError (.core c) => due (!(moduleOf (failCore s c) (coreDie c / 4)).stopped)
      (warmStep (failCore s c) (coreDie c / 4) (4 * (coreDie c / 4) + coreDie c % 4))
  | .warmReset m die => due (!(moduleOf s m).stopped) (warmStep s m (4 * m + die))
  | .mchk m cause => some (machineCheck s m cause)
  | .bringUp m => some (started s m)
  | _ => none
where
  /-- A module after a cold reset. Its images are not verified, and it stays in recovery (R362); or they are measured, its dies are tested, and its
  boot strand starts on the lowest die in service, with the boot information block (R364, R365). -/
  started (s : State) (m : Nat) : State :=
    let xs := Config.firmwareImages s.free
    let s1 := { coldReset s m with free := s.free + 1 }
    if xs.isEmpty || !xs.all (imageOk m) then
      setModule s1 m { moduleOf s1 m with stopped := true, inService := false, host := { (moduleOf s1 m).host with up := false } }
    else
      let known := setModule s1 m { moduleOf s1 m with digests := xs.map fun x => sha256 x.bytes, secver := lowestVersion xs }
      let s2 := trainPorts (testChannels (testDies known m) m) m
      match (liveDies s2 m).head? with
      | none => s2
      | some d => booted s2 m (4 * m + d) xs
  booted (s : State) (m g : Nat) (xs : List FirmwareImage) : State :=
    install (writeMem (loadImage { s with nextUid := s.nextUid + 1 } xs) (hbmBase g) (bootBlock s m g)) (g * 256) 0 (bootStrand s m g xs)

end Sys2Proof.Machine
end

