-- ==== Sys2Proof/Certificates/Slice0/Obligations.lean ====
section
/-!
DEFINITION. The statements for the provers. An instruction that completes does so as its form in Sys2Proof/Safety.lean says (`Completes`);
the forms are tables, one row per instruction, so a statement over a table speaks of every row of it.
-/

open Sys2Proof Sys2Proof.Machine

/-! Encoding. -/

/-- The worked encodings of R44, R79, R104, R145, R171, R173 and R196, as the decoder reads them: a window load with a switch marker,
PUTR, CAS, VFMA, MMA, TSHAPE and MFS. -/
def Obligations.DecodeWords : Prop :=
  decode (leBytes 12 0x00000008002014180008_2996) = .ok ⟨.windowLd 0 (.g 5) (.g 4) 32 ⟨0, 1, 0, 0, false, none⟩ ⟨.acq, .cluster⟩, true, 12,
    0x00082996⟩ ∧
  decodeTableWord 64 0x0000220002020051 = some (.putr none (.g 1) (.g 4) 0 ⟨.rel, .core⟩) ∧
  decodeTableWord 64 0x00083608A2063281 = some (.cas (.g 6) (.g 3) (.g 4) (.g 5) (.short 8) false ⟨.ar, .die⟩) ∧
  decodeTableWord 64 0x00002202C9A4A309 = some (.vfma 4 2 3 6 ⟨.h16, .rtz⟩) ∧
  decodeTableWord 64 0x0005000000801429 = some (.mma 2 0 1 1 true) ∧
  decodeTableWord 96 0x000004100000000000001C02 = some (.tshape 3 (.word 0x410)) ∧
  decodeTableWord 64 0x0020000000002D81 = some (.mfs (.g 5) .time)

/-- Every well-formed program instruction is read back from its own bytes, whatever bytes follow them, with its switch marker and its
length. -/
def Obligations.EncodeThenDecode : Prop :=
  ∀ (i : Instr) (sw : Bool) (rest : List Byte), i.wellFormed = true → (i.head sw).isSome = true →
    ∃ d : Decoded, decode (encodeBytes i sw ++ rest) = .ok d ∧ d.instr = i ∧ d.sw = sw ∧ d.size = (encodeBytes i sw).length

/-- What decodes is well formed: no instruction issues whose operand values R18 refuses. -/
def Obligations.DecodedIsWellFormed : Prop :=
  ∀ (bs : List Byte) (d : Decoded), decode bs = .ok d → d.instr.wellFormed = true ∧ d.size ≤ bs.length ∧ (d.size = 8 ∨ d.size = 12 ∨ d.size = 16)

/-! Reset and steps. -/

/-- The boot strand (R365) and the reset values of R31, R64, R181 and R198. The contents of the g, v and w registers and of memory, and the
PC, are the model's choices (logs 1, 2 and 3): R365 takes g1 and the PC from firmware. -/
def Obligations.ResetState : Prop :=
  (∀ h : Hart, (hartOf State.reset h).isSome = true → h = .strand 0 0) ∧
  ∃ hs : HartState, hartOf State.reset (.strand 0 0) = some hs ∧
    hs.st = ⟨false, 1, 0, false, 0⟩ ∧ hs.ptbr = ⟨0, 0⟩ ∧ hs.migr = false ∧ fpctlWord hs.fp = 0 ∧ hs.timecmp = 0 ∧
    hs.trap = ⟨0, 0, 0, 0, 0, 0, 0, 0⟩ ∧ (∀ n : Fin 4, hs.mx.scale.get n = 0x3F800000) ∧ (∀ p : Fin 4, (portOf hs p).bound = false) ∧
    (∀ r : Fin 16, gFull hs r = true ∧ gVal hs r = 0) ∧ hs.pc = 0x100000 ∧
    (∀ c : Nat, (coreOf State.reset c).cbsel = 0 ∧ (coreOf State.reset c).wdog = 0 ∧ (coreOf State.reset c).mcap = 0) ∧
    (∀ m : Nat, (moduleOf State.reset m).tttb = 0 ∧ (moduleOf State.reset m).mevt = 0) ∧ ∀ a : Nat, memByte State.reset.mem a = 0

/-- A step in which a hart has its turn runs exactly the instruction that the bytes at its issue address decode to: its meaning, in the
state in which the hart is the current one, its word is recorded, and a hart that waited behind its switch marker waits no longer. The hart
fetches, no other slot of its core comes before it (R269), and it does not ship itself to its data first (R278). -/
def Obligations.StepRunsDecoded : Prop :=
  ∀ (s : State) (h : Hart) (rest : List Turn) (hs : HartState) (b : BitVec 256) (s1 : State) (d : Decoded),
    s.agenda = .issue h :: rest → hartOf s h = some hs → fetches { s with agenda := rest } h hs = true →
    slotTurn { s with agenda := rest } h = true → autoDest { s with agenda := rest } h hs = none →
    issuePc hs &&& 3#64 = 0 → fetchBlock { s with agenda := rest } h hs (issuePc hs) = .block b s1 →
    decode ((leBytes 32 b.toNat).drop ((issuePc hs).toNat % 32)) = .ok d →
    step s = exec d.instr { setHart s1 h (if hs.run.park = .marker then setPark hs .ready else hs) with cur := h, word := ⟨d.sw, d.first⟩ }

/-- Fetch and decode refuse: an address that is no multiple of 4 raises IALIGN with the address (R18, check 1), a block that cannot be fetched its
cause, with the address: IFETCH (R22), what a walk that it joined ended in (R297), PGFLT under a ROOT of zero (R365); and a word that does not decode
ILLENC or ILLOP with its first 32 bits (R18). PAD words are passed over up to an instruction, or to the end of their block (R19); an instruction at
the PC is the first one not issued (R31). -/
def Obligations.FetchTraps : Prop :=
  ∀ (s : State) (h : Hart) (hs : HartState), hs.run.park ≠ .marker →
    (issuePc hs &&& 3#64 ≠ 0 → fetchIssue s h hs = (raiseIssue s h hs .ialign (issuePc hs) false, none)) ∧
    (∀ c : Cause, issuePc hs &&& 3#64 = 0 → fetchBlock s h hs (issuePc hs) = .fault c →
      fetchIssue s h hs = (raiseIssue s h hs c (issuePc hs) false, none)) ∧
    (∀ (b : BitVec 256) (s1 : State) (bs : List Byte), issuePc hs &&& 3#64 = 0 → fetchBlock s h hs (issuePc hs) = .block b s1 →
      bs = (leBytes 32 b.toNat).drop ((issuePc hs).toNat % 32) →
      (decode bs = .error .illenc →
        fetchIssue s h hs = (raiseIssue s1 h hs .illenc (BitVec.ofNat 64 (leNat (bs.take 4))) false, none)) ∧
      (decode bs = .error .illop → fetchIssue s h hs = (raiseIssue s1 h hs .illop (BitVec.ofNat 64 (leNat (bs.take 4))) false, none)) ∧
      (∀ (k : Nat) (d : Decoded), (∀ j : Nat, j < k → decode (bs.drop (4 * j)) = .error .pad) → decode (bs.drop (4 * k)) = .ok d →
        fetchIssue s h hs = ({ setHart s1 h (setIssuePc hs (issuePc hs + natWord (4 * k))) with cur := h, word := ⟨d.sw, d.first⟩ }, some d.instr)) ∧
      ((∀ j : Nat, j < bs.length / 4 → decode (bs.drop (4 * j)) = .error .pad) →
        fetchIssue s h hs = (setHart s1 h (setIssuePc hs (issuePc hs + natWord bs.length)), none))) ∧
    ∀ (p : Placed) (b : BitVec 256) (s1 : State) (d : Decoded), hs.run.replay.todo = [] → hs.pc &&& 3#64 = 0 →
      translate s h hs.ptbr hs.st.priv hs.pc .exec = .ok p → codeAt s h (.fetch h) (p.pa / 32 * 32) = .block b s1 →
      decode ((leBytes 32 b.toNat).drop (hs.pc.toNat % 32)) = .ok d → nextPc s h hs = hs.pc

/-- Every step answers a next state, but for an instruction given a turn of its own on the agenda while there is no hart to issue it. No
step is refused. -/
def Obligations.StepAlwaysAnswers : Prop :=
  ∀ s : State, (∃ t : State, step s = .next t) ∨ (hartOf s s.cur = none ∧ step s = .fault .noStrand)

/-- Memory keeps its canonical form: addresses strictly rising, no entry that an unlisted byte reads as. -/
def Obligations.StepKeepsMemoryForm : Prop :=
  ∀ s t : State, memWf s.mem = true → step s = .next t → memWf t.mem = true

/-- No slot and no engine holds two harts: a strand runs in one slot, and an engine is one hart (R5, R206). -/
def Obligations.StepKeepsOneHartPerSlot : Prop :=
  ∀ s t : State, oneHartPerSlot s → step s = .next t → oneHartPerSlot t

/-- The stores on their way keep numbers of their own, below the next one to be given: a request of a step names one store. The numbers are the
model's own; the rules number no stores (R29, R110). -/
def Obligations.StepKeepsStoreNumbers : Prop :=
  ∀ s t : State, storesNumbered s → step s = .next t → storesNumbered t

/-- The three invariants hold at reset: memory in its canonical form, no slot with two harts, and no two stores under one number. -/
def Obligations.ResetInvariants : Prop := memWf State.reset.mem = true ∧ oneHartPerSlot State.reset ∧ storesNumbered State.reset

/-- A number written to memory lies there with its lowest byte first (R10), is read back whole, and nothing else changes. -/
def Obligations.LittleEndian : Prop :=
  ∀ (m : List Host.Cell) (a n v : Nat), memWf m = true →
    (∀ k : Nat, k < n → (memByte (memSetNat m a n v) (a + k)).toNat = v / 256 ^ k % 256) ∧
    memNat (memSetNat m a n v) a n = v % 256 ^ n ∧
    ∀ b : Nat, b < a ∨ a + n ≤ b → memByte (memSetNat m a n v) b = memByte m b

/-- No program instruction changes a byte of memory when it issues: its store, its atomic or its message acts in a step of its own. RETIRE is
left out, which may end a group and with it a grid. -/
def Obligations.IssueKeepsMemory : Prop :=
  ∀ (i : Instr) (s t : State), (i.head false).isSome = true → i ≠ .retire → exec i s = .next t → sameMemory s t

/-! Readiness (R18, R24, R25, R28, R206, R217). -/

/-- When an instruction may issue, in terms of the hart alone. -/
def Obligations.IssueConditions : Prop :=
  ∀ (s : State) (h : Hart) (hs : HartState) (n : Need), ready s h hs n = .go ↔
    n.illenc = false ∧ (n.profile = .coreOnly → isEngine h = false) ∧ (n.profile = .engineOnly → isEngine h = true) ∧ n.refused = false ∧
    (n.supervisor = true → hs.st.priv ≠ 0) ∧
    (∀ p : Fin 4, Src.q p ∈ n.srcs → (portOf hs p).bound = true ∧ (portOf hs p).out = false) ∧
    (∀ p : Fin 4, Dst.q p ∈ n.dsts → (portOf hs p).bound = true ∧ (portOf hs p).out = true) ∧
    (∀ r : Fin 16, Src.g r ∈ n.srcs → gFull hs r = true) ∧ (∀ r : Fin 16, r ∈ n.vecs → vecFull hs r = true) ∧
    (∀ p : Fin 4, (popPorts n.srcs).count p ≤ (portOf hs p).buf.length) ∧
    (∀ p : Fin 4, Dst.q p ∈ n.dsts → canPush s h hs p = true) ∧
    (n.place = true → placesUsed hs < 8) ∧ inWindow hs = true

/-- What an instruction meets that may not issue, in the order of R18: ILLENC, ENGOP, PRIV, QUNB with the port, each but the last with the
first 32 bits of the word; then it waits for a register that is empty (R25), then for its ports (R24), and then for a place or room in the
window (R28). QUNB names the first port in the order A, B, C, D that is not bound in its direction, and a waiting instruction every port that
it waits on. -/
def Obligations.IssueRefusals : Prop :=
  ∀ (s : State) (h : Hart) (hs : HartState) (n : Need),
    (n.illenc = true → ready s h hs n = .trap .illenc (firstBits s)) ∧
    (n.illenc = false → ((n.profile = .coreOnly ∧ isEngine h = true) ∨ (n.profile = .engineOnly ∧ isEngine h = false)) →
      ready s h hs n = .trap .engop (firstBits s)) ∧
    (n.illenc = false → ofProfile h n → (n.refused = true ∨ (n.supervisor = true ∧ hs.st.priv = 0)) → ready s h hs n = .trap .priv (firstBits s)) ∧
    (admitted h hs n → ∀ (l r : List (Fin 4)) (p : Fin 4),
      (popPorts n.srcs = l ++ p :: r → (∀ q ∈ l, receives hs q) → ¬ receives hs p → ready s h hs n = .trap .qunb (BitVec.ofNat 64 p.val)) ∧
      ((∀ q ∈ popPorts n.srcs, receives hs q) → pushPorts n.dsts = l ++ p :: r → (∀ q ∈ l, sends hs q) → ¬ sends hs p →
        ready s h hs n = .trap .qunb (BitVec.ofNat 64 p.val))) ∧
    (admitted h hs n → badPort hs (popPorts n.srcs) (pushPorts n.dsts) = none →
      (((∃ r : Fin 16, Src.g r ∈ n.srcs ∧ gFull hs r = false) ∨ (∃ r : Fin 16, r ∈ n.vecs ∧ vecFull hs r = false)) →
        ready s h hs n = .park .reg) ∧
      ((∀ r : Fin 16, Src.g r ∈ n.srcs → gFull hs r = true) → (∀ r : Fin 16, r ∈ n.vecs → vecFull hs r = true) →
        ((∃ p : Fin 4, portWaits s h hs n p) → ∃ ps : List (Fin 4), ready s h hs n = .park (.queue ps) ∧ ∀ p : Fin 4, p ∈ ps ↔ portWaits s h hs n p) ∧
        (blockedPorts s h hs (popPorts n.srcs) (pushPorts n.dsts) = [] → ((n.place = true ∧ 8 ≤ placesUsed hs) ∨ inWindow hs = false) →
          ready s h hs n = .park .held)))

/-- An instruction that has to wait parks its hart, with what it waits for, and has no other effect: nothing is popped, no register and no
memory changes (R24, R25, R270). A hart that has waited on a port is known to have (R271). -/
def Obligations.WaitsUnissued : Prop :=
  ∀ (i : Instr) (s : State) (f : Form) (hs : HartState) (p : Park), programForm s i = some f → hartOf s s.cur = some hs →
    ready s s.cur hs f.need = .park p →
    exec i s = .next (setHart s s.cur { hs with run := { hs.run with park := p, need := some f.need, queued := hs.run.queued || p.isQueue } })

/-- An instruction that fails a check at issue does not issue: a strand that has nothing outstanding but what a trap withdraws enters its
handler (R18, R34, R199), with no other effect; one that has results outstanding stops, with the trap due, until they are back (R34); an
engine stops, and its trap is due (R208). -/
def Obligations.TrapsAtIssue : Prop :=
  ∀ (i : Instr) (s : State) (f : Form) (hs : HartState) (cause : Cause) (v : Word), programForm s i = some f →
    hartOf s s.cur = some hs → ready s s.cur hs f.need = .trap cause v →
    (isEngine s.cur = false → mayTrap hs → ∃ (t : State) (hs' : HartState), exec i s = .next t ∧ hartOf t s.cur = some hs' ∧
      inHandler hs hs' ((0 : BitVec 1) ++ cause.code) v (nextPc s s.cur hs) ∧ sameMemory s t ∧ otherHarts s t s.cur) ∧
    (isEngine s.cur = false → clean hs = false → exec i s = .next (trapRaised s s.cur hs cause v false)) ∧
    (isEngine s.cur = true → exec i s = .next (trapRaised s s.cur hs cause v false))

/-- A second remote access of a strand waits, unissued, until the first has returned (R28). MIG is none. -/
def Obligations.SecondRemoteWaits : Prop :=
  ∀ (i : Instr) (s : State) (f : Form) (hs : HartState),
    (accessTable i = some f ∨ objectsForm i = some f ∨ (tilesForm i = some f ∧ f.need.profile = .any)) →
    hartOf s s.cur = some hs → ready s s.cur hs f.need = .go →
    f.ok s.cur s (readSrcs s.cur f.need.srcs hs).2 (readSrcs s.cur f.need.srcs hs).1 = false →
    exec i s = .next (setHart s s.cur { hs with run := { hs.run with park := .blocked .remote, need := none } })

/-! Scalar and control instructions. -/

/-- Integer arithmetic and logic, between registers and with an immediate: the results of R80 in exact arithmetic, written through `wr` after
the sources were read in order; and compares, which write 1 or 0 (R83). -/
def Obligations.Arithmetic : Prop :=
  ∀ (i : Instr) (s : State) (f : Form), (aluForm i = some f ∨ relationForm i = some f) → Completes i s f

/-- SEL, CLZ, CTZ, POPC, BREV and BSWAP (R84, R86), and BEXT, BEXTS and BINS (R85). -/
def Obligations.SelectAndBits : Prop :=
  ∀ (i : Instr) (s : State) (f : Form), (selectForm i = some f ∨ fieldForm i = some f) → Completes i s f

/-- RNG, RNGF32 and RNGF64 (R88, R89). -/
def Obligations.RandomNumbers : Prop :=
  ∀ (i : Instr) (s : State) (f : Form), randomForm i = some f → Completes i s f

/-- DIV, DIVN, REM and REMN: the destination is emptied, and the result of R82 returns later. TWAIT waits for its time (R205). -/
def Obligations.Divides : Prop :=
  ∀ (i : Instr) (s : State) (f : Form), divideForm i = some f → Completes i s f

/-- EMPTY, FILL, ISFULL, LDL, YIELD, and WAIT, WAITST and JOIN once what they wait for holds (R37, R87, R94 to R96, R214). -/
def Obligations.FullEmptyAndWaits : Prop :=
  ∀ (i : Instr) (s : State) (f : Form), stepForm i = some f → Completes i s f

/-- A transfer that is taken goes to its target with its link written, once nothing is outstanding; one that is not taken goes on; one whose
target is no multiple of 4 raises IALIGN with the target, writes no link and does not move (R90 to R93). -/
def Obligations.Transfers : Prop :=
  ∀ (i : Instr) (s : State) (f : Flow) (hs : HartState), flowForm i = some f → hartOf s s.cur = some hs →
    ready s s.cur hs { srcs := f.srcs } = .go →
    let hs1 := (readSrcs s.cur f.srcs hs).2
    let vals := (readSrcs s.cur f.srcs hs).1
    let target := f.target (issuePc hs1) vals
    (f.taken vals = true → target &&& 3#64 = 0 → drained hs1 = true → f.link = none → exec i s = .next (jumped s s hs1 f.size target)) ∧
    (∀ r : Fin 16, f.taken vals = true → target &&& 3#64 = 0 → drained hs1 = true → f.link = some r →
      exec i s = .next (jumped s s (writeG hs1 r (issuePc hs1 + BitVec.ofNat 64 f.size)) f.size target)) ∧
    (f.taken vals = true → target &&& 3#64 = 0 → drained hs1 = false →
      exec i s = .next (setHart s s.cur { hs with run := { hs.run with park := .before, need := none } })) ∧
    (f.taken vals = true → target &&& 3#64 ≠ 0 → exec i s = .next (raiseIssue s s.cur hs .ialign target false)) ∧
    (f.taken vals = false → exec i s = .next (completed s s hs1 f.size))

/-! Memory and synchronisation. -/

/-- Loads and stores enter program order, translated as far as the TLBs go, and a load empties its destination (R27, R28, R98, R109 to R113,
R120). -/
def Obligations.LoadsAndStores : Prop :=
  ∀ (i : Instr) (s : State) (f : Form), (loadsForm i = some f ∨ storesForm i = some f) → Completes i s f

/-- Atomics enter program order (R122). -/
def Obligations.Atomics : Prop :=
  ∀ (i : Instr) (s : State) (f : Form), atomicsForm i = some f → Completes i s f

/-- TAKE, PUT, PEEK, barrier objects, reduction cells and decide-once cells enter program order (R114 to R136). That TAKE, BARV and PROPOSE ask
for both rights of their page is the model's choice (log 77). -/
def Obligations.Objects : Prop :=
  ∀ (i : Instr) (s : State) (f : Form), objectsForm i = some f → Completes i s f

/-- TDECL, TUNDECL, TFWD and MIG enter program order (R138 to R142); fences, prefetches, ISYNC and RECYCLE at issue (R118 to R121, R137).
That RECYCLE asks for both rights of its page is the model's choice (log 77). A strand that has stores accepted and not yet visible is left out
for ISYNC, FNC.HV and RECYCLE, which then wait for them in steps of their own. -/
def Obligations.TilesAndFences : Prop :=
  ∀ (i : Instr) (s : State) (f : Form), (tilesForm i = some f ∨ fencesForm i = some f) → Completes i s f

/-- A load of `n` bytes delivers them zero-extended or sign-extended, lowest byte first (R109), and LDBIT its field (R113). -/
def Obligations.LoadValues : Prop :=
  ∀ (p : Pending) (bs : List Byte),
    (∀ sg : Bool, p.op = .load sg → bs.length ∈ [1, 2, 4, 8] →
      loadResult p bs = .ok ([if sg then intWord (Int.bmod (leNat bs) (256 ^ bs.length)) else natWord (leNat bs)], {})) ∧
    ∀ (bit w : Nat) (sx : Bool), p.op = .loadBits bit w sx → 1 ≤ w → w ≤ 64 →
      loadResult p bs =
        .ok ([if sx then intWord (Int.bmod (leNat bs / 2 ^ bit) (2 ^ w)) else natWord (leNat bs / 2 ^ bit % 2 ^ w)], {})

/-- A result that returns fills its register, and no other register, no control register and no memory changes (R25, R30). -/
def Obligations.ResultFillsRegister : Prop :=
  ∀ (s : State) (h : Hart) (n : Nat) (hs : HartState) (p : Pending) (v : Word) (r : Fin 16),
    hartOf s h = some hs → findOp hs n = some p → p.phase = .done [v] → p.spoiled = false → p.dest = .scalar (.g r) → hs.joinOwn = none →
    ∃ (t : State) (hs' : HartState), exec (.resultReturn h n) s = .next t ∧ hartOf t h = some hs' ∧
      gVal hs' r = v ∧ gFull hs' r = true ∧ (∀ k : Fin 16, k ≠ r → hs'.regs.g.get k = hs.regs.g.get k) ∧ hs'.regs.v = hs.regs.v ∧
      hs'.regs.w = hs.regs.w ∧ sameControl hs hs' ∧ hs'.ports = hs.ports ∧ hs'.pc = hs.pc ∧ (∀ q ∈ hs'.run.ops, q.seq ≠ p.seq) ∧
      sameMemory s t ∧ otherHarts s t h

/-- What a store of bytes writes when it becomes visible: the bytes of its pieces, at their physical addresses, and nothing else (R110). Where
pieces share a byte, the later one's stays (R158). -/
def Obligations.StoreWritesItsBytes : Prop :=
  ∀ (s : State) (p : Pending) (data before after : List (List Byte)) (l r : List Span) (x : Span) (a : Placed) (bs : List Byte),
    memWf s.mem = true → p.op = .store data → data.map List.length = p.spans.map Span.len →
    p.spans = l ++ x :: r → data = before ++ bs :: after → before.length = l.length → x.at_ = some a →
    (∀ k : Fin bs.length, (∀ y ∈ r, outside y (a.pa + k.val)) → memByte (storeEffect s p).mem (a.pa + k.val) = bs.get k) ∧
    ∀ b : Nat, (∀ y ∈ p.spans, outside y b) → memByte (storeEffect s p).mem b = memByte s.mem b

/-- A store that becomes visible changes no byte outside the pieces that its translation gave, however it does: with ownership, at the home,
or in a declared tile of its core or of the home (R110, R236, R238). -/
def Obligations.VisibleStoreFrame : Prop :=
  ∀ (s t : State) (i : Nat) (a : Accepted) (data : List (List Byte)) (e : Instr), storeOf s i = some a → a.p.op = .store data →
    data.map List.length = a.p.spans.map Span.len →
    e ∈ [Instr.ownershipRequest (.store i), .ucStore (.store i), .tileRequest .write (.store i), .tileRequest .home (.store i)] →
    exec e s = .next t → ∀ b : Nat, (∀ x ∈ a.p.spans, outside x b) → memByte t.mem b = memByte s.mem b

/-- An atomic of `n` bits returns the old value and stores the new one of R122, in exact arithmetic, and no other byte changes. AFADD stores
the exact sum of finite operands, rounded to nearest even, with the sign of a zero sum after R148; the canonical NaN for a NaN (R61) and for
the sum of unlike infinities; and else the infinite operand. -/
def Obligations.AtomicValues : Prop :=
  ∀ (s : State) (a len : Nat) (b c : Word), memWf s.mem = true → (len = 4 ∨ len = 8) →
    let w := 8 * len
    let old := memNat s.mem a len
    let x := b.toNat % 2 ^ w
    let y := c.toNat % 2 ^ w
    let signed := fun n : Nat => Int.bmod n (2 ^ w)
    let new := fun fn : AtomicFn => memNat (atomicEffect s a len fn b c).1.mem a len
    (∀ fn : AtomicFn, (atomicEffect s a len fn b c).2 = natWord old ∧
      ∀ k : Nat, k < a ∨ a + len ≤ k → memByte (atomicEffect s a len fn b c).1.mem k = memByte s.mem k) ∧
    new .swap = x ∧ new .cas = (if old = x then y else old) ∧ new .add = (old + x) % 2 ^ w ∧ new .and = old &&& x ∧ new .or = old ||| x ∧
    new .xor = old ^^^ x ∧ new .min = (if signed old ≤ signed x then old else x) ∧ new .max = (if signed old ≤ signed x then x else old) ∧
    new .minn = Nat.min old x ∧ new .maxn = Nat.max old x ∧
    let f := if len = 4 then Fmt.f32 else Fmt.f64
    let nan := if len = 4 then 0x7FC00000 else 0x7FF8000000000000
    (fdecode f old = .nan ∨ fdecode f x = .nan → new .fadd = nan) ∧
    (∀ p q : Bool, fdecode f old = .inf p → fdecode f x = .inf q → new .fadd = if p = q then old else nan) ∧
    (∀ (p q : Bool) (m : Nat) (e : Int), fdecode f old = .inf p → fdecode f x = .fin q m e → new .fadd = old) ∧
    (∀ (p q : Bool) (m : Nat) (e : Int), fdecode f old = .fin q m e → fdecode f x = .inf p → new .fadd = x) ∧
    ∀ (p q : Bool) (m n : Nat) (d e : Int), fdecode f old = .fin p m d → fdecode f x = .fin q n e →
      let low := min d e
      let sum := signedNat p m * 2 ^ (d - low).toNat + signedNat q n * 2 ^ (e - low).toNat
      (sum ≠ 0 → new .fadd = (fround f ⟨.rne, false⟩ (.fin (decide (sum < 0)) sum.natAbs low)).1 % 2 ^ w) ∧
      (sum = 0 → new .fadd = if p && q then 2 ^ (w - 1) else 0)

/-- BARV: an overrun leaves the object as it is; an arrival is counted; the one that completes the phase clears ARR and advances PHASE (R129).
The phase that it returns is the one it arrived in. -/
def Obligations.BarrierArrives : Prop :=
  ∀ (s : State) (pa c : Nat), memWf s.mem = true →
    ((2 ^ 32 ≤ c ∨ barExp s.mem pa < barArr s.mem pa + c) → arriveBarrier s pa c = none) ∧
    (c < 2 ^ 32 → barArr s.mem pa + c < barExp s.mem pa → ∃ t : State, arriveBarrier s pa c = some (t, barPhase s.mem pa) ∧
      barExp t.mem pa = barExp s.mem pa ∧ barArr t.mem pa = barArr s.mem pa + c ∧ barPhase t.mem pa = barPhase s.mem pa) ∧
    (1 ≤ c → c < 2 ^ 32 → barArr s.mem pa + c = barExp s.mem pa → ∃ t : State, arriveBarrier s pa c = some (t, barPhase s.mem pa) ∧
      barExp t.mem pa = barExp s.mem pa ∧ barArr t.mem pa = 0 ∧ barPhase t.mem pa = barPhase s.mem pa + 1)

/-- PROPOSE to an open cell of its generation decides it, once: the cell holds the value, is DECIDED and keeps its generation; a later PROPOSE
changes no memory (R132, R135). -/
def Obligations.DecidesOnce : Prop :=
  ∀ (s : State) (h : Hart) (p : Pending) (v g : Word), memWf s.mem = true → p.op = .propose v g →
    cellGen s.mem p.pa = g.toNat % 2 ^ 30 →
    (cellState s.mem p.pa = 0 → cellState (decideRequest s h p).mem p.pa = 1 ∧ cellValue (decideRequest s h p).mem p.pa = v ∧
      cellGen (decideRequest s h p).mem p.pa = cellGen s.mem p.pa) ∧
    (cellState s.mem p.pa = 1 → (decideRequest s h p).mem = s.mem)

/-- A supervisor hart whose root is zero runs untranslated: a canonical address is its own physical address, where memory or a window is, and
raises PGFLT in a hole; a user hart whose root is zero raises PGFLT (R106, R365). -/
def Obligations.Untranslated : Prop :=
  ∀ (s : State) (h : Hart) (ptbr : Ptbr) (priv : BitVec 2) (va : Word) (r : Right), ptbr.root = 0 → r ≠ .exec →
    (canonical va = false → translate s h ptbr priv va r = .error .pgflt) ∧
    (canonical va = true → priv = 0 → translate s h ptbr priv va r = .error .pgflt) ∧
    (canonical va = true → priv ≠ 0 → (isWindow (va.toNat % 2 ^ 57) = true ∨ memPaOk (va.toNat % 2 ^ 57) = true) →
      ∃ p : Placed, translate s h ptbr priv va r = .ok p ∧ p.pa = va.toNat % 2 ^ 57) ∧
    (canonical va = true → priv ≠ 0 → isWindow (va.toNat % 2 ^ 57) = false → memPaOk (va.toNat % 2 ^ 57) = false →
      translate s h ptbr priv va r = .error .pgflt)

/-! Vector and matrix instructions. -/

/-- Lane by lane floating point and the special functions, in both modes (R147, R148, R159, R160). -/
def Obligations.VectorFloat : Prop :=
  ∀ (i : Instr) (s : State) (f : Form), vecFloatForm s i = some f → Completes i s f

/-- Integer lanes, compares, select, lane movement and random lanes (R149 to R151, R161). -/
def Obligations.VectorLanes : Prop :=
  ∀ (i : Instr) (s : State) (f : Form), vecLaneForm s i = some f → Completes i s f

/-- VEXT and the reductions (R151, R152). -/
def Obligations.VectorScalars : Prop :=
  ∀ (i : Instr) (s : State) (f : Form), vecScalarForm s i = some f → Completes i s f

/-- Conversions, blocks, and vector loads, stores, gathers and scatters (R153 to R158). Of VBENC, which lanes of C its SUBN mask counts, and that
SUBN comes before a check of R106, are the model's choices (logs 26 and 86). -/
def Obligations.VectorMemory : Prop :=
  ∀ (i : Instr) (s : State) (f : Form), vecMemoryForm s i = some f → Completes i s f

/-- A number that a floating-point format holds exactly is rounded to its own pattern, in every mode, without a flag (R59, R65, R66). -/
def Obligations.ExactValuesRoundToThemselves : Prop :=
  ∀ (f : Fmt) (r : Rnd) (x : Nat), f ∈ [Fmt.f32, .f64, .h16, .b16, .f8a, .f8b, .f6] → x < 2 ^ (1 + (fspec f).eb + (fspec f).fb) →
    fdecode f x ≠ .nan → fround f ⟨r, false⟩ (fdecode f x) = (x, {})

/-- Matrix instructions at issue: shapes, tiles, slices and products, loads, stores and commands, and the saving and restoring of tiles and
frozen state (R165 to R194). -/
def Obligations.MatrixInstructions : Prop :=
  ∀ (i : Instr) (s : State) (f : Form), (matrixForm s i = some f ∨ matrixMemoryForm s i = some f) → Completes i s f

/-! System instructions and traps. -/

/-- KICK, TPOST, GLAUNCH, SPAWN, bulk copies, queues and named barriers (R207 to R219), and the join record of a first SPAWN (R279). The model's
choices in it: that record is taken as the SPAWN issues (log 40), TPOST acquires its record at package scope (log 37), a push and a QSND.NB are
answered by their target as they issue (log 89), and what the port's stop signal says until then (log 34). -/
def Obligations.LaunchQueuesAndBarriers : Prop :=
  ∀ (i : Instr) (s : State) (f : Form), launchForm i = some f → Completes i s f

/-- MFS, every MTS, TLBINV, HALT, VMODE.L and VMODE.S (R162, R163, R198, R220, R221). An MTS of TIME raises PRIV for user and
supervisor harts. An MTS of THRANK, TTTB or MEVT takes effect at once for every core: that nothing is left to wait for is the model's choice (log
25). So is the floor of MFS of TIME over every strand of the machine (log 109), and QCFG's reserved bits, which are stored as written (log 117). -/
def Obligations.SystemRegisters : Prop :=
  (∀ (i : Instr) (s : State) (f : Form), systemForm i = some f → Completes i s f) ∧
  ∀ (a : Src) (s : State) (hs : HartState), hartOf s s.cur = some hs →
    exec (.mts .time a) s = .next (raiseIssue s s.cur hs .priv (firstBits s) false)

/-- TRAP and ECALL of a strand enter the handler with SWTRAP or ECALL and their number; they count as issued, so TRES names the instruction
behind them (R199, R202). An engine stops, and its trap is due with the same cause (R206, R208). -/
def Obligations.TrapAndEcall : Prop :=
  ∀ (s : State) (hs : HartState) (code : BitVec 16), hartOf s s.cur = some hs → ready s s.cur hs {} = .go →
    (isEngine s.cur = false → mayTrap hs →
      (∃ (t : State) (hs' : HartState), exec (.trap code) s = .next t ∧ hartOf t s.cur = some hs' ∧
        inHandler hs hs' ((0 : BitVec 1) ++ (24 : BitVec 6)) (code.zeroExtend 64) (nextPc s s.cur (pastTrap hs)) ∧ sameMemory s t ∧
        otherHarts s t s.cur) ∧
      ∃ (t : State) (hs' : HartState), exec (.ecall code) s = .next t ∧ hartOf t s.cur = some hs' ∧
        inHandler hs hs' ((0 : BitVec 1) ++ (23 : BitVec 6)) (code.zeroExtend 64) (nextPc s s.cur (pastTrap hs)) ∧ sameMemory s t ∧
        otherHarts s t s.cur) ∧
    (isEngine s.cur = false → clean hs = false → exec (.trap code) s = .next (trapRaised s s.cur hs .swtrap (code.zeroExtend 64) true) ∧
      exec (.ecall code) s = .next (trapRaised s s.cur hs .ecall (code.zeroExtend 64) true)) ∧
    (isEngine s.cur = true → exec (.trap code) s = .next (trapRaised s s.cur hs .swtrap (code.zeroExtend 64) true) ∧
      exec (.ecall code) s = .next (trapRaised s s.cur hs .ecall (code.zeroExtend 64) true))

/-- ERET at supervisor level: PRIV := PPRIV, PPRIV := 0, TIP := 0, RPLY and NBPEND := 0, the marked instructions are executed again in
ascending order, and issue goes on at TRES (R33, R201). -/
def Obligations.EretReturns : Prop :=
  ∀ (s : State) (hs : HartState), hartOf s s.cur = some hs → ready s s.cur hs { profile := .coreOnly, supervisor := true } = .go →
    ∃ (t : State) (hs' : HartState), exec .eret s = .next t ∧ hartOf t s.cur = some hs' ∧
      hs'.st = { hs.st with priv := hs.st.ppriv, ppriv := 0, tip := false } ∧ hs'.trap = { hs.trap with rply := 0, nbpend := 0 } ∧
      hs'.pc = hs.trap.tres ∧
      hs'.run.replay.todo = (if hs.trap.rply = 0 then [] else
        ((List.range 64).filter fun k => hs.trap.rply.getLsbD k).map fun k => hs.trap.tpc + BitVec.ofNat 64 (4 * k)) ∧
      hs'.regs = hs.regs ∧ hs'.fp = hs.fp ∧ hs'.mx = hs.mx ∧ hs'.ports = hs.ports ∧ hs'.ptbr = hs.ptbr ∧ hs'.timecmp = hs.timecmp ∧
      hs'.id = hs.id ∧ hs'.migr = hs.migr ∧ hs'.run.ops = hs.run.ops ∧ sameMemory s t ∧ otherHarts s t s.cur

/-- RETIRE of a strand with nothing outstanding, no store on its way, no queue entry on its way and no children ends the strand, and frees its slot
(R215); while something is outstanding or on its way it waits, and then for its children. That it waits for its accepted stores to be visible and for
its queue entries to be released to their ports is the model's choice (log 39). A store whose entry waits at a full port is over for it (R218). -/
def Obligations.RetireEnds : Prop :=
  ∀ (s : State) (hs : HartState), hartOf s s.cur = some hs → ready s s.cur hs {} = .go →
    (drained hs = true → (∀ a ∈ ownStores s hs.id.uid, a.atPort = true) → (∀ m ∈ s.pushes, m.src ≠ hs.id.uid) → hs.st.jcnt = 0 →
      exec .retire s = .next (endHart (noteIssue s s.cur) s.cur hs)) ∧
    hartOf (leaveSlot (noteIssue s s.cur) s.cur hs.id.uid) s.cur = none ∧
    (finished s hs = false → exec .retire s = .next (setHart s s.cur { hs with run := { hs.run with
      retiring := true, park := .blocked .finished, need := none } })) ∧
    (finished s hs = true → hs.st.jcnt ≠ 0 → exec .retire s = .next (setHart s s.cur { hs with run := { hs.run with
      retiring := true, park := .children, need := none } }))

/-- A memory fault that is reported once everything else has returned: the handler is entered with the oldest fault, TPC is the oldest marked
address, and RPLY has a bit for every faulting instruction within its reach (R31, R199). -/
def Obligations.MemoryFaultTrap : Prop :=
  ∀ (s : State) (c n : Nat) (hs : HartState) (cause : Cause) (v : Word), hartOf s (.strand c n) = some hs → hs.run.halted = false →
    hs.st.tip = false → clean hs = true → oldestFault hs = some (cause, v) →
    ∃ (t : State) (hs' : HartState), exec (.trapEntry (.strand c n)) s = .next t ∧ hartOf t (.strand c n) = some hs' ∧
      inHandler hs hs' ((0 : BitVec 1) ++ cause.code) v (nextPc s (.strand c n) hs) ∧ sameMemory s t ∧ otherHarts s t (.strand c n) ∧
      ∀ p ∈ hs.run.ops, p.isFaulted = true → hs'.trap.tpc.toNat ≤ p.pc.toNat ∧
        (p.pc.toNat < hs'.trap.tpc.toNat + 256 → hs'.trap.rply.getLsbD ((p.pc.toNat - hs'.trap.tpc.toNat) / 4) = true)

/-- A trap while TIP = 1 halts the strand, sets DBL and keeps the first trap's registers (R200). -/
def Obligations.DoubleTrapHalts : Prop :=
  ∀ (s : State) (c n : Nat) (hs : HartState) (cause : Cause) (v : Word), hartOf s (.strand c n) = some hs → hs.run.halted = false →
    hs.st.tip = true → clean hs = true → oldestFault hs = none →
    ∃ hs' : HartState, hartOf (raiseIssue s (.strand c n) hs cause v false) (.strand c n) = some hs' ∧ hs'.run.halted = true ∧
      hs'.run.dbl = true ∧ hs'.trap = hs.trap ∧ hs'.st = hs.st ∧ hs'.pc = hs.pc ∧ hs'.regs = hs.regs ∧
      sameMemory s (raiseIssue s (.strand c n) hs cause v false) ∧ otherHarts s (raiseIssue s (.strand c n) hs cause v false) (.strand c n)

/-- An asynchronous cause is taken at a clean point while TIP = 0: the one with the lowest code, which is pending no longer, with TCAUSE.ASYNC
set and TRES at the first instruction not issued (R204). -/
def Obligations.AsyncTaken : Prop :=
  ∀ (s : State) (c n : Nat) (hs : HartState), hartOf s (.strand c n) = some hs → asyncReady hs = true →
    ∃ (t : State) (hs' : HartState) (x : Cause × Word), exec (.asyncCauseTaken (.strand c n)) s = .next t ∧ hartOf t (.strand c n) = some hs' ∧
      x ∈ hs.run.async ∧ (∀ y ∈ hs.run.async, x.1.code.toNat ≤ y.1.code.toNat) ∧ hs'.run.async = hs.run.async.erase x ∧
      inHandler hs hs' ((1 : BitVec 1) ++ x.1.code) x.2 (nextPc s (.strand c n) hs) ∧ sameMemory s t ∧ otherHarts s t (.strand c n)

/-- The host's reads of the BAR: the registers of R354 as they stand, the words of a mailbox, and zero for any other access. What DMASTAT.BUSY
reads as is the model's choice (log 55). -/
def Obligations.BarReads : Prop :=
  ∀ (x : HostState) (off : Nat),
    (off % 8 ≠ 0 → barRead x off = 0) ∧ (0x1000050 ≤ off → barRead x off = 0) ∧
    (off % 8 = 0 → off < 0x1000000 → barRead x off = (assocGet x.mailbox off).getD 0) ∧
    barRead x 0x1000000 = x.base.zeroExtend 64 ∧ barRead x 0x1000008 = x.log2.zeroExtend 64 ∧ barRead x 0x1000010 = x.head.zeroExtend 64 ∧
    barRead x 0x1000018 = x.tail.zeroExtend 64 ∧ barRead x 0x1000020 = natWord x.en.toNat ∧
    barRead x 0x1000028 = natWord (x.err.toNat + 2 * (x.en && decide (x.head.toNat % 2 ^ x.log2.toNat ≠ x.tail.toNat % 2 ^ x.log2.toNat)).toNat) ∧
    barRead x 0x1000030 = 0 ∧ barRead x 0x1000038 = 0 ∧ barRead x 0x1000040 = 0 ∧ barRead x 0x1000048 = x.mbxdone

/-! Frames. -/

/-- A scalar instruction that writes its result at issue changes its destination and nothing else: no other register, no status, control, trap
or matrix register, no binding of a port and no entry of a port that it does not pop, no operation outstanding, no unit, no other hart and no
byte of memory. A register that it writes is full. -/
def Obligations.ScalarFrame : Prop :=
  ∀ (i : Instr) (s : State) (f : Form) (hs : HartState), scalarTable i = some f → hartOf s s.cur = some hs →
    ready s s.cur hs f.need = .go →
    ∃ (t : State) (hs' : HartState), exec i s = .next t ∧ hartOf t s.cur = some hs' ∧
      (∀ r : Fin 16, Dst.g r ∉ f.need.dsts → hs'.regs.g.get r = hs.regs.g.get r) ∧ (∀ r : Fin 16, Dst.g r ∈ f.need.dsts → gFull hs' r = true) ∧
      hs'.regs.v = hs.regs.v ∧ hs'.regs.w = hs.regs.w ∧ sameControl hs hs' ∧ samePorts hs hs' f.need.srcs ∧ hs'.run.ops = hs.run.ops ∧
      sameUnits s t ∧ otherHarts s t s.cur ∧ t.stores = s.stores ∧ sameMemory s t

/-- A load, store or atomic at issue: its destination is emptied and keeps its value; no other register, no status, control, trap or matrix
register, no binding and no entry of a port that it does not pop, no other hart and no byte of memory changes; one operation enters program
order, and no store is visible or accepted yet. -/
def Obligations.AccessFrame : Prop :=
  ∀ (i : Instr) (s : State) (f : Form) (hs : HartState), accessTable i = some f → hartOf s s.cur = some hs →
    ready s s.cur hs f.need = .go →
    f.ok s.cur s (readSrcs s.cur f.need.srcs hs).2 (readSrcs s.cur f.need.srcs hs).1 = true →
    ∃ (t : State) (hs' : HartState), exec i s = .next t ∧ hartOf t s.cur = some hs' ∧
      (∀ r : Fin 16, Dst.g r ∉ f.need.dsts → hs'.regs.g.get r = hs.regs.g.get r) ∧
      (∀ r : Fin 16, Dst.g r ∈ f.need.dsts → gVal hs' r = gVal hs r ∧ gFull hs' r = false) ∧
      hs'.regs.v = hs.regs.v ∧ hs'.regs.w = hs.regs.w ∧ sameControl hs hs' ∧ samePorts hs hs' f.need.srcs ∧
      hs'.run.ops.length = hs.run.ops.length + 1 ∧ otherHarts s t s.cur ∧ t.stores = s.stores ∧ sameMemory s t

/-! Events: each is due when its row of the table gives a state, and then has that effect. -/

/-- Results, traps, time, ports, and the matrix queue of a strand (R24, R25, R29, R31, R119, R142, R162, R170, R204, R205, R217, R271, R277,
R302, R306). The model's choices in it: a fault found is reported in a step of its own (log 49), a port goes on until its first stop signal (log
34), a TWAIT reads TIME above a floor of every strand (log 109), an accepted queue entry waits for what it releases (logs 89, 110), a command to
another core arrives in two stages (log 92), when frozen instructions thaw (log 27) and what counts as copied there (log 107), and the destination
of an automatic migration (log 93). -/
def Obligations.HartEvents : Prop := ∀ (i : Instr) (s t : State), hartEvents s i = some t → exec i s = .next t

/-- What arrives through a window of a core, and the answers to remote stores (R98 to R102, R190, R218, R219, R222, R230, R348). The model's
choices in it: whether a store that times out was performed (log 22), and that a tile-window access is queued behind what the core's matrix queue
holds when it arrives (log 91), REMTO counts from the issue of a request (log 99), and a queue store that waits at a port is dropped when that is
bound anew or its strand is gone (log 100). -/
def Obligations.WindowEvents : Prop := ∀ (i : Instr) (s t : State), windowEvents s i = some t → exec i s = .next t

/-- What reaches the owners and homes of memory, its cells and tiles, and the host's copies (R114 to R141, R224 to R242, R296). The model's
choices in it: a back-invalidation without an answer takes the link of the host down (log 79), slots that two strands feed and cells that ordinary
stores have reached hold free values (log 17), the host's requests take grains of 128 bytes (log 103), a walk's reads are those of
UC loads at the homes (log 116), what the host has modified of a line it took by a read is free (log 125), and no fetch holds a place in the order of
arrival (log 101). -/
def Obligations.MemoryEvents : Prop := ∀ (i : Instr) (s t : State), memoryEvents s i = some t → exec i s = .next t

/-- Messages between strands, pools and engines (R131, R207, R208, R214, R252, R279, R308). The model's choices in it: an engine whose start
cannot read its first instruction address reports that as a trap (log 30), a launch parked at a taken gang counts as launched (log
41), a SPAWN's status is decided, with its join record, where its message arrives (log 40), an engine starts with TVEC and TSCR zero (log 95), and how
a restored child's decrement finds its parent (log 44). -/
def Obligations.LaunchEvents : Prop := ∀ (i : Instr) (s t : State), launchEvents s i = some t → exec i s = .next t

/-- What the modules of a gang do and tell each other (R283, R289, R318 to R334). The model's choices in it: what ends a gate and a wait for
reports (log 45), and which records of a context are those of gang grids (log 65). -/
def Obligations.GangEvents : Prop := ∀ (i : Instr) (s t : State), gangEvents s i = some t → exec i s = .next t

/-- The host interface, the DMA unit and the mailbox (R350 to R354); clocks, links and combined requests (R323, R324, R340 to R351). The
model's choices in it: the states and the drift of the time unit (log 51), when a combined request leaves and is asked about (log 54), the host's
writes and DMASTAT.BUSY (log 55), what fails a descriptor (log 56), the layout of a report in the mailbox (log 60), its signature (log 83,
PRESUMED), the layout of a flit under its CRC (log 62), how a link comes back and stands by a peer (log 52), when a change of route takes effect (log
53), and what a recording logs of a packet (log 122). -/
def Obligations.HostAndLinkEvents : Prop :=
  ∀ (i : Instr) (s t : State), (hostEvents s i = some t ∨ linkEvents s i = some t) → exec i s = .next t

/-- Heat, power, errors and resets (R281, R282, R356 to R365). The model's choices in it: which slot heat disables and enables first (log 98), a
thermal trip takes every die out of service (log 58), a second failing die and the form of a report (log 60), how the steps of a warm reset end
(log 59), the layout of a fatal dump (log 57), and what a bring-up finds (log 61). -/
def Obligations.ModuleEvents : Prop := ∀ (i : Instr) (s t : State), moduleEvents s i = some t → exec i s = .next t
end

