-- ==== Sys2Proof/Laws/Dispatch.lean ====
section
/-!
SUPPORT. What `exec` calls for each instruction.
-/

namespace Sys2Proof.Machine

@[simp] theorem exec_add (d : Dst) (a : Src) (b : Src) (s : State) : exec (.add d a b) s = execAdd d a b s := rfl
@[simp] theorem exec_sub (d : Dst) (a : Src) (b : Src) (s : State) : exec (.sub d a b) s = execSub d a b s := rfl
@[simp] theorem exec_mul (d : Dst) (a : Src) (b : Src) (s : State) : exec (.mul d a b) s = execMul d a b s := rfl
@[simp] theorem exec_mulhs (d : Dst) (a : Src) (b : Src) (s : State) : exec (.mulhs d a b) s = execMulhs d a b s := rfl
@[simp] theorem exec_and (d : Dst) (a : Src) (b : Src) (s : State) : exec (.and d a b) s = execAnd d a b s := rfl
@[simp] theorem exec_or (d : Dst) (a : Src) (b : Src) (s : State) : exec (.or d a b) s = execOr d a b s := rfl
@[simp] theorem exec_xor (d : Dst) (a : Src) (b : Src) (s : State) : exec (.xor d a b) s = execXor d a b s := rfl
@[simp] theorem exec_andn (d : Dst) (a : Src) (b : Src) (s : State) : exec (.andn d a b) s = execAndn d a b s := rfl
@[simp] theorem exec_shl (d : Dst) (a : Src) (b : Src) (s : State) : exec (.shl d a b) s = execShl d a b s := rfl
@[simp] theorem exec_shr (d : Dst) (a : Src) (b : Src) (s : State) : exec (.shr d a b) s = execShr d a b s := rfl
@[simp] theorem exec_sar (d : Dst) (a : Src) (b : Src) (s : State) : exec (.sar d a b) s = execSar d a b s := rfl
@[simp] theorem exec_rol (d : Dst) (a : Src) (b : Src) (s : State) : exec (.rol d a b) s = execRol d a b s := rfl
@[simp] theorem exec_ror (d : Dst) (a : Src) (b : Src) (s : State) : exec (.ror d a b) s = execRor d a b s := rfl
@[simp] theorem exec_min (d : Dst) (a : Src) (b : Src) (s : State) : exec (.min d a b) s = execMin d a b s := rfl
@[simp] theorem exec_max (d : Dst) (a : Src) (b : Src) (s : State) : exec (.max d a b) s = execMax d a b s := rfl
@[simp] theorem exec_minn (d : Dst) (a : Src) (b : Src) (s : State) : exec (.minn d a b) s = execMinn d a b s := rfl
@[simp] theorem exec_maxn (d : Dst) (a : Src) (b : Src) (s : State) : exec (.maxn d a b) s = execMaxn d a b s := rfl
@[simp] theorem exec_mulhn (d : Dst) (a : Src) (b : Src) (s : State) : exec (.mulhn d a b) s = execMulhn d a b s := rfl
@[simp] theorem exec_addImm (d : Dst) (a : Src) (i : Imm) (s : State) : exec (.addImm d a i) s = execAddImm d a i s := rfl
@[simp] theorem exec_subImm (d : Dst) (a : Src) (i : Imm) (s : State) : exec (.subImm d a i) s = execSubImm d a i s := rfl
@[simp] theorem exec_mulImm (d : Dst) (a : Src) (i : Imm) (s : State) : exec (.mulImm d a i) s = execMulImm d a i s := rfl
@[simp] theorem exec_mulhsImm (d : Dst) (a : Src) (i : Imm) (s : State) : exec (.mulhsImm d a i) s = execMulhsImm d a i s := rfl
@[simp] theorem exec_andImm (d : Dst) (a : Src) (i : Imm) (s : State) : exec (.andImm d a i) s = execAndImm d a i s := rfl
@[simp] theorem exec_orImm (d : Dst) (a : Src) (i : Imm) (s : State) : exec (.orImm d a i) s = execOrImm d a i s := rfl
@[simp] theorem exec_xorImm (d : Dst) (a : Src) (i : Imm) (s : State) : exec (.xorImm d a i) s = execXorImm d a i s := rfl
@[simp] theorem exec_andnImm (d : Dst) (a : Src) (i : Imm) (s : State) : exec (.andnImm d a i) s = execAndnImm d a i s := rfl
@[simp] theorem exec_shlImm (d : Dst) (a : Src) (i : Imm) (s : State) : exec (.shlImm d a i) s = execShlImm d a i s := rfl
@[simp] theorem exec_shrImm (d : Dst) (a : Src) (i : Imm) (s : State) : exec (.shrImm d a i) s = execShrImm d a i s := rfl
@[simp] theorem exec_sarImm (d : Dst) (a : Src) (i : Imm) (s : State) : exec (.sarImm d a i) s = execSarImm d a i s := rfl
@[simp] theorem exec_rolImm (d : Dst) (a : Src) (i : Imm) (s : State) : exec (.rolImm d a i) s = execRolImm d a i s := rfl
@[simp] theorem exec_rorImm (d : Dst) (a : Src) (i : Imm) (s : State) : exec (.rorImm d a i) s = execRorImm d a i s := rfl
@[simp] theorem exec_minImm (d : Dst) (a : Src) (i : Imm) (s : State) : exec (.minImm d a i) s = execMinImm d a i s := rfl
@[simp] theorem exec_maxImm (d : Dst) (a : Src) (i : Imm) (s : State) : exec (.maxImm d a i) s = execMaxImm d a i s := rfl
@[simp] theorem exec_minnImm (d : Dst) (a : Src) (i : Imm) (s : State) : exec (.minnImm d a i) s = execMinnImm d a i s := rfl
@[simp] theorem exec_maxnImm (d : Dst) (a : Src) (i : Imm) (s : State) : exec (.maxnImm d a i) s = execMaxnImm d a i s := rfl
@[simp] theorem exec_mulhnImm (d : Dst) (a : Src) (i : Imm) (s : State) : exec (.mulhnImm d a i) s = execMulhnImm d a i s := rfl
@[simp] theorem exec_cmpeq (d : Dst) (a : Src) (b : Src) (s : State) : exec (.cmpeq d a b) s = execCmpeq d a b s := rfl
@[simp] theorem exec_cmpne (d : Dst) (a : Src) (b : Src) (s : State) : exec (.cmpne d a b) s = execCmpne d a b s := rfl
@[simp] theorem exec_cmplt (d : Dst) (a : Src) (b : Src) (s : State) : exec (.cmplt d a b) s = execCmplt d a b s := rfl
@[simp] theorem exec_cmple (d : Dst) (a : Src) (b : Src) (s : State) : exec (.cmple d a b) s = execCmple d a b s := rfl
@[simp] theorem exec_cmpltn (d : Dst) (a : Src) (b : Src) (s : State) : exec (.cmpltn d a b) s = execCmpltn d a b s := rfl
@[simp] theorem exec_cmplen (d : Dst) (a : Src) (b : Src) (s : State) : exec (.cmplen d a b) s = execCmplen d a b s := rfl
@[simp] theorem exec_cmpeqImm (d : Dst) (a : Src) (i : Imm) (s : State) : exec (.cmpeqImm d a i) s = execCmpeqImm d a i s := rfl
@[simp] theorem exec_cmpneImm (d : Dst) (a : Src) (i : Imm) (s : State) : exec (.cmpneImm d a i) s = execCmpneImm d a i s := rfl
@[simp] theorem exec_cmpltImm (d : Dst) (a : Src) (i : Imm) (s : State) : exec (.cmpltImm d a i) s = execCmpltImm d a i s := rfl
@[simp] theorem exec_cmpleImm (d : Dst) (a : Src) (i : Imm) (s : State) : exec (.cmpleImm d a i) s = execCmpleImm d a i s := rfl
@[simp] theorem exec_cmpltnImm (d : Dst) (a : Src) (i : Imm) (s : State) : exec (.cmpltnImm d a i) s = execCmpltnImm d a i s := rfl
@[simp] theorem exec_cmplenImm (d : Dst) (a : Src) (i : Imm) (s : State) : exec (.cmplenImm d a i) s = execCmplenImm d a i s := rfl
@[simp] theorem exec_sel (d : Dst) (a : Src) (b : Src) (c : Src) (s : State) : exec (.sel d a b c) s = execSel d a b c s := rfl
@[simp] theorem exec_bext (d : Dst) (a : Src) (pos : BitVec 6) (len : BitVec 7) (s : State) : exec (.bext d a pos len) s = execBext d a pos len s := rfl
@[simp] theorem exec_bexts (d : Dst) (a : Src) (pos : BitVec 6) (len : BitVec 7) (s : State) : exec (.bexts d a pos len) s = execBexts d a pos len s := rfl
@[simp] theorem exec_bins (d : Dst) (a : Src) (b : Src) (pos : BitVec 6) (len : BitVec 7) (s : State) : exec (.bins d a b pos len) s = execBins d a b pos len s := rfl
@[simp] theorem exec_clz (d : Dst) (a : Src) (s : State) : exec (.clz d a) s = execClz d a s := rfl
@[simp] theorem exec_ctz (d : Dst) (a : Src) (s : State) : exec (.ctz d a) s = execCtz d a s := rfl
@[simp] theorem exec_popc (d : Dst) (a : Src) (s : State) : exec (.popc d a) s = execPopc d a s := rfl
@[simp] theorem exec_brev (d : Dst) (a : Src) (s : State) : exec (.brev d a) s = execBrev d a s := rfl
@[simp] theorem exec_bswap (d : Dst) (a : Src) (s : State) : exec (.bswap d a) s = execBswap d a s := rfl
@[simp] theorem exec_div (d : Dst) (a : Src) (b : Src) (s : State) : exec (.div d a b) s = execDiv d a b s := rfl
@[simp] theorem exec_divn (d : Dst) (a : Src) (b : Src) (s : State) : exec (.divn d a b) s = execDivn d a b s := rfl
@[simp] theorem exec_rem (d : Dst) (a : Src) (b : Src) (s : State) : exec (.rem d a b) s = execRem d a b s := rfl
@[simp] theorem exec_remn (d : Dst) (a : Src) (b : Src) (s : State) : exec (.remn d a b) s = execRemn d a b s := rfl
@[simp] theorem exec_rng (d : Dst) (key : Src) (ctr : Src) (s : State) : exec (.rng d key ctr) s = execRng d key ctr s := rfl
@[simp] theorem exec_rngf32 (d : Dst) (key : Src) (ctr : Src) (s : State) : exec (.rngf32 d key ctr) s = execRngf32 d key ctr s := rfl
@[simp] theorem exec_rngf64 (d : Dst) (key : Src) (ctr : Src) (s : State) : exec (.rngf64 d key ctr) s = execRngf64 d key ctr s := rfl
@[simp] theorem exec_empty (r : FeReg) (s : State) : exec (.empty r) s = execEmpty r s := rfl
@[simp] theorem exec_fill (r : FeReg) (s : State) : exec (.fill r) s = execFill r s := rfl
@[simp] theorem exec_isfull (d : Dst) (a : FeSrc) (s : State) : exec (.isfull d a) s = execIsfull d a s := rfl
@[simp] theorem exec_putr (c : Option Coord) (off : Src) (val : Src) (disp : BitVec 16) (m : MemMod) (s : State) : exec (.putr c off val disp m) s = execPutr c off val disp m s := rfl
@[simp] theorem exec_ldl (d : Fin 16) (i : BitVec 16) (s : State) : exec (.ldl d i) s = execLdl d i s := rfl
@[simp] theorem exec_br (off : Disp) (s : State) : exec (.br off) s = execBr off s := rfl
@[simp] theorem exec_bz (a : Src) (off : Disp) (s : State) : exec (.bz a off) s = execBz a off s := rfl
@[simp] theorem exec_bnz (a : Src) (off : Disp) (s : State) : exec (.bnz a off) s = execBnz a off s := rfl
@[simp] theorem exec_bltz (a : Src) (off : Disp) (s : State) : exec (.bltz a off) s = execBltz a off s := rfl
@[simp] theorem exec_bgez (a : Src) (off : Disp) (s : State) : exec (.bgez a off) s = execBgez a off s := rfl
@[simp] theorem exec_call (link : Fin 16) (off : Disp) (s : State) : exec (.call link off) s = execCall link off s := rfl
@[simp] theorem exec_jr (a : Src) (s : State) : exec (.jr a) s = execJr a s := rfl
@[simp] theorem exec_callr (link : Fin 16) (a : Src) (s : State) : exec (.callr link a) s = execCallr link a s := rfl
@[simp] theorem exec_ret (a : Src) (s : State) : exec (.ret a) s = execRet a s := rfl
@[simp] theorem exec_wait (mask : BitVec 16) (s : State) : exec (.wait mask) s = execWait mask s := rfl
@[simp] theorem exec_ldN8 (d : Dst) (base : Src) (disp : Disp) (m : MemMod) (s : State) : exec (.ldN8 d base disp m) s = execLdN8 d base disp m s := rfl
@[simp] theorem exec_ldN16 (d : Dst) (base : Src) (disp : Disp) (m : MemMod) (s : State) : exec (.ldN16 d base disp m) s = execLdN16 d base disp m s := rfl
@[simp] theorem exec_ldN32 (d : Dst) (base : Src) (disp : Disp) (m : MemMod) (s : State) : exec (.ldN32 d base disp m) s = execLdN32 d base disp m s := rfl
@[simp] theorem exec_ld (d : Dst) (base : Src) (disp : Disp) (m : MemMod) (s : State) : exec (.ld d base disp m) s = execLd d base disp m s := rfl
@[simp] theorem exec_ldS8 (d : Dst) (base : Src) (disp : Disp) (m : MemMod) (s : State) : exec (.ldS8 d base disp m) s = execLdS8 d base disp m s := rfl
@[simp] theorem exec_ldS16 (d : Dst) (base : Src) (disp : Disp) (m : MemMod) (s : State) : exec (.ldS16 d base disp m) s = execLdS16 d base disp m s := rfl
@[simp] theorem exec_ldS32 (d : Dst) (base : Src) (disp : Disp) (m : MemMod) (s : State) : exec (.ldS32 d base disp m) s = execLdS32 d base disp m s := rfl
@[simp] theorem exec_windowLdN8 (kind : BitVec 3) (d : Dst) (off : Src) (disp : BitVec 16) (c : Coord) (m : MemMod) (s : State) : exec (.windowLdN8 kind d off disp c m) s = execWindowLdN8 kind d off disp c m s := rfl
@[simp] theorem exec_windowLdN16 (kind : BitVec 3) (d : Dst) (off : Src) (disp : BitVec 16) (c : Coord) (m : MemMod) (s : State) : exec (.windowLdN16 kind d off disp c m) s = execWindowLdN16 kind d off disp c m s := rfl
@[simp] theorem exec_windowLdN32 (kind : BitVec 3) (d : Dst) (off : Src) (disp : BitVec 16) (c : Coord) (m : MemMod) (s : State) : exec (.windowLdN32 kind d off disp c m) s = execWindowLdN32 kind d off disp c m s := rfl
@[simp] theorem exec_windowLd (kind : BitVec 3) (d : Dst) (off : Src) (disp : BitVec 16) (c : Coord) (m : MemMod) (s : State) : exec (.windowLd kind d off disp c m) s = execWindowLd kind d off disp c m s := rfl
@[simp] theorem exec_windowLdS8 (kind : BitVec 3) (d : Dst) (off : Src) (disp : BitVec 16) (c : Coord) (m : MemMod) (s : State) : exec (.windowLdS8 kind d off disp c m) s = execWindowLdS8 kind d off disp c m s := rfl
@[simp] theorem exec_windowLdS16 (kind : BitVec 3) (d : Dst) (off : Src) (disp : BitVec 16) (c : Coord) (m : MemMod) (s : State) : exec (.windowLdS16 kind d off disp c m) s = execWindowLdS16 kind d off disp c m s := rfl
@[simp] theorem exec_windowLdS32 (kind : BitVec 3) (d : Dst) (off : Src) (disp : BitVec 16) (c : Coord) (m : MemMod) (s : State) : exec (.windowLdS32 kind d off disp c m) s = execWindowLdS32 kind d off disp c m s := rfl
@[simp] theorem exec_ldbit (d : Dst) (a : Src) (b : Src) (wm1 : BitVec 6) (sx : Bool) (m : MemMod) (s : State) : exec (.ldbit d a b wm1 sx m) s = execLdbit d a b wm1 sx m s := rfl
@[simp] theorem exec_stN8 (base : Src) (data : Src) (disp : Disp) (m : MemMod) (s : State) : exec (.stN8 base data disp m) s = execStN8 base data disp m s := rfl
@[simp] theorem exec_stN16 (base : Src) (data : Src) (disp : Disp) (m : MemMod) (s : State) : exec (.stN16 base data disp m) s = execStN16 base data disp m s := rfl
@[simp] theorem exec_stN32 (base : Src) (data : Src) (disp : Disp) (m : MemMod) (s : State) : exec (.stN32 base data disp m) s = execStN32 base data disp m s := rfl
@[simp] theorem exec_st (base : Src) (data : Src) (disp : Disp) (m : MemMod) (s : State) : exec (.st base data disp m) s = execSt base data disp m s := rfl
@[simp] theorem exec_stZ (base : Src) (disp : Disp) (m : MemMod) (s : State) : exec (.stZ base disp m) s = execStZ base disp m s := rfl
@[simp] theorem exec_windowStN8 (kind : BitVec 3) (off : Src) (data : Src) (disp : BitVec 16) (c : Coord) (m : MemMod) (s : State) : exec (.windowStN8 kind off data disp c m) s = execWindowStN8 kind off data disp c m s := rfl
@[simp] theorem exec_windowStN16 (kind : BitVec 3) (off : Src) (data : Src) (disp : BitVec 16) (c : Coord) (m : MemMod) (s : State) : exec (.windowStN16 kind off data disp c m) s = execWindowStN16 kind off data disp c m s := rfl
@[simp] theorem exec_windowStN32 (kind : BitVec 3) (off : Src) (data : Src) (disp : BitVec 16) (c : Coord) (m : MemMod) (s : State) : exec (.windowStN32 kind off data disp c m) s = execWindowStN32 kind off data disp c m s := rfl
@[simp] theorem exec_windowSt (kind : BitVec 3) (off : Src) (data : Src) (disp : BitVec 16) (c : Coord) (m : MemMod) (s : State) : exec (.windowSt kind off data disp c m) s = execWindowSt kind off data disp c m s := rfl
@[simp] theorem exec_windowStZ (kind : BitVec 3) (off : Src) (disp : BitVec 16) (c : Coord) (m : MemMod) (s : State) : exec (.windowStZ kind off disp c m) s = execWindowStZ kind off disp c m s := rfl
@[simp] theorem exec_stbit (a : Src) (b : Src) (c : Src) (wm1 : BitVec 6) (m : MemMod) (s : State) : exec (.stbit a b c wm1 m) s = execStbit a b c wm1 m s := rfl
@[simp] theorem exec_take (d : Dst) (w : WOp) (m : MemMod) (s : State) : exec (.take d w m) s = execTake d w m s := rfl
@[simp] theorem exec_put (w : WOp) (data : Src) (m : MemMod) (s : State) : exec (.put w data m) s = execPut w data m s := rfl
@[simp] theorem exec_peek (d : Dst) (w : WOp) (m : MemMod) (s : State) : exec (.peek d w m) s = execPeek d w m s := rfl
@[simp] theorem exec_fnc (m : MemMod) (s : State) : exec (.fnc m) s = execFnc m s := rfl
@[simp] theorem exec_fncLt (sc : Scope) (s : State) : exec (.fncLt sc) s = execFncLt sc s := rfl
@[simp] theorem exec_fncHv (sc : Scope) (s : State) : exec (.fncHv sc) s = execFncHv sc s := rfl
@[simp] theorem exec_pref (base : Src) (disp : Disp) (sc : Scope) (s : State) : exec (.pref base disp sc) s = execPref base disp sc s := rfl
@[simp] theorem exec_prefw (base : Src) (disp : Disp) (sc : Scope) (s : State) : exec (.prefw base disp sc) s = execPrefw base disp sc s := rfl
@[simp] theorem exec_cflush (base : Src) (disp : Disp) (sc : Scope) (s : State) : exec (.cflush base disp sc) s = execCflush base disp sc s := rfl
@[simp] theorem exec_cinval (base : Src) (disp : Disp) (sc : Scope) (s : State) : exec (.cinval base disp sc) s = execCinval base disp sc s := rfl
@[simp] theorem exec_isync (sc : Scope) (s : State) : exec (.isync sc) s = execIsync sc s := rfl
@[simp] theorem exec_tdecl (d : Dst) (base : Src) (desc : Src) (disp : BitVec 16) (m : MemMod) (s : State) : exec (.tdecl d base desc disp m) s = execTdecl d base desc disp m s := rfl
@[simp] theorem exec_tundecl (d : Dst) (base : Src) (disp : BitVec 16) (m : MemMod) (s : State) : exec (.tundecl d base disp m) s = execTundecl d base disp m s := rfl
@[simp] theorem exec_tfwd (d : Dst) (base : Src) (t : TfwdTarget) (disp : BitVec 16) (m : MemMod) (s : State) : exec (.tfwd d base t disp m) s = execTfwd d base t disp m s := rfl
@[simp] theorem exec_mig (d : Dst) (base : Src) (disp : Disp) (sc : Scope) (s : State) : exec (.mig d base disp sc) s = execMig d base disp sc s := rfl
@[simp] theorem exec_swap (d : Dst) (base : Src) (b : Src) (disp : Disp) (w32 : Bool) (m : MemMod) (s : State) : exec (.swap d base b disp w32 m) s = execSwap d base b disp w32 m s := rfl
@[simp] theorem exec_cas (d : Dst) (base : Src) (b : Src) (c : Src) (disp : Disp) (w32 : Bool) (m : MemMod) (s : State) : exec (.cas d base b c disp w32 m) s = execCas d base b c disp w32 m s := rfl
@[simp] theorem exec_aadd (d : Dst) (base : Src) (b : Src) (disp : Disp) (w32 : Bool) (m : MemMod) (s : State) : exec (.aadd d base b disp w32 m) s = execAadd d base b disp w32 m s := rfl
@[simp] theorem exec_aand (d : Dst) (base : Src) (b : Src) (disp : Disp) (w32 : Bool) (m : MemMod) (s : State) : exec (.aand d base b disp w32 m) s = execAand d base b disp w32 m s := rfl
@[simp] theorem exec_aor (d : Dst) (base : Src) (b : Src) (disp : Disp) (w32 : Bool) (m : MemMod) (s : State) : exec (.aor d base b disp w32 m) s = execAor d base b disp w32 m s := rfl
@[simp] theorem exec_axor (d : Dst) (base : Src) (b : Src) (disp : Disp) (w32 : Bool) (m : MemMod) (s : State) : exec (.axor d base b disp w32 m) s = execAxor d base b disp w32 m s := rfl
@[simp] theorem exec_amin (d : Dst) (base : Src) (b : Src) (disp : Disp) (w32 : Bool) (m : MemMod) (s : State) : exec (.amin d base b disp w32 m) s = execAmin d base b disp w32 m s := rfl
@[simp] theorem exec_amax (d : Dst) (base : Src) (b : Src) (disp : Disp) (w32 : Bool) (m : MemMod) (s : State) : exec (.amax d base b disp w32 m) s = execAmax d base b disp w32 m s := rfl
@[simp] theorem exec_aminn (d : Dst) (base : Src) (b : Src) (disp : Disp) (w32 : Bool) (m : MemMod) (s : State) : exec (.aminn d base b disp w32 m) s = execAminn d base b disp w32 m s := rfl
@[simp] theorem exec_amaxn (d : Dst) (base : Src) (b : Src) (disp : Disp) (w32 : Bool) (m : MemMod) (s : State) : exec (.amaxn d base b disp w32 m) s = execAmaxn d base b disp w32 m s := rfl
@[simp] theorem exec_afadd (d : Dst) (base : Src) (b : Src) (disp : Disp) (w32 : Bool) (m : MemMod) (s : State) : exec (.afadd d base b disp w32 m) s = execAfadd d base b disp w32 m s := rfl
@[simp] theorem exec_reddecl (cell : Src) (desc : Src) (disp : BitVec 16) (m : MemMod) (s : State) : exec (.reddecl cell desc disp m) s = execReddecl cell desc disp m s := rfl
@[simp] theorem exec_redAdd (cell : Src) (slot : Src) (val : Src) (disp : BitVec 16) (m : MemMod) (s : State) : exec (.redAdd cell slot val disp m) s = execRedAdd cell slot val disp m s := rfl
@[simp] theorem exec_redRd (d : Dst) (cell : Src) (disp : BitVec 16) (m : MemMod) (s : State) : exec (.redRd d cell disp m) s = execRedRd d cell disp m s := rfl
@[simp] theorem exec_binit (w : WOp) (exp : Src) (m : MemMod) (s : State) : exec (.binit w exp m) s = execBinit w exp m s := rfl
@[simp] theorem exec_barv (d : Dst) (w : WOp) (cnt : Src) (m : MemMod) (s : State) : exec (.barv d w cnt m) s = execBarv d w cnt m s := rfl
@[simp] theorem exec_bwait (d : Dst) (w : WOp) (ph : Src) (m : MemMod) (s : State) : exec (.bwait d w ph m) s = execBwait d w ph m s := rfl
@[simp] theorem exec_btest (d : Dst) (w : WOp) (ph : Src) (m : MemMod) (s : State) : exec (.btest d w ph m) s = execBtest d w ph m s := rfl
@[simp] theorem exec_propose (pair : Fin 8) (cell : Src) (val : Src) (gen : Src) (disp : BitVec 16) (m : MemMod) (s : State) : exec (.propose pair cell val gen disp m) s = execPropose pair cell val gen disp m s := rfl
@[simp] theorem exec_dread (pair : Fin 8) (cell : Src) (gen : Src) (disp : BitVec 16) (m : MemMod) (s : State) : exec (.dread pair cell gen disp m) s = execDread pair cell gen disp m s := rfl
@[simp] theorem exec_dcell (cell : Src) (gen : Src) (disp : BitVec 16) (m : MemMod) (s : State) : exec (.dcell cell gen disp m) s = execDcell cell gen disp m s := rfl
@[simp] theorem exec_recycle (d : Dst) (cell : Src) (gen : Src) (disp : BitVec 16) (m : MemMod) (s : State) : exec (.recycle d cell gen disp m) s = execRecycle d cell gen disp m s := rfl
@[simp] theorem exec_vadd (d : Fin 16) (a : Fin 16) (b : Fin 16) (f : FMod) (s : State) : exec (.vadd d a b f) s = execVadd d a b f s := rfl
@[simp] theorem exec_vsub (d : Fin 16) (a : Fin 16) (b : Fin 16) (f : FMod) (s : State) : exec (.vsub d a b f) s = execVsub d a b f s := rfl
@[simp] theorem exec_vmul (d : Fin 16) (a : Fin 16) (b : Fin 16) (f : FMod) (s : State) : exec (.vmul d a b f) s = execVmul d a b f s := rfl
@[simp] theorem exec_vdiv (d : Fin 16) (a : Fin 16) (b : Fin 16) (f : FMod) (s : State) : exec (.vdiv d a b f) s = execVdiv d a b f s := rfl
@[simp] theorem exec_vmin (d : Fin 16) (a : Fin 16) (b : Fin 16) (f : Fmt) (s : State) : exec (.vmin d a b f) s = execVmin d a b f s := rfl
@[simp] theorem exec_vmax (d : Fin 16) (a : Fin 16) (b : Fin 16) (f : Fmt) (s : State) : exec (.vmax d a b f) s = execVmax d a b f s := rfl
@[simp] theorem exec_vabs (d : Fin 16) (a : Fin 16) (f : Fmt) (s : State) : exec (.vabs d a f) s = execVabs d a f s := rfl
@[simp] theorem exec_vneg (d : Fin 16) (a : Fin 16) (f : Fmt) (s : State) : exec (.vneg d a f) s = execVneg d a f s := rfl
@[simp] theorem exec_vsqrt (d : Fin 16) (a : Fin 16) (f : FMod) (s : State) : exec (.vsqrt d a f) s = execVsqrt d a f s := rfl
@[simp] theorem exec_vfma (d : Fin 16) (a : Fin 16) (b : Fin 16) (c : Fin 16) (f : FMod) (s : State) : exec (.vfma d a b c f) s = execVfma d a b c f s := rfl
@[simp] theorem exec_vfms (d : Fin 16) (a : Fin 16) (b : Fin 16) (c : Fin 16) (f : FMod) (s : State) : exec (.vfms d a b c f) s = execVfms d a b c f s := rfl
@[simp] theorem exec_vfnma (d : Fin 16) (a : Fin 16) (b : Fin 16) (c : Fin 16) (f : FMod) (s : State) : exec (.vfnma d a b c f) s = execVfnma d a b c f s := rfl
@[simp] theorem exec_vfnms (d : Fin 16) (a : Fin 16) (b : Fin 16) (c : Fin 16) (f : FMod) (s : State) : exec (.vfnms d a b c f) s = execVfnms d a b c f s := rfl
@[simp] theorem exec_viadd (d : Fin 16) (a : Fin 16) (b : Fin 16) (f : Fmt) (s : State) : exec (.viadd d a b f) s = execViadd d a b f s := rfl
@[simp] theorem exec_visub (d : Fin 16) (a : Fin 16) (b : Fin 16) (f : Fmt) (s : State) : exec (.visub d a b f) s = execVisub d a b f s := rfl
@[simp] theorem exec_vimul (d : Fin 16) (a : Fin 16) (b : Fin 16) (f : Fmt) (s : State) : exec (.vimul d a b f) s = execVimul d a b f s := rfl
@[simp] theorem exec_vand (d : Fin 16) (a : Fin 16) (b : Fin 16) (f : Fmt) (s : State) : exec (.vand d a b f) s = execVand d a b f s := rfl
@[simp] theorem exec_vor (d : Fin 16) (a : Fin 16) (b : Fin 16) (f : Fmt) (s : State) : exec (.vor d a b f) s = execVor d a b f s := rfl
@[simp] theorem exec_vxor (d : Fin 16) (a : Fin 16) (b : Fin 16) (f : Fmt) (s : State) : exec (.vxor d a b f) s = execVxor d a b f s := rfl
@[simp] theorem exec_vshl (d : Fin 16) (a : Fin 16) (b : Fin 16) (f : Fmt) (s : State) : exec (.vshl d a b f) s = execVshl d a b f s := rfl
@[simp] theorem exec_vshr (d : Fin 16) (a : Fin 16) (b : Fin 16) (f : Fmt) (s : State) : exec (.vshr d a b f) s = execVshr d a b f s := rfl
@[simp] theorem exec_vsar (d : Fin 16) (a : Fin 16) (b : Fin 16) (f : Fmt) (s : State) : exec (.vsar d a b f) s = execVsar d a b f s := rfl
@[simp] theorem exec_viadds (d : Fin 16) (a : Fin 16) (b : Fin 16) (f : Fmt) (s : State) : exec (.viadds d a b f) s = execViadds d a b f s := rfl
@[simp] theorem exec_vcmpeq (d : Fin 16) (a : Fin 16) (b : Fin 16) (f : Fmt) (s : State) : exec (.vcmpeq d a b f) s = execVcmpeq d a b f s := rfl
@[simp] theorem exec_vcmplt (d : Fin 16) (a : Fin 16) (b : Fin 16) (f : Fmt) (s : State) : exec (.vcmplt d a b f) s = execVcmplt d a b f s := rfl
@[simp] theorem exec_vcmple (d : Fin 16) (a : Fin 16) (b : Fin 16) (f : Fmt) (s : State) : exec (.vcmple d a b f) s = execVcmple d a b f s := rfl
@[simp] theorem exec_vsel (d : Fin 16) (a : Fin 16) (b : Fin 16) (c : Fin 16) (f : Fmt) (s : State) : exec (.vsel d a b c f) s = execVsel d a b c f s := rfl
@[simp] theorem exec_vperm (d : Fin 16) (a : Fin 16) (b : Fin 16) (f : Fmt) (s : State) : exec (.vperm d a b f) s = execVperm d a b f s := rfl
@[simp] theorem exec_vbcast (d : Fin 16) (a : Src) (f : Fmt) (s : State) : exec (.vbcast d a f) s = execVbcast d a f s := rfl
@[simp] theorem exec_vext (d : Dst) (a : Fin 16) (lane : BitVec 8) (f : Fmt) (s : State) : exec (.vext d a lane f) s = execVext d a lane f s := rfl
@[simp] theorem exec_vins (d : Fin 16) (a : Fin 16) (b : Src) (lane : BitVec 8) (f : Fmt) (s : State) : exec (.vins d a b lane f) s = execVins d a b lane f s := rfl
@[simp] theorem exec_vrsum (d : Dst) (a : Fin 16) (f : FMod) (s : State) : exec (.vrsum d a f) s = execVrsum d a f s := rfl
@[simp] theorem exec_vrmin (d : Dst) (a : Fin 16) (f : Fmt) (s : State) : exec (.vrmin d a f) s = execVrmin d a f s := rfl
@[simp] theorem exec_vrmax (d : Dst) (a : Fin 16) (f : Fmt) (s : State) : exec (.vrmax d a f) s = execVrmax d a f s := rfl
@[simp] theorem exec_vcvt (d : Fin 16) (a : Fin 16) (f : FMod) (src : Fmt) (s : State) : exec (.vcvt d a f src) s = execVcvt d a f src s := rfl
@[simp] theorem exec_vnarrow (d : Fin 16) (a : Fin 16) (b : Fin 16) (f : FMod) (src : Fmt) (s : State) : exec (.vnarrow d a b f src) s = execVnarrow d a b f src s := rfl
@[simp] theorem exec_vbdec (d : Fin 16) (base : Src) (elem : Src) (disp : BitVec 16) (s : State) : exec (.vbdec d base elem disp) s = execVbdec d base elem disp s := rfl
@[simp] theorem exec_vbenc (base : Src) (desc : Src) (c : Fin 16) (disp : BitVec 16) (r : Rnd) (s : State) : exec (.vbenc base desc c disp r) s = execVbenc base desc c disp r s := rfl
@[simp] theorem exec_vld (d : Fin 16) (base : Src) (disp : Disp) (m : MemMod) (s : State) : exec (.vld d base disp m) s = execVld d base disp m s := rfl
@[simp] theorem exec_vst (base : Src) (b : Fin 16) (disp : Disp) (m : MemMod) (s : State) : exec (.vst base b disp m) s = execVst base b disp m s := rfl
@[simp] theorem exec_vgath (d : Fin 16) (base : Src) (b : Fin 16) (w : Fin 3) (m : MemMod) (s : State) : exec (.vgath d base b w m) s = execVgath d base b w m s := rfl
@[simp] theorem exec_vscat (base : Src) (b : Fin 16) (c : Fin 16) (w : Fin 3) (m : MemMod) (s : State) : exec (.vscat base b c w m) s = execVscat base b c w m s := rfl
@[simp] theorem exec_vexp2 (d : Fin 16) (a : Fin 16) (f : FMod) (s : State) : exec (.vexp2 d a f) s = execVexp2 d a f s := rfl
@[simp] theorem exec_vlog2 (d : Fin 16) (a : Fin 16) (f : FMod) (s : State) : exec (.vlog2 d a f) s = execVlog2 d a f s := rfl
@[simp] theorem exec_vrcp (d : Fin 16) (a : Fin 16) (f : FMod) (s : State) : exec (.vrcp d a f) s = execVrcp d a f s := rfl
@[simp] theorem exec_vrsq (d : Fin 16) (a : Fin 16) (f : FMod) (s : State) : exec (.vrsq d a f) s = execVrsq d a f s := rfl
@[simp] theorem exec_vtanh (d : Fin 16) (a : Fin 16) (f : FMod) (s : State) : exec (.vtanh d a f) s = execVtanh d a f s := rfl
@[simp] theorem exec_vrng (d : Fin 16) (key : Src) (ctr : Src) (s : State) : exec (.vrng d key ctr) s = execVrng d key ctr s := rfl
@[simp] theorem exec_vrngf32 (d : Fin 16) (key : Src) (ctr : Src) (s : State) : exec (.vrngf32 d key ctr) s = execVrngf32 d key ctr s := rfl
@[simp] theorem exec_vrngf64 (d : Fin 16) (key : Src) (ctr : Src) (s : State) : exec (.vrngf64 d key ctr) s = execVrngf64 d key ctr s := rfl
@[simp] theorem exec_tshape (t : Fin 8) (w : ShapeOp) (s : State) : exec (.tshape t w) s = execTshape t w s := rfl
@[simp] theorem exec_tzero (t : Fin 8) (s : State) : exec (.tzero t) s = execTzero t s := rfl
@[simp] theorem exec_tld (t : Fin 8) (base : Src) (pitch : Src) (disp : Disp) (m : MemMod) (s : State) : exec (.tld t base pitch disp m) s = execTld t base pitch disp m s := rfl
@[simp] theorem exec_tldBlk (t : Fin 8) (base : Src) (pitch : Src) (e0 : Src) (disp : Disp) (m : MemMod) (s : State) : exec (.tldBlk t base pitch e0 disp m) s = execTldBlk t base pitch e0 disp m s := rfl
@[simp] theorem exec_tst (t : Fin 8) (base : Src) (pitch : Src) (disp : Disp) (m : MemMod) (s : State) : exec (.tst t base pitch disp m) s = execTst t base pitch disp m s := rfl
@[simp] theorem exec_trowv (d : Fin 16) (t : Fin 8) (idx : Src) (start : BitVec 8) (f : FMod) (s : State) : exec (.trowv d t idx start f) s = execTrowv d t idx start f s := rfl
@[simp] theorem exec_tcolv (d : Fin 16) (t : Fin 8) (idx : Src) (start : BitVec 8) (f : FMod) (s : State) : exec (.tcolv d t idx start f) s = execTcolv d t idx start f s := rfl
@[simp] theorem exec_vtrow (t : Fin 8) (a : Fin 16) (idx : Src) (start : BitVec 8) (f : FMod) (s : State) : exec (.vtrow t a idx start f) s = execVtrow t a idx start f s := rfl
@[simp] theorem exec_vtcol (t : Fin 8) (a : Fin 16) (idx : Src) (start : BitVec 8) (f : FMod) (s : State) : exec (.vtcol t a idx start f) s = execVtcol t a idx start f s := rfl
@[simp] theorem exec_mma (d : Fin 8) (a : Fin 8) (b : Fin 8) (scsel : BitVec 2) (scen : Bool) (s : State) : exec (.mma d a b scsel scen) s = execMma d a b scsel scen s := rfl
@[simp] theorem exec_mmau (d : Fin 8) (a : Src) (b : Fin 8) (scsel : BitVec 2) (scen : Bool) (s : State) : exec (.mmau d a b scsel scen) s = execMmau d a b scsel scen s := rfl
@[simp] theorem exec_cbload (set : Fin 4) (base : Src) (disp : Disp) (m : MemMod) (s : State) : exec (.cbload set base disp m) s = execCbload set base disp m s := rfl
@[simp] theorem exec_mucode (a : Src) (s : State) : exec (.mucode a) s = execMucode a s := rfl
@[simp] theorem exec_mmar (d : Fin 8) (a : Fin 8) (b : Fin 8) (s : State) : exec (.mmar d a b) s = execMmar d a b s := rfl
@[simp] theorem exec_mcmd (d : Dst) (c : Option Coord) (off : Src) (cmd : Src) (cap : Src) (disp : BitVec 16) (m : MemMod) (s : State) : exec (.mcmd d c off cmd cap disp m) s = execMcmd d c off cmd cap disp m s := rfl
@[simp] theorem exec_msave (base : Src) (slot : Src) (disp : Disp) (m : MemMod) (s : State) : exec (.msave base slot disp m) s = execMsave base slot disp m s := rfl
@[simp] theorem exec_mrestore (base : Src) (slot : Src) (disp : Disp) (m : MemMod) (s : State) : exec (.mrestore base slot disp m) s = execMrestore base slot disp m s := rfl
@[simp] theorem exec_tsave (t : Fin 8) (base : Src) (disp : Disp) (m : MemMod) (s : State) : exec (.tsave t base disp m) s = execTsave t base disp m s := rfl
@[simp] theorem exec_trst (t : Fin 8) (base : Src) (disp : Disp) (m : MemMod) (s : State) : exec (.trst t base disp m) s = execTrst t base disp m s := rfl
@[simp] theorem exec_kick (d : Dst) (a : Src) (b : Src) (m : MemMod) (s : State) : exec (.kick d a b m) s = execKick d a b m s := rfl
@[simp] theorem exec_tpost (d : Dst) (base : Src) (disp : BitVec 16) (m : MemMod) (s : State) : exec (.tpost d base disp m) s = execTpost d base disp m s := rfl
@[simp] theorem exec_spawn (d : Dst) (entry : Src) (arg : Src) (c : Option Coord) (s : State) : exec (.spawn d entry arg c) s = execSpawn d entry arg c s := rfl
@[simp] theorem exec_glaunch (d : Dst) (desc : Src) (done : BitVec 64) (s : State) : exec (.glaunch d desc done) s = execGlaunch d desc done s := rfl
@[simp] theorem exec_qbind (port : Fin 4) (a : Src) (s : State) : exec (.qbind port a) s = execQbind port a s := rfl
@[simp] theorem exec_qsndNb (d : Dst) (port : Fin 4) (b : Src) (m : MemMod) (s : State) : exec (.qsndNb d port b m) s = execQsndNb d port b m s := rfl
@[simp] theorem exec_qstat (d : Dst) (port : Fin 4) (s : State) : exec (.qstat d port) s = execQstat d port s := rfl
@[simp] theorem exec_nbinit (a : Src) (b : Src) (n : Fin 48) (s : State) : exec (.nbinit a b n) s = execNbinit a b n s := rfl
@[simp] theorem exec_nbarr (d : Dst) (a : Src) (n : Fin 48) (s : State) : exec (.nbarr d a n) s = execNbarr d a n s := rfl
@[simp] theorem exec_nbwait (d : Dst) (a : Src) (b : Src) (n : Fin 48) (s : State) : exec (.nbwait d a b n) s = execNbwait d a b n s := rfl
@[simp] theorem exec_bcopy (a : Src) (b : Src) (c : Src) (bar : Option (BitVec 64)) (m : MemMod) (s : State) : exec (.bcopy a b c bar m) s = execBcopy a b c bar m s := rfl
@[simp] theorem exec_bcast (a : Src) (b : Src) (c : Src) (mask : BitVec 64) (quad : BitVec 2) (die : BitVec 2) (s : State) : exec (.bcast a b c mask quad die) s = execBcast a b c mask quad die s := rfl
@[simp] theorem exec_mfs (d : Dst) (r : SysReg) (s : State) : exec (.mfs d r) s = execMfs d r s := rfl
@[simp] theorem exec_mts (r : PlainReg) (a : Src) (s : State) : exec (.mts r a) s = execMts r a s := rfl
@[simp] theorem exec_trap (code : BitVec 16) (s : State) : exec (.trap code) s = execTrap code s := rfl
@[simp] theorem exec_ecall (code : BitVec 16) (s : State) : exec (.ecall code) s = execEcall code s := rfl
@[simp] theorem exec_tlbinvPg (a : Src) (b : Src) (s : State) : exec (.tlbinvPg a b) s = execTlbinvPg a b s := rfl
@[simp] theorem exec_tlbinvAll (b : Src) (s : State) : exec (.tlbinvAll b) s = execTlbinvAll b s := rfl
@[simp] theorem exec_twait (d : Dst) (a : Src) (s : State) : exec (.twait d a) s = execTwait d a s := rfl
@[simp] theorem exec_sstatWrite (a : Src) (s : State) : exec (.sstatWrite a) s = execSstatWrite a s := rfl
@[simp] theorem exec_fpctlWrite (a : Src) (s : State) : exec (.fpctlWrite a) s = execFpctlWrite a s := rfl
@[simp] theorem exec_cbselWrite (a : Src) (s : State) : exec (.cbselWrite a) s = execCbselWrite a s := rfl
@[simp] theorem exec_tshapeWrite (n : Fin 8) (a : Src) (s : State) : exec (.tshapeWrite n a) s = execTshapeWrite n a s := rfl
@[simp] theorem exec_tdirtyWrite (a : Src) (s : State) : exec (.tdirtyWrite a) s = execTdirtyWrite a s := rfl
@[simp] theorem exec_timecmpWrite (a : Src) (s : State) : exec (.timecmpWrite a) s = execTimecmpWrite a s := rfl
@[simp] theorem exec_wdogWrite (a : Src) (s : State) : exec (.wdogWrite a) s = execWdogWrite a s := rfl
@[simp] theorem exec_mcapWrite (a : Src) (s : State) : exec (.mcapWrite a) s = execMcapWrite a s := rfl
@[simp] theorem exec_ptbrWrite (a : Src) (s : State) : exec (.ptbrWrite a) s = execPtbrWrite a s := rfl
@[simp] theorem exec_thrankWrite (a : Src) (s : State) : exec (.thrankWrite a) s = execThrankWrite a s := rfl
@[simp] theorem exec_tttbWrite (a : Src) (s : State) : exec (.tttbWrite a) s = execTttbWrite a s := rfl
@[simp] theorem exec_mevtWrite (a : Src) (s : State) : exec (.mevtWrite a) s = execMevtWrite a s := rfl
@[simp] theorem exec_yield  (s : State) : exec (.yield) s = execYield s := rfl
@[simp] theorem exec_waitst  (s : State) : exec (.waitst) s = execWaitst s := rfl
@[simp] theorem exec_join  (s : State) : exec (.join) s = execJoin s := rfl
@[simp] theorem exec_retire  (s : State) : exec (.retire) s = execRetire s := rfl
@[simp] theorem exec_eret  (s : State) : exec (.eret) s = execEret s := rfl
@[simp] theorem exec_halt  (s : State) : exec (.halt) s = execHalt s := rfl
@[simp] theorem exec_vmodeL  (s : State) : exec (.vmodeL) s = execVmodeL s := rfl
@[simp] theorem exec_vmodeS  (s : State) : exec (.vmodeS) s = execVmodeS s := rfl
@[simp] theorem exec_sctlRun (i : Nat) (s : State) : exec (.sctlRun i) s = execSctlRun i s := rfl
@[simp] theorem exec_sctlDblClear (i : Nat) (s : State) : exec (.sctlDblClear i) s = execSctlDblClear i s := rfl
@[simp] theorem exec_qportDataStore (i : Nat) (s : State) : exec (.qportDataStore i) s = execQportDataStore i s := rfl
@[simp] theorem exec_qportBindingStore (i : Nat) (s : State) : exec (.qportBindingStore i) s = execQportBindingStore i s := rfl
@[simp] theorem exec_tileWindowStore (i : Nat) (s : State) : exec (.tileWindowStore i) s = execTileWindowStore i s := rfl
@[simp] theorem exec_nbarWindowStore (i : Nat) (s : State) : exec (.nbarWindowStore i) s = execNbarWindowStore i s := rfl
@[simp] theorem exec_dmatail (m : Nat) (v : Word) (s : State) : exec (.dmatail m v) s = execDmatail m v s := rfl
@[simp] theorem exec_dmactlEn (m : Nat) (en : Bool) (s : State) : exec (.dmactlEn m en) s = execDmactlEn m en s := rfl
@[simp] theorem exec_dmactlReset (m : Nat) (s : State) : exec (.dmactlReset m) s = execDmactlReset m s := rfl
@[simp] theorem exec_dmastatErrClear (m : Nat) (v : Word) (s : State) : exec (.dmastatErrClear m v) s = execDmastatErrClear m v s := rfl
@[simp] theorem exec_mbxbell (m : Nat) (v : Word) (s : State) : exec (.mbxbell m v) s = execMbxbell m v s := rfl
@[simp] theorem exec_mbxdoneClear (m : Nat) (v : Word) (s : State) : exec (.mbxdoneClear m v) s = execMbxdoneClear m v s := rfl
@[simp] theorem exec_registerWrite (m : Nat) (r : HostReg) (v : Word) (s : State) : exec (.registerWrite m r v) s = execRegisterWrite m r v s := rfl
@[simp] theorem exec_resultReturn (h : Hart) (n : Nat) (s : State) : exec (.resultReturn h n) s = execResultReturn h n s := rfl
@[simp] theorem exec_storeAccept (h : Hart) (n : Nat) (s : State) : exec (.storeAccept h n) s = execStoreAccept h n s := rfl
@[simp] theorem exec_trapEntry (h : Hart) (s : State) : exec (.trapEntry h) s = execTrapEntry h s := rfl
@[simp] theorem exec_asyncCauseTaken (h : Hart) (s : State) : exec (.asyncCauseTaken h) s = execAsyncCauseTaken h s := rfl
@[simp] theorem exec_timer (h : Hart) (s : State) : exec (.timer h) s = execTimer h s := rfl
@[simp] theorem exec_twaitDeadline (h : Hart) (n : Nat) (s : State) : exec (.twaitDeadline h n) s = execTwaitDeadline h n s := rfl
@[simp] theorem exec_watchdogExpiry (h : Hart) (s : State) : exec (.watchdogExpiry h) s = execWatchdogExpiry h s := rfl
@[simp] theorem exec_putrArrival (i : Nat) (s : State) : exec (.putrArrival i) s = execPutrArrival i s := rfl
@[simp] theorem exec_windowAccessArrival (r : Req) (s : State) : exec (.windowAccessArrival r) s = execWindowAccessArrival r s := rfl
@[simp] theorem exec_fewordRequestArrival (h : Hart) (n : Nat) (s : State) : exec (.fewordRequestArrival h n) s = execFewordRequestArrival h n s := rfl
@[simp] theorem exec_barrierOpAtHome (h : Hart) (n : Nat) (s : State) : exec (.barrierOpAtHome h n) s = execBarrierOpAtHome h n s := rfl
@[simp] theorem exec_redAddAtHome (h : Hart) (n : Nat) (s : State) : exec (.redAddAtHome h n) s = execRedAddAtHome h n s := rfl
@[simp] theorem exec_decideOnceAtHome (h : Hart) (n : Nat) (fromCopy : Bool) (s : State) : exec (.decideOnceAtHome h n fromCopy) s = execDecideOnceAtHome h n fromCopy s := rfl
@[simp] theorem exec_drainRequest (h : Hart) (a : Agent) (s : State) : exec (.drainRequest h a) s = execDrainRequest h a s := rfl
@[simp] theorem exec_readRequest (r : Req) (s : State) : exec (.readRequest r) s = execReadRequest r s := rfl
@[simp] theorem exec_ownershipRequest (r : Req) (s : State) : exec (.ownershipRequest r) s = execOwnershipRequest r s := rfl
@[simp] theorem exec_eviction (c : Nat) (pa : Nat) (s : State) : exec (.eviction c pa) s = execEviction c pa s := rfl
@[simp] theorem exec_ucLoad (h : Hart) (n : Nat) (s : State) : exec (.ucLoad h n) s = execUcLoad h n s := rfl
@[simp] theorem exec_ucStore (r : Req) (s : State) : exec (.ucStore r) s = execUcStore r s := rfl
@[simp] theorem exec_tileRequest (e : TileEvent) (r : Req) (s : State) : exec (.tileRequest e r) s = execTileRequest e r s := rfl
@[simp] theorem exec_hostRead (m : Nat) (pa : Nat) (s : State) : exec (.hostRead m pa) s = execHostRead m pa s := rfl
@[simp] theorem exec_hostOwnershipRequest (m : Nat) (pa : Nat) (s : State) : exec (.hostOwnershipRequest m pa) s = execHostOwnershipRequest m pa s := rfl
@[simp] theorem exec_backInvalidationResponse (m : Nat) (pa : Nat) (data : Option (BitVec 512)) (s : State) : exec (.backInvalidationResponse m pa data) s = execBackInvalidationResponse m pa data s := rfl
@[simp] theorem exec_backInvalidationTimeout (m : Nat) (pa : Nat) (s : State) : exec (.backInvalidationTimeout m pa) s = execBackInvalidationTimeout m pa s := rfl
@[simp] theorem exec_translationWalk (gdie : Nat) (i : Nat) (s : State) : exec (.translationWalk gdie i) s = execTranslationWalk gdie i s := rfl
@[simp] theorem exec_mcmdCommandArrival (h : Hart) (n : Nat) (s : State) : exec (.mcmdCommandArrival h n) s = execMcmdCommandArrival h n s := rfl
@[simp] theorem exec_thawCheck (h : Hart) (s : State) : exec (.thawCheck h) s = execThawCheck h s := rfl
@[simp] theorem exec_longContextGrant (gcluster : Nat) (s : State) : exec (.longContextGrant gcluster) s = execLongContextGrant gcluster s := rfl
@[simp] theorem exec_engineStart (e : Nat) (s : State) : exec (.engineStart e) s = execEngineStart e s := rfl
@[simp] theorem exec_engineTrap (e : Nat) (s : State) : exec (.engineTrap e) s = execEngineTrap e s := rfl
@[simp] theorem exec_burstArrival (e : Nat) (s : State) : exec (.burstArrival e) s = execBurstArrival e s := rfl
@[simp] theorem exec_launchMessage (i : Nat) (s : State) : exec (.launchMessage i) s = execLaunchMessage i s := rfl
@[simp] theorem exec_queuePush (i : Nat) (s : State) : exec (.queuePush i) s = execQueuePush i s := rfl
@[simp] theorem exec_joinDecrement (i : Nat) (s : State) : exec (.joinDecrement i) s = execJoinDecrement i s := rfl
@[simp] theorem exec_placement (m : Nat) (s : State) : exec (.placement m) s = execPlacement m s := rfl
@[simp] theorem exec_migrationMessage (i : Nat) (s : State) : exec (.migrationMessage i) s = execMigrationMessage i s := rfl
@[simp] theorem exec_automaticMigration (h : Hart) (s : State) : exec (.automaticMigration h) s = execAutomaticMigration h s := rfl
@[simp] theorem exec_thermalStep (c : Nat) (temp : Nat) (s : State) : exec (.thermalStep c temp) s = execThermalStep c temp s := rfl
@[simp] theorem exec_powerCapStep (m : Nat) (milliwatts : Nat) (s : State) : exec (.powerCapStep m milliwatts) s = execPowerCapStep m milliwatts s := rfl
@[simp] theorem exec_thermalTrip (m : Nat) (die : Nat) (s : State) : exec (.thermalTrip m die) s = execThermalTrip m die s := rfl
@[simp] theorem exec_timedLaunch (m : Nat) (i : Nat) (s : State) : exec (.timedLaunch m i) s = execTimedLaunch m i s := rfl
@[simp] theorem exec_preEmpt (m : Nat) (i : Nat) (s : State) : exec (.preEmpt m i) s = execPreEmpt m i s := rfl
@[simp] theorem exec_resume (m : Nat) (i : Nat) (s : State) : exec (.resume m i) s = execResume m i s := rfl
@[simp] theorem exec_gangReport (i : Nat) (s : State) : exec (.gangReport i) s = execGangReport i s := rfl
@[simp] theorem exec_reportDeadline (m : Nat) (gang : Nat) (s : State) : exec (.reportDeadline m gang) s = execReportDeadline m gang s := rfl
@[simp] theorem exec_switchToken (i : Nat) (s : State) : exec (.switchToken i) s = execSwitchToken i s := rfl
@[simp] theorem exec_releaseMessage (i : Nat) (s : State) : exec (.releaseMessage i) s = execReleaseMessage i s := rfl
@[simp] theorem exec_shareComplete (i : Nat) (s : State) : exec (.shareComplete i) s = execShareComplete i s := rfl
@[simp] theorem exec_gridComplete (i : Nat) (s : State) : exec (.gridComplete i) s = execGridComplete i s := rfl
@[simp] theorem exec_ptpSync (m : Nat) (offset : Int) (usable : Bool) (s : State) : exec (.ptpSync m offset usable) s = execPtpSync m offset usable s := rfl
@[simp] theorem exec_holdover (m : Nat) (s : State) : exec (.holdover m) s = execHoldover m s := rfl
@[simp] theorem exec_freeRunning (m : Nat) (s : State) : exec (.freeRunning m) s = execFreeRunning m s := rfl
@[simp] theorem exec_timeStep (m : Nat) (by_ : Nat) (s : State) : exec (.timeStep m by_) s = execTimeStep m by_ s := rfl
@[simp] theorem exec_flitReceive (m : Nat) (port : Nat) (flit : Flit) (crc : BitVec 32) (s : State) : exec (.flitReceive m port flit crc) s = execFlitReceive m port flit crc s := rfl
@[simp] theorem exec_linkTraining (m : Nat) (port : Nat) (mine : LinkView) (peer : LinkView) (s : State) : exec (.linkTraining m port mine peer) s = execLinkTraining m port mine peer s := rfl
@[simp] theorem exec_routeUpdate (m : Nat) (dst : Nat) (port : Nat) (s : State) : exec (.routeUpdate m dst port) s = execRouteUpdate m dst port s := rfl
@[simp] theorem exec_remoteTimeout (h : Hart) (n : Nat) (s : State) : exec (.remoteTimeout h n) s = execRemoteTimeout h n s := rfl
@[simp] theorem exec_combinedRequest (i : Nat) (s : State) : exec (.combinedRequest i) s = execCombinedRequest i s := rfl
@[simp] theorem exec_weltQuery (i : Nat) (s : State) : exec (.weltQuery i) s = execWeltQuery i s := rfl
@[simp] theorem exec_dmaDescriptor (m : Nat) (s : State) : exec (.dmaDescriptor m) s = execDmaDescriptor m s := rfl
@[simp] theorem exec_hostLinkDown (m : Nat) (s : State) : exec (.hostLinkDown m) s = execHostLinkDown m s := rfl
@[simp] theorem exec_channelSparing (m : Nat) (stack : Nat) (channel : Nat) (s : State) : exec (.channelSparing m stack channel) s = execChannelSparing m stack channel s := rfl
@[simp] theorem exec_uncorrectableError (site : ErrorSite) (s : State) : exec (.uncorrectableError site) s = execUncorrectableError site s := rfl
@[simp] theorem exec_warmReset (m : Nat) (die : Nat) (s : State) : exec (.warmReset m die) s = execWarmReset m die s := rfl
@[simp] theorem exec_mchk (m : Nat) (cause : Word) (s : State) : exec (.mchk m cause) s = execMchk m cause s := rfl
@[simp] theorem exec_attestationRequest (m : Nat) (nonce : Word) (s : State) : exec (.attestationRequest m nonce) s = execAttestationRequest m nonce s := rfl
@[simp] theorem exec_bringUp (m : Nat) (s : State) : exec (.bringUp m) s = execBringUp m s := rfl
@[simp] theorem exec_matrixInstructionCompletion (c : Nat) (s : State) : exec (.matrixInstructionCompletion c) s = execMatrixInstructionCompletion c s := rfl
@[simp] theorem exec_remoteStoreAcknowledgement (i : Nat) (ok : Bool) (s : State) : exec (.remoteStoreAcknowledgement i ok) s = execRemoteStoreAcknowledgement i ok s := rfl
@[simp] theorem exec_queueGoSignal (h : Hart) (port : Fin 4) (s : State) : exec (.queueGoSignal h port) s = execQueueGoSignal h port s := rfl
@[simp] theorem exec_hostLinkRetraining (m : Nat) (s : State) : exec (.hostLinkRetraining m) s = execHostLinkRetraining m s := rfl
@[simp] theorem exec_powerCapSetting (m : Nat) (milliwatts : Nat) (s : State) : exec (.powerCapSetting m milliwatts) s = execPowerCapSetting m milliwatts s := rfl
@[simp] theorem exec_weltCombiningWindow (gdie : Nat) (ops : List (Hart × Nat)) (s : State) : exec (.weltCombiningWindow gdie ops) s = execWeltCombiningWindow gdie ops s := rfl

end Sys2Proof.Machine
end

