-- ==== Sys2Proof/Laws/Encode.lean ====
section
/-!
SUPPORT. Encoding: what the decoder reads back from every field, and from the word of a head.
-/

namespace Sys2Proof

/-! Fields. -/

@[simp] theorem Src.dec_enc (x : Src) : Src.dec x.enc = some x := by
  rcases x with r | r | r <;> revert r <;> decide
@[simp] theorem Dst.dec_enc (x : Dst) : Dst.dec x.enc = some x := by
  rcases x with r | r <;> revert r <;> decide
@[simp] theorem FeReg.dec_enc (x : FeReg) : FeReg.dec x.enc = some x := by
  rcases x with r | r <;> revert r <;> decide
@[simp] theorem FeSrc.dec_enc (x : FeSrc) : FeSrc.dec x.enc = some x := by
  rcases x with r | r | r <;> revert r <;> decide
@[simp] theorem gDec_gEnc (r : Fin 16) : gDec (gEnc r) = some r := by revert r; decide
@[simp] theorem vecDec_vecEnc (r : Fin 16) : vecDec (vecEnc r) = some r := by revert r; decide
@[simp] theorem tileDec_tileEnc (r : Fin 8) : tileDec (tileEnc r) = some r := by revert r; decide
@[simp] theorem setDec_setEnc (r : Fin 4) : setDec (setEnc r) = some r := by revert r; decide
@[simp] theorem portDec_portEnc (r : Fin 4) : portDec (portEnc r) = some r := by revert r; decide
@[simp] theorem pairDec_pairEnc (r : Fin 8) : pairDec (pairEnc r) = some r := by revert r; decide
@[simp] theorem MemMod.dec_enc (hi : Bool) (m : MemMod) : MemMod.dec (m.enc hi) = some m := by
  rcases m with ⟨o, s⟩
  cases hi <;> cases o <;> cases s <;> decide
@[simp] theorem modHi_enc (hi : Bool) (m : MemMod) : modHi (m.enc hi) = hi := by
  rcases m with ⟨o, s⟩
  cases hi <;> cases o <;> cases s <;> decide
@[simp] theorem FMod.dec_enc (f : FMod) : FMod.dec f.enc = some f := by
  rcases f with ⟨f, r⟩
  cases f <;> cases r <;> decide
@[simp] theorem fmtDec_fmtEnc (f : Fmt) : fmtDec (fmtEnc f) = some f := by cases f <;> decide
@[simp] theorem Fmt.dec_enc (f : Fmt) : Fmt.dec f.enc = f := by cases f <;> decide

/-! Immediates and coordinates. -/

/-- A number from its two halves. -/
theorem append_halves (x : BitVec 48) : x.extractLsb' 16 32 ++ x.extractLsb' 0 16 = x := by
  apply BitVec.eq_of_getLsbD_eq
  intro i hi
  simp only [BitVec.getLsbD_append, BitVec.getLsbD_extractLsb']
  split
  · simp [*]
  · rename_i h
    have h1 : i - 16 < 32 := by omega
    have h2 : 16 + (i - 16) = i := by omega
    simp [h1, h2]

@[simp] theorem Imm.dec_enc (i : Imm) : Imm.dec i.ext i.i16 = some i := by
  cases i <;> simp [Imm.dec, Imm.ext, Imm.i16, append_halves]
@[simp] theorem Disp.dec_enc (i : Disp) : Disp.dec i.ext i.i16 = some i := by
  cases i <;> simp [Disp.dec, Disp.ext, Disp.i16, append_halves]


/-- A field that lies in the upper part of a concatenation. -/
theorem field_hi {n m : Nat} (x : BitVec n) (y : BitVec m) (k l : Nat) (h : m ≤ k) :
    (x ++ y).extractLsb' k l = x.extractLsb' (k - m) l := by
  apply BitVec.eq_of_getLsbD_eq
  intro i hi
  simp only [BitVec.getLsbD_append, BitVec.getLsbD_extractLsb', hi]
  have h1 : ¬ k + i < m := by omega
  have h2 : k + i - m = k - m + i := by omega
  simp [h1, h2]
/-- A field that lies in the lower part. -/
theorem field_lo {n m : Nat} (x : BitVec n) (y : BitVec m) (k l : Nat) (h : k + l ≤ m) :
    (x ++ y).extractLsb' k l = y.extractLsb' k l := by
  apply BitVec.eq_of_getLsbD_eq
  intro i hi
  have h1 : k + i < m := by omega
  simp [BitVec.getLsbD_append, BitVec.getLsbD_extractLsb', h1]
/-- A whole number is its own field. -/
theorem field_all {n : Nat} (x : BitVec n) : x.extractLsb' 0 n = x := by
  apply BitVec.eq_of_getLsbD_eq
  intro i hi
  simp [hi]

/-- A bit is a field of one bit. -/
theorem getLsbD_field {n : Nat} (x : BitVec n) (k : Nat) : x.getLsbD k = (x.extractLsb' k 1).getLsbD 0 := by
  simp

@[simp] theorem Coord.dec_enc (c : Coord) : Coord.dec c.enc = some c := by
  obtain ⟨core, clus, quad, die, abs, modid⟩ := c
  have hb (x : Bool) : (BitVec.ofBool x).getLsbD 0 = x := by cases x <;> rfl
  have hf (m : BitVec 14) (s a : BitVec 1) :
      (m ++ s ++ a ++ (0 : BitVec 6) ++ die ++ quad ++ clus ++ core).extractLsb' 0 3 = core ∧
      (m ++ s ++ a ++ (0 : BitVec 6) ++ die ++ quad ++ clus ++ core).extractLsb' 3 3 = clus ∧
      (m ++ s ++ a ++ (0 : BitVec 6) ++ die ++ quad ++ clus ++ core).extractLsb' 6 2 = quad ∧
      (m ++ s ++ a ++ (0 : BitVec 6) ++ die ++ quad ++ clus ++ core).extractLsb' 8 2 = die ∧
      (m ++ s ++ a ++ (0 : BitVec 6) ++ die ++ quad ++ clus ++ core).extractLsb' 10 6 = 0 ∧
      (m ++ s ++ a ++ (0 : BitVec 6) ++ die ++ quad ++ clus ++ core).extractLsb' 16 1 = a ∧
      (m ++ s ++ a ++ (0 : BitVec 6) ++ die ++ quad ++ clus ++ core).extractLsb' 17 1 = s ∧
      (m ++ s ++ a ++ (0 : BitVec 6) ++ die ++ quad ++ clus ++ core).extractLsb' 18 14 = m := by
    simp (disch := omega) only [field_hi, field_lo, field_all, and_self, Nat.sub_self, Nat.reduceSub]
  have key (m : BitVec 14) (s : Bool) (w : BitVec 32)
      (hw : w = m ++ BitVec.ofBool s ++ BitVec.ofBool abs ++ (0 : BitVec 6) ++ die ++ quad ++ clus ++ core) :
      w.extractLsb' 0 3 = core ∧ w.extractLsb' 3 3 = clus ∧ w.extractLsb' 6 2 = quad ∧ w.extractLsb' 8 2 = die ∧
      w.extractLsb' 10 6 = 0 ∧ w.getLsbD 16 = abs ∧ w.getLsbD 17 = s ∧ w.extractLsb' 18 14 = m := by
    subst hw
    obtain ⟨h0, h1, h2, h3, h4, h5, h6, h7⟩ := hf m (BitVec.ofBool s) (BitVec.ofBool abs)
    have h5' := congrArg (fun x : BitVec 1 => x.getLsbD 0) h5
    have h6' := congrArg (fun x : BitVec 1 => x.getLsbD 0) h6
    rw [← getLsbD_field, hb] at h5' h6'
    exact ⟨h0, h1, h2, h3, h4, h5', h6', h7⟩
  cases modid with
  | none =>
    obtain ⟨h0, h1, h2, h3, h4, h5, h6, h7⟩ := key 0 false (Coord.enc ⟨core, clus, quad, die, abs, none⟩) rfl
    simp only [Coord.dec, h0, h1, h2, h3, h4, h5, h6, h7, ne_eq, not_true_eq_false, if_false, Bool.false_eq_true]
  | some m =>
    obtain ⟨h0, h1, h2, h3, h4, h5, h6, h7⟩ := key m true (Coord.enc ⟨core, clus, quad, die, abs, some m⟩) rfl
    simp only [Coord.dec, h0, h1, h2, h3, h4, h5, h6, h7, ne_eq, not_true_eq_false, if_false, if_true]

@[simp] theorem coordDec_coordExt (c : Option Coord) : coordDec (coordExt c) = some c := by
  cases c <;> simp [coordDec, coordExt]

@[simp] theorem coordDec_x32 (c : Coord) : coordDec (.x32 c.enc) = some (some c) := coordDec_coordExt (some c)
@[simp] theorem Rnd.dec_enc (r : Rnd) : Rnd.dec r.enc = some r := by cases r <;> decide
@[simp] theorem x64Dec_ext (x : Option (BitVec 64)) : x64Dec (x64Ext x) = some x := by cases x <;> rfl
@[simp] theorem spawnCoordDec_ext (c : Option Coord) : spawnCoordDec (spawnCoordExt c) = some c := by
  cases c with
  | none => rfl
  | some c =>
    have h1 : ((0 : BitVec 32) ++ c.enc).extractLsb' 32 32 = 0 := by
      simp (disch := omega) only [field_hi, field_all, Nat.sub_self]
    have h2 : ((0 : BitVec 32) ++ c.enc).extractLsb' 0 32 = c.enc := by
      simp (disch := omega) only [field_lo, field_all]
    simp only [spawnCoordDec, spawnCoordExt]
    rw [if_pos h1, h2, Coord.dec_enc]
    rfl
/-- The operand of a word instruction, from a head that holds its parts. -/
theorem WOp.dec_enc (w : WOp) (h : Head) (ha : h.a = w.base.enc) (hx : h.ext = w.ext) (hi : h.i16 = w.i16) :
    WOp.dec h = some w := by
  cases w <;> simp_all [WOp.dec, WOp.base, WOp.ext, WOp.i16]
@[simp] theorem SysReg.dec_enc (r : SysReg) : SysReg.dec r.enc = some r := by
  cases r <;> first | rfl | (rename_i n; revert n; decide)
/-- The row of an MTS that names a plain register. -/
@[simp] theorem mtsInstr_toSys (a : Src) (r : PlainReg) : mtsInstr a r.toSys = .mts r a := by cases r <;> rfl
/-- A number that a 16-bit immediate holds. -/
theorem i16_toNat (n : Nat) (h : n < 65536) : (BitVec.ofNat 16 n).toNat = n := by simp; omega

set_option linter.unusedSimpArgs false

/-! Fields within an immediate, FUNC or MOD: each part of a concatenation as it stands in a head. -/

@[simp] theorem bits_field_high (x : BitVec 7) (y : BitVec 6) : @BitVec.extractLsb' 16 13 3 ((0 : BitVec 3) ++ x ++ y) = 0 := by
  have h : ((0 : BitVec 3) ++ x ++ y).extractLsb' 13 3 = 0 := by simp (disch := omega) only [field_hi, field_lo, field_all, Nat.sub_self, Nat.reduceSub]
  exact h
@[simp] theorem bits_field_mid (x : BitVec 7) (y : BitVec 6) : @BitVec.extractLsb' 16 6 7 ((0 : BitVec 3) ++ x ++ y) = x := by
  have h : ((0 : BitVec 3) ++ x ++ y).extractLsb' 6 7 = x := by simp (disch := omega) only [field_hi, field_lo, field_all, Nat.sub_self, Nat.reduceSub]
  exact h
@[simp] theorem bits_field_low (x : BitVec 7) (y : BitVec 6) : @BitVec.extractLsb' 16 0 6 ((0 : BitVec 3) ++ x ++ y) = y := by
  have h : ((0 : BitVec 3) ++ x ++ y).extractLsb' 0 6 = y := by simp (disch := omega) only [field_hi, field_lo, field_all, Nat.sub_self, Nat.reduceSub]
  exact h
@[simp] theorem ldbit_field_high (x : BitVec 1) (y : BitVec 6) : @BitVec.extractLsb' 16 7 9 ((0 : BitVec 9) ++ x ++ y) = 0 := by
  have h : ((0 : BitVec 9) ++ x ++ y).extractLsb' 7 9 = 0 := by simp (disch := omega) only [field_hi, field_lo, field_all, Nat.sub_self, Nat.reduceSub]
  exact h
@[simp] theorem ldbit_field_mid (x : BitVec 1) (y : BitVec 6) : @BitVec.extractLsb' 16 6 1 ((0 : BitVec 9) ++ x ++ y) = x := by
  have h : ((0 : BitVec 9) ++ x ++ y).extractLsb' 6 1 = x := by simp (disch := omega) only [field_hi, field_lo, field_all, Nat.sub_self, Nat.reduceSub]
  exact h
@[simp] theorem ldbit_field_low (x : BitVec 1) (y : BitVec 6) : @BitVec.extractLsb' 16 0 6 ((0 : BitVec 9) ++ x ++ y) = y := by
  have h : ((0 : BitVec 9) ++ x ++ y).extractLsb' 0 6 = y := by simp (disch := omega) only [field_hi, field_lo, field_all, Nat.sub_self, Nat.reduceSub]
  exact h
@[simp] theorem stbit_field_high (x : BitVec 6) : @BitVec.extractLsb' 16 6 10 ((0 : BitVec 10) ++ x) = 0 := by
  have h : ((0 : BitVec 10) ++ x).extractLsb' 6 10 = 0 := by simp (disch := omega) only [field_hi, field_lo, field_all, Nat.sub_self, Nat.reduceSub]
  exact h
@[simp] theorem stbit_field_low (x : BitVec 6) : @BitVec.extractLsb' 16 0 6 ((0 : BitVec 10) ++ x) = x := by
  have h : ((0 : BitVec 10) ++ x).extractLsb' 0 6 = x := by simp (disch := omega) only [field_hi, field_lo, field_all, Nat.sub_self, Nat.reduceSub]
  exact h
@[simp] theorem byte_field_high (x : BitVec 8) : @BitVec.extractLsb' 16 8 8 ((0 : BitVec 8) ++ x) = 0 := by
  have h : ((0 : BitVec 8) ++ x).extractLsb' 8 8 = 0 := by simp (disch := omega) only [field_hi, field_lo, field_all, Nat.sub_self, Nat.reduceSub]
  exact h
@[simp] theorem byte_field_low (x : BitVec 8) : @BitVec.extractLsb' 16 0 8 ((0 : BitVec 8) ++ x) = x := by
  have h : ((0 : BitVec 8) ++ x).extractLsb' 0 8 = x := by simp (disch := omega) only [field_hi, field_lo, field_all, Nat.sub_self, Nat.reduceSub]
  exact h
@[simp] theorem src_field_high (x : BitVec 4) : @BitVec.extractLsb' 16 4 12 ((0 : BitVec 12) ++ x) = 0 := by
  have h : ((0 : BitVec 12) ++ x).extractLsb' 4 12 = 0 := by simp (disch := omega) only [field_hi, field_lo, field_all, Nat.sub_self, Nat.reduceSub]
  exact h
@[simp] theorem src_field_low (x : BitVec 4) : @BitVec.extractLsb' 16 0 4 ((0 : BitVec 12) ++ x) = x := by
  have h : ((0 : BitVec 12) ++ x).extractLsb' 0 4 = x := by simp (disch := omega) only [field_hi, field_lo, field_all, Nat.sub_self, Nat.reduceSub]
  exact h
@[simp] theorem scale_field_high (x : BitVec 1) (y : BitVec 2) : @BitVec.extractLsb' 16 3 13 ((0 : BitVec 13) ++ x ++ y) = 0 := by
  have h : ((0 : BitVec 13) ++ x ++ y).extractLsb' 3 13 = 0 := by simp (disch := omega) only [field_hi, field_lo, field_all, Nat.sub_self, Nat.reduceSub]
  exact h
@[simp] theorem scale_field_mid (x : BitVec 1) (y : BitVec 2) : @BitVec.extractLsb' 16 2 1 ((0 : BitVec 13) ++ x ++ y) = x := by
  have h : ((0 : BitVec 13) ++ x ++ y).extractLsb' 2 1 = x := by simp (disch := omega) only [field_hi, field_lo, field_all, Nat.sub_self, Nat.reduceSub]
  exact h
@[simp] theorem scale_field_low (x : BitVec 1) (y : BitVec 2) : @BitVec.extractLsb' 16 0 2 ((0 : BitVec 13) ++ x ++ y) = y := by
  have h : ((0 : BitVec 13) ++ x ++ y).extractLsb' 0 2 = y := by simp (disch := omega) only [field_hi, field_lo, field_all, Nat.sub_self, Nat.reduceSub]
  exact h
@[simp] theorem bcast_field_high (x : BitVec 2) (y : BitVec 2) : @BitVec.extractLsb' 16 4 12 ((0 : BitVec 12) ++ x ++ y) = 0 := by
  have h : ((0 : BitVec 12) ++ x ++ y).extractLsb' 4 12 = 0 := by simp (disch := omega) only [field_hi, field_lo, field_all, Nat.sub_self, Nat.reduceSub]
  exact h
@[simp] theorem bcast_field_mid (x : BitVec 2) (y : BitVec 2) : @BitVec.extractLsb' 16 2 2 ((0 : BitVec 12) ++ x ++ y) = x := by
  have h : ((0 : BitVec 12) ++ x ++ y).extractLsb' 2 2 = x := by simp (disch := omega) only [field_hi, field_lo, field_all, Nat.sub_self, Nat.reduceSub]
  exact h
@[simp] theorem bcast_field_low (x : BitVec 2) (y : BitVec 2) : @BitVec.extractLsb' 16 0 2 ((0 : BitVec 12) ++ x ++ y) = y := by
  have h : ((0 : BitVec 12) ++ x ++ y).extractLsb' 0 2 = y := by simp (disch := omega) only [field_hi, field_lo, field_all, Nat.sub_self, Nat.reduceSub]
  exact h
@[simp] theorem sys_reg_field_high (x : BitVec 12) : @BitVec.extractLsb' 16 12 4 ((0 : BitVec 4) ++ x) = 0 := by
  have h : ((0 : BitVec 4) ++ x).extractLsb' 12 4 = 0 := by simp (disch := omega) only [field_hi, field_lo, field_all, Nat.sub_self, Nat.reduceSub]
  exact h
@[simp] theorem sys_reg_field_low (x : BitVec 12) : @BitVec.extractLsb' 16 0 12 ((0 : BitVec 4) ++ x) = x := by
  have h : ((0 : BitVec 4) ++ x).extractLsb' 0 12 = x := by simp (disch := omega) only [field_hi, field_lo, field_all, Nat.sub_self, Nat.reduceSub]
  exact h
@[simp] theorem window_field_high (z : BitVec 3) (x : BitVec 3) : @BitVec.extractLsb' 6 3 3 (z ++ x) = z := by
  have h : (z ++ x).extractLsb' 3 3 = z := by simp (disch := omega) only [field_hi, field_lo, field_all, Nat.sub_self, Nat.reduceSub]
  exact h
@[simp] theorem window_field_low (z : BitVec 3) (x : BitVec 3) : @BitVec.extractLsb' 6 0 3 (z ++ x) = x := by
  have h : (z ++ x).extractLsb' 0 3 = x := by simp (disch := omega) only [field_hi, field_lo, field_all, Nat.sub_self, Nat.reduceSub]
  exact h
@[simp] theorem rnd_field_high (x : BitVec 3) : @BitVec.extractLsb' 7 3 4 ((0 : BitVec 4) ++ x) = 0 := by
  have h : ((0 : BitVec 4) ++ x).extractLsb' 3 4 = 0 := by simp (disch := omega) only [field_hi, field_lo, field_all, Nat.sub_self, Nat.reduceSub]
  exact h
@[simp] theorem rnd_field_low (x : BitVec 3) : @BitVec.extractLsb' 7 0 3 ((0 : BitVec 4) ++ x) = x := by
  have h : ((0 : BitVec 4) ++ x).extractLsb' 0 3 = x := by simp (disch := omega) only [field_hi, field_lo, field_all, Nat.sub_self, Nat.reduceSub]
  exact h

/-! Words. -/

/-- The fields of a word (R16). -/
theorem word_fields (e : BitVec 64) (i : BitVec 16) (md : BitVec 7) (fn c b a d : BitVec 6) (op : BitVec 8) (sw : BitVec 1) (l : BitVec 2) :
    (e ++ i ++ md ++ fn ++ c ++ b ++ a ++ d ++ op ++ sw ++ l).extractLsb' 0 2 = l ∧
    (e ++ i ++ md ++ fn ++ c ++ b ++ a ++ d ++ op ++ sw ++ l).extractLsb' 2 1 = sw ∧
    (e ++ i ++ md ++ fn ++ c ++ b ++ a ++ d ++ op ++ sw ++ l).extractLsb' 3 8 = op ∧
    (e ++ i ++ md ++ fn ++ c ++ b ++ a ++ d ++ op ++ sw ++ l).extractLsb' 11 6 = d ∧
    (e ++ i ++ md ++ fn ++ c ++ b ++ a ++ d ++ op ++ sw ++ l).extractLsb' 17 6 = a ∧
    (e ++ i ++ md ++ fn ++ c ++ b ++ a ++ d ++ op ++ sw ++ l).extractLsb' 23 6 = b ∧
    (e ++ i ++ md ++ fn ++ c ++ b ++ a ++ d ++ op ++ sw ++ l).extractLsb' 29 6 = c ∧
    (e ++ i ++ md ++ fn ++ c ++ b ++ a ++ d ++ op ++ sw ++ l).extractLsb' 35 6 = fn ∧
    (e ++ i ++ md ++ fn ++ c ++ b ++ a ++ d ++ op ++ sw ++ l).extractLsb' 41 7 = md ∧
    (e ++ i ++ md ++ fn ++ c ++ b ++ a ++ d ++ op ++ sw ++ l).extractLsb' 48 16 = i ∧
    (e ++ i ++ md ++ fn ++ c ++ b ++ a ++ d ++ op ++ sw ++ l).extractLsb' 64 64 = e := by
  simp (disch := omega) only [field_hi, field_lo, field_all, and_self, Nat.sub_self, Nat.reduceSub]

/-- The head of its own word. -/
theorem headOf_toBits (h : Head) : headOf h.toBits h.ext = h := by
  obtain ⟨e, sw, op, d, a, b, c, fn, md, i⟩ := h
  obtain ⟨-, h1, h2, h3, h4, h5, h6, h7, h8, h9, -⟩ := word_fields e.bits i md fn c b a d op (BitVec.ofBool sw) e.len
  have h1' := congrArg (fun x : BitVec 1 => x.getLsbD 0) h1
  rw [← getLsbD_field] at h1'
  have hs : (BitVec.ofBool sw).getLsbD 0 = sw := by cases sw <;> rfl
  rw [hs] at h1'
  simp only [headOf, Head.toBits, Head.mk.injEq]
  exact ⟨trivial, h1', h2, h3, h4, h5, h6, h7, h8, h9⟩

/-- The extension of a word that agrees with a head's word on the bytes that the head has. -/
theorem extOf_agree (h : Head) (w : BitVec 128) (hw : ∀ k, k < 8 * h.ext.size → w.getLsbD k = h.toBits.getLsbD k) :
    extOf w = some h.ext := by
  obtain ⟨e, sw, op, d, a, b, c, fn, md, i⟩ := h
  obtain ⟨h0, -, -, -, -, -, -, -, -, -, h10⟩ := word_fields e.bits i md fn c b a d op (BitVec.ofBool sw) e.len
  have f0 : w.extractLsb' 0 2 = e.len := by
    rw [← h0]
    apply BitVec.eq_of_getLsbD_eq
    intro k hk
    have hk' : 0 + k < 8 * e.size := by cases e <;> simp only [Ext.size] <;> omega
    rw [BitVec.getLsbD_extractLsb', BitVec.getLsbD_extractLsb', hw _ hk']
    rfl
  unfold extOf
  rw [f0]
  cases e with
  | none => rfl
  | x32 x =>
    have f1 : w.extractLsb' 64 32 = x := by
      apply BitVec.eq_of_getLsbD_eq
      intro k hk
      have hk' : 64 + k < 8 * (Ext.x32 x).size := by simp only [Ext.size]; omega
      have h11 := congrArg (fun y : BitVec 64 => y.getLsbD k) h10
      simp only [BitVec.getLsbD_extractLsb', Ext.bits] at h11
      have hk64 : k < 64 := by omega
      rw [BitVec.getLsbD_extractLsb', hw _ hk']
      simp only [hk, hk64, decide_true, Bool.true_and] at h11 ⊢
      refine Eq.trans h11 ?_
      simp [hk64]
    exact congrArg (fun y => some (Ext.x32 y)) f1
  | x64 x =>
    have f1 : w.extractLsb' 64 64 = x := by
      rw [← show (Ext.x64 x).bits = x from rfl, ← h10]
      apply BitVec.eq_of_getLsbD_eq
      intro k hk
      have hk' : 64 + k < 8 * (Ext.x64 x).size := by simp only [Ext.size]; omega
      rw [BitVec.getLsbD_extractLsb', BitVec.getLsbD_extractLsb', hw _ hk']
      rfl
    exact congrArg (fun y => some (Ext.x64 y)) f1

/-- The fields of such a word. -/
theorem headOf_agree (h : Head) (w : BitVec 128) (hw : ∀ k, k < 8 * h.ext.size → w.getLsbD k = h.toBits.getLsbD k) :
    headOf w h.ext = h := by
  have hsize : 8 ≤ h.ext.size := by cases h.ext <;> simp [Ext.size]
  have hx (k l : Nat) (hk : k + l ≤ 64) : w.extractLsb' k l = h.toBits.extractLsb' k l := by
    apply BitVec.eq_of_getLsbD_eq
    intro j hj
    rw [BitVec.getLsbD_extractLsb', BitVec.getLsbD_extractLsb', hw _ (by omega)]
  have h2 := headOf_toBits h
  unfold headOf at h2 ⊢
  rw [hw 2 (by omega), hx 3 8, hx 11 6, hx 17 6, hx 23 6, hx 29 6, hx 35 6, hx 41 7, hx 48 16]
  · exact h2
  all_goals omega

/-! Bytes. -/

theorem leNat_append (a b : List Byte) : leNat (a ++ b) = leNat a + 256 ^ a.length * leNat b := by
  induction a with
  | nil => simp [leNat]
  | cons x a ih => simp only [List.cons_append, leNat, ih, List.length_cons, Nat.pow_succ]; ring

@[simp] theorem leBytes_length (n x : Nat) : (leBytes n x).length = n := by
  induction n generalizing x with
  | zero => rfl
  | succ k ih => simp [leBytes, ih]

theorem leNat_leBytes (n x : Nat) : leNat (leBytes n x) = x % 256 ^ n := by
  induction n generalizing x with
  | zero => simp [leBytes, leNat, Nat.mod_one]
  | succ k ih =>
    simp only [leBytes, leNat, ih, BitVec.toNat_ofNat]
    have h : 256 ^ (k + 1) = 256 * 256 ^ k := by rw [Nat.pow_succ, Nat.mul_comm]
    rw [h, Nat.mod_mul]

/-- A word's own bytes, whatever follows them, decode to what its head is (R16, R18). -/
theorem decode_head (h : Head) (rest : List Byte) :
    decode (leBytes h.ext.size h.toBits.toNat ++ rest) = match decodeHead h with
      | .ok i => .ok ⟨i, h.sw, h.ext.size, h.toBits.extractLsb' 0 32⟩
      | .error x => .error x := by
  have hn : h.ext.size ≤ 16 := by cases h.ext <;> simp [Ext.size]
  have h8 : 8 ≤ h.ext.size := by cases h.ext <;> simp [Ext.size]
  have hw : ∀ k, k < 8 * h.ext.size →
      (BitVec.ofNat 128 (leNat ((leBytes h.ext.size h.toBits.toNat ++ rest).take 16))).getLsbD k = h.toBits.getLsbD k := by
    intro k hk
    have hk128 : k < 128 := by omega
    rw [List.take_append, leBytes_length, List.take_of_length_le (by rw [leBytes_length]; exact hn), leNat_append, leNat_leBytes,
      leBytes_length, BitVec.getLsbD_ofNat]
    have hp : (256 : Nat) ^ h.ext.size = 2 ^ (8 * h.ext.size) := by rw [Nat.pow_mul]
    rw [hp, Nat.add_comm, Nat.testBit_two_pow_mul_add _ (Nat.mod_lt _ (Nat.two_pow_pos _))]
    simp [hk, hk128, BitVec.getLsbD]
  have hlen : ¬ (leBytes h.ext.size h.toBits.toNat ++ rest).length < h.ext.size := by
    rw [List.length_append, leBytes_length]; omega
  have hsw : h.toBits.getLsbD 2 = h.sw := congrArg Head.sw (headOf_toBits h)
  have hfirst : (BitVec.ofNat 128 (leNat ((leBytes h.ext.size h.toBits.toNat ++ rest).take 16))).extractLsb' 0 32 =
      h.toBits.extractLsb' 0 32 := by
    apply BitVec.eq_of_getLsbD_eq
    intro j hj
    rw [BitVec.getLsbD_extractLsb', BitVec.getLsbD_extractLsb', hw _ (by omega)]
  unfold decode decodeWord
  rw [extOf_agree h _ hw]
  dsimp only
  rw [if_neg hlen, headOf_agree h _ hw, hw 2 (by omega), hsw, hfirst]
  all_goals (cases decodeHead h <;> rfl)

/-- An instruction that its own head decodes to is read back from its bytes, whatever follows them. -/
theorem decode_encodeBytes (i : Instr) (sw : Bool) (h : Head) (rest : List Byte) (hi : i.head sw = some h) (hsw : h.sw = sw)
    (hd : decodeHead h = .ok i) :
    decode (encodeBytes i sw ++ rest) = .ok ⟨i, sw, h.ext.size, h.toBits.extractLsb' 0 32⟩ := by
  have : encodeBytes i sw = leBytes h.ext.size h.toBits.toNat := by simp [encodeBytes, encode, hi]
  rw [this, decode_head, hd, hsw]

end Sys2Proof
end

