-- ==== Sys2Proof/Laws/State.lean ====
section
/-!
SUPPORT. What each named update of the state leaves as it was: one lemma for each field and update.
-/

namespace Sys2Proof.Machine


/-! `setHart`. -/

@[simp] theorem setHart_mem (s : State) (h : Hart) (x : HartState) : (setHart s h x).mem = s.mem := rfl
@[simp] theorem setHart_extents (s : State) (h : Hart) (x : HartState) : (setHart s h x).extents = s.extents := rfl
@[simp] theorem setHart_poison (s : State) (h : Hart) (x : HartState) : (setHart s h x).poison = s.poison := rfl
@[simp] theorem setHart_cores (s : State) (h : Hart) (x : HartState) : (setHart s h x).cores = s.cores := rfl
@[simp] theorem setHart_dies (s : State) (h : Hart) (x : HartState) : (setHart s h x).dies = s.dies := rfl
@[simp] theorem setHart_modules (s : State) (h : Hart) (x : HartState) : (setHart s h x).modules = s.modules := rfl
@[simp] theorem setHart_stores (s : State) (h : Hart) (x : HartState) : (setHart s h x).stores = s.stores := rfl
@[simp] theorem setHart_nextStore (s : State) (h : Hart) (x : HartState) : (setHart s h x).nextStore = s.nextStore := rfl
@[simp] theorem setHart_prefetches (s : State) (h : Hart) (x : HartState) : (setHart s h x).prefetches = s.prefetches := rfl
@[simp] theorem setHart_pushes (s : State) (h : Hart) (x : HartState) : (setHart s h x).pushes = s.pushes := rfl
@[simp] theorem setHart_grains (s : State) (h : Hart) (x : HartState) : (setHart s h x).grains = s.grains := rfl
@[simp] theorem setHart_frames (s : State) (h : Hart) (x : HartState) : (setHart s h x).frames = s.frames := rfl
@[simp] theorem setHart_stubs (s : State) (h : Hart) (x : HartState) : (setHart s h x).stubs = s.stubs := rfl
@[simp] theorem setHart_splits (s : State) (h : Hart) (x : HartState) : (setHart s h x).splits = s.splits := rfl
@[simp] theorem setHart_tiles (s : State) (h : Hart) (x : HartState) : (setHart s h x).tiles = s.tiles := rfl
@[simp] theorem setHart_snoops (s : State) (h : Hart) (x : HartState) : (setHart s h x).snoops = s.snoops := rfl
@[simp] theorem setHart_arrivals (s : State) (h : Hart) (x : HartState) : (setHart s h x).arrivals = s.arrivals := rfl
@[simp] theorem setHart_copies (s : State) (h : Hart) (x : HartState) : (setHart s h x).copies = s.copies := rfl
@[simp] theorem setHart_cells (s : State) (h : Hart) (x : HartState) : (setHart s h x).cells = s.cells := rfl
@[simp] theorem setHart_combined (s : State) (h : Hart) (x : HartState) : (setHart s h x).combined = s.combined := rfl
@[simp] theorem setHart_kicks (s : State) (h : Hart) (x : HartState) : (setHart s h x).kicks = s.kicks := rfl
@[simp] theorem setHart_engines (s : State) (h : Hart) (x : HartState) : (setHart s h x).engines = s.engines := rfl
@[simp] theorem setHart_groups (s : State) (h : Hart) (x : HartState) : (setHart s h x).groups = s.groups := rfl
@[simp] theorem setHart_msgs (s : State) (h : Hart) (x : HartState) : (setHart s h x).msgs = s.msgs := rfl
@[simp] theorem setHart_ships (s : State) (h : Hart) (x : HartState) : (setHart s h x).ships = s.ships := rfl
@[simp] theorem setHart_longWait (s : State) (h : Hart) (x : HartState) : (setHart s h x).longWait = s.longWait := rfl
@[simp] theorem setHart_images (s : State) (h : Hart) (x : HartState) : (setHart s h x).images = s.images := rfl
@[simp] theorem setHart_leftBehind (s : State) (h : Hart) (x : HartState) : (setHart s h x).leftBehind = s.leftBehind := rfl
@[simp] theorem setHart_solo (s : State) (h : Hart) (x : HartState) : (setHart s h x).solo = s.solo := rfl
@[simp] theorem setHart_lateOver (s : State) (h : Hart) (x : HartState) : (setHart s h x).lateOver = s.lateOver := rfl
@[simp] theorem setHart_nextId (s : State) (h : Hart) (x : HartState) : (setHart s h x).nextId = s.nextId := rfl
@[simp] theorem setHart_nextUid (s : State) (h : Hart) (x : HartState) : (setHart s h x).nextUid = s.nextUid := rfl
@[simp] theorem setHart_now (s : State) (h : Hart) (x : HartState) : (setHart s h x).now = s.now := rfl
@[simp] theorem setHart_timeSeen (s : State) (h : Hart) (x : HartState) : (setHart s h x).timeSeen = s.timeSeen := rfl
@[simp] theorem setHart_cur (s : State) (h : Hart) (x : HartState) : (setHart s h x).cur = s.cur := rfl
@[simp] theorem setHart_word (s : State) (h : Hart) (x : HartState) : (setHart s h x).word = s.word := rfl
@[simp] theorem setHart_agenda (s : State) (h : Hart) (x : HartState) : (setHart s h x).agenda = s.agenda := rfl
@[simp] theorem setHart_burst (s : State) (h : Hart) (x : HartState) : (setHart s h x).burst = s.burst := rfl
@[simp] theorem setHart_free (s : State) (h : Hart) (x : HartState) : (setHart s h x).free = s.free := rfl

/-! `dropHart`. -/

@[simp] theorem dropHart_mem (s : State) (h : Hart) : (dropHart s h).mem = s.mem := rfl
@[simp] theorem dropHart_extents (s : State) (h : Hart) : (dropHart s h).extents = s.extents := rfl
@[simp] theorem dropHart_poison (s : State) (h : Hart) : (dropHart s h).poison = s.poison := rfl
@[simp] theorem dropHart_cores (s : State) (h : Hart) : (dropHart s h).cores = s.cores := rfl
@[simp] theorem dropHart_dies (s : State) (h : Hart) : (dropHart s h).dies = s.dies := rfl
@[simp] theorem dropHart_modules (s : State) (h : Hart) : (dropHart s h).modules = s.modules := rfl
@[simp] theorem dropHart_stores (s : State) (h : Hart) : (dropHart s h).stores = s.stores := rfl
@[simp] theorem dropHart_nextStore (s : State) (h : Hart) : (dropHart s h).nextStore = s.nextStore := rfl
@[simp] theorem dropHart_prefetches (s : State) (h : Hart) : (dropHart s h).prefetches = s.prefetches := rfl
@[simp] theorem dropHart_pushes (s : State) (h : Hart) : (dropHart s h).pushes = s.pushes := rfl
@[simp] theorem dropHart_grains (s : State) (h : Hart) : (dropHart s h).grains = s.grains := rfl
@[simp] theorem dropHart_frames (s : State) (h : Hart) : (dropHart s h).frames = s.frames := rfl
@[simp] theorem dropHart_stubs (s : State) (h : Hart) : (dropHart s h).stubs = s.stubs := rfl
@[simp] theorem dropHart_splits (s : State) (h : Hart) : (dropHart s h).splits = s.splits := rfl
@[simp] theorem dropHart_tiles (s : State) (h : Hart) : (dropHart s h).tiles = s.tiles := rfl
@[simp] theorem dropHart_snoops (s : State) (h : Hart) : (dropHart s h).snoops = s.snoops := rfl
@[simp] theorem dropHart_arrivals (s : State) (h : Hart) : (dropHart s h).arrivals = s.arrivals := rfl
@[simp] theorem dropHart_copies (s : State) (h : Hart) : (dropHart s h).copies = s.copies := rfl
@[simp] theorem dropHart_cells (s : State) (h : Hart) : (dropHart s h).cells = s.cells := rfl
@[simp] theorem dropHart_combined (s : State) (h : Hart) : (dropHart s h).combined = s.combined := rfl
@[simp] theorem dropHart_kicks (s : State) (h : Hart) : (dropHart s h).kicks = s.kicks := rfl
@[simp] theorem dropHart_engines (s : State) (h : Hart) : (dropHart s h).engines = s.engines := rfl
@[simp] theorem dropHart_groups (s : State) (h : Hart) : (dropHart s h).groups = s.groups := rfl
@[simp] theorem dropHart_msgs (s : State) (h : Hart) : (dropHart s h).msgs = s.msgs := rfl
@[simp] theorem dropHart_ships (s : State) (h : Hart) : (dropHart s h).ships = s.ships := rfl
@[simp] theorem dropHart_longWait (s : State) (h : Hart) : (dropHart s h).longWait = s.longWait := rfl
@[simp] theorem dropHart_images (s : State) (h : Hart) : (dropHart s h).images = s.images := rfl
@[simp] theorem dropHart_leftBehind (s : State) (h : Hart) : (dropHart s h).leftBehind = s.leftBehind := rfl
@[simp] theorem dropHart_solo (s : State) (h : Hart) : (dropHart s h).solo = s.solo := rfl
@[simp] theorem dropHart_lateOver (s : State) (h : Hart) : (dropHart s h).lateOver = s.lateOver := rfl
@[simp] theorem dropHart_nextId (s : State) (h : Hart) : (dropHart s h).nextId = s.nextId := rfl
@[simp] theorem dropHart_nextUid (s : State) (h : Hart) : (dropHart s h).nextUid = s.nextUid := rfl
@[simp] theorem dropHart_now (s : State) (h : Hart) : (dropHart s h).now = s.now := rfl
@[simp] theorem dropHart_timeSeen (s : State) (h : Hart) : (dropHart s h).timeSeen = s.timeSeen := rfl
@[simp] theorem dropHart_cur (s : State) (h : Hart) : (dropHart s h).cur = s.cur := rfl
@[simp] theorem dropHart_word (s : State) (h : Hart) : (dropHart s h).word = s.word := rfl
@[simp] theorem dropHart_agenda (s : State) (h : Hart) : (dropHart s h).agenda = s.agenda := rfl
@[simp] theorem dropHart_burst (s : State) (h : Hart) : (dropHart s h).burst = s.burst := rfl
@[simp] theorem dropHart_free (s : State) (h : Hart) : (dropHart s h).free = s.free := rfl

/-! `setCore`. -/

@[simp] theorem setCore_mem (s : State) (c : Nat) (x : CoreState) : (setCore s c x).mem = s.mem := rfl
@[simp] theorem setCore_extents (s : State) (c : Nat) (x : CoreState) : (setCore s c x).extents = s.extents := rfl
@[simp] theorem setCore_poison (s : State) (c : Nat) (x : CoreState) : (setCore s c x).poison = s.poison := rfl
@[simp] theorem setCore_harts (s : State) (c : Nat) (x : CoreState) : (setCore s c x).harts = s.harts := rfl
@[simp] theorem setCore_dies (s : State) (c : Nat) (x : CoreState) : (setCore s c x).dies = s.dies := rfl
@[simp] theorem setCore_modules (s : State) (c : Nat) (x : CoreState) : (setCore s c x).modules = s.modules := rfl
@[simp] theorem setCore_stores (s : State) (c : Nat) (x : CoreState) : (setCore s c x).stores = s.stores := rfl
@[simp] theorem setCore_nextStore (s : State) (c : Nat) (x : CoreState) : (setCore s c x).nextStore = s.nextStore := rfl
@[simp] theorem setCore_prefetches (s : State) (c : Nat) (x : CoreState) : (setCore s c x).prefetches = s.prefetches := rfl
@[simp] theorem setCore_pushes (s : State) (c : Nat) (x : CoreState) : (setCore s c x).pushes = s.pushes := rfl
@[simp] theorem setCore_grains (s : State) (c : Nat) (x : CoreState) : (setCore s c x).grains = s.grains := rfl
@[simp] theorem setCore_frames (s : State) (c : Nat) (x : CoreState) : (setCore s c x).frames = s.frames := rfl
@[simp] theorem setCore_stubs (s : State) (c : Nat) (x : CoreState) : (setCore s c x).stubs = s.stubs := rfl
@[simp] theorem setCore_splits (s : State) (c : Nat) (x : CoreState) : (setCore s c x).splits = s.splits := rfl
@[simp] theorem setCore_tiles (s : State) (c : Nat) (x : CoreState) : (setCore s c x).tiles = s.tiles := rfl
@[simp] theorem setCore_snoops (s : State) (c : Nat) (x : CoreState) : (setCore s c x).snoops = s.snoops := rfl
@[simp] theorem setCore_arrivals (s : State) (c : Nat) (x : CoreState) : (setCore s c x).arrivals = s.arrivals := rfl
@[simp] theorem setCore_copies (s : State) (c : Nat) (x : CoreState) : (setCore s c x).copies = s.copies := rfl
@[simp] theorem setCore_cells (s : State) (c : Nat) (x : CoreState) : (setCore s c x).cells = s.cells := rfl
@[simp] theorem setCore_combined (s : State) (c : Nat) (x : CoreState) : (setCore s c x).combined = s.combined := rfl
@[simp] theorem setCore_kicks (s : State) (c : Nat) (x : CoreState) : (setCore s c x).kicks = s.kicks := rfl
@[simp] theorem setCore_engines (s : State) (c : Nat) (x : CoreState) : (setCore s c x).engines = s.engines := rfl
@[simp] theorem setCore_groups (s : State) (c : Nat) (x : CoreState) : (setCore s c x).groups = s.groups := rfl
@[simp] theorem setCore_msgs (s : State) (c : Nat) (x : CoreState) : (setCore s c x).msgs = s.msgs := rfl
@[simp] theorem setCore_ships (s : State) (c : Nat) (x : CoreState) : (setCore s c x).ships = s.ships := rfl
@[simp] theorem setCore_longWait (s : State) (c : Nat) (x : CoreState) : (setCore s c x).longWait = s.longWait := rfl
@[simp] theorem setCore_images (s : State) (c : Nat) (x : CoreState) : (setCore s c x).images = s.images := rfl
@[simp] theorem setCore_leftBehind (s : State) (c : Nat) (x : CoreState) : (setCore s c x).leftBehind = s.leftBehind := rfl
@[simp] theorem setCore_solo (s : State) (c : Nat) (x : CoreState) : (setCore s c x).solo = s.solo := rfl
@[simp] theorem setCore_lateOver (s : State) (c : Nat) (x : CoreState) : (setCore s c x).lateOver = s.lateOver := rfl
@[simp] theorem setCore_nextId (s : State) (c : Nat) (x : CoreState) : (setCore s c x).nextId = s.nextId := rfl
@[simp] theorem setCore_nextUid (s : State) (c : Nat) (x : CoreState) : (setCore s c x).nextUid = s.nextUid := rfl
@[simp] theorem setCore_now (s : State) (c : Nat) (x : CoreState) : (setCore s c x).now = s.now := rfl
@[simp] theorem setCore_timeSeen (s : State) (c : Nat) (x : CoreState) : (setCore s c x).timeSeen = s.timeSeen := rfl
@[simp] theorem setCore_cur (s : State) (c : Nat) (x : CoreState) : (setCore s c x).cur = s.cur := rfl
@[simp] theorem setCore_word (s : State) (c : Nat) (x : CoreState) : (setCore s c x).word = s.word := rfl
@[simp] theorem setCore_agenda (s : State) (c : Nat) (x : CoreState) : (setCore s c x).agenda = s.agenda := rfl
@[simp] theorem setCore_burst (s : State) (c : Nat) (x : CoreState) : (setCore s c x).burst = s.burst := rfl
@[simp] theorem setCore_free (s : State) (c : Nat) (x : CoreState) : (setCore s c x).free = s.free := rfl

/-! `setDie`. -/

@[simp] theorem setDie_mem (s : State) (d : Nat) (x : DieState) : (setDie s d x).mem = s.mem := rfl
@[simp] theorem setDie_extents (s : State) (d : Nat) (x : DieState) : (setDie s d x).extents = s.extents := rfl
@[simp] theorem setDie_poison (s : State) (d : Nat) (x : DieState) : (setDie s d x).poison = s.poison := rfl
@[simp] theorem setDie_harts (s : State) (d : Nat) (x : DieState) : (setDie s d x).harts = s.harts := rfl
@[simp] theorem setDie_cores (s : State) (d : Nat) (x : DieState) : (setDie s d x).cores = s.cores := rfl
@[simp] theorem setDie_modules (s : State) (d : Nat) (x : DieState) : (setDie s d x).modules = s.modules := rfl
@[simp] theorem setDie_stores (s : State) (d : Nat) (x : DieState) : (setDie s d x).stores = s.stores := rfl
@[simp] theorem setDie_nextStore (s : State) (d : Nat) (x : DieState) : (setDie s d x).nextStore = s.nextStore := rfl
@[simp] theorem setDie_prefetches (s : State) (d : Nat) (x : DieState) : (setDie s d x).prefetches = s.prefetches := rfl
@[simp] theorem setDie_pushes (s : State) (d : Nat) (x : DieState) : (setDie s d x).pushes = s.pushes := rfl
@[simp] theorem setDie_grains (s : State) (d : Nat) (x : DieState) : (setDie s d x).grains = s.grains := rfl
@[simp] theorem setDie_frames (s : State) (d : Nat) (x : DieState) : (setDie s d x).frames = s.frames := rfl
@[simp] theorem setDie_stubs (s : State) (d : Nat) (x : DieState) : (setDie s d x).stubs = s.stubs := rfl
@[simp] theorem setDie_splits (s : State) (d : Nat) (x : DieState) : (setDie s d x).splits = s.splits := rfl
@[simp] theorem setDie_tiles (s : State) (d : Nat) (x : DieState) : (setDie s d x).tiles = s.tiles := rfl
@[simp] theorem setDie_snoops (s : State) (d : Nat) (x : DieState) : (setDie s d x).snoops = s.snoops := rfl
@[simp] theorem setDie_arrivals (s : State) (d : Nat) (x : DieState) : (setDie s d x).arrivals = s.arrivals := rfl
@[simp] theorem setDie_copies (s : State) (d : Nat) (x : DieState) : (setDie s d x).copies = s.copies := rfl
@[simp] theorem setDie_cells (s : State) (d : Nat) (x : DieState) : (setDie s d x).cells = s.cells := rfl
@[simp] theorem setDie_combined (s : State) (d : Nat) (x : DieState) : (setDie s d x).combined = s.combined := rfl
@[simp] theorem setDie_kicks (s : State) (d : Nat) (x : DieState) : (setDie s d x).kicks = s.kicks := rfl
@[simp] theorem setDie_engines (s : State) (d : Nat) (x : DieState) : (setDie s d x).engines = s.engines := rfl
@[simp] theorem setDie_groups (s : State) (d : Nat) (x : DieState) : (setDie s d x).groups = s.groups := rfl
@[simp] theorem setDie_msgs (s : State) (d : Nat) (x : DieState) : (setDie s d x).msgs = s.msgs := rfl
@[simp] theorem setDie_ships (s : State) (d : Nat) (x : DieState) : (setDie s d x).ships = s.ships := rfl
@[simp] theorem setDie_longWait (s : State) (d : Nat) (x : DieState) : (setDie s d x).longWait = s.longWait := rfl
@[simp] theorem setDie_images (s : State) (d : Nat) (x : DieState) : (setDie s d x).images = s.images := rfl
@[simp] theorem setDie_leftBehind (s : State) (d : Nat) (x : DieState) : (setDie s d x).leftBehind = s.leftBehind := rfl
@[simp] theorem setDie_solo (s : State) (d : Nat) (x : DieState) : (setDie s d x).solo = s.solo := rfl
@[simp] theorem setDie_lateOver (s : State) (d : Nat) (x : DieState) : (setDie s d x).lateOver = s.lateOver := rfl
@[simp] theorem setDie_nextId (s : State) (d : Nat) (x : DieState) : (setDie s d x).nextId = s.nextId := rfl
@[simp] theorem setDie_nextUid (s : State) (d : Nat) (x : DieState) : (setDie s d x).nextUid = s.nextUid := rfl
@[simp] theorem setDie_now (s : State) (d : Nat) (x : DieState) : (setDie s d x).now = s.now := rfl
@[simp] theorem setDie_timeSeen (s : State) (d : Nat) (x : DieState) : (setDie s d x).timeSeen = s.timeSeen := rfl
@[simp] theorem setDie_cur (s : State) (d : Nat) (x : DieState) : (setDie s d x).cur = s.cur := rfl
@[simp] theorem setDie_word (s : State) (d : Nat) (x : DieState) : (setDie s d x).word = s.word := rfl
@[simp] theorem setDie_agenda (s : State) (d : Nat) (x : DieState) : (setDie s d x).agenda = s.agenda := rfl
@[simp] theorem setDie_burst (s : State) (d : Nat) (x : DieState) : (setDie s d x).burst = s.burst := rfl
@[simp] theorem setDie_free (s : State) (d : Nat) (x : DieState) : (setDie s d x).free = s.free := rfl

/-! `setModule`. -/

@[simp] theorem setModule_mem (s : State) (m : Nat) (x : ModuleState) : (setModule s m x).mem = s.mem := rfl
@[simp] theorem setModule_extents (s : State) (m : Nat) (x : ModuleState) : (setModule s m x).extents = s.extents := rfl
@[simp] theorem setModule_poison (s : State) (m : Nat) (x : ModuleState) : (setModule s m x).poison = s.poison := rfl
@[simp] theorem setModule_harts (s : State) (m : Nat) (x : ModuleState) : (setModule s m x).harts = s.harts := rfl
@[simp] theorem setModule_cores (s : State) (m : Nat) (x : ModuleState) : (setModule s m x).cores = s.cores := rfl
@[simp] theorem setModule_dies (s : State) (m : Nat) (x : ModuleState) : (setModule s m x).dies = s.dies := rfl
@[simp] theorem setModule_stores (s : State) (m : Nat) (x : ModuleState) : (setModule s m x).stores = s.stores := rfl
@[simp] theorem setModule_nextStore (s : State) (m : Nat) (x : ModuleState) : (setModule s m x).nextStore = s.nextStore := rfl
@[simp] theorem setModule_prefetches (s : State) (m : Nat) (x : ModuleState) : (setModule s m x).prefetches = s.prefetches := rfl
@[simp] theorem setModule_pushes (s : State) (m : Nat) (x : ModuleState) : (setModule s m x).pushes = s.pushes := rfl
@[simp] theorem setModule_grains (s : State) (m : Nat) (x : ModuleState) : (setModule s m x).grains = s.grains := rfl
@[simp] theorem setModule_frames (s : State) (m : Nat) (x : ModuleState) : (setModule s m x).frames = s.frames := rfl
@[simp] theorem setModule_stubs (s : State) (m : Nat) (x : ModuleState) : (setModule s m x).stubs = s.stubs := rfl
@[simp] theorem setModule_splits (s : State) (m : Nat) (x : ModuleState) : (setModule s m x).splits = s.splits := rfl
@[simp] theorem setModule_tiles (s : State) (m : Nat) (x : ModuleState) : (setModule s m x).tiles = s.tiles := rfl
@[simp] theorem setModule_snoops (s : State) (m : Nat) (x : ModuleState) : (setModule s m x).snoops = s.snoops := rfl
@[simp] theorem setModule_arrivals (s : State) (m : Nat) (x : ModuleState) : (setModule s m x).arrivals = s.arrivals := rfl
@[simp] theorem setModule_copies (s : State) (m : Nat) (x : ModuleState) : (setModule s m x).copies = s.copies := rfl
@[simp] theorem setModule_cells (s : State) (m : Nat) (x : ModuleState) : (setModule s m x).cells = s.cells := rfl
@[simp] theorem setModule_combined (s : State) (m : Nat) (x : ModuleState) : (setModule s m x).combined = s.combined := rfl
@[simp] theorem setModule_kicks (s : State) (m : Nat) (x : ModuleState) : (setModule s m x).kicks = s.kicks := rfl
@[simp] theorem setModule_engines (s : State) (m : Nat) (x : ModuleState) : (setModule s m x).engines = s.engines := rfl
@[simp] theorem setModule_groups (s : State) (m : Nat) (x : ModuleState) : (setModule s m x).groups = s.groups := rfl
@[simp] theorem setModule_msgs (s : State) (m : Nat) (x : ModuleState) : (setModule s m x).msgs = s.msgs := rfl
@[simp] theorem setModule_ships (s : State) (m : Nat) (x : ModuleState) : (setModule s m x).ships = s.ships := rfl
@[simp] theorem setModule_longWait (s : State) (m : Nat) (x : ModuleState) : (setModule s m x).longWait = s.longWait := rfl
@[simp] theorem setModule_images (s : State) (m : Nat) (x : ModuleState) : (setModule s m x).images = s.images := rfl
@[simp] theorem setModule_leftBehind (s : State) (m : Nat) (x : ModuleState) : (setModule s m x).leftBehind = s.leftBehind := rfl
@[simp] theorem setModule_solo (s : State) (m : Nat) (x : ModuleState) : (setModule s m x).solo = s.solo := rfl
@[simp] theorem setModule_lateOver (s : State) (m : Nat) (x : ModuleState) : (setModule s m x).lateOver = s.lateOver := rfl
@[simp] theorem setModule_nextId (s : State) (m : Nat) (x : ModuleState) : (setModule s m x).nextId = s.nextId := rfl
@[simp] theorem setModule_nextUid (s : State) (m : Nat) (x : ModuleState) : (setModule s m x).nextUid = s.nextUid := rfl
@[simp] theorem setModule_now (s : State) (m : Nat) (x : ModuleState) : (setModule s m x).now = s.now := rfl
@[simp] theorem setModule_timeSeen (s : State) (m : Nat) (x : ModuleState) : (setModule s m x).timeSeen = s.timeSeen := rfl
@[simp] theorem setModule_cur (s : State) (m : Nat) (x : ModuleState) : (setModule s m x).cur = s.cur := rfl
@[simp] theorem setModule_word (s : State) (m : Nat) (x : ModuleState) : (setModule s m x).word = s.word := rfl
@[simp] theorem setModule_agenda (s : State) (m : Nat) (x : ModuleState) : (setModule s m x).agenda = s.agenda := rfl
@[simp] theorem setModule_burst (s : State) (m : Nat) (x : ModuleState) : (setModule s m x).burst = s.burst := rfl
@[simp] theorem setModule_free (s : State) (m : Nat) (x : ModuleState) : (setModule s m x).free = s.free := rfl

/-! `setRun`. -/

@[simp] theorem setRun_id (hs : HartState) (r : RunState) : (setRun hs r).id = hs.id := rfl
@[simp] theorem setRun_regs (hs : HartState) (r : RunState) : (setRun hs r).regs = hs.regs := rfl
@[simp] theorem setRun_pc (hs : HartState) (r : RunState) : (setRun hs r).pc = hs.pc := rfl
@[simp] theorem setRun_st (hs : HartState) (r : RunState) : (setRun hs r).st = hs.st := rfl
@[simp] theorem setRun_migr (hs : HartState) (r : RunState) : (setRun hs r).migr = hs.migr := rfl
@[simp] theorem setRun_fp (hs : HartState) (r : RunState) : (setRun hs r).fp = hs.fp := rfl
@[simp] theorem setRun_mx (hs : HartState) (r : RunState) : (setRun hs r).mx = hs.mx := rfl
@[simp] theorem setRun_ports (hs : HartState) (r : RunState) : (setRun hs r).ports = hs.ports := rfl
@[simp] theorem setRun_timecmp (hs : HartState) (r : RunState) : (setRun hs r).timecmp = hs.timecmp := rfl
@[simp] theorem setRun_trap (hs : HartState) (r : RunState) : (setRun hs r).trap = hs.trap := rfl
@[simp] theorem setRun_ptbr (hs : HartState) (r : RunState) : (setRun hs r).ptbr = hs.ptbr := rfl
@[simp] theorem setRun_take (hs : HartState) (r : RunState) : (setRun hs r).take = hs.take := rfl
@[simp] theorem setRun_joinOwn (hs : HartState) (r : RunState) : (setRun hs r).joinOwn = hs.joinOwn := rfl
@[simp] theorem setRun_joinParent (hs : HartState) (r : RunState) : (setRun hs r).joinParent = hs.joinParent := rfl
@[simp] theorem setRun_plink (hs : HartState) (r : RunState) : (setRun hs r).plink = hs.plink := rfl

/-! `setPark`. -/

@[simp] theorem setPark_id (hs : HartState) (p : Park) : (setPark hs p).id = hs.id := rfl
@[simp] theorem setPark_regs (hs : HartState) (p : Park) : (setPark hs p).regs = hs.regs := rfl
@[simp] theorem setPark_pc (hs : HartState) (p : Park) : (setPark hs p).pc = hs.pc := rfl
@[simp] theorem setPark_st (hs : HartState) (p : Park) : (setPark hs p).st = hs.st := rfl
@[simp] theorem setPark_migr (hs : HartState) (p : Park) : (setPark hs p).migr = hs.migr := rfl
@[simp] theorem setPark_fp (hs : HartState) (p : Park) : (setPark hs p).fp = hs.fp := rfl
@[simp] theorem setPark_mx (hs : HartState) (p : Park) : (setPark hs p).mx = hs.mx := rfl
@[simp] theorem setPark_ports (hs : HartState) (p : Park) : (setPark hs p).ports = hs.ports := rfl
@[simp] theorem setPark_timecmp (hs : HartState) (p : Park) : (setPark hs p).timecmp = hs.timecmp := rfl
@[simp] theorem setPark_trap (hs : HartState) (p : Park) : (setPark hs p).trap = hs.trap := rfl
@[simp] theorem setPark_ptbr (hs : HartState) (p : Park) : (setPark hs p).ptbr = hs.ptbr := rfl
@[simp] theorem setPark_take (hs : HartState) (p : Park) : (setPark hs p).take = hs.take := rfl
@[simp] theorem setPark_joinOwn (hs : HartState) (p : Park) : (setPark hs p).joinOwn = hs.joinOwn := rfl
@[simp] theorem setPark_joinParent (hs : HartState) (p : Park) : (setPark hs p).joinParent = hs.joinParent := rfl
@[simp] theorem setPark_plink (hs : HartState) (p : Park) : (setPark hs p).plink = hs.plink := rfl

/-! `setPort`. -/

@[simp] theorem setPort_id (hs : HartState) (p : Fin 4) (x : Port) : (setPort hs p x).id = hs.id := rfl
@[simp] theorem setPort_regs (hs : HartState) (p : Fin 4) (x : Port) : (setPort hs p x).regs = hs.regs := rfl
@[simp] theorem setPort_pc (hs : HartState) (p : Fin 4) (x : Port) : (setPort hs p x).pc = hs.pc := rfl
@[simp] theorem setPort_st (hs : HartState) (p : Fin 4) (x : Port) : (setPort hs p x).st = hs.st := rfl
@[simp] theorem setPort_migr (hs : HartState) (p : Fin 4) (x : Port) : (setPort hs p x).migr = hs.migr := rfl
@[simp] theorem setPort_fp (hs : HartState) (p : Fin 4) (x : Port) : (setPort hs p x).fp = hs.fp := rfl
@[simp] theorem setPort_mx (hs : HartState) (p : Fin 4) (x : Port) : (setPort hs p x).mx = hs.mx := rfl
@[simp] theorem setPort_timecmp (hs : HartState) (p : Fin 4) (x : Port) : (setPort hs p x).timecmp = hs.timecmp := rfl
@[simp] theorem setPort_trap (hs : HartState) (p : Fin 4) (x : Port) : (setPort hs p x).trap = hs.trap := rfl
@[simp] theorem setPort_ptbr (hs : HartState) (p : Fin 4) (x : Port) : (setPort hs p x).ptbr = hs.ptbr := rfl
@[simp] theorem setPort_take (hs : HartState) (p : Fin 4) (x : Port) : (setPort hs p x).take = hs.take := rfl
@[simp] theorem setPort_run (hs : HartState) (p : Fin 4) (x : Port) : (setPort hs p x).run = hs.run := rfl
@[simp] theorem setPort_joinOwn (hs : HartState) (p : Fin 4) (x : Port) : (setPort hs p x).joinOwn = hs.joinOwn := rfl
@[simp] theorem setPort_joinParent (hs : HartState) (p : Fin 4) (x : Port) : (setPort hs p x).joinParent = hs.joinParent := rfl
@[simp] theorem setPort_plink (hs : HartState) (p : Fin 4) (x : Port) : (setPort hs p x).plink = hs.plink := rfl

/-! `setG`. -/

@[simp] theorem setG_id (hs : HartState) (r : Fin 16) (x : Reg Word) : (setG hs r x).id = hs.id := rfl
@[simp] theorem setG_pc (hs : HartState) (r : Fin 16) (x : Reg Word) : (setG hs r x).pc = hs.pc := rfl
@[simp] theorem setG_st (hs : HartState) (r : Fin 16) (x : Reg Word) : (setG hs r x).st = hs.st := rfl
@[simp] theorem setG_migr (hs : HartState) (r : Fin 16) (x : Reg Word) : (setG hs r x).migr = hs.migr := rfl
@[simp] theorem setG_fp (hs : HartState) (r : Fin 16) (x : Reg Word) : (setG hs r x).fp = hs.fp := rfl
@[simp] theorem setG_mx (hs : HartState) (r : Fin 16) (x : Reg Word) : (setG hs r x).mx = hs.mx := rfl
@[simp] theorem setG_ports (hs : HartState) (r : Fin 16) (x : Reg Word) : (setG hs r x).ports = hs.ports := rfl
@[simp] theorem setG_timecmp (hs : HartState) (r : Fin 16) (x : Reg Word) : (setG hs r x).timecmp = hs.timecmp := rfl
@[simp] theorem setG_trap (hs : HartState) (r : Fin 16) (x : Reg Word) : (setG hs r x).trap = hs.trap := rfl
@[simp] theorem setG_ptbr (hs : HartState) (r : Fin 16) (x : Reg Word) : (setG hs r x).ptbr = hs.ptbr := rfl
@[simp] theorem setG_take (hs : HartState) (r : Fin 16) (x : Reg Word) : (setG hs r x).take = hs.take := rfl
@[simp] theorem setG_run (hs : HartState) (r : Fin 16) (x : Reg Word) : (setG hs r x).run = hs.run := rfl
@[simp] theorem setG_joinOwn (hs : HartState) (r : Fin 16) (x : Reg Word) : (setG hs r x).joinOwn = hs.joinOwn := rfl
@[simp] theorem setG_joinParent (hs : HartState) (r : Fin 16) (x : Reg Word) : (setG hs r x).joinParent = hs.joinParent := rfl
@[simp] theorem setG_plink (hs : HartState) (r : Fin 16) (x : Reg Word) : (setG hs r x).plink = hs.plink := rfl

/-! `setV`. -/

@[simp] theorem setV_id (hs : HartState) (r : Fin 16) (x : Reg V256) : (setV hs r x).id = hs.id := rfl
@[simp] theorem setV_pc (hs : HartState) (r : Fin 16) (x : Reg V256) : (setV hs r x).pc = hs.pc := rfl
@[simp] theorem setV_st (hs : HartState) (r : Fin 16) (x : Reg V256) : (setV hs r x).st = hs.st := rfl
@[simp] theorem setV_migr (hs : HartState) (r : Fin 16) (x : Reg V256) : (setV hs r x).migr = hs.migr := rfl
@[simp] theorem setV_fp (hs : HartState) (r : Fin 16) (x : Reg V256) : (setV hs r x).fp = hs.fp := rfl
@[simp] theorem setV_mx (hs : HartState) (r : Fin 16) (x : Reg V256) : (setV hs r x).mx = hs.mx := rfl
@[simp] theorem setV_ports (hs : HartState) (r : Fin 16) (x : Reg V256) : (setV hs r x).ports = hs.ports := rfl
@[simp] theorem setV_timecmp (hs : HartState) (r : Fin 16) (x : Reg V256) : (setV hs r x).timecmp = hs.timecmp := rfl
@[simp] theorem setV_trap (hs : HartState) (r : Fin 16) (x : Reg V256) : (setV hs r x).trap = hs.trap := rfl
@[simp] theorem setV_ptbr (hs : HartState) (r : Fin 16) (x : Reg V256) : (setV hs r x).ptbr = hs.ptbr := rfl
@[simp] theorem setV_take (hs : HartState) (r : Fin 16) (x : Reg V256) : (setV hs r x).take = hs.take := rfl
@[simp] theorem setV_run (hs : HartState) (r : Fin 16) (x : Reg V256) : (setV hs r x).run = hs.run := rfl
@[simp] theorem setV_joinOwn (hs : HartState) (r : Fin 16) (x : Reg V256) : (setV hs r x).joinOwn = hs.joinOwn := rfl
@[simp] theorem setV_joinParent (hs : HartState) (r : Fin 16) (x : Reg V256) : (setV hs r x).joinParent = hs.joinParent := rfl
@[simp] theorem setV_plink (hs : HartState) (r : Fin 16) (x : Reg V256) : (setV hs r x).plink = hs.plink := rfl

/-! `setW`. -/

@[simp] theorem setW_id (hs : HartState) (r : Fin 16) (x : Reg W2048) : (setW hs r x).id = hs.id := rfl
@[simp] theorem setW_pc (hs : HartState) (r : Fin 16) (x : Reg W2048) : (setW hs r x).pc = hs.pc := rfl
@[simp] theorem setW_st (hs : HartState) (r : Fin 16) (x : Reg W2048) : (setW hs r x).st = hs.st := rfl
@[simp] theorem setW_migr (hs : HartState) (r : Fin 16) (x : Reg W2048) : (setW hs r x).migr = hs.migr := rfl
@[simp] theorem setW_fp (hs : HartState) (r : Fin 16) (x : Reg W2048) : (setW hs r x).fp = hs.fp := rfl
@[simp] theorem setW_mx (hs : HartState) (r : Fin 16) (x : Reg W2048) : (setW hs r x).mx = hs.mx := rfl
@[simp] theorem setW_ports (hs : HartState) (r : Fin 16) (x : Reg W2048) : (setW hs r x).ports = hs.ports := rfl
@[simp] theorem setW_timecmp (hs : HartState) (r : Fin 16) (x : Reg W2048) : (setW hs r x).timecmp = hs.timecmp := rfl
@[simp] theorem setW_trap (hs : HartState) (r : Fin 16) (x : Reg W2048) : (setW hs r x).trap = hs.trap := rfl
@[simp] theorem setW_ptbr (hs : HartState) (r : Fin 16) (x : Reg W2048) : (setW hs r x).ptbr = hs.ptbr := rfl
@[simp] theorem setW_take (hs : HartState) (r : Fin 16) (x : Reg W2048) : (setW hs r x).take = hs.take := rfl
@[simp] theorem setW_run (hs : HartState) (r : Fin 16) (x : Reg W2048) : (setW hs r x).run = hs.run := rfl
@[simp] theorem setW_joinOwn (hs : HartState) (r : Fin 16) (x : Reg W2048) : (setW hs r x).joinOwn = hs.joinOwn := rfl
@[simp] theorem setW_joinParent (hs : HartState) (r : Fin 16) (x : Reg W2048) : (setW hs r x).joinParent = hs.joinParent := rfl
@[simp] theorem setW_plink (hs : HartState) (r : Fin 16) (x : Reg W2048) : (setW hs r x).plink = hs.plink := rfl

/-! `writeG`. -/

@[simp] theorem writeG_id (hs : HartState) (r : Fin 16) (v : Word) : (writeG hs r v).id = hs.id := rfl
@[simp] theorem writeG_pc (hs : HartState) (r : Fin 16) (v : Word) : (writeG hs r v).pc = hs.pc := rfl
@[simp] theorem writeG_st (hs : HartState) (r : Fin 16) (v : Word) : (writeG hs r v).st = hs.st := rfl
@[simp] theorem writeG_migr (hs : HartState) (r : Fin 16) (v : Word) : (writeG hs r v).migr = hs.migr := rfl
@[simp] theorem writeG_fp (hs : HartState) (r : Fin 16) (v : Word) : (writeG hs r v).fp = hs.fp := rfl
@[simp] theorem writeG_mx (hs : HartState) (r : Fin 16) (v : Word) : (writeG hs r v).mx = hs.mx := rfl
@[simp] theorem writeG_ports (hs : HartState) (r : Fin 16) (v : Word) : (writeG hs r v).ports = hs.ports := rfl
@[simp] theorem writeG_timecmp (hs : HartState) (r : Fin 16) (v : Word) : (writeG hs r v).timecmp = hs.timecmp := rfl
@[simp] theorem writeG_trap (hs : HartState) (r : Fin 16) (v : Word) : (writeG hs r v).trap = hs.trap := rfl
@[simp] theorem writeG_ptbr (hs : HartState) (r : Fin 16) (v : Word) : (writeG hs r v).ptbr = hs.ptbr := rfl
@[simp] theorem writeG_take (hs : HartState) (r : Fin 16) (v : Word) : (writeG hs r v).take = hs.take := rfl
@[simp] theorem writeG_run (hs : HartState) (r : Fin 16) (v : Word) : (writeG hs r v).run = hs.run := rfl
@[simp] theorem writeG_joinOwn (hs : HartState) (r : Fin 16) (v : Word) : (writeG hs r v).joinOwn = hs.joinOwn := rfl
@[simp] theorem writeG_joinParent (hs : HartState) (r : Fin 16) (v : Word) : (writeG hs r v).joinParent = hs.joinParent := rfl
@[simp] theorem writeG_plink (hs : HartState) (r : Fin 16) (v : Word) : (writeG hs r v).plink = hs.plink := rfl

/-! `emptyG`. -/

@[simp] theorem emptyG_id (hs : HartState) (r : Fin 16) : (emptyG hs r).id = hs.id := rfl
@[simp] theorem emptyG_pc (hs : HartState) (r : Fin 16) : (emptyG hs r).pc = hs.pc := rfl
@[simp] theorem emptyG_st (hs : HartState) (r : Fin 16) : (emptyG hs r).st = hs.st := rfl
@[simp] theorem emptyG_migr (hs : HartState) (r : Fin 16) : (emptyG hs r).migr = hs.migr := rfl
@[simp] theorem emptyG_fp (hs : HartState) (r : Fin 16) : (emptyG hs r).fp = hs.fp := rfl
@[simp] theorem emptyG_mx (hs : HartState) (r : Fin 16) : (emptyG hs r).mx = hs.mx := rfl
@[simp] theorem emptyG_ports (hs : HartState) (r : Fin 16) : (emptyG hs r).ports = hs.ports := rfl
@[simp] theorem emptyG_timecmp (hs : HartState) (r : Fin 16) : (emptyG hs r).timecmp = hs.timecmp := rfl
@[simp] theorem emptyG_trap (hs : HartState) (r : Fin 16) : (emptyG hs r).trap = hs.trap := rfl
@[simp] theorem emptyG_ptbr (hs : HartState) (r : Fin 16) : (emptyG hs r).ptbr = hs.ptbr := rfl
@[simp] theorem emptyG_take (hs : HartState) (r : Fin 16) : (emptyG hs r).take = hs.take := rfl
@[simp] theorem emptyG_run (hs : HartState) (r : Fin 16) : (emptyG hs r).run = hs.run := rfl
@[simp] theorem emptyG_joinOwn (hs : HartState) (r : Fin 16) : (emptyG hs r).joinOwn = hs.joinOwn := rfl
@[simp] theorem emptyG_joinParent (hs : HartState) (r : Fin 16) : (emptyG hs r).joinParent = hs.joinParent := rfl
@[simp] theorem emptyG_plink (hs : HartState) (r : Fin 16) : (emptyG hs r).plink = hs.plink := rfl

@[simp] theorem setRun_run (hs : HartState) (r : RunState) : (setRun hs r).run = r := rfl
@[simp] theorem setPark_run_seq (hs : HartState) (p : Park) : (setPark hs p).run.seq = hs.run.seq := rfl
@[simp] theorem setPark_run_ops (hs : HartState) (p : Park) : (setPark hs p).run.ops = hs.run.ops := rfl
@[simp] theorem setPark_run_replay (hs : HartState) (p : Park) : (setPark hs p).run.replay = hs.run.replay := rfl
@[simp] theorem setPark_run_due (hs : HartState) (p : Park) : (setPark hs p).run.due = hs.run.due := rfl
@[simp] theorem setPark_run_async (hs : HartState) (p : Park) : (setPark hs p).run.async = hs.run.async := rfl
@[simp] theorem setPark_run_halted (hs : HartState) (p : Park) : (setPark hs p).run.halted = hs.run.halted := rfl
@[simp] theorem setPark_run_dbl (hs : HartState) (p : Park) : (setPark hs p).run.dbl = hs.run.dbl := rfl
@[simp] theorem setPark_run_held (hs : HartState) (p : Park) : (setPark hs p).run.held = hs.run.held := rfl
@[simp] theorem setPark_run_gate (hs : HartState) (p : Park) : (setPark hs p).run.gate = hs.run.gate := rfl
@[simp] theorem setPark_run_watch (hs : HartState) (p : Park) : (setPark hs p).run.watch = hs.run.watch := rfl
@[simp] theorem setPark_run_lastPc (hs : HartState) (p : Park) : (setPark hs p).run.lastPc = hs.run.lastPc := rfl
@[simp] theorem setPark_run_issued (hs : HartState) (p : Park) : (setPark hs p).run.issued = hs.run.issued := rfl
@[simp] theorem setPark_run_drain (hs : HartState) (p : Park) : (setPark hs p).run.drain = hs.run.drain := rfl
@[simp] theorem setPark_run_ship (hs : HartState) (p : Park) : (setPark hs p).run.ship = hs.run.ship := rfl
@[simp] theorem setPark_run_retiring (hs : HartState) (p : Park) : (setPark hs p).run.retiring = hs.run.retiring := rfl
@[simp] theorem setPark_run_cancelled (hs : HartState) (p : Park) : (setPark hs p).run.cancelled = hs.run.cancelled := rfl
@[simp] theorem setPark_run_fetchFault (hs : HartState) (p : Park) : (setPark hs p).run.fetchFault = hs.run.fetchFault := rfl
@[simp] theorem setPark_run_queued (hs : HartState) (p : Park) : (setPark hs p).run.queued = hs.run.queued := rfl
@[simp] theorem setPark_run_need (hs : HartState) (p : Park) : (setPark hs p).run.need = hs.run.need := rfl
@[simp] theorem setPark_run_park (hs : HartState) (p : Park) : (setPark hs p).run.park = p := rfl
@[simp] theorem setG_regs_v (hs : HartState) (r : Fin 16) (x : Reg Word) : (setG hs r x).regs.v = hs.regs.v := rfl
@[simp] theorem setG_regs_w (hs : HartState) (r : Fin 16) (x : Reg Word) : (setG hs r x).regs.w = hs.regs.w := rfl
@[simp] theorem setV_regs_g (hs : HartState) (r : Fin 16) (x : Reg V256) : (setV hs r x).regs.g = hs.regs.g := rfl
@[simp] theorem setV_regs_w (hs : HartState) (r : Fin 16) (x : Reg V256) : (setV hs r x).regs.w = hs.regs.w := rfl
@[simp] theorem setW_regs_g (hs : HartState) (r : Fin 16) (x : Reg W2048) : (setW hs r x).regs.g = hs.regs.g := rfl
@[simp] theorem setW_regs_v (hs : HartState) (r : Fin 16) (x : Reg W2048) : (setW hs r x).regs.v = hs.regs.v := rfl
end Sys2Proof.Machine
end

