-- ==== Sys2Proof/Laws/Maps.lean ====
section
/-!
SUPPORT. Maps, and the parts of a state by name: what is read after a write.
-/

namespace Sys2Proof.Machine

theorem assocGet_assocSet_same {κ α : Type} [DecidableEq κ] (m : List (κ × α)) (k : κ) (a : α) : assocGet (assocSet m k a) k = some a := by
  induction m with
  | nil => simp [assocSet, assocGet]
  | cons x rest ih =>
    obtain ⟨k', a'⟩ := x
    by_cases h : k' = k <;> simp [assocSet, assocGet, h, ih]

theorem assocGet_assocSet_other {κ α : Type} [DecidableEq κ] (m : List (κ × α)) (k j : κ) (a : α) (h : j ≠ k) :
    assocGet (assocSet m k a) j = assocGet m j := by
  induction m with
  | nil => simp [assocSet, assocGet, Ne.symm h]
  | cons x rest ih =>
    obtain ⟨k', a'⟩ := x
    by_cases hk : k' = k
    · subst hk; simp [assocSet, assocGet, Ne.symm h]
    · by_cases hj : k' = j
      · subst hj; simp [assocSet, assocGet, hk]
      · simp [assocSet, assocGet, hk, hj, ih]

theorem assocGet_assocDel_same {κ α : Type} [DecidableEq κ] (m : List (κ × α)) (k : κ) : assocGet (assocDel m k) k = none := by
  induction m with
  | nil => rfl
  | cons x rest ih =>
    obtain ⟨k', a'⟩ := x
    by_cases h : k' = k
    · simpa [assocDel, h] using ih
    · simpa [assocDel, assocGet, h] using ih

theorem assocGet_assocDel_other {κ α : Type} [DecidableEq κ] (m : List (κ × α)) (k j : κ) (h : j ≠ k) :
    assocGet (assocDel m k) j = assocGet m j := by
  induction m with
  | nil => rfl
  | cons x rest ih =>
    obtain ⟨k', a'⟩ := x
    by_cases hk : k' = k
    · subst hk; simpa [assocDel, assocGet, Ne.symm h] using ih
    · by_cases hj : k' = j
      · simp [assocDel, assocGet, hj, h]
      · simpa [assocDel, assocGet, hk, hj] using ih

/-- A key that is set is one key. -/
theorem mem_keys_assocSet {κ α : Type} [DecidableEq κ] (m : List (κ × α)) (k j : κ) (a : α) :
    j ∈ (assocSet m k a).map Prod.fst ↔ j = k ∨ j ∈ m.map Prod.fst := by
  induction m with
  | nil => simp [assocSet]
  | cons x rest ih =>
    obtain ⟨k', a'⟩ := x
    by_cases h : k' = k
    · subst h; simp [assocSet]
    · simp only [assocSet, h, if_false, List.map_cons, List.mem_cons, ih]; exact or_left_comm

theorem nodup_keys_assocSet {κ α : Type} [DecidableEq κ] (m : List (κ × α)) (k : κ) (a : α) (hm : (m.map Prod.fst).Nodup) :
    ((assocSet m k a).map Prod.fst).Nodup := by
  induction m with
  | nil => simp [assocSet]
  | cons x rest ih =>
    obtain ⟨k', a'⟩ := x
    simp only [List.map_cons, List.nodup_cons] at hm
    by_cases h : k' = k
    · subst h; simpa [assocSet] using hm
    · simp only [assocSet, h, if_false, List.map_cons, List.nodup_cons]
      exact ⟨fun hk => ((mem_keys_assocSet rest k k' a).1 hk).elim h hm.1, ih hm.2⟩

theorem nodup_keys_assocDel {κ α : Type} [DecidableEq κ] (m : List (κ × α)) (k : κ) (hm : (m.map Prod.fst).Nodup) :
    ((assocDel m k).map Prod.fst).Nodup := hm.sublist (List.filter_sublist.map _)

@[simp] theorem hartOf_setHart (s : State) (h : Hart) (x : HartState) : hartOf (setHart s h x) h = some x :=
  assocGet_assocSet_same _ _ _
theorem hartOf_setHart_other (s : State) (h k : Hart) (x : HartState) (hk : k ≠ h) : hartOf (setHart s h x) k = hartOf s k :=
  assocGet_assocSet_other _ _ _ _ hk
@[simp] theorem hartOf_dropHart (s : State) (h : Hart) : hartOf (dropHart s h) h = none := assocGet_assocDel_same _ _
theorem hartOf_dropHart_other (s : State) (h k : Hart) (hk : k ≠ h) : hartOf (dropHart s h) k = hartOf s k :=
  assocGet_assocDel_other _ _ _ hk
@[simp] theorem coreOf_setCore (s : State) (c : Nat) (x : CoreState) : coreOf (setCore s c x) c = x := by
  simp [coreOf, setCore, assocGet_assocSet_same]
theorem coreOf_setCore_other (s : State) (c d : Nat) (x : CoreState) (hd : d ≠ c) : coreOf (setCore s c x) d = coreOf s d := by
  simp [coreOf, setCore, assocGet_assocSet_other _ _ _ _ hd]
@[simp] theorem dieState_setDie (s : State) (c : Nat) (x : DieState) : dieState (setDie s c x) c = x := by
  simp [dieState, setDie, assocGet_assocSet_same]
theorem dieState_setDie_other (s : State) (c d : Nat) (x : DieState) (hd : d ≠ c) : dieState (setDie s c x) d = dieState s d := by
  simp [dieState, setDie, assocGet_assocSet_other _ _ _ _ hd]
@[simp] theorem moduleOf_setModule (s : State) (c : Nat) (x : ModuleState) : moduleOf (setModule s c x) c = x := by
  simp [moduleOf, setModule, assocGet_assocSet_same]
theorem moduleOf_setModule_other (s : State) (c d : Nat) (x : ModuleState) (hd : d ≠ c) :
    moduleOf (setModule s c x) d = moduleOf s d := by
  simp [moduleOf, setModule, assocGet_assocSet_other _ _ _ _ hd]

@[simp] theorem hartOf_setCore (s : State) (c : Nat) (x : CoreState) (h : Hart) : hartOf (setCore s c x) h = hartOf s h := rfl
@[simp] theorem hartOf_setDie (s : State) (c : Nat) (x : DieState) (h : Hart) : hartOf (setDie s c x) h = hartOf s h := rfl
@[simp] theorem hartOf_setModule (s : State) (c : Nat) (x : ModuleState) (h : Hart) : hartOf (setModule s c x) h = hartOf s h := rfl
@[simp] theorem coreOf_setHart (s : State) (h : Hart) (x : HartState) (c : Nat) : coreOf (setHart s h x) c = coreOf s c := rfl
@[simp] theorem moduleOf_setHart (s : State) (h : Hart) (x : HartState) (m : Nat) : moduleOf (setHart s h x) m = moduleOf s m := rfl
@[simp] theorem moduleOf_setCore (s : State) (c : Nat) (x : CoreState) (m : Nat) : moduleOf (setCore s c x) m = moduleOf s m := rfl
@[simp] theorem dieState_setHart (s : State) (h : Hart) (x : HartState) (d : Nat) : dieState (setHart s h x) d = dieState s d := rfl

/-! Registers. -/

theorem vget_set_same {α : Type} {n : Nat} (v : Vector α n) (i : Fin n) (x : α) : (v.set i.val x i.isLt).get i = x := by
  show (v.set i.val x i.isLt)[i.val] = x
  simp
theorem vget_set_other {α : Type} {n : Nat} (v : Vector α n) (i j : Fin n) (x : α) (h : j ≠ i) :
    (v.set i.val x i.isLt).get j = v.get j := by
  show (v.set i.val x i.isLt)[j.val] = v[j.val]
  exact Vector.getElem_set_ne _ _ fun e => h (Fin.ext e.symm)

@[simp] theorem gVal_setG (hs : HartState) (r : Fin 16) (x : Reg Word) : gVal (setG hs r x) r = x.val := by
  simp [gVal, setG, vget_set_same]
@[simp] theorem gFull_setG (hs : HartState) (r : Fin 16) (x : Reg Word) : gFull (setG hs r x) r = x.full := by
  simp [gFull, setG, vget_set_same]
theorem get_setG_other (hs : HartState) (r k : Fin 16) (x : Reg Word) (h : k ≠ r) : (setG hs r x).regs.g.get k = hs.regs.g.get k :=
  vget_set_other _ _ _ _ h
theorem get_setV_other (hs : HartState) (r k : Fin 16) (x : Reg V256) (h : k ≠ r) : (setV hs r x).regs.v.get k = hs.regs.v.get k :=
  vget_set_other _ _ _ _ h
theorem get_setW_other (hs : HartState) (r k : Fin 16) (x : Reg W2048) (h : k ≠ r) : (setW hs r x).regs.w.get k = hs.regs.w.get k :=
  vget_set_other _ _ _ _ h

end Sys2Proof.Machine
end

