-- ==== Sys2Proof/Laws/Issue.lean ====
section
/-!
SUPPORT. Issue: what it answers in each case, and what a completed instruction leaves.
-/

namespace Sys2Proof.Machine

variable {s : State} {size : Nat} {n : Need} {body : Hart → State → HartState → List Word → Issued} {hs : HartState}

/-- An instruction whose body is done finishes. -/
theorem issue_done {s' : State} {hs' : HartState} (h : hartOf s s.cur = some hs) (hr : ready s s.cur hs n = .go)
    (hb : body s.cur s (readSrcs s.cur n.srcs hs).2 (readSrcs s.cur n.srcs hs).1 = .done s' hs') :
    issue s size n body = .next (completed s s' hs' size) := by
  simp [issue, h, hr, hb, completed]

/-- A taken transfer. -/
theorem issue_jump {s' : State} {hs' : HartState} {t : Word} (h : hartOf s s.cur = some hs) (hr : ready s s.cur hs n = .go)
    (hb : body s.cur s (readSrcs s.cur n.srcs hs).2 (readSrcs s.cur n.srcs hs).1 = .jump s' hs' t) :
    issue s size n body = .next (jumped s s' hs' size t) := by
  simp [issue, h, hr, hb, jumped]

/-- A body that gives the whole next state. -/
theorem issue_final {s' : State} (h : hartOf s s.cur = some hs) (hr : ready s s.cur hs n = .go)
    (hb : body s.cur s (readSrcs s.cur n.srcs hs).2 (readSrcs s.cur n.srcs hs).1 = .final s') :
    issue s size n body = .next s' := by
  simp [issue, h, hr, hb]

/-- A body that parks: nothing else changes. -/
theorem issue_body_park {p : Park} (h : hartOf s s.cur = some hs) (hr : ready s s.cur hs n = .go)
    (hb : body s.cur s (readSrcs s.cur n.srcs hs).2 (readSrcs s.cur n.srcs hs).1 = .park p) :
    issue s size n body = .next (parked s s.cur hs p none) := by
  simp [issue, h, hr, hb]

/-- A body that raises a cause at issue. -/
theorem issue_body_trap {c : Cause} {v : Word} (h : hartOf s s.cur = some hs) (hr : ready s s.cur hs n = .go)
    (hb : body s.cur s (readSrcs s.cur n.srcs hs).2 (readSrcs s.cur n.srcs hs).1 = .trap c v) :
    issue s size n body = .next (raiseIssue s s.cur hs c v false) := by
  simp [issue, h, hr, hb]

/-- A body that raises a cause whose instruction counts as issued. -/
theorem issue_body_trapIssued {c : Cause} {v : Word} (h : hartOf s s.cur = some hs) (hr : ready s s.cur hs n = .go)
    (hb : body s.cur s (readSrcs s.cur n.srcs hs).2 (readSrcs s.cur n.srcs hs).1 = .trapIssued c v) :
    issue s size n body = .next (raiseIssue s s.cur hs c v true) := by
  simp [issue, h, hr, hb]

/-- An instruction that is not ready parks. -/
theorem issue_park {p : Park} (h : hartOf s s.cur = some hs) (hr : ready s s.cur hs n = .park p) :
    issue s size n body = .next (parked s s.cur hs p (some n)) := by
  simp [issue, h, hr]

/-- An instruction that fails a check traps. -/
theorem issue_trap {c : Cause} {v : Word} (h : hartOf s s.cur = some hs) (hr : ready s s.cur hs n = .trap c v) :
    issue s size n body = .next (raiseIssue s s.cur hs c v false) := by
  simp [issue, h, hr]

/-- A memory operation that is no second remote one enters program order (R28). -/
theorem issueMem_done (h : Hart) (s : State) (hs : HartState) (p : Pending) (hr : (!secondRemote s hs (addMem s h hs p).2) = true) :
    issueMem h s hs p = .done (addMem s h hs p).1 (addMem s h hs p).2 := by
  simp only [Bool.not_eq_true'] at hr
  simp [issueMem, hr]

/-- Everything issue can answer: a next state, when there is a hart to issue; the fault noStrand, when there is none. -/
theorem issue_answers : (∃ t, issue s size n body = .next t) ∨ (hartOf s s.cur = none ∧ issue s size n body = .fault .noStrand) := by
  unfold issue
  cases hartOf s s.cur with
  | none => exact .inr ⟨rfl, rfl⟩
  | some x =>
    left
    simp only
    split <;> first | exact ⟨_, rfl⟩ | skip
    split <;> exact ⟨_, rfl⟩

/-- With a hart to issue, issue answers a next state. -/
theorem issue_next (h : (hartOf s s.cur).isSome = true) : ∃ t, issue s size n body = .next t := by
  rcases issue_answers (s := s) (size := size) (n := n) (body := body) with h1 | ⟨h1, _⟩
  · exact h1
  · simp [h1] at h

/-! What a completed instruction leaves. -/

@[simp] theorem noteIssue_mem (s : State) (h : Hart) : (noteIssue s h).mem = s.mem := by cases h <;> rfl
@[simp] theorem noteIssue_harts (s : State) (h : Hart) : (noteIssue s h).harts = s.harts := by cases h <;> rfl
@[simp] theorem noteIssue_modules (s : State) (h : Hart) : (noteIssue s h).modules = s.modules := by cases h <;> rfl
@[simp] theorem noteIssue_dies (s : State) (h : Hart) : (noteIssue s h).dies = s.dies := by cases h <;> rfl
@[simp] theorem noteIssue_stores (s : State) (h : Hart) : (noteIssue s h).stores = s.stores := by cases h <;> rfl
@[simp] theorem hartOf_noteIssue (s : State) (h k : Hart) : hartOf (noteIssue s h) k = hartOf s k := by cases h <;> rfl
theorem coreOf_noteIssue_other (s : State) (c n d : Nat) (h : d ≠ c) : coreOf (noteIssue s (.strand c n)) d = coreOf s d :=
  coreOf_setCore_other _ _ _ _ h

@[simp] theorem completed_mem (s s' : State) (hs' : HartState) (size : Nat) : (completed s s' hs' size).mem = s'.mem := by simp [completed]
@[simp] theorem completed_stores (s s' : State) (hs' : HartState) (size : Nat) : (completed s s' hs' size).stores = s'.stores := by
  simp [completed]
@[simp] theorem hartOf_completed (s s' : State) (hs' : HartState) (size : Nat) :
    hartOf (completed s s' hs' size) s.cur = some (afterIssue s hs' size none) := by simp [completed]
theorem hartOf_completed_other (s s' : State) (hs' : HartState) (size : Nat) (k : Hart) (hk : k ≠ s.cur) :
    hartOf (completed s s' hs' size) k = hartOf s' k := by
  simp [completed, hartOf_setHart_other _ _ _ _ hk]
@[simp] theorem jumped_mem (s s' : State) (hs' : HartState) (size : Nat) (t : Word) : (jumped s s' hs' size t).mem = s'.mem := by
  simp [jumped]

/-- Registers, status, control and trap registers are no part of issue itself. -/
theorem afterIssue_keeps (s : State) (hs : HartState) (size : Nat) (t : Option Word) :
    (afterIssue s hs size t).regs = hs.regs ∧ (afterIssue s hs size t).st = hs.st ∧ (afterIssue s hs size t).fp = hs.fp ∧
    (afterIssue s hs size t).mx = hs.mx ∧ (afterIssue s hs size t).trap = hs.trap ∧ (afterIssue s hs size t).ptbr = hs.ptbr ∧
    (afterIssue s hs size t).ports = hs.ports ∧ (afterIssue s hs size t).timecmp = hs.timecmp ∧
    (afterIssue s hs size t).id = hs.id ∧ (afterIssue s hs size t).run.ops = hs.run.ops := by
  cases t <;> simp [afterIssue, countIssue]

/-- The PC after an instruction outside a replay (R18). -/
theorem afterIssue_pc (s : State) (hs : HartState) (size : Nat) (h : hs.run.replay.todo = []) :
    (afterIssue s hs size none).pc = hs.pc + BitVec.ofNat 64 size := by
  simp [afterIssue, countIssue, h]

/-! Where issue goes on. -/

/-- The bytes that a request for code answers. -/
def CodeBlock.bits : CodeBlock → Option (BitVec 256)
  | .block b _ => some b
  | _ => none

/-- The version of a block that a core reads does not depend on what the harts hold. -/
theorem readBlock_setHart (s : State) (k h : Hart) (x : HartState) (pa : Nat) :
    (readBlock (setHart s k x) h pa).1 = (readBlock s h pa).1 := by
  cases h with
  | engine e => rfl
  | strand c n =>
    simp only [readBlock, hartCore]
    change (match assocGet (coreOf s c).icache pa with | none => _ | some old => _ : BitVec 256 × State).1 = _
    cases assocGet (coreOf s c).icache pa with
    | none => rfl
    | some old =>
      change (if old = memBlock s pa then _ else if Config.freeBool s.free = true then _ else _ : BitVec 256 × State).1 = _
      simp only
      split
      · rfl
      · split <;> rfl

theorem codeAt_setHart (s : State) (k h : Hart) (x : HartState) (req : Req) (pa : Nat) :
    (codeAt (setHart s k x) h req pa).bits = (codeAt s h req pa).bits := by
  have hb := readBlock_setHart s k h x pa
  have e1 : (!fetchable (setHart s k x) (hartModule h) pa || poisoned (setHart s k x) pa 32) = (!fetchable s (hartModule h) pa || poisoned s pa 32) := rfl
  have e2 : hostUnits (setHart s k x) .read (unitsOf (setHart s k x) pa 32 1) = hostUnits s .read (unitsOf s pa 32 1) := rfl
  simp only [codeAt, e1, e2]
  split
  · rfl
  · split
    · exact congrArg some hb
    · split
      · exact congrArg some hb
      · rfl

/-- The first instruction at an address does not depend on what the harts hold. -/
theorem skipPads_setHart (s : State) (k h : Hart) (x hs : HartState) (n : Nat) (pc : Word) :
    skipPads (setHart s k x) h hs n pc = skipPads s h hs n pc := by
  induction n generalizing pc with
  | zero => rfl
  | succ n ih =>
    have ht : translate (setHart s k x) h hs.ptbr hs.st.priv pc .exec = translate s h hs.ptbr hs.st.priv pc .exec := rfl
    simp only [skipPads, ht]
    split
    · rfl
    · split
      · rfl
      · rename_i p _
        have hc := codeAt_setHart s k h x (.fetch h) (p.pa / 32 * 32)
        cases ha : codeAt (setHart s k x) h (.fetch h) (p.pa / 32 * 32) <;> cases hb : codeAt s h (.fetch h) (p.pa / 32 * 32) <;>
          simp only [ha, hb, CodeBlock.bits, Option.some.injEq, reduceCtorEq] at hc
        · subst hc
          simp only
          split <;> first | rfl | exact ih _
        all_goals rfl

/-- Where issue goes on after a trap is what it was when the trap was found (R34). -/
theorem nextPc_setHart (s : State) (k h : Hart) (x hs : HartState) : nextPc (setHart s k x) h hs = nextPc s h hs := by
  simp only [nextPc, skipPads_setHart]

/-- The first instruction at an address depends on the hart's translation and level only. -/
theorem skipPads_run (s : State) (h : Hart) (hs : HartState) (r : RunState) (n : Nat) (pc : Word) :
    skipPads s h { hs with run := r } n pc = skipPads s h hs n pc := by
  induction n generalizing pc with
  | zero => rfl
  | succ n ih => simp only [skipPads, ih]

end Sys2Proof.Machine
end

