-- ==== Sys2Proof/Laws/Memory.lean ====
section
/-!
SUPPORT. Memory: read after write, and the canonical form, which every memory operation keeps.
-/

namespace Sys2Proof.Machine

/-! One byte. -/

theorem memWfFrom_mono (m : List Host.Cell) (lo lo' : Nat) (hl : lo' ≤ lo) (h : memWfFrom lo m = true) : memWfFrom lo' m = true := by
  cases m with
  | nil => rfl
  | cons c rest =>
    obtain ⟨a, b⟩ := c
    simp only [memWfFrom, Bool.and_eq_true, decide_eq_true_eq] at h ⊢
    exact ⟨⟨Nat.le_trans hl h.1.1, h.1.2⟩, h.2⟩

/-- Writing a byte keeps the canonical form above a bound. -/
theorem memWfFrom_memSet (m : List Host.Cell) (x : Nat) (v : Byte) (lo : Nat) (hx : lo ≤ x) (h : memWfFrom lo m = true) :
    memWfFrom lo (memSet m x v) = true := by
  induction m generalizing lo with
  | nil =>
    by_cases hv : v = unlisted
    · simp [memSet, hv, memWfFrom]
    · simp [memSet, hv, memWfFrom, hx]
  | cons c rest ih =>
    obtain ⟨a, b⟩ := c
    simp only [memWfFrom, Bool.and_eq_true, decide_eq_true_eq] at h
    obtain ⟨⟨h1, h2⟩, h3⟩ := h
    unfold memSet
    by_cases ha : a < x
    · simp only [ha, if_true, memWfFrom, Bool.and_eq_true, decide_eq_true_eq]
      exact ⟨⟨h1, h2⟩, ih (a + 1) (by omega) h3⟩
    · by_cases he : a = x
      · subst he
        by_cases hv : v = unlisted
        · simp only [ha, if_false, hv, if_true]
          exact memWfFrom_mono _ _ _ (by omega) h3
        · simp only [ha, if_false, hv, if_true, memWfFrom, Bool.and_eq_true, decide_eq_true_eq]
          exact ⟨⟨h1, hv⟩, h3⟩
      · by_cases hv : v = unlisted
        · simp only [ha, he, hv, if_false, if_true, memWfFrom, Bool.and_eq_true, decide_eq_true_eq]
          exact ⟨⟨h1, h2⟩, h3⟩
        · simp only [ha, he, hv, if_false, memWfFrom, Bool.and_eq_true, decide_eq_true_eq]
          exact ⟨⟨hx, hv⟩, ⟨by omega, h2⟩, h3⟩

theorem memWf_memSet (m : List Host.Cell) (x : Nat) (v : Byte) (h : memWf m = true) : memWf (memSet m x v) = true :=
  memWfFrom_memSet m x v 0 (Nat.zero_le _) h

/-- Below every listed address nothing is listed. -/
theorem memByte_below (m : List Host.Cell) (lo x : Nat) (hx : x < lo) (h : memWfFrom lo m = true) : memByte m x = unlisted := by
  induction m generalizing lo with
  | nil => rfl
  | cons c rest ih =>
    obtain ⟨a, b⟩ := c
    simp only [memWfFrom, Bool.and_eq_true, decide_eq_true_eq] at h
    have : a ≠ x := by omega
    simp only [memByte, this, if_false]
    exact ih (a + 1) (by omega) h.2

theorem memByte_memSet_sameFrom (m : List Host.Cell) (x : Nat) (v : Byte) (lo : Nat) (h : memWfFrom lo m = true) :
    memByte (memSet m x v) x = v := by
  induction m generalizing lo with
  | nil =>
    by_cases hv : v = unlisted
    · simp [memSet, hv, memByte]
    · simp [memSet, hv, memByte]
  | cons c rest ih =>
    obtain ⟨a, b⟩ := c
    simp only [memWfFrom, Bool.and_eq_true, decide_eq_true_eq] at h
    unfold memSet
    by_cases ha : a < x
    · have : a ≠ x := by omega
      simp only [ha, if_true, memByte, this, if_false]
      exact ih (a + 1) h.2
    · by_cases he : a = x
      · subst he
        by_cases hv : v = unlisted
        · simp only [ha, if_false, if_true, hv]
          exact memByte_below rest (a + 1) a (by omega) h.2
        · simp [hv, memByte]
      · by_cases hv : v = unlisted
        · simp only [ha, he, if_false, hv, if_true, memByte]
          exact memByte_below rest (a + 1) x (by omega) h.2
        · simp [ha, he, hv, memByte]

/-- A byte that was written is read. -/
theorem memByte_memSet_same (m : List Host.Cell) (x : Nat) (v : Byte) (h : memWf m = true) : memByte (memSet m x v) x = v :=
  memByte_memSet_sameFrom m x v 0 h

/-- Every other byte is as before. -/
theorem memByte_memSet_other (m : List Host.Cell) (x y : Nat) (v : Byte) (hy : y ≠ x) : memByte (memSet m x v) y = memByte m y := by
  induction m with
  | nil =>
    by_cases hv : v = unlisted
    · simp [memSet, hv]
    · simp [memSet, hv, memByte, Ne.symm hy]
  | cons c rest ih =>
    obtain ⟨a, b⟩ := c
    unfold memSet
    by_cases ha : a < x
    · by_cases hay : a = y
      · subst hay; simp [ha, memByte]
      · simp [ha, memByte, hay, ih]
    · by_cases he : a = x
      · subst he
        by_cases hv : v = unlisted
        · simp [hv, memByte, Ne.symm hy]
        · simp [hv, memByte, Ne.symm hy]
      · by_cases hv : v = unlisted
        · simp [ha, he, hv]
        · simp [ha, he, hv, memByte, Ne.symm hy]

/-! Runs of bytes. -/

theorem memWf_memSetBytes (bs : List Byte) (m : List Host.Cell) (x : Nat) (h : memWf m = true) : memWf (memSetBytes m x bs) = true := by
  induction bs generalizing m x with
  | nil => exact h
  | cons b rest ih => exact ih (memSet m x b) (x + 1) (memWf_memSet m x b h)

theorem memWf_memSetNat (m : List Host.Cell) (x n v : Nat) (h : memWf m = true) : memWf (memSetNat m x n v) = true :=
  memWf_memSetBytes _ _ _ h

/-- Outside the bytes written, memory reads as before. -/
theorem memByte_memSetBytes_outside (bs : List Byte) (m : List Host.Cell) (x y : Nat) (h : y < x ∨ x + bs.length ≤ y) :
    memByte (memSetBytes m x bs) y = memByte m y := by
  induction bs generalizing m x with
  | nil => rfl
  | cons b rest ih =>
    simp only [List.length_cons] at h
    simp only [memSetBytes]
    rw [ih (memSet m x b) (x + 1) (by omega)]
    exact memByte_memSet_other m x y b (by omega)

/-- A byte written by a run is read. -/
theorem memByte_memSetBytes_inside (bs : List Byte) (m : List Host.Cell) (x i : Nat) (hi : i < bs.length) (h : memWf m = true) :
    memByte (memSetBytes m x bs) (x + i) = bs[i] := by
  induction bs generalizing m x i with
  | nil => exact absurd hi (Nat.not_lt_zero _)
  | cons b rest ih =>
    cases i with
    | zero =>
      simp only [memSetBytes, Nat.add_zero, List.getElem_cons_zero]
      rw [memByte_memSetBytes_outside rest (memSet m x b) (x + 1) x (Or.inl (by omega))]
      exact memByte_memSet_same m x b h
    | succ j =>
      simp only [memSetBytes, List.getElem_cons_succ]
      have := ih (memSet m x b) (x + 1) j (by simpa using hi) (memWf_memSet m x b h)
      rwa [show x + 1 + j = x + (j + 1) by omega] at this

/-- Dropping entries keeps the canonical form. -/
theorem memWfFrom_filter (m : List Host.Cell) (f : Host.Cell → Bool) (lo : Nat) (h : memWfFrom lo m = true) :
    memWfFrom lo (m.filter f) = true := by
  induction m generalizing lo with
  | nil => rfl
  | cons c rest ih =>
    obtain ⟨a, b⟩ := c
    simp only [memWfFrom, Bool.and_eq_true, decide_eq_true_eq] at h
    by_cases hf : f (a, b) = true
    · simp only [List.filter, hf, memWfFrom, Bool.and_eq_true, decide_eq_true_eq]
      exact ⟨h.1, ih (a + 1) h.2⟩
    · simp only [List.filter, hf]
      exact ih lo (memWfFrom_mono rest (a + 1) lo (by omega) h.2)

theorem memWf_filter (m : List Host.Cell) (f : Host.Cell → Bool) (h : memWf m = true) : memWf (m.filter f) = true :=
  memWfFrom_filter m f 0 h

/-! Bytes of a number. -/

end Sys2Proof.Machine
end

