-- ==== Sys2Proof/Laws/PerInstr.lean ====
section
/-!
SUPPORT. Laws of every instruction, one lemma per constructor: `RoundTrip`, that the decoder reads the instruction back
from its own head (R16, R18, R40 to R44). A step of the hardware has no head.
-/

namespace Sys2Proof.Laws

/-- The head of a well-formed instruction decodes to the instruction, and holds its switch marker. -/
def RoundTrip.Statement (i : Instr) : Prop :=
  ∀ (sw : Bool) (h : Head), i.wellFormed = true → i.head sw = some h → decodeHead h = .ok i ∧ h.sw = sw

/-- A head that the opcode map reads as a well-formed instruction decodes to it. -/
theorem decodeHead_of_op {h : Head} {i : Instr} (hw : i.wellFormed = true) (ho : decodeOp h = some (some i)) :
    decodeHead h = .ok i := by
  simp [decodeHead, ho, hw]

theorem roundTrip_of_op {i : Instr}
    (hi : ∀ (sw : Bool) (h : Head), i.head sw = some h → decodeOp h = some (some i) ∧ h.sw = sw) :
    RoundTrip.Statement i := fun sw h hw hh => ⟨decodeHead_of_op hw (hi sw h hh).1, (hi sw h hh).2⟩

theorem roundTrip_of_none {i : Instr} (hi : ∀ sw, i.head sw = none) : RoundTrip.Statement i := by
  intro sw h _ hh
  rw [hi sw] at hh
  cases hh


theorem RoundTrip.add {x0 x1 x2} : RoundTrip.Statement (.add x0 x1 x2) := by
  refine roundTrip_of_op fun sw h hh => ?_
  cases Option.some.inj hh
  refine ⟨?_, rfl⟩
  refine Eq.trans (b := some (decAlu _)) rfl ?_
  simp only [decAlu, Src.dec_enc, Dst.dec_enc]
  rfl
theorem RoundTrip.sub {x0 x1 x2} : RoundTrip.Statement (.sub x0 x1 x2) := by
  refine roundTrip_of_op fun sw h hh => ?_
  cases Option.some.inj hh
  refine ⟨?_, rfl⟩
  refine Eq.trans (b := some (decAlu _)) rfl ?_
  simp only [decAlu, Src.dec_enc, Dst.dec_enc]
  rfl
theorem RoundTrip.mul {x0 x1 x2} : RoundTrip.Statement (.mul x0 x1 x2) := by
  refine roundTrip_of_op fun sw h hh => ?_
  cases Option.some.inj hh
  refine ⟨?_, rfl⟩
  refine Eq.trans (b := some (decAlu _)) rfl ?_
  simp only [decAlu, Src.dec_enc, Dst.dec_enc]
  rfl
theorem RoundTrip.mulhs {x0 x1 x2} : RoundTrip.Statement (.mulhs x0 x1 x2) := by
  refine roundTrip_of_op fun sw h hh => ?_
  cases Option.some.inj hh
  refine ⟨?_, rfl⟩
  refine Eq.trans (b := some (decAlu _)) rfl ?_
  simp only [decAlu, Src.dec_enc, Dst.dec_enc]
  rfl
theorem RoundTrip.and {x0 x1 x2} : RoundTrip.Statement (.and x0 x1 x2) := by
  refine roundTrip_of_op fun sw h hh => ?_
  cases Option.some.inj hh
  refine ⟨?_, rfl⟩
  refine Eq.trans (b := some (decAlu _)) rfl ?_
  simp only [decAlu, Src.dec_enc, Dst.dec_enc]
  rfl
theorem RoundTrip.or {x0 x1 x2} : RoundTrip.Statement (.or x0 x1 x2) := by
  refine roundTrip_of_op fun sw h hh => ?_
  cases Option.some.inj hh
  refine ⟨?_, rfl⟩
  refine Eq.trans (b := some (decAlu _)) rfl ?_
  simp only [decAlu, Src.dec_enc, Dst.dec_enc]
  rfl
theorem RoundTrip.xor {x0 x1 x2} : RoundTrip.Statement (.xor x0 x1 x2) := by
  refine roundTrip_of_op fun sw h hh => ?_
  cases Option.some.inj hh
  refine ⟨?_, rfl⟩
  refine Eq.trans (b := some (decAlu _)) rfl ?_
  simp only [decAlu, Src.dec_enc, Dst.dec_enc]
  rfl
theorem RoundTrip.andn {x0 x1 x2} : RoundTrip.Statement (.andn x0 x1 x2) := by
  refine roundTrip_of_op fun sw h hh => ?_
  cases Option.some.inj hh
  refine ⟨?_, rfl⟩
  refine Eq.trans (b := some (decAlu _)) rfl ?_
  simp only [decAlu, Src.dec_enc, Dst.dec_enc]
  rfl
theorem RoundTrip.shl {x0 x1 x2} : RoundTrip.Statement (.shl x0 x1 x2) := by
  refine roundTrip_of_op fun sw h hh => ?_
  cases Option.some.inj hh
  refine ⟨?_, rfl⟩
  refine Eq.trans (b := some (decAlu _)) rfl ?_
  simp only [decAlu, Src.dec_enc, Dst.dec_enc]
  rfl
theorem RoundTrip.shr {x0 x1 x2} : RoundTrip.Statement (.shr x0 x1 x2) := by
  refine roundTrip_of_op fun sw h hh => ?_
  cases Option.some.inj hh
  refine ⟨?_, rfl⟩
  refine Eq.trans (b := some (decAlu _)) rfl ?_
  simp only [decAlu, Src.dec_enc, Dst.dec_enc]
  rfl
theorem RoundTrip.sar {x0 x1 x2} : RoundTrip.Statement (.sar x0 x1 x2) := by
  refine roundTrip_of_op fun sw h hh => ?_
  cases Option.some.inj hh
  refine ⟨?_, rfl⟩
  refine Eq.trans (b := some (decAlu _)) rfl ?_
  simp only [decAlu, Src.dec_enc, Dst.dec_enc]
  rfl
theorem RoundTrip.rol {x0 x1 x2} : RoundTrip.Statement (.rol x0 x1 x2) := by
  refine roundTrip_of_op fun sw h hh => ?_
  cases Option.some.inj hh
  refine ⟨?_, rfl⟩
  refine Eq.trans (b := some (decAlu _)) rfl ?_
  simp only [decAlu, Src.dec_enc, Dst.dec_enc]
  rfl
theorem RoundTrip.ror {x0 x1 x2} : RoundTrip.Statement (.ror x0 x1 x2) := by
  refine roundTrip_of_op fun sw h hh => ?_
  cases Option.some.inj hh
  refine ⟨?_, rfl⟩
  refine Eq.trans (b := some (decAlu _)) rfl ?_
  simp only [decAlu, Src.dec_enc, Dst.dec_enc]
  rfl
theorem RoundTrip.min {x0 x1 x2} : RoundTrip.Statement (.min x0 x1 x2) := by
  refine roundTrip_of_op fun sw h hh => ?_
  cases Option.some.inj hh
  refine ⟨?_, rfl⟩
  refine Eq.trans (b := some (decAlu _)) rfl ?_
  simp only [decAlu, Src.dec_enc, Dst.dec_enc]
  rfl
theorem RoundTrip.max {x0 x1 x2} : RoundTrip.Statement (.max x0 x1 x2) := by
  refine roundTrip_of_op fun sw h hh => ?_
  cases Option.some.inj hh
  refine ⟨?_, rfl⟩
  refine Eq.trans (b := some (decAlu _)) rfl ?_
  simp only [decAlu, Src.dec_enc, Dst.dec_enc]
  rfl
theorem RoundTrip.minn {x0 x1 x2} : RoundTrip.Statement (.minn x0 x1 x2) := by
  refine roundTrip_of_op fun sw h hh => ?_
  cases Option.some.inj hh
  refine ⟨?_, rfl⟩
  refine Eq.trans (b := some (decAlu _)) rfl ?_
  simp only [decAlu, Src.dec_enc, Dst.dec_enc]
  rfl
theorem RoundTrip.maxn {x0 x1 x2} : RoundTrip.Statement (.maxn x0 x1 x2) := by
  refine roundTrip_of_op fun sw h hh => ?_
  cases Option.some.inj hh
  refine ⟨?_, rfl⟩
  refine Eq.trans (b := some (decAlu _)) rfl ?_
  simp only [decAlu, Src.dec_enc, Dst.dec_enc]
  rfl
theorem RoundTrip.mulhn {x0 x1 x2} : RoundTrip.Statement (.mulhn x0 x1 x2) := by
  refine roundTrip_of_op fun sw h hh => ?_
  cases Option.some.inj hh
  refine ⟨?_, rfl⟩
  refine Eq.trans (b := some (decAlu _)) rfl ?_
  simp only [decAlu, Src.dec_enc, Dst.dec_enc]
  rfl
theorem RoundTrip.addImm {x0 x1 x2} : RoundTrip.Statement (.addImm x0 x1 x2) := by
  refine roundTrip_of_op fun sw h hh => ?_
  cases Option.some.inj hh
  refine ⟨?_, rfl⟩
  refine Eq.trans (b := some (decAluImm _)) rfl ?_
  simp only [decAluImm, Src.dec_enc, Dst.dec_enc, Imm.dec_enc]
  rfl
theorem RoundTrip.subImm {x0 x1 x2} : RoundTrip.Statement (.subImm x0 x1 x2) := by
  refine roundTrip_of_op fun sw h hh => ?_
  cases Option.some.inj hh
  refine ⟨?_, rfl⟩
  refine Eq.trans (b := some (decAluImm _)) rfl ?_
  simp only [decAluImm, Src.dec_enc, Dst.dec_enc, Imm.dec_enc]
  rfl
theorem RoundTrip.mulImm {x0 x1 x2} : RoundTrip.Statement (.mulImm x0 x1 x2) := by
  refine roundTrip_of_op fun sw h hh => ?_
  cases Option.some.inj hh
  refine ⟨?_, rfl⟩
  refine Eq.trans (b := some (decAluImm _)) rfl ?_
  simp only [decAluImm, Src.dec_enc, Dst.dec_enc, Imm.dec_enc]
  rfl
theorem RoundTrip.mulhsImm {x0 x1 x2} : RoundTrip.Statement (.mulhsImm x0 x1 x2) := by
  refine roundTrip_of_op fun sw h hh => ?_
  cases Option.some.inj hh
  refine ⟨?_, rfl⟩
  refine Eq.trans (b := some (decAluImm _)) rfl ?_
  simp only [decAluImm, Src.dec_enc, Dst.dec_enc, Imm.dec_enc]
  rfl
theorem RoundTrip.andImm {x0 x1 x2} : RoundTrip.Statement (.andImm x0 x1 x2) := by
  refine roundTrip_of_op fun sw h hh => ?_
  cases Option.some.inj hh
  refine ⟨?_, rfl⟩
  refine Eq.trans (b := some (decAluImm _)) rfl ?_
  simp only [decAluImm, Src.dec_enc, Dst.dec_enc, Imm.dec_enc]
  rfl
theorem RoundTrip.orImm {x0 x1 x2} : RoundTrip.Statement (.orImm x0 x1 x2) := by
  refine roundTrip_of_op fun sw h hh => ?_
  cases Option.some.inj hh
  refine ⟨?_, rfl⟩
  refine Eq.trans (b := some (decAluImm _)) rfl ?_
  simp only [decAluImm, Src.dec_enc, Dst.dec_enc, Imm.dec_enc]
  rfl
theorem RoundTrip.xorImm {x0 x1 x2} : RoundTrip.Statement (.xorImm x0 x1 x2) := by
  refine roundTrip_of_op fun sw h hh => ?_
  cases Option.some.inj hh
  refine ⟨?_, rfl⟩
  refine Eq.trans (b := some (decAluImm _)) rfl ?_
  simp only [decAluImm, Src.dec_enc, Dst.dec_enc, Imm.dec_enc]
  rfl
theorem RoundTrip.andnImm {x0 x1 x2} : RoundTrip.Statement (.andnImm x0 x1 x2) := by
  refine roundTrip_of_op fun sw h hh => ?_
  cases Option.some.inj hh
  refine ⟨?_, rfl⟩
  refine Eq.trans (b := some (decAluImm _)) rfl ?_
  simp only [decAluImm, Src.dec_enc, Dst.dec_enc, Imm.dec_enc]
  rfl
theorem RoundTrip.shlImm {x0 x1 x2} : RoundTrip.Statement (.shlImm x0 x1 x2) := by
  refine roundTrip_of_op fun sw h hh => ?_
  cases Option.some.inj hh
  refine ⟨?_, rfl⟩
  refine Eq.trans (b := some (decAluImm _)) rfl ?_
  simp only [decAluImm, Src.dec_enc, Dst.dec_enc, Imm.dec_enc]
  rfl
theorem RoundTrip.shrImm {x0 x1 x2} : RoundTrip.Statement (.shrImm x0 x1 x2) := by
  refine roundTrip_of_op fun sw h hh => ?_
  cases Option.some.inj hh
  refine ⟨?_, rfl⟩
  refine Eq.trans (b := some (decAluImm _)) rfl ?_
  simp only [decAluImm, Src.dec_enc, Dst.dec_enc, Imm.dec_enc]
  rfl
theorem RoundTrip.sarImm {x0 x1 x2} : RoundTrip.Statement (.sarImm x0 x1 x2) := by
  refine roundTrip_of_op fun sw h hh => ?_
  cases Option.some.inj hh
  refine ⟨?_, rfl⟩
  refine Eq.trans (b := some (decAluImm _)) rfl ?_
  simp only [decAluImm, Src.dec_enc, Dst.dec_enc, Imm.dec_enc]
  rfl
theorem RoundTrip.rolImm {x0 x1 x2} : RoundTrip.Statement (.rolImm x0 x1 x2) := by
  refine roundTrip_of_op fun sw h hh => ?_
  cases Option.some.inj hh
  refine ⟨?_, rfl⟩
  refine Eq.trans (b := some (decAluImm _)) rfl ?_
  simp only [decAluImm, Src.dec_enc, Dst.dec_enc, Imm.dec_enc]
  rfl
theorem RoundTrip.rorImm {x0 x1 x2} : RoundTrip.Statement (.rorImm x0 x1 x2) := by
  refine roundTrip_of_op fun sw h hh => ?_
  cases Option.some.inj hh
  refine ⟨?_, rfl⟩
  refine Eq.trans (b := some (decAluImm _)) rfl ?_
  simp only [decAluImm, Src.dec_enc, Dst.dec_enc, Imm.dec_enc]
  rfl
theorem RoundTrip.minImm {x0 x1 x2} : RoundTrip.Statement (.minImm x0 x1 x2) := by
  refine roundTrip_of_op fun sw h hh => ?_
  cases Option.some.inj hh
  refine ⟨?_, rfl⟩
  refine Eq.trans (b := some (decAluImm _)) rfl ?_
  simp only [decAluImm, Src.dec_enc, Dst.dec_enc, Imm.dec_enc]
  rfl
theorem RoundTrip.maxImm {x0 x1 x2} : RoundTrip.Statement (.maxImm x0 x1 x2) := by
  refine roundTrip_of_op fun sw h hh => ?_
  cases Option.some.inj hh
  refine ⟨?_, rfl⟩
  refine Eq.trans (b := some (decAluImm _)) rfl ?_
  simp only [decAluImm, Src.dec_enc, Dst.dec_enc, Imm.dec_enc]
  rfl
theorem RoundTrip.minnImm {x0 x1 x2} : RoundTrip.Statement (.minnImm x0 x1 x2) := by
  refine roundTrip_of_op fun sw h hh => ?_
  cases Option.some.inj hh
  refine ⟨?_, rfl⟩
  refine Eq.trans (b := some (decAluImm _)) rfl ?_
  simp only [decAluImm, Src.dec_enc, Dst.dec_enc, Imm.dec_enc]
  rfl
theorem RoundTrip.maxnImm {x0 x1 x2} : RoundTrip.Statement (.maxnImm x0 x1 x2) := by
  refine roundTrip_of_op fun sw h hh => ?_
  cases Option.some.inj hh
  refine ⟨?_, rfl⟩
  refine Eq.trans (b := some (decAluImm _)) rfl ?_
  simp only [decAluImm, Src.dec_enc, Dst.dec_enc, Imm.dec_enc]
  rfl
theorem RoundTrip.mulhnImm {x0 x1 x2} : RoundTrip.Statement (.mulhnImm x0 x1 x2) := by
  refine roundTrip_of_op fun sw h hh => ?_
  cases Option.some.inj hh
  refine ⟨?_, rfl⟩
  refine Eq.trans (b := some (decAluImm _)) rfl ?_
  simp only [decAluImm, Src.dec_enc, Dst.dec_enc, Imm.dec_enc]
  rfl
theorem RoundTrip.cmpeq {x0 x1 x2} : RoundTrip.Statement (.cmpeq x0 x1 x2) := by
  refine roundTrip_of_op fun sw h hh => ?_
  cases Option.some.inj hh
  refine ⟨?_, rfl⟩
  refine Eq.trans (b := some (decCmp _)) rfl ?_
  simp only [decCmp, Src.dec_enc, Dst.dec_enc]
  rfl
theorem RoundTrip.cmpne {x0 x1 x2} : RoundTrip.Statement (.cmpne x0 x1 x2) := by
  refine roundTrip_of_op fun sw h hh => ?_
  cases Option.some.inj hh
  refine ⟨?_, rfl⟩
  refine Eq.trans (b := some (decCmp _)) rfl ?_
  simp only [decCmp, Src.dec_enc, Dst.dec_enc]
  rfl
theorem RoundTrip.cmplt {x0 x1 x2} : RoundTrip.Statement (.cmplt x0 x1 x2) := by
  refine roundTrip_of_op fun sw h hh => ?_
  cases Option.some.inj hh
  refine ⟨?_, rfl⟩
  refine Eq.trans (b := some (decCmp _)) rfl ?_
  simp only [decCmp, Src.dec_enc, Dst.dec_enc]
  rfl
theorem RoundTrip.cmple {x0 x1 x2} : RoundTrip.Statement (.cmple x0 x1 x2) := by
  refine roundTrip_of_op fun sw h hh => ?_
  cases Option.some.inj hh
  refine ⟨?_, rfl⟩
  refine Eq.trans (b := some (decCmp _)) rfl ?_
  simp only [decCmp, Src.dec_enc, Dst.dec_enc]
  rfl
theorem RoundTrip.cmpltn {x0 x1 x2} : RoundTrip.Statement (.cmpltn x0 x1 x2) := by
  refine roundTrip_of_op fun sw h hh => ?_
  cases Option.some.inj hh
  refine ⟨?_, rfl⟩
  refine Eq.trans (b := some (decCmp _)) rfl ?_
  simp only [decCmp, Src.dec_enc, Dst.dec_enc]
  rfl
theorem RoundTrip.cmplen {x0 x1 x2} : RoundTrip.Statement (.cmplen x0 x1 x2) := by
  refine roundTrip_of_op fun sw h hh => ?_
  cases Option.some.inj hh
  refine ⟨?_, rfl⟩
  refine Eq.trans (b := some (decCmp _)) rfl ?_
  simp only [decCmp, Src.dec_enc, Dst.dec_enc]
  rfl
theorem RoundTrip.cmpeqImm {x0 x1 x2} : RoundTrip.Statement (.cmpeqImm x0 x1 x2) := by
  refine roundTrip_of_op fun sw h hh => ?_
  cases Option.some.inj hh
  refine ⟨?_, rfl⟩
  refine Eq.trans (b := some (decCmpImm _)) rfl ?_
  simp only [decCmpImm, Src.dec_enc, Dst.dec_enc, Imm.dec_enc]
  rfl
theorem RoundTrip.cmpneImm {x0 x1 x2} : RoundTrip.Statement (.cmpneImm x0 x1 x2) := by
  refine roundTrip_of_op fun sw h hh => ?_
  cases Option.some.inj hh
  refine ⟨?_, rfl⟩
  refine Eq.trans (b := some (decCmpImm _)) rfl ?_
  simp only [decCmpImm, Src.dec_enc, Dst.dec_enc, Imm.dec_enc]
  rfl
theorem RoundTrip.cmpltImm {x0 x1 x2} : RoundTrip.Statement (.cmpltImm x0 x1 x2) := by
  refine roundTrip_of_op fun sw h hh => ?_
  cases Option.some.inj hh
  refine ⟨?_, rfl⟩
  refine Eq.trans (b := some (decCmpImm _)) rfl ?_
  simp only [decCmpImm, Src.dec_enc, Dst.dec_enc, Imm.dec_enc]
  rfl
theorem RoundTrip.cmpleImm {x0 x1 x2} : RoundTrip.Statement (.cmpleImm x0 x1 x2) := by
  refine roundTrip_of_op fun sw h hh => ?_
  cases Option.some.inj hh
  refine ⟨?_, rfl⟩
  refine Eq.trans (b := some (decCmpImm _)) rfl ?_
  simp only [decCmpImm, Src.dec_enc, Dst.dec_enc, Imm.dec_enc]
  rfl
theorem RoundTrip.cmpltnImm {x0 x1 x2} : RoundTrip.Statement (.cmpltnImm x0 x1 x2) := by
  refine roundTrip_of_op fun sw h hh => ?_
  cases Option.some.inj hh
  refine ⟨?_, rfl⟩
  refine Eq.trans (b := some (decCmpImm _)) rfl ?_
  simp only [decCmpImm, Src.dec_enc, Dst.dec_enc, Imm.dec_enc]
  rfl
theorem RoundTrip.cmplenImm {x0 x1 x2} : RoundTrip.Statement (.cmplenImm x0 x1 x2) := by
  refine roundTrip_of_op fun sw h hh => ?_
  cases Option.some.inj hh
  refine ⟨?_, rfl⟩
  refine Eq.trans (b := some (decCmpImm _)) rfl ?_
  simp only [decCmpImm, Src.dec_enc, Dst.dec_enc, Imm.dec_enc]
  rfl
theorem RoundTrip.sel {x0 x1 x2 x3} : RoundTrip.Statement (.sel x0 x1 x2 x3) := by
  refine roundTrip_of_op fun sw h hh => ?_
  cases Option.some.inj hh
  refine ⟨?_, rfl⟩
  refine Eq.trans (b := some (decSel _)) rfl ?_
  simp only [decSel, Src.dec_enc, Dst.dec_enc]
  rfl
theorem RoundTrip.bext {x0 x1 x2 x3} : RoundTrip.Statement (.bext x0 x1 x2 x3) := by
  refine roundTrip_of_op fun sw h hh => ?_
  cases Option.some.inj hh
  refine ⟨?_, rfl⟩
  refine Eq.trans (b := some (decBits _)) rfl ?_
  simp only [decBits, bits_field_high, bits_field_mid, bits_field_low, Src.dec_enc, Dst.dec_enc]
  rfl
theorem RoundTrip.bexts {x0 x1 x2 x3} : RoundTrip.Statement (.bexts x0 x1 x2 x3) := by
  refine roundTrip_of_op fun sw h hh => ?_
  cases Option.some.inj hh
  refine ⟨?_, rfl⟩
  refine Eq.trans (b := some (decBits _)) rfl ?_
  simp only [decBits, bits_field_high, bits_field_mid, bits_field_low, Src.dec_enc, Dst.dec_enc]
  rfl
theorem RoundTrip.bins {x0 x1 x2 x3 x4} : RoundTrip.Statement (.bins x0 x1 x2 x3 x4) := by
  refine roundTrip_of_op fun sw h hh => ?_
  cases Option.some.inj hh
  refine ⟨?_, rfl⟩
  refine Eq.trans (b := some (decBits _)) rfl ?_
  simp only [decBits, bits_field_high, bits_field_mid, bits_field_low, Src.dec_enc, Dst.dec_enc]
  rfl
theorem RoundTrip.clz {x0 x1} : RoundTrip.Statement (.clz x0 x1) := by
  refine roundTrip_of_op fun sw h hh => ?_
  cases Option.some.inj hh
  refine ⟨?_, rfl⟩
  refine Eq.trans (b := some (decBits _)) rfl ?_
  simp only [decBits, Src.dec_enc, Dst.dec_enc]
  rfl
theorem RoundTrip.ctz {x0 x1} : RoundTrip.Statement (.ctz x0 x1) := by
  refine roundTrip_of_op fun sw h hh => ?_
  cases Option.some.inj hh
  refine ⟨?_, rfl⟩
  refine Eq.trans (b := some (decBits _)) rfl ?_
  simp only [decBits, Src.dec_enc, Dst.dec_enc]
  rfl
theorem RoundTrip.popc {x0 x1} : RoundTrip.Statement (.popc x0 x1) := by
  refine roundTrip_of_op fun sw h hh => ?_
  cases Option.some.inj hh
  refine ⟨?_, rfl⟩
  refine Eq.trans (b := some (decBits _)) rfl ?_
  simp only [decBits, Src.dec_enc, Dst.dec_enc]
  rfl
theorem RoundTrip.brev {x0 x1} : RoundTrip.Statement (.brev x0 x1) := by
  refine roundTrip_of_op fun sw h hh => ?_
  cases Option.some.inj hh
  refine ⟨?_, rfl⟩
  refine Eq.trans (b := some (decBits _)) rfl ?_
  simp only [decBits, Src.dec_enc, Dst.dec_enc]
  rfl
theorem RoundTrip.bswap {x0 x1} : RoundTrip.Statement (.bswap x0 x1) := by
  refine roundTrip_of_op fun sw h hh => ?_
  cases Option.some.inj hh
  refine ⟨?_, rfl⟩
  refine Eq.trans (b := some (decBits _)) rfl ?_
  simp only [decBits, Src.dec_enc, Dst.dec_enc]
  rfl
theorem RoundTrip.div {x0 x1 x2} : RoundTrip.Statement (.div x0 x1 x2) := by
  refine roundTrip_of_op fun sw h hh => ?_
  cases Option.some.inj hh
  refine ⟨?_, rfl⟩
  refine Eq.trans (b := some (decDiv _)) rfl ?_
  simp only [decDiv, Src.dec_enc, Dst.dec_enc]
  rfl
theorem RoundTrip.divn {x0 x1 x2} : RoundTrip.Statement (.divn x0 x1 x2) := by
  refine roundTrip_of_op fun sw h hh => ?_
  cases Option.some.inj hh
  refine ⟨?_, rfl⟩
  refine Eq.trans (b := some (decDiv _)) rfl ?_
  simp only [decDiv, Src.dec_enc, Dst.dec_enc]
  rfl
theorem RoundTrip.rem {x0 x1 x2} : RoundTrip.Statement (.rem x0 x1 x2) := by
  refine roundTrip_of_op fun sw h hh => ?_
  cases Option.some.inj hh
  refine ⟨?_, rfl⟩
  refine Eq.trans (b := some (decDiv _)) rfl ?_
  simp only [decDiv, Src.dec_enc, Dst.dec_enc]
  rfl
theorem RoundTrip.remn {x0 x1 x2} : RoundTrip.Statement (.remn x0 x1 x2) := by
  refine roundTrip_of_op fun sw h hh => ?_
  cases Option.some.inj hh
  refine ⟨?_, rfl⟩
  refine Eq.trans (b := some (decDiv _)) rfl ?_
  simp only [decDiv, Src.dec_enc, Dst.dec_enc]
  rfl
theorem RoundTrip.rng {x0 x1 x2} : RoundTrip.Statement (.rng x0 x1 x2) := by
  refine roundTrip_of_op fun sw h hh => ?_
  cases Option.some.inj hh
  refine ⟨?_, rfl⟩
  refine Eq.trans (b := some (decRng _)) rfl ?_
  simp only [decRng, Src.dec_enc, Dst.dec_enc]
  rfl
theorem RoundTrip.rngf32 {x0 x1 x2} : RoundTrip.Statement (.rngf32 x0 x1 x2) := by
  refine roundTrip_of_op fun sw h hh => ?_
  cases Option.some.inj hh
  refine ⟨?_, rfl⟩
  refine Eq.trans (b := some (decRng _)) rfl ?_
  simp only [decRng, Src.dec_enc, Dst.dec_enc]
  rfl
theorem RoundTrip.rngf64 {x0 x1 x2} : RoundTrip.Statement (.rngf64 x0 x1 x2) := by
  refine roundTrip_of_op fun sw h hh => ?_
  cases Option.some.inj hh
  refine ⟨?_, rfl⟩
  refine Eq.trans (b := some (decRng _)) rfl ?_
  simp only [decRng, Src.dec_enc, Dst.dec_enc]
  rfl
theorem RoundTrip.empty {x0} : RoundTrip.Statement (.empty x0) := by
  refine roundTrip_of_op fun sw h hh => ?_
  cases Option.some.inj hh
  refine ⟨?_, rfl⟩
  refine Eq.trans (b := some (decFe _)) rfl ?_
  simp only [decFe, FeReg.dec_enc]
  rfl
theorem RoundTrip.fill {x0} : RoundTrip.Statement (.fill x0) := by
  refine roundTrip_of_op fun sw h hh => ?_
  cases Option.some.inj hh
  refine ⟨?_, rfl⟩
  refine Eq.trans (b := some (decFe _)) rfl ?_
  simp only [decFe, FeReg.dec_enc]
  rfl
theorem RoundTrip.isfull {x0 x1} : RoundTrip.Statement (.isfull x0 x1) := by
  refine roundTrip_of_op fun sw h hh => ?_
  cases Option.some.inj hh
  refine ⟨?_, rfl⟩
  refine Eq.trans (b := some (decFe _)) rfl ?_
  simp only [decFe, Dst.dec_enc, FeSrc.dec_enc]
  rfl
theorem RoundTrip.putr {x0 x1 x2 x3 x4} : RoundTrip.Statement (.putr x0 x1 x2 x3 x4) := by
  refine roundTrip_of_op fun sw h hh => ?_
  cases Option.some.inj hh
  refine ⟨?_, rfl⟩
  refine Eq.trans (b := some (decPutr _)) rfl ?_
  simp only [decPutr, Src.dec_enc, MemMod.dec_enc, modHi_enc, coordDec_coordExt]
  rfl
theorem RoundTrip.ldl {x0 x1} : RoundTrip.Statement (.ldl x0 x1) := by
  refine roundTrip_of_op fun sw h hh => ?_
  cases Option.some.inj hh
  refine ⟨?_, rfl⟩
  refine Eq.trans (b := some (decLdl _)) rfl ?_
  simp only [decLdl, gDec_gEnc]
  rfl
theorem RoundTrip.br {x0} : RoundTrip.Statement (.br x0) := by
  refine roundTrip_of_op fun sw h hh => ?_
  cases Option.some.inj hh
  refine ⟨?_, rfl⟩
  refine Eq.trans (b := some (decBr _)) rfl ?_
  simp only [decBr, Disp.dec_enc]
  rfl
theorem RoundTrip.bz {x0 x1} : RoundTrip.Statement (.bz x0 x1) := by
  refine roundTrip_of_op fun sw h hh => ?_
  cases Option.some.inj hh
  refine ⟨?_, rfl⟩
  refine Eq.trans (b := some (decCondBr _)) rfl ?_
  simp only [decCondBr, Src.dec_enc, Disp.dec_enc]
  rfl
theorem RoundTrip.bnz {x0 x1} : RoundTrip.Statement (.bnz x0 x1) := by
  refine roundTrip_of_op fun sw h hh => ?_
  cases Option.some.inj hh
  refine ⟨?_, rfl⟩
  refine Eq.trans (b := some (decCondBr _)) rfl ?_
  simp only [decCondBr, Src.dec_enc, Disp.dec_enc]
  rfl
theorem RoundTrip.bltz {x0 x1} : RoundTrip.Statement (.bltz x0 x1) := by
  refine roundTrip_of_op fun sw h hh => ?_
  cases Option.some.inj hh
  refine ⟨?_, rfl⟩
  refine Eq.trans (b := some (decCondBr _)) rfl ?_
  simp only [decCondBr, Src.dec_enc, Disp.dec_enc]
  rfl
theorem RoundTrip.bgez {x0 x1} : RoundTrip.Statement (.bgez x0 x1) := by
  refine roundTrip_of_op fun sw h hh => ?_
  cases Option.some.inj hh
  refine ⟨?_, rfl⟩
  refine Eq.trans (b := some (decCondBr _)) rfl ?_
  simp only [decCondBr, Src.dec_enc, Disp.dec_enc]
  rfl
theorem RoundTrip.call {x0 x1} : RoundTrip.Statement (.call x0 x1) := by
  refine roundTrip_of_op fun sw h hh => ?_
  cases Option.some.inj hh
  refine ⟨?_, rfl⟩
  refine Eq.trans (b := some (decCall _)) rfl ?_
  simp only [decCall, Disp.dec_enc, gDec_gEnc]
  rfl
theorem RoundTrip.jr {x0} : RoundTrip.Statement (.jr x0) := by
  refine roundTrip_of_op fun sw h hh => ?_
  cases Option.some.inj hh
  refine ⟨?_, rfl⟩
  refine Eq.trans (b := some (decIndirect _)) rfl ?_
  simp only [decIndirect, Src.dec_enc]
  rfl
theorem RoundTrip.callr {x0 x1} : RoundTrip.Statement (.callr x0 x1) := by
  refine roundTrip_of_op fun sw h hh => ?_
  cases Option.some.inj hh
  refine ⟨?_, rfl⟩
  refine Eq.trans (b := some (decIndirect _)) rfl ?_
  simp only [decIndirect, Src.dec_enc, gDec_gEnc]
  rfl
theorem RoundTrip.ret {x0} : RoundTrip.Statement (.ret x0) := by
  refine roundTrip_of_op fun sw h hh => ?_
  cases Option.some.inj hh
  refine ⟨?_, rfl⟩
  refine Eq.trans (b := some (decRet _)) rfl ?_
  simp only [decRet, Src.dec_enc]
  rfl
theorem RoundTrip.wait {x0} : RoundTrip.Statement (.wait x0) := by
  refine roundTrip_of_op fun sw h hh => ?_
  cases Option.some.inj hh
  refine ⟨?_, rfl⟩
  refine Eq.trans (b := some (decWait _)) rfl ?_
  simp only [decWait]
  rfl
theorem RoundTrip.ldN8 {x0 x1 x2 x3} : RoundTrip.Statement (.ldN8 x0 x1 x2 x3) := by
  refine roundTrip_of_op fun sw h hh => ?_
  cases Option.some.inj hh
  refine ⟨?_, rfl⟩
  refine Eq.trans (b := some (decLd _)) rfl ?_
  simp only [decLd, Src.dec_enc, Dst.dec_enc, Disp.dec_enc, MemMod.dec_enc, modHi_enc]
  rfl
theorem RoundTrip.ldN16 {x0 x1 x2 x3} : RoundTrip.Statement (.ldN16 x0 x1 x2 x3) := by
  refine roundTrip_of_op fun sw h hh => ?_
  cases Option.some.inj hh
  refine ⟨?_, rfl⟩
  refine Eq.trans (b := some (decLd _)) rfl ?_
  simp only [decLd, Src.dec_enc, Dst.dec_enc, Disp.dec_enc, MemMod.dec_enc, modHi_enc]
  rfl
theorem RoundTrip.ldN32 {x0 x1 x2 x3} : RoundTrip.Statement (.ldN32 x0 x1 x2 x3) := by
  refine roundTrip_of_op fun sw h hh => ?_
  cases Option.some.inj hh
  refine ⟨?_, rfl⟩
  refine Eq.trans (b := some (decLd _)) rfl ?_
  simp only [decLd, Src.dec_enc, Dst.dec_enc, Disp.dec_enc, MemMod.dec_enc, modHi_enc]
  rfl
theorem RoundTrip.ld {x0 x1 x2 x3} : RoundTrip.Statement (.ld x0 x1 x2 x3) := by
  refine roundTrip_of_op fun sw h hh => ?_
  cases Option.some.inj hh
  refine ⟨?_, rfl⟩
  refine Eq.trans (b := some (decLd _)) rfl ?_
  simp only [decLd, Src.dec_enc, Dst.dec_enc, Disp.dec_enc, MemMod.dec_enc, modHi_enc]
  rfl
theorem RoundTrip.ldS8 {x0 x1 x2 x3} : RoundTrip.Statement (.ldS8 x0 x1 x2 x3) := by
  refine roundTrip_of_op fun sw h hh => ?_
  cases Option.some.inj hh
  refine ⟨?_, rfl⟩
  refine Eq.trans (b := some (decLd _)) rfl ?_
  simp only [decLd, Src.dec_enc, Dst.dec_enc, Disp.dec_enc, MemMod.dec_enc, modHi_enc]
  rfl
theorem RoundTrip.ldS16 {x0 x1 x2 x3} : RoundTrip.Statement (.ldS16 x0 x1 x2 x3) := by
  refine roundTrip_of_op fun sw h hh => ?_
  cases Option.some.inj hh
  refine ⟨?_, rfl⟩
  refine Eq.trans (b := some (decLd _)) rfl ?_
  simp only [decLd, Src.dec_enc, Dst.dec_enc, Disp.dec_enc, MemMod.dec_enc, modHi_enc]
  rfl
theorem RoundTrip.ldS32 {x0 x1 x2 x3} : RoundTrip.Statement (.ldS32 x0 x1 x2 x3) := by
  refine roundTrip_of_op fun sw h hh => ?_
  cases Option.some.inj hh
  refine ⟨?_, rfl⟩
  refine Eq.trans (b := some (decLd _)) rfl ?_
  simp only [decLd, Src.dec_enc, Dst.dec_enc, Disp.dec_enc, MemMod.dec_enc, modHi_enc]
  rfl
theorem RoundTrip.windowLdN8 {x0 x1 x2 x3 x4 x5} : RoundTrip.Statement (.windowLdN8 x0 x1 x2 x3 x4 x5) := by
  refine roundTrip_of_op fun sw h hh => ?_
  cases Option.some.inj hh
  refine ⟨?_, rfl⟩
  refine Eq.trans (b := some (decWinLd _)) rfl ?_
  simp only [decWinLd, window_field_high, window_field_low, coordDec_x32, Src.dec_enc, Dst.dec_enc, MemMod.dec_enc, modHi_enc]
  rfl
theorem RoundTrip.windowLdN16 {x0 x1 x2 x3 x4 x5} : RoundTrip.Statement (.windowLdN16 x0 x1 x2 x3 x4 x5) := by
  refine roundTrip_of_op fun sw h hh => ?_
  cases Option.some.inj hh
  refine ⟨?_, rfl⟩
  refine Eq.trans (b := some (decWinLd _)) rfl ?_
  simp only [decWinLd, window_field_high, window_field_low, coordDec_x32, Src.dec_enc, Dst.dec_enc, MemMod.dec_enc, modHi_enc]
  rfl
theorem RoundTrip.windowLdN32 {x0 x1 x2 x3 x4 x5} : RoundTrip.Statement (.windowLdN32 x0 x1 x2 x3 x4 x5) := by
  refine roundTrip_of_op fun sw h hh => ?_
  cases Option.some.inj hh
  refine ⟨?_, rfl⟩
  refine Eq.trans (b := some (decWinLd _)) rfl ?_
  simp only [decWinLd, window_field_high, window_field_low, coordDec_x32, Src.dec_enc, Dst.dec_enc, MemMod.dec_enc, modHi_enc]
  rfl
theorem RoundTrip.windowLd {x0 x1 x2 x3 x4 x5} : RoundTrip.Statement (.windowLd x0 x1 x2 x3 x4 x5) := by
  refine roundTrip_of_op fun sw h hh => ?_
  cases Option.some.inj hh
  refine ⟨?_, rfl⟩
  refine Eq.trans (b := some (decWinLd _)) rfl ?_
  simp only [decWinLd, window_field_high, window_field_low, coordDec_x32, Src.dec_enc, Dst.dec_enc, MemMod.dec_enc, modHi_enc]
  rfl
theorem RoundTrip.windowLdS8 {x0 x1 x2 x3 x4 x5} : RoundTrip.Statement (.windowLdS8 x0 x1 x2 x3 x4 x5) := by
  refine roundTrip_of_op fun sw h hh => ?_
  cases Option.some.inj hh
  refine ⟨?_, rfl⟩
  refine Eq.trans (b := some (decWinLd _)) rfl ?_
  simp only [decWinLd, window_field_high, window_field_low, coordDec_x32, Src.dec_enc, Dst.dec_enc, MemMod.dec_enc, modHi_enc]
  rfl
theorem RoundTrip.windowLdS16 {x0 x1 x2 x3 x4 x5} : RoundTrip.Statement (.windowLdS16 x0 x1 x2 x3 x4 x5) := by
  refine roundTrip_of_op fun sw h hh => ?_
  cases Option.some.inj hh
  refine ⟨?_, rfl⟩
  refine Eq.trans (b := some (decWinLd _)) rfl ?_
  simp only [decWinLd, window_field_high, window_field_low, coordDec_x32, Src.dec_enc, Dst.dec_enc, MemMod.dec_enc, modHi_enc]
  rfl
theorem RoundTrip.windowLdS32 {x0 x1 x2 x3 x4 x5} : RoundTrip.Statement (.windowLdS32 x0 x1 x2 x3 x4 x5) := by
  refine roundTrip_of_op fun sw h hh => ?_
  cases Option.some.inj hh
  refine ⟨?_, rfl⟩
  refine Eq.trans (b := some (decWinLd _)) rfl ?_
  simp only [decWinLd, window_field_high, window_field_low, coordDec_x32, Src.dec_enc, Dst.dec_enc, MemMod.dec_enc, modHi_enc]
  rfl
theorem RoundTrip.ldbit {x0 x1 x2 x3 x4 x5} : RoundTrip.Statement (.ldbit x0 x1 x2 x3 x4 x5) := by
  refine roundTrip_of_op fun sw h hh => ?_
  cases Option.some.inj hh
  refine ⟨?_, rfl⟩
  refine Eq.trans (b := some (decLdbit _)) rfl ?_
  simp only [decLdbit, getLsbD_field _ 6, ldbit_field_high, ldbit_field_mid, ldbit_field_low, Src.dec_enc, Dst.dec_enc, MemMod.dec_enc, modHi_enc]
  cases x4 <;> rfl
theorem RoundTrip.stN8 {x0 x1 x2 x3} : RoundTrip.Statement (.stN8 x0 x1 x2 x3) := by
  refine roundTrip_of_op fun sw h hh => ?_
  cases Option.some.inj hh
  refine ⟨?_, rfl⟩
  refine Eq.trans (b := some (decSt _)) rfl ?_
  simp only [decSt, Src.dec_enc, Disp.dec_enc, MemMod.dec_enc, modHi_enc]
  rfl
theorem RoundTrip.stN16 {x0 x1 x2 x3} : RoundTrip.Statement (.stN16 x0 x1 x2 x3) := by
  refine roundTrip_of_op fun sw h hh => ?_
  cases Option.some.inj hh
  refine ⟨?_, rfl⟩
  refine Eq.trans (b := some (decSt _)) rfl ?_
  simp only [decSt, Src.dec_enc, Disp.dec_enc, MemMod.dec_enc, modHi_enc]
  rfl
theorem RoundTrip.stN32 {x0 x1 x2 x3} : RoundTrip.Statement (.stN32 x0 x1 x2 x3) := by
  refine roundTrip_of_op fun sw h hh => ?_
  cases Option.some.inj hh
  refine ⟨?_, rfl⟩
  refine Eq.trans (b := some (decSt _)) rfl ?_
  simp only [decSt, Src.dec_enc, Disp.dec_enc, MemMod.dec_enc, modHi_enc]
  rfl
theorem RoundTrip.st {x0 x1 x2 x3} : RoundTrip.Statement (.st x0 x1 x2 x3) := by
  refine roundTrip_of_op fun sw h hh => ?_
  cases Option.some.inj hh
  refine ⟨?_, rfl⟩
  refine Eq.trans (b := some (decSt _)) rfl ?_
  simp only [decSt, Src.dec_enc, Disp.dec_enc, MemMod.dec_enc, modHi_enc]
  rfl
theorem RoundTrip.stZ {x0 x1 x2} : RoundTrip.Statement (.stZ x0 x1 x2) := by
  refine roundTrip_of_op fun sw h hh => ?_
  cases Option.some.inj hh
  refine ⟨?_, rfl⟩
  refine Eq.trans (b := some (decSt _)) rfl ?_
  simp only [decSt, Src.dec_enc, Disp.dec_enc, MemMod.dec_enc, modHi_enc]
  rfl
theorem RoundTrip.windowStN8 {x0 x1 x2 x3 x4 x5} : RoundTrip.Statement (.windowStN8 x0 x1 x2 x3 x4 x5) := by
  refine roundTrip_of_op fun sw h hh => ?_
  cases Option.some.inj hh
  refine ⟨?_, rfl⟩
  refine Eq.trans (b := some (decWinSt _)) rfl ?_
  simp only [decWinSt, window_field_high, window_field_low, coordDec_x32, Src.dec_enc, MemMod.dec_enc, modHi_enc]
  rfl
theorem RoundTrip.windowStN16 {x0 x1 x2 x3 x4 x5} : RoundTrip.Statement (.windowStN16 x0 x1 x2 x3 x4 x5) := by
  refine roundTrip_of_op fun sw h hh => ?_
  cases Option.some.inj hh
  refine ⟨?_, rfl⟩
  refine Eq.trans (b := some (decWinSt _)) rfl ?_
  simp only [decWinSt, window_field_high, window_field_low, coordDec_x32, Src.dec_enc, MemMod.dec_enc, modHi_enc]
  rfl
theorem RoundTrip.windowStN32 {x0 x1 x2 x3 x4 x5} : RoundTrip.Statement (.windowStN32 x0 x1 x2 x3 x4 x5) := by
  refine roundTrip_of_op fun sw h hh => ?_
  cases Option.some.inj hh
  refine ⟨?_, rfl⟩
  refine Eq.trans (b := some (decWinSt _)) rfl ?_
  simp only [decWinSt, window_field_high, window_field_low, coordDec_x32, Src.dec_enc, MemMod.dec_enc, modHi_enc]
  rfl
theorem RoundTrip.windowSt {x0 x1 x2 x3 x4 x5} : RoundTrip.Statement (.windowSt x0 x1 x2 x3 x4 x5) := by
  refine roundTrip_of_op fun sw h hh => ?_
  cases Option.some.inj hh
  refine ⟨?_, rfl⟩
  refine Eq.trans (b := some (decWinSt _)) rfl ?_
  simp only [decWinSt, window_field_high, window_field_low, coordDec_x32, Src.dec_enc, MemMod.dec_enc, modHi_enc]
  rfl
theorem RoundTrip.windowStZ {x0 x1 x2 x3 x4} : RoundTrip.Statement (.windowStZ x0 x1 x2 x3 x4) := by
  refine roundTrip_of_op fun sw h hh => ?_
  cases Option.some.inj hh
  refine ⟨?_, rfl⟩
  refine Eq.trans (b := some (decWinSt _)) rfl ?_
  simp only [decWinSt, window_field_high, window_field_low, coordDec_x32, Src.dec_enc, MemMod.dec_enc, modHi_enc]
  rfl
theorem RoundTrip.stbit {x0 x1 x2 x3 x4} : RoundTrip.Statement (.stbit x0 x1 x2 x3 x4) := by
  refine roundTrip_of_op fun sw h hh => ?_
  cases Option.some.inj hh
  refine ⟨?_, rfl⟩
  refine Eq.trans (b := some (decStbit _)) rfl ?_
  simp only [decStbit, stbit_field_high, stbit_field_low, Src.dec_enc, MemMod.dec_enc, modHi_enc]
  rfl
theorem RoundTrip.take {x0 x1 x2} : RoundTrip.Statement (.take x0 x1 x2) := by
  refine roundTrip_of_op fun sw h hh => ?_
  have h' := Option.some.inj hh; clear hh
  refine ⟨?_, by subst h'; rfl⟩
  have hw' := WOp.dec_enc x1 h (by subst h'; rfl) (by subst h'; rfl) (by subst h'; rfl)
  have hd : decodeOp h = some (decFeWord h) := by subst h'; rfl
  rw [hd]; unfold decFeWord; rw [hw']; subst h'
  simp only [Dst.dec_enc, MemMod.dec_enc, modHi_enc]
  rfl
theorem RoundTrip.put {x0 x1 x2} : RoundTrip.Statement (.put x0 x1 x2) := by
  refine roundTrip_of_op fun sw h hh => ?_
  have h' := Option.some.inj hh; clear hh
  refine ⟨?_, by subst h'; rfl⟩
  have hw' := WOp.dec_enc x0 h (by subst h'; rfl) (by subst h'; rfl) (by subst h'; rfl)
  have hd : decodeOp h = some (decFeWord h) := by subst h'; rfl
  rw [hd]; unfold decFeWord; rw [hw']; subst h'
  simp only [Src.dec_enc, MemMod.dec_enc, modHi_enc]
  rfl
theorem RoundTrip.peek {x0 x1 x2} : RoundTrip.Statement (.peek x0 x1 x2) := by
  refine roundTrip_of_op fun sw h hh => ?_
  have h' := Option.some.inj hh; clear hh
  refine ⟨?_, by subst h'; rfl⟩
  have hw' := WOp.dec_enc x1 h (by subst h'; rfl) (by subst h'; rfl) (by subst h'; rfl)
  have hd : decodeOp h = some (decFeWord h) := by subst h'; rfl
  rw [hd]; unfold decFeWord; rw [hw']; subst h'
  simp only [Dst.dec_enc, MemMod.dec_enc, modHi_enc]
  rfl
theorem RoundTrip.fnc {x0} : RoundTrip.Statement (.fnc x0) := by
  refine roundTrip_of_op fun sw h hh => ?_
  cases Option.some.inj hh
  refine ⟨?_, rfl⟩
  refine Eq.trans (b := some (decFnc _)) rfl ?_
  simp only [decFnc, MemMod.dec_enc, modHi_enc]
  rfl
theorem RoundTrip.fncLt {x0} : RoundTrip.Statement (.fncLt x0) := by
  refine roundTrip_of_op fun sw h hh => ?_
  cases Option.some.inj hh
  refine ⟨?_, rfl⟩
  refine Eq.trans (b := some (decFnc _)) rfl ?_
  simp only [decFnc, MemMod.dec_enc, modHi_enc]
  rfl
theorem RoundTrip.fncHv {x0} : RoundTrip.Statement (.fncHv x0) := by
  refine roundTrip_of_op fun sw h hh => ?_
  cases Option.some.inj hh
  refine ⟨?_, rfl⟩
  refine Eq.trans (b := some (decFnc _)) rfl ?_
  simp only [decFnc, MemMod.dec_enc, modHi_enc]
  rfl
theorem RoundTrip.pref {x0 x1 x2} : RoundTrip.Statement (.pref x0 x1 x2) := by
  refine roundTrip_of_op fun sw h hh => ?_
  cases Option.some.inj hh
  refine ⟨?_, rfl⟩
  refine Eq.trans (b := some (decCache _)) rfl ?_
  simp only [decCache, Src.dec_enc, Disp.dec_enc, MemMod.dec_enc, modHi_enc]
  rfl
theorem RoundTrip.prefw {x0 x1 x2} : RoundTrip.Statement (.prefw x0 x1 x2) := by
  refine roundTrip_of_op fun sw h hh => ?_
  cases Option.some.inj hh
  refine ⟨?_, rfl⟩
  refine Eq.trans (b := some (decCache _)) rfl ?_
  simp only [decCache, Src.dec_enc, Disp.dec_enc, MemMod.dec_enc, modHi_enc]
  rfl
theorem RoundTrip.cflush {x0 x1 x2} : RoundTrip.Statement (.cflush x0 x1 x2) := by
  refine roundTrip_of_op fun sw h hh => ?_
  cases Option.some.inj hh
  refine ⟨?_, rfl⟩
  refine Eq.trans (b := some (decCache _)) rfl ?_
  simp only [decCache, Src.dec_enc, Disp.dec_enc, MemMod.dec_enc, modHi_enc]
  rfl
theorem RoundTrip.cinval {x0 x1 x2} : RoundTrip.Statement (.cinval x0 x1 x2) := by
  refine roundTrip_of_op fun sw h hh => ?_
  cases Option.some.inj hh
  refine ⟨?_, rfl⟩
  refine Eq.trans (b := some (decCache _)) rfl ?_
  simp only [decCache, Src.dec_enc, Disp.dec_enc, MemMod.dec_enc, modHi_enc]
  rfl
theorem RoundTrip.isync {x0} : RoundTrip.Statement (.isync x0) := by
  refine roundTrip_of_op fun sw h hh => ?_
  cases Option.some.inj hh
  refine ⟨?_, rfl⟩
  refine Eq.trans (b := some (decCache _)) rfl ?_
  simp only [decCache, MemMod.dec_enc, modHi_enc]
  rfl
theorem RoundTrip.tdecl {x0 x1 x2 x3 x4} : RoundTrip.Statement (.tdecl x0 x1 x2 x3 x4) := by
  refine roundTrip_of_op fun sw h hh => ?_
  cases Option.some.inj hh
  refine ⟨?_, rfl⟩
  refine Eq.trans (b := some (decTdecl _)) rfl ?_
  simp only [decTdecl, Src.dec_enc, Dst.dec_enc, MemMod.dec_enc, modHi_enc]
  rfl
theorem RoundTrip.tundecl {x0 x1 x2 x3} : RoundTrip.Statement (.tundecl x0 x1 x2 x3) := by
  refine roundTrip_of_op fun sw h hh => ?_
  cases Option.some.inj hh
  refine ⟨?_, rfl⟩
  refine Eq.trans (b := some (decTundecl _)) rfl ?_
  simp only [decTundecl, Src.dec_enc, Dst.dec_enc, MemMod.dec_enc, modHi_enc]
  rfl
theorem RoundTrip.tfwd {x0 x1 x2 x3 x4} : RoundTrip.Statement (.tfwd x0 x1 x2 x3 x4) := by
  refine roundTrip_of_op fun sw h hh => ?_
  cases x2 <;>
  (cases Option.some.inj hh
   refine ⟨?_, rfl⟩
   refine Eq.trans (b := some (decTfwd _)) rfl ?_
   simp only [decTfwd, Src.dec_enc, Dst.dec_enc, MemMod.dec_enc, modHi_enc, Coord.dec_enc]
   rfl)
theorem RoundTrip.mig {x0 x1 x2 x3} : RoundTrip.Statement (.mig x0 x1 x2 x3) := by
  refine roundTrip_of_op fun sw h hh => ?_
  cases Option.some.inj hh
  refine ⟨?_, rfl⟩
  refine Eq.trans (b := some (decMig _)) rfl ?_
  simp only [decMig, Src.dec_enc, Dst.dec_enc, Disp.dec_enc, MemMod.dec_enc, modHi_enc]
  rfl
theorem RoundTrip.swap {x0 x1 x2 x3 x4 x5} : RoundTrip.Statement (.swap x0 x1 x2 x3 x4 x5) := by
  refine roundTrip_of_op fun sw h hh => ?_
  cases Option.some.inj hh
  refine ⟨?_, rfl⟩
  refine Eq.trans (b := some (decAtomic _)) rfl ?_
  simp only [decAtomic, Src.dec_enc, Dst.dec_enc, Disp.dec_enc, MemMod.dec_enc, modHi_enc]
  rfl
theorem RoundTrip.cas {x0 x1 x2 x3 x4 x5 x6} : RoundTrip.Statement (.cas x0 x1 x2 x3 x4 x5 x6) := by
  refine roundTrip_of_op fun sw h hh => ?_
  cases Option.some.inj hh
  refine ⟨?_, rfl⟩
  refine Eq.trans (b := some (decAtomic _)) rfl ?_
  simp only [decAtomic, Src.dec_enc, Dst.dec_enc, Disp.dec_enc, MemMod.dec_enc, modHi_enc]
  rfl
theorem RoundTrip.aadd {x0 x1 x2 x3 x4 x5} : RoundTrip.Statement (.aadd x0 x1 x2 x3 x4 x5) := by
  refine roundTrip_of_op fun sw h hh => ?_
  cases Option.some.inj hh
  refine ⟨?_, rfl⟩
  refine Eq.trans (b := some (decAtomic _)) rfl ?_
  simp only [decAtomic, Src.dec_enc, Dst.dec_enc, Disp.dec_enc, MemMod.dec_enc, modHi_enc]
  rfl
theorem RoundTrip.aand {x0 x1 x2 x3 x4 x5} : RoundTrip.Statement (.aand x0 x1 x2 x3 x4 x5) := by
  refine roundTrip_of_op fun sw h hh => ?_
  cases Option.some.inj hh
  refine ⟨?_, rfl⟩
  refine Eq.trans (b := some (decAtomic _)) rfl ?_
  simp only [decAtomic, Src.dec_enc, Dst.dec_enc, Disp.dec_enc, MemMod.dec_enc, modHi_enc]
  rfl
theorem RoundTrip.aor {x0 x1 x2 x3 x4 x5} : RoundTrip.Statement (.aor x0 x1 x2 x3 x4 x5) := by
  refine roundTrip_of_op fun sw h hh => ?_
  cases Option.some.inj hh
  refine ⟨?_, rfl⟩
  refine Eq.trans (b := some (decAtomic _)) rfl ?_
  simp only [decAtomic, Src.dec_enc, Dst.dec_enc, Disp.dec_enc, MemMod.dec_enc, modHi_enc]
  rfl
theorem RoundTrip.axor {x0 x1 x2 x3 x4 x5} : RoundTrip.Statement (.axor x0 x1 x2 x3 x4 x5) := by
  refine roundTrip_of_op fun sw h hh => ?_
  cases Option.some.inj hh
  refine ⟨?_, rfl⟩
  refine Eq.trans (b := some (decAtomic _)) rfl ?_
  simp only [decAtomic, Src.dec_enc, Dst.dec_enc, Disp.dec_enc, MemMod.dec_enc, modHi_enc]
  rfl
theorem RoundTrip.amin {x0 x1 x2 x3 x4 x5} : RoundTrip.Statement (.amin x0 x1 x2 x3 x4 x5) := by
  refine roundTrip_of_op fun sw h hh => ?_
  cases Option.some.inj hh
  refine ⟨?_, rfl⟩
  refine Eq.trans (b := some (decAtomic _)) rfl ?_
  simp only [decAtomic, Src.dec_enc, Dst.dec_enc, Disp.dec_enc, MemMod.dec_enc, modHi_enc]
  rfl
theorem RoundTrip.amax {x0 x1 x2 x3 x4 x5} : RoundTrip.Statement (.amax x0 x1 x2 x3 x4 x5) := by
  refine roundTrip_of_op fun sw h hh => ?_
  cases Option.some.inj hh
  refine ⟨?_, rfl⟩
  refine Eq.trans (b := some (decAtomic _)) rfl ?_
  simp only [decAtomic, Src.dec_enc, Dst.dec_enc, Disp.dec_enc, MemMod.dec_enc, modHi_enc]
  rfl
theorem RoundTrip.aminn {x0 x1 x2 x3 x4 x5} : RoundTrip.Statement (.aminn x0 x1 x2 x3 x4 x5) := by
  refine roundTrip_of_op fun sw h hh => ?_
  cases Option.some.inj hh
  refine ⟨?_, rfl⟩
  refine Eq.trans (b := some (decAtomic _)) rfl ?_
  simp only [decAtomic, Src.dec_enc, Dst.dec_enc, Disp.dec_enc, MemMod.dec_enc, modHi_enc]
  rfl
theorem RoundTrip.amaxn {x0 x1 x2 x3 x4 x5} : RoundTrip.Statement (.amaxn x0 x1 x2 x3 x4 x5) := by
  refine roundTrip_of_op fun sw h hh => ?_
  cases Option.some.inj hh
  refine ⟨?_, rfl⟩
  refine Eq.trans (b := some (decAtomic _)) rfl ?_
  simp only [decAtomic, Src.dec_enc, Dst.dec_enc, Disp.dec_enc, MemMod.dec_enc, modHi_enc]
  rfl
theorem RoundTrip.afadd {x0 x1 x2 x3 x4 x5} : RoundTrip.Statement (.afadd x0 x1 x2 x3 x4 x5) := by
  refine roundTrip_of_op fun sw h hh => ?_
  cases Option.some.inj hh
  refine ⟨?_, rfl⟩
  refine Eq.trans (b := some (decAtomic _)) rfl ?_
  simp only [decAtomic, Src.dec_enc, Dst.dec_enc, Disp.dec_enc, MemMod.dec_enc, modHi_enc]
  rfl
theorem RoundTrip.reddecl {x0 x1 x2 x3} : RoundTrip.Statement (.reddecl x0 x1 x2 x3) := by
  refine roundTrip_of_op fun sw h hh => ?_
  cases Option.some.inj hh
  refine ⟨?_, rfl⟩
  refine Eq.trans (b := some (decReddecl _)) rfl ?_
  simp only [decReddecl, Src.dec_enc, MemMod.dec_enc, modHi_enc]
  rfl
theorem RoundTrip.redAdd {x0 x1 x2 x3 x4} : RoundTrip.Statement (.redAdd x0 x1 x2 x3 x4) := by
  refine roundTrip_of_op fun sw h hh => ?_
  cases Option.some.inj hh
  refine ⟨?_, rfl⟩
  refine Eq.trans (b := some (decRedAdd _)) rfl ?_
  simp only [decRedAdd, Src.dec_enc, MemMod.dec_enc, modHi_enc]
  rfl
theorem RoundTrip.redRd {x0 x1 x2 x3} : RoundTrip.Statement (.redRd x0 x1 x2 x3) := by
  refine roundTrip_of_op fun sw h hh => ?_
  cases Option.some.inj hh
  refine ⟨?_, rfl⟩
  refine Eq.trans (b := some (decRedRd _)) rfl ?_
  simp only [decRedRd, Src.dec_enc, Dst.dec_enc, MemMod.dec_enc, modHi_enc]
  rfl
theorem RoundTrip.binit {x0 x1 x2} : RoundTrip.Statement (.binit x0 x1 x2) := by
  refine roundTrip_of_op fun sw h hh => ?_
  have h' := Option.some.inj hh; clear hh
  refine ⟨?_, by subst h'; rfl⟩
  have hw' := WOp.dec_enc x0 h (by subst h'; rfl) (by subst h'; rfl) (by subst h'; rfl)
  have hd : decodeOp h = some (decBarrier h) := by subst h'; rfl
  rw [hd]; unfold decBarrier; rw [hw']; subst h'
  simp only [Src.dec_enc, MemMod.dec_enc, modHi_enc]
  rfl
theorem RoundTrip.barv {x0 x1 x2 x3} : RoundTrip.Statement (.barv x0 x1 x2 x3) := by
  refine roundTrip_of_op fun sw h hh => ?_
  have h' := Option.some.inj hh; clear hh
  refine ⟨?_, by subst h'; rfl⟩
  have hw' := WOp.dec_enc x1 h (by subst h'; rfl) (by subst h'; rfl) (by subst h'; rfl)
  have hd : decodeOp h = some (decBarrier h) := by subst h'; rfl
  rw [hd]; unfold decBarrier; rw [hw']; subst h'
  simp only [Src.dec_enc, Dst.dec_enc, MemMod.dec_enc, modHi_enc]
  rfl
theorem RoundTrip.bwait {x0 x1 x2 x3} : RoundTrip.Statement (.bwait x0 x1 x2 x3) := by
  refine roundTrip_of_op fun sw h hh => ?_
  have h' := Option.some.inj hh; clear hh
  refine ⟨?_, by subst h'; rfl⟩
  have hw' := WOp.dec_enc x1 h (by subst h'; rfl) (by subst h'; rfl) (by subst h'; rfl)
  have hd : decodeOp h = some (decBarrier h) := by subst h'; rfl
  rw [hd]; unfold decBarrier; rw [hw']; subst h'
  simp only [Src.dec_enc, Dst.dec_enc, MemMod.dec_enc, modHi_enc]
  rfl
theorem RoundTrip.btest {x0 x1 x2 x3} : RoundTrip.Statement (.btest x0 x1 x2 x3) := by
  refine roundTrip_of_op fun sw h hh => ?_
  have h' := Option.some.inj hh; clear hh
  refine ⟨?_, by subst h'; rfl⟩
  have hw' := WOp.dec_enc x1 h (by subst h'; rfl) (by subst h'; rfl) (by subst h'; rfl)
  have hd : decodeOp h = some (decBarrier h) := by subst h'; rfl
  rw [hd]; unfold decBarrier; rw [hw']; subst h'
  simp only [Src.dec_enc, Dst.dec_enc, MemMod.dec_enc, modHi_enc]
  rfl
theorem RoundTrip.propose {x0 x1 x2 x3 x4 x5} : RoundTrip.Statement (.propose x0 x1 x2 x3 x4 x5) := by
  refine roundTrip_of_op fun sw h hh => ?_
  cases Option.some.inj hh
  refine ⟨?_, rfl⟩
  refine Eq.trans (b := some (decPropose _)) rfl ?_
  simp only [decPropose, Src.dec_enc, pairDec_pairEnc, MemMod.dec_enc, modHi_enc]
  rfl
theorem RoundTrip.dread {x0 x1 x2 x3 x4} : RoundTrip.Statement (.dread x0 x1 x2 x3 x4) := by
  refine roundTrip_of_op fun sw h hh => ?_
  cases Option.some.inj hh
  refine ⟨?_, rfl⟩
  refine Eq.trans (b := some (decDread _)) rfl ?_
  simp only [decDread, Src.dec_enc, pairDec_pairEnc, MemMod.dec_enc, modHi_enc]
  rfl
theorem RoundTrip.dcell {x0 x1 x2 x3} : RoundTrip.Statement (.dcell x0 x1 x2 x3) := by
  refine roundTrip_of_op fun sw h hh => ?_
  cases Option.some.inj hh
  refine ⟨?_, rfl⟩
  refine Eq.trans (b := some (decDcell _)) rfl ?_
  simp only [decDcell, Src.dec_enc, MemMod.dec_enc, modHi_enc]
  rfl
theorem RoundTrip.recycle {x0 x1 x2 x3 x4} : RoundTrip.Statement (.recycle x0 x1 x2 x3 x4) := by
  refine roundTrip_of_op fun sw h hh => ?_
  cases Option.some.inj hh
  refine ⟨?_, rfl⟩
  refine Eq.trans (b := some (decRecycle _)) rfl ?_
  simp only [decRecycle, Src.dec_enc, Dst.dec_enc, MemMod.dec_enc, modHi_enc]
  rfl
theorem RoundTrip.vadd {x0 x1 x2 x3} : RoundTrip.Statement (.vadd x0 x1 x2 x3) := by
  refine roundTrip_of_op fun sw h hh => ?_
  cases Option.some.inj hh
  refine ⟨?_, rfl⟩
  refine Eq.trans (b := some (decVfp _)) rfl ?_
  simp only [decVfp, vecDec_vecEnc, FMod.dec_enc]
  rfl
theorem RoundTrip.vsub {x0 x1 x2 x3} : RoundTrip.Statement (.vsub x0 x1 x2 x3) := by
  refine roundTrip_of_op fun sw h hh => ?_
  cases Option.some.inj hh
  refine ⟨?_, rfl⟩
  refine Eq.trans (b := some (decVfp _)) rfl ?_
  simp only [decVfp, vecDec_vecEnc, FMod.dec_enc]
  rfl
theorem RoundTrip.vmul {x0 x1 x2 x3} : RoundTrip.Statement (.vmul x0 x1 x2 x3) := by
  refine roundTrip_of_op fun sw h hh => ?_
  cases Option.some.inj hh
  refine ⟨?_, rfl⟩
  refine Eq.trans (b := some (decVfp _)) rfl ?_
  simp only [decVfp, vecDec_vecEnc, FMod.dec_enc]
  rfl
theorem RoundTrip.vdiv {x0 x1 x2 x3} : RoundTrip.Statement (.vdiv x0 x1 x2 x3) := by
  refine roundTrip_of_op fun sw h hh => ?_
  cases Option.some.inj hh
  refine ⟨?_, rfl⟩
  refine Eq.trans (b := some (decVfp _)) rfl ?_
  simp only [decVfp, vecDec_vecEnc, FMod.dec_enc]
  rfl
theorem RoundTrip.vmin {x0 x1 x2 x3} : RoundTrip.Statement (.vmin x0 x1 x2 x3) := by
  refine roundTrip_of_op fun sw h hh => ?_
  cases Option.some.inj hh
  refine ⟨?_, rfl⟩
  refine Eq.trans (b := some (decVfp _)) rfl ?_
  simp only [decVfp, vecDec_vecEnc, fmtDec_fmtEnc]
  rfl
theorem RoundTrip.vmax {x0 x1 x2 x3} : RoundTrip.Statement (.vmax x0 x1 x2 x3) := by
  refine roundTrip_of_op fun sw h hh => ?_
  cases Option.some.inj hh
  refine ⟨?_, rfl⟩
  refine Eq.trans (b := some (decVfp _)) rfl ?_
  simp only [decVfp, vecDec_vecEnc, fmtDec_fmtEnc]
  rfl
theorem RoundTrip.vabs {x0 x1 x2} : RoundTrip.Statement (.vabs x0 x1 x2) := by
  refine roundTrip_of_op fun sw h hh => ?_
  cases Option.some.inj hh
  refine ⟨?_, rfl⟩
  refine Eq.trans (b := some (decVfp _)) rfl ?_
  simp only [decVfp, vecDec_vecEnc, fmtDec_fmtEnc]
  rfl
theorem RoundTrip.vneg {x0 x1 x2} : RoundTrip.Statement (.vneg x0 x1 x2) := by
  refine roundTrip_of_op fun sw h hh => ?_
  cases Option.some.inj hh
  refine ⟨?_, rfl⟩
  refine Eq.trans (b := some (decVfp _)) rfl ?_
  simp only [decVfp, vecDec_vecEnc, fmtDec_fmtEnc]
  rfl
theorem RoundTrip.vsqrt {x0 x1 x2} : RoundTrip.Statement (.vsqrt x0 x1 x2) := by
  refine roundTrip_of_op fun sw h hh => ?_
  cases Option.some.inj hh
  refine ⟨?_, rfl⟩
  refine Eq.trans (b := some (decVfp _)) rfl ?_
  simp only [decVfp, vecDec_vecEnc, FMod.dec_enc]
  rfl
theorem RoundTrip.vfma {x0 x1 x2 x3 x4} : RoundTrip.Statement (.vfma x0 x1 x2 x3 x4) := by
  refine roundTrip_of_op fun sw h hh => ?_
  cases Option.some.inj hh
  refine ⟨?_, rfl⟩
  refine Eq.trans (b := some (decVfma _)) rfl ?_
  simp only [decVfma, vecDec_vecEnc, FMod.dec_enc]
  rfl
theorem RoundTrip.vfms {x0 x1 x2 x3 x4} : RoundTrip.Statement (.vfms x0 x1 x2 x3 x4) := by
  refine roundTrip_of_op fun sw h hh => ?_
  cases Option.some.inj hh
  refine ⟨?_, rfl⟩
  refine Eq.trans (b := some (decVfma _)) rfl ?_
  simp only [decVfma, vecDec_vecEnc, FMod.dec_enc]
  rfl
theorem RoundTrip.vfnma {x0 x1 x2 x3 x4} : RoundTrip.Statement (.vfnma x0 x1 x2 x3 x4) := by
  refine roundTrip_of_op fun sw h hh => ?_
  cases Option.some.inj hh
  refine ⟨?_, rfl⟩
  refine Eq.trans (b := some (decVfma _)) rfl ?_
  simp only [decVfma, vecDec_vecEnc, FMod.dec_enc]
  rfl
theorem RoundTrip.vfnms {x0 x1 x2 x3 x4} : RoundTrip.Statement (.vfnms x0 x1 x2 x3 x4) := by
  refine roundTrip_of_op fun sw h hh => ?_
  cases Option.some.inj hh
  refine ⟨?_, rfl⟩
  refine Eq.trans (b := some (decVfma _)) rfl ?_
  simp only [decVfma, vecDec_vecEnc, FMod.dec_enc]
  rfl
theorem RoundTrip.viadd {x0 x1 x2 x3} : RoundTrip.Statement (.viadd x0 x1 x2 x3) := by
  refine roundTrip_of_op fun sw h hh => ?_
  cases Option.some.inj hh
  refine ⟨?_, rfl⟩
  refine Eq.trans (b := some (decVint _)) rfl ?_
  simp only [decVint, vecDec_vecEnc, fmtDec_fmtEnc]
  rfl
theorem RoundTrip.visub {x0 x1 x2 x3} : RoundTrip.Statement (.visub x0 x1 x2 x3) := by
  refine roundTrip_of_op fun sw h hh => ?_
  cases Option.some.inj hh
  refine ⟨?_, rfl⟩
  refine Eq.trans (b := some (decVint _)) rfl ?_
  simp only [decVint, vecDec_vecEnc, fmtDec_fmtEnc]
  rfl
theorem RoundTrip.vimul {x0 x1 x2 x3} : RoundTrip.Statement (.vimul x0 x1 x2 x3) := by
  refine roundTrip_of_op fun sw h hh => ?_
  cases Option.some.inj hh
  refine ⟨?_, rfl⟩
  refine Eq.trans (b := some (decVint _)) rfl ?_
  simp only [decVint, vecDec_vecEnc, fmtDec_fmtEnc]
  rfl
theorem RoundTrip.vand {x0 x1 x2 x3} : RoundTrip.Statement (.vand x0 x1 x2 x3) := by
  refine roundTrip_of_op fun sw h hh => ?_
  cases Option.some.inj hh
  refine ⟨?_, rfl⟩
  refine Eq.trans (b := some (decVint _)) rfl ?_
  simp only [decVint, vecDec_vecEnc, fmtDec_fmtEnc]
  rfl
theorem RoundTrip.vor {x0 x1 x2 x3} : RoundTrip.Statement (.vor x0 x1 x2 x3) := by
  refine roundTrip_of_op fun sw h hh => ?_
  cases Option.some.inj hh
  refine ⟨?_, rfl⟩
  refine Eq.trans (b := some (decVint _)) rfl ?_
  simp only [decVint, vecDec_vecEnc, fmtDec_fmtEnc]
  rfl
theorem RoundTrip.vxor {x0 x1 x2 x3} : RoundTrip.Statement (.vxor x0 x1 x2 x3) := by
  refine roundTrip_of_op fun sw h hh => ?_
  cases Option.some.inj hh
  refine ⟨?_, rfl⟩
  refine Eq.trans (b := some (decVint _)) rfl ?_
  simp only [decVint, vecDec_vecEnc, fmtDec_fmtEnc]
  rfl
theorem RoundTrip.vshl {x0 x1 x2 x3} : RoundTrip.Statement (.vshl x0 x1 x2 x3) := by
  refine roundTrip_of_op fun sw h hh => ?_
  cases Option.some.inj hh
  refine ⟨?_, rfl⟩
  refine Eq.trans (b := some (decVint _)) rfl ?_
  simp only [decVint, vecDec_vecEnc, fmtDec_fmtEnc]
  rfl
theorem RoundTrip.vshr {x0 x1 x2 x3} : RoundTrip.Statement (.vshr x0 x1 x2 x3) := by
  refine roundTrip_of_op fun sw h hh => ?_
  cases Option.some.inj hh
  refine ⟨?_, rfl⟩
  refine Eq.trans (b := some (decVint _)) rfl ?_
  simp only [decVint, vecDec_vecEnc, fmtDec_fmtEnc]
  rfl
theorem RoundTrip.vsar {x0 x1 x2 x3} : RoundTrip.Statement (.vsar x0 x1 x2 x3) := by
  refine roundTrip_of_op fun sw h hh => ?_
  cases Option.some.inj hh
  refine ⟨?_, rfl⟩
  refine Eq.trans (b := some (decVint _)) rfl ?_
  simp only [decVint, vecDec_vecEnc, fmtDec_fmtEnc]
  rfl
theorem RoundTrip.viadds {x0 x1 x2 x3} : RoundTrip.Statement (.viadds x0 x1 x2 x3) := by
  refine roundTrip_of_op fun sw h hh => ?_
  cases Option.some.inj hh
  refine ⟨?_, rfl⟩
  refine Eq.trans (b := some (decVint _)) rfl ?_
  simp only [decVint, vecDec_vecEnc, fmtDec_fmtEnc]
  rfl
theorem RoundTrip.vcmpeq {x0 x1 x2 x3} : RoundTrip.Statement (.vcmpeq x0 x1 x2 x3) := by
  refine roundTrip_of_op fun sw h hh => ?_
  cases Option.some.inj hh
  refine ⟨?_, rfl⟩
  refine Eq.trans (b := some (decVcmp _)) rfl ?_
  simp only [decVcmp, vecDec_vecEnc, fmtDec_fmtEnc]
  rfl
theorem RoundTrip.vcmplt {x0 x1 x2 x3} : RoundTrip.Statement (.vcmplt x0 x1 x2 x3) := by
  refine roundTrip_of_op fun sw h hh => ?_
  cases Option.some.inj hh
  refine ⟨?_, rfl⟩
  refine Eq.trans (b := some (decVcmp _)) rfl ?_
  simp only [decVcmp, vecDec_vecEnc, fmtDec_fmtEnc]
  rfl
theorem RoundTrip.vcmple {x0 x1 x2 x3} : RoundTrip.Statement (.vcmple x0 x1 x2 x3) := by
  refine roundTrip_of_op fun sw h hh => ?_
  cases Option.some.inj hh
  refine ⟨?_, rfl⟩
  refine Eq.trans (b := some (decVcmp _)) rfl ?_
  simp only [decVcmp, vecDec_vecEnc, fmtDec_fmtEnc]
  rfl
theorem RoundTrip.vsel {x0 x1 x2 x3 x4} : RoundTrip.Statement (.vsel x0 x1 x2 x3 x4) := by
  refine roundTrip_of_op fun sw h hh => ?_
  cases Option.some.inj hh
  refine ⟨?_, rfl⟩
  refine Eq.trans (b := some (decVcmp _)) rfl ?_
  simp only [decVcmp, vecDec_vecEnc, fmtDec_fmtEnc]
  rfl
theorem RoundTrip.vperm {x0 x1 x2 x3} : RoundTrip.Statement (.vperm x0 x1 x2 x3) := by
  refine roundTrip_of_op fun sw h hh => ?_
  cases Option.some.inj hh
  refine ⟨?_, rfl⟩
  refine Eq.trans (b := some (decVperm _)) rfl ?_
  simp only [decVperm, vecDec_vecEnc, fmtDec_fmtEnc]
  rfl
theorem RoundTrip.vbcast {x0 x1 x2} : RoundTrip.Statement (.vbcast x0 x1 x2) := by
  refine roundTrip_of_op fun sw h hh => ?_
  cases Option.some.inj hh
  refine ⟨?_, rfl⟩
  refine Eq.trans (b := some (decVperm _)) rfl ?_
  simp only [decVperm, Src.dec_enc, vecDec_vecEnc, fmtDec_fmtEnc]
  rfl
theorem RoundTrip.vext {x0 x1 x2 x3} : RoundTrip.Statement (.vext x0 x1 x2 x3) := by
  refine roundTrip_of_op fun sw h hh => ?_
  cases Option.some.inj hh
  refine ⟨?_, rfl⟩
  refine Eq.trans (b := some (decVperm _)) rfl ?_
  simp only [decVperm, byte_field_high, byte_field_low, Dst.dec_enc, vecDec_vecEnc, fmtDec_fmtEnc]
  rfl
theorem RoundTrip.vins {x0 x1 x2 x3 x4} : RoundTrip.Statement (.vins x0 x1 x2 x3 x4) := by
  refine roundTrip_of_op fun sw h hh => ?_
  cases Option.some.inj hh
  refine ⟨?_, rfl⟩
  refine Eq.trans (b := some (decVperm _)) rfl ?_
  simp only [decVperm, byte_field_high, byte_field_low, Src.dec_enc, vecDec_vecEnc, fmtDec_fmtEnc]
  rfl
theorem RoundTrip.vrsum {x0 x1 x2} : RoundTrip.Statement (.vrsum x0 x1 x2) := by
  refine roundTrip_of_op fun sw h hh => ?_
  cases Option.some.inj hh
  refine ⟨?_, rfl⟩
  refine Eq.trans (b := some (decVred _)) rfl ?_
  simp only [decVred, Dst.dec_enc, vecDec_vecEnc, FMod.dec_enc]
  rfl
theorem RoundTrip.vrmin {x0 x1 x2} : RoundTrip.Statement (.vrmin x0 x1 x2) := by
  refine roundTrip_of_op fun sw h hh => ?_
  cases Option.some.inj hh
  refine ⟨?_, rfl⟩
  refine Eq.trans (b := some (decVred _)) rfl ?_
  simp only [decVred, Dst.dec_enc, vecDec_vecEnc, fmtDec_fmtEnc]
  rfl
theorem RoundTrip.vrmax {x0 x1 x2} : RoundTrip.Statement (.vrmax x0 x1 x2) := by
  refine roundTrip_of_op fun sw h hh => ?_
  cases Option.some.inj hh
  refine ⟨?_, rfl⟩
  refine Eq.trans (b := some (decVred _)) rfl ?_
  simp only [decVred, Dst.dec_enc, vecDec_vecEnc, fmtDec_fmtEnc]
  rfl
theorem RoundTrip.vcvt {x0 x1 x2 x3} : RoundTrip.Statement (.vcvt x0 x1 x2 x3) := by
  refine roundTrip_of_op fun sw h hh => ?_
  cases Option.some.inj hh
  refine ⟨?_, rfl⟩
  refine Eq.trans (b := some (decVcvt _)) rfl ?_
  simp only [decVcvt, src_field_high, src_field_low, vecDec_vecEnc, FMod.dec_enc, Fmt.dec_enc]
  rfl
theorem RoundTrip.vnarrow {x0 x1 x2 x3 x4} : RoundTrip.Statement (.vnarrow x0 x1 x2 x3 x4) := by
  refine roundTrip_of_op fun sw h hh => ?_
  cases Option.some.inj hh
  refine ⟨?_, rfl⟩
  refine Eq.trans (b := some (decVcvt _)) rfl ?_
  simp only [decVcvt, src_field_high, src_field_low, vecDec_vecEnc, FMod.dec_enc, Fmt.dec_enc]
  rfl
theorem RoundTrip.vbdec {x0 x1 x2 x3} : RoundTrip.Statement (.vbdec x0 x1 x2 x3) := by
  refine roundTrip_of_op fun sw h hh => ?_
  cases Option.some.inj hh
  refine ⟨?_, rfl⟩
  refine Eq.trans (b := some (decBlock _)) rfl ?_
  simp only [decBlock, Src.dec_enc, vecDec_vecEnc]
  rfl
theorem RoundTrip.vbenc {x0 x1 x2 x3 x4} : RoundTrip.Statement (.vbenc x0 x1 x2 x3 x4) := by
  refine roundTrip_of_op fun sw h hh => ?_
  cases Option.some.inj hh
  refine ⟨?_, rfl⟩
  refine Eq.trans (b := some (decBlock _)) rfl ?_
  simp only [decBlock, rnd_field_high, rnd_field_low, Src.dec_enc, vecDec_vecEnc, Rnd.dec_enc]
  rfl
theorem RoundTrip.vld {x0 x1 x2 x3} : RoundTrip.Statement (.vld x0 x1 x2 x3) := by
  refine roundTrip_of_op fun sw h hh => ?_
  cases Option.some.inj hh
  refine ⟨?_, rfl⟩
  refine Eq.trans (b := some (decVmem _)) rfl ?_
  simp only [decVmem, Src.dec_enc, Disp.dec_enc, vecDec_vecEnc, MemMod.dec_enc, modHi_enc]
  rfl
theorem RoundTrip.vst {x0 x1 x2 x3} : RoundTrip.Statement (.vst x0 x1 x2 x3) := by
  refine roundTrip_of_op fun sw h hh => ?_
  cases Option.some.inj hh
  refine ⟨?_, rfl⟩
  refine Eq.trans (b := some (decVmem _)) rfl ?_
  simp only [decVmem, Src.dec_enc, Disp.dec_enc, vecDec_vecEnc, MemMod.dec_enc, modHi_enc]
  rfl
theorem RoundTrip.vgath {x0 x1 x2 x3 x4} : RoundTrip.Statement (.vgath x0 x1 x2 x3 x4) := by
  refine roundTrip_of_op fun sw h hh => ?_
  cases Option.some.inj hh
  refine ⟨?_, rfl⟩
  refine Eq.trans (b := some (decVgath _)) rfl ?_
  have e := i16_toNat x3 (by omega)
  have hb : (BitVec.ofNat 16 x3.val).toNat < 3 := by rw [e]; exact x3.isLt
  simp only [decVgath, dif_pos hb, Src.dec_enc, vecDec_vecEnc, MemMod.dec_enc, modHi_enc]
  simp only [e]; rfl
theorem RoundTrip.vscat {x0 x1 x2 x3 x4} : RoundTrip.Statement (.vscat x0 x1 x2 x3 x4) := by
  refine roundTrip_of_op fun sw h hh => ?_
  cases Option.some.inj hh
  refine ⟨?_, rfl⟩
  refine Eq.trans (b := some (decVgath _)) rfl ?_
  have e := i16_toNat x3 (by omega)
  have hb : (BitVec.ofNat 16 x3.val).toNat < 3 := by rw [e]; exact x3.isLt
  simp only [decVgath, dif_pos hb, Src.dec_enc, vecDec_vecEnc, MemMod.dec_enc, modHi_enc]
  simp only [e]; rfl
theorem RoundTrip.vexp2 {x0 x1 x2} : RoundTrip.Statement (.vexp2 x0 x1 x2) := by
  refine roundTrip_of_op fun sw h hh => ?_
  cases Option.some.inj hh
  refine ⟨?_, rfl⟩
  refine Eq.trans (b := some (decVsf _)) rfl ?_
  simp only [decVsf, vecDec_vecEnc, FMod.dec_enc]
  rfl
theorem RoundTrip.vlog2 {x0 x1 x2} : RoundTrip.Statement (.vlog2 x0 x1 x2) := by
  refine roundTrip_of_op fun sw h hh => ?_
  cases Option.some.inj hh
  refine ⟨?_, rfl⟩
  refine Eq.trans (b := some (decVsf _)) rfl ?_
  simp only [decVsf, vecDec_vecEnc, FMod.dec_enc]
  rfl
theorem RoundTrip.vrcp {x0 x1 x2} : RoundTrip.Statement (.vrcp x0 x1 x2) := by
  refine roundTrip_of_op fun sw h hh => ?_
  cases Option.some.inj hh
  refine ⟨?_, rfl⟩
  refine Eq.trans (b := some (decVsf _)) rfl ?_
  simp only [decVsf, vecDec_vecEnc, FMod.dec_enc]
  rfl
theorem RoundTrip.vrsq {x0 x1 x2} : RoundTrip.Statement (.vrsq x0 x1 x2) := by
  refine roundTrip_of_op fun sw h hh => ?_
  cases Option.some.inj hh
  refine ⟨?_, rfl⟩
  refine Eq.trans (b := some (decVsf _)) rfl ?_
  simp only [decVsf, vecDec_vecEnc, FMod.dec_enc]
  rfl
theorem RoundTrip.vtanh {x0 x1 x2} : RoundTrip.Statement (.vtanh x0 x1 x2) := by
  refine roundTrip_of_op fun sw h hh => ?_
  cases Option.some.inj hh
  refine ⟨?_, rfl⟩
  refine Eq.trans (b := some (decVsf _)) rfl ?_
  simp only [decVsf, vecDec_vecEnc, FMod.dec_enc]
  rfl
theorem RoundTrip.vrng {x0 x1 x2} : RoundTrip.Statement (.vrng x0 x1 x2) := by
  refine roundTrip_of_op fun sw h hh => ?_
  cases Option.some.inj hh
  refine ⟨?_, rfl⟩
  refine Eq.trans (b := some (decVrng _)) rfl ?_
  simp only [decVrng, Src.dec_enc, vecDec_vecEnc]
  rfl
theorem RoundTrip.vrngf32 {x0 x1 x2} : RoundTrip.Statement (.vrngf32 x0 x1 x2) := by
  refine roundTrip_of_op fun sw h hh => ?_
  cases Option.some.inj hh
  refine ⟨?_, rfl⟩
  refine Eq.trans (b := some (decVrng _)) rfl ?_
  simp only [decVrng, Src.dec_enc, vecDec_vecEnc]
  rfl
theorem RoundTrip.vrngf64 {x0 x1 x2} : RoundTrip.Statement (.vrngf64 x0 x1 x2) := by
  refine roundTrip_of_op fun sw h hh => ?_
  cases Option.some.inj hh
  refine ⟨?_, rfl⟩
  refine Eq.trans (b := some (decVrng _)) rfl ?_
  simp only [decVrng, Src.dec_enc, vecDec_vecEnc]
  rfl
theorem RoundTrip.tshape {x0 x1} : RoundTrip.Statement (.tshape x0 x1) := by
  refine roundTrip_of_op fun sw h hh => ?_
  cases x1 <;>
  (cases Option.some.inj hh
   refine ⟨?_, rfl⟩
   refine Eq.trans (b := some (decTshape _)) rfl ?_
   simp only [decTshape, Src.dec_enc, tileDec_tileEnc]
   rfl)
theorem RoundTrip.tzero {x0} : RoundTrip.Statement (.tzero x0) := by
  refine roundTrip_of_op fun sw h hh => ?_
  cases Option.some.inj hh
  refine ⟨?_, rfl⟩
  refine Eq.trans (b := some (decTzero _)) rfl ?_
  simp only [decTzero, tileDec_tileEnc]
  rfl
theorem RoundTrip.tld {x0 x1 x2 x3 x4} : RoundTrip.Statement (.tld x0 x1 x2 x3 x4) := by
  refine roundTrip_of_op fun sw h hh => ?_
  cases Option.some.inj hh
  refine ⟨?_, rfl⟩
  refine Eq.trans (b := some (decTld _)) rfl ?_
  simp only [decTld, Src.dec_enc, Disp.dec_enc, tileDec_tileEnc, MemMod.dec_enc, modHi_enc]
  rfl
theorem RoundTrip.tldBlk {x0 x1 x2 x3 x4 x5} : RoundTrip.Statement (.tldBlk x0 x1 x2 x3 x4 x5) := by
  refine roundTrip_of_op fun sw h hh => ?_
  cases Option.some.inj hh
  refine ⟨?_, rfl⟩
  refine Eq.trans (b := some (decTld _)) rfl ?_
  simp only [decTld, Src.dec_enc, Disp.dec_enc, tileDec_tileEnc, MemMod.dec_enc, modHi_enc]
  rfl
theorem RoundTrip.tst {x0 x1 x2 x3 x4} : RoundTrip.Statement (.tst x0 x1 x2 x3 x4) := by
  refine roundTrip_of_op fun sw h hh => ?_
  cases Option.some.inj hh
  refine ⟨?_, rfl⟩
  refine Eq.trans (b := some (decTst _)) rfl ?_
  simp only [decTst, Src.dec_enc, Disp.dec_enc, tileDec_tileEnc, MemMod.dec_enc, modHi_enc]
  rfl
theorem RoundTrip.trowv {x0 x1 x2 x3 x4} : RoundTrip.Statement (.trowv x0 x1 x2 x3 x4) := by
  refine roundTrip_of_op fun sw h hh => ?_
  cases Option.some.inj hh
  refine ⟨?_, rfl⟩
  refine Eq.trans (b := some (decSlice _)) rfl ?_
  simp only [decSlice, byte_field_high, byte_field_low, Src.dec_enc, vecDec_vecEnc, tileDec_tileEnc, FMod.dec_enc]
  rfl
theorem RoundTrip.tcolv {x0 x1 x2 x3 x4} : RoundTrip.Statement (.tcolv x0 x1 x2 x3 x4) := by
  refine roundTrip_of_op fun sw h hh => ?_
  cases Option.some.inj hh
  refine ⟨?_, rfl⟩
  refine Eq.trans (b := some (decSlice _)) rfl ?_
  simp only [decSlice, byte_field_high, byte_field_low, Src.dec_enc, vecDec_vecEnc, tileDec_tileEnc, FMod.dec_enc]
  rfl
theorem RoundTrip.vtrow {x0 x1 x2 x3 x4} : RoundTrip.Statement (.vtrow x0 x1 x2 x3 x4) := by
  refine roundTrip_of_op fun sw h hh => ?_
  cases Option.some.inj hh
  refine ⟨?_, rfl⟩
  refine Eq.trans (b := some (decSlice _)) rfl ?_
  simp only [decSlice, byte_field_high, byte_field_low, Src.dec_enc, vecDec_vecEnc, tileDec_tileEnc, FMod.dec_enc]
  rfl
theorem RoundTrip.vtcol {x0 x1 x2 x3 x4} : RoundTrip.Statement (.vtcol x0 x1 x2 x3 x4) := by
  refine roundTrip_of_op fun sw h hh => ?_
  cases Option.some.inj hh
  refine ⟨?_, rfl⟩
  refine Eq.trans (b := some (decSlice _)) rfl ?_
  simp only [decSlice, byte_field_high, byte_field_low, Src.dec_enc, vecDec_vecEnc, tileDec_tileEnc, FMod.dec_enc]
  rfl
theorem RoundTrip.mma {x0 x1 x2 x3 x4} : RoundTrip.Statement (.mma x0 x1 x2 x3 x4) := by
  refine roundTrip_of_op fun sw h hh => ?_
  cases Option.some.inj hh
  refine ⟨?_, rfl⟩
  refine Eq.trans (b := some (decMma _)) rfl ?_
  simp only [decMma, getLsbD_field _ 2, scale_field_high, scale_field_mid, scale_field_low, tileDec_tileEnc]
  cases x4 <;> rfl
theorem RoundTrip.mmau {x0 x1 x2 x3 x4} : RoundTrip.Statement (.mmau x0 x1 x2 x3 x4) := by
  refine roundTrip_of_op fun sw h hh => ?_
  cases Option.some.inj hh
  refine ⟨?_, rfl⟩
  refine Eq.trans (b := some (decMmau _)) rfl ?_
  simp only [decMmau, getLsbD_field _ 2, scale_field_high, scale_field_mid, scale_field_low, Src.dec_enc, tileDec_tileEnc]
  cases x4 <;> rfl
theorem RoundTrip.cbload {x0 x1 x2 x3} : RoundTrip.Statement (.cbload x0 x1 x2 x3) := by
  refine roundTrip_of_op fun sw h hh => ?_
  cases Option.some.inj hh
  refine ⟨?_, rfl⟩
  refine Eq.trans (b := some (decCbload _)) rfl ?_
  simp only [decCbload, Src.dec_enc, Disp.dec_enc, setDec_setEnc, MemMod.dec_enc, modHi_enc]
  rfl
theorem RoundTrip.mucode {x0} : RoundTrip.Statement (.mucode x0) := by
  refine roundTrip_of_op fun sw h hh => ?_
  cases Option.some.inj hh
  refine ⟨?_, rfl⟩
  refine Eq.trans (b := some (decMucode _)) rfl ?_
  simp only [decMucode, Src.dec_enc]
  rfl
theorem RoundTrip.mmar {x0 x1 x2} : RoundTrip.Statement (.mmar x0 x1 x2) := by
  refine roundTrip_of_op fun sw h hh => ?_
  cases Option.some.inj hh
  refine ⟨?_, rfl⟩
  refine Eq.trans (b := some (decMmar _)) rfl ?_
  simp only [decMmar, tileDec_tileEnc]
  rfl
theorem RoundTrip.mcmd {x0 x1 x2 x3 x4 x5 x6} : RoundTrip.Statement (.mcmd x0 x1 x2 x3 x4 x5 x6) := by
  refine roundTrip_of_op fun sw h hh => ?_
  cases Option.some.inj hh
  refine ⟨?_, rfl⟩
  refine Eq.trans (b := some (decMcmd _)) rfl ?_
  simp only [decMcmd, Src.dec_enc, Dst.dec_enc, MemMod.dec_enc, modHi_enc, coordDec_coordExt]
  rfl
theorem RoundTrip.msave {x0 x1 x2 x3} : RoundTrip.Statement (.msave x0 x1 x2 x3) := by
  refine roundTrip_of_op fun sw h hh => ?_
  cases Option.some.inj hh
  refine ⟨?_, rfl⟩
  refine Eq.trans (b := some (decMsave _)) rfl ?_
  simp only [decMsave, Src.dec_enc, Disp.dec_enc, MemMod.dec_enc, modHi_enc]
  rfl
theorem RoundTrip.mrestore {x0 x1 x2 x3} : RoundTrip.Statement (.mrestore x0 x1 x2 x3) := by
  refine roundTrip_of_op fun sw h hh => ?_
  cases Option.some.inj hh
  refine ⟨?_, rfl⟩
  refine Eq.trans (b := some (decMrestore _)) rfl ?_
  simp only [decMrestore, Src.dec_enc, Disp.dec_enc, MemMod.dec_enc, modHi_enc]
  rfl
theorem RoundTrip.tsave {x0 x1 x2 x3} : RoundTrip.Statement (.tsave x0 x1 x2 x3) := by
  refine roundTrip_of_op fun sw h hh => ?_
  cases Option.some.inj hh
  refine ⟨?_, rfl⟩
  refine Eq.trans (b := some (decTsave _)) rfl ?_
  simp only [decTsave, Src.dec_enc, Disp.dec_enc, tileDec_tileEnc, MemMod.dec_enc, modHi_enc]
  rfl
theorem RoundTrip.trst {x0 x1 x2 x3} : RoundTrip.Statement (.trst x0 x1 x2 x3) := by
  refine roundTrip_of_op fun sw h hh => ?_
  cases Option.some.inj hh
  refine ⟨?_, rfl⟩
  refine Eq.trans (b := some (decTsave _)) rfl ?_
  simp only [decTsave, Src.dec_enc, Disp.dec_enc, tileDec_tileEnc, MemMod.dec_enc, modHi_enc]
  rfl
theorem RoundTrip.kick {x0 x1 x2 x3} : RoundTrip.Statement (.kick x0 x1 x2 x3) := by
  refine roundTrip_of_op fun sw h hh => ?_
  cases Option.some.inj hh
  refine ⟨?_, rfl⟩
  refine Eq.trans (b := some (decKick _)) rfl ?_
  simp only [decKick, Src.dec_enc, Dst.dec_enc, MemMod.dec_enc, modHi_enc]
  rfl
theorem RoundTrip.tpost {x0 x1 x2 x3} : RoundTrip.Statement (.tpost x0 x1 x2 x3) := by
  refine roundTrip_of_op fun sw h hh => ?_
  cases Option.some.inj hh
  refine ⟨?_, rfl⟩
  refine Eq.trans (b := some (decTpost _)) rfl ?_
  simp only [decTpost, Src.dec_enc, Dst.dec_enc, MemMod.dec_enc, modHi_enc]
  rfl
theorem RoundTrip.spawn {x0 x1 x2 x3} : RoundTrip.Statement (.spawn x0 x1 x2 x3) := by
  refine roundTrip_of_op fun sw h hh => ?_
  cases Option.some.inj hh
  refine ⟨?_, rfl⟩
  refine Eq.trans (b := some (decSpawn _)) rfl ?_
  simp only [decSpawn, Src.dec_enc, Dst.dec_enc, spawnCoordDec_ext]
  rfl
theorem RoundTrip.glaunch {x0 x1 x2} : RoundTrip.Statement (.glaunch x0 x1 x2) := by
  refine roundTrip_of_op fun sw h hh => ?_
  cases Option.some.inj hh
  refine ⟨?_, rfl⟩
  refine Eq.trans (b := some (decGlaunch _)) rfl ?_
  simp only [decGlaunch, Src.dec_enc, Dst.dec_enc]
  rfl
theorem RoundTrip.qbind {x0 x1} : RoundTrip.Statement (.qbind x0 x1) := by
  refine roundTrip_of_op fun sw h hh => ?_
  cases Option.some.inj hh
  refine ⟨?_, rfl⟩
  refine Eq.trans (b := some (decQbind _)) rfl ?_
  simp only [decQbind, Src.dec_enc, portDec_portEnc]
  rfl
theorem RoundTrip.qsndNb {x0 x1 x2 x3} : RoundTrip.Statement (.qsndNb x0 x1 x2 x3) := by
  refine roundTrip_of_op fun sw h hh => ?_
  cases Option.some.inj hh
  refine ⟨?_, rfl⟩
  refine Eq.trans (b := some (decQstat _)) rfl ?_
  simp only [decQstat, Src.dec_enc, Dst.dec_enc, portDec_portEnc, MemMod.dec_enc, modHi_enc]
  rfl
theorem RoundTrip.qstat {x0 x1} : RoundTrip.Statement (.qstat x0 x1) := by
  refine roundTrip_of_op fun sw h hh => ?_
  cases Option.some.inj hh
  refine ⟨?_, rfl⟩
  refine Eq.trans (b := some (decQstat _)) rfl ?_
  simp only [decQstat, Dst.dec_enc, portDec_portEnc]
  rfl
theorem RoundTrip.nbinit {x0 x1 x2} : RoundTrip.Statement (.nbinit x0 x1 x2) := by
  refine roundTrip_of_op fun sw h hh => ?_
  cases Option.some.inj hh
  refine ⟨?_, rfl⟩
  refine Eq.trans (b := some (decNbar _)) rfl ?_
  have e := i16_toNat x2 (by omega)
  have hb : (BitVec.ofNat 16 x2.val).toNat < 48 := by rw [e]; exact x2.isLt
  simp only [decNbar, dif_pos hb, Src.dec_enc]
  simp only [e]; rfl
theorem RoundTrip.nbarr {x0 x1 x2} : RoundTrip.Statement (.nbarr x0 x1 x2) := by
  refine roundTrip_of_op fun sw h hh => ?_
  cases Option.some.inj hh
  refine ⟨?_, rfl⟩
  refine Eq.trans (b := some (decNbar _)) rfl ?_
  have e := i16_toNat x2 (by omega)
  have hb : (BitVec.ofNat 16 x2.val).toNat < 48 := by rw [e]; exact x2.isLt
  simp only [decNbar, dif_pos hb, Src.dec_enc, Dst.dec_enc]
  simp only [e]; rfl
theorem RoundTrip.nbwait {x0 x1 x2 x3} : RoundTrip.Statement (.nbwait x0 x1 x2 x3) := by
  refine roundTrip_of_op fun sw h hh => ?_
  cases Option.some.inj hh
  refine ⟨?_, rfl⟩
  refine Eq.trans (b := some (decNbar _)) rfl ?_
  have e := i16_toNat x3 (by omega)
  have hb : (BitVec.ofNat 16 x3.val).toNat < 48 := by rw [e]; exact x3.isLt
  simp only [decNbar, dif_pos hb, Src.dec_enc, Dst.dec_enc]
  simp only [e]; rfl
theorem RoundTrip.bcopy {x0 x1 x2 x3 x4} : RoundTrip.Statement (.bcopy x0 x1 x2 x3 x4) := by
  refine roundTrip_of_op fun sw h hh => ?_
  cases Option.some.inj hh
  refine ⟨?_, rfl⟩
  refine Eq.trans (b := some (decBcopy _)) rfl ?_
  simp only [decBcopy, Src.dec_enc, MemMod.dec_enc, modHi_enc, x64Dec_ext]
  rfl
theorem RoundTrip.bcast {x0 x1 x2 x3 x4 x5} : RoundTrip.Statement (.bcast x0 x1 x2 x3 x4 x5) := by
  refine roundTrip_of_op fun sw h hh => ?_
  cases Option.some.inj hh
  refine ⟨?_, rfl⟩
  refine Eq.trans (b := some (decBcopy _)) rfl ?_
  simp only [decBcopy, bcast_field_high, bcast_field_mid, bcast_field_low, Src.dec_enc]
  rfl
theorem RoundTrip.mfs {x0 x1} : RoundTrip.Statement (.mfs x0 x1) := by
  refine roundTrip_of_op fun sw h hh => ?_
  cases Option.some.inj hh
  refine ⟨?_, rfl⟩
  refine Eq.trans (b := some (decMfs _)) rfl ?_
  simp only [decMfs, sys_reg_field_high, sys_reg_field_low, Dst.dec_enc, SysReg.dec_enc]
  rfl
theorem RoundTrip.mts {x0 x1} : RoundTrip.Statement (.mts x0 x1) := by
  refine roundTrip_of_op fun sw h hh => ?_
  cases Option.some.inj hh
  refine ⟨?_, rfl⟩
  refine Eq.trans (b := some (decMts _)) rfl ?_
  simp only [decMts, sys_reg_field_high, sys_reg_field_low, Src.dec_enc, SysReg.dec_enc]
  cases x0 <;> rfl
theorem RoundTrip.trap {x0} : RoundTrip.Statement (.trap x0) := by
  refine roundTrip_of_op fun sw h hh => ?_
  cases Option.some.inj hh
  refine ⟨?_, rfl⟩
  refine Eq.trans (b := some (decTrap _)) rfl ?_
  simp only [decTrap]
  rfl
theorem RoundTrip.ecall {x0} : RoundTrip.Statement (.ecall x0) := by
  refine roundTrip_of_op fun sw h hh => ?_
  cases Option.some.inj hh
  refine ⟨?_, rfl⟩
  refine Eq.trans (b := some (decEcall _)) rfl ?_
  simp only [decEcall]
  rfl
theorem RoundTrip.tlbinvPg {x0 x1} : RoundTrip.Statement (.tlbinvPg x0 x1) := by
  refine roundTrip_of_op fun sw h hh => ?_
  cases Option.some.inj hh
  refine ⟨?_, rfl⟩
  refine Eq.trans (b := some (decTlbinv _)) rfl ?_
  simp only [decTlbinv, Src.dec_enc]
  rfl
theorem RoundTrip.tlbinvAll {x0} : RoundTrip.Statement (.tlbinvAll x0) := by
  refine roundTrip_of_op fun sw h hh => ?_
  cases Option.some.inj hh
  refine ⟨?_, rfl⟩
  refine Eq.trans (b := some (decTlbinv _)) rfl ?_
  simp only [decTlbinv, Src.dec_enc]
  rfl
theorem RoundTrip.twait {x0 x1} : RoundTrip.Statement (.twait x0 x1) := by
  refine roundTrip_of_op fun sw h hh => ?_
  cases Option.some.inj hh
  refine ⟨?_, rfl⟩
  refine Eq.trans (b := some (decTwait _)) rfl ?_
  simp only [decTwait, Src.dec_enc, Dst.dec_enc]
  rfl
theorem RoundTrip.sstatWrite {x0} : RoundTrip.Statement (.sstatWrite x0) := by
  refine roundTrip_of_op fun sw h hh => ?_
  cases Option.some.inj hh
  refine ⟨?_, rfl⟩
  refine Eq.trans (b := some (decMts _)) rfl ?_
  simp only [decMts, Src.dec_enc]
  rfl
theorem RoundTrip.fpctlWrite {x0} : RoundTrip.Statement (.fpctlWrite x0) := by
  refine roundTrip_of_op fun sw h hh => ?_
  cases Option.some.inj hh
  refine ⟨?_, rfl⟩
  refine Eq.trans (b := some (decMts _)) rfl ?_
  simp only [decMts, Src.dec_enc]
  rfl
theorem RoundTrip.cbselWrite {x0} : RoundTrip.Statement (.cbselWrite x0) := by
  refine roundTrip_of_op fun sw h hh => ?_
  cases Option.some.inj hh
  refine ⟨?_, rfl⟩
  refine Eq.trans (b := some (decMts _)) rfl ?_
  simp only [decMts, Src.dec_enc]
  rfl
theorem RoundTrip.tshapeWrite {x0 x1} : RoundTrip.Statement (.tshapeWrite x0 x1) := by
  refine roundTrip_of_op fun sw h hh => ?_
  cases Option.some.inj hh
  refine ⟨?_, rfl⟩
  refine Eq.trans (b := some (decMts _)) rfl ?_
  simp only [decMts, sys_reg_field_high, sys_reg_field_low, Src.dec_enc, SysReg.dec_enc]
  rfl
theorem RoundTrip.tdirtyWrite {x0} : RoundTrip.Statement (.tdirtyWrite x0) := by
  refine roundTrip_of_op fun sw h hh => ?_
  cases Option.some.inj hh
  refine ⟨?_, rfl⟩
  refine Eq.trans (b := some (decMts _)) rfl ?_
  simp only [decMts, Src.dec_enc]
  rfl
theorem RoundTrip.timecmpWrite {x0} : RoundTrip.Statement (.timecmpWrite x0) := by
  refine roundTrip_of_op fun sw h hh => ?_
  cases Option.some.inj hh
  refine ⟨?_, rfl⟩
  refine Eq.trans (b := some (decMts _)) rfl ?_
  simp only [decMts, Src.dec_enc]
  rfl
theorem RoundTrip.wdogWrite {x0} : RoundTrip.Statement (.wdogWrite x0) := by
  refine roundTrip_of_op fun sw h hh => ?_
  cases Option.some.inj hh
  refine ⟨?_, rfl⟩
  refine Eq.trans (b := some (decMts _)) rfl ?_
  simp only [decMts, Src.dec_enc]
  rfl
theorem RoundTrip.mcapWrite {x0} : RoundTrip.Statement (.mcapWrite x0) := by
  refine roundTrip_of_op fun sw h hh => ?_
  cases Option.some.inj hh
  refine ⟨?_, rfl⟩
  refine Eq.trans (b := some (decMts _)) rfl ?_
  simp only [decMts, Src.dec_enc]
  rfl
theorem RoundTrip.ptbrWrite {x0} : RoundTrip.Statement (.ptbrWrite x0) := by
  refine roundTrip_of_op fun sw h hh => ?_
  cases Option.some.inj hh
  refine ⟨?_, rfl⟩
  refine Eq.trans (b := some (decMts _)) rfl ?_
  simp only [decMts, Src.dec_enc]
  rfl
theorem RoundTrip.thrankWrite {x0} : RoundTrip.Statement (.thrankWrite x0) := by
  refine roundTrip_of_op fun sw h hh => ?_
  cases Option.some.inj hh
  refine ⟨?_, rfl⟩
  refine Eq.trans (b := some (decMts _)) rfl ?_
  simp only [decMts, Src.dec_enc]
  rfl
theorem RoundTrip.tttbWrite {x0} : RoundTrip.Statement (.tttbWrite x0) := by
  refine roundTrip_of_op fun sw h hh => ?_
  cases Option.some.inj hh
  refine ⟨?_, rfl⟩
  refine Eq.trans (b := some (decMts _)) rfl ?_
  simp only [decMts, Src.dec_enc]
  rfl
theorem RoundTrip.mevtWrite {x0} : RoundTrip.Statement (.mevtWrite x0) := by
  refine roundTrip_of_op fun sw h hh => ?_
  cases Option.some.inj hh
  refine ⟨?_, rfl⟩
  refine Eq.trans (b := some (decMts _)) rfl ?_
  simp only [decMts, Src.dec_enc]
  rfl
theorem RoundTrip.yield : RoundTrip.Statement .yield := by
  refine roundTrip_of_op fun sw h hh => ?_
  cases Option.some.inj hh
  refine ⟨?_, rfl⟩
  refine Eq.trans (b := some (decYield _)) rfl ?_
  simp only [decYield]
  rfl
theorem RoundTrip.waitst : RoundTrip.Statement .waitst := by
  refine roundTrip_of_op fun sw h hh => ?_
  cases Option.some.inj hh
  refine ⟨?_, rfl⟩
  refine Eq.trans (b := some (decWait _)) rfl ?_
  simp only [decWait]
  rfl
theorem RoundTrip.join : RoundTrip.Statement .join := by
  refine roundTrip_of_op fun sw h hh => ?_
  cases Option.some.inj hh
  refine ⟨?_, rfl⟩
  refine Eq.trans (b := some (decJoin _)) rfl ?_
  simp only [decJoin]
  rfl
theorem RoundTrip.retire : RoundTrip.Statement .retire := by
  refine roundTrip_of_op fun sw h hh => ?_
  cases Option.some.inj hh
  refine ⟨?_, rfl⟩
  refine Eq.trans (b := some (decRetire _)) rfl ?_
  simp only [decRetire]
  rfl
theorem RoundTrip.eret : RoundTrip.Statement .eret := by
  refine roundTrip_of_op fun sw h hh => ?_
  cases Option.some.inj hh
  refine ⟨?_, rfl⟩
  refine Eq.trans (b := some (decEret _)) rfl ?_
  simp only [decEret]
  rfl
theorem RoundTrip.halt : RoundTrip.Statement .halt := by
  refine roundTrip_of_op fun sw h hh => ?_
  cases Option.some.inj hh
  refine ⟨?_, rfl⟩
  refine Eq.trans (b := some (decHalt _)) rfl ?_
  simp only [decHalt]
  rfl
theorem RoundTrip.vmodeL : RoundTrip.Statement .vmodeL := by
  refine roundTrip_of_op fun sw h hh => ?_
  cases Option.some.inj hh
  refine ⟨?_, rfl⟩
  refine Eq.trans (b := some (decVmode _)) rfl ?_
  simp only [decVmode]
  rfl
theorem RoundTrip.vmodeS : RoundTrip.Statement .vmodeS := by
  refine roundTrip_of_op fun sw h hh => ?_
  cases Option.some.inj hh
  refine ⟨?_, rfl⟩
  refine Eq.trans (b := some (decVmode _)) rfl ?_
  simp only [decVmode]
  rfl
theorem RoundTrip.sctlRun {x0} : RoundTrip.Statement (.sctlRun x0) := roundTrip_of_none fun _ => rfl
theorem RoundTrip.sctlDblClear {x0} : RoundTrip.Statement (.sctlDblClear x0) := roundTrip_of_none fun _ => rfl
theorem RoundTrip.qportDataStore {x0} : RoundTrip.Statement (.qportDataStore x0) := roundTrip_of_none fun _ => rfl
theorem RoundTrip.qportBindingStore {x0} : RoundTrip.Statement (.qportBindingStore x0) := roundTrip_of_none fun _ => rfl
theorem RoundTrip.tileWindowStore {x0} : RoundTrip.Statement (.tileWindowStore x0) := roundTrip_of_none fun _ => rfl
theorem RoundTrip.nbarWindowStore {x0} : RoundTrip.Statement (.nbarWindowStore x0) := roundTrip_of_none fun _ => rfl
theorem RoundTrip.dmatail {x0 x1} : RoundTrip.Statement (.dmatail x0 x1) := roundTrip_of_none fun _ => rfl
theorem RoundTrip.dmactlEn {x0 x1} : RoundTrip.Statement (.dmactlEn x0 x1) := roundTrip_of_none fun _ => rfl
theorem RoundTrip.dmactlReset {x0} : RoundTrip.Statement (.dmactlReset x0) := roundTrip_of_none fun _ => rfl
theorem RoundTrip.dmastatErrClear {x0 x1} : RoundTrip.Statement (.dmastatErrClear x0 x1) := roundTrip_of_none fun _ => rfl
theorem RoundTrip.mbxbell {x0 x1} : RoundTrip.Statement (.mbxbell x0 x1) := roundTrip_of_none fun _ => rfl
theorem RoundTrip.mbxdoneClear {x0 x1} : RoundTrip.Statement (.mbxdoneClear x0 x1) := roundTrip_of_none fun _ => rfl
theorem RoundTrip.registerWrite {x0 x1 x2} : RoundTrip.Statement (.registerWrite x0 x1 x2) := roundTrip_of_none fun _ => rfl
theorem RoundTrip.resultReturn {x0 x1} : RoundTrip.Statement (.resultReturn x0 x1) := roundTrip_of_none fun _ => rfl
theorem RoundTrip.storeAccept {x0 x1} : RoundTrip.Statement (.storeAccept x0 x1) := roundTrip_of_none fun _ => rfl
theorem RoundTrip.trapEntry {x0} : RoundTrip.Statement (.trapEntry x0) := roundTrip_of_none fun _ => rfl
theorem RoundTrip.asyncCauseTaken {x0} : RoundTrip.Statement (.asyncCauseTaken x0) := roundTrip_of_none fun _ => rfl
theorem RoundTrip.timer {x0} : RoundTrip.Statement (.timer x0) := roundTrip_of_none fun _ => rfl
theorem RoundTrip.twaitDeadline {x0 x1} : RoundTrip.Statement (.twaitDeadline x0 x1) := roundTrip_of_none fun _ => rfl
theorem RoundTrip.watchdogExpiry {x0} : RoundTrip.Statement (.watchdogExpiry x0) := roundTrip_of_none fun _ => rfl
theorem RoundTrip.putrArrival {x0} : RoundTrip.Statement (.putrArrival x0) := roundTrip_of_none fun _ => rfl
theorem RoundTrip.windowAccessArrival {x0} : RoundTrip.Statement (.windowAccessArrival x0) := roundTrip_of_none fun _ => rfl
theorem RoundTrip.fewordRequestArrival {x0 x1} : RoundTrip.Statement (.fewordRequestArrival x0 x1) := roundTrip_of_none fun _ => rfl
theorem RoundTrip.barrierOpAtHome {x0 x1} : RoundTrip.Statement (.barrierOpAtHome x0 x1) := roundTrip_of_none fun _ => rfl
theorem RoundTrip.redAddAtHome {x0 x1} : RoundTrip.Statement (.redAddAtHome x0 x1) := roundTrip_of_none fun _ => rfl
theorem RoundTrip.decideOnceAtHome {x0 x1 x2} : RoundTrip.Statement (.decideOnceAtHome x0 x1 x2) := roundTrip_of_none fun _ => rfl
theorem RoundTrip.drainRequest {x0 x1} : RoundTrip.Statement (.drainRequest x0 x1) := roundTrip_of_none fun _ => rfl
theorem RoundTrip.readRequest {x0} : RoundTrip.Statement (.readRequest x0) := roundTrip_of_none fun _ => rfl
theorem RoundTrip.ownershipRequest {x0} : RoundTrip.Statement (.ownershipRequest x0) := roundTrip_of_none fun _ => rfl
theorem RoundTrip.eviction {x0 x1} : RoundTrip.Statement (.eviction x0 x1) := roundTrip_of_none fun _ => rfl
theorem RoundTrip.ucLoad {x0 x1} : RoundTrip.Statement (.ucLoad x0 x1) := roundTrip_of_none fun _ => rfl
theorem RoundTrip.ucStore {x0} : RoundTrip.Statement (.ucStore x0) := roundTrip_of_none fun _ => rfl
theorem RoundTrip.tileRequest {x0 x1} : RoundTrip.Statement (.tileRequest x0 x1) := roundTrip_of_none fun _ => rfl
theorem RoundTrip.hostRead {x0 x1} : RoundTrip.Statement (.hostRead x0 x1) := roundTrip_of_none fun _ => rfl
theorem RoundTrip.hostOwnershipRequest {x0 x1} : RoundTrip.Statement (.hostOwnershipRequest x0 x1) := roundTrip_of_none fun _ => rfl
theorem RoundTrip.backInvalidationResponse {x0 x1 x2} : RoundTrip.Statement (.backInvalidationResponse x0 x1 x2) := roundTrip_of_none fun _ => rfl
theorem RoundTrip.backInvalidationTimeout {x0 x1} : RoundTrip.Statement (.backInvalidationTimeout x0 x1) := roundTrip_of_none fun _ => rfl
theorem RoundTrip.translationWalk {x0 x1} : RoundTrip.Statement (.translationWalk x0 x1) := roundTrip_of_none fun _ => rfl
theorem RoundTrip.mcmdCommandArrival {x0 x1} : RoundTrip.Statement (.mcmdCommandArrival x0 x1) := roundTrip_of_none fun _ => rfl
theorem RoundTrip.thawCheck {x0} : RoundTrip.Statement (.thawCheck x0) := roundTrip_of_none fun _ => rfl
theorem RoundTrip.longContextGrant {x0} : RoundTrip.Statement (.longContextGrant x0) := roundTrip_of_none fun _ => rfl
theorem RoundTrip.engineStart {x0} : RoundTrip.Statement (.engineStart x0) := roundTrip_of_none fun _ => rfl
theorem RoundTrip.engineTrap {x0} : RoundTrip.Statement (.engineTrap x0) := roundTrip_of_none fun _ => rfl
theorem RoundTrip.burstArrival {x0} : RoundTrip.Statement (.burstArrival x0) := roundTrip_of_none fun _ => rfl
theorem RoundTrip.launchMessage {x0} : RoundTrip.Statement (.launchMessage x0) := roundTrip_of_none fun _ => rfl
theorem RoundTrip.queuePush {x0} : RoundTrip.Statement (.queuePush x0) := roundTrip_of_none fun _ => rfl
theorem RoundTrip.joinDecrement {x0} : RoundTrip.Statement (.joinDecrement x0) := roundTrip_of_none fun _ => rfl
theorem RoundTrip.placement {x0} : RoundTrip.Statement (.placement x0) := roundTrip_of_none fun _ => rfl
theorem RoundTrip.migrationMessage {x0} : RoundTrip.Statement (.migrationMessage x0) := roundTrip_of_none fun _ => rfl
theorem RoundTrip.automaticMigration {x0} : RoundTrip.Statement (.automaticMigration x0) := roundTrip_of_none fun _ => rfl
theorem RoundTrip.thermalStep {x0 x1} : RoundTrip.Statement (.thermalStep x0 x1) := roundTrip_of_none fun _ => rfl
theorem RoundTrip.powerCapStep {x0 x1} : RoundTrip.Statement (.powerCapStep x0 x1) := roundTrip_of_none fun _ => rfl
theorem RoundTrip.thermalTrip {x0 x1} : RoundTrip.Statement (.thermalTrip x0 x1) := roundTrip_of_none fun _ => rfl
theorem RoundTrip.timedLaunch {x0 x1} : RoundTrip.Statement (.timedLaunch x0 x1) := roundTrip_of_none fun _ => rfl
theorem RoundTrip.preEmpt {x0 x1} : RoundTrip.Statement (.preEmpt x0 x1) := roundTrip_of_none fun _ => rfl
theorem RoundTrip.resume {x0 x1} : RoundTrip.Statement (.resume x0 x1) := roundTrip_of_none fun _ => rfl
theorem RoundTrip.gangReport {x0} : RoundTrip.Statement (.gangReport x0) := roundTrip_of_none fun _ => rfl
theorem RoundTrip.reportDeadline {x0 x1} : RoundTrip.Statement (.reportDeadline x0 x1) := roundTrip_of_none fun _ => rfl
theorem RoundTrip.switchToken {x0} : RoundTrip.Statement (.switchToken x0) := roundTrip_of_none fun _ => rfl
theorem RoundTrip.releaseMessage {x0} : RoundTrip.Statement (.releaseMessage x0) := roundTrip_of_none fun _ => rfl
theorem RoundTrip.shareComplete {x0} : RoundTrip.Statement (.shareComplete x0) := roundTrip_of_none fun _ => rfl
theorem RoundTrip.gridComplete {x0} : RoundTrip.Statement (.gridComplete x0) := roundTrip_of_none fun _ => rfl
theorem RoundTrip.ptpSync {x0 x1 x2} : RoundTrip.Statement (.ptpSync x0 x1 x2) := roundTrip_of_none fun _ => rfl
theorem RoundTrip.holdover {x0} : RoundTrip.Statement (.holdover x0) := roundTrip_of_none fun _ => rfl
theorem RoundTrip.freeRunning {x0} : RoundTrip.Statement (.freeRunning x0) := roundTrip_of_none fun _ => rfl
theorem RoundTrip.timeStep {x0 x1} : RoundTrip.Statement (.timeStep x0 x1) := roundTrip_of_none fun _ => rfl
theorem RoundTrip.flitReceive {x0 x1 x2 x3} : RoundTrip.Statement (.flitReceive x0 x1 x2 x3) := roundTrip_of_none fun _ => rfl
theorem RoundTrip.linkTraining {x0 x1 x2 x3} : RoundTrip.Statement (.linkTraining x0 x1 x2 x3) := roundTrip_of_none fun _ => rfl
theorem RoundTrip.routeUpdate {x0 x1 x2} : RoundTrip.Statement (.routeUpdate x0 x1 x2) := roundTrip_of_none fun _ => rfl
theorem RoundTrip.remoteTimeout {x0 x1} : RoundTrip.Statement (.remoteTimeout x0 x1) := roundTrip_of_none fun _ => rfl
theorem RoundTrip.combinedRequest {x0} : RoundTrip.Statement (.combinedRequest x0) := roundTrip_of_none fun _ => rfl
theorem RoundTrip.weltQuery {x0} : RoundTrip.Statement (.weltQuery x0) := roundTrip_of_none fun _ => rfl
theorem RoundTrip.dmaDescriptor {x0} : RoundTrip.Statement (.dmaDescriptor x0) := roundTrip_of_none fun _ => rfl
theorem RoundTrip.hostLinkDown {x0} : RoundTrip.Statement (.hostLinkDown x0) := roundTrip_of_none fun _ => rfl
theorem RoundTrip.channelSparing {x0 x1 x2} : RoundTrip.Statement (.channelSparing x0 x1 x2) := roundTrip_of_none fun _ => rfl
theorem RoundTrip.uncorrectableError {x0} : RoundTrip.Statement (.uncorrectableError x0) := roundTrip_of_none fun _ => rfl
theorem RoundTrip.warmReset {x0 x1} : RoundTrip.Statement (.warmReset x0 x1) := roundTrip_of_none fun _ => rfl
theorem RoundTrip.mchk {x0 x1} : RoundTrip.Statement (.mchk x0 x1) := roundTrip_of_none fun _ => rfl
theorem RoundTrip.attestationRequest {x0 x1} : RoundTrip.Statement (.attestationRequest x0 x1) := roundTrip_of_none fun _ => rfl
theorem RoundTrip.bringUp {x0} : RoundTrip.Statement (.bringUp x0) := roundTrip_of_none fun _ => rfl
theorem RoundTrip.matrixInstructionCompletion {x0} : RoundTrip.Statement (.matrixInstructionCompletion x0) := roundTrip_of_none fun _ => rfl
theorem RoundTrip.remoteStoreAcknowledgement {x0 x1} : RoundTrip.Statement (.remoteStoreAcknowledgement x0 x1) := roundTrip_of_none fun _ => rfl
theorem RoundTrip.queueGoSignal {x0 x1} : RoundTrip.Statement (.queueGoSignal x0 x1) := roundTrip_of_none fun _ => rfl
theorem RoundTrip.hostLinkRetraining {x0} : RoundTrip.Statement (.hostLinkRetraining x0) := roundTrip_of_none fun _ => rfl
theorem RoundTrip.powerCapSetting {x0 x1} : RoundTrip.Statement (.powerCapSetting x0 x1) := roundTrip_of_none fun _ => rfl
theorem RoundTrip.weltCombiningWindow {x0 x1} : RoundTrip.Statement (.weltCombiningWindow x0 x1) := roundTrip_of_none fun _ => rfl

end Sys2Proof.Laws
end

