-- ==== Sys2Proof/Tests/Slice0.lean ====
section
/-!
SUPPORT. Tests: terms that `Instr.wellFormed` refuses; for every instruction a word written out from its encoding; examples of the spec;
and for every statement with hypotheses a state and operands that meet them.
-/

namespace Sys2Proof.Tests

open Sys2Proof Sys2Proof.Machine

/-! Ill-formed terms. -/

/-- Each check of a program instruction refuses a term that breaks it: the field of R85 in three ways, orders (R40) and scope of SC (R41),
formats (R42, R144, R153, R154, R172), a fence without a scope (R118). -/
theorem test_ill_formed_operands :
    ([ .bext (.g 1) (.g 2) 0 0, .bexts (.g 1) (.g 2) 0 65, .bins (.g 1) (.g 2) (.g 3) 60 5,
       .ld (.g 1) (.g 2) (.short 0) ⟨.rel, .core⟩, .st (.g 1) (.g 2) (.short 0) ⟨.acq, .core⟩, .ld (.g 1) (.g 2) (.short 0) ⟨.sc, .die⟩,
       .putr none (.g 1) (.g 2) 0 ⟨.sc, .package⟩, .redAdd (.g 1) (.g 2) (.g 3) 0 ⟨.rel, .core⟩,
       .barv (.g 1) (.mem (.g 2) 0) (.g 3) ⟨.acq, .core⟩, .propose 0 (.g 2) (.g 3) (.g 4) 0 ⟨.rel, .core⟩, .kick (.g 1) (.g 2) (.g 3) ⟨.rlx, .core⟩,
       .fncLt .strand, .vadd 0 1 2 ⟨.n8, .rne⟩, .viadd 0 1 2 .f32, .vcmpeq 0 1 2 .c4, .vrsum (.g 1) 2 ⟨.s8, .rtz⟩, .vcvt 0 1 ⟨.f32, .rne⟩ .c4,
       .vnarrow 0 1 2 ⟨.f32, .rne⟩ .h16, .trowv 0 1 (.g 2) 0 ⟨.f64, .rne⟩ ] : List Instr).all (fun i => !i.wellFormed) = true := by decide

/-- Each check of a step of the hardware refuses a name outside the system: a module, a core, a slot, an engine, an address, a die, a port, a
stack, a view of a link. -/
theorem test_ill_formed_names :
    ([ .bringUp 16384, .eviction (16384 * 1024) 0, .timer (.strand 0 8), .engineStart (16384 * 128), .hostRead 0 (2 ^ 57),
       .translationWalk (16384 * 4) 0, .flitReceive 0 48 ⟨0, 0, .payload []⟩ 0, .channelSparing 0 8 0, .warmReset 0 4,
       .linkTraining 0 3 ⟨3, [0, 1, 2], 448⟩ ⟨4, [0, 1, 2, 3], 448⟩, .linkTraining 0 3 ⟨1, [0], 448⟩ ⟨1, [5], 448⟩ ] : List Instr).all
      (fun i => !i.wellFormed) = true := by decide

/-! Words written out from the encodings. -/

/-- The fields of the head of R16, with LEN first. -/
def head (len op fn d a b c mod i16 : Nat) : Nat :=
  len + 2 ^ 3 * op + 2 ^ 11 * d + 2 ^ 17 * a + 2 ^ 23 * b + 2 ^ 29 * c + 2 ^ 35 * fn + 2 ^ 41 * mod + 2 ^ 48 * i16
/-- An instruction of 64 bits, of 96 with X32, and of 128 with X64 (R16). -/
def w64 (op fn d a b c mod i16 : Nat) : Nat := head 1 op fn d a b c mod i16
def w96 (op fn d a b c mod i16 x32 : Nat) : Nat := head 2 op fn d a b c mod i16 + 2 ^ 64 * x32
def w128 (op fn d a b c mod i16 x64 : Nat) : Nat := head 3 op fn d a b c mod i16 + 2 ^ 64 * x64
/-- Specifiers (R23). -/
def v (n : Nat) : Nat := 16 + n
def q (n : Nat) : Nat := 32 + n
def k (n : Nat) : Nat := 36 + n
/-- MOD of the memory layout and of floating point (R17): the upper field, then the lower one. -/
def mod2 (upper lower : Nat) : Nat := 8 * upper + lower

/-- Every word decodes to the instruction beside it. -/
def decodes (l : List (Nat × Instr)) : Bool := l.all fun x => decodeTableWord 128 x.1 == some x.2

/-- OP 0x00 and 0x02 to 0x04 (R79). -/
def integerWords : List (Nat × Instr) :=
  [ (w64 0 0 1 2 3 0 0 0, .add (.g 1) (.g 2) (.g 3)), (w64 0 1 (q 1) (q 2) (k 7) 0 0 0, .sub (.q 1) (.q 2) (.k 7)),
    (w64 0 2 15 14 13 0 0 0, .mul (.g 15) (.g 14) (.g 13)), (w64 0 3 1 2 3 0 0 0, .mulhs (.g 1) (.g 2) (.g 3)),
    (w64 0 4 1 2 3 0 0 0, .and (.g 1) (.g 2) (.g 3)), (w64 0 5 1 2 3 0 0 0, .or (.g 1) (.g 2) (.g 3)),
    (w64 0 6 1 2 3 0 0 0, .xor (.g 1) (.g 2) (.g 3)), (w64 0 7 1 2 3 0 0 0, .andn (.g 1) (.g 2) (.g 3)),
    (w64 0 8 1 2 3 0 0 0, .shl (.g 1) (.g 2) (.g 3)), (w64 0 9 1 2 3 0 0 0, .shr (.g 1) (.g 2) (.g 3)),
    (w64 0 10 1 2 3 0 0 0, .sar (.g 1) (.g 2) (.g 3)), (w64 0 11 1 2 3 0 0 0, .rol (.g 1) (.g 2) (.g 3)),
    (w64 0 12 1 2 3 0 0 0, .ror (.g 1) (.g 2) (.g 3)), (w64 0 13 1 2 3 0 0 0, .min (.g 1) (.g 2) (.g 3)),
    (w64 0 14 1 2 3 0 0 0, .max (.g 1) (.g 2) (.g 3)), (w64 0 15 1 2 3 0 0 0, .minn (.g 1) (.g 2) (.g 3)),
    (w64 0 16 1 2 3 0 0 0, .maxn (.g 1) (.g 2) (.g 3)), (w64 0 17 1 2 3 0 0 0, .mulhn (.g 1) (.g 2) (.g 3)),
    (w64 2 0 1 2 3 0 0 0, .cmpeq (.g 1) (.g 2) (.g 3)), (w64 2 1 1 2 3 0 0 0, .cmpne (.g 1) (.g 2) (.g 3)),
    (w64 2 2 1 2 3 0 0 0, .cmplt (.g 1) (.g 2) (.g 3)), (w64 2 3 1 2 3 0 0 0, .cmple (.g 1) (.g 2) (.g 3)),
    (w64 2 4 1 2 3 0 0 0, .cmpltn (.g 1) (.g 2) (.g 3)), (w64 2 5 1 2 3 0 0 0, .cmplen (.g 1) (.g 2) (.g 3)),
    (w64 4 0 1 2 3 4 0 0, .sel (.g 1) (.g 2) (.g 3) (.g 4)) ]
theorem test_decode_integer : decodes integerWords = true := by decide

/-- OP 0x01 and 0x03 (R79, R36). -/
def immediateWords : List (Nat × Instr) :=
  [ (w64 1 0 1 2 0 0 0 0xFFFF, .addImm (.g 1) (.g 2) (.short 0xFFFF)), (w96 1 1 1 2 0 0 0 0x5678 0x1234, .subImm (.g 1) (.g 2) (.mid 0x12345678)),
    (w128 1 2 1 2 0 0 0 0 0x123456789ABCDEF0, .mulImm (.g 1) (.g 2) (.long 0x123456789ABCDEF0)),
    (w64 1 3 1 2 0 0 0 7, .mulhsImm (.g 1) (.g 2) (.short 7)), (w64 1 4 1 2 0 0 0 7, .andImm (.g 1) (.g 2) (.short 7)),
    (w64 1 5 1 2 0 0 0 7, .orImm (.g 1) (.g 2) (.short 7)), (w64 1 6 1 2 0 0 0 7, .xorImm (.g 1) (.g 2) (.short 7)),
    (w64 1 7 1 2 0 0 0 7, .andnImm (.g 1) (.g 2) (.short 7)), (w64 1 8 1 2 0 0 0 7, .shlImm (.g 1) (.g 2) (.short 7)),
    (w64 1 9 1 2 0 0 0 7, .shrImm (.g 1) (.g 2) (.short 7)), (w64 1 10 1 2 0 0 0 7, .sarImm (.g 1) (.g 2) (.short 7)),
    (w64 1 11 1 2 0 0 0 7, .rolImm (.g 1) (.g 2) (.short 7)), (w64 1 12 1 2 0 0 0 7, .rorImm (.g 1) (.g 2) (.short 7)),
    (w64 1 13 1 2 0 0 0 7, .minImm (.g 1) (.g 2) (.short 7)), (w64 1 14 1 2 0 0 0 7, .maxImm (.g 1) (.g 2) (.short 7)),
    (w64 1 15 1 2 0 0 0 7, .minnImm (.g 1) (.g 2) (.short 7)), (w64 1 16 1 2 0 0 0 7, .maxnImm (.g 1) (.g 2) (.short 7)),
    (w64 1 17 1 2 0 0 0 7, .mulhnImm (.g 1) (.g 2) (.short 7)), (w64 3 0 1 2 0 0 0 7, .cmpeqImm (.g 1) (.g 2) (.short 7)),
    (w64 3 1 1 2 0 0 0 7, .cmpneImm (.g 1) (.g 2) (.short 7)), (w64 3 2 1 2 0 0 0 7, .cmpltImm (.g 1) (.g 2) (.short 7)),
    (w64 3 3 1 2 0 0 0 7, .cmpleImm (.g 1) (.g 2) (.short 7)), (w64 3 4 1 2 0 0 0 7, .cmpltnImm (.g 1) (.g 2) (.short 7)),
    (w64 3 5 1 2 0 0 0 7, .cmplenImm (.g 1) (.g 2) (.short 7)) ]
theorem test_decode_immediate : decodes immediateWords = true := by decide

/-- OP 0x05 to 0x0A and 0x1E (R79, R85, R98). -/
def bitsWords : List (Nat × Instr) :=
  [ (w64 5 0 1 2 0 0 0 (8 + 64 * 4), .bext (.g 1) (.g 2) 8 4), (w64 5 1 1 2 0 0 0 (8 + 64 * 4), .bexts (.g 1) (.g 2) 8 4),
    (w64 5 2 1 2 3 0 0 (0 + 64 * 64), .bins (.g 1) (.g 2) (.g 3) 0 64), (w64 5 3 1 2 0 0 0 0, .clz (.g 1) (.g 2)),
    (w64 5 4 1 2 0 0 0 0, .ctz (.g 1) (.g 2)), (w64 5 5 1 2 0 0 0 0, .popc (.g 1) (.g 2)), (w64 5 6 1 2 0 0 0 0, .brev (.g 1) (.g 2)),
    (w64 5 7 1 2 0 0 0 0, .bswap (.g 1) (.g 2)), (w64 6 0 1 2 3 0 0 0, .div (.g 1) (.g 2) (.g 3)), (w64 6 1 1 2 3 0 0 0, .divn (.g 1) (.g 2) (.g 3)),
    (w64 6 2 1 2 3 0 0 0, .rem (.g 1) (.g 2) (.g 3)), (w64 6 3 1 2 3 0 0 0, .remn (.g 1) (.g 2) (.g 3)),
    (w64 8 0 1 2 3 0 0 0, .rng (.g 1) (.g 2) (.g 3)), (w64 8 1 1 2 3 0 0 0, .rngf32 (.g 1) (.g 2) (.g 3)),
    (w64 8 2 1 2 3 0 0 0, .rngf64 (.g 1) (.g 2) (.g 3)), (w64 9 0 (v 3) 0 0 0 0 0, .empty (.v 3)), (w64 9 1 5 0 0 0 0 0, .fill (.g 5)),
    (w64 9 2 1 (k 2) 0 0 0 0, .isfull (.g 1) (.k 2)), (w96 0xA 0 0 1 2 0 (mod2 2 5) 8 (3 + 2 ^ 3 * 2 + 2 ^ 16 + 2 ^ 17 + 2 ^ 18 * 9),
      .putr (some ⟨3, 2, 0, 0, true, some 9⟩) (.g 1) (.g 2) 8 ⟨.rel, .system⟩), (w64 0x1E 0 4 0 0 0 0 0xFFFE, .ldl 4 0xFFFE) ]
theorem test_decode_bits : decodes bitsWords = true := by decide

/-- OP 0x20 to 0x26 (R79). -/
def controlWords : List (Nat × Instr) :=
  [ (w64 0x20 0 0 0 0 0 0 0xFFFF, .br (.short 0xFFFF)), (w96 0x21 0 0 2 0 0 0 2 1, .bz (.g 2) (.mid 0x10002)), (w64 0x21 1 0 2 0 0 0 2, .bnz (.g 2) (.short 2)),
    (w64 0x21 2 0 (q 3) 0 0 0 2, .bltz (.q 3) (.short 2)), (w64 0x21 3 0 2 0 0 0 2, .bgez (.g 2) (.short 2)),
    (w64 0x22 0 15 0 0 0 0 2, .call 15 (.short 2)), (w64 0x23 0 0 2 0 0 0 0, .jr (.g 2)), (w64 0x23 1 14 2 0 0 0 0, .callr 14 (.g 2)),
    (w64 0x24 0 0 15 0 0 0 0, .ret (.g 15)), (w64 0x25 0 0 0 0 0 0 0, .yield), (w64 0x26 0 0 0 0 0 0 0x8001, .wait 0x8001),
    (w64 0x26 1 0 0 0 0 0 0, .waitst) ]
theorem test_decode_control : decodes controlWords = true := by decide

/-- OP 0x30 to 0x3A (R104, R41): loads, stores and their window forms; the scratchpad of core 2 of the issuing cluster. -/
def loadsStoresWords : List (Nat × Instr) :=
  [ (w64 0x30 0 1 2 0 0 (mod2 1 2) 0xFFF8, .ldN8 (.g 1) (.g 2) (.short 0xFFF8) ⟨.acq, .cluster⟩),
    (w64 0x30 1 1 2 0 0 0 8, .ldN16 (.g 1) (.g 2) (.short 8) ⟨.rlx, .strand⟩), (w64 0x30 2 1 2 0 0 0 8, .ldN32 (.g 1) (.g 2) (.short 8) ⟨.rlx, .strand⟩),
    (w96 0x30 3 1 2 0 0 (mod2 4 4) 8 1, .ld (.g 1) (.g 2) (.mid 0x10008) ⟨.sc, .package⟩),
    (w64 0x30 4 1 2 0 0 0 8, .ldS8 (.g 1) (.g 2) (.short 8) ⟨.rlx, .strand⟩), (w64 0x30 5 1 2 0 0 0 8, .ldS16 (.g 1) (.g 2) (.short 8) ⟨.rlx, .strand⟩),
    (w64 0x30 6 1 2 0 0 0 8, .ldS32 (.g 1) (.g 2) (.short 8) ⟨.rlx, .strand⟩), (w64 0x31 0 1 2 3 0 0 (11 + 64), .ldbit (.g 1) (.g 2) (.g 3) 11 true ⟨.rlx, .strand⟩),
    (w96 0x32 (8 * 2 + 0) 1 2 0 0 0 8 2, .windowLdN8 2 (.g 1) (.g 2) 8 ⟨2, 0, 0, 0, false, none⟩ ⟨.rlx, .strand⟩),
    (w96 0x32 (8 * 2 + 1) 1 2 0 0 0 8 2, .windowLdN16 2 (.g 1) (.g 2) 8 ⟨2, 0, 0, 0, false, none⟩ ⟨.rlx, .strand⟩),
    (w96 0x32 (8 * 2 + 2) 1 2 0 0 0 8 2, .windowLdN32 2 (.g 1) (.g 2) 8 ⟨2, 0, 0, 0, false, none⟩ ⟨.rlx, .strand⟩),
    (w96 0x32 (8 * 7 + 3) 1 2 0 0 0 8 2, .windowLd 7 (.g 1) (.g 2) 8 ⟨2, 0, 0, 0, false, none⟩ ⟨.rlx, .strand⟩),
    (w96 0x32 (8 * 2 + 4) 1 2 0 0 0 8 2, .windowLdS8 2 (.g 1) (.g 2) 8 ⟨2, 0, 0, 0, false, none⟩ ⟨.rlx, .strand⟩),
    (w96 0x32 (8 * 2 + 5) 1 2 0 0 0 8 2, .windowLdS16 2 (.g 1) (.g 2) 8 ⟨2, 0, 0, 0, false, none⟩ ⟨.rlx, .strand⟩),
    (w96 0x32 (8 * 2 + 6) 1 2 0 0 0 8 2, .windowLdS32 2 (.g 1) (.g 2) 8 ⟨2, 0, 0, 0, false, none⟩ ⟨.rlx, .strand⟩),
    (w64 0x38 0 0 2 3 0 (mod2 2 1) 8, .stN8 (.g 2) (.g 3) (.short 8) ⟨.rel, .core⟩), (w64 0x38 1 0 2 3 0 0 8, .stN16 (.g 2) (.g 3) (.short 8) ⟨.rlx, .strand⟩),
    (w64 0x38 2 0 2 3 0 0 8, .stN32 (.g 2) (.g 3) (.short 8) ⟨.rlx, .strand⟩), (w96 0x38 3 0 2 3 0 0 8 1, .st (.g 2) (.g 3) (.mid 0x10008) ⟨.rlx, .strand⟩),
    (w64 0x38 7 0 2 0 0 0 8, .stZ (.g 2) (.short 8) ⟨.rlx, .strand⟩), (w64 0x39 0 0 2 3 4 (mod2 2 0) 11, .stbit (.g 2) (.g 3) (.g 4) 11 ⟨.rel, .strand⟩),
    (w96 0x3A 0 0 2 3 0 0 8 2, .windowStN8 0 (.g 2) (.g 3) 8 ⟨2, 0, 0, 0, false, none⟩ ⟨.rlx, .strand⟩),
    (w96 0x3A 1 0 2 3 0 0 8 2, .windowStN16 0 (.g 2) (.g 3) 8 ⟨2, 0, 0, 0, false, none⟩ ⟨.rlx, .strand⟩),
    (w96 0x3A 2 0 2 3 0 0 8 2, .windowStN32 0 (.g 2) (.g 3) 8 ⟨2, 0, 0, 0, false, none⟩ ⟨.rlx, .strand⟩),
    (w96 0x3A 3 0 2 3 0 0 8 (2 ^ 3 * 5 + 2 ^ 6 * 3 + 2 ^ 8 * 2), .windowSt 0 (.g 2) (.g 3) 8 ⟨0, 5, 3, 2, false, none⟩ ⟨.rlx, .strand⟩),
    (w96 0x3A 7 0 2 0 0 0 8 2, .windowStZ 0 (.g 2) 8 ⟨2, 0, 0, 0, false, none⟩ ⟨.rlx, .strand⟩) ]
theorem test_decode_loads_stores : decodes loadsStoresWords = true := by decide

/-- OP 0x40 to 0x46 (R104). -/
def syncTilesWords : List (Nat × Instr) :=
  [ (w64 0x40 0 1 2 0 0 (mod2 3 1) 8, .take (.g 1) (.mem (.g 2) 8) ⟨.ar, .core⟩),
    (w96 0x40 1 0 2 3 0 (mod2 2 1) 8 1, .put (.win (.g 2) 8 ⟨1, 0, 0, 0, false, none⟩) (.g 3) ⟨.rel, .core⟩),
    (w64 0x40 2 1 2 0 0 (mod2 1 1) 8, .peek (.g 1) (.mem (.g 2) 8) ⟨.acq, .core⟩), (w64 0x41 0 0 0 0 0 (mod2 3 5) 0, .fnc ⟨.ar, .system⟩),
    (w64 0x41 1 0 0 0 0 3 0, .fncLt .die), (w64 0x41 2 0 0 0 0 5 0, .fncHv .system), (w64 0x42 0 0 2 0 0 1 8, .pref (.g 2) (.short 8) .core),
    (w96 0x42 1 0 2 0 0 0 8 1, .prefw (.g 2) (.mid 0x10008) .strand), (w64 0x42 2 0 2 0 0 5 8, .cflush (.g 2) (.short 8) .system),
    (w64 0x42 3 0 2 0 0 0 8, .cinval (.g 2) (.short 8) .strand), (w64 0x42 4 0 0 0 0 0 0, .isync .strand),
    (w64 0x43 0 1 2 3 0 (mod2 2 3) 32, .tdecl (.g 1) (.g 2) (.g 3) 32 ⟨.rel, .die⟩), (w64 0x44 0 1 2 0 0 (mod2 2 3) 32, .tundecl (.g 1) (.g 2) 32 ⟨.rel, .die⟩),
    (w64 0x45 0 1 2 3 0 (mod2 2 3) 32, .tfwd (.g 1) (.g 2) (.reg (.g 3)) 32 ⟨.rel, .die⟩),
    (w96 0x45 0 1 2 0 0 (mod2 2 3) 32 5, .tfwd (.g 1) (.g 2) (.coord ⟨5, 0, 0, 0, false, none⟩) 32 ⟨.rel, .die⟩),
    (w64 0x46 0 1 2 0 0 5 8, .mig (.g 1) (.g 2) (.short 8) .system) ]
theorem test_decode_sync_tiles : decodes syncTilesWords = true := by decide

/-- OP 0x50 to 0x58 (R104, R41). -/
def atomicsCellsWords : List (Nat × Instr) :=
  [ (w64 0x50 0 1 2 3 0 (64 + mod2 3 2) 8, .swap (.g 1) (.g 2) (.g 3) (.short 8) true ⟨.ar, .cluster⟩),
    (w96 0x50 1 1 2 3 4 0 8 1, .cas (.g 1) (.g 2) (.g 3) (.g 4) (.mid 0x10008) false ⟨.rlx, .strand⟩),
    (w64 0x50 2 1 2 3 0 0 8, .aadd (.g 1) (.g 2) (.g 3) (.short 8) false ⟨.rlx, .strand⟩), (w64 0x50 3 1 2 3 0 0 8, .aand (.g 1) (.g 2) (.g 3) (.short 8) false ⟨.rlx, .strand⟩),
    (w64 0x50 4 1 2 3 0 0 8, .aor (.g 1) (.g 2) (.g 3) (.short 8) false ⟨.rlx, .strand⟩), (w64 0x50 5 1 2 3 0 0 8, .axor (.g 1) (.g 2) (.g 3) (.short 8) false ⟨.rlx, .strand⟩),
    (w64 0x50 6 1 2 3 0 0 8, .amin (.g 1) (.g 2) (.g 3) (.short 8) false ⟨.rlx, .strand⟩), (w64 0x50 7 1 2 3 0 0 8, .amax (.g 1) (.g 2) (.g 3) (.short 8) false ⟨.rlx, .strand⟩),
    (w64 0x50 8 1 2 3 0 0 8, .aminn (.g 1) (.g 2) (.g 3) (.short 8) false ⟨.rlx, .strand⟩), (w64 0x50 9 1 2 3 0 0 8, .amaxn (.g 1) (.g 2) (.g 3) (.short 8) false ⟨.rlx, .strand⟩),
    (w64 0x50 10 1 2 3 0 64 8, .afadd (.g 1) (.g 2) (.g 3) (.short 8) true ⟨.rlx, .strand⟩), (w64 0x51 0 0 2 3 0 (mod2 2 4) 64, .reddecl (.g 2) (.g 3) 64 ⟨.rel, .package⟩),
    (w64 0x52 0 0 2 3 4 4 64, .redAdd (.g 2) (.g 3) (.g 4) 64 ⟨.rlx, .package⟩), (w64 0x53 0 1 2 0 0 (mod2 1 4) 64, .redRd (.g 1) (.g 2) 64 ⟨.acq, .package⟩),
    (w64 0x54 0 0 2 3 0 (mod2 2 3) 16, .binit (.mem (.g 2) 16) (.g 3) ⟨.rel, .die⟩), (w96 0x54 1 1 2 3 0 (mod2 3 3) 16 4, .barv (.g 1) (.win (.g 2) 16 ⟨4, 0, 0, 0, false, none⟩) (.g 3) ⟨.ar, .die⟩),
    (w64 0x54 2 1 2 3 0 (mod2 1 3) 16, .bwait (.g 1) (.mem (.g 2) 16) (.g 3) ⟨.acq, .die⟩), (w64 0x54 3 1 2 3 0 (mod2 1 3) 16, .btest (.g 1) (.mem (.g 2) 16) (.g 3) ⟨.acq, .die⟩),
    (w64 0x55 0 6 2 3 4 (mod2 4 4) 64, .propose 3 (.g 2) (.g 3) (.g 4) 64 ⟨.sc, .package⟩), (w64 0x56 0 14 2 3 0 (mod2 1 3) 64, .dread 7 (.g 2) (.g 3) 64 ⟨.acq, .die⟩),
    (w64 0x57 0 0 2 3 0 (mod2 2 3) 64, .dcell (.g 2) (.g 3) 64 ⟨.rel, .die⟩), (w64 0x58 0 1 2 3 0 (mod2 3 5) 64, .recycle (.g 1) (.g 2) (.g 3) 64 ⟨.ar, .system⟩) ]
theorem test_decode_atomics_cells : decodes atomicsCellsWords = true := by decide

/-- OP 0x60 to 0x62 (R145); formats by their code (R58). -/
def vectorArithmeticWords : List (Nat × Instr) :=
  [ (w64 0x60 0 (v 1) (v 2) (v 3) 0 (mod2 0 0) 0, .vadd 1 2 3 ⟨.f32, .rne⟩), (w64 0x60 1 (v 1) (v 2) (v 3) 0 (mod2 1 1) 0, .vsub 1 2 3 ⟨.f64, .rtz⟩),
    (w64 0x60 2 (v 1) (v 2) (v 3) 0 (mod2 2 2) 0, .vmul 1 2 3 ⟨.h16, .rup⟩), (w64 0x60 3 (v 1) (v 2) (v 3) 0 (mod2 3 3) 0, .vdiv 1 2 3 ⟨.b16, .rdn⟩),
    (w64 0x60 4 (v 1) (v 2) (v 3) 0 0 0, .vmin 1 2 3 .f32), (w64 0x60 5 (v 1) (v 2) (v 3) 0 0 0, .vmax 1 2 3 .f32), (w64 0x60 6 (v 1) (v 2) 0 0 0 0, .vabs 1 2 .f32),
    (w64 0x60 7 (v 1) (v 2) 0 0 0 0, .vneg 1 2 .f32), (w64 0x60 8 (v 1) (v 2) 0 0 (mod2 0 4) 0, .vsqrt 1 2 ⟨.f32, .dyn⟩),
    (w64 0x61 0 (v 1) (v 2) (v 3) (v 4) 0 0, .vfma 1 2 3 4 ⟨.f32, .rne⟩), (w64 0x61 1 (v 1) (v 2) (v 3) (v 4) 0 0, .vfms 1 2 3 4 ⟨.f32, .rne⟩),
    (w64 0x61 2 (v 1) (v 2) (v 3) (v 4) 0 0, .vfnma 1 2 3 4 ⟨.f32, .rne⟩), (w64 0x61 3 (v 1) (v 2) (v 3) (v 4) 0 0, .vfnms 1 2 3 4 ⟨.f32, .rne⟩),
    (w64 0x62 0 (v 1) (v 2) (v 3) 0 (mod2 8 0) 0, .viadd 1 2 3 .s8), (w64 0x62 1 (v 1) (v 2) (v 3) 0 (mod2 9 0) 0, .visub 1 2 3 .s16),
    (w64 0x62 2 (v 1) (v 2) (v 3) 0 (mod2 10 0) 0, .vimul 1 2 3 .s32), (w64 0x62 3 (v 1) (v 2) (v 3) 0 (mod2 11 0) 0, .vand 1 2 3 .s64),
    (w64 0x62 4 (v 1) (v 2) (v 3) 0 (mod2 12 0) 0, .vor 1 2 3 .n8), (w64 0x62 5 (v 1) (v 2) (v 3) 0 (mod2 13 0) 0, .vxor 1 2 3 .n16),
    (w64 0x62 6 (v 1) (v 2) (v 3) 0 (mod2 14 0) 0, .vshl 1 2 3 .n32), (w64 0x62 7 (v 1) (v 2) (v 3) 0 (mod2 15 0) 0, .vshr 1 2 3 .n64),
    (w64 0x62 8 (v 1) (v 2) (v 3) 0 (mod2 8 0) 0, .vsar 1 2 3 .s8), (w64 0x62 9 (v 1) (v 2) (v 3) 0 (mod2 8 0) 0, .viadds 1 2 3 .s8) ]
theorem test_decode_vector_arithmetic : decodes vectorArithmeticWords = true := by decide

/-- OP 0x63 to 0x6C (R145). -/
def vectorRestWords : List (Nat × Instr) :=
  [ (w64 0x63 0 (v 1) (v 2) (v 3) 0 0 0, .vcmpeq 1 2 3 .f32), (w64 0x63 1 (v 1) (v 2) (v 3) 0 (mod2 8 0) 0, .vcmplt 1 2 3 .s8), (w64 0x63 2 (v 1) (v 2) (v 3) 0 0 0, .vcmple 1 2 3 .f32),
    (w64 0x63 3 (v 1) (v 2) (v 3) (v 4) 0 0, .vsel 1 2 3 4 .f32), (w64 0x64 0 (v 1) (v 2) (v 3) 0 0 0, .vperm 1 2 3 .f32), (w64 0x64 1 (v 1) (k 3) 0 0 0 0, .vbcast 1 (.k 3) .f32),
    (w64 0x64 2 (q 1) (v 2) 0 0 0 7, .vext (.q 1) 2 7 .f32), (w64 0x64 3 (v 1) (v 2) 3 0 0 7, .vins 1 2 (.g 3) 7 .f32), (w64 0x65 0 1 (v 2) 0 0 (mod2 0 1) 0, .vrsum (.g 1) 2 ⟨.f32, .rtz⟩),
    (w64 0x65 1 1 (v 2) 0 0 0 0, .vrmin (.g 1) 2 .f32), (w64 0x65 2 1 (v 2) 0 0 0 0, .vrmax (.g 1) 2 .f32), (w64 0x66 0 (v 1) (v 2) 0 0 (mod2 2 1) 0, .vcvt 1 2 ⟨.h16, .rtz⟩ .f32),
    (w64 0x66 1 (v 1) (v 2) (v 3) 0 (mod2 2 1) 0, .vnarrow 1 2 3 ⟨.h16, .rtz⟩ .f32), (w64 0x67 0 (v 1) 2 3 0 0 8, .vbdec 1 (.g 2) (.g 3) 8),
    (w64 0x67 1 0 2 3 (v 4) (mod2 0 1) 8, .vbenc (.g 2) (.g 3) 4 8 .rtz), (w96 0x68 0 (v 1) 2 0 0 (mod2 1 2) 8 1, .vld 1 (.g 2) (.mid 0x10008) ⟨.acq, .cluster⟩),
    (w64 0x68 1 0 2 (v 3) 0 (mod2 2 2) 8, .vst (.g 2) 3 (.short 8) ⟨.rel, .cluster⟩), (w64 0x69 0 (v 1) 2 (v 3) 0 0 1, .vgath 1 (.g 2) 3 1 ⟨.rlx, .strand⟩),
    (w64 0x69 1 0 2 (v 3) (v 4) 0 2, .vscat (.g 2) 3 4 2 ⟨.rlx, .strand⟩), (w64 0x6A 0 (v 1) (v 2) 0 0 0 0, .vexp2 1 2 ⟨.f32, .rne⟩), (w64 0x6A 1 (v 1) (v 2) 0 0 0 0, .vlog2 1 2 ⟨.f32, .rne⟩),
    (w64 0x6A 2 (v 1) (v 2) 0 0 0 0, .vrcp 1 2 ⟨.f32, .rne⟩), (w64 0x6A 3 (v 1) (v 2) 0 0 0 0, .vrsq 1 2 ⟨.f32, .rne⟩), (w64 0x6A 4 (v 1) (v 2) 0 0 0 0, .vtanh 1 2 ⟨.f32, .rne⟩),
    (w64 0x6B 0 (v 1) 2 3 0 0 0, .vrng 1 (.g 2) (.g 3)), (w64 0x6B 1 (v 1) 2 3 0 0 0, .vrngf32 1 (.g 2) (.g 3)), (w64 0x6B 2 (v 1) 2 3 0 0 0, .vrngf64 1 (.g 2) (.g 3)),
    (w64 0x6C 0 0 0 0 0 0 0, .vmodeS), (w64 0x6C 1 0 0 0 0 0 0, .vmodeL) ]
theorem test_decode_vector_rest : decodes vectorRestWords = true := by decide

/-- OP 0x80 to 0x8D (R171, R172). -/
def matrixWords : List (Nat × Instr) :=
  [ (w64 0x80 0 3 2 0 0 0 0, .tshape 3 (.reg (.g 2))), (w64 0x81 0 7 0 0 0 0 0, .tzero 7), (w64 0x82 0 1 2 3 0 0 8, .tld 1 (.g 2) (.g 3) (.short 8) ⟨.rlx, .strand⟩),
    (w64 0x82 0 1 2 3 4 (64 + mod2 1 2) 8, .tldBlk 1 (.g 2) (.g 3) (.g 4) (.short 8) ⟨.acq, .cluster⟩), (w96 0x83 0 1 2 3 0 (mod2 2 2) 8 1, .tst 1 (.g 2) (.g 3) (.mid 0x10008) ⟨.rel, .cluster⟩),
    (w64 0x84 0 (v 1) 2 3 0 (mod2 4 0) 9, .trowv 1 2 (.g 3) 9 ⟨.f8a, .rne⟩), (w64 0x84 1 (v 1) 2 3 0 0 9, .tcolv 1 2 (.g 3) 9 ⟨.f32, .rne⟩), (w64 0x84 2 1 (v 2) 3 0 (mod2 0 1) 9, .vtrow 1 2 (.g 3) 9 ⟨.f32, .rtz⟩),
    (w64 0x84 3 1 (v 2) 3 0 0 9, .vtcol 1 2 (.g 3) 9 ⟨.f32, .rne⟩), (w64 0x85 0 2 0 1 0 0 5, .mma 2 0 1 1 true), (w64 0x86 0 2 6 3 0 0 6, .mmau 2 (.g 6) 3 2 true), (w64 0x87 0 2 3 0 0 0 8, .cbload 2 (.g 3) (.short 8) ⟨.rlx, .strand⟩),
    (w64 0x88 0 0 2 0 0 0 0, .mucode (.g 2)), (w64 0x89 0 2 4 5 0 0 0, .mmar 2 4 5), (w64 0x8A 0 1 2 3 4 (mod2 2 3) 8, .mcmd (.g 1) none (.g 2) (.g 3) (.g 4) 8 ⟨.rel, .die⟩),
    (w96 0x8A 0 1 2 3 4 0 8 6, .mcmd (.g 1) (some ⟨6, 0, 0, 0, false, none⟩) (.g 2) (.g 3) (.g 4) 8 ⟨.rlx, .strand⟩), (w64 0x8B 0 0 2 3 0 0 8, .msave (.g 2) (.g 3) (.short 8) ⟨.rlx, .strand⟩),
    (w64 0x8C 0 0 2 3 0 0 8, .mrestore (.g 2) (.g 3) (.short 8) ⟨.rlx, .strand⟩), (w64 0x8D 0 1 2 0 0 0 8, .tsave 1 (.g 2) (.short 8) ⟨.rlx, .strand⟩),
    (w64 0x8D 1 1 2 0 0 0 8, .trst 1 (.g 2) (.short 8) ⟨.rlx, .strand⟩) ]
theorem test_decode_matrix : decodes matrixWords = true := by decide

/-- OP 0xA0 to 0xB7 (R196, R198). -/
def systemWords : List (Nat × Instr) :=
  [ (w64 0xA0 0 1 2 3 0 (mod2 2 4) 0, .kick (.g 1) (.g 2) (.g 3) ⟨.rel, .package⟩), (w64 0xA1 0 1 2 0 0 (mod2 2 4) 64, .tpost (.g 1) (.g 2) 64 ⟨.rel, .package⟩), (w64 0xA2 0 1 2 3 0 0 0, .spawn (.g 1) (.g 2) (.g 3) none),
    (w128 0xA2 0 1 2 3 0 0 0 7, .spawn (.g 1) (.g 2) (.g 3) (some ⟨7, 0, 0, 0, false, none⟩)), (w64 0xA3 0 0 0 0 0 0 0, .join), (w128 0xA4 0 1 2 0 0 0 0 0x1000, .glaunch (.g 1) (.g 2) 0x1000),
    (w64 0xA5 0 0 2 0 (q 3) 0 0, .qbind 3 (.g 2)), (w64 0xA6 0 1 0 2 (q 1) (mod2 2 1) 0, .qsndNb (.g 1) 1 (.g 2) ⟨.rel, .core⟩), (w64 0xA6 1 1 0 0 (q 3) 0 0, .qstat (.g 1) 3),
    (w64 0xA7 0 0 2 3 0 0 47, .nbinit (.g 2) (.g 3) 47), (w64 0xA7 1 1 2 0 0 0 5, .nbarr (.g 1) (.g 2) 5), (w64 0xA7 2 1 2 3 0 0 5, .nbwait (.g 1) (.g 2) (.g 3) 5), (w64 0xA8 0 0 0 0 0 0 0, .retire),
    (w64 0xA9 0 0 2 3 4 (mod2 2 4) 0, .bcopy (.g 2) (.g 3) (.g 4) none ⟨.rel, .package⟩), (w128 0xA9 0 0 2 3 4 0 0 0x40, .bcopy (.g 2) (.g 3) (.g 4) (some 0x40) ⟨.rlx, .strand⟩),
    (w128 0xA9 1 0 2 3 4 0 (1 + 4 * 2) 0xFF, .bcast (.g 2) (.g 3) (.g 4) 0xFF 1 2), (w64 0xB2 0 0 0 0 0 0 77, .trap 77), (w64 0xB3 0 0 0 0 0 0 78, .ecall 78), (w64 0xB4 0 0 0 0 0 0 0, .eret),
    (w64 0xB5 0 0 2 3 0 0 0, .tlbinvPg (.g 2) (.g 3)), (w64 0xB5 1 0 0 3 0 0 0, .tlbinvAll (.g 3)), (w64 0xB6 0 0 0 0 0 0 0, .halt), (w64 0xB7 0 1 2 0 0 0 0, .twait (.g 1) (.g 2)) ]
theorem test_decode_system : decodes systemWords = true := by decide

/-- OP 0xB0 and 0xB1 by register index (R198). -/
def registersWords : List (Nat × Instr) :=
  ([ ((0x000, .sstat) : Nat × SysReg), (0x001, .smode), (0x002, .fpctl), (0x003, .cbsel), (0x005, .scale 1), (0x00A, .unf 2), (0x00F, .qcfg 3), (0x014, .tshape 4), (0x018, .tdirty),
     (0x020, .time), (0x021, .timecmp), (0x080, .tvec), (0x081, .tcause), (0x082, .tpc), (0x083, .tval), (0x084, .rply), (0x085, .tres), (0x086, .tscr), (0x087, .nbpend),
     (0x088, .ptbr), (0x0C0, .wdog), (0x0C1, .mcap), (0x0C2, .thrank), (0x0C3, .tttb), (0x0C4, .mevt) ].map fun x => (w64 0xB0 0 1 0 0 0 0 x.1, .mfs (.g 1) x.2)) ++
  [ (w64 0xB1 0 0 2 0 0 0 0x000, .sstatWrite (.g 2)), (w64 0xB1 0 0 2 0 0 0 0x001, .mts .smode (.g 2)), (w64 0xB1 0 0 2 0 0 0 0x002, .fpctlWrite (.g 2)),
    (w64 0xB1 0 0 2 0 0 0 0x003, .cbselWrite (.g 2)), (w64 0xB1 0 0 2 0 0 0 0x007, .mts (.scale 3) (.g 2)), (w64 0xB1 0 0 2 0 0 0 0x008, .mts (.unf 0) (.g 2)), (w64 0xB1 0 0 2 0 0 0 0x00D, .mts (.qcfg 1) (.g 2)),
    (w64 0xB1 0 0 2 0 0 0 0x017, .tshapeWrite 7 (.g 2)), (w64 0xB1 0 0 2 0 0 0 0x018, .tdirtyWrite (.g 2)), (w64 0xB1 0 0 2 0 0 0 0x020, .mts .time (.g 2)), (w64 0xB1 0 0 2 0 0 0 0x021, .timecmpWrite (.g 2)),
    (w64 0xB1 0 0 2 0 0 0 0x080, .mts .tvec (.g 2)), (w64 0xB1 0 0 2 0 0 0 0x081, .mts .tcause (.g 2)), (w64 0xB1 0 0 2 0 0 0 0x082, .mts .tpc (.g 2)), (w64 0xB1 0 0 2 0 0 0 0x083, .mts .tval (.g 2)),
    (w64 0xB1 0 0 2 0 0 0 0x084, .mts .rply (.g 2)), (w64 0xB1 0 0 2 0 0 0 0x085, .mts .tres (.g 2)), (w64 0xB1 0 0 2 0 0 0 0x086, .mts .tscr (.g 2)), (w64 0xB1 0 0 2 0 0 0 0x087, .mts .nbpend (.g 2)),
    (w64 0xB1 0 0 2 0 0 0 0x088, .ptbrWrite (.g 2)), (w64 0xB1 0 0 2 0 0 0 0x0C0, .wdogWrite (.g 2)), (w64 0xB1 0 0 2 0 0 0 0x0C1, .mcapWrite (.g 2)), (w64 0xB1 0 0 2 0 0 0 0x0C2, .thrankWrite (.g 2)),
    (w64 0xB1 0 0 2 0 0 0 0x0C3, .tttbWrite (.g 2)), (w64 0xB1 0 0 2 0 0 0 0x0C4, .mevtWrite (.g 2)) ]
theorem test_decode_registers : decodes registersWords = true := by decide

/-- What an encoding leaves out is refused (R18, R19, R20, R40, R41, R43): OP unassigned, LEN 00, FN unassigned, a length not accepted, a
specifier above 43, a k register as destination, a field that must be zero, an order not listed, an upper tile bit, a register not listed. -/
theorem test_decode_refuses :
    [ w64 0x07 0 0 0 0 0 0 0, w64 0xC0 0 0 0 0 0 0 0, 0, w64 0 18 1 2 3 0 0 0, w96 0 0 1 2 3 0 0 0 0, w64 0 0 44 2 3 0 0 0, w64 0 0 (k 0) 2 3 0 0 0,
      w64 0 0 1 2 3 4 0 0, w64 0 0 1 2 3 0 1 0, w64 0x30 3 1 2 0 0 (mod2 2 0) 0, w64 0x81 0 8 0 0 0 0 0, w64 0xB0 0 1 0 0 0 0 0x019 ].all
      (fun w => (decodeTableWord 128 w).isNone) = true := by decide
/-! Completion. -/

def S : Hart := .strand 0 0
/-- A state of one strand, which is the current hart. -/
def alone (hs : HartState) : State := { State.reset with harts := [(.strand 0 0, hs)] }
/-- The boot strand with port 1 bound to send to its own port 2, and ports 2 and 3 bound to receive and holding an entry each. -/
def portHart : HartState :=
  setPort (setPort (setPort bootHart 1 ⟨2 ^ 16 + 2 ^ 36 + 2 ^ 37 + 2 ^ 39, [], false⟩) 2 ⟨2 ^ 39, [5], false⟩) 3 ⟨2 ^ 39, [6], false⟩
def ports : State := alone portHart
/-- Every tile of the core has 8 rows of 8 H16 elements, tile 2 of F32 elements, and belongs to the strand, whose image descriptors (R183)
name 1 × 1 images of H16. -/
def shaped : State :=
  setCore (alone { portHart with mx := { portHart.mx with ucode := 0, unf := #v[2 ^ 32 + 2 ^ 25, 2 ^ 48 + 2 ^ 32 + 2 ^ 16 + 1,
    2 ^ 40 + 2 ^ 32 + 2 ^ 24 + 2 ^ 16 + 2 ^ 8 + 1, 0] } }) 0
    (setTile { CoreState.reset with tiles := Vector.replicate 8 (tile 2) } 2 (tile 0))
where
  tile (format : Word) : Tile := { tileOf CoreState.reset 0 with shape := 8 + 2 ^ 6 * 8 + 2 ^ 16 * format + 2 ^ 28 }
/-- The hart is a copy engine. -/
def engine : State := { State.reset with harts := [(.engine 0, bootHart)], cur := .engine 0 }
/-- Named barrier 5 of core 0 counts to 3, and g3 holds 3. -/
def named : State := setCore (alone (setG bootHart 3 ⟨3, true⟩)) 0 (setNbar CoreState.reset 5 ⟨3, 0, 0, true⟩)

/-- A form's instruction may issue in `s` and meets its conditions. -/
def goes (s : State) (f : Form) : Bool :=
  match hartOf s s.cur with
  | some hs => decide (ready s s.cur hs f.need = .go) && f.ok s.cur s (readSrcs s.cur f.need.srcs hs).2 (readSrcs s.cur f.need.srcs hs).1
  | none => false
/-- The instruction completes in `s`, as its form says. -/
def completes (s : State) (i : Instr) : Bool := (programForm s i).any (goes s)
/-- The instructions beside the words of a list that `p` picks. -/
def those (l : List (Nat × Instr)) (p : Instr → Bool) : List Instr := (l.map Prod.snd).filter p
def isBulk : Instr → Bool
  | .bcopy _ _ _ _ _ | .bcast _ _ _ _ _ _ => true
  | _ => false
def isNamed : Instr → Bool
  | .nbinit _ _ _ | .nbarr _ _ _ => true
  | _ => false
def isTaken : Instr → Bool
  | .br _ | .bz _ _ | .bgez _ _ | .call _ _ | .jr _ | .callr _ _ | .ret _ => true
  | _ => false
def endsElsewhere : Instr → Bool
  | .br _ | .bz _ _ | .bnz _ _ | .bltz _ _ | .bgez _ _ | .call _ _ | .jr _ | .callr _ _ | .ret _ | .trap _ | .ecall _ | .eret | .retire | .mts .time _ => true
  | _ => false

/-- Arithmetic, SelectAndBits, RandomNumbers, Divides, FullEmptyAndWaits and ScalarFrame: each instruction completes. -/
theorem witness_scalar : (those (integerWords ++ immediateWords ++ bitsWords ++ controlWords) (fun i => !endsElsewhere i)).all (completes ports) = true := by decide
/-- LoadsAndStores, Atomics, Objects, TilesAndFences and AccessFrame. -/
theorem witness_memory : (those (loadsStoresWords ++ syncTilesWords ++ atomicsCellsWords) fun _ => true).all (completes ports) = true := by decide
/-- VectorFloat, VectorLanes, VectorScalars and VectorMemory. -/
theorem witness_vector : (those (vectorArithmeticWords ++ vectorRestWords) fun _ => true).all (completes ports) = true := by decide
/-- MatrixInstructions. -/
theorem witness_MatrixInstructions : (those matrixWords fun _ => true).all (completes shaped) = true := by decide
/-- LaunchQueuesAndBarriers and SystemRegisters. -/
theorem witness_system :
    (those systemWords (fun i => !endsElsewhere i && !isBulk i && !isNamed i)).all (completes ports) = true ∧
    (those systemWords isBulk).all (completes engine) = true ∧ (those systemWords isNamed).all (completes named) = true := by decide +kernel

theorem witness_SystemRegisters : (those (registersWords.take 26) (fun i => !endsElsewhere i)).all (completes ports) = true ∧
    (those (registersWords.drop 26) (fun i => !endsElsewhere i)).all (completes ports) = true := by decide

/-! States and operands that meet the hypotheses of the other statements. -/

/-- The state that a result holds. -/
def next (r : Result) : State := match r with
  | .next t => t
  | _ => State.reset
def isNext (r : Result) : Bool := match r with
  | .next _ => true
  | _ => false
/-- An instruction word is placed where the next step fetches. -/
def placed (w : Nat) : State := State.reset.withFetchWord 64 w
def addState : State := placed (w64 0 0 1 2 3 0 0 0)

theorem witness_EncodeThenDecode : (Instr.add (.g 1) (.g 2) (.g 3)).wellFormed = true ∧ ((Instr.add (.g 1) (.g 2) (.g 3)).head true).isSome = true := by
  decide
theorem witness_DecodedIsWellFormed : (decode (leBytes 8 (w64 0 0 1 2 3 0 0 0))).isOk = true := by decide

/-- The head of the agenda is the turn of a hart whose bytes decode. -/
def runsNow (s : State) : Bool := match s.agenda with
  | .issue h :: rest => (hartOf s h).any fun hs => fetches { s with agenda := rest } h hs && slotTurn { s with agenda := rest } h &&
      (autoDest { s with agenda := rest } h hs).isNone && issuePc hs &&& 3#64 == 0 &&
      match fetchBlock { s with agenda := rest } h hs (issuePc hs) with
      | .block b _ => (decode ((leBytes 32 b.toNat).drop ((issuePc hs).toNat % 32))).isOk
      | _ => false
  | _ => false
theorem witness_StepRunsDecoded : runsNow addState = true := by decide

/-- How fetch and decode of the boot strand end. -/
def fetchEnds (s : State) (hs : HartState) : Option (Cause ⊕ DecodeError) := match fetchBlock s (.strand 0 0) hs (issuePc hs) with
  | .fault c => some (.inl c)
  | .wait _ => none
  | .block b _ => match decode ((leBytes 32 b.toNat).drop ((issuePc hs).toNat % 32)) with
    | .error c => some (.inr c)
    | .ok _ => none
theorem witness_FetchTraps_ialign : bootHart.run.park ≠ .marker ∧ issuePc { bootHart with pc := 2 } &&& 3#64 ≠ 0 := by decide
/-- A fetch at user level is not translated, and the walk of its page has ended in a fault. -/
def lost : HartState := { bootHart with
  st := { bootHart.st with priv := 0 }
  ptbr := ⟨0, 1⟩
  run := { bootHart.run with fetchFault := some (bootPc.toNat, .ifetch) } }
theorem witness_FetchTraps_ifetch : fetchEnds State.reset lost = some (.inl .ifetch) := by decide
/-- A PAD word in front of ADD (R19). -/
def padded : State := { addState with mem := memSetNat (memSetNat addState.mem bootPc.toNat 4 0xFFFFFFFC) (bootPc.toNat + 4) 8 (w64 0 0 1 2 3 0 0 0) }
theorem witness_FetchTraps_pad : (fetchIssue padded S bootHart).2 = some (.add (.g 1) (.g 2) (.g 3)) ∧ nextPc padded S bootHart = bootPc + 4 := by decide +kernel
theorem witness_FetchTraps_illenc : fetchEnds State.reset bootHart = some (.inr .illenc) := by decide
theorem witness_FetchTraps_illop : fetchEnds (placed (w64 7 0 0 0 0 0 0 0)) bootHart = some (.inr .illop) := by decide

theorem witness_StepKeepsMemoryForm : memWf addState.mem = true ∧ isNext (step addState) = true := by decide
theorem witness_StepKeepsOneHartPerSlot : (addState.harts.map Prod.fst).Nodup ∧ isNext (step addState) = true := by decide
theorem witness_LittleEndian : memWf [⟨5, 1⟩, ⟨7, 255⟩] = true := by decide
theorem witness_IssueKeepsMemory : isNext (exec (.add (.g 1) (.g 2) (.g 3)) ports) = true := by decide

/-- A strand at user level. -/
def user (hs : HartState) : HartState := { hs with st := { hs.st with priv := 0 } }
/-- An operation without a result, as often as `n` says. -/
def busy (n : Nat) : HartState := { bootHart with run := { bootHart.run with ops := List.replicate n { newOp bootHart (.value 0) .none with phase := .done [] } } }

/-- Port 0 receives and holds nothing; port 1 sends and was told to stop. -/
def stuck : HartState := setPort (setPort bootHart 0 ⟨2 ^ 39, [], false⟩) 1 ⟨2 ^ 37 + 2 ^ 39, [], true⟩

theorem witness_IssueRefusals_engop : ((Need.profile { profile := .coreOnly }) = .coreOnly ∧ isEngine (.engine 0) = true) ∧
    ((Need.profile { profile := .engineOnly }) = .engineOnly ∧ isEngine (.strand 0 0) = false) := by decide
theorem witness_IssueRefusals_priv : ofProfile (.strand 0 0) { supervisor := true } ∧ (user bootHart).st.priv = 0 ∧
    ofProfile (.strand 0 0) { refused := true } := ⟨⟨nofun, nofun⟩, rfl, nofun, nofun⟩
/-- Two ports are popped, and the second is not bound for it; one is popped and one pushed, which is bound the other way. -/
theorem witness_IssueRefusals_qunb : (admitted (.strand 0 0) stuck { srcs := [.q 0, .g 1, .q 1] } ∧ receives stuck 0 ∧ ¬ receives stuck 1) ∧
    admitted (.strand 0 0) portHart { srcs := [.q 3], dsts := [.q 2] } ∧ receives portHart 3 ∧ ¬ sends portHart 2 := by
  simp only [receives, sends]
  exact ⟨⟨⟨rfl, ⟨nofun, nofun⟩, rfl, nofun⟩, by decide, by decide⟩, ⟨rfl, ⟨nofun, nofun⟩, rfl, nofun⟩, by decide, by decide⟩
theorem witness_IssueRefusals_reg : admitted (.strand 0 0) (emptyG bootHart 1) { srcs := [.g 1] } ∧
    badPort (emptyG bootHart 1) (popPorts [.g 1]) (pushPorts []) = none ∧ gFull (emptyG bootHart 1) 1 = false ∧
    vecFull (emptyVec bootHart 1) 1 = false := ⟨⟨rfl, ⟨nofun, nofun⟩, rfl, nofun⟩, by decide⟩
theorem witness_IssueRefusals_queue : badPort stuck (popPorts [.q 0]) (pushPorts [.q 1]) = none ∧
    portWaits (alone stuck) (.strand 0 0) stuck { srcs := [.q 0], dsts := [.q 1] } 0 ∧
    portWaits (alone stuck) (.strand 0 0) stuck { srcs := [.q 0], dsts := [.q 1] } 1 := by simp only [portWaits]; decide
theorem witness_IssueRefusals_place : badPort (busy 8) (popPorts []) (pushPorts []) = none ∧
    blockedPorts (alone (busy 8)) (.strand 0 0) (busy 8) [] [] = [] ∧ 8 ≤ placesUsed (busy 8) ∧ inWindow { busy 1 with pc := bootPc + 256 } = false := by decide

/-- What the readiness checks say of an instruction. -/
def readiness (s : State) (i : Instr) : Option Ready := (hartOf s s.cur).bind fun hs => (programForm s i).map fun f => ready s s.cur hs f.need
theorem witness_WaitsUnissued : readiness (alone (emptyG bootHart 2)) (.add (.g 1) (.g 2) (.g 3)) = some (.park .reg) := by decide
theorem witness_TrapsAtIssue : readiness (alone (user bootHart)) .halt = some (.trap .priv 0) ∧ mayTrap (user bootHart) := by
  simp only [mayTrap]; decide
theorem witness_TrapsAtIssue_engine : readiness engine .halt = some (.trap .engop 0) ∧ isEngine engine.cur = true := by decide

/-- A load from core 0 of module 1 is outstanding. -/
def farLoad : Instr := .windowLd 0 (.g 1) (.g 2) 0 ⟨0, 0, 0, 0, true, some 1⟩ ⟨.rlx, .system⟩
def afterFarLoad : State := next (exec farLoad ports)
theorem witness_SecondRemoteWaits : readiness afterFarLoad farLoad = some .go ∧ (accessTable farLoad).any (goes afterFarLoad) = false ∧
    (accessTable farLoad).isSome = true := by decide

/-- A transfer is ready, is taken or not, goes to an aligned target or not, and finds the strand drained or not. -/
def flows (hs : HartState) (i : Instr) (taken even clear : Bool) : Bool := (flowForm i).any fun f =>
  let hs1 := (readSrcs (.strand 0 0) f.srcs hs).2
  let vals := (readSrcs (.strand 0 0) f.srcs hs).1
  decide (ready (alone hs) (.strand 0 0) hs { srcs := f.srcs } = .go) && f.taken vals == taken &&
    (f.target (issuePc hs1) vals &&& 3#64 == 0) == even && drained hs1 == clear
theorem witness_Transfers_taken : (those controlWords isTaken).all (fun i => flows bootHart i true true true) = true ∧ flows (setG bootHart 2 ⟨-1, true⟩) (.bltz (.g 2) (.short 2)) true true true = true ∧
    flows (setG bootHart 2 ⟨5, true⟩) (.bnz (.g 2) (.short 2)) true true true = true := by decide
theorem witness_Transfers_waits : flows (busy 1) (.br (.short 2)) true true false = true := by decide
theorem witness_Transfers_ialign : flows (setG bootHart 2 ⟨6, true⟩) (.jr (.g 2)) true false true = true := by decide
theorem witness_Transfers_untaken : flows bootHart (.bnz (.g 2) (.short 2)) false true true = true := by decide

theorem witness_LoadValues : (newOp bootHart (.load true) .none).op = .load true ∧ ([255] : List Byte).length ∈ [1, 2, 4, 8] ∧
    (newOp bootHart (.loadBits 3 64 true) .none).op = .loadBits 3 64 true ∧ 1 ≤ 64 := by decide

/-- A divide of 7 by 2 into g1 is outstanding. -/
def dividing : State := next (exec (.div (.g 1) (.g 2) (.g 3)) (alone (setG (setG bootHart 2 ⟨7, true⟩) 3 ⟨2, true⟩)))
def firstOp (s : State) : Option Pending := (hartOf s (.strand 0 0)).bind fun hs => hs.run.ops.head?
theorem witness_ResultFillsRegister : (firstOp dividing).map (fun p => (p.phase, p.spoiled, p.dest)) = some (.done [3], false, .scalar (.g 1)) ∧
    ((hartOf dividing (.strand 0 0)).bind fun hs => findOp hs ((firstOp dividing).map Pending.seq |>.getD 9)) = firstOp dividing := by decide

/-- A store of 8 bytes to address 0x200000 is accepted. -/
def storing : State := next (exec (.st (.g 2) (.g 3) (.short 0) ⟨.rlx, .strand⟩) (alone (setG (setG bootHart 2 ⟨0x200000, true⟩) 3 ⟨0x0807060504030201, true⟩)))
theorem witness_StoreWritesItsBytes : (firstOp storing).map (fun p => (p.op, p.spans.map fun x => (x.at_).map Placed.pa)) =
    some (.store [[1, 2, 3, 4, 5, 6, 7, 8]], [some 0x200000]) := by decide
theorem witness_VisibleStoreFrame : let s := next (exec (.storeAccept (.strand 0 0) ((firstOp storing).map Pending.seq |>.getD 9)) storing)
    isNext (exec (.ownershipRequest (.store 0)) s) = true ∧ (storeOf s 0).map (fun a => (a.p.op, a.p.spans.map Span.len)) = some (.store [[1, 2, 3, 4, 5, 6, 7, 8]], [8]) := by decide
def withMem (m : List Host.Cell) (s : State) : State := { s with mem := m }
/-- A store of two pieces, of which the second covers the last byte of the first. -/
def twoPieces : Pending :=
  let piece (pa : Nat) : Span := ⟨BitVec.ofNat 64 pa, 2, .write, some ⟨pa, 2, 0, pa, 0, 0, 0⟩⟩
  { newOp bootHart (.store [[1, 2], [3, 4]]) .none with spans := [piece 0x200000, piece 0x200001] }
theorem witness_StoreWritesItsBytes_pieces : [[1, 2], [3, 4]].map List.length = twoPieces.spans.map Span.len ∧
    memByte (storeEffect State.reset twoPieces).mem 0x200000 = 1 ∧ memByte (storeEffect State.reset twoPieces).mem 0x200001 = 3 := by decide
theorem witness_AtomicValues : memWf State.reset.mem = true ∧ fdecode .f32 0x7FC00000 = .nan ∧ fdecode .f64 0x7FF0000000000000 = .inf false ∧
    fdecode .f32 0x3F800000 = .fin false (2 ^ 23) (-23) ∧ fdecode .f64 (2 ^ 63) = .fin true 0 (-1074) := by decide +kernel
/-- AFADD of 1 and 2, and of 1 and -1 (R122). -/
theorem test_afadd : let sum (x y : Nat) := memNat (atomicEffect (withMem (memSetNat [] 64 4 x) ports) 64 4 .fadd (natWord y) 0).1.mem 64 4
    sum 0x3F800000 0x40000000 = 0x40400000 ∧ sum 0x3F800000 0xBF800000 = 0 ∧ sum (2 ^ 31) (2 ^ 31) = 2 ^ 31 := by decide +kernel

/-- A barrier object at address 16 that expects 3 arrivals and has one. -/
def barrier : State := { State.reset with mem := memSetNat (memSetNat [] 16 4 3) 20 4 1 }
theorem witness_BarrierArrives : memWf barrier.mem = true ∧ barExp barrier.mem 16 < barArr barrier.mem 16 + 3 ∧
    barArr barrier.mem 16 + 1 < barExp barrier.mem 16 ∧ barArr barrier.mem 16 + 2 = barExp barrier.mem 16 := by decide
/-- A cell at address 64 that is open for generation 5, and one that is decided. -/
def openCell : List Host.Cell := cellWrite [] 64 0 5 0 0
def decidedCell : List Host.Cell := cellWrite [] 64 1 5 9 0
theorem witness_DecidesOnce : memWf openCell = true ∧ cellGen openCell 64 = (5 : Word).toNat % 2 ^ 30 ∧ cellState openCell 64 = 0 ∧
    memWf decidedCell = true ∧ cellGen decidedCell 64 = (5 : Word).toNat % 2 ^ 30 ∧ cellState decidedCell 64 = 1 := by decide
theorem witness_Untranslated : bootHart.ptbr.root = 0 ∧ canonical (2 ^ 56) = false ∧ canonical 8 = true ∧ memPaOk 8 = true ∧
    isWindow (2 ^ 42 - 1) = false ∧ memPaOk (2 ^ 42 - 1) = false ∧ canonical (2 ^ 42 - 1) = true := by decide +kernel
theorem witness_ExactValuesRoundToThemselves : 0x3F800000 < 2 ^ (1 + (fspec .f32).eb + (fspec .f32).fb) ∧ fdecode .f32 0x3F800000 ≠ .nan := by decide

theorem witness_TrapAndEcall_RetireEnds : mayTrap bootHart ∧ ready ports (.strand 0 0) bootHart {} = .go ∧ drained bootHart = true ∧
    ownStores ports bootHart.id.uid = [] ∧ ports.pushes = [] ∧ bootHart.st.jcnt = 0 := by simp only [mayTrap]; decide
theorem witness_TrapAndEcall_engine : ready engine (.engine 0) bootHart {} = .go ∧ isEngine engine.cur = true := by decide
theorem witness_RetireEnds_waits : ready (alone (busy 1)) S (busy 1) {} = .go ∧ finished (alone (busy 1)) (busy 1) = false ∧
    finished ports { bootHart with st := { bootHart.st with jcnt := 1 } } = true := by decide
theorem witness_EretReturns : ready ports (.strand 0 0) portHart { profile := .coreOnly, supervisor := true } = .go := by decide

/-- A load at address 0x100000 has faulted and is reported. -/
def faulted : HartState := { bootHart with run := { bootHart.run with ops := [{ newOp bootHart (.load false) (.scalar (.g 1)) with phase := .faulted .pgflt 8 }] } }
theorem witness_MemoryFaultTrap : faulted.run.halted = false ∧ faulted.st.tip = false ∧ clean faulted = true ∧ oldestFault faulted = some (.pgflt, 8) := by decide
theorem witness_DoubleTrapHalts : clean { bootHart with st := { bootHart.st with tip := true } } = true ∧
    oldestFault { bootHart with st := { bootHart.st with tip := true } } = none := by decide
theorem witness_AsyncTaken : asyncReady { bootHart with run := { bootHart.run with async := [(.timer, 0)] } } = true := by decide

/-! Events: each is due in a state. -/

/-- The boot strand after one instruction. -/
def did (i : Instr) (hs : HartState) : State := next (exec i (alone hs))
def withRun (f : RunState → RunState) : HartState := { bootHart with run := f bootHart.run }
/-- The strand is in migratory mode, has issued 64 instructions, and comes to a load from address 0x300000. -/
def roaming : State :=
  let s := placed (w64 0x30 3 1 2 0 0 0 0)
  { s with harts := [(S, { setG bootHart 2 ⟨0x300000, true⟩ with migr := true, run := { bootHart.run with issued := 64 } })] }
/-- Core 0 accepts commands of capability 7, and the strand has sent it TZERO of tile 1. -/
def commanding : State :=
  let s := setCore shaped 0 { coreOf shaped 0 with mcap := 7 }
  next (exec (.mcmd (.g 1) none (.g 2) (.g 3) (.g 4) 0 ⟨.rlx, .strand⟩)
    { s with harts := [(S, setG (setG bootHart 3 ⟨BitVec.ofNat 64 (w64 0x81 0 1 0 0 0 0 0), true⟩) 4 ⟨7, true⟩)] })

theorem witness_HartEvents :
    (hartEvents dividing (.resultReturn S 0)).isSome = true ∧ (hartEvents storing (.storeAccept S 0)).isSome = true ∧
    (hartEvents (alone faulted) (.trapEntry S)).isSome = true ∧ (hartEvents ports (.asyncCauseTaken S)).isSome = true ∧
    (hartEvents { alone { bootHart with timecmp := 5 } with now := 9 } (.timer S)).isSome = true ∧
    (hartEvents (did (.twait (.g 1) (.g 2)) bootHart) (.twaitDeadline S 0)).isSome = true ∧
    (hartEvents (setCore (alone (withRun fun r => { r with watch := 3 })) 0 { CoreState.reset with wdog := 2 }) (.watchdogExpiry S)).isSome = true ∧
    (hartEvents (alone (withRun fun r => { r with drain := some (1, [.core 0]) })) (.drainRequest S (.core 0))).isSome = true ∧
    (hartEvents { alone (withRun fun r => { r with park := .longContext }) with longWait := [bootHart.id.uid] } (.longContextGrant 0)).isSome = true ∧
    (hartEvents (did (.add (.q 1) (.g 2) (.g 3)) portHart) (.queuePush 0)).isSome = true ∧ (hartEvents ports (.queueGoSignal S 1)).isSome = true ∧
    (hartEvents (setCore ports 0 { CoreState.reset with frozen := some ⟨0, []⟩ }) (.thawCheck S)).isSome = true ∧
    (hartEvents (next (exec (.tzero 1) shaped)) (.matrixInstructionCompletion 0)).isSome = true ∧
    (hartEvents { ports with ships := [⟨0, bootHart.id.uid, some bootHart, [], 0, 0, 1, 1, none⟩] } (.migrationMessage 0)).isSome = true := by decide
theorem witness_HartEvents_command : (hartEvents commanding (.mcmdCommandArrival S 0)).isSome = true := by decide
theorem witness_HartEvents_migration : (hartEvents roaming (.automaticMigration S)).isSome = true := by decide

/-- The strand's last operation is a store that its buffer has accepted. -/
def accepting (done : Bool) (s : State) : State := match firstOp s with
  | some p => { s with stores := [⟨0, S, bootHart.id.uid, 0, false, bootHart.id.gang, some 0, p, done⟩] }
  | none => s
/-- A word goes to an offset of a window kind of core 0. -/
def toWindow (kind : BitVec 3) (off v : Word) : State :=
  accepting false (did (.windowSt kind (.g 2) (.g 3) 0 ⟨0, 0, 0, 0, false, none⟩ ⟨.rlx, .strand⟩) (setG (setG portHart 2 ⟨off, true⟩) 3 ⟨v, true⟩))
/-- A store to a full port waits there, and its strand is over with it. -/
theorem witness_RetireEnds_atPort : let s := toWindow 5 0 9
    ((ownStores s bootHart.id.uid).map Accepted.atPort) = [true] := by decide

theorem witness_WindowEvents :
    (windowEvents (toWindow 7 0 1) (.sctlRun 0)).isSome = true ∧ (windowEvents (toWindow 7 0 8) (.sctlDblClear 0)).isSome = true ∧
    (windowEvents (toWindow 5 0x20 9) (.qportDataStore 0)).isSome = true ∧ (windowEvents (toWindow 5 0x28 9) (.qportBindingStore 0)).isSome = true ∧
    (windowEvents (toWindow 6 8 0) (.nbarWindowStore 0)).isSome = true ∧ (windowEvents (toWindow 2 0 5) (.tileWindowStore 0)).isSome = true ∧
    (windowEvents (accepting false (did (.putr none (.g 2) (.g 3) 0 ⟨.rlx, .core⟩) bootHart)) (.putrArrival 0)).isSome = true ∧
    (windowEvents (toWindow 0 0 5) (.windowAccessArrival (.store 0))).isSome = true ∧
    (windowEvents (accepting false (did (.windowStZ 1 (.g 2) 0 ⟨0, 0, 0, 0, false, none⟩ ⟨.rlx, .strand⟩) bootHart)) (.windowAccessArrival (.store 0))).isSome = true ∧
    (windowEvents (did (.windowLd 0 (.g 1) (.g 2) 0 ⟨0, 0, 0, 0, false, none⟩ ⟨.rlx, .strand⟩) bootHart) (.windowAccessArrival (.op S 0))).isSome = true ∧
    (windowEvents (accepting true storing) (.remoteStoreAcknowledgement 0 true)).isSome = true ∧
    (windowEvents (accepting true storing) (.remoteStoreAcknowledgement 0 false)).isSome = true ∧
    (windowEvents { afterFarLoad with now := 2 ^ 60 } (.remoteTimeout S 0)).isSome = true := by decide

/-- The strand with address 0x300000 in g2 and the number 1 in g3 to g5. -/
def pointing : HartState := setG (setG (setG (setG bootHart 2 ⟨0x300000, true⟩) 3 ⟨1, true⟩) 4 ⟨1, true⟩) 5 ⟨1, true⟩
def reading : State := did (.ld (.g 1) (.g 2) (.short 0) ⟨.rlx, .strand⟩) pointing
def writing : State := accepting false (did (.st (.g 2) (.g 3) (.short 0) ⟨.rlx, .strand⟩) pointing)
def swapping : State := did (.swap (.g 1) (.g 2) (.g 3) (.short 0) false ⟨.ar, .system⟩) pointing
/-- An engine, whose accesses are uncached, has issued a load. -/
def engineReading : State := next (exec (.ld (.g 1) (.g 2) (.short 0) ⟨.rlx, .strand⟩) { State.reset with harts := [(.engine 0, pointing)], cur := .engine 0 })
/-- A tile of two rows at 0x300000, without copies. -/
def tiled (s : State) : State := { s with tiles := [⟨0x300000, 2, 32, 64, 64, .ti, none, 0, 0, [], false, false, []⟩] }
def proposing (m : List Host.Cell) : State := withMem m (did (.propose 3 (.g 2) (.g 3) (.g 4) 0 ⟨.ar, .system⟩) pointing)
def snooped : State := { reading with snoops := [⟨0x300000, .op S 0, false, 0, [.line 0x300000 128]⟩], now := 2 ^ 60 }

/-- An engine's store of 1 to address 0x300000, accepted: it is performed at the home. -/
def engineWriting : State := next (execStoreAccept (.engine 0) 0 (next (exec (.st (.g 2) (.g 3) (.short 0) ⟨.rlx, .strand⟩)
  { State.reset with harts := [(.engine 0, pointing)], cur := .engine 0 })))
theorem witness_VisibleStoreFrame_paths :
    memByte (next (exec (.ownershipRequest (.store 0)) writing)).mem 0x300000 = 1 ∧
    memByte (next (exec (.ucStore (.store 0)) engineWriting)).mem 0x300000 = 1 ∧
    memByte (next (exec (.tileRequest .write (.store 0)) (tiled writing))).mem 0x300000 = 1 ∧
    memByte (next (exec (.tileRequest .home (.store 0)) (tiled engineWriting))).mem 0x300000 = 1 := by decide

theorem witness_MemoryEvents_coherence :
    (memoryEvents { ports with prefetches := [(0, 0x300000, 0, false)] } (.readRequest (.core 0 0x300000))).isSome = true ∧
    (memoryEvents { ports with prefetches := [(0, 0x300000, 0, true)] } (.ownershipRequest (.core 0 0x300000))).isSome = true ∧
    (memoryEvents reading (.readRequest (.op S 0))).isSome = true ∧ (memoryEvents writing (.ownershipRequest (.store 0))).isSome = true ∧
    (memoryEvents swapping (.ownershipRequest (.op S 0))).isSome = true ∧ (memoryEvents swapping (.ucStore (.op S 0))).isSome = true ∧
    (memoryEvents engineReading (.ucLoad (.engine 0) 0)).isSome = true ∧
    (memoryEvents (accepting false (did (.binit (.mem (.g 2) 0) (.g 3) ⟨.rlx, .system⟩) pointing)) (.ucStore (.store 0))).isSome = true ∧
    (memoryEvents { ports with grains := [(0x300000, ⟨64, none, 1, 1, [0], false, false, []⟩)] } (.eviction 0 0x300008)).isSome = true := by decide
theorem witness_MemoryEvents_tiles :
    (memoryEvents (tiled ports) (.eviction 0 0x300000)).isSome = true ∧ (memoryEvents (tiled reading) (.tileRequest .read (.op S 0))).isSome = true ∧
    (memoryEvents (tiled writing) (.tileRequest .write (.store 0))).isSome = true ∧
    (memoryEvents (did (.tdecl (.g 1) (.g 2) (.g 3) 0 ⟨.rel, .system⟩) pointing) (.tileRequest .home (.op S 0))).isSome = true := by decide
theorem witness_MemoryEvents_cells :
    (memoryEvents (did (.take (.g 1) (.win (.g 2) 0 ⟨0, 0, 0, 0, false, none⟩) ⟨.ar, .core⟩) (setG bootHart 2 ⟨0x3C000, true⟩))
      (.fewordRequestArrival S 0)).isSome = true ∧
    (memoryEvents (did (.bwait (.g 1) (.mem (.g 2) 0) (.g 3) ⟨.acq, .system⟩) pointing) (.barrierOpAtHome S 0)).isSome = true ∧
    (memoryEvents (withMem (memSetNat [] 0x300000 8 (2 ^ 63 + 4)) (next (exec (.storeAccept S 0) (did (.redAdd (.g 2) (.g 3) (.g 4) 0 ⟨.rlx, .system⟩) pointing))))
      (.redAddAtHome S 0)).isSome = true ∧
    (memoryEvents (proposing (cellWrite [] 0x300000 0 1 0 0)) (.decideOnceAtHome S 0 false)).isSome = true ∧
    (memoryEvents { did (.dread 3 (.g 2) (.g 3) 0 ⟨.acq, .system⟩) pointing with copies := [⟨0x300000, 1, 9⟩] } (.decideOnceAtHome S 0 true)).isSome = true := by decide +kernel
theorem witness_MemoryEvents_host :
    (memoryEvents ports (.hostRead 0 0x300000)).isSome = true ∧ (memoryEvents ports (.hostOwnershipRequest 0 0x300000)).isSome = true ∧
    (memoryEvents snooped (.backInvalidationResponse 0 0x300000 none)).isSome = true ∧
    (memoryEvents snooped (.backInvalidationResponse 0 0x300000 (some 5))).isSome = true ∧
    (memoryEvents snooped (.backInvalidationTimeout 0 0x300000)).isSome = true ∧
    (memoryEvents { ports with dies := [(0, { DieState.reset with walks := [⟨⟨0, 0⟩, 0x300000, [], []⟩] })] } (.translationWalk 0 0)).isSome = true := by decide

/-- What a launch takes from the boot strand. -/
def poster : Poster := ⟨bootHart.id.gang, ⟨0, 0⟩, 1, 0, 0⟩
/-- Engine 0 runs with one operation. -/
def engineWith (p : Pending) : State := { State.reset with harts := [(.engine 0, { bootHart with run := { bootHart.run with ops := [p] } })] }
/-- A copy of 64 bytes to 0x300000 that is delivered and has yet to arrive on the object at 0x400000. -/
def copying : Pending := newOp bootHart (.bcopy 0x300000 0x310000 64 (some 0x400000) 64 0) .none
/-- A child's decrement goes to record 0 of die 0, whose parent is the boot strand. -/
def joining : State := { ports with msgs := [(0, .join ⟨0, 0⟩)], dies := [(0, { DieState.reset with joins := [(0, ⟨bootHart.id.uid, 1⟩)] })] }
/-- Type 0 of the task table at address 0 starts one strand at 0x1000, and a task of it waits in the pool. -/
def pooled : State := setModule (withMem (memSetNat [] 0 32 (0x1000 + 2 ^ 64 + 2 ^ 87)) ports) 0
  { ModuleState.reset with pool := [⟨.task ⟨0, 0x400000, 0x400000, 0, false, 0, 0, 0, 0, poster, none⟩, 0, 0, 0, 0⟩] }

theorem witness_LaunchEvents :
    (launchEvents (engineWith { newOp bootHart (.load false) (.scalar (.g 1)) with phase := .faulted .pgflt 8 }) (.engineTrap 0)).isSome = true ∧
    (launchEvents { ports with kicks := [(0, ⟨0x300000, poster⟩)] } (.engineStart 0)).isSome = true ∧
    (launchEvents (engineWith copying) (.burstArrival 0)).isSome = true ∧
    (launchEvents { ports with msgs := [(0, .launch (some 1) bootHart.id.uid 0 0x1000 7 poster)] } (.launchMessage 0)).isSome = true ∧
    (launchEvents joining (.joinDecrement 0)).isSome = true ∧ (launchEvents pooled (.placement 0)).isSome = true := by decide

/-- A record of an action of gang 1 that began at 0, on module 0 alone. -/
def order (act : Nat) : Timed := ⟨0, act, 1, 0, 0, 0x500000, [0], poster, false, [], false⟩
def held (act now : Nat) : State := { setModule ports 0 { ModuleState.reset with timed := [order act] } with now := now }
def told (m : Msg) (s : State) : State := { s with msgs := [(0, m)] }
/-- A gang grid of modules 0 and 1 that began at 0. -/
def ganged : State := setModule ports 0
  { ModuleState.reset with grids := [⟨3, [0, 0, 0, 0], { poster with gang := 1 }, 0, [], [], [], [], [], 0, 0, some ⟨[0, 1], 0, []⟩, some 1, 0⟩] }

theorem witness_GangEvents :
    (gangEvents (held 0 9) (.timedLaunch 0 0)).isSome = true ∧ (gangEvents (held 1 9) (.preEmpt 0 0)).isSome = true ∧
    (gangEvents (held 2 9) (.resume 0 0)).isSome = true ∧ (gangEvents (told (.report 0 0 ⟨0, 0, false, false, [], []⟩) (held 0 0)) (.gangReport 0)).isSome = true ∧
    (gangEvents (held 0 30000) (.reportDeadline 0 1)).isSome = true ∧
    (gangEvents (told (.token 0 1) (setModule ports 0 { ModuleState.reset with unit := ⟨.free, 0, 0, 0, 0⟩ })) (.switchToken 0)).isSome = true ∧
    (gangEvents (told (.release 0 1 0 1) ganged) (.releaseMessage 0)).isSome = true ∧ (gangEvents (told (.share 0 1 0 1) ganged) (.shareComplete 0)).isSome = true ∧
    (gangEvents (told (.gridDone 0 1 0 1 []) ganged) (.gridComplete 0)).isSome = true := by decide

theorem witness_HostAndLinkEvents_host :
    (hostEvents ports (.dmatail 0 1)).isSome = true ∧ (hostEvents ports (.dmactlEn 0 true)).isSome = true ∧ (hostEvents ports (.dmactlReset 0)).isSome = true ∧
    (hostEvents ports (.dmastatErrClear 0 1)).isSome = true ∧ (hostEvents ports (.mbxbell 0 3)).isSome = true ∧ (hostEvents ports (.mbxdoneClear 0 1)).isSome = true ∧
    (hostEvents ports (.registerWrite 0 .dmabase 0x300000)).isSome = true ∧ (hostEvents ports (.hostLinkRetraining 0)).isSome = true ∧
    (hostEvents ports (.hostLinkDown 0)).isSome = true ∧ (hostEvents ports (.attestationRequest 0 5)).isSome = true := by decide
/-- The DMA unit has one descriptor, which copies 64 bytes to 0x310000 and completes at 0x320000; whether the host allows it or not, it is
performed. -/
def copyingIn : State := setModule (withMem (memSetNat [] 0x300000 32 (2 ^ 64 * 0x310000 + 2 ^ 128 * 64 + 2 ^ 192 * 0x320000)) ports) 0
  { ModuleState.reset with host := { HostState.reset with base := 0x300000, tail := 1, en := true } }
theorem witness_HostAndLinkEvents_descriptor : dmaDue (moduleOf copyingIn 0).host = true ∧ (moduleOf copyingIn 0).stopped = false ∧
    ∀ b : Bool, (granted ((cohAsk copyingIn (.dma 0) [(0x300000, 32, 1)] true .read none [(0x300000, 32, 1)]).bind fun t =>
      dmaAccess t 0 (descriptorOf (memNat copyingIn.mem 0x300000 32)) b) id).isSome = true := by decide
/-- A relaxed AADD to an address whose home is on die 1 (R233), and the request that a welt makes of it. -/
def adding : State := did (.aadd (.g 1) (.g 2) (.g 3) (.short 0) false ⟨.rlx, .system⟩) (setG bootHart 2 ⟨0x8000, true⟩)
def combinedState (now : Nat) : State := { adding with combined := [⟨4, 0, .add, 8, 0x8000, [(S, 0)], 100000, false⟩], now := now }
def clocked (u : TimeUnit) (now : Nat) : State := { setModule ports 0 { ModuleState.reset with unit := u } with now := now }
/-- Two modules on an X ring, and a flit of core 0 of module 1 to module 0: on a tie it goes X+, by port 0, and arrives at port 8 (R340, R342). -/
def ring : State := { ports with extents := ⟨2, 1, 1, 1⟩ }
def ringFlit (n : BitVec 12) : Flit := ⟨n, 6, .header ⟨1, 0, .strand 1024 0, some 1, .req, 1⟩⟩
theorem witness_HostAndLinkEvents_link :
    (linkEvents ports (.ptpSync 0 40 true)).isSome = true ∧ (linkEvents ports (.ptpSync 0 0 false)).isSome = true ∧
    (linkEvents (clocked ⟨.locked, 0, 3, 0, 0⟩ 9) (.holdover 0)).isSome = true ∧ (linkEvents (clocked ⟨.holdover, 0, 3, 0, 0⟩ (2 ^ 40)) (.freeRunning 0)).isSome = true ∧
    (linkEvents (clocked ⟨.locked, 0, 0, 0, 2000000⟩ 9) (.timeStep 0 2000000)).isSome = true ∧ (linkEvents ring (.flitReceive 0 8 (ringFlit 0) (crc32 (flitBytes (ringFlit 0))))).isSome = true ∧
    (linkEvents ports (.linkTraining 0 2 ⟨4, [0, 1, 2, 3], 200⟩ ⟨4, [0, 1, 2, 3], 200⟩)).isSome = true ∧ (linkEvents ports (.routeUpdate 0 1 2)).isSome = true ∧
    (linkEvents adding (.weltCombiningWindow 0 [(S, 0)])).isSome = true ∧ (linkEvents (combinedState 0) (.combinedRequest 4)).isSome = true ∧
    (linkEvents (combinedState 200000) (.combinedRequest 4)).isSome = true ∧ (linkEvents (combinedState 200000) (.weltQuery 4)).isSome = true := by decide
theorem witness_ModuleEvents :
    (moduleEvents ports (.thermalStep 0 120)).isSome = true ∧ (moduleEvents ports (.powerCapStep 0 4000000)).isSome = true ∧
    (moduleEvents ports (.powerCapSetting 0 2000000)).isSome = true ∧ (moduleEvents ports (.thermalTrip 0 1)).isSome = true ∧
    (moduleEvents (correctedError ports 0 (some (2, 5))) (.channelSparing 0 2 5)).isSome = true ∧ (moduleEvents ports (.uncorrectableError (.data 0x300000))).isSome = true ∧
    (moduleEvents ports (.uncorrectableError (.register 0))).isSome = true ∧ (moduleEvents ports (.uncorrectableError (.control 1))).isSome = true ∧
    (moduleEvents ports (.warmReset 0 1)).isSome = true ∧ (moduleEvents ports (.mchk 0 5)).isSome = true ∧ (moduleEvents ports (.bringUp 0)).isSome = true := by decide

/-! Values that the spec states. -/

/-- g1 after an instruction with x in g2 and y in g3. -/
def g1After (i : Instr) (x y : Word) : Option Word := (hartOf (did i (setG (setG bootHart 2 ⟨x, true⟩) 3 ⟨y, true⟩)) S).map fun hs => gVal hs 1
/-- The value that the instruction's operation will return, when it is known at issue. -/
def returns (i : Instr) (x y : Word) : Option Phase := (firstOp (did i (setG (setG bootHart 2 ⟨x, true⟩) 3 ⟨y, true⟩))).map Pending.phase

/-- R80: wrap, the high halves of products, and a shift amount of 64 (R81). -/
theorem test_integer : g1After (.add (.g 1) (.g 2) (.g 3)) (-1) 2 = some 1 ∧ g1After (.mulhs (.g 1) (.g 2) (.g 3)) (-1) 2 = some (-1) ∧
    g1After (.mulhn (.g 1) (.g 2) (.g 3)) (-1) 2 = some 1 ∧ g1After (.shl (.g 1) (.g 2) (.g 3)) 5 64 = some 5 ∧
    g1After (.minnImm (.g 1) (.g 2) (.short 0xFFFF)) (-2) 0 = some (-2) := by decide
/-- The example of R85. -/
theorem test_bexts : g1After (.bexts (.g 1) (.g 2) 8 4) 0xF00 0 = some (-1) := by decide
/-- The table of R89. -/
theorem test_rng : g1After (.rng (.g 1) (.g 2) (.g 3)) 0 0 = some 0 ∧ g1After (.rng (.g 1) (.g 2) (.g 3)) 0 1 = some 0xE220A8397B1DCDAF ∧
    g1After (.rng (.g 1) (.g 2) (.g 3)) 0 2 = some 0x6E789E6AA1B965F4 ∧ g1After (.rngf32 (.g 1) (.g 2) (.g 3)) 0 1 = some 0x3F6220A8 ∧
    g1After (.rngf64 (.g 1) (.g 2) (.g 3)) 0 1 = some 0x3FEC4415072F63B9 := by decide
/-- The corners of R82. -/
theorem test_divide : returns (.div (.g 1) (.g 2) (.g 3)) 7 0 = some (.done [-1]) ∧ returns (.div (.g 1) (.g 2) (.g 3)) (2 ^ 63) (-1) = some (.done [2 ^ 63]) ∧
    returns (.rem (.g 1) (.g 2) (.g 3)) (-7) 2 = some (.done [-1]) ∧ returns (.remn (.g 1) (.g 2) (.g 3)) 7 0 = some (.done [7]) := by decide +kernel
/-- R124, R126: an ordinary store to a declared cell, or a second strand on a slot, leaves the slot open. -/
theorem test_cell_uses : let t := declareCell State.reset 0x300000 [(0x300000, 128)]
    slotSettled t 0x300000 1 0 = true ∧ slotSettled (feed t 0x300000 1 0) 0x300000 1 0 = true ∧
    slotSettled (feed t 0x300000 2 0) 0x300000 1 0 = false ∧ slotSettled (spoil t 0x300040 4) 0x300000 1 0 = false ∧
    slotSettled (spoil t 0x300080 4) 0x300000 1 0 = true := by decide
/-- R3, R356: the spare takes the number of the core that failed. -/
theorem test_remap : remapOf [3] 0 = [0, 1, 2, 8, 4, 5, 6, 7] := by decide
/-- R341: the check value of the CRC-32 of IEEE 802.3, of the bytes "123456789". -/
theorem test_crc : crc32 [0x31, 0x32, 0x33, 0x34, 0x35, 0x36, 0x37, 0x38, 0x39] = 0xCBF43926 := by decide +kernel
/-- The CAS of R123, twice. -/
theorem test_cas : let once := atomicEffect (withMem (memSetNat [] 64 8 5) ports) 64 8 .cas 5 9
    let twice := atomicEffect once.1 64 8 .cas 5 9
    (once.2, memNat once.1.mem 64 8, twice.2, memNat twice.1.mem 64 8) = (5, 9, 9, 9) := by decide
/-- ADD placed where the first step fetches runs in that step: the boot strand stands behind it (R18, R33). -/
theorem test_step : (hartOf (next (step addState)) S).map (fun hs => hs.pc) = some (bootPc + 8) := by decide
/-- The zeroed memory at the boot PC traps as ILLENC (R20, R34): the handler is at TVEC = 0 and TRES names the word. -/
theorem test_step_traps : (hartOf (next (step (placed 0))) S).map (fun hs => (hs.pc, hs.trap.tcause, hs.trap.tres)) =
    some (0, (0 : BitVec 1) ++ Cause.illenc.code, bootPc) := by decide
/-- The conversion example of R154: F32 lanes to F8A. -/
def lanesIn : Nat := 0x3E99999A + 2 ^ 32 * 0x41F00000 + 2 ^ 64 * 0xC3FA0000 + 2 ^ 96 * 0x3A83126F + 2 ^ 128 * 0x7FC00000 + 2 ^ 160 * 0x7F800000 +
  2 ^ 192 * 0x80000000 + 2 ^ 224 * 0x40000000
theorem test_vcvt : (hartOf (did (.vcvt 5 2 ⟨.f8a, .rne⟩ .f32) (writeVec bootHart 2 (BitVec.ofNat _ lanesIn))) S).map
    (fun hs => ((vecVal hs 5).toNat, fpctlWord hs.fp)) = some (0x40807E7F01FE5F2A, fpctlWord { bootHart.fp with of := true, uf := true, nx := true }) := by
  decide +kernel

/-- R362: the digest of "abc" in FIPS 180-4; the base point of FIPS 186-4 lies on the curve. -/
theorem test_sha256 : sha256 [0x61, 0x62, 0x63] = 0xba7816bf8f01cfea414140de5dae2223b00361a396177a9cb410ff61f20015ad ∧
    (p256G.map fun p => onCurve p.1 p.2) = some true := by decide +kernel

end Sys2Proof.Tests
end

section
/-!
A little-endian number in memory (R10): its bytes are its digits, and what is written is what is read.
-/

namespace Sys2Proof.Machine

/-- Byte `k` of the little-endian spelling of a number is its digit of weight `256 ^ k`. -/
theorem getElem_leBytes {n k : Nat} (v : Nat) (hk : k < (leBytes n v).length) : (leBytes n v)[k].toNat = v / 256 ^ k % 256 := by
  induction n generalizing v k with
  | zero => exact absurd hk (Nat.not_lt_zero k)
  | succ n ih =>
    cases k with
    | zero => simp [leBytes]
    | succ k =>
      have := ih (v / 256) (Nat.lt_of_succ_lt_succ hk)
      simpa [leBytes, Nat.pow_succ', Nat.div_div_eq_div_mul] using this

@[simp] theorem length_memBytes (m : List Host.Cell) (a n : Nat) : (memBytes m a n).length = n := by
  induction n generalizing a with
  | zero => rfl
  | succ n ih => simp [memBytes, ih]

@[simp] theorem getElem_memBytes {m : List Host.Cell} {a n k : Nat} (hk : k < (memBytes m a n).length) :
    (memBytes m a n)[k] = memByte m (a + k) := by
  induction n generalizing a k with
  | zero => exact absurd hk (Nat.not_lt_zero k)
  | succ n ih =>
    cases k with
    | zero => rfl
    | succ k => simpa [memBytes, Nat.add_assoc, Nat.add_comm 1] using ih (a := a + 1) (Nat.lt_of_succ_lt_succ hk)

/-- The bytes just written are the bytes read. -/
theorem memBytes_memSetBytes {m : List Host.Cell} (a : Nat) (bs : List Byte) (hm : memWf m = true) :
    memBytes (memSetBytes m a bs) a bs.length = bs :=
  List.ext_getElem (by simp) fun k _ hk => by simp [memByte_memSetBytes_inside bs m a k hk hm]

/-- Settles O12: each byte of the number reads back as its digit, so the number reads back whole; outside its range memory is untouched. -/
theorem littleEndian : Obligations.LittleEndian := by
  intro m a n v hm
  have hlen : (leBytes n v).length = n := leBytes_length n v
  refine ⟨fun k hk => ?_, ?_, fun b hb => ?_⟩
  · have hin : k < (leBytes n v).length := by omega
    rw [memSetNat, memByte_memSetBytes_inside _ m a k hin hm, getElem_leBytes]
  · have hread := memBytes_memSetBytes a (leBytes n v) hm
    rw [hlen] at hread
    rw [memNat, memSetNat, hread, leNat_leBytes]
  · exact memByte_memSetBytes_outside _ m a b (by omega)

end Sys2Proof.Machine

end

section
/-!
Invariants of a step (R5, R10, R206). What a step can do to memory, to the harts and to the stores on their way is a short list of
operations; an invariant is a predicate that each of them keeps. One lemma per function of the model says that the function keeps every
invariant, and the statements about a step are two such predicates.
-/

namespace Sys2Proof.Machine

/-- A predicate on memory, the harts, the stores on their way and the number of the next store that every operation of a step on these
four keeps: `bytes` and `cellsKept` are all that a step does to memory, `hart`, `hartsKept` and `hartsMapped` all that it does to the harts,
and `storesKept`, `storesMapped` and `storeAdded` all that it does to the stores. -/
structure StepInvariant where
  holds : List Host.Cell → List (Hart × HartState) → List Accepted → Nat → Prop
  bytes {mem harts stores n} (a : Nat) (bs : List Byte) : holds mem harts stores n → holds (memSetBytes mem a bs) harts stores n
  cellsKept {mem harts stores n} (f : Host.Cell → Bool) : holds mem harts stores n → holds (mem.filter f) harts stores n
  hart {mem harts stores n} (k : Hart) (x : HartState) : holds mem harts stores n → holds mem (assocSet harts k x) stores n
  hartsKept {mem harts stores n} (f : Hart × HartState → Bool) : holds mem harts stores n → holds mem (harts.filter f) stores n
  hartsMapped {mem harts stores n} (f : Hart × HartState → Hart × HartState) (hf : ∀ x, (f x).1 = x.1) :
    holds mem harts stores n → holds mem (harts.map f) stores n
  storesKept {mem harts stores n} (f : Accepted → Bool) : holds mem harts stores n → holds mem harts (stores.filter f) n
  storesMapped {mem harts stores n} (f : Accepted → Accepted) (hf : ∀ a, (f a).n = a.n) :
    holds mem harts stores n → holds mem harts (stores.map f) n
  storeAdded {mem harts stores n} (a : Accepted) (ha : a.n = n) : holds mem harts stores n → holds mem harts (stores ++ [a]) (n + 1)

/-- The invariant holds in a state. -/
def StepInvariant.At (I : StepInvariant) (s : State) : Prop := I.holds s.mem s.harts s.stores s.nextStore

section

variable {I : StepInvariant} {s t : State} {mem : List Host.Cell} {harts : List (Hart × HartState)} {stores : List Accepted} {n : Nat}

/-! States. An invariant looks at four fields only. -/

theorem at_mk {extents poison cores dies modules prefetches pushes grains frames stubs splits tiles snoops arrivals copies cells
    combined kicks engines groups msgs ships longWait images leftBehind solo lateOver nextId nextUid now timeSeen cur word agenda burst
    free} (h : I.holds mem harts stores n) :
    I.At ⟨mem, extents, poison, harts, cores, dies, modules, stores, n, prefetches, pushes, grains, frames, stubs, splits, tiles, snoops,
      arrivals, copies, cells, combined, kicks, engines, groups, msgs, ships, longWait, images, leftBehind, solo, lateOver, nextId, nextUid,
      now, timeSeen, cur, word, agenda, burst, free⟩ := h

theorem at_others {extents poison cores dies modules prefetches pushes grains frames stubs splits tiles snoops arrivals copies cells
    combined kicks engines groups msgs ships longWait images leftBehind solo lateOver nextId nextUid now timeSeen cur word agenda burst
    free} (h : I.At s) :
    I.At ⟨s.mem, extents, poison, s.harts, cores, dies, modules, s.stores, s.nextStore, prefetches, pushes, grains, frames, stubs, splits,
      tiles, snoops, arrivals, copies, cells, combined, kicks, engines, groups, msgs, ships, longWait, images, leftBehind, solo, lateOver,
      nextId, nextUid, now, timeSeen, cur, word, agenda, burst, free⟩ := h

theorem at_withMem (h : I.holds mem s.harts s.stores s.nextStore) : I.At { s with mem := mem } := h

theorem at_both {c : Prop} [Decidable c] (hs : I.At s) (ht : I.At t) : I.At (if c then s else t) := by
  split
  · exact hs
  · exact ht

theorem at_when {c : Prop} [Decidable c] (ht : I.At t) (hs : I.At t → I.At s) : I.At (if c then s else t) :=
  at_both (hs ht) ht

/-! The operations on the four fields. -/

section

variable (h : I.holds mem harts stores n)
include h

theorem memSetBytes_keeps {a bs} : I.holds (memSetBytes mem a bs) harts stores n := I.bytes a bs h
theorem memSetNat_keeps {a k v} : I.holds (memSetNat mem a k v) harts stores n := I.bytes a _ h
theorem writeBits_keeps {pa len bit w v} : I.holds (writeBits mem pa len bit w v) harts stores n := memSetNat_keeps h
theorem cellWrite_keeps {pa st gen v w} : I.holds (cellWrite mem pa st gen v w) harts stores n :=
  memSetNat_keeps (memSetNat_keeps (memSetNat_keeps h))
theorem memFilter_keeps {f} : I.holds (mem.filter f) harts stores n := I.cellsKept f h
theorem assocSet_keeps {k x} : I.holds mem (assocSet harts k x) stores n := I.hart k x h
theorem assocDel_keeps {k} : I.holds mem (assocDel harts k) stores n := I.hartsKept _ h
theorem hartsFilter_keeps {f} : I.holds mem (harts.filter f) stores n := I.hartsKept f h
theorem hartsMap_keeps {f : Hart × HartState → Hart × HartState} (hf : ∀ x, (f x).1 = x.1) : I.holds mem (harts.map f) stores n :=
  I.hartsMapped f hf h
theorem storesFilter_keeps {f} : I.holds mem harts (stores.filter f) n := I.storesKept f h
theorem storesMap_keeps {f : Accepted → Accepted} (hf : ∀ a, (f a).n = a.n) : I.holds mem harts (stores.map f) n :=
  I.storesMapped f hf h
theorem storesAppend_keeps {a : Accepted} (ha : a.n = n) : I.holds mem harts (stores ++ [a]) (n + 1) := I.storeAdded a ha h

end

theorem foldl_keeps {α : Type} {f : State → α → State} {l : List α} (hf : ∀ t a, I.At t → I.At (f t a)) (hI : I.At s) :
    I.At (l.foldl f s) := List.foldlRecOn l f hI fun t ht a _ => hf t a ht

end

/-! The answers of the model's functions that carry a state: the invariant holds in the state they carry. -/

/-- An answer of the coherence protocol. -/
def StepInvariant.AtCoh (I : StepInvariant) : CohResult → Prop
  | .wait s | .ok s => I.At s

/-- A block of code that was asked for. -/
def StepInvariant.AtCode (I : StepInvariant) : CodeBlock → Prop
  | .block _ s | .wait s => I.At s
  | .fault _ => True

/-- A translation for an access of a hart. -/
def StepInvariant.AtSought (I : StepInvariant) : Sought → Prop
  | .wait s => I.At s
  | _ => True

/-- A translation for a poster. -/
def StepInvariant.AtPoster (I : StepInvariant) : PosterGot → Prop
  | .wait s => I.At s
  | _ => True

/-- A part of a copy. -/
def StepInvariant.AtGot (I : StepInvariant) {α : Type} : Got α → Prop
  | .ok s _ | .wait s => I.At s
  | .fault _ _ => True

/-- A walk of a task's successors. -/
def StepInvariant.AtWalked (I : StepInvariant) : Walked → Prop
  | .go s _ | .pause s _ | .stop s => I.At s

/-- The body of an instruction. -/
def StepInvariant.Issues (I : StepInvariant) : Issued → Prop
  | .done s _ | .jump s _ _ | .final s => I.At s
  | _ => True

/-- An instruction or an event. -/
def StepInvariant.Answers (I : StepInvariant) : Result → Prop
  | .next s => I.At s
  | _ => True

/-- What an optional value holds has a property. -/
def OnOption {α : Type} (P : α → Prop) : Option α → Prop
  | some a => P a
  | none => True

/-- What stands on either side of an `Except` has its property. -/
def OnExcept {ε α : Type} (P : ε → Prop) (Q : α → Prop) : Except ε α → Prop
  | .error e => P e
  | .ok a => Q a

section

variable {I : StepInvariant} {s t : State}

theorem issues_done {x} (h : I.At s) : I.Issues (.done s x) := h
theorem issues_final (h : I.At s) : I.Issues (.final s) := h
theorem answers_next (h : I.At s) : I.Answers (.next s) := h

theorem issues_both {c : Prop} [Decidable c] {a b : Issued} (ha : I.Issues a) (hb : I.Issues b) : I.Issues (if c then a else b) := by
  split
  · exact ha
  · exact hb

theorem answers_both {c : Prop} [Decidable c] {a b : Result} (ha : I.Answers a) (hb : I.Answers b) : I.Answers (if c then a else b) := by
  split
  · exact ha
  · exact hb

theorem StepInvariant.AtCoh.wait {r : CohResult} (hr : I.AtCoh r) (e : r = .wait t) : I.At t := by subst e; exact hr
theorem StepInvariant.AtCoh.ok {r : CohResult} (hr : I.AtCoh r) (e : r = .ok t) : I.At t := by subst e; exact hr
theorem StepInvariant.AtCode.block {r : CodeBlock} {b} (hr : I.AtCode r) (e : r = .block b t) : I.At t := by subst e; exact hr
theorem StepInvariant.AtCode.wait {r : CodeBlock} (hr : I.AtCode r) (e : r = .wait t) : I.At t := by subst e; exact hr
theorem StepInvariant.AtSought.wait {r : Sought} (hr : I.AtSought r) (e : r = .wait t) : I.At t := by subst e; exact hr
theorem StepInvariant.AtPoster.wait {r : PosterGot} (hr : I.AtPoster r) (e : r = .wait t) : I.At t := by subst e; exact hr
theorem StepInvariant.AtWalked.go {r : Walked} {w} (hr : I.AtWalked r) (e : r = .go t w) : I.At t := by subst e; exact hr
theorem StepInvariant.AtWalked.pause {r : Walked} {w} (hr : I.AtWalked r) (e : r = .pause t w) : I.At t := by subst e; exact hr
theorem StepInvariant.AtWalked.stop {r : Walked} (hr : I.AtWalked r) (e : r = .stop t) : I.At t := by subst e; exact hr
theorem StepInvariant.Issues.done {r : Issued} {x} (hr : I.Issues r) (e : r = .done t x) : I.At t := by subst e; exact hr
theorem StepInvariant.Issues.jump {r : Issued} {x v} (hr : I.Issues r) (e : r = .jump t x v) : I.At t := by subst e; exact hr
theorem StepInvariant.Issues.final {r : Issued} (hr : I.Issues r) (e : r = .final t) : I.At t := by subst e; exact hr
theorem OnOption.some {α : Type} {P : α → Prop} {o : Option α} {a : α} (ho : OnOption P o) (e : o = some a) : P a := by
  subst e; exact ho

theorem OnOption.getD {α : Type} {P : α → Prop} {o : Option α} {a : α} (ho : OnOption P o) (ha : P a) : P (o.getD a) := by
  cases o with
  | none => exact ha
  | some b => exact ho

theorem OnOption.bind {α β : Type} {P : α → Prop} {Q : β → Prop} {o : Option α} {f : α → Option β} (ho : OnOption P o)
    (hf : ∀ a, P a → OnOption Q (f a)) : OnOption Q (o.bind f) := by
  cases o with
  | none => trivial
  | some a => exact hf a ho

theorem OnOption.map {α β : Type} {P : α → Prop} {Q : β → Prop} {o : Option α} {f : α → β} (ho : OnOption P o)
    (hf : ∀ a, P a → Q (f a)) : OnOption Q (o.map f) := by
  cases o with
  | none => trivial
  | some a => exact hf a ho

theorem OnExcept.error {ε α : Type} {P : ε → Prop} {Q : α → Prop} {r : Except ε α} {a : ε} (hr : OnExcept P Q r) (e : r = .error a) :
    P a := by
  subst e; exact hr

theorem OnExcept.ok {ε α : Type} {P : ε → Prop} {Q : α → Prop} {r : Except ε α} {a : α} (hr : OnExcept P Q r) (e : r = .ok a) :
    Q a := by
  subst e; exact hr

end

end Sys2Proof.Machine

end

section
/-!
State, translation, the coherence protocol, fetch and trap entry keep an invariant.
-/

namespace Sys2Proof.Machine

variable {I : StepInvariant} {s t : State}

/-! The fields of the state. -/

theorem setHart_keeps {h hs} (hI : I.At s) : I.At (setHart s h hs) := at_mk (assocSet_keeps hI)
theorem dropHart_keeps {h} (hI : I.At s) : I.At (dropHart s h) := at_mk (assocDel_keeps hI)
theorem setCore_keeps {c x} (hI : I.At s) : I.At (setCore s c x) := hI
theorem setDie_keeps {d x} (hI : I.At s) : I.At (setDie s d x) := hI
theorem setModule_keeps {m x} (hI : I.At s) : I.At (setModule s m x) := hI

theorem push_keeps {h hs p v seq} (hI : I.At s) : I.At (push s h hs p v seq) := by
  unfold push
  split <;> exact hI

theorem writeDst_keeps {h hs d v} (hI : I.At s) : I.At (writeDst s h hs d v).1 := by
  unfold writeDst
  split
  · exact hI
  · exact push_keeps hI

/-! Translation. -/

theorem joinWalk_keeps {h ptbr va join} (hI : I.At s) : I.At (joinWalk s h ptbr va join) := hI

theorem seek_keeps {h hs ptbr priv va r} (hI : I.At s) : I.AtSought (seek s h hs ptbr priv va r) := by
  unfold seek
  split
  · trivial
  · trivial
  · split
    · split
      · trivial
      · exact joinWalk_keeps hI
    · exact joinWalk_keeps hI

theorem translateOp_keeps {h hs p} (hI : I.At s) : I.At (translateOp s h hs p).1 := by
  unfold translateOp
  dsimp only
  split
  · exact hI
  · split
    · exact hI
    · exact hI
    · exact joinWalk_keeps hI

theorem addMem_keeps {h hs p} (hI : I.At s) : I.At (addMem s h hs p).1 := by
  unfold addMem
  dsimp only
  split
  · exact hI
  · exact translateOp_keeps hI

/-! Module events, messages and the recording. -/

theorem deliverEvents_keeps {m} (hI : I.At s) : I.At (deliverEvents s m) := by
  unfold deliverEvents
  split
  · exact hI
  · split
    · exact hI
    · exact at_both hI (setModule_keeps (setHart_keeps hI))

theorem raiseModule_keeps {m c v} (hI : I.At s) : I.At (raiseModule s m c v) :=
  at_both (setModule_keeps hI) (deliverEvents_keeps (setModule_keeps hI))
theorem install_keeps {c n hs} (hI : I.At s) : I.At (install s c n hs) :=
  deliverEvents_keeps (setHart_keeps (at_both (setCore_keeps hI) hI))
theorem sendMsg_keeps {m} (hI : I.At s) : I.At (sendMsg s m) := hI
theorem dropMsg_keeps {i} (hI : I.At s) : I.At (dropMsg s i) := hI
theorem recordInput_keeps {m x} (hI : I.At s) : I.At (recordInput s m x) :=
  at_both hI (at_both (setModule_keeps hI) (setModule_keeps hI))

theorem recordRequest_keeps {h p other} (hI : I.At s) : I.At (recordRequest s h p other) := by
  unfold recordRequest
  split
  · exact hI
  · refine foldl_keeps (fun t x ht => ?_) hI
    split
    · exact at_both ht (recordInput_keeps ht)
    · exact ht

/-! Operations in program order. -/

theorem updateOp_keeps {h seq f} (hI : I.At s) : I.At (updateOp s h seq f) := by
  unfold updateOp
  split
  · exact hI
  · exact setHart_keeps hI

theorem failOp_keeps {h seq c v} (hI : I.At s) : I.At (failOp s h seq c v) := updateOp_keeps hI

theorem finishOp_keeps {h seq r} (hI : I.At s) : I.At (finishOp s h seq r) := by
  unfold finishOp
  split
  · exact updateOp_keeps (recordRequest_keeps hI)
  · exact updateOp_keeps hI

theorem openGates_keeps {m} (hI : I.At s) : I.At (openGates s m) := by
  unfold openGates
  dsimp only
  split
  · exact hI
  · refine hartsMap_keeps hI fun x => ?_
    split
    · split <;> rfl
    · rfl

/-! Reduction cells. -/

theorem spoil_keeps {pa len} (hI : I.At s) : I.At (spoil s pa len) := hartsMap_keeps hI fun _ => rfl
theorem spoilSpans_keeps {spans} (hI : I.At s) : I.At (spoilSpans s spans) := foldl_keeps (fun _ _ ht => spoil_keeps ht) hI
theorem declareCell_keeps {pa parts} (hI : I.At s) : I.At (declareCell s pa parts) := hI
theorem useCell_keeps {pa parts} (hI : I.At s) : I.At (useCell s pa parts) := at_both hI hI
theorem feed_keeps {pa uid i} (hI : I.At s) : I.At (feed s pa uid i) := hI
theorem drew_keeps {k} (hs : I.At s) (ht : I.At t) : I.At (drew s t k) := at_both hs ht

/-! Grains, tiles and the coherence protocol. -/

theorem setTileRec_keeps {t} (hI : I.At s) : I.At (setTileRec s t) := hI
theorem dropTileRec_keeps {base} (hI : I.At s) : I.At (dropTileRec s base) := hI
theorem noteFrame_keeps {base size} (hI : I.At s) : I.At (noteFrame s base size) := at_both hI hI
theorem setGrain_keeps {base g} (hI : I.At s) : I.At (setGrain s base g) := at_others (noteFrame_keeps hI)
theorem dropGrain_keeps {base} (hI : I.At s) : I.At (dropGrain s base) := hI
theorem sendSnoops_keeps {req want us} (hI : I.At s) : I.At (sendSnoops s req want us) := hI

theorem releaseHost_keeps {keep u} (hI : I.At s) : I.At (releaseHost s keep u) := by
  unfold releaseHost
  split
  · exact hI
  · split
    · exact at_both (dropGrain_keeps hI) hI
    · exact hI

theorem lineRead_keeps {c b n} (hI : I.At s) : I.At (lineRead s c b n) := by
  unfold lineRead
  split
  · exact setGrain_keeps hI
  · split
    · exact at_both hI (setGrain_keeps hI)
    · exact setGrain_keeps hI

theorem lineOwn_keeps {c b n dirty} (hI : I.At s) : I.At (lineOwn s c b n dirty) := setGrain_keeps hI

theorem lineUcRead_keeps {b} (hI : I.At s) : I.At (lineUcRead s b) := by
  unfold lineUcRead
  split
  · split
    · exact setGrain_keeps hI
    · exact hI
  · exact hI

theorem lineEvict_keeps {c b} (hI : I.At s) : I.At (lineEvict s c b) := by
  unfold lineEvict
  split
  · exact at_both (dropGrain_keeps hI) hI
  · exact hI

theorem tileEvict_keeps {c t} (hI : I.At s) : I.At (tileEvict s c t) := by
  unfold tileEvict
  split
  · exact at_both (setTileRec_keeps hI) hI
  · exact setTileRec_keeps hI
  · exact hI

theorem tileRead_keeps {c t} (hI : I.At s) : I.At (tileRead s c t) := by
  unfold tileRead
  split
  · exact setTileRec_keeps hI
  · exact setTileRec_keeps hI
  · split
    · exact at_both hI (setTileRec_keeps hI)
    · exact setTileRec_keeps hI
  · exact hI

theorem tileOwn_keeps {c t dirty} (hI : I.At s) : I.At (tileOwn s c t dirty) := hI
theorem tileHome_keeps {t} (hI : I.At s) : I.At (tileHome s t) := hI

theorem tileUcRead_keeps {t} (hI : I.At s) : I.At (tileUcRead s t) := by
  unfold tileUcRead
  split
  · exact setTileRec_keeps hI
  · exact hI

theorem cohCore_keeps {want c dirty u} (hI : I.At s) : I.At (cohCore s want c dirty u) := by
  unfold cohCore
  split
  · split
    · split
      · exact tileRead_keeps hI
      · exact tileOwn_keeps hI
    · exact hI
  · split
    · exact lineRead_keeps hI
    · exact lineOwn_keeps hI

theorem cohHome_keeps {want u} (hI : I.At s) : I.At (cohHome s want u) := by
  unfold cohHome
  split
  · split
    · split
      · exact tileUcRead_keeps hI
      · exact tileHome_keeps hI
    · exact hI
  · split
    · exact lineUcRead_keeps hI
    · exact dropGrain_keeps hI

theorem queueUp_keeps {v ranges} (hI : I.At s) : I.At (queueUp s v ranges) :=
  at_both hI (at_both hI hI)
theorem served_keeps {v} (hI : I.At s) : I.At (served s v) := hI

theorem CohResult.bind_keeps {r : CohResult} {f : State → CohResult} (hr : I.AtCoh r) (hf : ∀ t, I.At t → I.AtCoh (f t)) :
    I.AtCoh (r.bind f) := by
  cases r with
  | wait s => exact hr
  | ok s => exact hf s hr

theorem cohAsk_keeps {req places keep want core rs} (hI : I.At s) : I.AtCoh (cohAsk s req places keep want core rs) := by
  unfold cohAsk
  dsimp only
  split
  · exact queueUp_keeps hI
  · split
    · refine foldl_keeps (fun t r ht => foldl_keeps (fun v u hv => ?_) ht) (at_both hI (served_keeps hI))
      cases core with
      | some c => exact cohCore_keeps hv
      | none => exact cohHome_keeps hv
    · exact sendSnoops_keeps (queueUp_keeps hI)

theorem cohAll_keeps {req want core rs} (hI : I.At s) : I.AtCoh (cohAll s req want core rs) := cohAsk_keeps hI
theorem cohRequest_keeps {req want core pa len g} (hI : I.At s) : I.AtCoh (cohRequest s req want core pa len g) := cohAll_keeps hI

theorem hostReadUnit_keeps {u} (hI : I.At s) : I.At (hostReadUnit s u) := by
  unfold hostReadUnit
  split
  · split
    · split
      · exact setTileRec_keeps hI
      · exact setTileRec_keeps hI
      · exact setTileRec_keeps hI
      · exact hI
    · exact hI
  · split
    · exact setGrain_keeps hI
    · split
      · exact setGrain_keeps hI
      · exact at_both hI (setGrain_keeps hI)

theorem hostOwnUnit_keeps {u} (hI : I.At s) : I.At (hostOwnUnit s u) := by
  unfold hostOwnUnit
  split
  · split
    · exact setTileRec_keeps hI
    · exact hI
  · exact setGrain_keeps hI

theorem hostPerform_keeps {own line} (hI : I.At s) : I.At (hostPerform s own line) :=
  foldl_keeps (fun _ _ ht => at_both (hostOwnUnit_keeps ht) (hostReadUnit_keeps ht)) hI
theorem hostRequest_keeps {own line} (hI : I.At s) : I.At (hostRequest s own line) :=
  at_both hI (hostPerform_keeps hI)

theorem hostTurnFrom_keeps {earlier xs} (hI : I.At s) : I.At (hostTurnFrom s earlier xs) := by
  induction xs generalizing earlier with
  | nil => exact hI
  | cons x rest ih =>
    unfold hostTurnFrom
    split
    · exact at_both ih (hostPerform_keeps hI)
    · exact ih

theorem hostTurn_keeps (hI : I.At s) : I.At (hostTurn s) := hostTurnFrom_keeps hI

theorem answerSnoop_keeps {line} (hI : I.At s) : I.At (answerSnoop s line) := by
  unfold answerSnoop
  split
  · exact hI
  · exact foldl_keeps (fun _ _ ht => at_both ht (releaseHost_keeps ht)) hI

theorem hostEvictUnit_keeps {u} (hI : I.At s) : I.At (hostEvictUnit s u) := by
  unfold hostEvictUnit
  split
  · exact at_both (releaseHost_keeps hI) hI
  · exact at_both (dropGrain_keeps hI) hI

/-! Fetch. -/

theorem readBlock_keeps {h pa} (hI : I.At s) : I.At (readBlock s h pa).2 := by
  unfold readBlock
  dsimp only
  split
  · exact hI
  · split
    · exact setCore_keeps hI
    · split
      · exact hI
      · split
        · exact hI
        · exact at_others (setCore_keeps hI)

theorem codeAt_keeps {h req pa} (hI : I.At s) : I.AtCode (codeAt s h req pa) := by
  unfold codeAt
  split
  · trivial
  · split
    · exact readBlock_keeps hI
    · split
      · exact readBlock_keeps hI
      · exact sendSnoops_keeps hI

theorem fetchBlock_keeps {h hs va} (hI : I.At s) : I.AtCode (fetchBlock s h hs va) := by
  unfold fetchBlock
  split
  · trivial
  · next t e => exact (seek_keeps hI).wait e
  · split
    · split
      · trivial
      · exact codeAt_keeps hI
    · exact codeAt_keeps hI

theorem fetch_keeps {h hs pc} (hI : I.At s) : I.At (fetch s h hs pc).2 := by
  unfold fetch
  split
  · exact hI
  · split
    · exact hI
    · next t e => exact (fetchBlock_keeps hI).wait e
    · next b t e => exact (fetchBlock_keeps hI).block e

/-! Issue and traps. -/

theorem leaveLong_keeps {uid} (hI : I.At s) : I.At (leaveLong s uid) := hI
theorem withdraw_keeps {uid} (hI : I.At s) : I.At (withdraw s uid) := hI

theorem noteIssue_keeps {h} (hI : I.At s) : I.At (noteIssue s h) := by
  unfold noteIssue
  split
  · exact hI
  · exact setCore_keeps hI

theorem enterTrap_keeps {h} (hI : I.At s) : I.At (enterTrap s h) := by
  unfold enterTrap
  split
  · exact hI
  · split
    · exact hI
    · split
      · exact setHart_keeps (withdraw_keeps hI)
      · exact setHart_keeps (withdraw_keeps hI)
      · exact hI

theorem raiseIssue_keeps {h hs c tval issued} (hI : I.At s) : I.At (raiseIssue s h hs c tval issued) :=
  enterTrap_keeps (at_both (noteIssue_keeps (setHart_keeps hI)) (setHart_keeps hI))

theorem enterAsync_keeps {h} (hI : I.At s) : I.At (enterAsync s h) := by
  unfold enterAsync
  split
  · exact hI
  · split
    · exact hI
    · split
      · exact hI
      · exact setHart_keeps (withdraw_keeps hI)

theorem parked_keeps {h hs p need} (hI : I.At s) : I.At (parked s h hs p need) := setHart_keeps hI

theorem holdUp_keeps {h hs ws} {k : Issued} (hk : I.Issues k) : I.Issues (holdUp s h hs ws k) := by
  unfold holdUp
  split
  · trivial
  · exact hk

theorem settleYields_keeps (hI : I.At s) : I.At (settleYields s) := at_both hI hI

theorem fetchIssue_keeps {h hs} (hI : I.At s) : I.At (fetchIssue s h hs).1 := by
  unfold fetchIssue
  dsimp only
  generalize (if hs.run.park = .marker then setPark hs .ready else hs) = x
  have hf {r u} (e : fetch s h x (issuePc x) = (r, u)) : I.At u := (congrArg (fun y => I.At y.2) e).mp (fetch_keeps hI)
  split
  · next e => exact at_others (setHart_keeps (hf e))
  · next e => exact setHart_keeps (hf e)
  · next e => exact setHart_keeps (hf e)
  · next e => exact raiseIssue_keeps (hf e)

/-! Window registers. -/

theorem rebind_keeps {h hs p w} (hI : I.At s) : I.At (rebind s h hs p w).1 := hI
theorem noteCopied_keeps {c lo len} (hI : I.At s) : I.At (noteCopied s c lo len) := at_both hI hI
theorem noteUnfold_keeps {pa len} (hI : I.At s) : I.At (noteUnfold s pa len) :=
  at_both hI (at_both (setCore_keeps (noteCopied_keeps hI)) (noteCopied_keeps hI))
theorem putMem_keeps {m pa len} (h : I.holds m s.harts s.stores s.nextStore) : I.At (putMem s m pa len) :=
  noteUnfold_keeps h

theorem windowWriteReg_keeps {c off v} (hI : I.At s) : I.At (windowWriteReg s c off v) := by
  unfold windowWriteReg
  dsimp only
  split
  · exact setHart_keeps hI
  · exact hI

theorem openGate_keeps {m gate} (hI : I.At s) : I.At (openGate s m gate) := openGates_keeps (setModule_keeps hI)

theorem sctlRun_keeps {h} (hI : I.At s) : I.At (sctlRun s h) := by
  unfold sctlRun
  split
  · exact hI
  · exact at_both hI (openGate_keeps (setHart_keeps hI))

theorem sctlDblClear_keeps {h} (hI : I.At s) : I.At (sctlDblClear s h) := by
  unfold sctlDblClear
  split
  · exact hI
  · exact at_both (setHart_keeps hI) hI

theorem windowPush_keeps {c off v} (hI : I.At s) : I.At (windowPush s c off v) := by
  unfold windowPush
  dsimp only
  split
  · exact setHart_keeps hI
  · exact hI

theorem windowStoreEffect_keeps {pa bs} (hI : I.At s) : I.At (windowStoreEffect s pa bs) := by
  unfold windowStoreEffect
  dsimp only
  split
  · exact putMem_keeps (memSetBytes_keeps hI)
  · exact windowWriteReg_keeps hI
  · split
    · split
      · exact setHart_keeps (rebind_keeps hI)
      · exact hI
    · exact windowPush_keeps hI
  · exact setCore_keeps hI
  · exact hI

end Sys2Proof.Machine

end

section
/-!
Memory operations, stores, synchronisation and the matrix queue keep an invariant.
-/

namespace Sys2Proof.Machine

variable {I : StepInvariant} {s t : State}

/-! Issue of a memory operation. -/

theorem issueMem_keeps {h hs p} (hI : I.At s) : I.Issues (issueMem h s hs p) :=
  issues_both trivial (addMem_keeps hI)

theorem placed_keeps {h hs va r} {k : Except Cause Placed → Issued} (hI : I.At s) (hk : ∀ q, I.Issues (k q)) :
    I.Issues (placed s h hs va r k) := by
  unfold placed
  split
  · exact hk _
  · exact hk _
  · next t e => exact parked_keeps ((seek_keeps hI).wait e)

theorem orderShip_keeps {h hs dest reason status} (hI : I.At s) : I.At (orderShip s h hs dest reason status) := by
  unfold orderShip
  split
  · exact hI
  · exact at_others (setHart_keeps hI)

theorem migIssue_keeps {h hs d va} (hI : I.At s) : I.Issues (migIssue h s hs d va) := by
  unfold migIssue
  refine placed_keeps hI fun q => ?_
  split
  · exact hI
  · split
    · exact hI
    · split
      · exact hI
      · exact orderShip_keeps hI

theorem giveVec_keeps {h hs d v f mask special} (hI : I.At s) : I.Issues (giveVec h s hs d v f mask special) :=
  issues_both hI (issues_both trivial (issues_both (holdUp_keeps hI) hI))
theorem giveScalar_keeps {h hs d v f mask} (hI : I.At s) : I.Issues (giveScalar h s hs d v f mask) :=
  issues_both hI (issues_both trivial (writeDst_keeps hI))

/-! Memory and loads. -/

theorem writeMem_keeps {pa bs} (hI : I.At s) : I.At (writeMem s pa bs) := putMem_keeps (memSetBytes_keeps hI)
theorem clearPoison_keeps {pa len} (hI : I.At s) : I.At (clearPoison s pa len) := hI

theorem writeSpans_keeps {spans data} (hI : I.At s) : I.At (writeSpans s spans data) := by
  induction spans generalizing s data with
  | nil => cases data <;> exact hI
  | cons x xs ih =>
    cases data with
    | nil => exact hI
    | cons bs bss =>
      unfold writeSpans
      split
      · exact ih (writeMem_keeps hI)
      · exact ih hI

theorem storeEffect_keeps {p} (hI : I.At s) : I.At (storeEffect s p) := by
  have hspoil {pa n} : I.At (spoil s pa n) := spoil_keeps hI
  unfold storeEffect
  split
  · exact writeSpans_keeps (spoilSpans_keeps hI)
  · exact writeSpans_keeps (spoilSpans_keeps hI)
  · exact putMem_keeps (writeBits_keeps (hspoil : I.holds s.mem _ _ _))
  · exact writeMem_keeps hspoil
  · exact declareCell_keeps (writeSpans_keeps hI)
  · exact writeMem_keeps hI
  · exact declareCell_keeps (writeMem_keeps hI)
  · exact hI

theorem giveResult_keeps {h hs p ws f} (hI : I.At s) : I.At (giveResult s h hs p ws f) := by
  unfold giveResult
  split
  · exact setHart_keeps hI
  · exact setHart_keeps hI
  · exact at_both (setHart_keeps (push_keeps hI)) hI
  · exact setHart_keeps hI
  · exact setHart_keeps hI
  · exact setHart_keeps hI

theorem cachedLoad_keeps {h hs p} (hI : I.At s) : I.At (cachedLoad s h hs p) := by
  unfold cachedLoad
  dsimp only
  split
  · exact hI
  · split
    · exact failOp_keeps hI
    · split
      · split
        · exact hI
        · split
          · exact failOp_keeps hI
          · exact giveResult_keeps hI
      · split
        · exact hI
        · split
          · exact failOp_keeps hI
          · exact giveResult_keeps hI

/-! Stores that end. -/

theorem dropStore_keeps {i} (hI : I.At s) : I.At (dropStore s i) := at_mk (storesFilter_keeps hI)

theorem freeFrozen_keeps {h op} (hI : I.At s) : I.At (freeFrozen s h op) := by
  unfold freeFrozen
  split
  · split
    · exact at_both (setCore_keeps hI) hI
    · exact hI
  · exact hI

theorem endStore_keeps {s0 : State} {h hs p} (hI : I.At s0) : I.At (endStore s0 h hs p) := setHart_keeps (freeFrozen_keeps hI)

theorem storeAnswered_keeps {a} (hI : I.At s) : I.At (storeAnswered s a) := by
  unfold storeAnswered
  dsimp only
  split
  · split
    · exact endStore_keeps (dropStore_keeps hI)
    · exact dropStore_keeps hI
  · exact dropStore_keeps hI

theorem storePerformed_keeps {a} (hI : I.At s) : I.At (storePerformed s a) := by
  unfold storePerformed
  split
  · exact storesMap_keeps (recordRequest_keeps hI) fun b => by split <;> rfl
  · exact storeAnswered_keeps hI

theorem recallStores_keeps {h hs seq} (hI : I.At s) : I.At (recallStores s h hs seq) :=
  setHart_keeps (at_mk (storesFilter_keeps hI))
theorem heldFails_keeps {h hs p c v} (hI : I.At s) : I.At (heldFails s h hs p c v) := failOp_keeps (recallStores_keeps hI)
theorem opFails_keeps {h hs p c v} (hI : I.At s) : I.At (opFails s h hs p c v) :=
  at_both (heldFails_keeps hI) (failOp_keeps hI)

theorem storeFails_keeps {a c v} (hI : I.At s) : I.At (storeFails s a c v) := by
  unfold storeFails
  split
  · exact dropStore_keeps hI
  · exact failOp_keeps (recallStores_keeps (storesMap_keeps hI fun b => by split <;> rfl))

/-! Atomics and cache operations. -/

theorem atomicEffect_keeps {pa len fn b c} (hI : I.At s) : I.At (atomicEffect s pa len fn b c).1 :=
  putMem_keeps (memSetNat_keeps hI)

theorem atomicAt_keeps {p} (hI : I.At s) : I.At (atomicAt s p).1 := by
  unfold atomicAt
  split
  · exact atomicEffect_keeps (at_both hI (spoil_keeps hI))
  · exact hI

theorem doAtomic_keeps {h p} (hI : I.At s) : I.At (doAtomic s h p) := finishOp_keeps (atomicAt_keeps hI)

theorem cacheEffect_keeps {h hs p} (hI : I.At s) : I.AtCoh (cacheEffect s h hs p) := by
  unfold cacheEffect
  split
  · exact hI
  · split
    · exact hI
    · split
      · split
        · exact cohRequest_keeps hI
        · exact hI
      · split
        · exact hI
        · split
          · exact hI
          · refine foldl_keeps (fun t u ht => ?_) hI
            split
            · cases t.tiles.find? _ with
              | none => exact ht
              | some x => exact tileEvict_keeps ht
            · exact lineEvict_keeps ht

/-! Stores on their way. -/

theorem putStore_keeps {a} (hI : I.At s) (ha : a.n = s.nextStore) : I.At (putStore s a) := storesAppend_keeps hI ha
theorem accept_keeps {h hs q} (hI : I.At s) : I.At (accept s h hs q) := endStore_keeps (putStore_keeps hI rfl)
theorem send_keeps {h hs q} (hI : I.At s) : I.At (send s h hs q) := setHart_keeps (putStore_keeps hI rfl)

theorem showCached_keeps {r a c} (hI : I.At s) : I.At (showCached s r a c) := by
  unfold showCached
  split
  · exact hI
  · split
    · next t e => exact (cohAll_keeps hI).wait e
    · next t e => exact storePerformed_keeps (storeEffect_keeps ((cohAll_keeps hI).ok e))

theorem ownAtomic_keeps {r h hs p c} (hI : I.At s) : I.At (ownAtomic s r h hs p c) := by
  unfold ownAtomic
  split
  · split
    · exact hI
    · split
      · exact failOp_keeps hI
      · split
        · next t e => exact (cohAll_keeps hI).wait e
        · next t e => exact doAtomic_keeps ((cohAll_keeps hI).ok e)
  · exact hI

theorem showHome_keeps {r a} (hI : I.At s) : I.At (showHome s r a) := by
  unfold showHome
  split
  · exact hI
  · split
    · exact storeFails_keeps hI
    · split
      · exact storePerformed_keeps hI
      · split
        · next t e => exact (cohAll_keeps hI).wait e
        · next t e => exact storePerformed_keeps (storeEffect_keeps ((cohAll_keeps hI).ok e))

theorem homeAtomic_keeps {r h hs p} (hI : I.At s) : I.At (homeAtomic s r h hs p) := by
  unfold homeAtomic
  split
  · split
    · exact hI
    · split
      · exact failOp_keeps hI
      · split
        · next t e => exact (cohAll_keeps hI).wait e
        · next t e => exact doAtomic_keeps ((cohAll_keeps hI).ok e)
  · exact hI

theorem parkPacket_keeps {m gang pk} (hI : I.At s) : I.At (parkPacket s m gang pk) := by
  unfold parkPacket
  dsimp only
  split
  · exact hI
  · exact at_both (setModule_keeps hI) (at_both (setModule_keeps hI) (raiseModule_keeps (setModule_keeps hI)))

theorem parkPieces_keeps {a} (hI : I.At s) : I.At (parkPieces s a) := foldl_keeps (fun _ _ ht => parkPacket_keeps ht) hI

theorem arrive_keeps {a} {f : State → Pending → State} (hI : I.At s) (hf : ∀ t p, I.At t → I.At (f t p)) :
    I.At (arrive s a f) := by
  unfold arrive
  split
  · exact hI
  · split
    · exact storeFails_keeps hI
    · dsimp only
      split
      · next t e => exact (cohAll_keeps hI).wait e
      · next t e =>
        have ht := (cohAll_keeps hI).ok e
        exact storePerformed_keeps (parkPieces_keeps (at_both (hf _ _ ht) ht))

/-! Accesses that wait. -/

theorem joinQueue_keeps {c e} (hI : I.At s) : I.At (joinQueue s c e) := hI
theorem tileLoad_keeps {h hs p len} (hI : I.At s) : I.At (tileLoad s h hs p len) := updateOp_keeps (joinQueue_keeps hI)

theorem entryWaits_keeps {a} (hI : I.At s) : I.At (entryWaits s a) := by
  unfold entryWaits
  split
  · exact hI
  · split
    · exact hI
    · split
      · exact endStore_keeps hI
      · exact hI

/-! Full/empty words and barriers. -/

theorem answer_keeps {ws v} (hI : I.At s) : I.At (answer s ws v) :=
  foldl_keeps (fun t w ht => by
    split
    · exact finishOp_keeps ht
    · exact ht) hI

theorem defer_keeps {core w k h hs seq} (hI : I.At s) : I.At (defer s core w k h hs seq) :=
  at_both hI (updateOp_keeps (setCore_keeps hI))

theorem feRequest_keeps {h hs p core w} (hI : I.At s) : I.At (feRequest s h hs p core w) := by
  unfold feRequest
  dsimp only
  split
  · split
    · exact defer_keeps hI
    · split
      · exact finishOp_keeps (answer_keeps (writeMem_keeps (setCore_keeps hI)))
      · exact finishOp_keeps (setCore_keeps hI)
  · exact at_both (finishOp_keeps hI) (defer_keeps hI)
  · exact at_both (defer_keeps hI) (finishOp_keeps (answer_keeps (at_both (setCore_keeps hI) (writeMem_keeps (setCore_keeps hI)))))
  · exact hI

theorem wakeBarrier_keeps {pa ph} (hI : I.At s) : I.At (wakeBarrier s pa ph) := hartsMap_keeps hI fun _ => rfl

theorem arriveBarrier_keeps {pa c} (hI : I.At s) : OnOption (fun x => I.At x.1) (arriveBarrier s pa c) := by
  unfold arriveBarrier
  dsimp only
  split
  · trivial
  · split
    · exact hI
    · split
      · exact wakeBarrier_keeps (putMem_keeps (memSetNat_keeps (memSetNat_keeps hI)))
      · exact putMem_keeps (memSetNat_keeps hI)

theorem barRequest_keeps {h hs p} (hI : I.At s) : I.At (barRequest s h hs p) := by
  unfold barRequest
  dsimp only
  split
  · split
    · next t old e => exact finishOp_keeps ((arriveBarrier_keeps hI).some e)
    · exact failOp_keeps hI
  · exact finishOp_keeps hI
  · split
    · exact finishOp_keeps hI
    · split
      · exact defer_keeps hI
      · split
        · exact hI
        · exact updateOp_keeps hI
  · exact hI

/-! Reduction and decision cells. -/

theorem cellReady_keeps {h hs p} (hI : I.At s) : OnExcept I.At (fun _ => True) (cellReady s h hs p) := by
  unfold cellReady
  split
  · exact hI
  · split
    · exact opFails_keeps hI
    · split
      · exact opFails_keeps hI
      · trivial

theorem cellAsk_keeps {h p keep want rs} (hI : I.At s) : I.AtCoh (cellAsk s h p keep want rs) := cohAsk_keeps hI

theorem cellRead_keeps {h p} (hI : I.At s) : I.AtCoh (cellRead s h p) := by
  unfold cellRead
  split
  · exact cellAsk_keeps hI
  · exact hI

theorem addSlot_keeps {h hs p parts f slot a val} (hI : I.At s) : I.At (addSlot s h hs p parts f slot a val) := by
  have hs2 : I.At (feed (useCell s p.pa parts) p.pa hs.id.uid slot) := feed_keeps (useCell_keeps hI)
  have hmem : (feed (useCell s p.pa parts) p.pa hs.id.uid slot).mem = s.mem := by
    unfold feed useCell
    split <;> rfl
  unfold addSlot
  dsimp only
  split <;> exact finishOp_keeps (memSetNat_keeps (hmem ▸ hs2))

theorem redRead_keeps {h hs p md} (hI : I.At s) : I.At (redRead s h hs p md) := by
  unfold redRead
  split
  · next t e => exact (cellReady_keeps hI).error e
  · split
    · next t e => exact (cellRead_keeps hI).wait e
    · next s1 e =>
      have h1 : I.At s1 := (cellRead_keeps hI).ok e
      split
      · exact failOp_keeps h1
      · split
        · exact failOp_keeps h1
        · split
          · next t e => exact (cellAsk_keeps h1).wait e
          · next t e =>
            have ht : I.At t := (cellAsk_keeps h1).ok e
            dsimp only
            split
            · exact drew_keeps ht (giveResult_keeps ht)
            · exact giveResult_keeps ht

theorem addCopy_keeps {pa gen v} (hI : I.At s) : I.At (addCopy s pa gen v) := at_both hI hI
theorem answerCell_keeps {h p r} (hI : I.At s) : I.At (answerCell s h p r) :=
  at_both (finishOp_keeps hI) (finishOp_keeps hI)

theorem decideRequest_keeps {h p} (hI : I.At s) : I.At (decideRequest s h p) := by
  unfold decideRequest
  dsimp only
  split
  · split
    · exact answerCell_keeps hI
    · split
      · exact answerCell_keeps hI
      · split
        · exact answerCell_keeps (addCopy_keeps (at_withMem (cellWrite_keeps hI)))
        · exact answerCell_keeps (addCopy_keeps hI)
  · split
    · exact answerCell_keeps hI
    · split
      · exact answerCell_keeps hI
      · split
        · exact answerCell_keeps (addCopy_keeps hI)
        · exact answerCell_keeps hI
  · split
    · exact answerCell_keeps hI
    · split
      · exact answerCell_keeps hI
      · split
        · split
          · exact answerCell_keeps (at_withMem (memSetNat_keeps hI))
          · exact answerCell_keeps (at_withMem (cellWrite_keeps hI))
        · exact answerCell_keeps hI
  · exact hI

/-! Tiles. -/

theorem addTile_keeps {t} (hI : I.At s) : I.At (addTile s t) := hI

theorem declareTile_keeps {h n desc a} (hI : I.At s) : OnExcept I.At (fun x => I.At x.1) (declareTile s h n desc a) := by
  unfold declareTile
  dsimp only
  split
  · exact hI
  · split
    · exact queueUp_keeps hI
    · split
      · exact hI
      · split
        · exact hI
        · split
          · next t e => exact (cohAll_keeps hI).wait e
          · next t e =>
            exact addTile_keeps (foldl_keeps (fun _ _ ht => noteFrame_keeps (clearPoison_keeps ht)) ((cohAll_keeps hI).ok e))

theorem undeclareSector_keeps {t x} (hI : I.At s) : I.At (undeclareSector t s x) := by
  unfold undeclareSector
  split <;> exact hI

theorem undeclareTile_keeps {t} (hI : I.At s) : I.At (undeclareTile s t) :=
  foldl_keeps (fun _ _ ht => undeclareSector_keeps ht) (dropTileRec_keeps hI)

theorem tileInstr_keeps {h hs p a} (hI : I.At s) : I.At (tileInstr s h hs p a) := by
  unfold tileInstr
  dsimp only
  cases p.op with
  | tdecl desc =>
    dsimp only
    split
    · next t e => exact (declareTile_keeps hI).error e
    · next t k e => exact finishOp_keeps ((declareTile_keeps hI).ok e)
  | tundecl =>
    dsimp only
    split
    · exact finishOp_keeps hI
    · split
      · exact finishOp_keeps hI
      · split
        · exact queueUp_keeps hI
        · exact finishOp_keeps (undeclareTile_keeps (served_keeps hI))
  | tfwd target =>
    dsimp only
    split
    · split
      · exact finishOp_keeps (setTileRec_keeps hI)
      · exact finishOp_keeps hI
    · split
      · exact finishOp_keeps hI
      · split
        · exact finishOp_keeps hI
        · split
          · exact finishOp_keeps hI
          · split
            · exact finishOp_keeps hI
            · split
              · exact queueUp_keeps hI
              · split
                · exact sendSnoops_keeps (queueUp_keeps hI)
                · exact updateOp_keeps (setTileRec_keeps (served_keeps hI))
  | _ => exact hI

/-! Table walks. -/

theorem walkAnswer_keeps {r x w} (hI : I.At s) : I.At (walkAnswer r x s w) := by
  unfold walkAnswer
  split
  · exact hI
  · split
    · exact hI
    · split
      · exact hI
      · split
        · refine setHart_keeps (translateOp_keeps ?_)
          split <;> exact hI
        · split
          · exact updateOp_keeps hI
          · exact hI

theorem walkFetch_keeps {r x uid} (hI : I.At s) : I.At (walkFetch r x s uid) := by
  unfold walkFetch
  split
  · exact hI
  · split
    · split
      · exact setCore_keeps hI
      · exact hI
    · exact setHart_keeps hI

theorem walkAsk_keeps {gdie x} (hI : I.At s) : I.AtCoh (walkAsk s gdie x) := cohAll_keeps hI
theorem endWalk_keeps {gdie x r} (hI : I.At s) : I.At (endWalk s gdie x r) :=
  foldl_keeps (fun _ _ ht => walkFetch_keeps ht) (foldl_keeps (fun _ _ ht => walkAnswer_keeps ht) (setDie_keeps hI))

/-! The host and the links. -/

theorem hostWrites_keeps {xs} (hI : I.At s) : I.At (hostWrites s xs) :=
  foldl_keeps (fun _ _ ht => recordInput_keeps (writeMem_keeps ht)) hI
theorem hostEvicts_keeps {line data} (hI : I.At s) : I.At (hostEvicts s line data) :=
  foldl_keeps (fun _ _ ht => hostEvictUnit_keeps ht) (hostWrites_keeps hI)

theorem failReq_keeps {x} (hI : I.At s) : I.At (failReq s x) := by
  unfold failReq
  split
  · exact storeFails_keeps hI
  · exact opFails_keeps hI
  · split
    · exact hI
    · split
      · exact endWalk_keeps hI
      · exact hI
    · split
      · exact failOp_keeps hI
      · exact hI
    · split
      · exact setHart_keeps hI
      · exact hI
    · exact hI

theorem poisonRange_keeps {pa len} (hI : I.At s) : I.At (poisonRange s pa len) := hI
theorem loseLine_keeps {m x} (hI : I.At s) : I.At (loseLine m s x) :=
  at_both hI (at_both (poisonRange_keeps (at_others (releaseHost_keeps hI))) (at_others (releaseHost_keeps hI)))

theorem loseTile_keeps {m t} (hI : I.At s) : I.At (loseTile m s t) := by
  have hrelease : I.At { releaseHost s false (.tile t.base) with free := s.free + 1 } := releaseHost_keeps hI
  unfold loseTile
  split
  · exact hI
  · dsimp only
    split
    · exact foldl_keeps (fun _ _ ht => poisonRange_keeps ht) hrelease
    · exact hrelease

theorem setHost_keeps {m x} (hI : I.At s) : I.At (setHost s m x) := hI

theorem linkDown_keeps {m} (hI : I.At s) : I.At (linkDown s m) := by
  have hlines : I.At (s.grains.foldl (loseLine m) s) := foldl_keeps (fun _ _ ht => loseLine_keeps ht) hI
  have htiles : I.At (s.tiles.foldl (loseTile m) (s.grains.foldl (loseLine m) s)) := foldl_keeps (fun _ _ ht => loseTile_keeps ht) hlines
  exact setHost_keeps (foldl_keeps (fun _ _ ht => failReq_keeps ht) htiles)

theorem setPortState_keeps {m p x} (hI : I.At s) : I.At (setPortState s m p x) := hI
theorem raiseMsix_keeps {m vec} (hI : I.At s) : I.At (raiseMsix s m vec) := hI

theorem handOver_keeps {m port} (hI : I.At s) : I.At (handOver s m port) := by
  unfold handOver
  dsimp only
  split
  · exact hI
  · exact setPortState_keeps (setPortState_keeps hI)

theorem trainPort_keeps {m port mine peer} (hI : I.At s) : I.At (trainPort s m port mine peer) :=
  at_both (setPortState_keeps hI) (raiseModule_keeps (raiseMsix_keeps (handOver_keeps (setPortState_keeps hI))))

theorem settleRoutes_keeps {m} (hI : I.At s) : I.At (settleRoutes s m) := by
  unfold settleRoutes
  dsimp only
  split
  · exact hI
  · exact setModule_keeps hI

theorem settleAll_keeps (hI : I.At s) : I.At (settleAll s) := foldl_keeps (fun _ _ ht => at_both ht (settleRoutes_keeps ht)) hI

/-! Time, translations and named barriers. -/

theorem sawTime_keeps {h} (hI : I.At s) : I.At (sawTime s h) := hI
theorem dropTranslations_keeps {m f} (hI : I.At s) : I.At (dropTranslations s m f) := hI
theorem advanceNamed_keeps {core n} (hI : I.At s) : I.At (advanceNamed s core n) := hartsMap_keeps hI fun _ => rfl

theorem namedArrive_keeps {h p core n ph} (hI : I.At s) : I.At (namedArrive s h p core n ph) := by
  unfold namedArrive
  split
  · exact at_both (updateOp_keeps hI) (finishOp_keeps hI)
  · exact at_both (advanceNamed_keeps (updateOp_keeps hI)) (setCore_keeps (updateOp_keeps hI))

theorem namedWait_keeps {h p core n w} (hI : I.At s) : I.At (namedWait s h p core n w) :=
  at_both (updateOp_keeps hI) (finishOp_keeps hI)

/-! Matrix instructions. -/

theorem mxBody_keeps {h tiles bad c4 ahead} {k : Nat → CoreState → Issued} (hk : ∀ c cs, I.Issues (k c cs)) :
    I.Issues (mxBody h s tiles bad c4 ahead k) := by
  refine holdUp_keeps ?_
  split
  · trivial
  · split
    · trivial
    · exact holdUp_keeps (hk _ _)

theorem enqueue_keeps {h hs c op seq sn} (hI : I.At s) : I.At (enqueue s h hs c op seq sn) := hI
theorem mxPlain_keeps {h hs tiles bad c4 scale op} (hI : I.At s) : I.Issues (mxPlain h s hs tiles bad c4 scale op) :=
  mxBody_keeps fun _ _ => enqueue_keeps hI
theorem mxMemory_keeps {h hs tiles bad ahead op} {p : CoreState → Pending} (hI : I.At s) :
    I.Issues (mxMemory h s hs tiles bad ahead op p) := mxBody_keeps fun _ _ => issueMem_keeps (enqueue_keeps hI)

theorem tshapeBody_keeps {h hs t w} (hI : I.At s) : I.Issues (tshapeBody h s hs t w) := by
  refine holdUp_keeps ?_
  split
  · trivial
  · split
    · trivial
    · refine holdUp_keeps ?_
      split
      · exact setCore_keeps hI
      · exact enqueue_keeps (setCore_keeps hI)

theorem dropEntry_keeps {c e} (hI : I.At s) : I.At (dropEntry s c e) := hI

theorem cancelBehind_keeps {c e} (hI : I.At s) : I.At (cancelBehind s c e) := by
  unfold cancelBehind
  dsimp only
  split
  · exact setCore_keeps hI
  · exact setHart_keeps (setCore_keeps hI)

theorem mxAside_keeps {c e h seq} (hI : I.At s) : I.At (mxAside s c e h seq) :=
  dropEntry_keeps (at_both (cancelBehind_keeps (updateOp_keeps hI)) (updateOp_keeps hI))
theorem mxFault_keeps {c e h seq cause v} (hI : I.At s) : I.At (mxFault s c e h seq cause v) := mxAside_keeps (failOp_keeps hI)

theorem mxLoad_keeps {h hs c p} (hI : I.At s) : OnExcept (fun x => I.At x.1) (fun x => I.At x.1) (mxLoad s h hs c p) := by
  unfold mxLoad
  split
  · exact hI
  · split
    · exact hI
    · split
      · exact hI
      · split
        · next t e => exact (cohAll_keeps hI).wait e
        · next t e => exact (cohAll_keeps hI).ok e

theorem mxRestore_keeps {c slot first va bs} (hI : I.At s) : OnExcept (fun _ => True) I.At (mxRestore s c slot first va bs) := by
  unfold mxRestore
  dsimp only
  split
  · trivial
  · split
    · trivial
    · split
      · exact hI
      · split
        · trivial
        · split
          · split
            · exact setCore_keeps hI
            · exact hI
          · exact hI

theorem mxLoaded_keeps {c e p bs} (hI : I.At s) : OnExcept (fun _ => True) I.At (mxLoaded s c e p bs) := by
  unfold mxLoaded
  dsimp only
  split
  · exact setCore_keeps hI
  · split
    · trivial
    · exact hI
  · exact setCore_keeps hI
  · exact setCore_keeps hI
  · exact mxRestore_keeps hI
  · exact hI

theorem mxStored_keeps {c e spans} (hI : I.At s) : OnExcept (fun _ => True) (fun x => I.At x.1) (mxStored s c e spans) := by
  unfold mxStored
  dsimp only
  split
  · exact hI
  · split <;> exact setCore_keeps hI
  · split
    · trivial
    · split
      · split <;> exact hI
      · exact hI
  · exact hI

theorem mxDone_keeps {c e h seq} (hI : I.At s) : I.At (mxDone s c e h seq) := by
  unfold mxDone
  dsimp only
  split
  · exact setHart_keeps (dropEntry_keeps hI)
  · exact dropEntry_keeps hI

theorem mxStore_keeps {c e h hs p} (hI : I.At s) : OnOption I.At (mxStore s c e h hs p) := by
  unfold mxStore
  split
  · exact mxFault_keeps hI
  · split
    · trivial
    · split
      · exact mxFault_keeps hI
      · next t e => exact mxDone_keeps ((mxStored_keeps hI).ok e)
      · next t op e =>
        have ht : I.At t := (mxStored_keeps hI).ok e
        dsimp only
        split
        · exact at_both (send_keeps (dropEntry_keeps ht)) (accept_keeps (dropEntry_keeps ht))
        · exact updateOp_keeps (dropEntry_keeps ht)

theorem mxRead_keeps {c e h hs p} (hI : I.At s) : OnOption I.At (mxRead s c e h hs p) := by
  have hdone {t bs} (ht : I.At t) : I.At (match mxLoaded t c e p bs with
      | .error (k, v) => mxFault t c e h p.seq k v
      | .ok u => mxDone u c e h p.seq) := by
    split
    · exact mxFault_keeps ht
    · next u e => exact mxDone_keeps ((mxLoaded_keeps ht).ok e)
  unfold mxRead
  dsimp only
  split
  · next t e =>
    split
    · trivial
    · exact (mxLoad_keeps hI).error e
  · next t k v e => exact mxFault_keeps ((mxLoad_keeps hI).error e)
  · next t m e =>
    have ht : I.At t := (mxLoad_keeps hI).ok e
    split
    · split
      · exact hdone ht
      · exact setCore_keeps ht
    · exact hdone ht

theorem mxAccess_keeps {c e seq} (hI : I.At s) : OnOption I.At (mxAccess s c e seq) := by
  unfold mxAccess
  split
  · exact dropEntry_keeps hI
  · split
    · exact dropEntry_keeps hI
    · split
      · exact mxAside_keeps hI
      · split
        · trivial
        · split
          · exact mxStore_keeps hI
          · exact mxRead_keeps hI

theorem tileReadDone_keeps {cs off len who} (hI : I.At s) : I.At (tileReadDone s cs off len who) := by
  unfold tileReadDone
  split
  · exact hI
  · split
    · exact hI
    · split
      · exact finishOp_keeps hI
      · exact failOp_keeps hI

theorem mxPerform_keeps {c e} (hI : I.At s) : OnOption I.At (mxPerform s c e) := by
  unfold mxPerform
  dsimp only
  split
  · split
    · exact finishOp_keeps (setCore_keeps hI)
    · exact setCore_keeps hI
  · split
    · exact mxAccess_keeps hI
    · split
      · exact finishOp_keeps (setCore_keeps hI)
      · exact setCore_keeps hI
  · exact tileReadDone_keeps (dropEntry_keeps hI)
  · exact hI
  · exact hI
  · exact setCore_keeps hI

theorem mxFirst_keeps {c earlier es} (hI : I.At s) : OnOption I.At (mxFirst s c earlier es) := by
  induction es generalizing earlier with
  | nil => trivial
  | cons e rest ih =>
    unfold mxFirst
    dsimp only
    split
    · exact ih
    · split
      · next t e => exact (mxPerform_keeps hI).some e
      · exact ih

theorem answerCommand_keeps {h n k} (hI : I.At s) : I.At (answerCommand s h n k) := updateOp_keeps hI

theorem commandTurn_keeps {h hs p c ticket cmd op} (hI : I.At s) : I.At (commandTurn s h hs p c ticket cmd op) := by
  unfold commandTurn
  split
  · exact hI
  · split
    · exact answerCommand_keeps hI
    · exact updateOp_keeps hI

theorem commandArrives_keeps {h hs p cmd cap} (hI : I.At s) : I.At (commandArrives s h hs p cmd cap) := by
  unfold commandArrives
  dsimp only
  split
  · exact answerCommand_keeps hI
  · split
    · exact failOp_keeps hI
    · split
      · exact answerCommand_keeps hI
      · split
        · exact answerCommand_keeps hI
        · exact commandTurn_keeps (updateOp_keeps hI)

theorem freeze_keeps {c slot uid} (hI : I.At s) : OnOption I.At (freeze s c slot uid) := by
  unfold freeze
  dsimp only
  split
  · exact hI
  · split
    · exact setCore_keeps hI
    · split
      · exact setCore_keeps hI
      · trivial

end Sys2Proof.Machine

end

section
/-!
Hardware stores, grids, groups, launches and copies keep an invariant.
-/

namespace Sys2Proof.Machine

variable {I : StepInvariant} {s t : State}

/-! The module's own stores. -/

theorem hwStore_keeps {m gang uid md pa bs} (hI : I.At s) : I.At (hwStore s m gang uid md pa bs) := storesAppend_keeps hI rfl
theorem freshUid_keeps (hI : I.At s) : I.At (freshUid s).1 := hI
theorem hwWord_keeps {m gang md pa v} (hI : I.At s) : I.At (hwWord s m gang md pa v) := hwStore_keeps (freshUid_keeps hI)

theorem posterRead_keeps {m by_ va len r} (hI : I.At s) : I.AtPoster (posterRead s m by_ va len r) := by
  unfold posterRead
  split
  · exact sendSnoops_keeps hI
  · split
    · trivial
    · split
      · split
        · exact hI
        · trivial
      · exact sendSnoops_keeps hI

/-! Grids and tasks. -/

theorem poolAdd_keeps {m item prio} (hI : I.At s) : I.At (poolAdd s m item prio) := hI
theorem readyTask_keeps {m t} (hI : I.At s) : I.At (readyTask s m t) :=
  at_both (setModule_keeps hI) (poolAdd_keeps hI)
theorem setGrid_keeps {m g} (hI : I.At s) : I.At (setGrid s m g) := hI

theorem enterGrid_keeps {m id} (hI : I.At s) : I.At (enterGrid s m id) := by
  unfold enterGrid
  split
  · exact hI
  · exact at_both hI (poolAdd_keeps hI)

theorem releaseGroups_keeps {m id is} (hI : I.At s) : I.At (releaseGroups s m id is) := by
  unfold releaseGroups
  split
  · exact hI
  · exact enterGrid_keeps (setGrid_keeps hI)

theorem dropGrid_keeps {m id} (hI : I.At s) : I.At (dropGrid s m id) := hI
theorem completeGrid_keeps {m g} (hI : I.At s) : I.At (completeGrid s m g) :=
  dropGrid_keeps (at_both hI (hwWord_keeps hI))

theorem shareDone_keeps {m g pos} (hI : I.At s) : I.At (shareDone s m g pos) := by
  unfold shareDone
  split
  · exact hI
  · exact at_both (setGrid_keeps hI) (foldl_keeps (fun _ _ ht => sendMsg_keeps ht) (completeGrid_keeps hI))

theorem checkGrid_keeps {m id} (hI : I.At s) : I.At (checkGrid s m id) := by
  unfold checkGrid
  split
  · exact hI
  · split
    · exact at_both (completeGrid_keeps hI) hI
    · exact at_both hI (at_both (shareDone_keeps hI) (sendMsg_keeps hI))

theorem gridGroupRetired_keeps {m id i} (hI : I.At s) : I.At (gridGroupRetired s m id i) := by
  unfold gridGroupRetired
  split
  · exact hI
  · have hsent {l : List Nat} {f : Nat → Msg} {g} : I.At (l.foldl (fun t dest => sendMsg t (f dest)) (setGrid s m g)) :=
      foldl_keeps (fun _ _ ht => sendMsg_keeps ht) (setGrid_keeps hI)
    exact checkGrid_keeps (at_both hsent (releaseGroups_keeps hsent))

theorem enterTask_keeps {m t} (hI : I.At s) : OnOption I.At (enterTask s m t) := by
  unfold enterTask
  split
  · trivial
  · exact readyTask_keeps (setModule_keeps hI)

theorem walkEntry_keeps {m w} (hI : I.At s) : I.AtWalked (walkEntry s m w) := by
  unfold walkEntry
  split
  · split
    · next t e => exact (enterTask_keeps hI).some e
    · exact hI
  · split
    · exact hI
    · split
      · next t e => exact (posterRead_keeps hI).wait e
      · exact raiseModule_keeps hI
      · dsimp only
        split
        · exact hI
        · split
          · next t e => exact (posterRead_keeps hI).wait e
          · exact raiseModule_keeps hI
          · split
            · next t e => exact (cohRequest_keeps hI).wait e
            · next t e => exact putMem_keeps (memSetNat_keeps ((cohRequest_keeps hI).ok e))

theorem walkList_keeps {m fuel w} (hI : I.At s) : I.At (walkList m fuel s w).1 := by
  induction fuel generalizing s w with
  | zero => exact hI
  | succ n ih =>
    unfold walkList
    split
    · next t w' e => exact ih ((walkEntry_keeps hI).go e)
    · next t w' e => exact (walkEntry_keeps hI).pause e
    · next t e => exact (walkEntry_keeps hI).stop e

theorem walkSucc_keeps {m w} (hI : I.At s) : I.At (walkSucc s m w) := by
  unfold walkSucc
  have hl {fuel} : I.At (walkList m fuel s w).1 := walkList_keeps hI
  split
  · next t e => exact (congrArg Prod.fst e ▸ hl : I.At (t, none).1)
  · next t w' e => exact setModule_keeps (congrArg Prod.fst e ▸ hl : I.At (t, some w').1)

theorem walkPaused_keeps {m} (hI : I.At s) : I.At (walkPaused s m) :=
  foldl_keeps (fun _ _ ht => walkSucc_keeps ht) (setModule_keeps hI)

/-! Groups and placement. -/

theorem groupRetired_keeps {gid g} (hI : I.At s) : I.At (groupRetired s gid g) := by
  unfold groupRetired
  split
  · exact gridGroupRetired_keeps hI
  · exact at_both hI (walkSucc_keeps hI)
  · exact hI

theorem groupStrandEnds_keeps {gid} (hI : I.At s) : I.At (groupStrandEnds s gid) := by
  unfold groupStrandEnds
  split
  · exact hI
  · exact at_both (groupRetired_keeps hI) hI

theorem cyclicRoom_keeps {m n spk} (hI : I.At s) : OnOption (fun x => I.At x.1) (cyclicRoom s m n spk) := by
  unfold cyclicRoom
  cases firstRoom s n spk (cyclicClusters s m) with
  | none => trivial
  | some x => exact setModule_keeps hI

theorem roomFor_keeps {m n spk home} (hI : I.At s) : OnOption (fun x => I.At x.1) (roomFor s m n spk home) := by
  unfold roomFor
  split
  · cases firstRoom s n spk _ with
    | none => trivial
    | some x => exact hI
  · exact cyclicRoom_keeps hI

theorem startStrands_keeps {m gid by_ epc l k used} (hI : I.At s) : I.At (startStrands m gid by_ epc l k used s) := by
  induction used generalizing s k with
  | nil => exact hI
  | cons x rest ih => exact ih (install_keeps (freshUid_keeps hI))

theorem startGroup_keeps {m kind e by_ l used} (hI : I.At s) : I.At (startGroup s m kind e by_ l used) := startStrands_keeps hI

theorem placeGrid_keeps {m g} (hI : I.At s) : OnOption I.At (placeGrid s m g) := by
  unfold placeGrid
  split
  · exact (roomFor_keeps hI).map fun x hx => startGroup_keeps (setGrid_keeps hx)
  · trivial

theorem cyclicEngine_keeps {m} (hI : I.At s) : OnOption (fun x => I.At x.1) (cyclicEngine s m) := by
  unfold cyclicEngine
  dsimp only
  cases (List.range 4).findSome? _ with
  | none => trivial
  | some x => exact setModule_keeps hI

theorem startEngine_keeps {e group by_ pc k7 gs} (hI : I.At s) : I.At (startEngine s e group by_ pc k7 gs) := setHart_keeps hI

theorem placeTask_keeps {m t} (hI : I.At s) : OnOption I.At (placeTask s m t) := by
  unfold placeTask
  split
  · trivial
  · dsimp only
    split
    · refine OnOption.map (P := fun x => I.At x.1) ?_ fun x hx => startEngine_keeps hx
      split
      · cases (bandDies _).findSome? _ with
        | none => trivial
        | some x => exact hI
      · exact cyclicEngine_keeps hI
    · exact (roomFor_keeps hI).map fun x hx => startGroup_keeps hx

theorem placeItem_keeps {m x} (hI : I.At s) : OnOption I.At (placeItem s m x) := by
  unfold placeItem
  split
  · trivial
  · split
    · exact placeTask_keeps hI
    · cases gridOf s m _ with
      | none => trivial
      | some g => exact placeGrid_keeps hI

theorem scanPool_keeps {m skipped es} (hI : I.At s) : OnOption (fun x => I.At x.2.2) (scanPool s m skipped es) := by
  induction es generalizing skipped with
  | nil => trivial
  | cons e rest ih =>
    unfold scanPool
    split
    · next t he => exact (placeItem_keeps hI).some he
    · split
      · trivial
      · exact ih

theorem poolAfter_keeps {m e skipped} (hI : I.At s) : I.At (poolAfter s m e skipped) := by
  unfold poolAfter
  split
  · exact enterGrid_keeps (setModule_keeps hI)
  · exact setModule_keeps hI

/-! Posts. -/

theorem holdTimed_keeps {t} (hI : I.At s) : I.At (holdTimed s t) :=
  foldl_keeps (fun _ _ hu => recordInput_keeps (setModule_keeps hu)) hI

theorem postTimed_keeps {m by_ pa va} (hI : I.At s) : OnExcept (fun _ => True) (fun x => I.At x.1) (postTimed s m by_ pa va) := by
  unfold postTimed
  split
  · trivial
  · split
    · trivial
    · split
      · trivial
      · split
        · trivial
        · split
          · trivial
          · split
            · exact hI
            · exact holdTimed_keeps hI

theorem postTask_keeps {m by_ va pa} (hI : I.At s) : I.At (postTask s m by_ va pa).1 := by
  unfold postTask
  dsimp only
  split
  · exact hI
  · split
    · exact hI
    · split
      · exact hI
      · exact readyTask_keeps (at_others hI)

theorem tpostResult_keeps {h hs p} (hI : I.At s) : I.At (tpostResult s h hs p) := by
  unfold tpostResult
  split
  · exact hI
  · split
    · exact failOp_keeps hI
    · next t _ e => exact (cohAll_keeps hI).wait e
    · next t _ e =>
      have ht : I.At t := (cohAll_keeps hI).ok e
      split
      · split
        · exact failOp_keeps hI
        · next t' k e' => exact giveResult_keeps ((postTimed_keeps ht).ok e')
      · split
        · exact sendSnoops_keeps ht
        · exact giveResult_keeps (postTask_keeps ht)

theorem addGrid_keeps {m g} (hI : I.At s) : I.At (addGrid s m g) := hI

theorem releaseAll_keeps {m id} (hI : I.At s) : I.At (releaseAll s m id) := by
  unfold releaseAll
  split
  · exact hI
  · exact at_both hI (at_both (enterGrid_keeps hI) (releaseGroups_keeps hI))

theorem glaunchResult_keeps {h hs p} (hI : I.At s) : I.At (glaunchResult s h hs p) := by
  unfold glaunchResult
  dsimp only
  split
  · exact hI
  · split
    · exact hI
    · split
      · exact hI
      · split
        · exact failOp_keeps hI
        · next t _ e => exact (cohAll_keeps hI).wait e
        · next t _ e =>
          have ht : I.At t := (cohAll_keeps hI).ok e
          split
          · exact sendSnoops_keeps ht
          · split
            · exact failOp_keeps hI
            · split
              · exact updateOp_keeps ht
              · exact giveResult_keeps (releaseAll_keeps (addGrid_keeps ht))

/-! Joins and launches. -/

theorem setJoin_keeps {r x} (hI : I.At s) : I.At (setJoin s r x) := hI
theorem dropJoin_keeps {r} (hI : I.At s) : I.At (dropJoin s r) := hI

theorem tidyJoin_keeps {h} (hI : I.At s) : I.At (tidyJoin s h) := by
  unfold tidyJoin
  split
  · exact hI
  · split
    · exact hI
    · exact at_both (dropJoin_keeps (setHart_keeps hI)) hI

theorem spawnSend_keeps {h hs p entry arg target} (hI : I.At s) : I.At (spawnSend s h hs p entry arg target) :=
  at_both hI (updateOp_keeps (sendMsg_keeps hI))
theorem startChild_keeps {parent by_ act c n entry arg} (hI : I.At s) : I.At (startChild s parent by_ act c n entry arg) :=
  install_keeps hI

theorem countChild_keeps {h} (hI : I.At s) : I.At (countChild s h) := by
  unfold countChild
  dsimp only
  split
  · exact hI
  · split
    · exact setHart_keeps hI
    · split
      · exact setJoin_keeps (setHart_keeps hI)
      · exact setHart_keeps hI

theorem leaveSlot_keeps {h uid} (hI : I.At s) : I.At (leaveSlot s h uid) := by
  unfold leaveSlot
  split
  · exact dropHart_keeps (leaveLong_keeps (setCore_keeps hI))
  · exact dropHart_keeps (leaveLong_keeps hI)

theorem endHart_keeps {h hs} (hI : I.At s) : I.At (endHart s h hs) := by
  unfold endHart
  split
  · exact groupStrandEnds_keeps (sendMsg_keeps (leaveSlot_keeps hI))
  · exact groupStrandEnds_keeps (sendMsg_keeps (leaveSlot_keeps hI))
  · exact groupStrandEnds_keeps (leaveSlot_keeps hI)

theorem decrementParent_keeps {uid} (hI : I.At s) : OnOption I.At (decrementParent s uid) := by
  unfold decrementParent
  cases hartByUid s uid with
  | none => trivial
  | some x =>
    refine tidyJoin_keeps ?_
    split
    · exact setHart_keeps hI
    · split
      · exact setJoin_keeps (setHart_keeps hI)
      · exact setHart_keeps hI

theorem kickResult_keeps {h hs p id desc} (hI : I.At s) : I.At (kickResult s h hs p id desc) := by
  unfold kickResult
  split
  · exact hI
  · split
    · exact giveResult_keeps hI
    · exact at_both (giveResult_keeps hI) (at_both (giveResult_keeps hI) (giveResult_keeps hI))

theorem reportWords_keeps {m uid by_ ws} (hI : I.At s) : I.At (reportWords s m uid by_ ws) := by
  induction ws generalizing s with
  | nil => exact hI
  | cons w rest ih =>
    unfold reportWords
    split
    · exact raiseModule_keeps hI
    · exact ih (hwStore_keeps hI)

/-! Copies. -/

theorem Got.bind_keeps {α β : Type} {g : Got α} {f : State → α → Got β} (hg : I.AtGot g)
    (hf : ∀ t a, I.At t → I.AtGot (f t a)) :
    I.AtGot (g.bind f) := by
  cases g with
  | ok s a => exact hf s a hg
  | wait s => exact hg
  | fault c v => trivial

theorem copySeek_keeps {h hs p va r} (hI : I.At s) : I.AtGot (copySeek s h hs p va r) := by
  unfold copySeek
  split
  · exact hI
  · trivial
  · next t e => exact (seek_keeps hI).wait e

theorem copyPlace_keeps {h hs p va len r} (hI : I.At s) : I.AtGot (copyPlace s h hs p va len r) :=
  Got.bind_keeps (copySeek_keeps hI) fun t a ht => by split <;> exact ht

theorem copyRead_keeps {h hs p x} (hI : I.At s) : I.AtGot (copyRead s h hs p x) := by
  refine Got.bind_keeps (copyPlace_keeps hI) fun t a ht => ?_
  split
  · split
    · trivial
    · split
      · trivial
      · split <;> exact ht
  · split
    · trivial
    · split
      · next u e => exact (cohAsk_keeps ht).wait e
      · next u e => exact (cohAsk_keeps ht).ok e

theorem copyReads_keeps {h hs p xs} (hI : I.At s) : I.AtGot (copyReads s h hs p xs) := by
  induction xs generalizing s with
  | nil => exact hI
  | cons x rest ih => exact Got.bind_keeps (copyRead_keeps hI) fun _ _ ht => Got.bind_keeps (ih ht) fun _ _ hu => hu

theorem windowPut_keeps {uid p pa bs} (hI : I.At s) : I.At (windowPut s uid p pa bs) := by
  unfold windowPut
  dsimp only
  split
  · exact writeMem_keeps (spoil_keeps hI)
  · exact joinQueue_keeps hI
  · exact at_both (sctlRun_keeps (at_both (sctlDblClear_keeps hI) hI)) (at_both (sctlDblClear_keeps hI) hI)
  · exact windowStoreEffect_keeps hI

theorem copyWindow_keeps {h hs p va pa bs} (hI : I.At s) : I.AtGot (copyWindow s h hs p va pa bs) := by
  unfold copyWindow
  dsimp only
  split
  · exact hI
  · split
    · exact parkPacket_keeps hI
    · split
      · trivial
      · split
        · exact hI
        · exact windowPut_keeps hI

theorem copyWrite_keeps {h hs p va bs} (hI : I.At s) : I.AtGot (copyWrite s h hs p va bs) := by
  refine Got.bind_keeps (copyPlace_keeps hI) fun t a ht => ?_
  split
  · exact copyWindow_keeps ht
  · split
    · trivial
    · split
      · next u e => exact (cohAsk_keeps ht).wait e
      · next u e => exact writeMem_keeps (spoil_keeps ((cohAsk_keeps ht).ok e))

theorem castWrite_keeps {h hs p off bs cores} (hI : I.At s) : I.AtGot (castWrite h hs p off bs cores s) := by
  induction cores generalizing s with
  | nil => exact hI
  | cons c rest ih => exact Got.bind_keeps (copyWindow_keeps hI) fun _ _ ht => ih ht

theorem copyGoes_keeps {h p op finished} {g : Got Unit} (hI : I.At s) (hg : I.AtGot g) :
    I.At (copyGoes s h p g op finished) := by
  unfold copyGoes
  split
  · split
    · exact hI
    · exact hg
  · exact failOp_keeps hI
  · exact updateOp_keeps (served_keeps hg)

theorem copyStep_keeps {h hs p} (hI : I.At s) : I.At (copyStep s h hs p) := by
  unfold copyStep
  split
  · exact hI
  · split
    · dsimp only
      split
      · exact hI
      · refine copyGoes_keeps hI (Got.bind_keeps (copyReads_keeps hI) fun t bs ht => copyWrite_keeps ?_)
        split <;> exact ht
    · dsimp only
      split
      · exact hI
      · exact copyGoes_keeps hI (Got.bind_keeps (copyReads_keeps hI) fun t bs ht => castWrite_keeps ht)
    · exact hI

theorem engineArrive_keeps {req m hs va p c} (hI : I.At s) : I.AtGot (engineArrive s req m hs va p c) := by
  unfold engineArrive
  dsimp only
  split
  · trivial
  · split
    · trivial
    · have hr : I.AtCoh (if isWindow p.pa then .ok s else cohRequest s req .own none p.pa 16 p.grain) := by
        split
        · exact hI
        · exact cohRequest_keeps hI
      split
      · next t e => exact hr.wait e
      · next t e =>
        split
        · next u ph e' => exact (arriveBarrier_keeps (hr.ok e)).some e'
        · trivial

theorem barPlace_keeps {h hs p va} (hI : I.At s) : I.AtGot (barPlace s h hs p va) := by
  unfold barPlace
  split
  · trivial
  · refine Got.bind_keeps (copySeek_keeps hI) fun t a ht => ?_
    split
    · exact ht
    · split
      · trivial
      · exact ht

/-- What holds of a fold's base and passes from the tail to the list holds of the fold. `castArrive` is unfolded to its recursor and not by
its equations: those make the kernel compute with window addresses. -/
theorem brecOn_induction {α β : Type} {F : (l : List α) → List.below (motive := fun _ => β) l → β} {P : β → Prop}
    (nil : ∀ f, P (F [] f)) (cons : ∀ a l f, P f.1 → P (F (a :: l) f)) (l : List α) : P (List.brecOn l F) := by
  induction l with
  | nil => exact nil _
  | cons a l ih => exact cons a l _ ih

theorem castArrive_keeps {h hs p boff c cores} (hI : I.At s) : I.AtGot (castArrive h hs p boff c cores s) := by
  revert s
  delta castArrive
  refine brecOn_induction (P := fun g : State → Got Unit => ∀ {s}, I.At s → I.AtGot (g s)) ?nil ?cons cores
  case nil => exact fun _ _ hI => hI
  case cons =>
    intro k rest g ih s hI
    delta castArrive._f
    dsimp only
    generalize windowPa k 0 boff = pa
    split
    · trivial
    · split
      · trivial
      · exact Got.bind_keeps (engineArrive_keeps hI) fun _ _ ht => ih ht

/-! Results. -/

theorem literalResult_keeps {h hs p} (hI : I.At s) : I.At (literalResult s h hs p) := by
  unfold literalResult
  split
  · exact hI
  · split
    · exact failOp_keeps hI
    · next t e => exact (codeAt_keeps hI).wait e
    · next b t e => exact giveResult_keeps ((codeAt_keeps hI).block e)

theorem openResult_keeps {h hs p} (hI : I.At s) : I.At (openResult s h hs p) := by
  have hload : I.At (if goesWindow p || goesHome h p then s else cachedLoad s h hs p) := at_both hI (cachedLoad_keeps hI)
  unfold openResult
  cases p.op with
  | value v => exact giveResult_keeps hI
  | vector v f special =>
    cases special <;> exact at_both (giveResult_keeps hI) hI
  | scalarF v f => exact at_both (giveResult_keeps hI) hI
  | subnormal mask => exact at_both (failOp_keeps hI) hI
  | literal => exact literalResult_keeps hI
  | load | loadBits | vload | vgather | vbdec => exact hload
  | redRead m => exact redRead_keeps hI
  | nbArrive c n ph => exact at_both (namedArrive_keeps hI) hI
  | nbWait c n w => exact at_both (namedWait_keeps hI) hI
  | kick e d => exact kickResult_keeps hI
  | tpost => exact tpostResult_keeps hI
  | spawn e a t => exact spawnSend_keeps hI
  | glaunch => exact glaunchResult_keeps hI
  | mig k => exact giveResult_keeps hI
  | bcopy | bcast => exact copyStep_keeps hI
  | _ => exact hI

end Sys2Proof.Machine

end

section
/-!
Timed actions, migration, combining, host links and resets keep an invariant.
-/

namespace Sys2Proof.Machine

variable {I : StepInvariant} {s t : State}

theorem giveDone_keeps {h hs p r} (hI : I.At s) : I.At (giveDone s h hs p r) :=
  at_both (drew_keeps hI (giveResult_keeps hI)) (giveResult_keeps hI)

/-! Timed actions. -/

theorem setAction_keeps {m a} (hI : I.At s) : I.At (setAction s m a) := hI
theorem mapTimed_keeps {m f} (hI : I.At s) : I.At (mapTimed s m f) := hI
theorem haltHeld_keeps {m n} (hI : I.At s) : I.At (haltHeld s m n) :=
  hartsMap_keeps hI fun x => by dsimp only; split <;> rfl

theorem straggle_keeps {m t} (hI : I.At s) : I.At (straggle s m t) := by
  unfold straggle
  split
  · exact hI
  · exact raiseModule_keeps (haltHeld_keeps (mapTimed_keeps hI))

theorem takeReport_keeps {m t r} (hI : I.At s) : I.At (takeReport s m t r) := by
  have h1 := mapTimed_keeps (m := m) (f := fun x => if x.n = t.n then { x with reports := x.reports ++ [r] } else x) hI
  exact openGates_keeps (at_both (straggle_keeps h1) h1)

theorem storeDone_keeps {m a nrec fail} (hI : I.At s) : I.At (storeDone s m a nrec fail) := hwStore_keeps hI
theorem finish_keeps {m a nrec fail} (hI : I.At s) : I.At (finish s m a nrec fail) :=
  openGates_keeps (setAction_keeps (storeDone_keeps hI))
theorem holdMembers_keeps {m gang} (hI : I.At s) : I.At (holdMembers s m gang) :=
  hartsMap_keeps hI fun x => by dsimp only; split <;> rfl
theorem takeBegin_keeps {m a} (hI : I.At s) : I.At (takeBegin s m a) :=
  at_both (finish_keeps hI) (holdMembers_keeps (setAction_keeps (setModule_keeps hI)))

theorem freezeAll_keeps {u} (hI : I.At s) : OnOption I.At (freezeAll s u) := by
  induction u generalizing s with
  | nil => exact hI
  | cons x rest ih => exact (freeze_keeps hI).bind fun _ ht => ih ht

theorem keepResidue_keeps {c n hs} (hI : I.At s) : I.At (keepResidue s c n hs) := hI
theorem vacate_keeps {c n hs} (hI : I.At s) : I.At (vacate s c n hs) :=
  dropHart_keeps (keepResidue_keeps (leaveLong_keeps (withdraw_keeps hI)))

theorem groupTaken_keeps {gid} (hI : I.At s) : I.At (groupTaken s gid) := by
  unfold groupTaken
  split
  · exact hI
  · exact at_both hI hI

theorem relink_keeps {m gang us} (hI : I.At s) : I.At (relink s m gang us) := hartsMap_keeps hI fun _ => rfl

theorem adopt_keeps {m gang us} (hI : I.At s) : I.At (adopt s m gang us) := by
  refine foldl_keeps (fun t x ht => foldl_keeps (fun u a hu => ?_) ht) hI
  dsimp only
  refine at_both ?_ (setAction_keeps ?_) <;> exact foldl_keeps (fun w x hw => hwStore_keeps hw) hu

theorem freeJoins_keeps {us} (hI : I.At s) : I.At (freeJoins s us) := hI
theorem noteSolo_keeps {grids} (hI : I.At s) : I.At (noteSolo s grids) := hI

theorem takeEnd_keeps {m a ms} (hI : I.At s) : I.At (takeEnd s m a ms) := by
  unfold takeEnd
  dsimp only
  refine finish_keeps (freeJoins_keeps (foldl_keeps (fun u x hu => groupTaken_keeps (vacate_keeps hu)) ?_))
  refine at_others (noteSolo_keeps (setModule_keeps (adopt_keeps (relink_keeps (setModule_keeps (hwStore_keeps ?_))))))
  exact foldl_keeps (fun u x hu => hwStore_keeps hu) hI

theorem takeStep_keeps {s0 : State} {m a} (hI : I.At s0) : I.At (takeStep s0 m a) := by
  unfold takeStep
  dsimp only
  split
  · exact holdMembers_keeps hI
  · split
    · exact holdMembers_keeps hI
    · next t e => exact takeEnd_keeps ((freezeAll_keeps (holdMembers_keeps hI)).some e)

theorem stepGrids_keeps {m a} (hI : I.At s) : OnOption I.At (stepGrids s m a) := by
  unfold stepGrids
  split
  · exact setAction_keeps hI
  · split
    · exact setAction_keeps hI
    · split
      · trivial
      · refine setAction_keeps (hwStore_keeps (addGrid_keeps ?_))
        exact at_both hI hI

theorem placeRecords_keeps {m keeps spk rs} (hI : I.At s) : OnOption (fun x => I.At x.1) (placeRecords s m keeps spk rs) := by
  have hroom := (cyclicRoom_keeps (m := m) (n := rs.length) (spk := spk) hI).map
    (Q := fun x : State × List (Nat × Nat × Bool) => I.At x.1)
    (f := fun (s1, l) => (s1, l.map fun (c, n) => (c, n, false))) fun _ ht => ht
  unfold placeRecords
  dsimp only
  split
  · exact hroom
  · split
    · cases placeRest s keeps _ spk rs _ with
      | none => exact hroom
      | some l => exact hI
    · exact hroom

theorem rewriteRecord_keeps {m a pa r k5 k6 c n kept j} (hI : I.At s) : I.At (rewriteRecord s m a pa r k5 k6 c n kept j) :=
  hwStore_keeps (hwStore_keeps (hwStore_keeps (hwStore_keeps (hwStore_keeps hI))))

theorem restoredAs_keeps {left} (hI : I.At s) : I.At (restoredAs s left).1 := by
  unfold restoredAs
  split
  · exact hI
  · exact freshUid_keeps hI

theorem installRecord_keeps {m a gid base x} (hI : I.At s) : I.At (installRecord m a gid base s x) := by
  obtain ⟨r, c, n, kept⟩ := x
  unfold installRecord
  dsimp -zeta only
  extract_lets t pos k5 k6 left j s2 _ _ _ hs s3 s4 s5
  have h2 : I.At s2 := by
    unfold s2
    cases hj : j with
    | some ref => exact setJoin_keeps (restoredAs_keeps hI)
    | none => exact restoredAs_keeps hI
  have h3 : I.At s3 := install_keeps h2
  have h5 : I.At s5 := rewriteRecord_keeps (at_both h3 h3)
  clear_value s5
  split
  · exact setAction_keeps h5
  · exact h5

theorem stepRecords_keeps {m a} (hI : I.At s) : OnOption I.At (stepRecords s m a) := by
  unfold stepRecords
  dsimp only
  split
  · exact setAction_keeps hI
  · split
    · trivial
    · split
      · exact setAction_keeps hI
      · split
        · trivial
        · split
          · trivial
          · next t at_ e =>
            split
            · trivial
            · exact foldl_keeps (fun u x hu => installRecord_keeps hu) (setAction_keeps ((placeRecords_keeps hI).some e))

theorem stepRelease_keeps {m a} (hI : I.At s) : OnOption I.At (stepRelease s m a) := by
  unfold stepRelease
  dsimp only
  split
  · trivial
  · refine openGates_keeps (setAction_keeps (foldl_keeps (fun u x hu => checkGrid_keeps (releaseAll_keeps hu)) ?_))
    refine foldl_keeps (fun u x hu => ?_) hI
    split
    · exact at_both (setGrid_keeps hu) hu
    · exact hu

theorem replayPacket_keeps {a p} (hI : I.At s) : I.At (replayPacket a s p) := by
  unfold replayPacket
  split
  · split
    · exact hI
    · split
      · exact hI
      · exact at_both (storeEffect_keeps hI) (windowPut_keeps hI)
      · exact storeEffect_keeps hI
  · split
    · exact hI
    · split
      · exact startChild_keeps hI
      · exact hI

theorem stepPackets_keeps {m a} (hI : I.At s) : I.At (stepPackets s m a) := by
  have h1 : I.At (match if a.order.act = 2 then (moduleOf s m).taken.find? fun x => x.gang == a.order.gang else none with
      | some x => x.packets.foldl (replayPacket a)
          (setModule s m { moduleOf s m with taken := (moduleOf s m).taken.filter fun y => y.gang != a.order.gang })
      | none => s) := by
    split
    · exact foldl_keeps (fun _ _ ht => replayPacket_keeps ht) (setModule_keeps hI)
    · exact hI
  unfold stepPackets
  dsimp only
  split
  · exact openGates_keeps (setAction_keeps h1)
  · exact h1

theorem stepTasks_keeps {m a} (hI : I.At s) : OnOption I.At (stepTasks s m a) := by
  unfold stepTasks
  dsimp only
  split
  · exact finish_keeps hI
  · split
    · next t e =>
      split
      · trivial
      · exact (posterRead_keeps hI).wait e
    · exact raiseModule_keeps (setAction_keeps hI)
    · split
      · split
        · trivial
        · exact sendSnoops_keeps hI
      · split
        · exact raiseModule_keeps (setAction_keeps hI)
        · split
          · exact setModule_keeps (at_others (setAction_keeps hI))
          · split
            · trivial
            · exact readyTask_keeps (at_others (setAction_keeps hI))

theorem actionStep_keeps {m a} (hI : I.At s) : OnOption I.At (actionStep s m a) := by
  unfold actionStep
  split
  · exact stepGrids_keeps hI
  · exact stepRecords_keeps hI
  · exact stepPackets_keeps hI
  · exact stepRelease_keeps hI
  · exact stepTasks_keeps hI
  · exact takeStep_keeps hI
  · trivial

theorem actionRun_keeps {u : State} {m n fuel} (hI : I.At u) : I.At (actionRun m n fuel u) := by
  induction fuel generalizing u with
  | zero => exact hI
  | succ k ih =>
    unfold actionRun
    split
    · exact hI
    · split
      · exact hI
      · next t e =>
        have ht := (actionStep_keeps hI).some e
        exact at_both ht (ih ht)

theorem beginAction_keeps {m t} (hI : I.At s) : I.At (beginAction s m t) := by
  unfold beginAction
  dsimp -zeta only
  extract_lets pos now fb late boards r ms pa nrec a s2 others s3 s4 s5
  have h2 : I.At s2 := setModule_keeps (freshUid_keeps (at_both hI hI))
  have h3 : I.At s3 := foldl_keeps (fun _ _ ht => sendMsg_keeps ht) h2
  have h5 : I.At s5 := takeReport_keeps (at_when h3 fun h => foldl_keeps (fun _ _ ht => sendMsg_keeps ht) h)
  clear_value s5
  split
  · exact h5
  · exact at_both (takeBegin_keeps h5) (at_both (finish_keeps h5) h5)

theorem withContext_keeps {t} {f : State → State} (hI : I.At s) (hf : I.At (f s)) : I.At (withContext s t f) := by
  unfold withContext
  split
  · exact sendSnoops_keeps hI
  · exact hf

theorem timedEvent_keeps {act m i} (hI : I.At s) : I.At (timedEvent act m i s) := by
  unfold timedEvent
  split
  · split
    · exact withContext_keeps hI (actionRun_keeps (beginAction_keeps hI))
    · exact hI
  · split
    · exact at_both (withContext_keeps hI (actionRun_keeps hI)) hI
    · exact hI

/-! Migration. -/

theorem dropShip_keeps {i} (hI : I.At s) : I.At (dropShip s i) := hI
theorem shipSend_keeps {x h hs} (hI : I.At s) : I.At (shipSend s x h hs) :=
  dropHart_keeps (keepResidue_keeps (withdraw_keeps hI))

/-- The access of the next instruction, as `autoWalk` looks it up. -/
theorem nextAccess_keeps {h hs} (hI : I.At s) : OnOption I.AtSought (nextAccess s h hs) := by
  unfold nextAccess
  split
  · cases accessBase hs _ with
    | none => trivial
    | some x =>
      dsimp only [Option.bind]
      split
      · cases peekSrc h hs x.1 with
        | none => trivial
        | some v => exact seek_keeps hI
      · trivial
  · trivial

theorem autoWalk_keeps {h hs} (hI : I.At s) : OnOption I.At (autoWalk s h hs) := by
  unfold autoWalk
  split
  · trivial
  · split
    · next t e => exact (nextAccess_keeps hI).some e
    · trivial

/-! Power. -/

theorem disable_keeps {c n} (hI : I.At s) : I.At (disable s c n) := hI

theorem hotStep_keeps {c} (hI : I.At s) : I.At (hotStep s c) := by
  unfold hotStep
  split
  · exact disable_keeps hI
  · split
    · exact setCore_keeps hI
    · split
      · exact setCore_keeps hI
      · exact disable_keeps (orderShip_keeps hI)

theorem mapCores_keeps {m f} (hI : I.At s) : I.At (mapCores s m f) :=
  foldl_keeps (fun _ _ ht => at_both ht (setCore_keeps ht)) hI
theorem setUnit_keeps {m u} (hI : I.At s) : I.At (setUnit s m u) := hI

/-! Combined atomics. -/

theorem dropCombined_keeps {n} (hI : I.At s) : I.At (dropCombined s n) := hI

theorem contribute_keeps {x} (hI : I.At s) : I.At (contribute s x) := by
  unfold contribute
  split
  · exact doAtomic_keeps hI
  · exact hI

theorem discardCombined_keeps {c} (hI : I.At s) : I.At (discardCombined s c) :=
  foldl_keeps (fun t x ht => by
    split
    · exact failOp_keeps ht
    · exact ht) (dropCombined_keeps hI)

/-! Descriptors, errors and resets. -/

theorem complete_keeps {m d bad} (hI : I.At s) : I.At (complete s m d bad) :=
  at_when (at_when (setHost_keeps (at_when hI writeMem_keeps)) raiseMsix_keeps) raiseMsix_keeps
theorem dmaAccess_keeps {m d ok} (hI : I.At s) : I.AtCoh (dmaAccess s m d ok) :=
  CohResult.bind_keeps (cohAsk_keeps hI) fun _ ht => cohAsk_keeps ht
theorem correctedError_keeps {m ch} (hI : I.At s) : I.At (correctedError s m ch) := hI

theorem spareChannel_keeps {m ch} (hI : I.At s) : I.At (spareChannel s m ch) := by
  unfold spareChannel
  dsimp only
  split
  · exact setModule_keeps hI
  · exact at_both hI (setModule_keeps hI)

theorem machineCheck_keeps {m cause} (hI : I.At s) : I.At (machineCheck s m cause) := by
  unfold machineCheck
  dsimp only
  split
  · exact hI
  · split
    · exact setModule_keeps (raiseMsix_keeps hI)
    · exact writeMem_keeps (foldl_keeps (fun _ _ ht => writeMem_keeps ht) (at_others (setModule_keeps (raiseMsix_keeps hI))))

theorem dieOut_keeps {gdie} (hI : I.At s) : I.At (dieOut s gdie) := hI
theorem useCores_keeps {gdie g n} (hI : I.At s) : I.At (useCores s gdie g n) :=
  foldl_keeps (fun _ _ ht => at_both ht (setCore_keeps ht)) hI
theorem selfTest_keeps {gdie} (hI : I.At s) : I.At (selfTest s gdie) :=
  foldl_keeps (fun _ _ ht => useCores_keeps ht) (setDie_keeps hI)

theorem postTake_keeps {m gang} (hI : I.At s) : I.At (postTake m s gang) := by
  unfold postTake
  exact at_others (setModule_keeps (at_withMem (memSetBytes_keeps hI)))

theorem discardHart_keeps {m x} (hI : I.At s) : I.At (discardHart m s x) :=
  groupTaken_keeps (dropHart_keeps (leaveLong_keeps (withdraw_keeps (setModule_keeps hI))))
theorem warmTake_keeps {m gdie} (hI : I.At s) : I.At (warmTake s m gdie) :=
  foldl_keeps (fun _ _ ht => postTake_keeps ht) (raiseMsix_keeps (setDie_keeps hI))

theorem warmDrain_keeps {m gdie} (hI : I.At s) : I.At (warmDrain s m gdie) :=
  setDie_keeps (foldl_keeps (fun _ _ ht => discardCombined_keeps ht)
    (foldl_keeps (fun _ _ ht => discardHart_keeps ht) (setModule_keeps hI)))

theorem writeBack_keeps {here} {f : State → State} (hI : I.At s) (hf : ∀ t, I.At t → I.At (f t)) : I.At (writeBack s here f) := by
  unfold writeBack
  dsimp only
  split
  · exact sendSnoops_keeps hI
  · exact hf _ hI

theorem warmWriteBack_keeps {gdie} (hI : I.At s) : I.At (warmWriteBack s gdie) :=
  writeBack_keeps hI fun _ ht => setDie_keeps ht
theorem dieAnswers_keeps {gdie} (hI : I.At s) : I.At (dieAnswers s gdie) :=
  foldl_keeps (fun _ _ ht => foldl_keeps (fun _ _ hu => failOp_keeps hu) ht) hI

theorem resetDie_keeps {gdie} (hI : I.At s) : I.At (resetDie s gdie) := by
  unfold resetDie
  exact selfTest_keeps (at_mk (memFilter_keeps (storesFilter_keeps hI)))

theorem warmAdmit_keeps {m gdie} (hI : I.At s) : I.At (warmAdmit s m gdie) :=
  writeBack_keeps hI fun _ ht => raiseMsix_keeps (setDie_keeps ht)

theorem warmStep_keeps {m gdie} (hI : I.At s) : I.At (warmStep s m gdie) := by
  unfold warmStep
  dsimp only
  split
  · exact at_both (at_others (machineCheck_keeps hI)) (warmTake_keeps hI)
  · exact at_both hI (warmDrain_keeps hI)
  · exact at_both hI (warmWriteBack_keeps hI)
  · exact setDie_keeps hI
  · exact dieAnswers_keeps (setDie_keeps hI)
  · exact resetDie_keeps (setDie_keeps hI)
  · exact warmAdmit_keeps hI

theorem failCore_keeps {c} (hI : I.At s) : I.At (failCore s c) := hI
theorem respond_keeps {m n} (hI : I.At s) : I.At (respond s m n) :=
  at_both (setHost_keeps hI) (raiseMsix_keeps (setHost_keeps hI))
theorem mailWord_keeps {m off v} (hI : I.At s) : I.At (mailWord s m off v) := at_both (setHost_keeps hI) hI
theorem coldReset_keeps {m} (hI : I.At s) : I.At (coldReset s m) :=
  memFilter_keeps (hartsFilter_keeps (storesFilter_keeps hI))
theorem testDies_keeps {m} (hI : I.At s) : I.At (testDies s m) :=
  foldl_keeps (fun _ _ ht => at_both (setDie_keeps (at_others (selfTest_keeps ht))) (at_others (selfTest_keeps ht))) hI
theorem testChannels_keeps {m} (hI : I.At s) : I.At (testChannels s m) :=
  foldl_keeps (fun _ _ ht => spareChannel_keeps ht) hI
theorem trainPorts_keeps {m} (hI : I.At s) : I.At (trainPorts s m) :=
  foldl_keeps (fun _ _ ht => at_both (trainPort_keeps ht) ht) hI

theorem loadImage_keeps {xs} (hI : I.At s) : I.At (loadImage s xs) := by
  unfold loadImage
  split
  · exact writeMem_keeps hI
  · exact hI

theorem inRecovery_keeps {m} (hI : I.At s) : I.At (inRecovery s m) := hI

theorem applySetting_keeps {m x} (hI : I.At s) : I.At (applySetting s m x) := by
  unfold applySetting
  split
  · exact setModule_keeps hI
  · exact setModule_keeps hI
  · exact setModule_keeps hI
  · exact setModule_keeps hI
  · exact setModule_keeps hI
  · exact setModule_keeps hI
  · exact setModule_keeps hI
  · exact at_both hI hI
  · exact at_both (setModule_keeps hI) hI
  · exact setModule_keeps hI
  · exact setModule_keeps hI
  · exact mailWord_keeps hI
  · exact at_both (respond_keeps hI) hI
  · exact setModule_keeps hI

theorem tick_keeps {s0 : State} {dt} (hI : I.At s0) : I.At (tick s0 dt) := hartsMap_keeps (settleAll_keeps hI) fun _ => rfl

end Sys2Proof.Machine

end

section
/-!
The shared meanings of instructions keep an invariant.
-/

namespace Sys2Proof.Machine

variable {I : StepInvariant} {s t : State}

/-- An instruction keeps an invariant if its body does: a trap or a park at issue does. -/
theorem issue_keeps {size n} {body : Hart → State → HartState → List Word → Issued} (hI : I.At s)
    (hb : ∀ hs vals, I.Issues (body s.cur s hs vals)) : I.Answers (issue s size n body) := by
  unfold issue
  dsimp only
  split
  · trivial
  · next hs _ =>
    split
    · exact raiseIssue_keeps hI
    · exact parked_keeps hI
    · have h := hb (readSrcs s.cur n.srcs hs).2 (readSrcs s.cur n.srcs hs).1
      split
      · next e => exact noteIssue_keeps (setHart_keeps (h.done e))
      · next e => exact noteIssue_keeps (setHart_keeps (h.jump e))
      · next e => exact h.final e
      · exact raiseIssue_keeps hI
      · exact raiseIssue_keeps hI
      · exact parked_keeps hI

theorem transfer_keeps {size srcs link taken target} (hI : I.At s) : I.Answers (transfer size srcs link taken target s) := by
  refine issue_keeps hI fun hs vals => ?_
  dsimp only
  split
  · split
    · trivial
    · split
      · trivial
      · cases link <;> exact hI
  · exact hI

theorem hostWrite_keeps {m} {f : HostState → HostState} (hI : I.At s) : I.Answers (hostWrite s m f) := by
  unfold hostWrite
  dsimp only
  split
  · exact setHost_keeps hI
  · exact hI

theorem loadInstr_keeps {n signed d base disp m} (hI : I.At s) : I.Answers (loadInstr n signed d base disp m s) :=
  issue_keeps hI fun _ _ => issueMem_keeps hI
theorem windowLoad_keeps {n signed kind d off disp c m} (hI : I.At s) : I.Answers (windowLoad n signed kind d off disp c m s) :=
  issue_keeps hI fun _ _ => issueMem_keeps hI
theorem storeInstr_keeps {n base data disp m} (hI : I.At s) : I.Answers (storeInstr n base data disp m s) :=
  issue_keeps hI fun _ _ => issueMem_keeps hI
theorem windowStore_keeps {n kind off data disp c m} (hI : I.At s) : I.Answers (windowStore n kind off data disp c m s) :=
  issue_keeps hI fun _ _ => issueMem_keeps hI

theorem prefetch_keeps {own base disp} (hI : I.At s) : I.Answers (prefetch own base disp s) :=
  issue_keeps hI fun _ _ => placed_keeps hI fun q => by
    split
    · split <;> exact hI
    · exact hI

theorem cacheOp_keeps {op base disp sc} (hI : I.At s) : I.Answers (cacheOp op base disp sc s) :=
  issue_keeps hI fun _ _ => issueMem_keeps hI
theorem atomicInstr_keeps {fn d base b c disp w32 m} (hI : I.At s) : I.Answers (atomicInstr fn d base b c disp w32 m s) :=
  issue_keeps hI fun _ _ => issueMem_keeps hI
theorem scalarOp_keeps {size d srcs f} (hI : I.At s) : I.Answers (scalarOp size d srcs f s) :=
  issue_keeps hI fun _ _ => issues_done (writeDst_keeps hI)
theorem aluRR_keeps {d a b f} (hI : I.At s) : I.Answers (aluRR d a b f s) := scalarOp_keeps hI
theorem aluRI_keeps {d a i f} (hI : I.At s) : I.Answers (aluRI d a i f s) := scalarOp_keeps hI
theorem aluR_keeps {d a f} (hI : I.At s) : I.Answers (aluR d a f s) := scalarOp_keeps hI
theorem laterOp_keeps {d srcs f} (hI : I.At s) : I.Answers (laterOp d srcs f s) :=
  issue_keeps hI fun _ _ => hI
theorem condBranch_keeps {a o c} (hI : I.At s) : I.Answers (condBranch a o c s) := transfer_keeps hI
theorem floatInstr_keeps {d vs f rnd special g rounded} (hI : I.At s) : I.Answers (floatInstr d vs f rnd special g rounded s) :=
  issue_keeps hI fun _ _ => giveVec_keeps hI
theorem specialInstr_keeps {d a f g} (hI : I.At s) : I.Answers (specialInstr d a f g s) := floatInstr_keeps hI
theorem bitsInstr_keeps {d a b f g} (hI : I.At s) : I.Answers (bitsInstr d a b f g s) :=
  issue_keeps hI fun _ _ => giveVec_keeps hI
theorem compareInstr_keeps {d a b f fg ig} (hI : I.At s) : I.Answers (compareInstr d a b f fg ig s) :=
  issue_keeps hI fun _ _ => giveVec_keeps hI

theorem extremeInstr_keeps {d a f fg ig} (hI : I.At s) : I.Answers (extremeInstr d a f fg ig s) :=
  issue_keeps hI fun _ _ => by
    dsimp only
    split <;> exact giveScalar_keeps hI

theorem rngInstr_keeps {d key ctr f g} (hI : I.At s) : I.Answers (rngInstr d key ctr f g s) :=
  issue_keeps hI fun _ _ => giveVec_keeps hI
theorem mtsStrand_keeps {a supervisor f} (hI : I.At s) : I.Answers (mtsStrand a supervisor f s) :=
  issue_keeps hI fun _ _ => hI
theorem mtsCore_keeps {a supervisor ws f} (hI : I.At s) : I.Answers (mtsCore a supervisor ws f s) :=
  issue_keeps hI fun _ _ => holdUp_keeps (setCore_keeps hI)

theorem mtsModule_keeps {a} {f : State → Hart → Word → State} (hI : I.At s) (hf : ∀ h x, I.At (f s h x)) :
    I.Answers (mtsModule a f s) :=
  issue_keeps hI fun _ _ => hf _ _

theorem invalidate_keeps {srcs f} (hI : I.At s) : I.Answers (invalidate srcs f s) :=
  issue_keeps hI fun _ _ => holdUp_keeps (dropTranslations_keeps hI)
theorem sliceRead_keeps {col d t idx start f} (hI : I.At s) : I.Answers (sliceRead col d t idx start f s) :=
  issue_keeps hI fun _ _ => mxBody_keeps fun _ _ => enqueue_keeps hI
theorem sliceWrite_keeps {col t a idx start f} (hI : I.At s) : I.Answers (sliceWrite col t a idx start f s) :=
  issue_keeps hI fun _ _ => mxPlain_keeps hI

theorem spawnInstr_keeps {size d entry arg target} (hI : I.At s) : I.Answers (spawnInstr size d entry arg target s) :=
  issue_keeps hI fun hs _ => by
    dsimp only
    split
    · exact hI
    · split
      · trivial
      · exact setJoin_keeps hI

theorem kindStore_keeps {k i} {f : State → Nat → Nat → Word → State} {ok} (hI : I.At s)
    (hf : ∀ t c off v, I.At t → I.At (f t c off v)) :
    I.Answers (kindStore k i s f ok) := by
  unfold kindStore
  split
  · dsimp only
    split
    · exact arrive_keeps hI fun t _ ht => hf t _ _ _ ht
    · exact hI
  · exact hI

end Sys2Proof.Machine

end

section
/-!
Instructions with a meaning of their own keep an invariant.
-/

namespace Sys2Proof.Machine

variable {I : StepInvariant} {s t : State}

theorem execEmpty_keeps {r} (hI : I.At s) : I.Answers (execEmpty r s) :=
  issue_keeps hI fun _ _ => by cases r <;> exact hI
theorem execFill_keeps {r} (hI : I.At s) : I.Answers (execFill r s) :=
  issue_keeps hI fun _ _ => by cases r <;> exact hI
theorem execIsync_keeps {sc} (hI : I.At s) : I.Answers (execIsync sc s) :=
  issue_keeps hI fun _ _ => holdUp_keeps (by split <;> exact hI)

theorem execTfwd_keeps {d base t disp m} (hI : I.At s) : I.Answers (execTfwd d base t disp m s) := by
  unfold execTfwd
  split <;> exact issue_keeps hI fun _ _ => issueMem_keeps hI

theorem execVext_keeps {d a lane f} (hI : I.At s) : I.Answers (execVext d a lane f s) := by
  unfold execVext
  extract_lets n
  exact issue_keeps hI fun _ _ => giveScalar_keeps hI

theorem execVins_keeps {d a b lane f} (hI : I.At s) : I.Answers (execVins d a b lane f s) := by
  unfold execVins
  extract_lets n
  exact issue_keeps hI fun _ _ => giveVec_keeps hI

theorem execVrsum_keeps {d a f} (hI : I.At s) : I.Answers (execVrsum d a f s) :=
  issue_keeps hI fun _ _ => issues_both (giveScalar_keeps hI) (giveScalar_keeps hI)
theorem execVbenc_keeps {base desc c disp r} (hI : I.At s) : I.Answers (execVbenc base desc c disp r s) :=
  issue_keeps hI fun _ _ => issues_both trivial (issues_both (issueMem_keeps hI) (issueMem_keeps hI))

theorem execTshape_keeps {t w} (hI : I.At s) : I.Answers (execTshape t w s) := by
  unfold execTshape
  split <;> exact issue_keeps hI fun _ _ => tshapeBody_keeps hI

theorem execMmau_keeps {d a b scsel scen} (hI : I.At s) : I.Answers (execMmau d a b scsel scen s) :=
  issue_keeps hI fun _ _ => by
    dsimp only
    split
    · next e => exact holdUp_keeps (e ▸ mxPlain_keeps hI)
    · exact mxPlain_keeps hI

theorem execMucode_keeps {a} (hI : I.At s) : I.Answers (execMucode a s) :=
  issue_keeps hI fun _ _ => issues_both (holdUp_keeps hI) trivial

theorem execSpawn_keeps {d entry arg c} (hI : I.At s) : I.Answers (execSpawn d entry arg c s) := by
  unfold execSpawn
  split <;> exact spawnInstr_keeps hI

theorem execQbind_keeps {port a} (hI : I.At s) : I.Answers (execQbind port a s) :=
  issue_keeps hI fun _ _ => issues_both (issues_done hI) trivial

theorem execQsndNb_keeps {d port b m} (hI : I.At s) : I.Answers (execQsndNb d port b m s) :=
  issue_keeps hI fun _ _ => issues_both trivial
    (issues_both (issues_done (writeDst_keeps (push_keeps hI))) (issues_done (writeDst_keeps hI)))

theorem execNbinit_keeps {a b n} (hI : I.At s) : I.Answers (execNbinit a b n s) :=
  issue_keeps hI fun _ _ => by
    dsimp only
    split
    · trivial
    · exact issues_both trivial (setCore_keeps hI)

theorem execNbarr_keeps {d a n} (hI : I.At s) : I.Answers (execNbarr d a n s) :=
  issue_keeps hI fun _ _ => by
    dsimp only
    split
    · trivial
    · exact issues_both trivial hI

theorem execNbwait_keeps {d a b n} (hI : I.At s) : I.Answers (execNbwait d a b n s) :=
  issue_keeps hI fun _ _ => by
    split
    · trivial
    · exact hI

theorem execBcopy_keeps {a b c bar m} (hI : I.At s) : I.Answers (execBcopy a b c bar m s) :=
  issue_keeps hI fun _ _ => issues_both (issueMem_keeps hI) hI
theorem execBcast_keeps {a b c mask quad die} (hI : I.At s) : I.Answers (execBcast a b c mask quad die s) :=
  issue_keeps hI fun _ _ => issues_both hI hI
theorem execMfs_keeps {d r} (hI : I.At s) : I.Answers (execMfs d r s) :=
  issue_keeps hI fun _ _ => issues_both hI (issues_done (writeDst_keeps (at_both (sawTime_keeps hI) hI)))

theorem execMts_keeps {r a} (hI : I.At s) : I.Answers (execMts r a s) := by
  unfold execMts
  split
  · exact issue_keeps hI fun _ _ => hI
  · exact mtsStrand_keeps hI

theorem execWdogWrite_keeps {a} (hI : I.At s) : I.Answers (execWdogWrite a s) :=
  issue_keeps hI fun _ _ => issues_done (foldl_keeps (fun t n ht => by
    split
    · exact setHart_keeps ht
    · exact ht) (setCore_keeps hI))

theorem execMevtWrite_keeps {a} (hI : I.At s) : I.Answers (execMevtWrite a s) :=
  issue_keeps hI fun _ _ => issues_done (deliverEvents_keeps (setHart_keeps (setModule_keeps hI)))
theorem execYield_keeps (hI : I.At s) : I.Answers (execYield s) :=
  issue_keeps hI fun _ _ => by cases s.cur <;> exact hI
theorem execRetire_keeps (hI : I.At s) : I.Answers (execRetire s) :=
  issue_keeps hI fun _ _ => issues_both (parked_keeps hI) (issues_both (parked_keeps hI) (endHart_keeps (noteIssue_keeps hI)))
theorem execEret_keeps (hI : I.At s) : I.Answers (execEret s) :=
  issue_keeps hI fun _ _ => issues_final (noteIssue_keeps (setHart_keeps hI))
theorem execVmodeL_keeps (hI : I.At s) : I.Answers (execVmodeL s) :=
  issue_keeps hI fun _ _ => issues_both trivial (issues_both hI (issues_both (leaveLong_keeps hI) (issues_final (parked_keeps hI))))

end Sys2Proof.Machine

end

section
/-!
Requests, stores and window accesses that arrive keep an invariant.
-/

namespace Sys2Proof.Machine

variable {I : StepInvariant} {s t : State}

theorem execLongContextGrant_keeps {gcluster} (hI : I.At s) : I.Answers (execLongContextGrant gcluster s) := by
  unfold execLongContextGrant
  split
  · exact hI
  · split
    · exact answers_both hI (answers_both (leaveLong_keeps hI) (parked_keeps hI))
    · exact hI

theorem execStoreAccept_keeps {h n} (hI : I.At s) : I.Answers (execStoreAccept h n s) := by
  unfold execStoreAccept
  split
  · exact hI
  · refine answers_both hI (answers_both ?_ ?_)
    · split
      · exact failOp_keeps hI
      · exact setHart_keeps hI
    · split
      · exact failOp_keeps hI
      · split
        · split
          · next t e => exact (cacheEffect_keeps hI).wait e
          · next t e => exact endStore_keeps ((cacheEffect_keeps hI).ok e)
        · split
          · next t e => exact (cacheEffect_keeps hI).wait e
          · next t e => exact endStore_keeps ((cacheEffect_keeps hI).ok e)
        · exact at_both (send_keeps hI) (endStore_keeps hI)
        · exact at_both (send_keeps hI) (accept_keeps hI)

theorem execReadRequest_keeps {r} (hI : I.At s) : I.Answers (execReadRequest r s) := by
  unfold execReadRequest
  split
  · split
    · split
      · next t e => exact (cohRequest_keeps hI).wait e
      · next t e => exact at_others ((cohRequest_keeps hI).ok e)
    · exact hI
  · split
    · refine answers_both hI ?_
      split
      · next t e => exact (cohAll_keeps hI).wait e
      · next t e => exact updateOp_keeps ((cohAll_keeps hI).ok e)
    · exact hI
  · exact hI

theorem execOwnershipRequest_keeps {r} (hI : I.At s) : I.Answers (execOwnershipRequest r s) := by
  unfold execOwnershipRequest
  split
  · split
    · split
      · next t e => exact (cohRequest_keeps hI).wait e
      · next t e => exact at_others ((cohRequest_keeps hI).ok e)
    · exact hI
  · split
    · split
      · exact answers_both hI (showCached_keeps hI)
      · exact hI
    · split
      · exact answers_both hI (ownAtomic_keeps hI)
      · exact hI
    · exact hI

theorem execEviction_keeps {c pa} (hI : I.At s) : I.Answers (execEviction c pa s) := by
  unfold execEviction
  split
  · exact tileEvict_keeps hI
  · split
    · exact lineEvict_keeps hI
    · exact hI

/-- What a load answers with keeps an invariant, whether it ends or fails. -/
theorem loadAnswer_keeps {h n p} {r : Except (Cause × Word) (List Word × FpFlags)} (hI : I.At s) :
    I.Answers (match r with
      | .error (c, v) => .next (failOp s h n c v)
      | .ok (ws, f) => match hartOf s h with
        | some hs => .next (giveResult s h hs p ws f)
        | none => .next s) := by
  split
  · exact failOp_keeps hI
  · split
    · exact giveResult_keeps hI
    · exact hI

theorem execUcLoad_keeps {h n} (hI : I.At s) : I.Answers (execUcLoad h n s) := by
  unfold execUcLoad
  split
  · exact hI
  · refine answers_both hI ?_
    split
    · exact failOp_keeps hI
    · split
      · next t e => exact (cohAll_keeps hI).wait e
      · next t e => exact loadAnswer_keeps ((cohAll_keeps hI).ok e)

theorem execUcStore_keeps {r} (hI : I.At s) : I.Answers (execUcStore r s) := by
  unfold execUcStore
  split
  · exact answers_both hI (showHome_keeps hI)
  · exact answers_both hI (homeAtomic_keeps hI)
  · exact hI

theorem execWindowAccessArrival_keeps {r} (hI : I.At s) : I.Answers (execWindowAccessArrival r s) := by
  unfold execWindowAccessArrival
  split
  · exact hI
  · split
    · exact arrive_keeps hI fun _ _ ht => ht
    · exact answers_both (arrive_keeps hI fun _ _ ht => storeEffect_keeps ht) hI
  · refine answers_both hI ?_
    split
    · exact failOp_keeps hI
    · refine answers_both (doAtomic_keeps hI) (answers_both (tileLoad_keeps hI) ?_)
      split
      · next t e => exact (cohAll_keeps hI).wait e
      · next t e => exact loadAnswer_keeps ((cohAll_keeps hI).ok e)

theorem execPutrArrival_keeps {i} (hI : I.At s) : I.Answers (execPutrArrival i s) := by
  unfold execPutrArrival
  split
  · exact answers_both (arrive_keeps hI fun _ _ ht => windowStoreEffect_keeps ht) hI
  · exact hI

theorem execSctlRun_keeps {i} (hI : I.At s) : I.Answers (execSctlRun i s) :=
  kindStore_keeps hI fun _ _ _ _ ht => sctlRun_keeps (at_both (sctlDblClear_keeps ht) ht)
theorem execSctlDblClear_keeps {i} (hI : I.At s) : I.Answers (execSctlDblClear i s) :=
  kindStore_keeps hI fun _ _ _ _ ht => at_both (sctlDblClear_keeps ht) ht

theorem execQportDataStore_keeps {i} (hI : I.At s) : I.Answers (execQportDataStore i s) := by
  unfold execQportDataStore
  split
  · exact hI
  · exact answers_both hI (answers_both (entryWaits_keeps hI)
      (answers_both (dropStore_keeps hI) (arrive_keeps hI fun _ _ ht => windowPush_keeps ht)))

theorem execQportBindingStore_keeps {i} (hI : I.At s) : I.Answers (execQportBindingStore i s) :=
  kindStore_keeps hI fun _ _ _ _ ht => by
    split
    · exact setHart_keeps ht
    · exact ht

theorem execNbarWindowStore_keeps {i} (hI : I.At s) : I.Answers (execNbarWindowStore i s) :=
  kindStore_keeps hI fun _ _ _ _ ht => setCore_keeps ht

theorem execTileWindowStore_keeps {i} (hI : I.At s) : I.Answers (execTileWindowStore i s) := by
  unfold execTileWindowStore
  split
  · dsimp only
    split
    · exact answers_both hI (arrive_keeps hI fun _ _ ht => joinQueue_keeps ht)
    · exact hI
  · exact hI

theorem execRemoteStoreAcknowledgement_keeps {i ok} (hI : I.At s) : I.Answers (execRemoteStoreAcknowledgement i ok s) := by
  unfold execRemoteStoreAcknowledgement
  split
  · exact answers_both hI (answers_both (storeAnswered_keeps hI) (storeFails_keeps hI))
  · exact hI

theorem execRemoteTimeout_keeps {h n} (hI : I.At s) : I.Answers (execRemoteTimeout h n s) := by
  unfold execRemoteTimeout
  split
  · exact hI
  · refine answers_both hI ?_
    extract_lets s1 s2 va
    have h2 : I.At s2 := by
      refine at_others ?_
      unfold s1
      split
      · exact at_both (atomicAt_keeps hI) hI
      · exact storesFilter_keeps hI
    clear_value s2
    exact at_both (heldFails_keeps h2) (failOp_keeps h2)

theorem execFewordRequestArrival_keeps {h n} (hI : I.At s) : I.Answers (execFewordRequestArrival h n s) := by
  unfold execFewordRequestArrival
  split
  · exact hI
  · refine answers_both hI (answers_both (opFails_keeps hI) ?_)
    split
    · exact opFails_keeps hI
    · split
      · exact opFails_keeps hI
      · exact answers_both (failOp_keeps hI) (feRequest_keeps hI)

theorem execBarrierOpAtHome_keeps {h n} (hI : I.At s) : I.Answers (execBarrierOpAtHome h n s) := by
  unfold execBarrierOpAtHome
  split
  · exact hI
  · refine answers_both hI (answers_both (failOp_keeps hI) ?_)
    split
    · exact failOp_keeps hI
    · refine answers_both (barRequest_keeps hI) ?_
      split
      · next t e => exact (cohAll_keeps hI).wait e
      · next t e => exact barRequest_keeps ((cohAll_keeps hI).ok e)

theorem execRedAddAtHome_keeps {h n} (hI : I.At s) : I.Answers (execRedAddAtHome h n s) := by
  unfold execRedAddAtHome
  split
  · exact hI
  · split
    · split
      · next t e => exact (cellReady_keeps hI).error e
      · split
        · next t e => exact (cellRead_keeps hI).wait e
        · next s1 e =>
          have h1 := (cellRead_keeps hI).ok e
          split
          · exact heldFails_keeps h1
          · refine answers_both (heldFails_keeps h1) (answers_both (heldFails_keeps h1) ?_)
            split
            · next t e => exact (cellAsk_keeps h1).wait e
            · next t e => exact addSlot_keeps ((cellAsk_keeps h1).ok e)
    · exact hI

theorem execDecideOnceAtHome_keeps {h n fromCopy} (hI : I.At s) : I.Answers (execDecideOnceAtHome h n fromCopy s) := by
  unfold execDecideOnceAtHome
  split
  · exact hI
  · refine answers_both hI (answers_both ?_ ?_)
    · split
      · split
        · exact answers_both (answerCell_keeps hI) hI
        · exact hI
      · exact hI
    · split
      · next t e => exact (cellReady_keeps hI).error e
      · split
        · next t e => exact (cohAll_keeps hI).wait e
        · next t e => exact decideRequest_keeps (useCell_keeps ((cohAll_keeps hI).ok e))

theorem execDrainRequest_keeps {h a} (hI : I.At s) : I.Answers (execDrainRequest h a s) := by
  unfold execDrainRequest
  split
  · exact hI
  · split
    · exact hI
    · exact answers_both hI (setHart_keeps hI)

theorem execTileRequest_keeps {e r} (hI : I.At s) : I.Answers (execTileRequest e r s) := by
  unfold execTileRequest
  split
  · exact hI
  · refine answers_both hI ?_
    cases e with
    | read => exact hI
    | write =>
      dsimp only
      split
      · exact showCached_keeps hI
      · exact hI
    | home => exact answers_both (showHome_keeps hI) hI
  · cases e with
    | read =>
      dsimp only
      split
      · refine answers_both hI ?_
        split
        · next t e => exact (cohAll_keeps hI).wait e
        · next t e => exact updateOp_keeps ((cohAll_keeps hI).ok e)
      · exact hI
    | write =>
      dsimp only
      split
      · exact answers_both (ownAtomic_keeps hI) hI
      · exact hI
    | home =>
      refine answers_both ?_ (answers_both (homeAtomic_keeps hI) hI)
      split
      · refine answers_both hI ?_
        split
        · exact failOp_keeps hI
        · exact tileInstr_keeps hI
      · exact hI

theorem execTranslationWalk_keeps {gdie i} (hI : I.At s) : I.Answers (execTranslationWalk gdie i s) := by
  unfold execTranslationWalk
  refine answers_both hI ?_
  split
  · exact hI
  · split
    · next t e => exact (walkAsk_keeps hI).wait e
    · next t e => exact endWalk_keeps (at_others ((walkAsk_keeps hI).ok e))

theorem execHostRead_keeps {m pa} (hI : I.At s) : I.Answers (execHostRead m pa s) :=
  answers_both (hostRequest_keeps hI) hI
theorem execHostOwnershipRequest_keeps {m pa} (hI : I.At s) : I.Answers (execHostOwnershipRequest m pa s) :=
  answers_both (hostRequest_keeps hI) hI

theorem execBackInvalidationResponse_keeps {m pa data} (hI : I.At s) : I.Answers (execBackInvalidationResponse m pa data s) := by
  refine answers_both hI (answerSnoop_keeps ?_)
  cases data with
  | none => exact hI
  | some d => exact hostWrites_keeps hI

theorem execBackInvalidationTimeout_keeps {m pa} (hI : I.At s) : I.Answers (execBackInvalidationTimeout m pa s) := by
  unfold execBackInvalidationTimeout
  dsimp only
  split
  · exact hI
  · refine answers_both hI (linkDown_keeps (failReq_keeps ?_))
    exact foldl_keeps (fun _ _ ht => releaseHost_keeps ht) hI

end Sys2Proof.Machine

end

section
/-!
Links, timers, launches, gangs, power, resets and errors keep an invariant.
-/

namespace Sys2Proof.Machine

variable {I : StepInvariant} {s t : State}

theorem execFlitReceive_keeps {m port x crc} (hI : I.At s) : I.Answers (execFlitReceive m port x crc s) := by
  unfold execFlitReceive
  split
  · exact hI
  · refine answers_both hI ?_
    split
    · exact hI
    · refine answers_both ?_ (setPortState_keeps (setPortState_keeps hI))
      generalize assemble (portState s m port).parts x = a
      obtain ⟨parts, whole⟩ := a
      cases whole with
      | none => exact setPortState_keeps (setPortState_keeps hI)
      | some h => exact at_when (setPortState_keeps (setPortState_keeps hI)) recordInput_keeps

theorem execLinkTraining_keeps {m port mine peer} (hI : I.At s) : I.Answers (execLinkTraining m port mine peer s) :=
  answers_both hI (trainPort_keeps hI)

theorem execTimer_keeps {h} (hI : I.At s) : I.Answers (execTimer h s) := by
  unfold execTimer
  split
  · exact hI
  · exact answers_both (setHart_keeps hI) hI

theorem execWatchdogExpiry_keeps {h} (hI : I.At s) : I.Answers (execWatchdogExpiry h s) := by
  unfold execWatchdogExpiry
  split
  · refine answers_both hI ?_
    split <;> exact setHart_keeps hI
  · exact hI

theorem execTwaitDeadline_keeps {h n} (hI : I.At s) : I.Answers (execTwaitDeadline h n s) := by
  unfold execTwaitDeadline
  split
  · split
    · exact answers_both (finishOp_keeps (sawTime_keeps hI)) hI
    · exact hI
  · exact hI

theorem execQueuePush_keeps {i} (hI : I.At s) : I.Answers (execQueuePush i s) := by
  unfold execQueuePush
  split
  · exact hI
  · dsimp only
    split
    · refine answers_both hI (setHart_keeps ?_)
      split
      · exact at_both hI (recordInput_keeps hI)
      · exact hI
    · exact at_both hI hI

theorem execQueueGoSignal_keeps {h port} (hI : I.At s) : I.Answers (execQueueGoSignal h port s) := by
  unfold execQueueGoSignal
  split
  · exact hI
  · exact answers_both (setHart_keeps hI) hI

theorem execMatrixInstructionCompletion_keeps {c} (hI : I.At s) : I.Answers (execMatrixInstructionCompletion c s) :=
  (mxFirst_keeps hI).getD hI

theorem execMcmdCommandArrival_keeps {h n} (hI : I.At s) : I.Answers (execMcmdCommandArrival h n s) := by
  unfold execMcmdCommandArrival
  split
  · exact hI
  · split
    · exact answers_both hI (commandArrives_keeps hI)
    · split
      · exact answers_both hI (commandTurn_keeps hI)
      · exact hI
    · exact hI

theorem execThawCheck_keeps {h} (hI : I.At s) : I.Answers (execThawCheck h s) := by
  unfold execThawCheck
  split
  · dsimp only
    split
    · exact hI
    · refine answers_both hI ?_
      split
      · exact raiseIssue_keeps (at_both hI (setCore_keeps hI))
      · exact hI
  · exact hI

theorem execPlacement_keeps {m} (hI : I.At s) : I.Answers (execPlacement m s) := by
  have h1 : I.At (if (moduleOf s m).succs.isEmpty then s else walkPaused s m) := at_both hI (walkPaused_keeps hI)
  unfold execPlacement
  extract_lets s1
  change I.At s1 at h1
  clear_value s1
  split
  · exact sendSnoops_keeps h1
  · split
    · exact h1
    · next e => exact poolAfter_keeps ((scanPool_keeps h1).some e)

theorem execLaunchMessage_keeps {i} (hI : I.At s) : I.Answers (execLaunchMessage i s) := by
  unfold execLaunchMessage
  split
  · dsimp only
    split
    · exact dropMsg_keeps hI
    · refine finishOp_keeps ?_
      split
      · exact startChild_keeps (countChild_keeps (dropMsg_keeps hI))
      · exact parkPacket_keeps (countChild_keeps (dropMsg_keeps hI))
      · exact dropMsg_keeps hI
  · exact hI

theorem execJoinDecrement_keeps {i} (hI : I.At s) : I.Answers (execJoinDecrement i s) := by
  unfold execJoinDecrement
  split
  · split
    · split
      · next t e => exact dropMsg_keeps ((decrementParent_keeps hI).some e)
      · exact hI
    · exact hI
  · split
    · next t e =>
      obtain ⟨u, -, e⟩ := Option.bind_eq_some_iff.1 e
      exact dropMsg_keeps ((decrementParent_keeps hI).some e)
    · exact hI
  · exact hI

theorem execEngineTrap_keeps {e} (hI : I.At s) : I.Answers (execEngineTrap e s) := by
  unfold execEngineTrap
  split
  · exact hI
  · split
    · exact hI
    · dsimp only
      split
      · exact sendSnoops_keeps hI
      · exact reportWords_keeps (leaveSlot_keeps hI)

theorem execEngineStart_keeps {e} (hI : I.At s) : I.Answers (execEngineStart e s) := by
  unfold execEngineStart
  split
  · exact hI
  · refine answers_both hI ?_
    dsimp only
    split
    · next t e => exact (posterRead_keeps hI).wait e
    · exact reportWords_keeps hI
    · refine answers_both (startEngine_keeps hI) ?_
      split
      · next t e => exact (cohRequest_keeps hI).wait e
      · next t e => exact startEngine_keeps (at_others ((cohRequest_keeps hI).ok e))

theorem execBurstArrival_keeps {e} (hI : I.At s) : I.Answers (execBurstArrival e s) := by
  unfold execBurstArrival
  dsimp only
  split
  · exact hI
  · split
    · exact hI
    · refine answers_both hI ?_
      split
      · exact copyGoes_keeps hI (Got.bind_keeps (barPlace_keeps hI) fun _ _ ht => engineArrive_keeps ht)
      · exact copyGoes_keeps hI (castArrive_keeps hI)
      · exact hI

theorem execResultReturn_keeps {h n} (hI : I.At s) : I.Answers (execResultReturn h n s) := by
  unfold execResultReturn
  split
  · exact hI
  · split
    · exact hI
    · split
      · exact failOp_keeps hI
      · exact hI
      · exact tidyJoin_keeps (giveDone_keeps hI)
      · exact openResult_keeps hI

theorem execGangReport_keeps {i} (hI : I.At s) : I.Answers (execGangReport i s) := by
  unfold execGangReport
  split
  · dsimp only
    split
    · exact takeReport_keeps (dropMsg_keeps hI)
    · exact dropMsg_keeps hI
  · exact hI

theorem execReportDeadline_keeps {m gang} (hI : I.At s) : I.Answers (execReportDeadline m gang s) := by
  unfold execReportDeadline
  split
  · exact straggle_keeps hI
  · exact hI

theorem execSwitchToken_keeps {i} (hI : I.At s) : I.Answers (execSwitchToken i s) := by
  unfold execSwitchToken
  split
  · exact answers_both (dropMsg_keeps hI) (mapTimed_keeps (dropMsg_keeps hI))
  · exact hI

theorem execReleaseMessage_keeps {i} (hI : I.At s) : I.Answers (execReleaseMessage i s) := by
  unfold execReleaseMessage
  split
  · refine answers_both hI ?_
    split
    · exact dropMsg_keeps hI
    · have h1 := fun {m g} => setGrid_keeps (m := m) (g := g) (dropMsg_keeps (i := i) hI)
      exact checkGrid_keeps (at_both h1 (releaseGroups_keeps h1))
  · exact hI

theorem execShareComplete_keeps {i} (hI : I.At s) : I.Answers (execShareComplete i s) := by
  unfold execShareComplete
  split
  · refine answers_both hI ?_
    split
    · exact dropMsg_keeps hI
    · exact shareDone_keeps (dropMsg_keeps hI)
  · exact hI

theorem execGridComplete_keeps {i} (hI : I.At s) : I.Answers (execGridComplete i s) := by
  unfold execGridComplete
  split
  · split
    · exact dropMsg_keeps (i := i) hI
    · exact dropGrid_keeps (dropMsg_keeps hI)
  · exact hI

theorem execMigrationMessage_keeps {i} (hI : I.At s) : I.Answers (execMigrationMessage i s) := by
  unfold execMigrationMessage
  split
  · exact hI
  · split
    · split
      · exact dropShip_keeps hI
      · exact answers_both (shipSend_keeps hI) hI
    · refine answers_both (install_keeps (dropShip_keeps hI)) ?_
      split
      · exact install_keeps (dropShip_keeps hI)
      · exact hI

theorem execAutomaticMigration_keeps {h} (hI : I.At s) : I.Answers (execAutomaticMigration h s) := by
  unfold execAutomaticMigration
  split
  · exact hI
  · split
    · exact hI
    · dsimp only
      split
      · exact execMigrationMessage_keeps (orderShip_keeps hI)
      · exact orderShip_keeps hI

theorem execThermalStep_keeps {c temp} (hI : I.At s) : I.Answers (execThermalStep c temp s) :=
  answers_both (hotStep_keeps (setCore_keeps hI)) (answers_both (setCore_keeps (setCore_keeps hI)) (setCore_keeps hI))
theorem execPowerCapStep_keeps {m milliwatts} (hI : I.At s) : I.Answers (execPowerCapStep m milliwatts s) :=
  answers_both (mapCores_keeps hI) (answers_both (mapCores_keeps hI) hI)
theorem execPowerCapSetting_keeps {m milliwatts} (hI : I.At s) : I.Answers (execPowerCapSetting m milliwatts s) :=
  answers_both (setModule_keeps hI) hI
theorem execPtpSync_keeps {m offset usable} (hI : I.At s) : I.Answers (execPtpSync m offset usable s) :=
  answers_both (setUnit_keeps hI) (setUnit_keeps hI)
theorem execHoldover_keeps {m} (hI : I.At s) : I.Answers (execHoldover m s) :=
  answers_both (setUnit_keeps hI) hI
theorem execFreeRunning_keeps {m} (hI : I.At s) : I.Answers (execFreeRunning m s) :=
  answers_both (raiseModule_keeps (setUnit_keeps hI)) hI
theorem execTimeStep_keeps {m by_} (hI : I.At s) : I.Answers (execTimeStep m by_ s) :=
  answers_both (setModule_keeps hI) hI

theorem execWeltCombiningWindow_keeps {gdie ops} (hI : I.At s) : I.Answers (execWeltCombiningWindow gdie ops s) := by
  unfold execWeltCombiningWindow
  split
  · exact hI
  · split
    · exact hI
    · exact at_others (foldl_keeps (fun _ _ ht => updateOp_keeps ht) hI)

theorem execCombinedRequest_keeps {i} (hI : I.At s) : I.Answers (execCombinedRequest i s) := by
  unfold execCombinedRequest
  split
  · exact hI
  · refine answers_both hI ?_
    split
    · next t e => exact (cohRequest_keeps hI).wait e
    · next t e => exact foldl_keeps (fun _ _ ht => contribute_keeps ht) (dropCombined_keeps ((cohRequest_keeps hI).ok e))

theorem execWeltQuery_keeps {i} (hI : I.At s) : I.Answers (execWeltQuery i s) := by
  unfold execWeltQuery
  split
  · exact hI
  · exact answers_both hI (discardCombined_keeps hI)

theorem execDmaDescriptor_keeps {m} (hI : I.At s) : I.Answers (execDmaDescriptor m s) := by
  refine answers_both hI ?_
  split
  · next t e => exact (CohResult.bind_keeps (cohAsk_keeps hI) fun _ ht => dmaAccess_keeps ht).wait e
  · next t e =>
    have ht := (CohResult.bind_keeps (cohAsk_keeps hI) fun _ ht => dmaAccess_keeps ht).ok e
    exact complete_keeps (recordInput_keeps (at_others (at_when ht fun h => writeMem_keeps (spoil_keeps h))))

theorem execHostLinkRetraining_keeps {m} (hI : I.At s) : I.Answers (execHostLinkRetraining m s) :=
  answers_both hI (raiseMsix_keeps (setHost_keeps hI))
theorem execChannelSparing_keeps {m stack channel} (hI : I.At s) : I.Answers (execChannelSparing m stack channel s) :=
  answers_both (spareChannel_keeps hI) hI
theorem execThermalTrip_keeps {m die} (hI : I.At s) : I.Answers (execThermalTrip m die s) :=
  foldl_keeps (fun _ _ ht => dieOut_keeps ht) (at_others (machineCheck_keeps hI))
theorem execWarmReset_keeps {m die} (hI : I.At s) : I.Answers (execWarmReset m die s) :=
  answers_both hI (warmStep_keeps hI)

theorem execUncorrectableError_keeps {site} (hI : I.At s) : I.Answers (execUncorrectableError site s) := by
  cases site with
  | data pa => exact poisonRange_keeps hI
  | register core => exact at_others (machineCheck_keeps hI)
  | core c => exact execWarmReset_keeps (failCore_keeps hI)
  | control gdie | welt gdie => exact execWarmReset_keeps hI

theorem execAttestationRequest_keeps {m nonce} (hI : I.At s) : I.Answers (execAttestationRequest m nonce s) := by
  unfold execAttestationRequest
  dsimp only
  refine answers_next ?_
  split
  · exact setModule_keeps hI
  · exact respond_keeps (foldl_keeps (fun _ _ ht => mailWord_keeps ht) (setModule_keeps hI))

theorem execBringUp_keeps {m} (hI : I.At s) : I.Answers (execBringUp m s) := by
  unfold execBringUp
  extract_lets xs _ s1 _ known s2
  have h1 : I.At s1 := at_others (coldReset_keeps hI)
  have h2 : I.At s2 := trainPorts_keeps (testChannels_keeps (testDies_keeps (setModule_keeps h1)))
  clear_value s1 s2
  refine answers_both (inRecovery_keeps h1) ?_
  split
  · exact h2
  · exact install_keeps (writeMem_keeps (loadImage_keeps (at_others h2)))

end Sys2Proof.Machine

end

section
/-!
Every instruction, every turn and every step keeps an invariant.
-/

namespace Sys2Proof.Machine

variable {I : StepInvariant} {s t : State}

/-- The meaning of every instruction and of every event keeps an invariant. -/
theorem exec_keeps {i} (hI : I.At s) : I.Answers (exec i s) := by
  delta exec
  cases i with
  | add | sub | mul | mulhs | and | or | xor | andn | shl | shr | sar | rol | ror | min | max | minn | maxn | mulhn | cmpeq | cmpne |
    cmplt | cmple | cmpltn | cmplen | bins | rng | rngf32 | rngf64 =>
    exact aluRR_keeps hI
  | addImm | subImm | mulImm | mulhsImm | andImm | orImm | xorImm | andnImm | shlImm | shrImm | sarImm | rolImm | rorImm | minImm | maxImm
    | minnImm | maxnImm | mulhnImm | cmpeqImm | cmpneImm | cmpltImm | cmpleImm | cmpltnImm | cmplenImm =>
    exact aluRI_keeps hI
  | sel => exact scalarOp_keeps hI
  | bext | bexts | clz | ctz | popc | brev | bswap => exact aluR_keeps hI
  | div | divn | rem | remn => exact laterOp_keeps hI
  | br | call | jr | callr | ret => exact transfer_keeps hI
  | bz | bnz | bltz | bgez => exact condBranch_keeps hI
  | ldN8 | ldN16 | ldN32 | ld | ldS8 | ldS16 | ldS32 => exact loadInstr_keeps hI
  | windowLdN8 | windowLdN16 | windowLdN32 | windowLd | windowLdS8 | windowLdS16 | windowLdS32 => exact windowLoad_keeps hI
  | stN8 | stN16 | stN32 | st => exact storeInstr_keeps hI
  | windowStN8 | windowStN16 | windowStN32 | windowSt => exact windowStore_keeps hI
  | pref | prefw => exact prefetch_keeps hI
  | cflush | cinval => exact cacheOp_keeps hI
  | swap | cas | aadd | aand | aor | axor | amin | amax | aminn | amaxn | afadd => exact atomicInstr_keeps hI
  | vadd | vsub | vmul | vdiv | vmin | vmax | vabs | vneg | vsqrt | vfma | vfms | vfnma | vfnms => exact floatInstr_keeps hI
  | viadd | visub | vimul | vand | vor | vxor | vshl | vshr | vsar | viadds => exact bitsInstr_keeps hI
  | vcmpeq | vcmplt | vcmple => exact compareInstr_keeps hI
  | vrmin | vrmax => exact extremeInstr_keeps hI
  | vexp2 | vlog2 | vrcp | vrsq | vtanh => exact specialInstr_keeps hI
  | vrng | vrngf32 | vrngf64 => exact rngInstr_keeps hI
  | trowv | tcolv => exact sliceRead_keeps hI
  | vtrow | vtcol => exact sliceWrite_keeps hI
  | tlbinvPg | tlbinvAll => exact invalidate_keeps hI
  | sstatWrite | fpctlWrite | timecmpWrite => exact mtsStrand_keeps hI
  | cbselWrite | tshapeWrite | tdirtyWrite | mcapWrite => exact mtsCore_keeps hI
  | dmatail | dmactlEn | dmactlReset | dmastatErrClear | mbxbell | mbxdoneClear | registerWrite => exact hostWrite_keeps hI
  | putr | ldl | ldbit | stZ | windowStZ | stbit | take | put | peek | tdecl | tundecl | reddecl | redAdd | redRd | binit | barv | bwait |
    btest | propose | dread | dcell | vld | vst | vgath | vscat | tpost | glaunch =>
    exact issue_keeps hI fun _ _ => issueMem_keeps hI
  | recycle | vbdec | mcmd => exact issue_keeps hI fun _ _ => holdUp_keeps (issueMem_keeps hI)
  | fncHv | ptbrWrite => exact issue_keeps hI fun _ _ => holdUp_keeps (issues_done hI)
  | fncLt | kick | twait => exact issue_keeps hI fun _ _ => hI
  | fnc => exact issue_keeps hI fun _ _ => issues_both hI hI
  | wait | waitst | join => exact issue_keeps hI fun _ _ => issues_both hI trivial
  | halt | vmodeS => exact issue_keeps hI fun _ _ => issues_both trivial hI
  | trap | ecall => exact issue_keeps hI fun _ _ => trivial
  | mig => exact issue_keeps hI fun _ _ => migIssue_keeps hI
  | vsel | vperm | vbcast | vcvt | vnarrow => exact issue_keeps hI fun _ _ => giveVec_keeps hI
  | qstat | isfull => exact issue_keeps hI fun _ _ => issues_done (writeDst_keeps hI)
  | tzero | mma | mmar => exact issue_keeps hI fun _ _ => mxPlain_keeps hI
  | tld | tldBlk | tst | cbload | msave | mrestore | tsave | trst => exact issue_keeps hI fun _ _ => mxMemory_keeps hI
  | thrankWrite => exact mtsModule_keeps hI fun _ _ => setDie_keeps hI
  | tttbWrite => exact mtsModule_keeps hI fun _ _ => setModule_keeps hI
  | timedLaunch | preEmpt | resume => exact timedEvent_keeps hI
  | trapEntry => exact enterTrap_keeps hI
  | asyncCauseTaken => exact enterAsync_keeps hI
  | hostLinkDown => exact linkDown_keeps hI
  | mchk => exact machineCheck_keeps hI
  | routeUpdate => exact settleRoutes_keeps (setModule_keeps hI)
  | empty => exact execEmpty_keeps hI
  | fill => exact execFill_keeps hI
  | isync => exact execIsync_keeps hI
  | tfwd => exact execTfwd_keeps hI
  | vext => exact execVext_keeps hI
  | vins => exact execVins_keeps hI
  | vrsum => exact execVrsum_keeps hI
  | vbenc => exact execVbenc_keeps hI
  | tshape => exact execTshape_keeps hI
  | mmau => exact execMmau_keeps hI
  | mucode => exact execMucode_keeps hI
  | spawn => exact execSpawn_keeps hI
  | qbind => exact execQbind_keeps hI
  | qsndNb => exact execQsndNb_keeps hI
  | nbinit => exact execNbinit_keeps hI
  | nbarr => exact execNbarr_keeps hI
  | nbwait => exact execNbwait_keeps hI
  | bcopy => exact execBcopy_keeps hI
  | bcast => exact execBcast_keeps hI
  | mfs => exact execMfs_keeps hI
  | mts => exact execMts_keeps hI
  | wdogWrite => exact execWdogWrite_keeps hI
  | mevtWrite => exact execMevtWrite_keeps hI
  | yield => exact execYield_keeps hI
  | retire => exact execRetire_keeps hI
  | eret => exact execEret_keeps hI
  | vmodeL => exact execVmodeL_keeps hI
  | sctlRun => exact execSctlRun_keeps hI
  | sctlDblClear => exact execSctlDblClear_keeps hI
  | qportDataStore => exact execQportDataStore_keeps hI
  | qportBindingStore => exact execQportBindingStore_keeps hI
  | tileWindowStore => exact execTileWindowStore_keeps hI
  | nbarWindowStore => exact execNbarWindowStore_keeps hI
  | resultReturn => exact execResultReturn_keeps hI
  | storeAccept => exact execStoreAccept_keeps hI
  | timer => exact execTimer_keeps hI
  | twaitDeadline => exact execTwaitDeadline_keeps hI
  | watchdogExpiry => exact execWatchdogExpiry_keeps hI
  | putrArrival => exact execPutrArrival_keeps hI
  | windowAccessArrival => exact execWindowAccessArrival_keeps hI
  | fewordRequestArrival => exact execFewordRequestArrival_keeps hI
  | barrierOpAtHome => exact execBarrierOpAtHome_keeps hI
  | redAddAtHome => exact execRedAddAtHome_keeps hI
  | decideOnceAtHome => exact execDecideOnceAtHome_keeps hI
  | drainRequest => exact execDrainRequest_keeps hI
  | readRequest => exact execReadRequest_keeps hI
  | ownershipRequest => exact execOwnershipRequest_keeps hI
  | eviction => exact execEviction_keeps hI
  | ucLoad => exact execUcLoad_keeps hI
  | ucStore => exact execUcStore_keeps hI
  | tileRequest => exact execTileRequest_keeps hI
  | hostRead => exact execHostRead_keeps hI
  | hostOwnershipRequest => exact execHostOwnershipRequest_keeps hI
  | backInvalidationResponse => exact execBackInvalidationResponse_keeps hI
  | backInvalidationTimeout => exact execBackInvalidationTimeout_keeps hI
  | translationWalk => exact execTranslationWalk_keeps hI
  | mcmdCommandArrival => exact execMcmdCommandArrival_keeps hI
  | thawCheck => exact execThawCheck_keeps hI
  | longContextGrant => exact execLongContextGrant_keeps hI
  | engineStart => exact execEngineStart_keeps hI
  | engineTrap => exact execEngineTrap_keeps hI
  | burstArrival => exact execBurstArrival_keeps hI
  | launchMessage => exact execLaunchMessage_keeps hI
  | queuePush => exact execQueuePush_keeps hI
  | joinDecrement => exact execJoinDecrement_keeps hI
  | placement => exact execPlacement_keeps hI
  | migrationMessage => exact execMigrationMessage_keeps hI
  | automaticMigration => exact execAutomaticMigration_keeps hI
  | thermalStep => exact execThermalStep_keeps hI
  | powerCapStep => exact execPowerCapStep_keeps hI
  | thermalTrip => exact execThermalTrip_keeps hI
  | gangReport => exact execGangReport_keeps hI
  | reportDeadline => exact execReportDeadline_keeps hI
  | switchToken => exact execSwitchToken_keeps hI
  | releaseMessage => exact execReleaseMessage_keeps hI
  | shareComplete => exact execShareComplete_keeps hI
  | gridComplete => exact execGridComplete_keeps hI
  | ptpSync => exact execPtpSync_keeps hI
  | holdover => exact execHoldover_keeps hI
  | freeRunning => exact execFreeRunning_keeps hI
  | timeStep => exact execTimeStep_keeps hI
  | flitReceive => exact execFlitReceive_keeps hI
  | linkTraining => exact execLinkTraining_keeps hI
  | remoteTimeout => exact execRemoteTimeout_keeps hI
  | combinedRequest => exact execCombinedRequest_keeps hI
  | weltQuery => exact execWeltQuery_keeps hI
  | dmaDescriptor => exact execDmaDescriptor_keeps hI
  | channelSparing => exact execChannelSparing_keeps hI
  | uncorrectableError => exact execUncorrectableError_keeps hI
  | warmReset => exact execWarmReset_keeps hI
  | attestationRequest => exact execAttestationRequest_keeps hI
  | bringUp => exact execBringUp_keeps hI
  | matrixInstructionCompletion => exact execMatrixInstructionCompletion_keeps hI
  | remoteStoreAcknowledgement => exact execRemoteStoreAcknowledgement_keeps hI
  | queueGoSignal => exact execQueueGoSignal_keeps hI
  | hostLinkRetraining => exact execHostLinkRetraining_keeps hI
  | powerCapSetting => exact execPowerCapSetting_keeps hI
  | weltCombiningWindow => exact execWeltCombiningWindow_keeps hI

theorem issueTurn_keeps {h} (hI : I.At s) : I.Answers (issueTurn h s) := by
  unfold issueTurn
  split
  · exact hI
  · next hs _ =>
    refine answers_both hI (answers_both (execAutomaticMigration_keeps hI) ?_)
    split
    · next t e => exact (autoWalk_keeps hI).some e
    · have hf : I.At (fetchIssue s h hs).1 := fetchIssue_keeps hI
      split
      · next e => exact (congrArg (fun x => I.At x.1) e).mp hf
      · next e => exact exec_keeps ((congrArg (fun x => I.At x.1) e).mp hf)

theorem runTurn_keeps {r} (hI : I.At s) : I.Answers (runTurn r s) := by
  cases r with
  | issue h => exact issueTurn_keeps hI
  | event i => exact exec_keeps (settleYields_keeps hI)
  | setting m x => exact applySetting_keeps (settleYields_keeps hI)
  | hostEviction line data => exact hostEvicts_keeps (settleYields_keeps hI)
  | corrected m ch => exact correctedError_keeps (settleYields_keeps hI)

theorem askAgain_keeps {h n} (hI : I.At s) : I.Answers (askAgain h n s) := by
  unfold askAgain
  split
  · exact hI
  · exact answers_both hI (setHart_keeps (translateOp_keeps hI))

theorem thawTurn_keeps {h} (hI : I.At s) : I.Answers (thawTurn h s) := by
  unfold thawTurn
  split
  · exact hI
  · exact answers_both (execThawCheck_keeps hI) hI

/-- A turn of the hardware that keeps an invariant from every state. -/
def StepInvariant.KeptBy (I : StepInvariant) (f : State → Result) : Prop := ∀ s, I.At s → I.Answers (f s)

theorem keptBy_storeTurns {n} : ∀ f ∈ storeTurns n, I.KeptBy f := by
  simp only [storeTurns, List.forall_mem_cons]
  exact ⟨fun _ h => execWindowAccessArrival_keeps h, fun _ h => execPutrArrival_keeps h, fun _ h => execQportDataStore_keeps h,
    fun _ h => execQportBindingStore_keeps h, fun _ h => execTileWindowStore_keeps h, fun _ h => execNbarWindowStore_keeps h,
    fun _ h => execSctlRun_keeps h, fun _ h => execSctlDblClear_keeps h, fun _ h => execOwnershipRequest_keeps h,
    fun _ h => execTileRequest_keeps h, fun _ h => execTileRequest_keeps h, fun _ h => execUcStore_keeps h,
    fun _ h => execRemoteStoreAcknowledgement_keeps h, nofun⟩

theorem keptBy_opTurns {h n} : ∀ f ∈ opTurns h n, I.KeptBy f := by
  simp only [opTurns, List.forall_mem_cons]
  exact ⟨fun _ h => askAgain_keeps h, fun _ h => execStoreAccept_keeps h, fun _ h => execWindowAccessArrival_keeps h,
    fun _ h => execFewordRequestArrival_keeps h, fun _ h => execBarrierOpAtHome_keeps h, fun _ h => execRedAddAtHome_keeps h,
    fun _ h => execDecideOnceAtHome_keeps h, fun _ h => execTileRequest_keeps h, fun _ h => execTileRequest_keeps h,
    fun _ h => execTileRequest_keeps h, fun _ h => execReadRequest_keeps h, fun _ h => execOwnershipRequest_keeps h,
    fun _ h => execUcLoad_keeps h, fun _ h => execUcStore_keeps h, fun _ h => execMcmdCommandArrival_keeps h,
    fun _ h => execTwaitDeadline_keeps h, fun _ h => execResultReturn_keeps h, nofun⟩

theorem keptBy_hartTurns {h hs} : ∀ f ∈ hartTurns h hs, I.KeptBy f := by
  simp only [hartTurns, List.forall_mem_append, List.forall_mem_cons, List.forall_mem_map, List.forall_mem_flatMap]
  refine ⟨⟨⟨⟨fun _ h => enterTrap_keeps h, fun _ h => execTimer_keeps h, fun _ h => execWatchdogExpiry_keeps h,
    fun _ h => enterAsync_keeps h, fun _ h => thawTurn_keeps h, nofun⟩, fun _ _ _ h => execQueueGoSignal_keeps h⟩, ?_⟩,
    fun _ _ => keptBy_opTurns⟩
  split
  · exact nofun
  · exact List.forall_mem_map.2 fun _ _ _ h => execDrainRequest_keeps h

theorem keptBy_engineTurns {e} : ∀ f ∈ engineTurns e, I.KeptBy f := by
  simp only [engineTurns, List.forall_mem_cons]
  exact ⟨fun _ h => execEngineTrap_keeps h, fun _ h => execBurstArrival_keeps h, fun _ h => execEngineStart_keeps h, nofun⟩

theorem keptBy_msgTurns {i} : ∀ f ∈ msgTurns i, I.KeptBy f := by
  simp only [msgTurns, List.forall_mem_cons]
  exact ⟨fun _ h => execLaunchMessage_keeps h, fun _ h => execJoinDecrement_keeps h, fun _ h => execGangReport_keeps h,
    fun _ h => execSwitchToken_keeps h, fun _ h => execReleaseMessage_keeps h, fun _ h => execShareComplete_keeps h,
    fun _ h => execGridComplete_keeps h, nofun⟩

theorem keptBy_timedTurns {m t} : ∀ f ∈ timedTurns m t, I.KeptBy f := by
  simp only [timedTurns, List.forall_mem_cons]
  exact ⟨fun _ h => timedEvent_keeps h, fun _ h => timedEvent_keeps h, fun _ h => timedEvent_keeps h,
    fun _ h => execReportDeadline_keeps h, nofun⟩

theorem keptBy_moduleTurns {m ms} : ∀ f ∈ moduleTurns m ms, I.KeptBy f := by
  simp only [moduleTurns, List.forall_mem_append, List.forall_mem_cons, List.forall_mem_flatMap]
  exact ⟨⟨fun _ _ => keptBy_timedTurns, fun _ _ => keptBy_timedTurns⟩, fun _ h => execPlacement_keeps h,
    fun _ h => execDmaDescriptor_keeps h, fun _ h => execHoldover_keeps h, fun _ h => execFreeRunning_keeps h, nofun⟩

theorem keptBy_hardwareTurns : ∀ f ∈ hardwareTurns s, I.KeptBy f := by
  simp only [hardwareTurns, List.forall_mem_append, List.forall_mem_map, List.forall_mem_flatMap, List.forall_mem_cons]
  refine ⟨⟨⟨⟨⟨⟨⟨⟨⟨⟨⟨⟨⟨fun _ _ => keptBy_hartTurns, fun _ _ => keptBy_storeTurns⟩,
    fun _ _ => ⟨fun _ h => execReadRequest_keeps h, fun _ h => execOwnershipRequest_keeps h, nofun⟩⟩,
    fun _ _ _ h => execQueuePush_keeps h⟩, fun _ _ _ h => execMatrixInstructionCompletion_keeps h⟩,
    fun _ _ _ _ _ h => execTranslationWalk_keeps h⟩, fun _ _ => keptBy_engineTurns⟩, fun _ _ => keptBy_msgTurns⟩,
    fun _ _ _ h => execMigrationMessage_keeps h⟩, fun _ _ _ h => execLongContextGrant_keeps h⟩,
    fun _ _ => ⟨fun _ h => execCombinedRequest_keeps h, fun _ h => execWeltQuery_keeps h, nofun⟩⟩,
    fun _ _ _ h => execBackInvalidationTimeout_keeps h⟩, ?_⟩, fun _ _ => keptBy_moduleTurns⟩
  split
  · exact nofun
  · exact List.forall_mem_singleton.2 fun _ h => hostTurn_keeps h

theorem firstTurn_keeps {fs} (hI : I.At s) (hf : ∀ f ∈ fs, I.KeptBy f) : ∀ r ∈ firstTurn s fs, I.Answers r := by
  induction fs with
  | nil => exact nofun
  | cons f rest ih =>
    obtain ⟨hk, hr⟩ := List.forall_mem_cons.1 hf
    have h1 := hk s hI
    unfold firstTurn
    split
    · next t e =>
      split
      · exact ih hr
      · exact fun r hr => Option.some.inj hr ▸ e ▸ h1
    · exact fun r hr => Option.some.inj hr ▸ h1

theorem firstIssue_keeps {hs} (hI : I.At s) : ∀ r ∈ firstIssue s hs, I.Answers r := by
  induction hs with
  | nil => exact nofun
  | cons h rest ih =>
    unfold firstIssue
    dsimp only
    split
    · exact fun r hr => Option.some.inj hr ▸ issueTurn_keeps hI
    · exact ih

theorem issueStep_keeps (hI : I.At s) : ∀ r ∈ issueStep s, I.Answers r :=
  firstIssue_keeps (at_others (tick_keeps hI))
theorem hardwareStep_keeps (hI : I.At s) : ∀ r ∈ hardwareStep s, I.Answers r :=
  firstTurn_keeps (at_others hI) keptBy_hardwareTurns

/-- What holds of a first answer and of a second one holds of the first one there is, or of what stands in for both. -/
theorem orElse_getD {α : Type} {P : α → Prop} {o q : Option α} {d : α} (ho : ∀ a ∈ o, P a) (hq : ∀ a ∈ q, P a) (hd : P d) :
    P ((o.orElse fun _ => q).getD d) := by
  cases o with
  | some a => exact ho a rfl
  | none => cases q with
    | some a => exact hq a rfl
    | none => exact hd

theorem autoTurn_keeps (hI : I.At s) : I.Answers (autoTurn s) := by
  have hu := settleYields_keeps hI
  unfold autoTurn
  generalize settleYields s = u at hu
  have hu0 : I.At { u with burst := 0 } := at_others hu
  have hd := answers_next (tick_keeps (dt := Config.timeTick u.free + 1) hu0)
  dsimp only
  split
  · exact orElse_getD (issueStep_keeps hu) (hardwareStep_keeps hu) hd
  · exact orElse_getD (hardwareStep_keeps hu) (issueStep_keeps hu0) hd

/-- One step of the machine keeps every invariant. -/
theorem step_keeps (hI : I.At s) : I.Answers (step s) := by
  unfold step
  split
  · exact runTurn_keeps hI
  · exact autoTurn_keeps hI

end Sys2Proof.Machine

end

section
/-!
Two invariants of every step: the canonical form of memory, and one hart to a slot and to an engine.
-/

namespace Sys2Proof.Machine

/-- Memory keeps its canonical form (R10): a step writes bytes and drops entries. -/
def memoryForm : StepInvariant where
  holds mem _ _ _ := memWf mem = true
  bytes a bs h := memWf_memSetBytes bs _ a h
  cellsKept f h := memWf_filter _ f h
  hart _ _ h := h
  hartsKept _ h := h
  hartsMapped _ _ h := h
  storesKept _ h := h
  storesMapped _ _ h := h
  storeAdded _ _ h := h

/-- One hart to a slot and to an engine (R5, R206): a step sets the hart of a slot, drops harts and changes harts in place. -/
def hartPerSlot : StepInvariant where
  holds _ harts _ _ := (harts.map Prod.fst).Nodup
  bytes _ _ h := h
  cellsKept _ h := h
  hart k x h := nodup_keys_assocSet _ k x h
  hartsKept f h := h.sublist (List.filter_sublist.map Prod.fst)
  hartsMapped f hf h := by simpa [List.map_map, Function.comp_def, hf] using h
  storesKept _ h := h
  storesMapped _ _ h := h
  storeAdded _ _ h := h

/-- Settles O8: the canonical form is one of the invariants that every step keeps. -/
theorem stepKeepsMemoryForm : Obligations.StepKeepsMemoryForm := by
  intro s t hs e
  have h : memoryForm.Answers (step s) := step_keeps (I := memoryForm) hs
  rw [e] at h
  exact h

/-- Settles O9: one hart per slot is one of the invariants that every step keeps. -/
theorem stepKeepsOneHartPerSlot : Obligations.StepKeepsOneHartPerSlot := by
  intro s t hs e
  have h : hartPerSlot.Answers (step s) := step_keeps (I := hartPerSlot) hs
  rw [e] at h
  exact h

end Sys2Proof.Machine

end

section
/-!
The numbers of the stores on their way (R29, R110) are an invariant of every step.
-/

namespace Sys2Proof.Machine

/-- The stores on their way keep numbers of their own (R29, R110): a step drops stores, changes them in place and gives the next number to
a new one. -/
def storeNumbers : StepInvariant where
  holds _ _ stores n := (stores.map Accepted.n).Nodup ∧ ∀ a ∈ stores, a.n < n
  bytes _ _ h := h
  cellsKept _ h := h
  hart _ _ h := h
  hartsKept _ h := h
  hartsMapped _ _ h := h
  storesKept f h := ⟨h.1.sublist (List.filter_sublist.map Accepted.n), fun a ha => h.2 a (List.mem_of_mem_filter ha)⟩
  storesMapped f hf h := ⟨by simpa [Function.comp_def, hf] using h.1, by simpa [hf] using h.2⟩
  storeAdded {_ _ stores n} a ha h := by
    obtain ⟨hnew, hlow⟩ := h
    have hfresh : ∀ b ∈ stores, b.n ≠ a.n := fun b hb => ha ▸ (hlow b hb).ne
    refine ⟨?_, ?_⟩
    · simpa [List.nodup_append, hnew] using hfresh
    · simpa [or_imp, forall_and, ha] using fun b hb => (hlow b hb).trans n.lt_succ_self

/-- Settles O10: the numbering of the stores is one of the invariants that every step keeps. -/
theorem stepKeepsStoreNumbers : Obligations.StepKeepsStoreNumbers := by
  intro s t hs e
  have h : storeNumbers.Answers (step s) := step_keeps (I := storeNumbers) hs
  rw [e] at h
  exact h

end Sys2Proof.Machine
end

section
/-!
Encode and decode (R16, R18): every well-formed instruction is read back from its bytes, and what decodes is well formed.
-/

namespace Sys2Proof.Laws

/-- The decoder reads every instruction back from its own head; a step of the hardware has none. -/
theorem roundTrip (i : Instr) : RoundTrip.Statement i := by
  cases i with
  | add => exact RoundTrip.add
  | sub => exact RoundTrip.sub
  | mul => exact RoundTrip.mul
  | mulhs => exact RoundTrip.mulhs
  | and => exact RoundTrip.and
  | or => exact RoundTrip.or
  | xor => exact RoundTrip.xor
  | andn => exact RoundTrip.andn
  | shl => exact RoundTrip.shl
  | shr => exact RoundTrip.shr
  | sar => exact RoundTrip.sar
  | rol => exact RoundTrip.rol
  | ror => exact RoundTrip.ror
  | min => exact RoundTrip.min
  | max => exact RoundTrip.max
  | minn => exact RoundTrip.minn
  | maxn => exact RoundTrip.maxn
  | mulhn => exact RoundTrip.mulhn
  | addImm => exact RoundTrip.addImm
  | subImm => exact RoundTrip.subImm
  | mulImm => exact RoundTrip.mulImm
  | mulhsImm => exact RoundTrip.mulhsImm
  | andImm => exact RoundTrip.andImm
  | orImm => exact RoundTrip.orImm
  | xorImm => exact RoundTrip.xorImm
  | andnImm => exact RoundTrip.andnImm
  | shlImm => exact RoundTrip.shlImm
  | shrImm => exact RoundTrip.shrImm
  | sarImm => exact RoundTrip.sarImm
  | rolImm => exact RoundTrip.rolImm
  | rorImm => exact RoundTrip.rorImm
  | minImm => exact RoundTrip.minImm
  | maxImm => exact RoundTrip.maxImm
  | minnImm => exact RoundTrip.minnImm
  | maxnImm => exact RoundTrip.maxnImm
  | mulhnImm => exact RoundTrip.mulhnImm
  | cmpeq => exact RoundTrip.cmpeq
  | cmpne => exact RoundTrip.cmpne
  | cmplt => exact RoundTrip.cmplt
  | cmple => exact RoundTrip.cmple
  | cmpltn => exact RoundTrip.cmpltn
  | cmplen => exact RoundTrip.cmplen
  | cmpeqImm => exact RoundTrip.cmpeqImm
  | cmpneImm => exact RoundTrip.cmpneImm
  | cmpltImm => exact RoundTrip.cmpltImm
  | cmpleImm => exact RoundTrip.cmpleImm
  | cmpltnImm => exact RoundTrip.cmpltnImm
  | cmplenImm => exact RoundTrip.cmplenImm
  | sel => exact RoundTrip.sel
  | bext => exact RoundTrip.bext
  | bexts => exact RoundTrip.bexts
  | bins => exact RoundTrip.bins
  | clz => exact RoundTrip.clz
  | ctz => exact RoundTrip.ctz
  | popc => exact RoundTrip.popc
  | brev => exact RoundTrip.brev
  | bswap => exact RoundTrip.bswap
  | div => exact RoundTrip.div
  | divn => exact RoundTrip.divn
  | rem => exact RoundTrip.rem
  | remn => exact RoundTrip.remn
  | rng => exact RoundTrip.rng
  | rngf32 => exact RoundTrip.rngf32
  | rngf64 => exact RoundTrip.rngf64
  | empty => exact RoundTrip.empty
  | fill => exact RoundTrip.fill
  | isfull => exact RoundTrip.isfull
  | putr => exact RoundTrip.putr
  | ldl => exact RoundTrip.ldl
  | br => exact RoundTrip.br
  | bz => exact RoundTrip.bz
  | bnz => exact RoundTrip.bnz
  | bltz => exact RoundTrip.bltz
  | bgez => exact RoundTrip.bgez
  | call => exact RoundTrip.call
  | jr => exact RoundTrip.jr
  | callr => exact RoundTrip.callr
  | ret => exact RoundTrip.ret
  | wait => exact RoundTrip.wait
  | ldN8 => exact RoundTrip.ldN8
  | ldN16 => exact RoundTrip.ldN16
  | ldN32 => exact RoundTrip.ldN32
  | ld => exact RoundTrip.ld
  | ldS8 => exact RoundTrip.ldS8
  | ldS16 => exact RoundTrip.ldS16
  | ldS32 => exact RoundTrip.ldS32
  | windowLdN8 => exact RoundTrip.windowLdN8
  | windowLdN16 => exact RoundTrip.windowLdN16
  | windowLdN32 => exact RoundTrip.windowLdN32
  | windowLd => exact RoundTrip.windowLd
  | windowLdS8 => exact RoundTrip.windowLdS8
  | windowLdS16 => exact RoundTrip.windowLdS16
  | windowLdS32 => exact RoundTrip.windowLdS32
  | ldbit => exact RoundTrip.ldbit
  | stN8 => exact RoundTrip.stN8
  | stN16 => exact RoundTrip.stN16
  | stN32 => exact RoundTrip.stN32
  | st => exact RoundTrip.st
  | stZ => exact RoundTrip.stZ
  | windowStN8 => exact RoundTrip.windowStN8
  | windowStN16 => exact RoundTrip.windowStN16
  | windowStN32 => exact RoundTrip.windowStN32
  | windowSt => exact RoundTrip.windowSt
  | windowStZ => exact RoundTrip.windowStZ
  | stbit => exact RoundTrip.stbit
  | take => exact RoundTrip.take
  | put => exact RoundTrip.put
  | peek => exact RoundTrip.peek
  | fnc => exact RoundTrip.fnc
  | fncLt => exact RoundTrip.fncLt
  | fncHv => exact RoundTrip.fncHv
  | pref => exact RoundTrip.pref
  | prefw => exact RoundTrip.prefw
  | cflush => exact RoundTrip.cflush
  | cinval => exact RoundTrip.cinval
  | isync => exact RoundTrip.isync
  | tdecl => exact RoundTrip.tdecl
  | tundecl => exact RoundTrip.tundecl
  | tfwd => exact RoundTrip.tfwd
  | mig => exact RoundTrip.mig
  | swap => exact RoundTrip.swap
  | cas => exact RoundTrip.cas
  | aadd => exact RoundTrip.aadd
  | aand => exact RoundTrip.aand
  | aor => exact RoundTrip.aor
  | axor => exact RoundTrip.axor
  | amin => exact RoundTrip.amin
  | amax => exact RoundTrip.amax
  | aminn => exact RoundTrip.aminn
  | amaxn => exact RoundTrip.amaxn
  | afadd => exact RoundTrip.afadd
  | reddecl => exact RoundTrip.reddecl
  | redAdd => exact RoundTrip.redAdd
  | redRd => exact RoundTrip.redRd
  | binit => exact RoundTrip.binit
  | barv => exact RoundTrip.barv
  | bwait => exact RoundTrip.bwait
  | btest => exact RoundTrip.btest
  | propose => exact RoundTrip.propose
  | dread => exact RoundTrip.dread
  | dcell => exact RoundTrip.dcell
  | recycle => exact RoundTrip.recycle
  | vadd => exact RoundTrip.vadd
  | vsub => exact RoundTrip.vsub
  | vmul => exact RoundTrip.vmul
  | vdiv => exact RoundTrip.vdiv
  | vmin => exact RoundTrip.vmin
  | vmax => exact RoundTrip.vmax
  | vabs => exact RoundTrip.vabs
  | vneg => exact RoundTrip.vneg
  | vsqrt => exact RoundTrip.vsqrt
  | vfma => exact RoundTrip.vfma
  | vfms => exact RoundTrip.vfms
  | vfnma => exact RoundTrip.vfnma
  | vfnms => exact RoundTrip.vfnms
  | viadd => exact RoundTrip.viadd
  | visub => exact RoundTrip.visub
  | vimul => exact RoundTrip.vimul
  | vand => exact RoundTrip.vand
  | vor => exact RoundTrip.vor
  | vxor => exact RoundTrip.vxor
  | vshl => exact RoundTrip.vshl
  | vshr => exact RoundTrip.vshr
  | vsar => exact RoundTrip.vsar
  | viadds => exact RoundTrip.viadds
  | vcmpeq => exact RoundTrip.vcmpeq
  | vcmplt => exact RoundTrip.vcmplt
  | vcmple => exact RoundTrip.vcmple
  | vsel => exact RoundTrip.vsel
  | vperm => exact RoundTrip.vperm
  | vbcast => exact RoundTrip.vbcast
  | vext => exact RoundTrip.vext
  | vins => exact RoundTrip.vins
  | vrsum => exact RoundTrip.vrsum
  | vrmin => exact RoundTrip.vrmin
  | vrmax => exact RoundTrip.vrmax
  | vcvt => exact RoundTrip.vcvt
  | vnarrow => exact RoundTrip.vnarrow
  | vbdec => exact RoundTrip.vbdec
  | vbenc => exact RoundTrip.vbenc
  | vld => exact RoundTrip.vld
  | vst => exact RoundTrip.vst
  | vgath => exact RoundTrip.vgath
  | vscat => exact RoundTrip.vscat
  | vexp2 => exact RoundTrip.vexp2
  | vlog2 => exact RoundTrip.vlog2
  | vrcp => exact RoundTrip.vrcp
  | vrsq => exact RoundTrip.vrsq
  | vtanh => exact RoundTrip.vtanh
  | vrng => exact RoundTrip.vrng
  | vrngf32 => exact RoundTrip.vrngf32
  | vrngf64 => exact RoundTrip.vrngf64
  | tshape => exact RoundTrip.tshape
  | tzero => exact RoundTrip.tzero
  | tld => exact RoundTrip.tld
  | tldBlk => exact RoundTrip.tldBlk
  | tst => exact RoundTrip.tst
  | trowv => exact RoundTrip.trowv
  | tcolv => exact RoundTrip.tcolv
  | vtrow => exact RoundTrip.vtrow
  | vtcol => exact RoundTrip.vtcol
  | mma => exact RoundTrip.mma
  | mmau => exact RoundTrip.mmau
  | cbload => exact RoundTrip.cbload
  | mucode => exact RoundTrip.mucode
  | mmar => exact RoundTrip.mmar
  | mcmd => exact RoundTrip.mcmd
  | msave => exact RoundTrip.msave
  | mrestore => exact RoundTrip.mrestore
  | tsave => exact RoundTrip.tsave
  | trst => exact RoundTrip.trst
  | kick => exact RoundTrip.kick
  | tpost => exact RoundTrip.tpost
  | spawn => exact RoundTrip.spawn
  | glaunch => exact RoundTrip.glaunch
  | qbind => exact RoundTrip.qbind
  | qsndNb => exact RoundTrip.qsndNb
  | qstat => exact RoundTrip.qstat
  | nbinit => exact RoundTrip.nbinit
  | nbarr => exact RoundTrip.nbarr
  | nbwait => exact RoundTrip.nbwait
  | bcopy => exact RoundTrip.bcopy
  | bcast => exact RoundTrip.bcast
  | mfs => exact RoundTrip.mfs
  | mts => exact RoundTrip.mts
  | trap => exact RoundTrip.trap
  | ecall => exact RoundTrip.ecall
  | tlbinvPg => exact RoundTrip.tlbinvPg
  | tlbinvAll => exact RoundTrip.tlbinvAll
  | twait => exact RoundTrip.twait
  | sstatWrite => exact RoundTrip.sstatWrite
  | fpctlWrite => exact RoundTrip.fpctlWrite
  | cbselWrite => exact RoundTrip.cbselWrite
  | tshapeWrite => exact RoundTrip.tshapeWrite
  | tdirtyWrite => exact RoundTrip.tdirtyWrite
  | timecmpWrite => exact RoundTrip.timecmpWrite
  | wdogWrite => exact RoundTrip.wdogWrite
  | mcapWrite => exact RoundTrip.mcapWrite
  | ptbrWrite => exact RoundTrip.ptbrWrite
  | thrankWrite => exact RoundTrip.thrankWrite
  | tttbWrite => exact RoundTrip.tttbWrite
  | mevtWrite => exact RoundTrip.mevtWrite
  | yield => exact RoundTrip.yield
  | waitst => exact RoundTrip.waitst
  | join => exact RoundTrip.join
  | retire => exact RoundTrip.retire
  | eret => exact RoundTrip.eret
  | halt => exact RoundTrip.halt
  | vmodeL => exact RoundTrip.vmodeL
  | vmodeS => exact RoundTrip.vmodeS
  | _ => exact roundTrip_of_none fun _ => rfl

/-- Settles O2: the head of the instruction decodes to it, so its bytes do. -/
theorem encodeThenDecode : Obligations.EncodeThenDecode := by
  intro i sw rest hw hs
  obtain ⟨h, hh⟩ := Option.isSome_iff_exists.1 hs
  obtain ⟨hd, hsw⟩ := roundTrip i sw h hw hh
  have hlen : (encodeBytes i sw).length = h.ext.size := by simp [encodeBytes, encode, hh]
  exact ⟨_, decode_encodeBytes i sw h rest hh hsw hd, rfl, rfl, hlen.symm⟩

/-- The length that LEN announces is one of three (R16). -/
theorem Ext.size_cases (e : Ext) : e.size = 8 ∨ e.size = 12 ∨ e.size = 16 := by cases e <;> simp [Ext.size]

/-- A head that decodes gives a well-formed instruction (R18, checks 4 to 8). -/
theorem wellFormed_of_decodeHead {h : Head} {i : Instr} (hd : decodeHead h = .ok i) : i.wellFormed = true := by
  unfold decodeHead at hd
  split at hd
  · cases hd
  · cases hd
  · split at hd
    · cases hd
      assumption
    · cases hd

/-- Settles O3: a word decodes by its head, once the bytes that LEN announces are there. -/
theorem decodedIsWellFormed : Obligations.DecodedIsWellFormed := by
  intro bs d hd
  unfold decode decodeWord at hd
  split at hd
  · split at hd <;> cases hd
  · next e _ =>
    split at hd
    · cases hd
    · next hfit =>
      split at hd
      · next i hi =>
        cases hd
        exact ⟨wellFormed_of_decodeHead hi, Nat.le_of_not_lt hfit, Ext.size_cases e⟩
      · cases hd

end Sys2Proof.Laws
end

section
/-!
Fetch (R18, R19, R22): what stands at an issue address, and what a turn makes of it.
-/

namespace Sys2Proof.Machine

/-! The issue address. -/

theorem setIssuePc_self (hs : HartState) : setIssuePc hs (issuePc hs) = hs := by
  unfold setIssuePc
  split
  · next hr => simp [issuePc, hr]
  · next a rest hr =>
    have hpc : issuePc hs = a := by simp [issuePc, hr]
    rw [hpc, ← hr]

section

variable {s s' : State} {h : Hart} {hs : HartState}

/-! A turn of a hart that waits behind no marker, by what its fetch finds. -/

theorem fetchIssue_trap {c : Cause} {v : Word} (hp : hs.run.park ≠ .marker)
    (hf : fetch s h hs (issuePc hs) = (.trap (issuePc hs) c v, s')) : fetchIssue s h hs = (raiseIssue s' h hs c v false, none) := by
  simp [fetchIssue, hp, hf, setIssuePc_self]

theorem fetchIssue_instr {pc : Word} {d : Decoded} (hp : hs.run.park ≠ .marker) (hf : fetch s h hs (issuePc hs) = (.instr pc d, s')) :
    fetchIssue s h hs = ({ setHart s' h (setIssuePc hs pc) with cur := h, word := ⟨d.sw, d.first⟩ }, some d.instr) := by
  simp [fetchIssue, hp, hf]

theorem fetchIssue_skip {pc : Word} (hp : hs.run.park ≠ .marker) (hf : fetch s h hs (issuePc hs) = (.skip pc, s')) :
    fetchIssue s h hs = (setHart s' h (setIssuePc hs pc), none) := by
  simp [fetchIssue, hp, hf]

/-! What a fetch finds. -/

theorem fetch_misaligned {pc : Word} (ha : pc &&& 3#64 ≠ 0) : fetch s h hs pc = (.trap pc .ialign pc, s) := if_pos ha

theorem fetch_fault {pc : Word} {c : Cause} (ha : pc &&& 3#64 = 0) (hb : fetchBlock s h hs pc = .fault c) :
    fetch s h hs pc = (.trap pc c pc, s) := by
  simp [fetch, ha, hb]

theorem fetch_block {pc : Word} {b : BitVec 256} (ha : pc &&& 3#64 = 0) (hb : fetchBlock s h hs pc = .block b s') :
    fetch s h hs pc = (scanAt pc b, s') := by
  simp [fetch, ha, hb]

end

/-! The scan of a block. Its fuel is the number of 4-byte positions that are left. -/

theorem decode_nil : decode [] = .error .illenc := by decide

theorem scanBlock_nil (pc : Word) (n : Nat) : scanBlock pc n [] = .skip pc := by cases n <;> rfl

section

variable {pc : Word} {n : Nat} {bs : List Byte}

theorem scanBlock_instr {d : Decoded} (hd : decode bs = .ok d) : scanBlock pc (n + 1) bs = .instr pc d := by
  cases bs with
  | nil => rw [decode_nil] at hd; cases hd
  | cons b bs => simp only [scanBlock, hd]

theorem scanBlock_illenc (hb : bs ≠ []) (hd : decode bs = .error .illenc) :
    scanBlock pc (n + 1) bs = .trap pc .illenc (BitVec.ofNat 64 (leNat (bs.take 4))) := by
  cases bs with
  | nil => exact absurd rfl hb
  | cons b bs => simp only [scanBlock, hd]

theorem scanBlock_illop (hd : decode bs = .error .illop) :
    scanBlock pc (n + 1) bs = .trap pc .illop (BitVec.ofNat 64 (leNat (bs.take 4))) := by
  cases bs with
  | nil => rw [decode_nil] at hd; cases hd
  | cons b bs => simp only [scanBlock, hd]

theorem scanBlock_pad (hd : decode bs = .error .pad) : scanBlock pc (n + 1) bs = scanBlock (pc + 4) n (bs.drop 4) := by
  cases bs with
  | nil => rw [decode_nil] at hd; cases hd
  | cons b bs => simp only [scanBlock, hd]

/-- PAD words are passed over, 4 bytes each (R19). -/
theorem scanBlock_pads {k : Nat} (hp : ∀ j, j < k → decode (bs.drop (4 * j)) = .error .pad) :
    scanBlock pc (n + k) bs = scanBlock (pc + natWord (4 * k)) n (bs.drop (4 * k)) := by
  induction k generalizing pc bs with
  | zero => simp [natWord]
  | succ k ih =>
    have hfirst : decode bs = .error .pad := by simpa using hp 0 k.succ_pos
    have hrest : ∀ j, j < k → decode ((bs.drop 4).drop (4 * j)) = .error .pad := fun j hj => by
      simpa [Nat.mul_add, Nat.add_comm] using hp (j + 1) (Nat.succ_lt_succ hj)
    have hpc : pc + 4 + natWord (4 * k) = pc + natWord (4 * (k + 1)) := by
      simp only [natWord]
      bv_omega
    rw [← Nat.add_assoc, scanBlock_pad hfirst, ih hrest, hpc, List.drop_drop, Nat.mul_succ, Nat.add_comm 4]

end

/-! What stands at an aligned address of a block: `blockFrom` are the bytes from there to the end of the block. -/

def blockFrom (pc : Word) (b : BitVec 256) : List Byte := (leBytes 32 b.toNat).drop (pc.toNat % 32)

theorem length_blockFrom (pc : Word) (b : BitVec 256) : (blockFrom pc b).length = 32 - pc.toNat % 32 := by simp [blockFrom]

theorem blockFrom_ne_nil (pc : Word) (b : BitVec 256) : blockFrom pc b ≠ [] := by
  have := length_blockFrom pc b
  have : pc.toNat % 32 < 32 := Nat.mod_lt _ (by decide)
  exact List.ne_nil_of_length_pos (by omega)

theorem toNat_mod_four {pc : Word} (ha : pc &&& 3#64 = 0) : pc.toNat % 4 = 0 := by
  have h : (pc &&& 3#64).toNat = 0 := by rw [ha]; rfl
  rwa [BitVec.toNat_and, BitVec.toNat_ofNat, show (3 % 2 ^ 64 : Nat) = 2 ^ 2 - 1 from rfl, Nat.and_two_pow_sub_one_eq_mod] at h

section

variable {pc : Word} {b : BitVec 256}

theorem scanAt_illenc (hd : decode (blockFrom pc b) = .error .illenc) :
    scanAt pc b = .trap pc .illenc (BitVec.ofNat 64 (leNat ((blockFrom pc b).take 4))) :=
  scanBlock_illenc (blockFrom_ne_nil pc b) hd

theorem scanAt_illop (hd : decode (blockFrom pc b) = .error .illop) :
    scanAt pc b = .trap pc .illop (BitVec.ofNat 64 (leNat ((blockFrom pc b).take 4))) :=
  scanBlock_illop hd

/-- An instruction stands behind fewer than eight PAD words. -/
theorem scanAt_pads_instr {k : Nat} {d : Decoded} (hp : ∀ j, j < k → decode ((blockFrom pc b).drop (4 * j)) = .error .pad)
    (hd : decode ((blockFrom pc b).drop (4 * k)) = .ok d) : scanAt pc b = .instr (pc + natWord (4 * k)) d := by
  have hne : (blockFrom pc b).drop (4 * k) ≠ [] := fun e => by rw [e, decode_nil] at hd; cases hd
  have hlen : 4 * k < (blockFrom pc b).length := by simpa using hne
  rw [length_blockFrom] at hlen
  obtain ⟨n, hn⟩ : ∃ n, 8 = n + 1 + k := ⟨7 - k, by omega⟩
  change scanBlock pc 8 (blockFrom pc b) = _
  rw [hn, scanBlock_pads hp, scanBlock_instr hd]

theorem scanAt_instr {d : Decoded} (hd : decode (blockFrom pc b) = .ok d) : scanAt pc b = .instr pc d := scanBlock_instr hd

/-- PAD up to the end of the block. -/
theorem scanAt_pads (ha : pc &&& 3#64 = 0)
    (hp : ∀ j, j < (blockFrom pc b).length / 4 → decode ((blockFrom pc b).drop (4 * j)) = .error .pad) :
    scanAt pc b = .skip (pc + natWord (blockFrom pc b).length) := by
  have hlen := length_blockFrom pc b
  have hmod := toNat_mod_four ha
  have hwhole : 4 * ((blockFrom pc b).length / 4) = (blockFrom pc b).length := by omega
  obtain ⟨n, hn⟩ : ∃ n, 8 = n + (blockFrom pc b).length / 4 := ⟨8 - (blockFrom pc b).length / 4, by omega⟩
  change scanBlock pc 8 (blockFrom pc b) = _
  rw [hn, scanBlock_pads hp, hwhole, List.drop_length, scanBlock_nil]

end

/-- An instruction at the PC is the first one not issued (R31). -/
theorem nextPc_of_decode {s s1 : State} {h : Hart} {hs : HartState} {p : Placed} {b : BitVec 256} {d : Decoded}
    (hr : hs.run.replay.todo = []) (ha : hs.pc &&& 3#64 = 0) (ht : translate s h hs.ptbr hs.st.priv hs.pc .exec = .ok p)
    (hc : codeAt s h (.fetch h) (p.pa / 32 * 32) = .block b s1) (hd : decode (blockFrom hs.pc b) = .ok d) : nextPc s h hs = hs.pc := by
  simp [nextPc, hr, padBlocks, skipPads, ha, ht, hc, scanAt_instr hd]

/-- Settles O6: a fetch traps, or the scan of its block finds a refused word, an instruction or nothing but PAD. -/
theorem fetchTraps : Obligations.FetchTraps := by
  intro s h hs hp
  refine ⟨fun ha => ?_, fun c ha hc => ?_, fun b s1 bs ha hb hbs => ?_, fun p b s1 d hr ha ht hc hd => nextPc_of_decode hr ha ht hc hd⟩
  · exact fetchIssue_trap hp (fetch_misaligned ha)
  · exact fetchIssue_trap hp (fetch_fault ha hc)
  · have hf := fetch_block ha hb
    subst hbs
    refine ⟨fun hd => ?_, fun hd => ?_, fun k d hpad hd => ?_, fun hpad => ?_⟩
    · rw [scanAt_illenc hd] at hf
      exact fetchIssue_trap hp hf
    · rw [scanAt_illop hd] at hf
      exact fetchIssue_trap hp hf
    · rw [scanAt_pads_instr hpad hd] at hf
      exact fetchIssue_instr hp hf
    · rw [scanAt_pads ha hpad] at hf
      exact fetchIssue_skip hp hf

end Sys2Proof.Machine
end

section
/-!
A turn in which a hart with a word that decodes does not run it: in migratory mode it may ask for the walk of its next access first (R278).
-/

namespace Sys2Proof.Machine

/-- The page of the boot PC, in an address space with tables of its own. -/
def codePage : TlbEntry := ⟨0, 0x100000, ⟨0x100000, 12, true, true, true, true, false, 0, 0, 0⟩⟩

/-- `LD g1, [g2]`. -/
def roamerLoad : Instr := .ld (.g 1) (.g 2) (.short 0) ⟨.rlx, .strand⟩

/-- A strand in migratory mode that has issued 64 instructions and comes to a load from address 0x300000. -/
def roamer : HartState :=
  { setG bootHart 2 ⟨0x300000, true⟩ with ptbr := ⟨0, 1⟩, migr := true, run := { bootHart.run with issued := 64 } }

/-- The roamer has its turn; the TLB of its core holds the page of its code and not that of its data. -/
def roamerTurn : State :=
  setCore { State.reset with
    mem := memSetBytes [] 0x100000 (encodeBytes roamerLoad false)
    harts := [(.strand 0 0, roamer)]
    agenda := [.issue (.strand 0 0)] } 0 { CoreState.reset with tlb := [codePage] }

/-- The state of the roamer's turn, and what it fetches then. -/
def roamerFetch : BitVec 256 × State := readBlock { roamerTurn with agenda := [] } (.strand 0 0) 0x100000

/-- The PC of the roamer after its turn. -/
def roamerPc (r : Result) : Option Word := match r with
  | .next t => (hartOf t (.strand 0 0)).map (·.pc)
  | _ => none

/-- Refutes O5: a strand in migratory mode whose next access lies in a page that must be walked first asks for that walk in its turn
(`autoWalk`, R278), and does not ship itself. Its load does not issue, and its PC stays. -/
theorem not_stepRunsDecoded : ¬ Obligations.StepRunsDecoded := by
  intro h
  have hrun := h roamerTurn (.strand 0 0) [] roamer roamerFetch.1 roamerFetch.2 ⟨roamerLoad, false, 8, 0x00040981⟩ rfl rfl (by decide)
    (by decide) (by decide) (by decide) rfl (by decide)
  have hwalks : roamerPc (step roamerTurn) = some 0x100000 := by decide
  have hissues : roamerPc (exec roamerLoad
      { setHart roamerFetch.2 (.strand 0 0) roamer with cur := .strand 0 0, word := ⟨false, 0x00040981⟩ }) = some 0x100008 := by decide
  exact absurd (hwalks.symm.trans ((congrArg roamerPc hrun).trans hissues)) (by decide)

end Sys2Proof.Machine
end

section
/-!
When an instruction may issue, and what it meets where it may not (R18, R24, R25, R28): one lemma per check of `ready`, in its order.
-/

namespace Sys2Proof.Machine

/-! The parts of the checks. -/

theorem mem_popPorts {p : Fin 4} {srcs : List Src} : p ∈ popPorts srcs ↔ Src.q p ∈ srcs := by
  simp only [popPorts, List.mem_filterMap]
  constructor
  · rintro ⟨a, ha, hp⟩
    cases a <;> cases hp
    exact ha
  · exact fun hp => ⟨_, hp, rfl⟩

theorem mem_pushPorts {p : Fin 4} {dsts : List Dst} : p ∈ pushPorts dsts ↔ Dst.q p ∈ dsts := by
  simp only [pushPorts, List.mem_filterMap]
  constructor
  · rintro ⟨a, ha, hp⟩
    cases a <;> cases hp
    exact ha
  · exact fun hp => ⟨_, hp, rfl⟩

section

variable {s : State} {h : Hart} {hs : HartState} {n : Need}

/-- The test of check 9: the profile is not the hart's (R206). -/
theorem not_ofProfile_iff :
    ((decide (n.profile = .coreOnly) && isEngine h) || (decide (n.profile = .engineOnly) && !isEngine h)) = true ↔ ¬ ofProfile h n := by
  unfold ofProfile
  cases n.profile <;> cases isEngine h <;> decide

theorem not_receives_iff {p : Fin 4} : (!(portOf hs p).bound || (portOf hs p).out) = true ↔ ¬ receives hs p := by
  unfold receives
  cases (portOf hs p).bound <;> cases (portOf hs p).out <;> decide

theorem not_sends_iff {p : Fin 4} : (!(portOf hs p).bound || !(portOf hs p).out) = true ↔ ¬ sends hs p := by
  unfold sends
  cases (portOf hs p).bound <;> cases (portOf hs p).out <;> decide

/-- A port that is found is the first of the list that has the property. -/
theorem find_eq_first {α : Type} {f : α → Bool} {l r : List α} {a : α} (hl : ∀ x ∈ l, f x = false) (ha : f a = true) :
    (l ++ a :: r).find? f = some a := by
  rw [List.find?_append, List.find?_eq_none.2 fun x hx => by simp [hl x hx], Option.none_or, List.find?_cons_of_pos ha]

theorem find_pops_none {ps : List (Fin 4)} : (ps.find? fun p => !(portOf hs p).bound || (portOf hs p).out) = none ↔ ∀ p ∈ ps, receives hs p := by
  simp only [List.find?_eq_none, not_receives_iff, not_not]

theorem find_pushes_none {ps : List (Fin 4)} : (ps.find? fun p => !(portOf hs p).bound || !(portOf hs p).out) = none ↔ ∀ p ∈ ps, sends hs p := by
  simp only [List.find?_eq_none, not_sends_iff, not_not]

/-- No port is used unbound or against its direction (R217). -/
theorem badPort_eq_none_iff {pops pushes : List (Fin 4)} :
    badPort hs pops pushes = none ↔ (∀ p ∈ pops, receives hs p) ∧ ∀ p ∈ pushes, sends hs p := by
  unfold badPort
  rw [← find_pops_none, ← find_pushes_none]
  split
  · next p hp => simp [hp]
  · next hp => simp [hp]

/-- QUNB names the first port that is not bound in its direction: pops come before pushes. -/
theorem badPort_pop {l r pushes : List (Fin 4)} {p : Fin 4} (hl : ∀ q ∈ l, receives hs q) (hp : ¬ receives hs p) :
    badPort hs (l ++ p :: r) pushes = some p := by
  unfold badPort
  have hfind : ((l ++ p :: r).find? fun p => !(portOf hs p).bound || (portOf hs p).out) = some p :=
    find_eq_first (fun q hq => Bool.eq_false_iff.2 fun hq' => not_receives_iff.1 hq' (hl q hq)) (not_receives_iff.2 hp)
  rw [hfind]

theorem badPort_push {l r pops : List (Fin 4)} {p : Fin 4} (hpops : ∀ q ∈ pops, receives hs q) (hl : ∀ q ∈ l, sends hs q)
    (hp : ¬ sends hs p) : badPort hs pops (l ++ p :: r) = some p := by
  unfold badPort
  rw [find_pops_none.2 hpops]
  exact find_eq_first (fun q hq => Bool.eq_false_iff.2 fun hq' => not_sends_iff.1 hq' (hl q hq)) (not_sends_iff.2 hp)

/-- A register that an instruction reads is empty (R25). -/
def readsEmpty (hs : HartState) (n : Need) : Prop :=
  (∃ r : Fin 16, Src.g r ∈ n.srcs ∧ gFull hs r = false) ∨ ∃ r : Fin 16, r ∈ n.vecs ∧ vecFull hs r = false

theorem any_srcEmpty_iff {srcs : List Src} : srcs.any (srcEmpty hs) = true ↔ ∃ r : Fin 16, Src.g r ∈ srcs ∧ gFull hs r = false := by
  rw [List.any_eq_true]
  constructor
  · rintro ⟨a, ha, he⟩
    cases a with
    | g r => exact ⟨r, ha, by simpa [srcEmpty] using he⟩
    | q p => cases he
    | k r => cases he
  · rintro ⟨r, hr, he⟩
    exact ⟨_, hr, by simp [srcEmpty, he]⟩

theorem readsEmpty_iff : ((n.srcs.any (srcEmpty hs)) || n.vecs.any fun r => !vecFull hs r) = true ↔ readsEmpty hs n := by
  rw [Bool.or_eq_true, any_srcEmpty_iff]
  simp [readsEmpty]

theorem not_readsEmpty_iff : ¬ readsEmpty hs n ↔
    (∀ r : Fin 16, Src.g r ∈ n.srcs → gFull hs r = true) ∧ ∀ r : Fin 16, r ∈ n.vecs → vecFull hs r = true := by
  simp [readsEmpty, not_or]

theorem mem_blockedPorts_iff {p : Fin 4} : p ∈ blockedPorts s h hs (popPorts n.srcs) (pushPorts n.dsts) ↔ portWaits s h hs n p := by
  simp [blockedPorts, portWaits, mem_pushPorts]

/-- Room for the instruction: a place where it takes one, and its own in the window (R28). -/
def hasRoom (hs : HartState) (n : Need) : Prop := (n.place = true → placesUsed hs < 8) ∧ inWindow hs = true

theorem not_hasRoom_iff : ((n.place && decide (8 ≤ placesUsed hs)) || !inWindow hs) = true ↔ ¬ hasRoom hs n := by
  unfold hasRoom
  cases n.place <;> cases inWindow hs <;> simp

/-! The checks of `ready`, in their order. -/

theorem ready_illenc (hi : n.illenc = true) : ready s h hs n = .trap .illenc (firstBits s) := by simp [ready, hi]

theorem ready_engop (hi : n.illenc = false) (hp : ¬ ofProfile h n) : ready s h hs n = .trap .engop (firstBits s) := by
  unfold ready
  simp only [hi, not_ofProfile_iff.2 hp, if_true, Bool.false_eq_true, if_false]

theorem not_privileged_iff :
    (n.refused || (n.supervisor && decide (hs.st.priv = 0))) = true ↔ n.refused = true ∨ (n.supervisor = true ∧ hs.st.priv = 0) := by
  simp

theorem ready_priv (hi : n.illenc = false) (hp : ofProfile h n) (hr : n.refused = true ∨ (n.supervisor = true ∧ hs.st.priv = 0)) :
    ready s h hs n = .trap .priv (firstBits s) := by
  unfold ready
  simp only [hi, not_ofProfile_iff, hp, not_privileged_iff.2 hr, not_true, if_true, Bool.false_eq_true, if_false]

theorem not_admitted_cases (ha : ¬ admitted h hs n) :
    n.illenc = true ∨ (n.illenc = false ∧ ¬ ofProfile h n) ∨
      (n.illenc = false ∧ ofProfile h n ∧ (n.refused = true ∨ (n.supervisor = true ∧ hs.st.priv = 0))) := by
  by_cases hi : n.illenc = true
  · exact .inl hi
  · have hi' : n.illenc = false := Bool.eq_false_iff.2 hi
    by_cases hp : ofProfile h n
    · refine .inr (.inr ⟨hi', hp, ?_⟩)
      by_contra hr
      obtain ⟨href, hsup⟩ := not_or.1 hr
      exact ha ⟨hi', hp, Bool.eq_false_iff.2 href, fun hs' hp' => hsup ⟨hs', hp'⟩⟩
    · exact .inr (.inl ⟨hi', hp⟩)

section

variable (ha : admitted h hs n)
include ha

theorem admitted_checks : n.illenc = false ∧
    ((decide (n.profile = .coreOnly) && isEngine h) || (decide (n.profile = .engineOnly) && !isEngine h)) = false ∧
    (n.refused || (n.supervisor && decide (hs.st.priv = 0))) = false := by
  obtain ⟨hi, hp, hr, hsup⟩ := ha
  refine ⟨hi, Bool.eq_false_iff.2 fun hn => not_ofProfile_iff.1 hn hp, Bool.eq_false_iff.2 fun hn => ?_⟩
  rcases not_privileged_iff.1 hn with hr' | ⟨hs', hp'⟩
  · exact absurd (hr.symm.trans hr') (by decide)
  · exact hsup hs' hp'

theorem ready_qunb {p : Fin 4} (hb : badPort hs (popPorts n.srcs) (pushPorts n.dsts) = some p) :
    ready s h hs n = .trap .qunb (BitVec.ofNat 64 p.val) := by
  obtain ⟨hi, hp, hr⟩ := admitted_checks ha
  unfold ready
  simp only [hi, hp, hr, hb, Bool.false_eq_true, if_false]

variable (hb : badPort hs (popPorts n.srcs) (pushPorts n.dsts) = none)
include hb

theorem ready_reg (he : readsEmpty hs n) : ready s h hs n = .park .reg := by
  obtain ⟨hi, hp, hr⟩ := admitted_checks ha
  unfold ready
  simp only [hi, hp, hr, hb, readsEmpty_iff.2 he, Bool.false_eq_true, if_false, if_true]

variable (he : ¬ readsEmpty hs n)
include he

theorem ready_queue {p : Fin 4} {ps : List (Fin 4)} (hq : blockedPorts s h hs (popPorts n.srcs) (pushPorts n.dsts) = p :: ps) :
    ready s h hs n = .park (.queue (p :: ps)) := by
  obtain ⟨hi, hp, hr⟩ := admitted_checks ha
  unfold ready
  simp only [hi, hp, hr, hb, readsEmpty_iff, he, hq, Bool.false_eq_true, if_false]

variable (hq : blockedPorts s h hs (popPorts n.srcs) (pushPorts n.dsts) = [])
include hq

theorem ready_held (hroom : ¬ hasRoom hs n) : ready s h hs n = .park .held := by
  obtain ⟨hi, hp, hr⟩ := admitted_checks ha
  unfold ready
  simp only [hi, hp, hr, hb, readsEmpty_iff, he, hq, not_hasRoom_iff.2 hroom, Bool.false_eq_true, if_false, if_true]

theorem ready_go (hroom : hasRoom hs n) : ready s h hs n = .go := by
  obtain ⟨hi, hp, hr⟩ := admitted_checks ha
  unfold ready
  simp only [hi, hp, hr, hb, readsEmpty_iff, he, hq, not_hasRoom_iff, hroom, not_true, Bool.false_eq_true, if_false]

end

/-- An instruction issues where it passes every check. -/
theorem ready_go_iff : ready s h hs n = .go ↔ admitted h hs n ∧ badPort hs (popPorts n.srcs) (pushPorts n.dsts) = none ∧
    ¬ readsEmpty hs n ∧ blockedPorts s h hs (popPorts n.srcs) (pushPorts n.dsts) = [] ∧ hasRoom hs n := by
  constructor
  · intro hgo
    have ha : admitted h hs n := by
      by_contra ha
      rcases not_admitted_cases ha with hi | ⟨hi, hp⟩ | ⟨hi, hp, hr⟩
      · cases (ready_illenc hi).symm.trans hgo
      · cases (ready_engop hi hp).symm.trans hgo
      · cases (ready_priv hi hp hr).symm.trans hgo
    have hb : badPort hs (popPorts n.srcs) (pushPorts n.dsts) = none := by
      cases hb : badPort hs (popPorts n.srcs) (pushPorts n.dsts) with
      | none => rfl
      | some p => cases (ready_qunb ha hb).symm.trans hgo
    have he : ¬ readsEmpty hs n := fun he => by cases (ready_reg ha hb he).symm.trans hgo
    have hq : blockedPorts s h hs (popPorts n.srcs) (pushPorts n.dsts) = [] := by
      cases hq : blockedPorts s h hs (popPorts n.srcs) (pushPorts n.dsts) with
      | nil => rfl
      | cons p ps => cases (ready_queue ha hb he hq).symm.trans hgo
    have hroom : hasRoom hs n := by
      by_contra hroom
      cases (ready_held ha hb he hq hroom).symm.trans hgo
    exact ⟨ha, hb, he, hq, hroom⟩
  · rintro ⟨ha, hb, he, hq, hroom⟩
    exact ready_go ha hb he hq hroom

/-- No port keeps an instruction waiting: each holds what is popped of it, and each push can go (R24). -/
theorem blockedPorts_eq_nil_iff : blockedPorts s h hs (popPorts n.srcs) (pushPorts n.dsts) = [] ↔
    (∀ p : Fin 4, (popPorts n.srcs).count p ≤ (portOf hs p).buf.length) ∧ ∀ p : Fin 4, Dst.q p ∈ n.dsts → canPush s h hs p = true := by
  simp only [List.eq_nil_iff_forall_not_mem, mem_blockedPorts_iff, portWaits, not_or, Nat.not_lt, not_and, Bool.not_eq_false, forall_and]

end

/-- Settles O14: `ready` answers `go` where none of its checks fails. -/
theorem issueConditions : Obligations.IssueConditions := by
  intro s h hs n
  rw [ready_go_iff, badPort_eq_none_iff, not_readsEmpty_iff, blockedPorts_eq_nil_iff]
  simp only [admitted, ofProfile, hasRoom, mem_popPorts, mem_pushPorts, receives, sends]
  tauto

/-- Settles O15: each check of `ready`, where those before it are passed. -/
theorem issueRefusals : Obligations.IssueRefusals := by
  intro s h hs n
  refine ⟨ready_illenc, fun hi hp => ready_engop hi fun hof => ?_, ready_priv, fun ha l r p => ⟨fun hsplit hl hp => ?_, fun hpops hsplit hl hp => ?_⟩,
    fun ha hb => ⟨ready_reg ha hb, fun hg hv => ?_⟩⟩
  · rcases hp with ⟨hc, he⟩ | ⟨hc, he⟩
    · exact absurd ((hof.1 hc).symm.trans he) (by decide)
    · exact absurd ((hof.2 hc).symm.trans he) (by decide)
  · exact ready_qunb ha (hsplit ▸ badPort_pop hl hp)
  · exact ready_qunb ha (hsplit ▸ badPort_push hpops hl hp)
  · have he : ¬ readsEmpty hs n := not_readsEmpty_iff.2 ⟨hg, hv⟩
    refine ⟨?_, fun hq hroom => ready_held ha hb he hq fun ⟨hplace, hwin⟩ => ?_⟩
    · rintro ⟨p, hp⟩
      cases hq : blockedPorts s h hs (popPorts n.srcs) (pushPorts n.dsts) with
      | nil => exact absurd (mem_blockedPorts_iff.2 hp) (hq ▸ List.not_mem_nil)
      | cons a ps => exact ⟨a :: ps, ready_queue ha hb he hq, fun k => hq ▸ mem_blockedPorts_iff⟩
    · rcases hroom with ⟨hn, hfull⟩ | hout
      · exact absurd (hplace hn) (Nat.not_lt.2 hfull)
      · exact absurd (hwin.symm.trans hout) (by decide)

end Sys2Proof.Machine
end

section
/-!
Every program instruction is an issue with the needs of its form, and its body leaves memory as it is.
-/

namespace Sys2Proof.Machine

variable {s t : State}

/-! Memory at issue. -/

@[simp] theorem push_mem (s : State) (h : Hart) (hs : HartState) (p : Fin 4) (v : Word) (seq : Nat) : (push s h hs p v seq).mem = s.mem := by
  unfold push
  split <;> rfl

@[simp] theorem writeDst_mem (s : State) (h : Hart) (hs : HartState) (d : Dst) (v : Word) : (writeDst s h hs d v).1.mem = s.mem := by
  cases d with
  | g r => rfl
  | q p => exact push_mem ..

theorem seek_wait_mem {h hs ptbr priv va r} (e : seek s h hs ptbr priv va r = .wait t) : t.mem = s.mem := by
  unfold seek at e
  split at e
  · cases e
  · cases e
  · split at e
    · split at e <;> cases e
      rfl
    · cases e
      rfl

@[simp] theorem translateOp_mem (s : State) (h : Hart) (hs : HartState) (p : Pending) : (translateOp s h hs p).1.mem = s.mem := by
  unfold translateOp
  dsimp only
  split
  · rfl
  · split <;> rfl

@[simp] theorem addMem_mem (s : State) (h : Hart) (hs : HartState) (p : Pending) : (addMem s h hs p).1.mem = s.mem := by
  unfold addMem
  dsimp only
  split
  · rfl
  · exact translateOp_mem ..

@[simp] theorem deliverEvents_mem (s : State) (m : Nat) : (deliverEvents s m).mem = s.mem := by
  unfold deliverEvents
  split
  · rfl
  · split
    · rfl
    · dsimp only
      split <;> rfl

@[simp] theorem orderShip_mem (s : State) (h : Hart) (hs : HartState) (dest reason : Nat) (status : Option Dest) :
    (orderShip s h hs dest reason status).mem = s.mem := by
  cases h <;> rfl

@[simp] theorem enterTrap_mem (s : State) (h : Hart) : (enterTrap s h).mem = s.mem := by
  unfold enterTrap
  split
  · rfl
  · split
    · rfl
    · split <;> rfl

@[simp] theorem raiseIssue_mem (s : State) (h : Hart) (hs : HartState) (c : Cause) (v : Word) (issued : Bool) :
    (raiseIssue s h hs c v issued).mem = s.mem := by
  cases issued
  · exact enterTrap_mem ..
  · exact (enterTrap_mem ..).trans (noteIssue_mem ..)

@[simp] theorem parked_mem (s : State) (h : Hart) (hs : HartState) (p : Park) (need : Option Need) : (parked s h hs p need).mem = s.mem := rfl

/-! Bodies. -/

/-- What an instruction's body gives has the memory of `s`. -/
def Issued.KeepsMem (s : State) : Issued → Prop
  | .done t _ | .jump t _ _ | .final t => t.mem = s.mem
  | .trap _ _ | .trapIssued _ _ | .park _ => True

theorem Issued.keepsMem_both {c : Prop} [Decidable c] {a b : Issued} (ha : a.KeepsMem s) (hb : b.KeepsMem s) :
    (if c then a else b).KeepsMem s := by
  split
  · exact ha
  · exact hb

theorem holdUp_keepsMem {h hs ws k} (hk : Issued.KeepsMem t k) : (holdUp s h hs ws k).KeepsMem t := by
  unfold holdUp
  split
  · trivial
  · exact hk

theorem issueMem_keepsMem {h hs p} (e : t.mem = s.mem) : (issueMem h t hs p).KeepsMem s :=
  Issued.keepsMem_both trivial ((addMem_mem ..).trans e)

theorem placed_keepsMem {h hs va r} {k : Except Cause Placed → Issued} (hk : ∀ q, (k q).KeepsMem s) : (placed s h hs va r k).KeepsMem s := by
  unfold placed
  split
  · exact hk _
  · exact hk _
  · next t e => exact (parked_mem ..).trans (seek_wait_mem e)

theorem migIssue_keepsMem {h hs d va} : (migIssue h s hs d va).KeepsMem s := by
  unfold migIssue
  refine placed_keepsMem fun q => ?_
  split
  · rfl
  · split
    · rfl
    · split
      · rfl
      · exact orderShip_mem ..

theorem giveVec_keepsMem {h hs d v f mask special} : (giveVec h s hs d v f mask special).KeepsMem s :=
  Issued.keepsMem_both rfl (Issued.keepsMem_both trivial (Issued.keepsMem_both (holdUp_keepsMem rfl) rfl))
theorem giveScalar_keepsMem {h hs d v f mask} : (giveScalar h s hs d v f mask).KeepsMem s :=
  Issued.keepsMem_both rfl (Issued.keepsMem_both trivial (writeDst_mem ..))

theorem mxBody_keepsMem {h tiles bad c4 ahead} {k : Nat → CoreState → Issued} (hk : ∀ c cs, (k c cs).KeepsMem s) :
    (mxBody h s tiles bad c4 ahead k).KeepsMem s := by
  refine holdUp_keepsMem ?_
  split
  · trivial
  · split
    · trivial
    · exact holdUp_keepsMem (hk _ _)

theorem mxPlain_keepsMem {h hs tiles bad c4 scale op} : (mxPlain h s hs tiles bad c4 scale op).KeepsMem s := mxBody_keepsMem fun _ _ => rfl
theorem mxMemory_keepsMem {h hs tiles bad ahead op} {p : CoreState → Pending} : (mxMemory h s hs tiles bad ahead op p).KeepsMem s :=
  mxBody_keepsMem fun _ _ => issueMem_keepsMem rfl

theorem tshapeBody_keepsMem {h hs t w} : (tshapeBody h s hs t w).KeepsMem s := by
  refine holdUp_keepsMem ?_
  split
  · trivial
  · split
    · trivial
    · refine holdUp_keepsMem ?_
      split <;> rfl

/-! Instructions, by the shape of their meaning. -/

/-- An answer is that of an issue that needs `n`, of a body that leaves memory as it is. -/
def IssuesWith (r : Result) (s : State) (n : Need) : Prop :=
  ∃ (size : Nat) (body : Hart → State → HartState → List Word → Issued),
    r = issue s size n body ∧ ∀ hs vals, (body s.cur s hs vals).KeepsMem s

theorem issue_with {size n} {body : Hart → State → HartState → List Word → Issued} (h : ∀ hs vals, (body s.cur s hs vals).KeepsMem s) :
    IssuesWith (issue s size n body) s n := ⟨size, body, rfl, h⟩

theorem transfer_with {size srcs link taken target} : IssuesWith (transfer size srcs link taken target s) s { srcs := srcs } := by
  refine issue_with fun hs vals => ?_
  dsimp only
  split
  · split
    · trivial
    · split
      · trivial
      · cases link <;> rfl
  · rfl

theorem condBranch_with {a o c} : IssuesWith (condBranch a o c s) s { srcs := [a] } := transfer_with
theorem scalarOp_with {size d srcs f} : IssuesWith (scalarOp size d srcs f s) s { srcs := srcs, dsts := [d] } :=
  issue_with fun _ _ => writeDst_mem ..
theorem aluRR_with {d a b f} : IssuesWith (aluRR d a b f s) s { srcs := [a, b], dsts := [d] } := scalarOp_with
theorem aluRI_with {d a i f} : IssuesWith (aluRI d a i f s) s { srcs := [a], dsts := [d] } := scalarOp_with
theorem aluR_with {d a f} : IssuesWith (aluR d a f s) s { srcs := [a], dsts := [d] } := scalarOp_with
theorem laterOp_with {d srcs f} : IssuesWith (laterOp d srcs f s) s { srcs := srcs, dsts := [d], place := true } := issue_with fun _ _ => rfl
theorem loadInstr_with {n signed d base disp m} :
    IssuesWith (loadInstr n signed d base disp m s) s { srcs := [base], dsts := [d], place := true } := issue_with fun _ _ => issueMem_keepsMem rfl
theorem windowLoad_with {n signed kind d off disp c m} :
    IssuesWith (windowLoad n signed kind d off disp c m s) s { srcs := [off], dsts := [d], place := true } :=
  issue_with fun _ _ => issueMem_keepsMem rfl
theorem storeInstr_with {n base data disp m} : IssuesWith (storeInstr n base data disp m s) s { srcs := [base, data] } :=
  issue_with fun _ _ => issueMem_keepsMem rfl
theorem windowStore_with {n kind off data disp c m} : IssuesWith (windowStore n kind off data disp c m s) s { srcs := [off, data] } :=
  issue_with fun _ _ => issueMem_keepsMem rfl
theorem cacheOp_with {op base disp sc} : IssuesWith (cacheOp op base disp sc s) s { srcs := [base] } :=
  issue_with fun _ _ => issueMem_keepsMem rfl
theorem atomicInstr_with {fn d base b c disp w32 m} :
    IssuesWith (atomicInstr fn d base b c disp w32 m s) s { srcs := [base, b] ++ c.toList, dsts := [d], place := true } :=
  issue_with fun _ _ => issueMem_keepsMem rfl

theorem prefetch_with {own base disp} : IssuesWith (prefetch own base disp s) s { srcs := [base] } :=
  issue_with fun _ _ => placed_keepsMem fun q => by
    split
    · split <;> rfl
    · rfl

theorem floatInstr_with {d vs f rnd special g rounded} :
    IssuesWith (floatInstr d vs f rnd special g rounded s) s (vecNeed s vs [f] (decide (1 < vs.length)) special [] []) :=
  issue_with fun _ _ => giveVec_keepsMem
theorem specialInstr_with {d a f g} : IssuesWith (specialInstr d a f g s) s (vecNeed s [a] [f.fmt] false true [] []) := floatInstr_with
theorem bitsInstr_with {d a b f g} : IssuesWith (bitsInstr d a b f g s) s (vecNeed s [a, b] [f] true false [] []) :=
  issue_with fun _ _ => giveVec_keepsMem
theorem compareInstr_with {d a b f fg ig} : IssuesWith (compareInstr d a b f fg ig s) s (vecNeed s [a, b] [f] true false [] []) :=
  issue_with fun _ _ => giveVec_keepsMem

theorem extremeInstr_with {d a f fg ig} : IssuesWith (extremeInstr d a f fg ig s) s (vecNeed s [a] [f] false false [] [d]) :=
  issue_with fun _ _ => by
    dsimp only
    split <;> exact giveScalar_keepsMem

theorem rngInstr_with {d key ctr f g} : IssuesWith (rngInstr d key ctr f g s) s (vecNeed s [] [f] false false [key, ctr] []) :=
  issue_with fun _ _ => giveVec_keepsMem
theorem mtsStrand_with {a supervisor f} : IssuesWith (mtsStrand a supervisor f s) s { srcs := [a], supervisor := supervisor } :=
  issue_with fun _ _ => rfl
theorem mtsCore_with {a supervisor ws f} :
    IssuesWith (mtsCore a supervisor ws f s) s { srcs := [a], supervisor := supervisor, profile := .coreOnly } :=
  issue_with fun _ _ => holdUp_keepsMem rfl
theorem mtsModule_with {a} {f : State → Hart → Word → State} (hf : ∀ h x, (f s h x).mem = s.mem) :
    IssuesWith (mtsModule a f s) s { srcs := [a], supervisor := true } := issue_with fun _ _ => hf ..
theorem invalidate_with {srcs f} : IssuesWith (invalidate srcs f s) s { srcs := srcs, profile := .coreOnly, supervisor := true } :=
  issue_with fun _ _ => holdUp_keepsMem rfl
theorem sliceRead_with {col d t idx start f} : IssuesWith (sliceRead col d t idx start f s) s (mxNeed s [idx] true false) :=
  issue_with fun _ _ => mxBody_keepsMem fun _ _ => rfl
theorem sliceWrite_with {col t a idx start f} :
    IssuesWith (sliceWrite col t a idx start f s) s { mxNeed s [idx] false false with vecs := [a] } :=
  issue_with fun _ _ => mxPlain_keepsMem

theorem spawnInstr_with {size d entry arg target} :
    IssuesWith (spawnInstr size d entry arg target s) s { srcs := [entry, arg], dsts := [d], profile := .coreOnly, place := true } :=
  issue_with fun hs _ => by
    dsimp only
    split
    · rfl
    · split
      · trivial
      · rfl

/-! Instructions with a meaning of their own. -/

/-- What an instruction needs is what its form says, when it has one. -/
theorem needs {r : Result} {o : Option Form} {n : Need} (h : IssuesWith r s n) (hn : (o.map Form.need).getD n = n) :
    ∃ n, (o.map Form.need).getD n = n ∧ IssuesWith r s n := ⟨n, hn, h⟩

theorem execTfwd_with {d base t disp m} :
    ∃ n, ((programForm s (.tfwd d base t disp m)).map Form.need).getD n = n ∧ IssuesWith (execTfwd d base t disp m s) s n := by
  delta execTfwd
  cases t <;> exact needs (issue_with fun _ _ => issueMem_keepsMem rfl) rfl

theorem execTshape_with {t w} :
    ∃ n, ((programForm s (.tshape t w)).map Form.need).getD n = n ∧ IssuesWith (execTshape t w s) s n := by
  delta execTshape
  cases w <;> exact needs (issue_with fun _ _ => tshapeBody_keepsMem) rfl

theorem execSpawn_with {d entry arg c} :
    ∃ n, ((programForm s (.spawn d entry arg c)).map Form.need).getD n = n ∧ IssuesWith (execSpawn d entry arg c s) s n := by
  delta execSpawn
  cases c <;> exact needs spawnInstr_with rfl

theorem execMts_with {r a} :
    ∃ n, ((programForm s (.mts r a)).map Form.need).getD n = n ∧ IssuesWith (execMts r a s) s n := by
  delta execMts
  cases r with
  | time => exact needs (issue_with fun _ _ => rfl) rfl
  | _ => exact needs mtsStrand_with rfl

theorem execMfs_with {d r} : IssuesWith (execMfs d r s) s
    { dsts := [d], supervisor := sysPrivileged r, profile := if sysOfCore r then .coreOnly else .any, place := sysVariable r } :=
  issue_with fun _ _ => Issued.keepsMem_both rfl ((writeDst_mem ..).trans (by split <;> rfl))

theorem execVext_with {d a lane f} : IssuesWith (execVext d a lane f s) s
    (vecLaneForm.laneNeed s (vecNeed s [a] [f] false false [] [d]) f lane) := by
  unfold execVext
  extract_lets n
  exact issue_with fun _ _ => giveScalar_keepsMem

theorem execVins_with {d a b lane f} : IssuesWith (execVins d a b lane f s) s
    (vecLaneForm.laneNeed s (vecNeed s [a] [f] false false [b] []) f lane) := by
  unfold execVins
  extract_lets n
  exact issue_with fun _ _ => giveVec_keepsMem

theorem execMmau_with {d a b scsel scen} : IssuesWith (execMmau d a b scsel scen s) s (mxNeed s [a] false false) :=
  issue_with fun _ _ => by
    dsimp only
    split
    · next e => exact holdUp_keepsMem (e ▸ mxPlain_keepsMem)
    · exact mxPlain_keepsMem

theorem execQsndNb_with {d port b m} :
    IssuesWith (execQsndNb d port b m s) s { srcs := [b], dsts := [d], profile := .coreOnly } :=
  issue_with fun _ _ => Issued.keepsMem_both trivial (Issued.keepsMem_both ((writeDst_mem ..).trans (push_mem ..)) (writeDst_mem ..))

theorem execNbinit_with {a b n} : IssuesWith (execNbinit a b n s) s { srcs := [a, b], profile := .coreOnly } :=
  issue_with fun _ _ => by
    dsimp only
    split
    · trivial
    · exact Issued.keepsMem_both trivial rfl

theorem execNbarr_with {d a n} : IssuesWith (execNbarr d a n s) s { srcs := [a], dsts := [d], profile := .coreOnly, place := true } :=
  issue_with fun _ _ => by
    dsimp only
    split
    · trivial
    · exact Issued.keepsMem_both trivial rfl

theorem execNbwait_with {d a b n} :
    IssuesWith (execNbwait d a b n s) s { srcs := [a, b], dsts := [d], profile := .coreOnly, place := true } :=
  issue_with fun _ _ => by
    split
    · trivial
    · rfl

theorem execWdogWrite_with {a} : IssuesWith (execWdogWrite a s) s { srcs := [a], supervisor := true, profile := .coreOnly } :=
  issue_with fun _ _ => List.foldlRecOn (motive := fun t : State => t.mem = s.mem) _ _ rfl fun t ht _ _ => by
    split
    · exact ht
    · exact ht

theorem execMevtWrite_with {a} : IssuesWith (execMevtWrite a s) s { srcs := [a], supervisor := true } :=
  issue_with fun _ _ => deliverEvents_mem ..

theorem execVmodeL_with : IssuesWith (execVmodeL s) s { profile := .coreOnly } :=
  issue_with fun _ _ => Issued.keepsMem_both trivial (Issued.keepsMem_both rfl (Issued.keepsMem_both rfl rfl))

theorem execEret_with : IssuesWith (execEret s) s { profile := .coreOnly, supervisor := true } :=
  issue_with fun _ _ => noteIssue_mem ..

/-- Every program instruction but RETIRE issues: it needs what its form says, and its body leaves memory as it is. -/
theorem exec_with {i : Instr} (hi : (i.head false).isSome = true) (hr : i ≠ .retire) :
    ∃ n, ((programForm s i).map Form.need).getD n = n ∧ IssuesWith (exec i s) s n := by
  delta exec
  cases i with
  | add | sub | mul | mulhs | and | or | xor | andn | shl | shr | sar | rol | ror | min | max | minn | maxn | mulhn | cmpeq | cmpne |
    cmplt | cmple | cmpltn | cmplen | bins | rng | rngf32 | rngf64 =>
    exact needs aluRR_with rfl
  | addImm | subImm | mulImm | mulhsImm | andImm | orImm | xorImm | andnImm | shlImm | shrImm | sarImm | rolImm | rorImm | minImm | maxImm
    | minnImm | maxnImm | mulhnImm | cmpeqImm | cmpneImm | cmpltImm | cmpleImm | cmpltnImm | cmplenImm =>
    exact needs aluRI_with rfl
  | sel => exact needs scalarOp_with rfl
  | bext | bexts | clz | ctz | popc | brev | bswap => exact needs aluR_with rfl
  | div | divn | rem | remn => exact needs laterOp_with rfl
  | br | call | jr | callr | ret => exact needs transfer_with rfl
  | bz | bnz | bltz | bgez => exact needs condBranch_with rfl
  | ldN8 | ldN16 | ldN32 | ld | ldS8 | ldS16 | ldS32 => exact needs loadInstr_with rfl
  | windowLdN8 | windowLdN16 | windowLdN32 | windowLd | windowLdS8 | windowLdS16 | windowLdS32 => exact needs windowLoad_with rfl
  | stN8 | stN16 | stN32 | st => exact needs storeInstr_with rfl
  | windowStN8 | windowStN16 | windowStN32 | windowSt => exact needs windowStore_with rfl
  | pref | prefw => exact needs prefetch_with rfl
  | cflush | cinval => exact needs cacheOp_with rfl
  | swap | cas | aadd | aand | aor | axor | amin | amax | aminn | amaxn | afadd => exact needs atomicInstr_with rfl
  | vadd | vsub | vmul | vdiv | vmin | vmax | vabs | vneg | vsqrt | vfma | vfms | vfnma | vfnms => exact needs floatInstr_with rfl
  | viadd | visub | vimul | vand | vor | vxor | vshl | vshr | vsar | viadds => exact needs bitsInstr_with rfl
  | vcmpeq | vcmplt | vcmple => exact needs compareInstr_with rfl
  | vrmin | vrmax => exact needs extremeInstr_with rfl
  | vexp2 | vlog2 | vrcp | vrsq | vtanh => exact needs specialInstr_with rfl
  | vrng | vrngf32 | vrngf64 => exact needs rngInstr_with rfl
  | trowv | tcolv => exact needs sliceRead_with rfl
  | vtrow | vtcol => exact needs sliceWrite_with rfl
  | tlbinvPg | tlbinvAll => exact needs invalidate_with rfl
  | sstatWrite | fpctlWrite | timecmpWrite => exact needs mtsStrand_with rfl
  | cbselWrite | tshapeWrite | tdirtyWrite | mcapWrite => exact needs mtsCore_with rfl
  | putr | ldl | ldbit | stZ | windowStZ | stbit | take | put | peek | tdecl | tundecl | reddecl | redAdd | redRd | binit | barv | bwait |
    btest | propose | dread | dcell | vld | vst | vgath | vscat | tpost | glaunch =>
    exact needs (issue_with fun _ _ => issueMem_keepsMem rfl) rfl
  | recycle | vbdec | mcmd => exact needs (issue_with fun _ _ => holdUp_keepsMem (issueMem_keepsMem rfl)) rfl
  | fncHv | ptbrWrite => exact needs (issue_with fun _ _ => holdUp_keepsMem rfl) rfl
  | fncLt | kick | twait => exact needs (issue_with fun _ _ => rfl) rfl
  | fnc | bcast => exact needs (issue_with fun _ _ => Issued.keepsMem_both rfl rfl) rfl
  | wait | waitst | join => exact needs (issue_with fun _ _ => Issued.keepsMem_both rfl trivial) rfl
  | halt | vmodeS => exact needs (issue_with fun _ _ => Issued.keepsMem_both trivial rfl) rfl
  | qbind => exact needs (issue_with fun _ _ => Issued.keepsMem_both rfl trivial) rfl
  | bcopy => exact needs (issue_with fun _ _ => Issued.keepsMem_both (issueMem_keepsMem rfl) rfl) rfl
  | trap | ecall => exact needs (issue_with fun _ _ => trivial) rfl
  | mig => exact needs (issue_with fun _ _ => migIssue_keepsMem) rfl
  | vsel | vperm | vbcast | vcvt | vnarrow => exact needs (issue_with fun _ _ => giveVec_keepsMem) rfl
  | qstat | isfull => exact needs (issue_with fun _ _ => writeDst_mem ..) rfl
  | tzero | mma | mmar => exact needs (issue_with fun _ _ => mxPlain_keepsMem) rfl
  | tld | tldBlk | tst | cbload | msave | mrestore | tsave | trst => exact needs (issue_with fun _ _ => mxMemory_keepsMem) rfl
  | thrankWrite | tttbWrite => exact needs (mtsModule_with fun _ _ => rfl) rfl
  | empty r => exact needs (issue_with fun _ _ => by cases r <;> rfl) rfl
  | fill r => exact needs (issue_with fun _ _ => by cases r <;> rfl) rfl
  | isync => exact needs (issue_with fun _ _ => holdUp_keepsMem (by split <;> rfl)) rfl
  | tfwd => exact execTfwd_with
  | vext => exact needs execVext_with rfl
  | vins => exact needs execVins_with rfl
  | vrsum => exact needs (issue_with fun _ _ => Issued.keepsMem_both giveScalar_keepsMem giveScalar_keepsMem) rfl
  | vbenc => exact needs (issue_with fun _ _ => Issued.keepsMem_both trivial
      (Issued.keepsMem_both (issueMem_keepsMem rfl) (issueMem_keepsMem rfl))) rfl
  | tshape => exact execTshape_with
  | mmau => exact needs execMmau_with rfl
  | mucode => exact needs (issue_with fun _ _ => Issued.keepsMem_both (holdUp_keepsMem rfl) trivial) rfl
  | spawn => exact execSpawn_with
  | qsndNb => exact needs execQsndNb_with rfl
  | nbinit => exact needs execNbinit_with rfl
  | nbarr => exact needs execNbarr_with rfl
  | nbwait => exact needs execNbwait_with rfl
  | mfs => exact needs execMfs_with rfl
  | mts => exact execMts_with
  | wdogWrite => exact needs execWdogWrite_with rfl
  | mevtWrite => exact needs execMevtWrite_with rfl
  | yield => exact needs (issue_with fun _ _ => by cases s.cur <;> rfl) rfl
  | eret => exact needs execEret_with rfl
  | vmodeL => exact needs execVmodeL_with rfl
  | retire => exact absurd rfl hr
  | _ => cases hi

/-! What the forms say of issue. -/

/-- An instruction with a form is a program instruction. -/
theorem program_of_form (s : State) (i : Instr) : ((i.head false).isSome || !(programForm s i).isSome) = true := by
  cases i with
  | tfwd d base t => cases t <;> rfl
  | tshape t w => cases w <;> rfl
  | _ => rfl

/-- An instruction with a form needs what the form says. -/
theorem exec_formWith {i : Instr} {f : Form} (hf : programForm s i = some f) : IssuesWith (exec i s) s f.need := by
  have hi : (i.head false).isSome = true := by simpa [hf] using program_of_form s i
  have hr : i ≠ .retire := by
    rintro rfl
    cases hf
  obtain ⟨n, hn, h⟩ := exec_with hi hr
  rw [hf] at hn
  exact (show f.need = n from hn) ▸ h

/-- An answer of an issue whose body leaves memory as it is has the memory of the state before. -/
theorem IssuesWith.keepsMem {r : Result} {n : Need} (h : IssuesWith r s n) (hr : r = .next t) : t.mem = s.mem := by
  obtain ⟨size, body, rfl, hb⟩ := h
  cases hh : hartOf s s.cur with
  | none => simp [issue, hh] at hr
  | some hs =>
    cases hg : ready s s.cur hs n with
    | park p => rw [issue_park hh hg] at hr; cases hr; rfl
    | trap c v => rw [issue_trap hh hg] at hr; cases hr; exact raiseIssue_mem ..
    | go =>
      have hk := hb (readSrcs s.cur n.srcs hs).2 (readSrcs s.cur n.srcs hs).1
      cases hbody : body s.cur s (readSrcs s.cur n.srcs hs).2 (readSrcs s.cur n.srcs hs).1 <;> rw [hbody] at hk
      case done s' hs' => rw [issue_done hh hg hbody] at hr; cases hr; exact (completed_mem ..).trans hk
      case jump s' hs' v => rw [issue_jump hh hg hbody] at hr; cases hr; exact (jumped_mem ..).trans hk
      case final s' => rw [issue_final hh hg hbody] at hr; cases hr; exact hk
      case park p => rw [issue_body_park hh hg hbody] at hr; cases hr; rfl
      case trap c v => rw [issue_body_trap hh hg hbody] at hr; cases hr; exact raiseIssue_mem ..
      case trapIssued c v => rw [issue_body_trapIssued hh hg hbody] at hr; cases hr; exact raiseIssue_mem ..

theorem sameMemory_of_mem_eq (h : t.mem = s.mem) : sameMemory s t := fun a => by rw [h]

/-- Settles O13: every body of a program instruction but RETIRE's leaves memory alone, and so do parking, trapping and completing. -/
theorem issueKeepsMemory : Obligations.IssueKeepsMemory := by
  intro i s t hi hr he
  obtain ⟨n, -, h⟩ := exec_with (s := s) hi hr
  exact sameMemory_of_mem_eq (h.keepsMem he)

/-- Settles O16: an instruction with a form is an issue with its needs, and an issue that is not ready parks. -/
theorem waitsUnissued : Obligations.WaitsUnissued := by
  intro i s f hs p hf hh hp
  obtain ⟨size, body, he, -⟩ := exec_formWith hf
  rw [he]
  exact issue_park hh hp

end Sys2Proof.Machine
end

section
/-!
Entering a trap: when it happens, the handler's state, and what RPLY and TPC say of the marked instructions. Returning from one.
-/

namespace Sys2Proof.Machine

variable {s : State} {h : Hart} {hs : HartState} {c : Cause} {v : Word}

/-! When a trap is entered. -/

/-- An engine, and a strand with results outstanding, do not enter a handler. -/
theorem enterTrap_stays (hh : hartOf s h = some hs) (hn : isEngine h = true ∨ clean hs = false) : enterTrap s h = s := by
  rcases hn with hn | hn <;> simp [enterTrap, hh, hn]

/-- The oldest fault goes before a trap that is due (R31). -/
theorem enterTrap_fault (hh : hartOf s h = some hs) (he : isEngine h = false) (hr : hs.run.halted = false) (hc : clean hs = true)
    (hf : oldestFault hs = some (c, v)) :
    enterTrap s h = setHart (withdraw s hs.id.uid) h (recordTrap hs c v (nextPc s h hs) false) := by
  simp [enterTrap, hh, he, hr, hc, hf]

/-- Without a fault the trap that is due is entered (R34). -/
theorem enterTrap_due (hh : hartOf s h = some hs) (he : isEngine h = false) (hr : hs.run.halted = false) (hc : clean hs = true)
    (hf : oldestFault hs = none) (hd : hs.run.due = some (c, v, false)) :
    enterTrap s h = setHart (withdraw s hs.id.uid) h (recordTrap hs c v (nextPc s h hs) false) := by
  simp [enterTrap, hh, he, hr, hc, hf, hd]

@[simp] theorem hartOf_withdraw (s : State) (uid : Nat) (h : Hart) : hartOf (withdraw s uid) h = hartOf s h := rfl

/-! A hart to which a trap is due. -/

/-- The hart with a trap due, which issues no more. -/
def withDue (hs : HartState) (c : Cause) (v : Word) : HartState := { hs with run := { hs.run with due := some (c, v, false), park := .ready } }

/-- The system and the hart in which a trap at issue is entered. -/
theorem raiseIssue_eq_enterTrap (s : State) (h : Hart) (hs : HartState) (c : Cause) (v : Word) :
    raiseIssue s h hs c v false = enterTrap (setHart s h (withDue hs c v)) h := rfl

theorem nextPc_withDue (s : State) (h k : Hart) (x hs : HartState) (c : Cause) (v : Word) :
    nextPc (setHart s k x) h (withDue hs c v) = nextPc s h hs := by
  rw [nextPc_setHart]
  exact if_congr Iff.rfl (skipPads_run ..) rfl

/-- Outside a handler the recording enters it. -/
theorem inHandler_recordTrap (hr : hs.run.halted = false) (ht : hs.st.tip = false) (tres : Word) :
    inHandler hs (recordTrap hs c v tres false) ((0 : BitVec 1) ++ c.code) v tres := by
  simp only [recordTrap, ht, Bool.false_eq_true, if_false]
  exact ⟨rfl, rfl, rfl, rfl, rfl, rfl, rfl, rfl, rfl, rfl, rfl, rfl, hr, rfl⟩

/-- An instruction that fails a check and whose strand may trap enters the handler. -/
theorem raiseIssue_inHandler (he : isEngine h = false) (hm : mayTrap hs) :
    ∃ hs' : HartState, hartOf (raiseIssue s h hs c v false) h = some hs' ∧ inHandler hs hs' ((0 : BitVec 1) ++ c.code) v (nextPc s h hs) ∧
      otherHarts s (raiseIssue s h hs c v false) h := by
  obtain ⟨hr, ht, hc, hf⟩ := hm
  have hd : hartOf (setHart s h (withDue hs c v)) h = some (withDue hs c v) := hartOf_setHart ..
  have e : raiseIssue s h hs c v false = setHart (withdraw (setHart s h (withDue hs c v)) hs.id.uid) h
      (recordTrap (withDue hs c v) c v (nextPc s h hs) false) := by
    rw [raiseIssue_eq_enterTrap, enterTrap_due hd he hr hc hf rfl, nextPc_withDue]
    rfl
  rw [e]
  refine ⟨_, hartOf_setHart .., ?_, fun k hk => ?_⟩
  · exact inHandler_recordTrap (hs := withDue hs c v) hr ht _
  · rw [hartOf_setHart_other _ _ _ _ hk, hartOf_withdraw, hartOf_setHart_other _ _ _ _ hk]

/-- Settles O17: an instruction that fails a check raises its cause, which the strand enters, or has due. -/
theorem trapsAtIssue : Obligations.TrapsAtIssue := by
  intro i s f hs cause v hf hh hr
  obtain ⟨size, body, he, -⟩ := exec_formWith hf
  have hx : exec i s = .next (raiseIssue s s.cur hs cause v false) := he.trans (issue_trap hh hr)
  have hd : hartOf (setHart s s.cur (withDue hs cause v)) s.cur = some (withDue hs cause v) := hartOf_setHart ..
  have stays (hn : isEngine s.cur = true ∨ clean hs = false) : exec i s = .next (trapRaised s s.cur hs cause v false) := by
    rw [hx, raiseIssue_eq_enterTrap, enterTrap_stays hd hn]
    rfl
  refine ⟨fun hc hm => ?_, fun _ hn => stays (.inr hn), fun hn => stays (.inl hn)⟩
  obtain ⟨hs', h1, h2, h3⟩ := raiseIssue_inHandler (s := s) (c := cause) (v := v) hc hm
  exact ⟨_, hs', hx, h1, h2, sameMemory_of_mem_eq (raiseIssue_mem ..), h3⟩

/-! The marked instructions (R31). -/

theorem minAddr_mem {as : List Word} (h : as ≠ []) : minAddr as ∈ as := by
  induction as with
  | nil => exact absurd rfl h
  | cons a rest ih =>
    cases rest with
    | nil => exact List.mem_singleton.2 rfl
    | cons b rest =>
      simp only [minAddr]
      split
      · exact List.mem_cons_self
      · exact List.mem_cons_of_mem _ (ih (List.cons_ne_nil _ _))

theorem minAddr_le {as : List Word} {a : Word} (h : a ∈ as) : (minAddr as).toNat ≤ a.toNat := by
  induction as with
  | nil => cases h
  | cons b rest ih =>
    cases rest with
    | nil => exact (congrArg BitVec.toNat (List.mem_singleton.1 h)).ge
    | cons c rest =>
      simp only [minAddr]
      rcases List.mem_cons.1 h with rfl | h
      · split
        · exact le_rfl
        · omega
      · have := ih h
        split <;> omega

/-- A bit of a mask of positions is set where an address has that position. -/
theorem posMask_getLsbD (base : Word) (as : List Word) {k : Nat} (hk : k < 64) :
    (posMask base as).getLsbD k = as.any fun a => (a - base).toNat / 4 == k := by
  have go (m : Word) : (as.foldl (fun (m : Word) a => m ||| ((1 <<< ((a - base).toNat / 4) : Nat) : Word)) m).getLsbD k =
      (m.getLsbD k || as.any fun a => (a - base).toNat / 4 == k) := by
    induction as generalizing m with
    | nil => simp
    | cons a rest ih =>
      have hbit : ((1 <<< ((a - base).toNat / 4) : Nat) : Word).getLsbD k = ((a - base).toNat / 4 == k) := by
        rw [BitVec.natCast_eq_ofNat, BitVec.getLsbD_ofNat, Nat.one_shiftLeft, Nat.testBit_two_pow]
        simp only [hk, decide_true, Bool.true_and, beq_eq_decide]
      rw [List.foldl_cons, ih, BitVec.getLsbD_or, hbit, List.any_cons, Bool.or_assoc]
  simpa [posMask] using go 0

/-- The position of an address at or above the base. -/
theorem toNat_sub_base {a base : Word} (h : base.toNat ≤ a.toNat) : (a - base).toNat = a.toNat - base.toNat :=
  BitVec.toNat_sub_of_le h

/-- A mask from the least of its addresses names each of them in its reach, and the least itself. -/
theorem posMask_minAddr {as : List Word} {a : Word} (h : a ∈ as) (hk : a.toNat < (minAddr as).toNat + 256) :
    (posMask (minAddr as) as).getLsbD ((a.toNat - (minAddr as).toNat) / 4) = true := by
  rw [posMask_getLsbD _ _ (by omega)]
  exact List.any_eq_true.2 ⟨a, h, by rw [toNat_sub_base (minAddr_le h)]; exact beq_self_eq_true _⟩

theorem posMask_minAddr_ne_zero {as : List Word} (h : as ≠ []) : posMask (minAddr as) as ≠ 0 := by
  intro e
  have hm := posMask_minAddr (minAddr_mem h) (by omega)
  rw [e] at hm
  simp at hm

/-- A faulting operation is marked. -/
theorem mem_markOps_of_isFaulted {stop : Bool} {ps : List Pending} {p : Pending} (hp : p ∈ ps) (hf : p.isFaulted = true)
    (acc : List Pending) (sf : Bool) : p ∈ markOps stop acc sf ps := by
  induction ps generalizing acc sf with
  | nil => cases hp
  | cons q rest ih =>
    rw [markOps]
    rcases List.mem_cons.1 hp with rfl | hp
    · simp [hf]
    · split
      · exact List.mem_cons_of_mem _ (ih hp _ _)
      · exact ih hp _ _

theorem mem_marks_of_isFaulted {p : Pending} (hp : p ∈ hs.run.ops) (hf : p.isFaulted = true) : p ∈ marks hs := mem_markOps_of_isFaulted hp hf _ _

/-- The addresses that a trap marks. -/
def markedAddrs (hs : HartState) : List Word := (marks hs).map (·.pc) ++ hs.run.cancelled ++ hs.run.replay.todo

theorem replayRecord_base (hs : HartState) : (replayRecord hs).1 = minAddr (markedAddrs hs) := rfl
theorem replayRecord_mask (hs : HartState) : (replayRecord hs).2.1 = posMask (minAddr (markedAddrs hs)) (markedAddrs hs) := rfl

theorem pc_mem_markedAddrs {p : Pending} (hp : p ∈ hs.run.ops) (hf : p.isFaulted = true) : p.pc ∈ markedAddrs hs :=
  List.mem_append_left _ (List.mem_append_left _ (List.mem_map.2 ⟨p, mem_marks_of_isFaulted hp hf, rfl⟩))

/-- Settles O48: the oldest fault is entered, TPC is the least marked address, and the mask counts from it. -/
theorem memoryFaultTrap : Obligations.MemoryFaultTrap := by
  intro s c n hs cause v hh hr ht hc hf
  have e := enterTrap_fault (h := .strand c n) hh rfl hr hc hf
  have hin := inHandler_recordTrap (hs := hs) (c := cause) (v := v) hr ht (nextPc s (.strand c n) hs)
  refine ⟨enterTrap s (.strand c n), recordTrap hs cause v (nextPc s (.strand c n) hs) false, rfl, ?_, hin,
    sameMemory_of_mem_eq (enterTrap_mem ..), fun k hk => ?_, fun p hp hfp => ?_⟩
  · rw [e]
    exact hartOf_setHart ..
  · rw [e, hartOf_setHart_other _ _ _ _ hk, hartOf_withdraw]
  · obtain ⟨-, htrap, -⟩ := hin
    have hm := pc_mem_markedAddrs hp hfp
    have h0 := posMask_minAddr_ne_zero (List.ne_nil_of_mem hm)
    rw [htrap]
    simp only [replayRecord_base, replayRecord_mask, h0, if_false]
    exact ⟨minAddr_le hm, posMask_minAddr hm⟩

/-! Returning from a trap (R33, R201). -/

/-- The hart after its ERET: back from the trap, and parked behind a switch marker. -/
def resumed (s : State) (hs : HartState) : HartState :=
  if s.word.sw then setPark (trapReturn (countIssue hs)) .marker else trapReturn (countIssue hs)

theorem execEret_go (hh : hartOf s s.cur = some hs) (hr : ready s s.cur hs { profile := .coreOnly, supervisor := true } = .go) :
    exec .eret s = .next (noteIssue (setHart s s.cur (resumed s hs)) s.cur) := by
  show execEret s = _
  unfold execEret
  exact issue_final hh hr rfl

/-- The marked addresses ascend by their places in the mask (R33, R366). -/
theorem maskAddrs_eq (base mask : Word) :
    maskAddrs base mask = ((List.range 64).filter fun k => mask.getLsbD k).map fun k => base + BitVec.ofNat 64 (4 * k) := by
  rw [← List.filterMap_eq_map, List.filterMap_filter]
  rfl

/-- What ERET hands over to be executed again. -/
theorem trapReturn_todo (hs : HartState) :
    (trapReturn hs).run.replay.todo = if hs.trap.rply = 0 then [] else maskAddrs hs.trap.tpc hs.trap.rply :=
  apply_ite ReplayState.todo ..

/-- Settles O46: ERET counts as issued, and its hart is the one back from its trap. -/
theorem eretReturns : Obligations.EretReturns := by
  intro s hs hh hr
  refine ⟨_, resumed s hs, execEret_go hh hr, by rw [hartOf_noteIssue, hartOf_setHart], ?_⟩
  have hx : resumed s hs = { trapReturn (countIssue hs) with run := (resumed s hs).run } ∧
      (resumed s hs).run.replay = (trapReturn (countIssue hs)).run.replay ∧ (resumed s hs).run.ops = hs.run.ops := by
    unfold resumed
    split <;> exact ⟨rfl, rfl, rfl⟩
  obtain ⟨h1, h2, h3⟩ := hx
  rw [h1, h2, h3]
  refine ⟨rfl, rfl, rfl, ?_, rfl, rfl, rfl, rfl, rfl, rfl, rfl, rfl, rfl, sameMemory_of_mem_eq (noteIssue_mem ..), fun k hk => ?_⟩
  · rw [← maskAddrs_eq]
    exact trapReturn_todo (countIssue hs)
  · rw [hartOf_noteIssue, hartOf_setHart_other _ _ _ _ hk]

end Sys2Proof.Machine
end

section
/-!
What reading the operands, writing or emptying a destination, entering program order and completing leave of a hart and of the units.
-/

namespace Sys2Proof.Machine

variable {s t : State} {h : Hart} {hs a b c : HartState}

/-! Control registers. -/

theorem sameControl.trans (h1 : sameControl a b) (h2 : sameControl b c) : sameControl a c := by
  obtain ⟨st, migr, fp, mx, time, trap, ptbr, take, id, own, parent, plink⟩ := h1
  obtain ⟨st', migr', fp', mx', time', trap', ptbr', take', id', own', parent', plink'⟩ := h2
  exact ⟨st'.trans st, migr'.trans migr, fp'.trans fp, mx'.trans mx, time'.trans time, trap'.trans trap, ptbr'.trans ptbr,
    take'.trans take, id'.trans id, own'.trans own, parent'.trans parent, plink'.trans plink⟩

theorem sameControl_refl (hs : HartState) : sameControl hs hs := ⟨rfl, rfl, rfl, rfl, rfl, rfl, rfl, rfl, rfl, rfl, rfl, rfl⟩

theorem sameControl_afterIssue (s : State) (hs : HartState) (size : Nat) : sameControl hs (afterIssue s hs size none) :=
  ⟨rfl, rfl, rfl, rfl, rfl, rfl, rfl, rfl, rfl, rfl, rfl, rfl⟩

theorem sameControl_setG (hs : HartState) (r : Fin 16) (x : Reg Word) : sameControl hs (setG hs r x) :=
  ⟨rfl, rfl, rfl, rfl, rfl, rfl, rfl, rfl, rfl, rfl, rfl, rfl⟩

/-! Ports. -/

theorem samePorts.trans {l : List Src} (h1 : samePorts a b l) (h2 : samePorts b c l) : samePorts a c l := fun p =>
  ⟨(h2 p).1.trans (h1 p).1, fun hp => ((h2 p).2 hp).trans ((h1 p).2 hp)⟩

theorem samePorts.mono {l k : List Src} (h1 : samePorts a b l) (hk : ∀ x ∈ l, x ∈ k) : samePorts a b k := fun p =>
  ⟨(h1 p).1, fun hp => (h1 p).2 fun hl => hp (hk _ hl)⟩

theorem samePorts_of_eq {l : List Src} (h1 : b.ports = a.ports) : samePorts a b l := fun p => by simp [portOf, h1]

@[simp] theorem portOf_setPort (hs : HartState) (p : Fin 4) (x : Port) : portOf (setPort hs p x) p = x := vget_set_same ..
theorem portOf_setPort_other (hs : HartState) {p q : Fin 4} (x : Port) (hq : q ≠ p) : portOf (setPort hs p x) q = portOf hs q :=
  vget_set_other _ _ _ _ hq

/-- A port that is popped keeps its binding. -/
theorem samePorts_pop (hs : HartState) (p : Fin 4) (l : List Word) :
    samePorts hs (setPort hs p { portOf hs p with buf := l }) [.q p] := fun q => by
  by_cases hq : q = p
  · subst hq
    simp
  · simp [portOf_setPort_other _ _ hq]

/-! Reading the operands (R24). -/

theorem readSrcs_regs (h : Hart) (srcs : List Src) (hs : HartState) : (readSrcs h srcs hs).2.regs = hs.regs := by
  induction srcs generalizing hs with
  | nil => rfl
  | cons x rest ih => cases x <;> exact ih _

theorem readSrcs_run (h : Hart) (srcs : List Src) (hs : HartState) : (readSrcs h srcs hs).2.run = hs.run := by
  induction srcs generalizing hs with
  | nil => rfl
  | cons x rest ih => cases x <;> exact ih _

theorem sameControl_readSrcs (h : Hart) (srcs : List Src) (hs : HartState) : sameControl hs (readSrcs h srcs hs).2 := by
  induction srcs generalizing hs with
  | nil => exact sameControl_refl hs
  | cons x rest ih => cases x <;> exact ih _

/-- Reading the operands pops the ports among them, and no other. -/
theorem samePorts_readSrcs (h : Hart) (srcs : List Src) (hs : HartState) : samePorts hs (readSrcs h srcs hs).2 srcs := by
  induction srcs generalizing hs with
  | nil => exact samePorts_of_eq rfl
  | cons x rest ih =>
    have hrest (k : HartState) := (ih k).mono fun y hy => List.mem_cons_of_mem x hy
    cases x with
    | q p => exact ((samePorts_pop hs p _).mono fun y hy => List.mem_singleton.1 hy ▸ List.mem_cons_self).trans (hrest _)
    | _ => exact hrest hs

/-! Destinations. -/

theorem writeDst_run (s : State) (h : Hart) (hs : HartState) (d : Dst) (v : Word) : (writeDst s h hs d v).2.run = hs.run := by
  cases d <;> rfl
theorem writeDst_ports (s : State) (h : Hart) (hs : HartState) (d : Dst) (v : Word) : (writeDst s h hs d v).2.ports = hs.ports := by
  cases d <;> rfl
theorem writeDst_vectors (s : State) (h : Hart) (hs : HartState) (d : Dst) (v : Word) :
    (writeDst s h hs d v).2.regs.v = hs.regs.v ∧ (writeDst s h hs d v).2.regs.w = hs.regs.w := by
  cases d <;> exact ⟨rfl, rfl⟩
theorem sameControl_writeDst (s : State) (h : Hart) (hs : HartState) (d : Dst) (v : Word) : sameControl hs (writeDst s h hs d v).2 := by
  cases d with
  | g r => exact sameControl_setG ..
  | q p => exact sameControl_refl _

/-- A result that is written changes no register but its own. -/
theorem writeDst_other (s : State) (h : Hart) (hs : HartState) {d : Dst} (v : Word) {r : Fin 16} (hr : Dst.g r ∉ [d]) :
    (writeDst s h hs d v).2.regs.g.get r = hs.regs.g.get r := by
  cases d with
  | g k => exact get_setG_other _ _ _ _ fun e => hr (e ▸ List.mem_cons_self)
  | q p => rfl

/-- A register that is written is full. -/
theorem writeDst_full (s : State) (h : Hart) (hs : HartState) {d : Dst} (v : Word) {r : Fin 16} (hr : Dst.g r ∈ [d]) :
    gFull (writeDst s h hs d v).2 r = true := by
  cases List.mem_singleton.1 hr
  exact gFull_setG ..

theorem writeDst_regs_congr (s : State) (h : Hart) (d : Dst) (v : Word) (e : a.regs = b.regs) :
    (writeDst s h a d v).2.regs = (writeDst s h b d v).2.regs := by
  cases d with
  | g r => simp [writeDst, writeG, setG, e]
  | q p => exact e

/-- The destination of an operation, as its instruction names it. -/
def destOf : List Dst → Dest
  | [] => .none
  | d :: _ => .scalar d

theorem emptyDst_run (hs : HartState) (d : Dest) : (emptyDst hs d).run = hs.run := by
  rcases d with _ | _ | _ | _ | _
  case scalar d => cases d <;> rfl
  all_goals rfl
theorem emptyDst_ports (hs : HartState) (d : Dest) : (emptyDst hs d).ports = hs.ports := by
  rcases d with _ | _ | _ | _ | _
  case scalar d => cases d <;> rfl
  all_goals rfl
theorem sameControl_emptyDst (hs : HartState) (d : Dest) : sameControl hs (emptyDst hs d) := by
  rcases d with _ | _ | _ | _ | _
  case scalar d => cases d <;> exact sameControl_refl _
  all_goals exact sameControl_refl _
theorem emptyDst_regs_congr (d : Dest) (e : a.regs = b.regs) : (emptyDst a d).regs = (emptyDst b d).regs := by
  rcases d with _ | _ | _ | _ | _
  case scalar d => cases d <;> simp [emptyDst, emptyG, setG, gVal, e]
  all_goals simp [emptyDst, emptyG, setG, setV, setW, gVal, e]

theorem emptyDst_vectors (hs : HartState) (ds : List Dst) :
    (emptyDst hs (destOf ds)).regs.v = hs.regs.v ∧ (emptyDst hs (destOf ds)).regs.w = hs.regs.w := by
  rcases ds with _ | ⟨_ | _, _⟩ <;> exact ⟨rfl, rfl⟩

/-- Emptying a destination changes no register but its own. -/
theorem emptyDst_other (hs : HartState) {ds : List Dst} {r : Fin 16} (hr : Dst.g r ∉ ds) :
    (emptyDst hs (destOf ds)).regs.g.get r = hs.regs.g.get r := by
  rcases ds with _ | ⟨k | p, rest⟩
  · rfl
  · exact get_setG_other _ _ _ _ fun e => hr (e ▸ List.mem_cons_self)
  · rfl

/-- A destination that is emptied keeps its value (R25). -/
theorem emptyDst_empties (hs : HartState) {ds : List Dst} (hl : ds.length ≤ 1) {r : Fin 16} (hr : Dst.g r ∈ ds) :
    gVal (emptyDst hs (destOf ds)) r = gVal hs r ∧ gFull (emptyDst hs (destOf ds)) r = false := by
  match ds, hl with
  | [d], _ =>
    cases List.mem_singleton.1 hr
    exact ⟨gVal_setG .., gFull_setG ..⟩

/-! Program order (R28). -/

/-- An operation in program order: its destination is emptied, and the list of operations is one longer. -/
theorem addOp_eq (hs : HartState) (p : Pending) : addOp hs p = { emptyDst hs p.dest with run := (addOp hs p).run } := rfl

theorem length_addOp (hs : HartState) (p : Pending) : (addOp hs p).run.ops.length = hs.run.ops.length + 1 := by
  simp [addOp, emptyDst_run]

theorem length_setOp (hs : HartState) (p : Pending) : (setOp hs p).run.ops.length = hs.run.ops.length := List.length_map _

/-- Translation of an operation changes its hart's operations only, in place. -/
theorem translateOp_hart (s : State) (h : Hart) (hs : HartState) (p : Pending) :
    (translateOp s h hs p).2 = { hs with run := (translateOp s h hs p).2.run } ∧
    (translateOp s h hs p).2.run.ops.length = hs.run.ops.length := by
  unfold translateOp
  dsimp only
  split
  · exact ⟨rfl, rfl⟩
  · split <;> exact ⟨rfl, length_setOp ..⟩

/-- Translation of an operation may ask for a walk, and changes no hart and no store. -/
theorem translateOp_state (s : State) (h : Hart) (hs : HartState) (p : Pending) :
    (translateOp s h hs p).1.harts = s.harts ∧ (translateOp s h hs p).1.stores = s.stores := by
  unfold translateOp
  dsimp only
  split
  · exact ⟨rfl, rfl⟩
  · split <;> exact ⟨rfl, rfl⟩

/-- An operation that enters program order: its destination is emptied, there is one operation more, and no other field changes. -/
theorem addMem_hart (s : State) (h : Hart) (hs : HartState) (p : Pending) :
    (addMem s h hs p).2 = { emptyDst hs p.dest with run := (addMem s h hs p).2.run } ∧
    (addMem s h hs p).2.run.ops.length = hs.run.ops.length + 1 := by
  unfold addMem
  dsimp only
  split
  · exact ⟨addOp_eq .., length_addOp ..⟩
  · next q _ =>
    obtain ⟨hx, hl⟩ := translateOp_hart s h (addOp hs { p with remote := p.remote || goesRemote s h p, sent := s.now }) q
    exact ⟨hx, hl.trans (length_addOp ..)⟩

/-- What an operation that enters program order leaves: registers but its destination, ports and control registers. -/
theorem addMem_frame (s : State) (h : Hart) (hs : HartState) (p : Pending) :
    (addMem s h hs p).2.regs = (emptyDst hs p.dest).regs ∧ (addMem s h hs p).2.ports = hs.ports ∧ sameControl hs (addMem s h hs p).2 := by
  have hx := (addMem_hart s h hs p).1
  generalize (addMem s h hs p).2 = k at hx
  rw [hx]
  exact ⟨rfl, emptyDst_ports .., sameControl_emptyDst ..⟩

theorem addMem_state (s : State) (h : Hart) (hs : HartState) (p : Pending) :
    (addMem s h hs p).1.harts = s.harts ∧ (addMem s h hs p).1.stores = s.stores := by
  unfold addMem
  dsimp only
  split
  · exact ⟨rfl, rfl⟩
  · exact translateOp_state ..

/-! The hart of an instruction that completes. -/

/-- A result written at issue: its register, the ports that the operands popped, and nothing else. -/
theorem afterIssue_writeDst (s : State) (h : Hart) (hs : HartState) (srcs : List Src) (d : Dst) (v : Word) (size : Nat) :
    let k := afterIssue s (writeDst s h (readSrcs h srcs hs).2 d v).2 size none
    k.regs = (writeDst s h hs d v).2.regs ∧ sameControl hs k ∧ samePorts hs k srcs ∧ k.run.ops = hs.run.ops := by
  obtain ⟨eregs, -, -, -, -, -, eports, -, -, eops⟩ := afterIssue_keeps s (writeDst s h (readSrcs h srcs hs).2 d v).2 size none
  refine ⟨?_, ?_, ?_, ?_⟩
  · exact eregs.trans (writeDst_regs_congr _ _ _ _ (readSrcs_regs ..))
  · exact (sameControl_readSrcs ..).trans ((sameControl_writeDst ..).trans (sameControl_afterIssue ..))
  · exact (samePorts_readSrcs h srcs hs).trans (samePorts_of_eq (eports.trans (writeDst_ports ..)))
  · rw [eops, writeDst_run, readSrcs_run]

/-- An operation that enters program order at issue: its destination, the ports that the operands popped, and one operation more. -/
theorem afterIssue_addMem (s : State) (h : Hart) (hs : HartState) (srcs : List Src) (p : Pending) (size : Nat) :
    let k := afterIssue s (addMem s h (readSrcs h srcs hs).2 p).2 size none
    k.regs = (emptyDst hs p.dest).regs ∧ sameControl hs k ∧ samePorts hs k srcs ∧ k.run.ops.length = hs.run.ops.length + 1 := by
  obtain ⟨hregs, hports, hctl⟩ := addMem_frame s h (readSrcs h srcs hs).2 p
  have hlen := (addMem_hart s h (readSrcs h srcs hs).2 p).2
  obtain ⟨eregs, -, -, -, -, -, eports, -, -, eops⟩ := afterIssue_keeps s (addMem s h (readSrcs h srcs hs).2 p).2 size none
  refine ⟨?_, ?_, ?_, ?_⟩
  · exact eregs.trans (hregs.trans (emptyDst_regs_congr _ (readSrcs_regs ..)))
  · exact (sameControl_readSrcs ..).trans (hctl.trans (sameControl_afterIssue ..))
  · exact (samePorts_readSrcs h srcs hs).trans (samePorts_of_eq (eports.trans hports))
  · rw [eops, hlen, readSrcs_run]

/-! Units. -/

theorem sameUnits_refl (s : State) : sameUnits s s := ⟨fun _ => ⟨rfl, rfl, rfl, rfl, rfl, rfl, rfl, rfl, rfl⟩, fun _ => rfl, fun _ => rfl⟩

/-- The barrel's own record of an issue is no unit's. -/
theorem sameUnits_noteIssue (s : State) (h : Hart) : sameUnits s (noteIssue s h) := by
  cases h with
  | engine e => exact sameUnits_refl s
  | strand c n =>
    refine ⟨fun d => ?_, fun _ => rfl, fun _ => rfl⟩
    by_cases hd : d = c
    · subst hd
      simp [noteIssue]
    · rw [coreOf_noteIssue_other _ _ _ _ hd]
      exact ⟨rfl, rfl, rfl, rfl, rfl, rfl, rfl, rfl, rfl⟩

/-- Writing a result at most puts an entry on its way. -/
theorem writeDst_state (s : State) (h : Hart) (hs : HartState) (d : Dst) (v : Word) :
    (writeDst s h hs d v).1.harts = s.harts ∧ (writeDst s h hs d v).1.stores = s.stores ∧
    (writeDst s h hs d v).1.cores = s.cores ∧ (writeDst s h hs d v).1.dies = s.dies ∧ (writeDst s h hs d v).1.modules = s.modules := by
  cases d with
  | g r => exact ⟨rfl, rfl, rfl, rfl, rfl⟩
  | q p =>
    show (push ..).harts = _ ∧ (push ..).stores = _ ∧ (push ..).cores = _ ∧ (push ..).dies = _ ∧ (push ..).modules = _
    unfold push
    split <;> exact ⟨rfl, rfl, rfl, rfl, rfl⟩

/-- Equal parts are units as they were. -/
theorem sameUnits_of_eq (hc : t.cores = s.cores) (hd : t.dies = s.dies) (hm : t.modules = s.modules) : sameUnits s t :=
  ⟨fun c => by simp [coreOf, hc], fun d => by simp [dieState, hd], fun m => by simp [moduleOf, hm]⟩

theorem sameUnits.trans {u : State} (h1 : sameUnits s t) (h2 : sameUnits t u) : sameUnits s u := by
  obtain ⟨c1, d1, m1⟩ := h1
  obtain ⟨c2, d2, m2⟩ := h2
  refine ⟨fun c => ?_, fun d => (d2 d).trans (d1 d), fun m => (m2 m).trans (m1 m)⟩
  obtain ⟨tiles, queue, tags, deferred, nbars, books, cbsel, mcap, wdog⟩ := c1 c
  obtain ⟨tiles', queue', tags', deferred', nbars', books', cbsel', mcap', wdog'⟩ := c2 c
  exact ⟨tiles'.trans tiles, queue'.trans queue, tags'.trans tags, deferred'.trans deferred, nbars'.trans nbars, books'.trans books,
    cbsel'.trans cbsel, mcap'.trans mcap, wdog'.trans wdog⟩

theorem sameUnits_completed (s t : State) (hs : HartState) (size : Nat) : sameUnits t (completed s t hs size) :=
  (sameUnits_of_eq rfl rfl rfl : sameUnits t (setHart t s.cur (afterIssue s hs size none))).trans (sameUnits_noteIssue ..)

/-- A completed instruction leaves the other harts as its own effect left them. -/
theorem otherHarts_completed (hs : HartState) (size : Nat) (hx : t.harts = s.harts) : otherHarts s (completed s t hs size) s.cur := fun k hk => by
  rw [hartOf_completed_other _ _ _ _ _ hk, hartOf, hx, ← hartOf]

end Sys2Proof.Machine
end

section
/-!
Instructions whose operation goes to memory or a window: what they answer at issue.
-/

namespace Sys2Proof.Machine

variable {s : State} {i : Instr} {f : Form} {hs : HartState}

/-- The meaning of an instruction is what its form says of an operation that goes to memory or a window. -/
def Accesses (i : Instr) (s : State) (f : Form) : Prop :=
  ∃ (size : Nat) (n : Need) (op : Hart → State → HartState → List Word → Pending),
    f = memForm size n op ∧ exec i s = issue s size n fun h s hs v => issueMem h s hs (op h s hs v)

theorem loads_access (hf : loadsForm i = some f) : Accesses i s f := by
  unfold loadsForm at hf
  split at hf <;> cases hf <;> exact ⟨_, _, _, rfl, rfl⟩

theorem stores_access (hf : storesForm i = some f) : Accesses i s f := by
  unfold storesForm at hf
  split at hf <;> cases hf <;> exact ⟨_, _, _, rfl, rfl⟩

theorem atomics_access (hf : atomicsForm i = some f) : Accesses i s f := by
  unfold atomicsForm at hf
  split at hf <;> cases hf <;> exact ⟨_, _, _, rfl, rfl⟩

theorem objects_access (hf : objectsForm i = some f) : Accesses i s f := by
  unfold objectsForm at hf
  split at hf <;> cases hf <;> exact ⟨_, _, _, rfl, rfl⟩

/-- MIG, of core strands only, decides at issue where it goes; the other tile instructions are accesses. -/
theorem tiles_access (hf : tilesForm i = some f) (hp : f.need.profile = .any) : Accesses i s f := by
  unfold tilesForm at hf
  split at hf
  · cases hf; exact ⟨_, _, _, rfl, rfl⟩
  · cases hf; exact ⟨_, _, _, rfl, rfl⟩
  · next t _ _ => cases t <;> cases hf <;> exact ⟨_, _, _, rfl, rfl⟩
  · cases hf; cases hp
  · cases hf

/-- An access that may go completes. -/
theorem Accesses.completes (h : Accesses i s f) : Completes i s f := by
  obtain ⟨size, n, op, rfl, he⟩ := h
  intro hs hh hr hok
  rw [he]
  exact issue_done hh hr (issueMem_done _ _ _ _ hok)

/-- A second remote access waits (R28). -/
theorem issueMem_parks (h : Hart) (s : State) (hs : HartState) (p : Pending) (hr : (!secondRemote s hs (addMem s h hs p).2) = false) :
    issueMem h s hs p = .park (.blocked .remote) := by
  simp only [Bool.not_eq_false'] at hr
  simp [issueMem, hr]

/-- An access that is a second remote one parks, and nothing else happens (R28). -/
theorem Accesses.parks (h : Accesses i s f) (hh : hartOf s s.cur = some hs) (hr : ready s s.cur hs f.need = .go)
    (hok : f.ok s.cur s (readSrcs s.cur f.need.srcs hs).2 (readSrcs s.cur f.need.srcs hs).1 = false) :
    exec i s = .next (parked s s.cur hs (.blocked .remote) none) := by
  obtain ⟨size, n, op, rfl, he⟩ := h
  rw [he]
  exact issue_body_park hh hr (issueMem_parks _ _ _ _ hok)

/-- The instructions of the table of accesses. -/
theorem mem_accessTable (hf : accessTable i = some f) : loadsForm i = some f ∨ storesForm i = some f ∨ atomicsForm i = some f := by
  obtain ⟨o, ho, rfl⟩ := List.exists_of_findSome?_eq_some hf
  simpa [eq_comm] using ho

theorem table_access (hf : accessTable i = some f) : Accesses i s f := by
  rcases mem_accessTable hf with h | h | h
  · exact loads_access h
  · exact stores_access h
  · exact atomics_access h

/-- Settles O25: loads and stores are accesses. -/
theorem loadsAndStores : Obligations.LoadsAndStores := fun _ _ _ hf => (hf.elim loads_access stores_access).completes

/-- Settles O26: atomics are accesses. -/
theorem atomics : Obligations.Atomics := fun _ _ _ hf => (atomics_access hf).completes

/-- Settles O18: each of these instructions is an access. -/
theorem secondRemoteWaits : Obligations.SecondRemoteWaits := by
  intro i s f hs hf hh hr hok
  have ha : Accesses i s f := by
    rcases hf with h | h | ⟨h, hp⟩
    · exact table_access h
    · exact objects_access h
    · exact tiles_access h hp
  have hq : (hs.run.queued || (Park.blocked .remote).isQueue) = hs.run.queued := Bool.or_false _
  rw [ha.parks hh hr hok, parked, waitFor, hq]

/-! The destination of an access. -/

/-- The result of an operation goes to a destination. -/
def Pending.GoesTo (p : Pending) (d : Dest) : Prop := p.dest = d

theorem checkAlign_goesTo {p : Pending} {d : Dest} {va : Word} {n : Nat} (hp : p.GoesTo d) : (checkAlign p va n).GoesTo d := by
  unfold checkAlign
  split
  · exact hp
  · exact hp

theorem asStore_goesTo {p : Pending} {d : Dest} (hp : p.GoesTo d) : (asStore p).GoesTo d := hp

theorem memOp_goesTo {hs : HartState} {op : Op} {d : Dest} {m : MemMod} {spans : List Span} : (memOp hs op d m spans).GoesTo d := rfl

theorem windowOp_goesTo {h : Hart} {hs : HartState} {op : Op} {d : Dest} {m : MemMod} {pa n : Nat} {r : Right} :
    (windowOp h hs op d m pa n r).GoesTo d := rfl

theorem bitOp_goesTo {h : Hart} {hs : HartState} {op : Nat → Op} {d : Dest} {m : MemMod} {a : Word} {b w : Nat} {r : Right} :
    (bitOp h hs op d m a b w r).GoesTo d := by
  unfold bitOp
  dsimp only
  split
  · rfl
  · rfl

/-- The operation of a form has the destination that its instruction names, if it names one. -/
def NamesDst (f : Form) : Prop :=
  f.need.dsts.length ≤ 1 ∧ ∀ h s hs v, ∃ p, f.effect h s hs v = addMem s h hs p ∧ p.GoesTo (destOf f.need.dsts)

theorem accessForm_namesDst {size srcs dsts place} {op : Hart → HartState → List Word → Pending} (hl : dsts.length ≤ 1)
    (hd : ∀ h hs v, (op h hs v).GoesTo (destOf dsts)) : NamesDst (accessForm size srcs dsts place op) :=
  ⟨hl, fun h _ hs v => ⟨op h hs v, rfl, hd h hs v⟩⟩

theorem loadForm_namesDst {n sg d b o m} : NamesDst (loadForm n sg d b o m) :=
  accessForm_namesDst le_rfl fun _ _ _ => checkAlign_goesTo memOp_goesTo
theorem windowLoadForm_namesDst {n sg k d b o c m} : NamesDst (windowLoadForm n sg k d b o c m) :=
  accessForm_namesDst le_rfl fun _ _ _ => checkAlign_goesTo windowOp_goesTo
theorem storeForm_namesDst {n b x o m} : NamesDst (storeForm n b x o m) :=
  accessForm_namesDst (Nat.zero_le _) fun _ _ _ => checkAlign_goesTo (asStore_goesTo memOp_goesTo)
theorem windowStoreForm_namesDst {n k b x o c m} : NamesDst (windowStoreForm n k b x o c m) :=
  accessForm_namesDst (Nat.zero_le _) fun _ _ _ => checkAlign_goesTo (asStore_goesTo windowOp_goesTo)
theorem atomicForm_namesDst {fn d b x c o w32 m} : NamesDst (atomicForm fn d b x c o w32 m) :=
  accessForm_namesDst le_rfl fun _ _ _ => checkAlign_goesTo memOp_goesTo

theorem loads_namesDst (hf : loadsForm i = some f) : NamesDst f := by
  cases i with
  | ldN8 | ldN16 | ldN32 | ld | ldS8 | ldS16 | ldS32 => cases hf; exact loadForm_namesDst
  | windowLdN8 | windowLdN16 | windowLdN32 | windowLd | windowLdS8 | windowLdS16 | windowLdS32 => cases hf; exact windowLoadForm_namesDst
  | ldbit => cases hf; exact accessForm_namesDst le_rfl fun _ _ _ => bitOp_goesTo
  | _ => cases hf

theorem stores_namesDst (hf : storesForm i = some f) : NamesDst f := by
  cases i with
  | stN8 | stN16 | stN32 | st => cases hf; exact storeForm_namesDst
  | windowStN8 | windowStN16 | windowStN32 | windowSt => cases hf; exact windowStoreForm_namesDst
  | stZ | cflush | cinval => cases hf; exact accessForm_namesDst (Nat.zero_le _) fun _ _ _ => asStore_goesTo memOp_goesTo
  | windowStZ | putr => cases hf; exact accessForm_namesDst (Nat.zero_le _) fun _ _ _ => asStore_goesTo windowOp_goesTo
  | stbit => cases hf; exact accessForm_namesDst (Nat.zero_le _) fun _ _ _ => asStore_goesTo bitOp_goesTo
  | _ => cases hf

theorem atomics_namesDst (hf : atomicsForm i = some f) : NamesDst f := by
  cases i with
  | swap | cas | aadd | aand | aor | axor | amin | amax | aminn | amaxn | afadd => cases hf; exact atomicForm_namesDst
  | _ => cases hf

theorem table_namesDst (hf : accessTable i = some f) : NamesDst f := by
  rcases mem_accessTable hf with h | h | h
  · exact loads_namesDst h
  · exact stores_namesDst h
  · exact atomics_namesDst h

/-- Settles O53: the operands pop their ports, the operation enters program order and empties its destination, and the hart goes on. -/
theorem accessFrame : Obligations.AccessFrame := by
  intro i s f hs hf hh hr hok
  obtain ⟨hl, hd⟩ := table_namesDst hf
  have hc := (table_access (s := s) hf).completes hs hh hr hok
  obtain ⟨p, hp, hdest⟩ := hd s.cur s (readSrcs s.cur f.need.srcs hs).2 (readSrcs s.cur f.need.srcs hs).1
  rw [hp] at hc
  obtain ⟨hregs, hctl, hports, hlen⟩ := afterIssue_addMem s s.cur hs f.need.srcs p f.size
  obtain ⟨hharts, hstores⟩ := addMem_state s s.cur (readSrcs s.cur f.need.srcs hs).2 p
  rw [show p.dest = _ from hdest] at hregs
  obtain ⟨hv, hw⟩ := emptyDst_vectors hs f.need.dsts
  refine ⟨_, _, hc, hartOf_completed .., fun r hr => ?_, fun r hr => ?_, ?_, ?_, hctl, hports, hlen, otherHarts_completed _ _ hharts,
    (completed_stores ..).trans hstores, sameMemory_of_mem_eq ((completed_mem ..).trans (addMem_mem ..))⟩
  · rw [hregs]
    exact emptyDst_other hs hr
  · rw [gVal, gFull, hregs]
    exact emptyDst_empties hs hl hr
  · rw [hregs, hv]
  · rw [hregs, hw]

end Sys2Proof.Machine
end

section
/-!
Scalar instructions that write their result at issue: what they change.
-/

namespace Sys2Proof.Machine

variable {s : State} {i : Instr} {f : Form} {hs : HartState}

/-- An answer is that of an instruction that reads its sources and writes one scalar result at issue. -/
def WritesAtIssue (r : Result) (s : State) (n : Need) : Prop :=
  ∃ (size : Nat) (d : Dst) (srcs : List Src) (g : List Word → Word), n = { srcs := srcs, dsts := [d] } ∧ r = scalarOp size d srcs g s

theorem scalarOp_writes {size d srcs g} : WritesAtIssue (scalarOp size d srcs g s) s { srcs := srcs, dsts := [d] } :=
  ⟨size, d, srcs, g, rfl, rfl⟩
theorem aluRR_writes {d a b g} : WritesAtIssue (aluRR d a b g s) s { srcs := [a, b], dsts := [d] } := scalarOp_writes
theorem aluRI_writes {d a x g} : WritesAtIssue (aluRI d a x g s) s { srcs := [a], dsts := [d] } := scalarOp_writes
theorem aluR_writes {d a g} : WritesAtIssue (aluR d a g s) s { srcs := [a], dsts := [d] } := scalarOp_writes

/-- The instructions of the scalar table write their results at issue. -/
theorem table_writes (hf : scalarTable i = some f) : WritesAtIssue (exec i s) s f.need := by
  delta exec
  cases i with
  | add | sub | mul | mulhs | and | or | xor | andn | shl | shr | sar | rol | ror | min | max | minn | maxn | mulhn | cmpeq | cmpne |
    cmplt | cmple | cmpltn | cmplen | bins | rng | rngf32 | rngf64 =>
    cases hf; exact aluRR_writes
  | addImm | subImm | mulImm | mulhsImm | andImm | orImm | xorImm | andnImm | shlImm | shrImm | sarImm | rolImm | rorImm | minImm | maxImm
    | minnImm | maxnImm | mulhnImm | cmpeqImm | cmpneImm | cmpltImm | cmpleImm | cmpltnImm | cmplenImm =>
    cases hf; exact aluRI_writes
  | sel => cases hf; exact scalarOp_writes
  | bext | bexts | clz | ctz | popc | brev | bswap => cases hf; exact aluR_writes
  | _ => cases hf

/-- A ready scalar instruction completes with its result written. -/
theorem scalarOp_go {size : Nat} {d : Dst} {srcs : List Src} {g : List Word → Word} (hh : hartOf s s.cur = some hs)
    (hr : ready s s.cur hs { srcs := srcs, dsts := [d] } = .go) :
    ∃ v, scalarOp size d srcs g s =
      .next (completed s (writeDst s s.cur (readSrcs s.cur srcs hs).2 d v).1 (writeDst s s.cur (readSrcs s.cur srcs hs).2 d v).2 size) :=
  ⟨_, issue_done hh hr rfl⟩

/-- Settles O52: the operands pop their ports, the result is written, and the hart goes on. -/
theorem scalarFrame : Obligations.ScalarFrame := by
  intro i s f hs hf hh hr
  obtain ⟨size, d, srcs, g, hn, he⟩ := table_writes (s := s) hf
  rw [hn] at hr ⊢
  obtain ⟨v, hc⟩ := scalarOp_go (size := size) (g := g) hh hr
  rw [← he] at hc
  obtain ⟨hregs, hctl, hports, hops⟩ := afterIssue_writeDst s s.cur hs srcs d v size
  obtain ⟨hharts, hstores, hcores, hdies, hmods⟩ := writeDst_state s s.cur (readSrcs s.cur srcs hs).2 d v
  obtain ⟨hv, hw⟩ := writeDst_vectors s s.cur hs d v
  refine ⟨_, _, hc, hartOf_completed .., fun r hr => ?_, fun r hr => ?_, ?_, ?_, hctl, hports, hops,
    (sameUnits_of_eq hcores hdies hmods).trans (sameUnits_completed ..), otherHarts_completed _ _ hharts,
    (completed_stores ..).trans hstores, sameMemory_of_mem_eq ((completed_mem ..).trans (writeDst_mem ..))⟩
  · rw [hregs]
    exact writeDst_other s s.cur hs v hr
  · rw [gFull, hregs]
    exact writeDst_full s s.cur hs v hr
  · rw [hregs, hv]
  · rw [hregs, hw]

end Sys2Proof.Machine
end

section
/-!
Full/empty control, LDL, and the instructions that give up turns or wait.
-/

namespace Sys2Proof.Machine

variable {s : State} {i : Instr} {f : Form}

/-- An answer is the completion that a form gives. -/
def CompletesAs (r : Result) (s : State) (f : Form) : Prop :=
  ∀ hs : HartState, hartOf s s.cur = some hs → ready s s.cur hs f.need = .go →
    f.ok s.cur s (readSrcs s.cur f.need.srcs hs).2 (readSrcs s.cur f.need.srcs hs).1 = true →
    r = .next (completed s
      (f.effect s.cur s (readSrcs s.cur f.need.srcs hs).2 (readSrcs s.cur f.need.srcs hs).1).1
      (f.effect s.cur s (readSrcs s.cur f.need.srcs hs).2 (readSrcs s.cur f.need.srcs hs).1).2 f.size)

/-- An issue of a body that is done where the form's condition holds, with the form's effect, completes as the form says. -/
theorem issue_completes {body : Hart → State → HartState → List Word → Issued}
    (hb : ∀ hs v, f.ok s.cur s hs v = true → body s.cur s hs v = .done (f.effect s.cur s hs v).1 (f.effect s.cur s hs v).2) :
    CompletesAs (issue s f.size f.need body) s f := fun _ hh hr hok => issue_done hh hr (hb _ _ hok)

/-- Settles O23, instruction by instruction. -/
theorem fullEmptyAndWaits : Obligations.FullEmptyAndWaits := by
  intro i s f hf
  show CompletesAs (exec i s) s f
  delta exec
  cases i with
  | empty r => cases hf; exact issue_completes fun _ _ _ => by cases r <;> rfl
  | fill r => cases hf; exact issue_completes fun _ _ _ => by cases r <;> rfl
  | isfull d r => cases hf; exact issue_completes fun _ _ _ => by cases r <;> rfl
  | ldl => cases hf; exact issue_completes fun _ _ h => issueMem_done _ _ _ _ h
  | yield => cases hf; exact issue_completes fun _ _ _ => by cases s.cur <;> rfl
  | wait => cases hf; exact issue_completes fun _ _ h => if_pos h
  | waitst => cases hf; exact issue_completes fun _ _ h => if_pos h
  | join => cases hf; exact issue_completes fun _ _ h => if_pos (eq_of_beq h)
  | _ => cases hf

end Sys2Proof.Machine
end

section
/-!
A scalar result that returns to its register.
-/

namespace Sys2Proof.Machine

variable {s : State} {h : Hart} {hs : HartState} {p : Pending} {v : Word} {r : Fin 16}

@[simp] theorem raiseFlags_none (hs : HartState) : raiseFlags hs {} = hs := by simp [raiseFlags]

/-- The hart whose scalar result has come: its operation is gone, and its register is full. -/
def withResult (s : State) (hs : HartState) (seq : Nat) (r : Fin 16) (v : Word) : HartState := pruneFences s (writeG (dropOp hs seq) r v)

theorem giveResult_register (hd : p.dest = .scalar (.g r)) : giveResult s h hs p [v] {} = setHart s h (withResult s hs p.seq r v) := by
  simp [giveResult, hd, withResult]

/-- A strand without a join record has none to tidy. -/
theorem tidyJoin_none (hh : hartOf s h = some hs) (hj : hs.joinOwn = none) : tidyJoin s h = s := by simp [tidyJoin, hh, hj]

theorem execResultReturn_done {n : Nat} {ws : List Word} (hh : hartOf s h = some hs) (hp : findOp hs n = some p) (hd : p.phase = .done ws) :
    exec (.resultReturn h n) s = .next (tidyJoin (giveDone s h hs p ws) h) := by
  show execResultReturn h n s = _
  simp [execResultReturn, hh, hp, hd]

theorem withResult_regs (s : State) (hs : HartState) (seq : Nat) (r : Fin 16) (v : Word) :
    (withResult s hs seq r v).regs = (writeG hs r v).regs := rfl

theorem sameControl_withResult (s : State) (hs : HartState) (seq : Nat) (r : Fin 16) (v : Word) : sameControl hs (withResult s hs seq r v) :=
  sameControl_refl hs

/-- The operation whose result has come is no more. -/
theorem withResult_dropped (s : State) (hs : HartState) (seq : Nat) (r : Fin 16) (v : Word) :
    ∀ q ∈ (withResult s hs seq r v).run.ops, q.seq ≠ seq := by
  intro q hq
  have hq : q ∈ (dropOp hs seq).run.ops := List.mem_of_mem_filter hq
  simpa using List.of_mem_filter hq

/-- Settles O30: the operation leaves program order, and its register is written. -/
theorem resultFillsRegister : Obligations.ResultFillsRegister := by
  intro s h n hs p v r hh hp hphase hspoiled hdest hjoin
  have hx := execResultReturn_done hh hp hphase
  have hset : hartOf (setHart s h (withResult s hs p.seq r v)) h = some (withResult s hs p.seq r v) := hartOf_setHart ..
  rw [giveDone, hspoiled, if_neg Bool.false_ne_true, giveResult_register hdest, tidyJoin_none hset hjoin] at hx
  refine ⟨_, _, hx, hset, ?_, ?_, fun k hk => ?_, rfl, rfl, sameControl_withResult .., rfl, rfl, withResult_dropped _ _ _ _ _, fun _ => rfl,
    fun k hk => hartOf_setHart_other _ _ _ _ hk⟩
  · rw [gVal, withResult_regs]
    exact gVal_setG ..
  · rw [gFull, withResult_regs]
    exact gFull_setG ..
  · rw [withResult_regs]
    exact get_setG_other _ _ _ _ hk

end Sys2Proof.Machine
end

section
/-!
The state at reset.
-/

namespace Sys2Proof.Machine

/-- One hart there is at reset. -/
theorem hartOf_reset (h : Hart) : hartOf State.reset h = if .strand 0 0 = h then some bootHart else none := rfl

/-- Every register of a replicated file reads as the one value. -/
theorem get_replicate {α : Type} {n : Nat} (x : α) (k : Fin n) : (Vector.replicate n x).get k = x := Vector.getElem_replicate k.isLt

/-- Settles O4: the boot strand is alone, and every table of the state at reset is empty. -/
theorem resetState : Obligations.ResetState := by
  refine ⟨fun h hh => ?_, bootHart, rfl, rfl, rfl, rfl, by decide, rfl, rfl, fun n => ?_, fun p => ?_, fun r => ?_, rfl,
    fun c => ⟨rfl, rfl, rfl⟩, fun m => ⟨rfl, rfl⟩, fun a => rfl⟩
  · by_contra hne
    rw [hartOf_reset, if_neg (Ne.symm hne)] at hh
    cases hh
  · exact get_replicate ..
  · exact congrArg Port.bound (get_replicate ..)
  · exact ⟨congrArg Reg.full (get_replicate ..), congrArg Reg.val (get_replicate ..)⟩

end Sys2Proof.Machine
end

section
/-!
Every step answers: the meanings of events, the turns of the hardware, and issue.
-/

namespace Sys2Proof.Machine

variable {s : State} {i : Instr}

/-! Events. -/

/-- An answer is a next state. -/
def Continues (r : Result) : Prop := ∃ t, r = .next t

theorem continues_next {t : State} : Continues (.next t) := ⟨t, rfl⟩

theorem hostWrite_continues {m} {f : HostState → HostState} : Continues (hostWrite s m f) := by
  unfold hostWrite
  dsimp only
  split
  · exact continues_next
  · exact continues_next

theorem kindStore_continues {k n} {f : State → Nat → Nat → Word → State} {ok} : Continues (kindStore k n s f ok) := by
  unfold kindStore
  split
  · dsimp only
    split
    · exact continues_next
    · exact continues_next
  · exact continues_next

theorem execMigrationMessage_continues {n} : Continues (execMigrationMessage n s) := by
  unfold execMigrationMessage
  (repeat' split) <;> exact continues_next

theorem execAutomaticMigration_continues {h} : Continues (execAutomaticMigration h s) := by
  unfold execAutomaticMigration
  split
  · exact continues_next
  · split
    · exact continues_next
    · dsimp only
      split
      · exact execMigrationMessage_continues
      · exact continues_next

theorem execWarmReset_continues {m die} : Continues (execWarmReset m die s) := by
  unfold execWarmReset
  split
  · exact continues_next
  · exact continues_next

theorem execUncorrectableError_continues {site} : Continues (execUncorrectableError site s) := by
  cases site with
  | data | register => exact continues_next
  | core | control | welt => exact execWarmReset_continues

/-- Every branch of an event's meaning is a next state. -/
theorem event_continues (hi : (i.head false).isSome = false) : Continues (exec i s) := by
  delta exec
  cases i with
  | sctlRun | sctlDblClear | qportBindingStore | nbarWindowStore => exact kindStore_continues
  | dmatail | dmactlEn | dmactlReset | dmastatErrClear | mbxbell | mbxdoneClear | registerWrite => exact hostWrite_continues
  | trapEntry | asyncCauseTaken | thermalTrip | timedLaunch | preEmpt | resume | routeUpdate | hostLinkDown | mchk | attestationRequest |
    matrixInstructionCompletion => exact continues_next
  | migrationMessage => exact execMigrationMessage_continues
  | automaticMigration => exact execAutomaticMigration_continues
  | warmReset => exact execWarmReset_continues
  | uncorrectableError => exact execUncorrectableError_continues
  | resultReturn | storeAccept | drainRequest | timer | twaitDeadline | watchdogExpiry | thawCheck | longContextGrant | mcmdCommandArrival
    | queuePush | queueGoSignal | remoteTimeout =>
    dsimp only [execResultReturn, execStoreAccept, execDrainRequest, execTimer, execTwaitDeadline, execWatchdogExpiry, execThawCheck,
      execLongContextGrant, execMcmdCommandArrival, execQueuePush, execQueueGoSignal, execRemoteTimeout]
    (repeat' split) <;> exact continues_next
  | windowAccessArrival | putrArrival | qportDataStore | tileWindowStore | remoteStoreAcknowledgement =>
    dsimp only [execWindowAccessArrival, execPutrArrival, execQportDataStore, execTileWindowStore, execRemoteStoreAcknowledgement]
    (repeat' split) <;> exact continues_next
  | fewordRequestArrival | barrierOpAtHome | redAddAtHome | decideOnceAtHome | readRequest | ownershipRequest | eviction | ucLoad | ucStore
    | tileRequest | hostRead | hostOwnershipRequest | backInvalidationResponse | backInvalidationTimeout | translationWalk =>
    dsimp only [execFewordRequestArrival, execBarrierOpAtHome, execRedAddAtHome, execDecideOnceAtHome, execReadRequest,
      execOwnershipRequest, execEviction, execUcLoad, execUcStore, execTileRequest, execHostRead, execHostOwnershipRequest,
      execBackInvalidationResponse, execBackInvalidationTimeout, execTranslationWalk]
    (repeat' split) <;> exact continues_next
  | engineStart | engineTrap | burstArrival | launchMessage | joinDecrement | placement | gangReport | reportDeadline | switchToken
    | releaseMessage | shareComplete | gridComplete =>
    dsimp only [execEngineStart, execEngineTrap, execBurstArrival, execLaunchMessage, execJoinDecrement, execPlacement, execGangReport,
      execReportDeadline, execSwitchToken, execReleaseMessage, execShareComplete, execGridComplete]
    (repeat' split) <;> exact continues_next
  | ptpSync | holdover | freeRunning | timeStep | flitReceive | linkTraining | combinedRequest | weltQuery | dmaDescriptor | channelSparing
    | hostLinkRetraining | thermalStep | powerCapStep | powerCapSetting | weltCombiningWindow | bringUp =>
    dsimp only [execPtpSync, execHoldover, execFreeRunning, execTimeStep, execFlitReceive, execLinkTraining, execCombinedRequest,
      execWeltQuery, execDmaDescriptor, execChannelSparing, execHostLinkRetraining, execThermalStep, execPowerCapStep, execPowerCapSetting,
      execWeltCombiningWindow, execBringUp]
    (repeat' split) <;> exact continues_next
  | tfwd d base t => cases t <;> cases hi
  | tshape t w => cases w <;> cases hi
  | _ => cases hi

/-! Instructions. -/

/-- An answer is a next state, or the fault of an issue without a hart. -/
def AnswersAt (s : State) (r : Result) : Prop := Continues r ∨ (hartOf s s.cur = none ∧ r = .fault .noStrand)

theorem IssuesWith.answers {r : Result} {n : Need} (h : IssuesWith r s n) : AnswersAt s r := by
  obtain ⟨size, body, rfl, -⟩ := h
  exact issue_answers

theorem exec_answers (i : Instr) (s : State) : AnswersAt s (exec i s) := by
  by_cases hi : (i.head false).isSome = true
  · by_cases hr : i = .retire
    · subst hr
      show AnswersAt s (execRetire s)
      unfold execRetire
      exact issue_answers
    · obtain ⟨_, -, h⟩ := exec_with (s := s) hi hr
      exact h.answers
  · exact .inl (event_continues (by simpa using hi))

/-- What is fetched is issued in a state with a hart. -/
theorem hartOf_fetchIssue {t : State} {h : Hart} {hs : HartState} (e : fetchIssue s h hs = (t, some i)) : (hartOf t t.cur).isSome = true := by
  unfold fetchIssue at e
  dsimp only at e
  split at e
  · cases e
    show (hartOf (setHart _ h _) h).isSome = true
    rw [hartOf_setHart]
    rfl
  · cases e
  · cases e
  · cases e

theorem exec_continues {t : State} (h : (hartOf t t.cur).isSome = true) : Continues (exec i t) := by
  rcases exec_answers i t with hc | ⟨hn, -⟩
  · exact hc
  · rw [hn] at h
    cases h

/-! Turns. -/

theorem issueTurn_continues {h : Hart} : Continues (issueTurn h s) := by
  unfold issueTurn
  split
  · exact continues_next
  · split
    · exact continues_next
    · split
      · exact execAutomaticMigration_continues
      · split
        · exact continues_next
        · split
          · exact continues_next
          · next e => exact exec_continues (hartOf_fetchIssue e)

theorem settleYields_hartOf (s : State) : hartOf (settleYields s) (settleYields s).cur = hartOf s s.cur := by
  unfold settleYields
  split <;> rfl

/-- A turn of the agenda answers. -/
theorem runTurn_answers {r : Turn} : AnswersAt s (runTurn r s) := by
  cases r with
  | issue h => exact .inl issueTurn_continues
  | event i =>
    have h := exec_answers i (settleYields s)
    rw [AnswersAt, settleYields_hartOf] at h
    exact h
  | setting | hostEviction | corrected => exact .inl continues_next

/-- A turn of the hardware that goes on from every state. -/
def GoesOn (f : State → Result) : Prop := ∀ s, Continues (f s)

theorem event_goesOn (i : Instr) (hi : (i.head false).isSome = false) : GoesOn (exec i) := fun _ => event_continues hi

theorem storeTurns_goOn {n} : ∀ f ∈ storeTurns n, GoesOn f := by
  simp only [storeTurns, List.forall_mem_cons]
  exact ⟨event_goesOn (.windowAccessArrival (.store n)) rfl, event_goesOn (.putrArrival n) rfl, event_goesOn (.qportDataStore n) rfl,
    event_goesOn (.qportBindingStore n) rfl, event_goesOn (.tileWindowStore n) rfl, event_goesOn (.nbarWindowStore n) rfl,
    event_goesOn (.sctlRun n) rfl, event_goesOn (.sctlDblClear n) rfl, event_goesOn (.ownershipRequest (.store n)) rfl,
    event_goesOn (.tileRequest .write (.store n)) rfl, event_goesOn (.tileRequest .home (.store n)) rfl, event_goesOn (.ucStore (.store n)) rfl,
    event_goesOn (.remoteStoreAcknowledgement n true) rfl, nofun⟩

theorem askAgain_goesOn {h n} : GoesOn (askAgain h n) := fun s => by
  unfold askAgain
  split
  · exact continues_next
  · split
    · exact continues_next
    · exact continues_next

theorem thawTurn_goesOn {h} : GoesOn (thawTurn h) := fun s => by
  unfold thawTurn
  split
  · exact continues_next
  · split
    · exact event_goesOn (.thawCheck h) rfl s
    · exact continues_next

theorem opTurns_goOn {h n} : ∀ f ∈ opTurns h n, GoesOn f := by
  simp only [opTurns, List.forall_mem_cons]
  exact ⟨askAgain_goesOn, event_goesOn (.storeAccept h n) rfl, event_goesOn (.windowAccessArrival (.op h n)) rfl,
    event_goesOn (.fewordRequestArrival h n) rfl, event_goesOn (.barrierOpAtHome h n) rfl, event_goesOn (.redAddAtHome h n) rfl,
    event_goesOn (.decideOnceAtHome h n false) rfl, event_goesOn (.tileRequest .read (.op h n)) rfl,
    event_goesOn (.tileRequest .write (.op h n)) rfl, event_goesOn (.tileRequest .home (.op h n)) rfl,
    event_goesOn (.readRequest (.op h n)) rfl, event_goesOn (.ownershipRequest (.op h n)) rfl, event_goesOn (.ucLoad h n) rfl,
    event_goesOn (.ucStore (.op h n)) rfl, event_goesOn (.mcmdCommandArrival h n) rfl, event_goesOn (.twaitDeadline h n) rfl,
    event_goesOn (.resultReturn h n) rfl, nofun⟩

theorem hartTurns_goOn {h hs} : ∀ f ∈ hartTurns h hs, GoesOn f := by
  simp only [hartTurns, List.forall_mem_append, List.forall_mem_cons, List.forall_mem_map, List.forall_mem_flatMap]
  refine ⟨⟨⟨⟨event_goesOn (.trapEntry h) rfl, event_goesOn (.timer h) rfl, event_goesOn (.watchdogExpiry h) rfl,
    event_goesOn (.asyncCauseTaken h) rfl, thawTurn_goesOn, nofun⟩, fun p _ => event_goesOn (.queueGoSignal h p) rfl⟩, ?_⟩,
    fun _ _ => opTurns_goOn⟩
  split
  · exact nofun
  · exact List.forall_mem_map.2 fun a _ => event_goesOn (.drainRequest h a) rfl

theorem engineTurns_goOn {e} : ∀ f ∈ engineTurns e, GoesOn f := by
  simp only [engineTurns, List.forall_mem_cons]
  exact ⟨event_goesOn (.engineTrap e) rfl, event_goesOn (.burstArrival e) rfl, event_goesOn (.engineStart e) rfl, nofun⟩

theorem msgTurns_goOn {n} : ∀ f ∈ msgTurns n, GoesOn f := by
  simp only [msgTurns, List.forall_mem_cons]
  exact ⟨event_goesOn (.launchMessage n) rfl, event_goesOn (.joinDecrement n) rfl, event_goesOn (.gangReport n) rfl,
    event_goesOn (.switchToken n) rfl, event_goesOn (.releaseMessage n) rfl, event_goesOn (.shareComplete n) rfl,
    event_goesOn (.gridComplete n) rfl, nofun⟩

theorem timedTurns_goOn {m t} : ∀ f ∈ timedTurns m t, GoesOn f := by
  simp only [timedTurns, List.forall_mem_cons]
  exact ⟨event_goesOn (.timedLaunch m t.n) rfl, event_goesOn (.preEmpt m t.n) rfl, event_goesOn (.resume m t.n) rfl,
    event_goesOn (.reportDeadline m t.gang) rfl, nofun⟩

theorem moduleTurns_goOn {m ms} : ∀ f ∈ moduleTurns m ms, GoesOn f := by
  simp only [moduleTurns, List.forall_mem_append, List.forall_mem_cons, List.forall_mem_flatMap]
  exact ⟨⟨fun _ _ => timedTurns_goOn, fun _ _ => timedTurns_goOn⟩, event_goesOn (.placement m) rfl, event_goesOn (.dmaDescriptor m) rfl,
    event_goesOn (.holdover m) rfl, event_goesOn (.freeRunning m) rfl, nofun⟩

theorem hardwareTurns_goOn : ∀ f ∈ hardwareTurns s, GoesOn f := by
  simp only [hardwareTurns, List.forall_mem_append, List.forall_mem_map, List.forall_mem_flatMap, List.forall_mem_cons]
  refine ⟨⟨⟨⟨⟨⟨⟨⟨⟨⟨⟨⟨⟨fun _ _ => hartTurns_goOn, fun _ _ => storeTurns_goOn⟩,
    fun x _ => ⟨event_goesOn (.readRequest (.core x.1 x.2.1)) rfl, event_goesOn (.ownershipRequest (.core x.1 x.2.1)) rfl, nofun⟩⟩,
    fun n _ => event_goesOn (.queuePush n) rfl⟩, fun x _ => event_goesOn (.matrixInstructionCompletion x.1) rfl⟩,
    fun x _ n _ => event_goesOn (.translationWalk x.1 n) rfl⟩, fun _ _ => engineTurns_goOn⟩, fun _ _ => msgTurns_goOn⟩,
    fun x _ => event_goesOn (.migrationMessage x.n) rfl⟩, fun g _ => event_goesOn (.longContextGrant g) rfl⟩,
    fun c _ => ⟨event_goesOn (.combinedRequest c.n) rfl, event_goesOn (.weltQuery c.n) rfl, nofun⟩⟩,
    fun x _ => event_goesOn (.backInvalidationTimeout (paModule x.line) x.line) rfl⟩, ?_⟩, fun _ _ => moduleTurns_goOn⟩
  split
  · exact nofun
  · exact List.forall_mem_singleton.2 fun _ => continues_next

theorem firstTurn_continues {fs} (hf : ∀ f ∈ fs, GoesOn f) : ∀ r ∈ firstTurn s fs, Continues r := by
  induction fs with
  | nil => exact nofun
  | cons f rest ih =>
    obtain ⟨hk, hr⟩ := List.forall_mem_cons.1 hf
    obtain ⟨t, e⟩ := hk s
    rw [firstTurn, e]
    dsimp only
    split
    · exact ih hr
    · exact fun r hr => Option.some.inj hr ▸ continues_next

theorem firstIssue_continues {hs} : ∀ r ∈ firstIssue s hs, Continues r := by
  induction hs with
  | nil => exact nofun
  | cons h rest ih =>
    rw [firstIssue]
    split
    · exact fun r hr => Option.some.inj hr ▸ issueTurn_continues
    · exact ih

theorem autoTurn_continues : Continues (autoTurn s) := by
  unfold autoTurn
  dsimp only
  split
  · exact orElse_getD firstIssue_continues (firstTurn_continues hardwareTurns_goOn) continues_next
  · exact orElse_getD (firstTurn_continues hardwareTurns_goOn) firstIssue_continues continues_next

/-- Settles O7: a turn of the agenda answers as its instruction does, and the machine's own turn always goes on. -/
theorem stepAlwaysAnswers : Obligations.StepAlwaysAnswers := by
  intro s
  unfold step
  split
  · exact runTurn_answers
  · exact .inl autoTurn_continues

end Sys2Proof.Machine
end

section
/-!
Events of a hart: each row of the table is what its event does.
-/

namespace Sys2Proof.Machine

variable {s t : State} {h : Hart} {n : Nat} {hs : HartState} {p : Pending}

/-- An event that is due gives its state. -/
theorem due_eq_some {b : Bool} {u : State} : due b u = some t ↔ b = true ∧ u = t := by
  cases b <;> simp [due]

/-- An operation that waits while it is not due goes on when it is. -/
theorem if_due {b : Bool} {u : State} (e : due b u = some t) : (if b then u else s) = t := by
  obtain ⟨hd, he⟩ := due_eq_some.1 e
  exact (if_pos hd).trans he

/-! Results. -/

/-- A result of a unit that the table gives is the next step of its operation. -/
theorem unitResult_openResult (e : hartEvents.unitResult s h hs p = some t) : openResult s h hs p = t := by
  unfold hartEvents.unitResult at e
  unfold openResult
  split at e
  · next hop => rw [hop]; exact Option.some.inj e
  · next hop => rw [hop]; exact Option.some.inj e
  · next hop => rw [hop]; exact if_due e
  · next hop => rw [hop]; exact if_due e
  · next hop => rw [hop]; exact if_due e
  · next hop => rw [hop]; exact if_due e
  · cases e

theorem resultReturn_event (e : hartEvents s (.resultReturn h n) = some t) : exec (.resultReturn h n) s = .next t := by
  show execResultReturn h n s = _
  dsimp only [hartEvents] at e
  obtain ⟨hs, hh, e⟩ := Option.bind_eq_some_iff.1 e
  obtain ⟨p, hp, e⟩ := Option.bind_eq_some_iff.1 e
  simp only [execResultReturn, hh, hp]
  cases hph : p.phase <;> simp only [hph] at e ⊢
  case found c v => exact congrArg _ (Option.some.inj e)
  case done r => exact congrArg _ (Option.some.inj e)
  case request => exact congrArg _ (unitResult_openResult e)
  all_goals cases e

/-! Stores. -/

/-- A coherence request that goes through. -/
theorem granted_eq_some {r : CohResult} {f : State → State} (e : granted r f = some t) : ∃ u, r = .ok u ∧ f u = t := by
  cases r with
  | ok u => exact ⟨u, rfl, Option.some.inj e⟩
  | wait u => cases e

theorem storeAccept_event (e : hartEvents s (.storeAccept h n) = some t) : exec (.storeAccept h n) s = .next t := by
  show execStoreAccept h n s = _
  dsimp only [hartEvents] at e
  obtain ⟨⟨hs, p⟩, hop, e⟩ := Option.bind_eq_some_iff.1 e
  simp only [execStoreAccept, hop]
  dsimp only at e
  split at e
  · next hgo =>
    obtain ⟨hun, hacc⟩ := Bool.and_eq_true_iff.1 hgo
    split at e
    · next hheld =>
      obtain ⟨hnone, rfl⟩ := due_eq_some.1 e
      simp [hun, hacc, hheld, Option.isNone_iff_eq_none.1 hnone]
    · next hheld =>
      split at e
      · next hbuf =>
        obtain ⟨hb, hnone⟩ := Bool.and_eq_true_iff.1 hbuf
        simp only [hun, hacc, hheld, hb, Option.isNone_iff_eq_none.1 hnone, Bool.not_true, Bool.true_or, Bool.or_self, Bool.false_eq_true, if_false]
        cases hp : p.op <;> simp only [hp] at e ⊢
        case cflush => obtain ⟨u, hu, rfl⟩ := granted_eq_some e; rw [hu]
        case cinval => obtain ⟨u, hu, rfl⟩ := granted_eq_some e; rw [hu]
        all_goals exact congrArg _ (Option.some.inj e)
      · cases e
  · cases e

/-! Time, the watchdog, drains and long contexts. -/

theorem timer_event (e : hartEvents s (.timer h) = some t) : exec (.timer h) s = .next t := by
  show execTimer h s = _
  dsimp only [hartEvents] at e
  obtain ⟨hs, hh, e⟩ := Option.bind_eq_some_iff.1 e
  obtain ⟨hd, rfl⟩ := due_eq_some.1 e
  simp only [Bool.and_eq_true, bne_iff_ne, decide_eq_true_eq] at hd
  simp only [execTimer, hh]
  exact if_pos hd

theorem twaitDeadline_event (e : hartEvents s (.twaitDeadline h n) = some t) : exec (.twaitDeadline h n) s = .next t := by
  show execTwaitDeadline h n s = _
  dsimp only [hartEvents] at e
  obtain ⟨⟨hs, p⟩, hop, e⟩ := Option.bind_eq_some_iff.1 e
  simp only [execTwaitDeadline, hop]
  cases hp : p.op <;> simp only [hp] at e ⊢
  case twait =>
    obtain ⟨hd, rfl⟩ := due_eq_some.1 e
    exact if_pos (of_decide_eq_true hd)
  all_goals cases e

theorem watchdogExpiry_event (e : hartEvents s (.watchdogExpiry h) = some t) : exec (.watchdogExpiry h) s = .next t := by
  show execWatchdogExpiry h s = _
  dsimp only [hartEvents] at e
  obtain ⟨hs, hh, e⟩ := Option.bind_eq_some_iff.1 e
  obtain ⟨c, hc, e⟩ := Option.bind_eq_some_iff.1 e
  obtain ⟨hd, rfl⟩ := due_eq_some.1 e
  simp only [Bool.and_eq_true, bne_iff_ne, decide_eq_true_eq, Bool.not_eq_true'] at hd
  obtain ⟨⟨⟨hne, hle⟩, hhalt⟩, hraised⟩ := hd
  have h0 : (coreOf s c).wdog.toNat ≠ 0 := fun h0 => hne (BitVec.eq_of_toNat_eq h0)
  simp only [execWatchdogExpiry, hh, hc, hraised, hhalt, h0, decide_false, Bool.or_false, not_lt.2 hle,
    Bool.false_eq_true, if_false, hartEvents.stalled]
  cases stalledPorts s h hs <;> rfl

theorem drainRequest_event {a : Agent} (e : hartEvents s (.drainRequest h a) = some t) : exec (.drainRequest h a) s = .next t := by
  show execDrainRequest h a s = _
  dsimp only [hartEvents] at e
  obtain ⟨hs, hh, e⟩ := Option.bind_eq_some_iff.1 e
  obtain ⟨⟨k, as⟩, hdr, e⟩ := Option.bind_eq_some_iff.1 e
  obtain ⟨hd, rfl⟩ := due_eq_some.1 e
  simp only [execDrainRequest, hh, hdr]
  exact if_neg (by simpa using hd)

theorem longContextGrant_event (e : hartEvents s (.longContextGrant n) = some t) : exec (.longContextGrant n) s = .next t := by
  show execLongContextGrant n s = _
  dsimp only [hartEvents] at e
  obtain ⟨u, hu, e⟩ := Option.bind_eq_some_iff.1 e
  obtain ⟨⟨k, hs⟩, hk, e⟩ := Option.bind_eq_some_iff.1 e
  obtain ⟨hd, rfl⟩ := due_eq_some.1 e
  simp only [execLongContextGrant, hu, hk, not_le.2 (of_decide_eq_true hd), if_false]
  split <;> rfl

/-! Ports. -/

theorem queueGoSignal_event {q : Fin 4} (e : hartEvents s (.queueGoSignal h q) = some t) : exec (.queueGoSignal h q) s = .next t := by
  show execQueueGoSignal h q s = _
  dsimp only [hartEvents] at e
  obtain ⟨hs, hh, e⟩ := Option.bind_eq_some_iff.1 e
  obtain ⟨hd, rfl⟩ := due_eq_some.1 e
  simp only [execQueueGoSignal, hh]
  exact if_pos hd

theorem queuePush_event (e : hartEvents s (.queuePush n) = some t) : exec (.queuePush n) s = .next t := by
  show execQueuePush n s = _
  dsimp only [hartEvents] at e
  obtain ⟨m, hm, e⟩ := Option.bind_eq_some_iff.1 e
  simp only [execQueuePush, hm]
  cases ht : hartByUid s m.target with
  | none =>
    simp only [ht] at e ⊢
    obtain ⟨hd, rfl⟩ := due_eq_some.1 e
    exact congrArg _ (if_neg (by simpa using hd))
  | some x =>
    obtain ⟨k, ts⟩ := x
    simp only [ht] at e ⊢
    obtain ⟨hd, rfl⟩ := due_eq_some.1 e
    obtain ⟨hearly, hrel⟩ := Bool.and_eq_true_iff.1 hd
    have hu : hartByUid { s with pushes := s.pushes.eraseIdx n } m.src = hartByUid s m.src := rfl
    simp only [(Bool.not_eq_true' _).mp hearly, hrel, Bool.not_true, Bool.or_self, Bool.false_eq_true, if_false]
    cases hsrc : hartByUid s m.src <;> simp only [hartEvents.entryHeard, hu, hsrc]

/-! The matrix queue. -/

theorem thawCheck_event (e : hartEvents s (.thawCheck h) = some t) : exec (.thawCheck h) s = .next t := by
  show execThawCheck h s = _
  dsimp only [hartEvents] at e
  obtain ⟨hs, hh, e⟩ := Option.bind_eq_some_iff.1 e
  obtain ⟨c, hc, e⟩ := Option.bind_eq_some_iff.1 e
  obtain ⟨f, hf, e⟩ := Option.bind_eq_some_iff.1 e
  simp only [execThawCheck, hh, hc, hf]
  split at e
  · next hgo =>
    simp only [Bool.and_eq_true, Bool.not_eq_true'] at hgo
    obtain ⟨⟨⟨⟨hdue, hhalt⟩, hheld⟩, htrap⟩, hwaits⟩ := hgo
    simp only [hdue, hhalt, hheld, htrap, hwaits, Bool.not_true, Bool.or_self, Bool.false_eq_true, if_false]
    cases hcause : tileCause (coreOf s c) f.slot (f.entries.flatMap fun e => mxTiles e.op) with
    | none =>
      rw [hcause] at e
      exact congrArg _ (Option.some.inj e)
    | some x =>
      rw [hcause] at e
      split at e
      · next hx => cases hx; exact congrArg _ (Option.some.inj e)
      · next k v hne hx =>
        cases hx
        rw [← Option.some.inj e]
        exact congrArg (fun u => Host.Outcome.next (raiseIssue u h hs k v false)) (if_neg fun hk => hne (by rw [hk]))
      · next hx => cases hx
  · cases e

theorem matrixInstructionCompletion_event (e : hartEvents s (.matrixInstructionCompletion n) = some t) :
    exec (.matrixInstructionCompletion n) s = .next t := by
  have e : mxFirst s n [] (coreOf s n).queue = some t := e
  show execMatrixInstructionCompletion n s = _
  rw [execMatrixInstructionCompletion, e, Option.getD_some]

theorem mcmdCommandArrival_event (e : hartEvents s (.mcmdCommandArrival h n) = some t) : exec (.mcmdCommandArrival h n) s = .next t := by
  show execMcmdCommandArrival h n s = _
  dsimp only [hartEvents] at e
  obtain ⟨⟨hs, p⟩, hop, e⟩ := Option.bind_eq_some_iff.1 e
  simp only [execMcmdCommandArrival, hop]
  cases hp : p.op <;> simp only [hp] at e ⊢
  case mcmd cmd cap ticket =>
    cases ticket with
    | none =>
      obtain ⟨hd, rfl⟩ := due_eq_some.1 e
      simp only [Bool.and_eq_true, beq_iff_eq] at hd
      simp [hd]
    | some k =>
      obtain ⟨op, hc, e⟩ := Option.bind_eq_some_iff.1 e
      obtain ⟨hd, rfl⟩ := due_eq_some.1 e
      simp only [hc, beq_iff_eq.1 hd]
      rfl
  all_goals cases e

/-! Migration. -/

theorem migrationMessage_event (e : hartEvents s (.migrationMessage n) = some t) : exec (.migrationMessage n) s = .next t := by
  show execMigrationMessage n s = _
  dsimp only [hartEvents] at e
  obtain ⟨x, hx, e⟩ := Option.bind_eq_some_iff.1 e
  simp only [execMigrationMessage, hx]
  cases hxs : x.hs with
  | none =>
    simp only [hxs] at e ⊢
    obtain ⟨⟨k, hs⟩, hk, e⟩ := Option.bind_eq_some_iff.1 e
    obtain ⟨hd, rfl⟩ := due_eq_some.1 e
    simp only [hk]
    exact if_pos hd
  | some hs =>
    simp only [hxs] at e ⊢
    split at e
    · next hr => exact (if_pos hr).trans (congrArg _ (Option.some.inj e))
    · next hr =>
      cases e
      rw [if_neg hr]
      cases shipPlace s x.dest <;> rfl

theorem automaticMigration_event (e : hartEvents s (.automaticMigration h) = some t) : exec (.automaticMigration h) s = .next t := by
  show execAutomaticMigration h s = _
  dsimp only [hartEvents] at e
  obtain ⟨hs, hh, e⟩ := Option.bind_eq_some_iff.1 e
  obtain ⟨c, hc, e⟩ := Option.bind_eq_some_iff.1 e
  obtain ⟨x, hx, e⟩ := Option.bind_eq_some_iff.1 e
  obtain ⟨y, hy, e⟩ := Option.bind_eq_some_iff.1 e
  obtain ⟨⟨k, ks⟩, hk, e⟩ := Option.bind_eq_some_iff.1 e
  obtain ⟨hd, rfl⟩ := due_eq_some.1 e
  simp only [execAutomaticMigration, hh, hc, hx, execMigrationMessage, hy, Option.isNone_iff_eq_none.1 hd, hk]
  split <;> rfl

end Sys2Proof.Machine

namespace Sys2Proof.Laws

open Sys2Proof.Machine

/-- Settles O54: each row of the table is what its event does. -/
theorem hartEvents : Obligations.HartEvents := by
  intro i s t e
  cases i with
  | resultReturn => exact resultReturn_event e
  | storeAccept => exact storeAccept_event e
  | trapEntry => exact congrArg _ (Option.some.inj e)
  | asyncCauseTaken => exact congrArg _ (Option.some.inj e)
  | timer => exact timer_event e
  | twaitDeadline => exact twaitDeadline_event e
  | watchdogExpiry => exact watchdogExpiry_event e
  | drainRequest => exact drainRequest_event e
  | longContextGrant => exact longContextGrant_event e
  | queuePush => exact queuePush_event e
  | queueGoSignal => exact queueGoSignal_event e
  | thawCheck => exact thawCheck_event e
  | matrixInstructionCompletion => exact matrixInstructionCompletion_event e
  | mcmdCommandArrival => exact mcmdCommandArrival_event e
  | automaticMigration => exact automaticMigration_event e
  | migrationMessage => exact migrationMessage_event e
  | _ => cases e

end Sys2Proof.Laws
end

section
/-!
The worked encodings of the spec: each is the word that the encoder makes of its instruction, so it decodes to it.
-/

namespace Sys2Proof.Laws

open Sys2Proof.Machine

theorem leBytes_add (m n x : Nat) : leBytes (m + n) x = leBytes m x ++ leBytes n (x / 256 ^ m) := by
  induction m generalizing x with
  | zero => simp [leBytes]
  | succ m ih => simp [Nat.succ_add, leBytes, ih, Nat.div_div_eq_div_mul, Nat.pow_succ']

/-- The word of a well-formed instruction decodes to it, from any number of the word's bytes that reaches its length (R10, R16). -/
theorem decode_of_encode {i : Instr} {sw : Bool} {w : BitVec 128} {m n : Nat} (hw : i.wellFormed = true) (he : encode i sw = some (w, m))
    (hn : m ≤ n) : decode (leBytes n w.toNat) = .ok ⟨i, sw, m, w.extractLsb' 0 32⟩ := by
  obtain ⟨h, hh, heq⟩ := Option.map_eq_some_iff.1 he
  obtain ⟨rfl, rfl⟩ := Prod.mk.inj heq
  obtain ⟨hd, hsw⟩ := roundTrip i sw h hw hh
  obtain ⟨k, rfl⟩ := Nat.exists_eq_add_of_le hn
  rw [leBytes_add, decode_head, hd, hsw]

/-- A number that the encoder makes of a well-formed instruction without a switch marker reads as that instruction in a table of words. -/
theorem decodeTableWord_of_encode {i : Instr} {x nbits : Nat} (hw : i.wellFormed = true)
    (he : (encode i false).map Prod.fst = some (BitVec.ofNat 128 x)) (hx : x < 2 ^ nbits) (hb : nbits ≤ 128) :
    decodeTableWord nbits x = some i := by
  obtain ⟨⟨_, m⟩, he, rfl⟩ := Option.map_eq_some_iff.1 he
  have hm : m ≤ 32 := by
    obtain ⟨h, -, heq⟩ := Option.map_eq_some_iff.1 he
    obtain ⟨-, rfl⟩ := Prod.mk.inj heq
    have := Ext.size_cases h.ext
    omega
  have hnat : (BitVec.ofNat 128 x).toNat = x := Nat.mod_eq_of_lt (hx.trans_le (Nat.pow_le_pow_right Nat.two_pos hb))
  have hd := decode_of_encode hw he hm
  rw [hnat] at hd
  rw [decodeTableWord, Nat.mod_eq_of_lt hx, hd]

/-- Settles O1: each worked encoding is the word that the encoder makes of its instruction. -/
theorem decodeWords : Obligations.DecodeWords := by
  have windowLoad := decode_of_encode (i := .windowLd 0 (.g 5) (.g 4) 32 ⟨0, 1, 0, 0, false, none⟩ ⟨.acq, .cluster⟩) (sw := true)
    (w := 0x00000008002014180008_2996) (m := 12) (n := 12) (by decide) (by decide) (Nat.le_refl _)
  refine ⟨windowLoad, ?putr, ?cas, ?vfma, ?mma, ?tshape, ?mfs⟩
  all_goals exact decodeTableWord_of_encode (by decide) (by decide) (by decide) (by decide)

end Sys2Proof.Laws
end

section
/-!
Floating-point patterns and the one rounding at the end (R59, R65, R66): a value that a format holds exactly comes back as its own pattern.
-/

namespace Sys2Proof.Machine

/-! The fields of a pattern. -/

/-- The exponent field of a pattern (R59). -/
def expField (f : Fmt) (x : Nat) : Nat := x / 2 ^ (fspec f).fb % 2 ^ (fspec f).eb

/-- The fraction field of a pattern (R59). -/
def fracField (f : Fmt) (x : Nat) : Nat := x % 2 ^ (fspec f).fb

/-- The exponent of the lowest bit of a subnormal (R59). -/
def lowestExp (f : Fmt) : Int := 1 - (fspec f).bias - (fspec f).fb

theorem expField_lt (f : Fmt) (x : Nat) : expField f x < 2 ^ (fspec f).eb := Nat.mod_lt _ (by positivity)

theorem fracField_lt (f : Fmt) (x : Nat) : fracField f x < 2 ^ (fspec f).fb := Nat.mod_lt _ (by positivity)

/-- A pattern is its sign, its exponent field and its fraction field. -/
theorem withSign_fields {f : Fmt} {x : Nat} (hx : x < 2 ^ (1 + (fspec f).eb + (fspec f).fb)) :
    withSign f (x.testBit ((fspec f).eb + (fspec f).fb)) (expField f x * 2 ^ (fspec f).fb + fracField f x) = x := by
  have hfields : expField f x * 2 ^ (fspec f).fb + fracField f x = x % signBit f := by
    rw [signBit, Nat.add_comm (fspec f).eb, Nat.pow_add, Nat.mod_mul, expField, fracField, Nat.mul_comm, Nat.add_comm]
  have htop : x / signBit f < 2 := Nat.div_lt_of_lt_mul (by rwa [signBit, ← Nat.pow_succ, Nat.succ_eq_one_add, ← Nat.add_assoc])
  have hdiv := Nat.div_add_mod x (signBit f)
  rw [hfields, Nat.testBit_eq_decide_div_mod_eq, ← signBit, Nat.mod_eq_of_lt htop, withSign]
  obtain hs | hs := Nat.le_one_iff_eq_zero_or_eq_one.1 (Nat.le_of_lt_succ htop)
  · simpa [hs] using hdiv
  · simpa [hs] using hdiv

/-- Decoding by fields (R59, R60). -/
theorem fdecode_eq (f : Fmt) (x : Nat) : fdecode f x =
    let neg := x.testBit ((fspec f).eb + (fspec f).fb)
    let normal := FVal.fin neg (2 ^ (fspec f).fb + fracField f x) (lowestExp f + expField f x - 1)
    if expField f x = 0 then .fin neg (fracField f x) (lowestExp f)
    else if f = .f8a then (if expField f x = 15 ∧ fracField f x = 7 then .nan else normal)
    else if f = .f6 then normal
    else if expField f x = 2 ^ (fspec f).eb - 1 then (if fracField f x = 0 then .inf neg else .nan)
    else normal := rfl

/-- The top of a format with infinities and NaNs of its own. -/
theorem topOf_of_ieee {f : Fmt} (ha : f ≠ .f8a) (h6 : f ≠ .f6) :
    topOf f = ((2 ^ (fspec f).eb - 2 : Int) - (fspec f).bias, 2 ^ ((fspec f).fb + 1) - 1) := by
  unfold topOf
  split
  · contradiction
  · contradiction
  · rfl

/-- A significand `m` of `fb + 1` bits whose leading bit has the exponent `E` is no larger than the largest finite magnitude (R59). -/
def AtMostTop (f : Fmt) (E : Int) (m : Nat) : Prop := E < (topOf f).1 ∨ E = (topOf f).1 ∧ m ≤ (topOf f).2

/-- What a pattern that is no NaN stands for: a zero or subnormal, a normal number of the format, or an infinity. -/
theorem fdecode_cases {f : Fmt} {x : Nat} (hx : fdecode f x ≠ .nan) :
    (expField f x = 0 ∧ fdecode f x = .fin (x.testBit ((fspec f).eb + (fspec f).fb)) (fracField f x) (lowestExp f)) ∨
    (expField f x ≠ 0 ∧ AtMostTop f (expField f x - (fspec f).bias) (2 ^ (fspec f).fb + fracField f x) ∧
      fdecode f x = .fin (x.testBit ((fspec f).eb + (fspec f).fb)) (2 ^ (fspec f).fb + fracField f x) (lowestExp f + expField f x - 1)) ∨
    (f ≠ .f8a ∧ f ≠ .f6 ∧ expField f x = 2 ^ (fspec f).eb - 1 ∧ fracField f x = 0 ∧
      fdecode f x = .inf (x.testBit ((fspec f).eb + (fspec f).fb))) := by
  have he := expField_lt f x
  have hfr := fracField_lt f x
  have hdec := fdecode_eq f x
  dsimp only at hdec
  by_cases h0 : expField f x = 0
  · exact .inl ⟨h0, by rw [hdec, if_pos h0]⟩
  refine .inr ?_
  rw [if_neg h0] at hdec
  by_cases ha : f = .f8a
  · subst ha
    rw [if_pos rfl] at hdec
    by_cases hnan : expField .f8a x = 15 ∧ fracField .f8a x = 7
    · exact absurd (hdec.trans (if_pos hnan)) hx
    · refine .inl ⟨h0, ?_, hdec.trans (if_neg hnan)⟩
      simp only [AtMostTop, topOf, fspec] at he hfr ⊢
      omega
  rw [if_neg ha] at hdec
  by_cases h6 : f = .f6
  · subst h6
    refine .inl ⟨h0, ?_, hdec.trans (if_pos rfl)⟩
    simp only [AtMostTop, topOf, fspec] at he hfr ⊢
    omega
  rw [if_neg h6] at hdec
  by_cases hm : expField f x = 2 ^ (fspec f).eb - 1
  · rw [if_pos hm] at hdec
    by_cases hz : fracField f x = 0
    · exact .inr ⟨ha, h6, hm, hz, hdec.trans (if_pos hz)⟩
    · exact absurd (hdec.trans (if_neg hz)) hx
  · refine .inl ⟨h0, ?_, hdec.trans (if_neg hm)⟩
    have hcast : (2 ^ (fspec f).eb : Int) = (2 ^ (fspec f).eb : Nat) := by push_cast; rfl
    rw [AtMostTop, topOf_of_ieee ha h6, Nat.pow_succ, hcast]
    omega

/-! Rounding where nothing is lost. -/

theorem lt_pow_bitLen (m : Nat) : m < 2 ^ bitLen m := by
  by_cases hm : m = 0
  · simp [bitLen, hm]
  · simpa [bitLen, hm] using Nat.lt_log2_self

theorem bitLen_le {m p : Nat} (hp : m < 2 ^ p) : bitLen m ≤ p := by
  by_cases hm : m = 0
  · simp [bitLen, hm]
  · have := Nat.log2_lt hm |>.2 hp
    simpa [bitLen, hm] using this

theorem bitLen_eq_succ {m k : Nat} (hl : 2 ^ k ≤ m) (hu : m < 2 ^ (k + 1)) : bitLen m = k + 1 := by
  have hm : m ≠ 0 := (Nat.two_pow_pos k |>.trans_le hl).ne'
  rw [bitLen, if_neg hm, (Nat.log2_eq_iff hm).2 ⟨hl, hu⟩]

/-- No bit is lost below the lowest one that is there. -/
theorem quantize_of_le {rnd : Rnd} {neg : Bool} {m : Nat} {e qe : Int} (h : qe ≤ e) :
    quantize rnd neg m e qe = (m * 2 ^ (e - qe).toNat, false) := if_pos h

/-- A significand that fits in `p` bits is shifted up to fill them. -/
theorem quantize_of_fits {rnd : Rnd} {neg : Bool} {m p : Nat} {e : Int} (hp : m < 2 ^ p) :
    quantize rnd neg m e (e + bitLen m - p) = (m * 2 ^ (p - bitLen m), false) := by
  have hb := bitLen_le hp
  rw [quantize_of_le (by omega)]
  congr 3
  omega

/-- A significand that is shifted up to fill `p` bits does not carry into one more. -/
theorem shifted_ne_top {m p : Nat} (hp : m < 2 ^ p) : m * 2 ^ (p - bitLen m) ≠ 2 ^ p := by
  have h := Nat.mul_lt_mul_of_pos_right (lt_pow_bitLen m) (Nat.two_pow_pos (p - bitLen m))
  rw [← Nat.pow_add, Nat.add_sub_cancel' (bitLen_le hp)] at h
  exact h.ne

section

variable {f : Fmt} {rnd : Rnd} {neg : Bool} {m : Nat} {e : Int}

/-- A magnitude whose significand fits loses nothing, so one that is no larger than the largest finite one does not round above it. -/
theorem roundsAbove_of_fits (hp : m < 2 ^ ((fspec f).fb + 1))
    (htop : AtMostTop f (e + bitLen m - 1) (m * 2 ^ ((fspec f).fb + 1 - bitLen m))) : roundsAbove f rnd neg m e = false := by
  have hex : e + bitLen m - ((fspec f).fb + 1 : Nat) + (fspec f).fb = e + bitLen m - 1 := by omega
  unfold AtMostTop at htop
  simp only [roundsAbove, quantize_of_fits hp, if_neg (shifted_ne_top hp), hex, Bool.or_eq_false_iff, Bool.and_eq_false_iff,
    decide_eq_false_iff_not, beq_eq_false_iff_ne]
  omega

/-- The significand 30 of the row of log 85 is a multiple of 15, and none that fits in F6 is. -/
theorem overflowRow_of_fits (h0 : m ≠ 0) (hp : m < 2 ^ ((fspec f).fb + 1)) : overflowRow f m e = false := by
  refine decide_eq_false fun ⟨h6, heq⟩ => ?_
  subst h6
  have hdvd : 15 ∣ m * 2 ^ e.toNat := heq ▸ Dvd.dvd.mul_right (by decide) _
  have hm : 15 ∣ m := (Nat.Coprime.pow_right e.toNat (by decide)).dvd_of_dvd_mul_right hdvd
  exact absurd (Nat.le_of_dvd (Nat.pos_of_ne_zero h0) hm) (by simp only [fspec] at hp; omega)

@[simp] theorem fround_zero {md : FpMode} : fround f md (.fin neg 0 e) = (withSign f neg 0, {}) := rfl

/-- A significand that fits, of a number that is not too large, is rounded at its own exponent, or as a subnormal below the normal ones. -/
theorem fround_of_fits (h0 : m ≠ 0) (hp : m < 2 ^ ((fspec f).fb + 1))
    (htop : AtMostTop f (e + bitLen m - 1) (m * 2 ^ ((fspec f).fb + 1 - bitLen m))) :
    fround f ⟨rnd, false⟩ (.fin neg m e) =
      if e + bitLen m - 1 < 1 - (fspec f).bias then
        (withSign f neg (quantize rnd neg m e (lowestExp f)).1,
          { uf := (quantize rnd neg m e (lowestExp f)).2, nx := (quantize rnd neg m e (lowestExp f)).2 })
      else (withSign f neg ((e + bitLen m - 1 + (fspec f).bias).toNat * 2 ^ (fspec f).fb +
        (m * 2 ^ ((fspec f).fb + 1 - bitLen m) - 2 ^ (fspec f).fb)), {}) := by
  have hex : e + bitLen m - ((fspec f).fb + 1 : Nat) + (fspec f).fb = e + bitLen m - 1 := by omega
  simp only [fround, if_neg h0, quantize_of_fits hp, if_neg (shifted_ne_top hp), roundsAbove_of_fits hp htop, overflowRow_of_fits h0 hp,
    hex, lowestExp, Bool.or_self, Bool.false_and, Bool.false_eq_true, if_false]

theorem one_sub_bias_le_top (f : Fmt) : 1 - ((fspec f).bias : Int) ≤ (topOf f).1 := by cases f <;> decide

/-- A zero or subnormal of a format is rounded to its own pattern. -/
theorem fround_subnormal (hm : m < 2 ^ (fspec f).fb) : fround f ⟨rnd, false⟩ (.fin neg m (lowestExp f)) = (withSign f neg m, {}) := by
  by_cases h0 : m = 0
  · rw [h0, fround_zero]
  have hb := bitLen_le hm
  have hlow : lowestExp f + bitLen m - 1 < 1 - (fspec f).bias := by rw [lowestExp]; omega
  have htop : AtMostTop f (lowestExp f + bitLen m - 1) (m * 2 ^ ((fspec f).fb + 1 - bitLen m)) :=
    .inl (hlow.trans_le (one_sub_bias_le_top f))
  rw [fround_of_fits h0 (hm.trans (Nat.pow_lt_pow_succ Nat.one_lt_two)) htop, if_pos hlow, quantize_of_le le_rfl]
  simp

/-- A normal number of a format is rounded to its own pattern. -/
theorem fround_normal {E fr : Nat} (hE : E ≠ 0) (hfr : fr < 2 ^ (fspec f).fb) (htop : AtMostTop f (E - (fspec f).bias) (2 ^ (fspec f).fb + fr)) :
    fround f ⟨rnd, false⟩ (.fin neg (2 ^ (fspec f).fb + fr) (lowestExp f + E - 1)) = (withSign f neg (E * 2 ^ (fspec f).fb + fr), {}) := by
  have hpos := Nat.two_pow_pos (fspec f).fb
  have hp : 2 ^ (fspec f).fb + fr < 2 ^ ((fspec f).fb + 1) := by omega
  have hb : bitLen (2 ^ (fspec f).fb + fr) = (fspec f).fb + 1 := bitLen_eq_succ (Nat.le_add_right ..) hp
  have hex : lowestExp f + E - 1 + ((fspec f).fb + 1 : Nat) - 1 = E - (fspec f).bias := by rw [lowestExp]; omega
  have hE' : ((E : Int) - (fspec f).bias + (fspec f).bias).toNat = E := by omega
  rw [fround_of_fits (by omega) hp] <;> rw [hb, hex, Nat.sub_self, Nat.pow_zero, Nat.mul_one]
  · rw [if_neg (by omega), hE', Nat.add_sub_cancel_left]
  · exact htop

theorem fround_inf {md : FpMode} (ha : f ≠ .f8a) (h6 : f ≠ .f6) :
    fround f md (.inf neg) = (withSign f neg ((2 ^ (fspec f).eb - 1) * 2 ^ (fspec f).fb), {}) := by
  have hbits : infinityBits f = (2 ^ (fspec f).eb - 1) * 2 ^ (fspec f).fb := by
    unfold infinityBits
    split
    · contradiction
    · contradiction
    · rfl
  simp [fround, hbits, ha, h6]

end

/-- Rounding undoes decoding, in every mode and without a flag. -/
theorem fround_fdecode {f : Fmt} {rnd : Rnd} {x : Nat} (hx : x < 2 ^ (1 + (fspec f).eb + (fspec f).fb)) (hn : fdecode f x ≠ .nan) :
    fround f ⟨rnd, false⟩ (fdecode f x) = (x, {}) := by
  have hsign := withSign_fields hx
  obtain ⟨he, hd⟩ | ⟨he, htop, hd⟩ | ⟨ha, h6, he, hz, hd⟩ := fdecode_cases hn
  · rw [he, Nat.zero_mul, Nat.zero_add] at hsign
    rw [hd, fround_subnormal (fracField_lt f x), hsign]
  · rw [hd, fround_normal he (fracField_lt f x) htop, hsign]
  · rw [he, hz, Nat.add_zero] at hsign
    rw [hd, fround_inf ha h6, hsign]

/-- Settles O41: rounding undoes decoding. -/
theorem exactValuesRoundToThemselves : Obligations.ExactValuesRoundToThemselves :=
  fun _ _ _ _ hx hn => fround_fdecode hx hn

end Sys2Proof.Machine
end

section
/-!
Atomics (R122): what is read back after one, and the values that it leaves.
-/

namespace Sys2Proof.Machine

/-! Writing memory touches nothing but its bytes. -/

@[simp] theorem noteCopied_mem (s : State) (c lo len : Nat) : (noteCopied s c lo len).mem = s.mem := by
  unfold noteCopied
  split <;> rfl

@[simp] theorem noteUnfold_mem (s : State) (pa len : Nat) : (noteUnfold s pa len).mem = s.mem := by
  unfold noteUnfold
  dsimp only
  split
  · rfl
  · split
    · rw [setCore_mem, noteCopied_mem]
    · exact noteCopied_mem ..

@[simp] theorem putMem_mem (s : State) (m : List Host.Cell) (pa len : Nat) : (putMem s m pa len).mem = m := noteUnfold_mem ..

theorem leNat_lt (bs : List Byte) : leNat bs < 256 ^ bs.length := by
  induction bs with
  | nil => exact Nat.one_pos
  | cons b bs ih =>
    have hb := b.isLt
    rw [leNat, List.length_cons, Nat.pow_succ]
    omega

theorem memNat_lt (m : List Host.Cell) (a n : Nat) : memNat m a n < 2 ^ (8 * n) := by
  simpa [memNat, Nat.pow_mul] using leNat_lt (memBytes m a n)

theorem memNat_memSetNat {m : List Host.Cell} (a n v : Nat) (hm : memWf m = true) : memNat (memSetNat m a n v) a n = v % 2 ^ (8 * n) := by
  obtain ⟨-, hread, -⟩ := littleEndian m a n v hm
  rw [hread, Nat.pow_mul]

theorem memByte_memSetNat_outside {m : List Host.Cell} {a n k : Nat} (v : Nat) (hk : k < a ∨ a + n ≤ k) :
    memByte (memSetNat m a n v) k = memByte m k :=
  memByte_memSetBytes_outside _ m a k (by rwa [leBytes_length])

/-- The number that an atomic leaves. -/
theorem memNat_atomicEffect {s : State} {a len : Nat} {fn : AtomicFn} {b c : Word} (hm : memWf s.mem = true) :
    memNat (atomicEffect s a len fn b c).1.mem a len =
      atomicNew fn (8 * len) (memNat s.mem a len) (b.toNat % 2 ^ (8 * len)) (c.toNat % 2 ^ (8 * len)) % 2 ^ (8 * len) := by
  rw [atomicEffect, putMem_mem, memNat_memSetNat _ _ _ hm]

theorem memByte_atomicEffect_outside {s : State} {a len k : Nat} {fn : AtomicFn} {b c : Word} (hk : k < a ∨ a + len ≤ k) :
    memByte (atomicEffect s a len fn b c).1.mem k = memByte s.mem k := by
  rw [atomicEffect, putMem_mem, memByte_memSetNat_outside _ hk]

/-- The two's complement view of a lane is the balanced remainder (R62). -/
theorem signedLane_eq_bmod {n x : Nat} (hn : 0 < n) (hx : x < 2 ^ n) : signedLane n x = Int.bmod x (2 ^ n) := by
  obtain ⟨k, rfl⟩ := Nat.exists_eq_succ_of_ne_zero hn.ne'
  have hmod : (x : Int) % (2 ^ (k + 1) : Nat) = x := Int.emod_eq_of_lt (by omega) (by exact_mod_cast hx)
  have hhalf : ((x : Int) < ((2 ^ (k + 1) : Nat) + 1) / 2) ↔ x < 2 ^ k := by
    rw [Nat.pow_succ]
    omega
  rw [Int.bmod_def, hmod, if_congr hhalf rfl rfl, signedLane, Nat.succ_sub_one]
  push_cast
  rfl

/-- The new value of an integer atomic fits in its width where its operands do. -/
theorem atomicNew_lt {fn : AtomicFn} {w old x y : Nat} (hfn : fn ≠ .fadd) (hold : old < 2 ^ w) (hx : x < 2 ^ w) (hy : y < 2 ^ w) :
    atomicNew fn w old x y < 2 ^ w := by
  have hite {c : Prop} [Decidable c] {m n : Nat} (hm : m < 2 ^ w) (hn : n < 2 ^ w) : (if c then m else n) < 2 ^ w :=
    iteInduction (motive := (· < 2 ^ w)) (fun _ => hm) fun _ => hn
  cases fn with
  | swap => exact hx
  | cas => exact hite hy hold
  | add => exact Nat.mod_lt _ (Nat.two_pow_pos w)
  | and => exact Nat.and_lt_two_pow _ hx
  | or => exact Nat.or_lt_two_pow hold hx
  | xor => exact Nat.xor_lt_two_pow hold hx
  | min | minn => exact hite hold hx
  | max | maxn => exact hite hx hold
  | fadd => exact absurd rfl hfn

/-! Sums of floating-point numbers (R61, R148). -/

theorem fadd_of_nan {rnd : Rnd} {a b : FVal} (h : a = .nan ∨ b = .nan) : fadd rnd a b = (.nan, {}) := by
  obtain rfl | rfl := h
  · rfl
  · cases a <;> rfl

theorem fadd_inf_fin (rnd : Rnd) (p q : Bool) (m : Nat) (e : Int) : fadd rnd (.inf p) (.fin q m e) = (.inf p, {}) := rfl

theorem fadd_fin_inf (rnd : Rnd) (p q : Bool) (m : Nat) (e : Int) : fadd rnd (.fin q m e) (.inf p) = (.inf p, {}) := rfl

theorem signedNat_mul (neg : Bool) (m k : Nat) : signedNat neg m * (2 : Int) ^ k = signedNat neg (m * 2 ^ k) := by
  cases neg <;> simp [signedNat]

theorem signedNat_add (neg : Bool) (x y : Nat) : signedNat neg x + signedNat neg y = signedNat neg (x + y) := by
  cases neg <;> simp [signedNat, Int.add_comm]

theorem signedNat_add_not (neg : Bool) {x y : Nat} (h : y ≤ x) : signedNat neg x + signedNat (!neg) y = signedNat neg (x - y) := by
  cases neg <;> simp [signedNat] <;> omega

/-- The number `z × 2^e`, zero with the sign that is given. -/
def signedVal (zeroNeg : Bool) (z : Int) (e : Int) : FVal := .fin (if z = 0 then zeroNeg else decide (z < 0)) z.natAbs e

theorem signedVal_of_ne_zero {zeroNeg : Bool} {z e : Int} (hz : z ≠ 0) : signedVal zeroNeg z e = .fin (decide (z < 0)) z.natAbs e :=
  congrArg (FVal.fin · _ _) (if_neg hz)

theorem signedVal_signedNat {neg zeroNeg : Bool} {n : Nat} {e : Int} (h : n ≠ 0 ∨ neg = zeroNeg) :
    signedVal zeroNeg (signedNat neg n) e = .fin neg n e := by
  by_cases hn : n = 0
  · obtain rfl : neg = zeroNeg := h.resolve_left (not_not_intro hn)
    cases neg <;> rw [hn] <;> rfl
  · cases neg with
    | false => simp [signedVal, signedNat, hn]
    | true =>
      simp [signedVal, signedNat, hn]
      omega

/-- The sum of finite numbers is exact; to nearest, a zero sum is negative only where both addends are. -/
theorem fadd_fin (p q : Bool) (m n : Nat) (d e : Int) : (fadd .rne (.fin p m d) (.fin q n e)).1 =
    signedVal (p && q) (signedNat p m * 2 ^ (d - min d e).toNat + signedNat q n * 2 ^ (e - min d e).toNat) (min d e) := by
  rw [signedNat_mul, signedNat_mul]
  simp only [fadd]
  generalize m * 2 ^ (d - min d e).toNat = x
  generalize n * 2 ^ (e - min d e).toNat = y
  by_cases hpq : p = q
  · subst hpq
    rw [if_pos rfl, signedNat_add, Bool.and_self, signedVal_signedNat (.inr rfl)]
  · obtain rfl : q = !p := Bool.eq_not.2 (Ne.symm hpq)
    rw [if_neg hpq, Bool.and_not_self]
    obtain hlt | rfl | hlt := lt_trichotomy x y
    · have hsum := signedNat_add_not (!p) hlt.le
      rw [Bool.not_not, Int.add_comm] at hsum
      rw [if_neg hlt.ne, if_neg hlt.not_gt, hsum, signedVal_signedNat (.inl (by omega))]
    · rw [if_pos rfl, signedNat_add_not p le_rfl, Nat.sub_self]
      cases p <;> rfl
    · rw [if_neg hlt.ne', if_pos hlt, signedNat_add_not p hlt.le, signedVal_signedNat (.inl (by omega))]

/-! AFADD: the sum of two patterns, rounded to nearest even (R122). -/

/-- The pattern of a value that a format holds is the one it was decoded from. -/
theorem fbits_fdecode {f : Fmt} {x : Nat} (hx : x < 2 ^ (1 + (fspec f).eb + (fspec f).fb)) (hn : fdecode f x ≠ .nan) :
    fbits f (fdecode f x) = x := congrArg Prod.fst (fround_fdecode hx hn)

theorem fbits_signedVal_zero (f : Fmt) (zeroNeg : Bool) (e : Int) : fbits f (signedVal zeroNeg 0 e) = if zeroNeg then signBit f else 0 := rfl

/-- What AFADD makes of two patterns of a format. -/
def sumBits (f : Fmt) (x y : Nat) : Nat := fbits f (fadd .rne (fdecode f x) (fdecode f y)).1

theorem atomicNew_fadd (w old x y : Nat) : atomicNew .fadd w old x y = sumBits (if w = 32 then .f32 else .f64) old x := rfl

section

variable {f : Fmt} {x y : Nat} {p q : Bool} {m n : Nat} {d e : Int}

theorem sumBits_of_nan (h : fdecode f x = .nan ∨ fdecode f y = .nan) : sumBits f x y = canonicalNan f := by
  rw [sumBits, fadd_of_nan h]
  rfl

theorem sumBits_inf_inf (hlt : x < 2 ^ (1 + (fspec f).eb + (fspec f).fb)) (hx : fdecode f x = .inf p) (hy : fdecode f y = .inf q) :
    sumBits f x y = if p = q then x else canonicalNan f := by
  rw [sumBits, hx, hy, fadd]
  by_cases hpq : p = q
  · rw [if_pos hpq, if_pos hpq, ← hx, fbits_fdecode hlt (by simp [hx])]
  · rw [if_neg hpq, if_neg hpq]
    rfl

theorem sumBits_inf_fin (hlt : x < 2 ^ (1 + (fspec f).eb + (fspec f).fb)) (hx : fdecode f x = .inf p) (hy : fdecode f y = .fin q n e) :
    sumBits f x y = x := by
  rw [sumBits, hx, hy, fadd_inf_fin, ← hx, fbits_fdecode hlt (by simp [hx])]

theorem sumBits_fin_inf (hlt : y < 2 ^ (1 + (fspec f).eb + (fspec f).fb)) (hx : fdecode f x = .fin p m d) (hy : fdecode f y = .inf q) :
    sumBits f x y = y := by
  rw [sumBits, hx, hy, fadd_fin_inf, ← hy, fbits_fdecode hlt (by simp [hy])]

theorem sumBits_fin (hx : fdecode f x = .fin p m d) (hy : fdecode f y = .fin q n e) : sumBits f x y =
    fbits f (signedVal (p && q) (signedNat p m * 2 ^ (d - min d e).toNat + signedNat q n * 2 ^ (e - min d e).toNat) (min d e)) := by
  rw [sumBits, hx, hy, fadd_fin]

end

/-- Settles O33: an atomic leaves `atomicNew`'s number, which fits in its width; a sum is exact before it is rounded, and an operand that is
infinite rounds to itself. -/
theorem atomicValues : Obligations.AtomicValues := by
  intro s a len b c hm hlen w old x y signed new
  have hw : 0 < w := by omega
  have hold : old < 2 ^ w := memNat_lt ..
  have hx : x < 2 ^ w := Nat.mod_lt _ (Nat.two_pow_pos w)
  have hy : y < 2 ^ w := Nat.mod_lt _ (Nat.two_pow_pos w)
  have hnew (fn : AtomicFn) : new fn = atomicNew fn w old x y % 2 ^ w := memNat_atomicEffect hm
  have hint (fn : AtomicFn) (hfn : fn ≠ .fadd) : new fn = atomicNew fn w old x y :=
    (hnew fn).trans (Nat.mod_eq_of_lt (atomicNew_lt hfn hold hx hy))
  have hso : signedLane w old = signed old := signedLane_eq_bmod hw hold
  have hsx : signedLane w x = signed x := signedLane_eq_bmod hw hx
  refine ⟨fun fn => ⟨rfl, fun k hk => memByte_atomicEffect_outside hk⟩, hint .swap nofun, hint .cas nofun, hint .add nofun, hint .and nofun,
    hint .or nofun, hint .xor nofun, ?min, ?max, (hint .minn nofun).trans (Nat.min_def ..).symm, (hint .maxn nofun).trans (Nat.max_def ..).symm,
    ?fadd⟩
  case min => rw [hint .min nofun, atomicNew, hso, hsx]
  case max => rw [hint .max nofun, atomicNew, hso, hsx]
  case fadd =>
    intro f nan
    obtain ⟨hfmt, hwidth, hsign, hnan⟩ : (if w = 32 then Fmt.f32 else Fmt.f64) = f ∧ 1 + (fspec f).eb + (fspec f).fb = w ∧
        signBit f = 2 ^ (w - 1) ∧ canonicalNan f % 2 ^ w = nan := by
      obtain rfl | rfl := hlen <;> exact ⟨rfl, rfl, rfl, rfl⟩
    have hsum : new .fadd = sumBits f old x % 2 ^ w := by rw [hnew, atomicNew_fadd, hfmt]
    refine ⟨fun h => ?nan, fun p q hp hq => ?infs, fun p q m e hp hq => ?left, fun p q m e hp hq => ?right, fun p q m n d e hp hq => ?fins⟩
    case nan => rw [hsum, sumBits_of_nan h, hnan]
    case infs => rw [hsum, sumBits_inf_inf (by rwa [hwidth]) hp hq, apply_ite (· % 2 ^ w), Nat.mod_eq_of_lt hold, hnan]
    case left => rw [hsum, sumBits_inf_fin (by rwa [hwidth]) hp hq, Nat.mod_eq_of_lt hold]
    case right => rw [hsum, sumBits_fin_inf (by rwa [hwidth]) hp hq, Nat.mod_eq_of_lt hx]
    case fins =>
      intro low sum
      have hfin : new .fadd = fbits f (signedVal (p && q) sum low) % 2 ^ w := by rw [hsum, sumBits_fin hp hq]
      refine ⟨fun hs => ?_, fun hs => ?_⟩
      · rw [hfin, signedVal_of_ne_zero hs, fbits]
      · have htop : 2 ^ (w - 1) < 2 ^ w := Nat.pow_lt_pow_right Nat.one_lt_two (by omega)
        rw [hfin, hs, fbits_signedVal_zero, hsign, apply_ite (· % 2 ^ w), Nat.mod_eq_of_lt htop, Nat.zero_mod]

end Sys2Proof.Machine
end

section
/-!
Control transfers: where they go, what they link, and when they wait or are refused.
-/

namespace Sys2Proof.Machine

variable {s : State} {i : Instr} {f : Flow} {hs : HartState}

/-- The transfer of a flow. -/
def Flow.run (f : Flow) (s : State) : Result := transfer f.size f.srcs f.link f.taken f.target s

/-- A branch is the transfer of a flow that is taken when the branch is. -/
theorem condBranch_run {a : Src} {o : Disp} {c k : Word → Bool} (h : ∀ x, c x = k x) :
    condBranch a o c s = (branchFlow (some a) o k none).run s := by
  obtain rfl : c = k := funext h
  rfl

/-- Every control transfer is that of its flow. -/
theorem exec_flow (hf : flowForm i = some f) : exec i s = f.run s := by
  delta exec
  cases i with
  | br | call | jr | callr | ret => cases hf; rfl
  | bz => cases hf; exact condBranch_run fun _ => rfl
  | bnz => cases hf; exact condBranch_run fun x => by simp [bne, beq_eq_decide]
  | bltz => cases hf; exact condBranch_run fun _ => rfl
  | bgez => cases hf; exact condBranch_run fun x => by simp [BitVec.slt, ← decide_not]
  | _ => cases hf

/-- Settles O24: a transfer tests its condition, then its target, then whether its strand is drained. -/
theorem transfers : Obligations.Transfers := by
  intro i s f hs hf hh hr
  simp only [exec_flow hf, Flow.run, transfer]
  refine ⟨fun ht ha hd hl => issue_jump hh hr ?_, fun r ht ha hd hl => issue_jump hh hr ?_, fun ht ha hd => ?_,
    fun ht ha => issue_body_trap hh hr ?_, fun ht => issue_done hh hr ?_⟩
  · simp [ht, ha, hd, hl]
  · simp [ht, ha, hd, hl]
  · refine (issue_body_park (p := .before) hh hr ?_).trans ?_
    · simp [ht, ha, hd]
    · rw [parked, waitFor, show (hs.run.queued || Park.before.isQueue) = hs.run.queued from Bool.or_false _]
  · exact (if_pos ht).trans (if_pos ha)
  · simp [ht]

end Sys2Proof.Machine
end

section
/-!
Results of scalar instructions in exact arithmetic (R80 to R83).
-/

namespace Sys2Proof.Machine

variable (x y : Word)

theorem add_exact : x + y = resAdd x y := BitVec.eq_of_toNat_eq (by simp [resAdd, natWord])
theorem sub_exact : x - y = resSub x y := BitVec.eq_of_toInt_eq (by simp [resSub, intWord])
theorem mul_exact : x * y = resMul x y := BitVec.eq_of_toNat_eq (by simp [resMul, natWord])

/-- A word is the number that it is. -/
theorem natWord_toNat : natWord x.toNat = x := by simp [natWord]

/-- The upper half of a number of 128 bits. -/
theorem extract_high_ofInt (p : Int) : (BitVec.ofInt 128 p).extractLsb' 64 64 = intWord (p / 2 ^ 64) := by
  apply BitVec.eq_of_toNat_eq
  simp only [BitVec.extractLsb'_toNat, BitVec.toNat_ofInt, intWord, Nat.shiftRight_eq_div_pow]
  omega

theorem aluMulhs_exact : aluMulhs x y = resMulhs x y := by
  rw [aluMulhs, BitVec.signExtend, BitVec.signExtend, ← BitVec.ofInt_mul]
  exact extract_high_ofInt _

theorem aluMulhn_exact : aluMulhn x y = resMulhn x y := by
  apply BitVec.eq_of_toNat_eq
  simp only [aluMulhn, resMulhn, natWord, BitVec.extractLsb'_toNat, BitVec.toNat_mul, BitVec.toNat_setWidth, BitVec.truncate_eq_setWidth,
    BitVec.toNat_ofNat, Nat.shiftRight_eq_div_pow, ← Nat.mul_mod]
  omega

theorem aluShl_exact : aluShl x y = resShl x y :=
  BitVec.eq_of_toNat_eq (by simp [aluShl, resShl, natWord, power, shiftAmount, Nat.shiftLeft_eq])
theorem aluShr_exact : aluShr x y = resShr x y := by
  rw [resShr, power, ← Nat.shiftRight_eq_div_pow, ← BitVec.toNat_ushiftRight, natWord_toNat]
  rfl
theorem aluSar_exact : aluSar x y = resSar x y := by
  simp [aluSar, resSar, intWord, power, shiftAmount, BitVec.sshiftRight, Int.shiftRight_eq_div_pow]

theorem aluMin_exact : aluMin x y = resMin x y := by
  unfold aluMin resMin
  rcases lt_trichotomy x.toInt y.toInt with h | h | h
  · simp [BitVec.slt, h, h.le]
  · simp [BitVec.toInt_inj.1 h]
  · simp [BitVec.slt, h.not_gt, h.not_ge]
theorem aluMinn_exact : aluMinn x y = resMinn x y := by
  unfold aluMinn resMinn
  rcases lt_trichotomy x.toNat y.toNat with h | h | h
  · simp [BitVec.ult, h, h.le]
  · simp [BitVec.eq_of_toNat_eq h]
  · simp [BitVec.ult, h.not_gt, h.not_ge]
theorem aluMax_exact : aluMax x y = resMax x y := by
  unfold aluMax resMax
  rcases lt_or_ge x.toInt y.toInt with h | h
  · simp [BitVec.slt, h, h.not_ge]
  · simp [BitVec.slt, h, h.not_gt]
theorem aluMaxn_exact : aluMaxn x y = resMaxn x y := by
  unfold aluMaxn resMaxn
  rcases lt_or_ge x.toNat y.toNat with h | h
  · simp [BitVec.ult, h, h.not_ge]
  · simp [BitVec.ult, h, h.not_gt]

/-- A word rotated by two amounts that together make its width. -/
theorem shifts_exact {i j : Nat} (h : i + j = 64) : x <<< i ||| x >>> j = natWord (x.toNat * 2 ^ i + x.toNat / 2 ^ j) := by
  have hlow : x.toNat / 2 ^ j < 2 ^ i := Nat.div_lt_of_lt_mul (by rw [← pow_add, add_comm, h]; exact x.isLt)
  apply BitVec.eq_of_getLsbD_eq
  intro k hk
  simp only [natWord, BitVec.getLsbD_or, BitVec.getLsbD_shiftLeft, BitVec.getLsbD_ushiftRight, BitVec.getLsbD_ofNat, Nat.mul_comm x.toNat,
    Nat.testBit_two_pow_mul_add _ hlow, Nat.testBit_div_two_pow, BitVec.testBit_toNat, hk, decide_true, Bool.true_and]
  split
  · next hki => simp [hki, Nat.add_comm]
  · next hki => simp [hki, BitVec.getLsbD_of_ge x (j + k) (by omega)]

theorem aluRol_exact : aluRol x y = resRol x y := by
  have hn : y.toNat % 64 < 64 := Nat.mod_lt _ (by decide)
  rw [resRol, power, copower, ← shifts_exact x (by omega)]
  simp [aluRol, shiftAmount, BitVec.rotateLeft_def]

theorem aluRor_exact : aluRor x y = resRor x y := by
  have hn : y.toNat % 64 < 64 := Nat.mod_lt _ (by decide)
  rw [resRor, power, copower, Nat.add_comm, ← shifts_exact x (by omega), BitVec.or_comm]
  simp [aluRor, shiftAmount, BitVec.rotateRight_def]

theorem divS_exact : divS x y = quotS x y := by
  unfold divS quotS
  refine if_ctx_congr BitVec.toNat_eq (fun _ => rfl) fun _ => ?_
  exact BitVec.eq_of_toInt_eq (by simp [intWord, BitVec.toInt_sdiv])
theorem divN_exact : divN x y = quotN x y := by
  unfold divN quotN
  refine if_ctx_congr BitVec.toNat_eq (fun _ => rfl) fun _ => ?_
  rw [← BitVec.toNat_udiv, natWord_toNat]
theorem remS_exact : remS x y = restS x y := by
  unfold remS restS
  refine if_ctx_congr BitVec.toNat_eq (fun _ => rfl) fun _ => ?_
  rw [← Int.tmod_def, ← BitVec.toInt_srem]
  exact (BitVec.ofInt_toInt).symm
theorem remN_exact : remN x y = restN x y := by
  unfold remN restN
  refine if_ctx_congr BitVec.toNat_eq (fun _ => rfl) fun _ => ?_
  rw [← BitVec.toNat_umod, natWord_toNat]

end Sys2Proof.Machine
end

section
/-!
Bit operations, bit fields and random numbers in exact arithmetic (R84 to R89).
-/

namespace Sys2Proof.Machine

variable (x y : Word)

/-- A word is a number whose bits it has. -/
theorem eq_natWord {n : Nat} (h : ∀ k < 64, x.getLsbD k = n.testBit k) : x = natWord n :=
  BitVec.eq_of_getLsbD_eq fun k hk => by rw [h k hk, natWord, BitVec.getLsbD_ofNat, decide_eq_true hk, Bool.true_and]

/-! Counting bits (R86). -/

/-- The low `n` bits of a word, from bit 0. -/
def lowBits (n : Nat) : List Bool := (List.range n).map x.getLsbD

theorem lowBits_succ (n : Nat) : lowBits x (n + 1) = lowBits x n ++ [x.getLsbD n] := by simp [lowBits, List.range_succ]

theorem zerosBefore_cons (b : Bool) (l : List Bool) : zerosBefore (b :: l) = if b then 0 else zerosBefore l + 1 := by
  cases b <;> simp [zerosBefore]

theorem leadZeros_eq (n : Nat) : leadZeros x n = zerosBefore (lowBits x n).reverse := by
  induction n with
  | zero => rfl
  | succ n ih => rw [lowBits_succ, List.reverse_append, List.reverse_singleton, List.singleton_append, zerosBefore_cons, ← ih, leadZeros]

theorem trailZeros_eq {n : Nat} (hn : n ≤ 64) : trailZeros x n = zerosBefore ((List.range' (64 - n) n).map x.getLsbD) := by
  induction n with
  | zero => rfl
  | succ n ih =>
    have hnext : 63 - n + 1 = 64 - n := by omega
    rw [show 64 - (n + 1) = 63 - n by omega, List.range'_succ, hnext, List.map_cons, zerosBefore_cons, ← ih (by omega), trailZeros]

theorem countOnes_eq (n : Nat) : countOnes x n = (lowBits x n).count true := by
  induction n with
  | zero => rfl
  | succ n ih => rw [lowBits_succ, List.count_append, ← ih, countOnes, List.count_singleton, Nat.add_comm]; simp

theorem clz_exact : clzWord x = natWord (zerosBefore (bitsOf x).reverse) := congrArg natWord (leadZeros_eq x 64)
theorem ctz_exact : ctzWord x = natWord (zerosBefore (bitsOf x)) := by
  rw [bitsOf, List.range_eq_range']
  exact congrArg natWord (trailZeros_eq x le_rfl)
theorem popc_exact : popcWord x = natWord ((bitsOf x).count true) := congrArg natWord (countOnes_eq x 64)

/-! Reversals (R86). -/

/-- The number whose highest digit is bit 0, of the low `n` bits. -/
def mirror (n : Nat) : Nat := (lowBits x n).foldl (fun n b => 2 * n + b.toNat) 0

theorem mirror_succ (n : Nat) : mirror x (n + 1) = Nat.bit (x.getLsbD n) (mirror x n) := by
  rw [mirror, lowBits_succ, List.foldl_append, Nat.bit_val]
  rfl

theorem testBit_mirror (n k : Nat) : (mirror x n).testBit k = (decide (k < n) && x.getLsbD (n - 1 - k)) := by
  induction n generalizing k with
  | zero => simp [mirror, lowBits]
  | succ n ih =>
    rw [mirror_succ]
    cases k with
    | zero => simp
    | succ k => rw [Nat.testBit_bit_succ, ih]; simp [Nat.sub_sub, Nat.add_comm]

theorem brev_exact : brevWord x = natWord ((bitsOf x).foldl (fun n b => 2 * n + b.toNat) 0) :=
  eq_natWord (n := mirror x 64) _ fun k hk => by
    rw [testBit_mirror, brevWord, BitVec.getLsbD_reverse, BitVec.getMsbD]

theorem leNat_reverse (l : List Byte) : leNat l.reverse = l.foldl (fun n b => 256 * n + b.toNat) 0 := by
  have h (k : List Byte) : leNat k = k.foldr (fun b n => 256 * n + b.toNat) 0 := by
    induction k with
    | nil => rfl
    | cons b k ih => rw [leNat, ih, List.foldr_cons, Nat.add_comm]
  rw [h, List.foldr_reverse]

theorem bswap_exact : bswapWord x = natWord ((List.range 8).foldl (fun n j => 256 * n + byteNat x j) 0) := by
  have h : (leBytes 8 x.toNat).map BitVec.toNat = (List.range 8).map (byteNat x) :=
    List.ext_getElem (by simp) fun k h1 h2 => by simp [getElem_leBytes, byteNat]
  refine congrArg natWord ?_
  rw [leNat_reverse, ← List.foldl_map (f := BitVec.toNat) (g := fun n m => 256 * n + m), h, List.foldl_map]

/-! Bit fields (R85). -/

/-- A mask of `n` ones. -/
theorem getLsbD_ones (n k : Nat) : (BitVec.ofNat 64 (2 ^ n - 1)).getLsbD k = (decide (k < 64) && decide (k < n)) := by
  rw [BitVec.getLsbD_ofNat, Nat.testBit_two_pow_sub_one]

theorem bitField_exact (pos len : Nat) : bitField x pos len = natWord (x.toNat / 2 ^ pos % 2 ^ len) :=
  eq_natWord _ fun k hk => by
    rw [bitField, BitVec.getLsbD_and, getLsbD_ones, BitVec.getLsbD_ushiftRight, Nat.testBit_mod_two_pow, Nat.testBit_div_two_pow,
      BitVec.testBit_toNat, decide_eq_true hk, Bool.true_and, Bool.and_comm, Nat.add_comm]

theorem bitExtS_exact (pos len : Nat) : bitExtS x pos len = intWord (Int.bmod (x.toNat / 2 ^ pos) (2 ^ len)) := by
  have hlt : x.toNat / 2 ^ pos % 2 ^ len < 2 ^ 64 := ((Nat.mod_le _ _).trans (Nat.div_le_self _ _)).trans_lt x.isLt
  rw [bitExtS, sext, bitField_exact, natWord, BitVec.toNat_ofNat, Nat.mod_eq_of_lt hlt, BitVec.signExtend, BitVec.toInt_ofNat',
    Int.natCast_mod, Int.emod_bmod]
  push_cast
  rfl

/-- The three parts of a word whose field of `len` bits at `pos` is replaced, in place. -/
theorem bitIns_exact (pos len : Nat) : bitIns x y pos len = natWord (x.toNat % 2 ^ pos + y.toNat % 2 ^ len * 2 ^ pos +
    x.toNat / 2 ^ (pos + len) * 2 ^ (pos + len)) := by
  have hlow : x.toNat % 2 ^ pos < 2 ^ pos := Nat.mod_lt _ (Nat.two_pow_pos _)
  have hfield : 2 ^ pos * (y.toNat % 2 ^ len) + x.toNat % 2 ^ pos < 2 ^ (pos + len) := by
    rw [pow_add, Nat.mul_comm (2 ^ pos) (2 ^ len)]
    exact Nat.mul_add_lt_mul_of_lt_of_lt (Nat.mod_lt _ (Nat.two_pow_pos _)) hlow
  have hsum : x.toNat % 2 ^ pos + y.toNat % 2 ^ len * 2 ^ pos + x.toNat / 2 ^ (pos + len) * 2 ^ (pos + len) =
      2 ^ (pos + len) * (x.toNat / 2 ^ (pos + len)) + (2 ^ pos * (y.toNat % 2 ^ len) + x.toNat % 2 ^ pos) := by ring
  refine eq_natWord _ fun k hk => ?_
  rw [hsum, Nat.testBit_two_pow_mul_add _ hfield, Nat.testBit_two_pow_mul_add _ hlow]
  simp only [bitIns, BitVec.getLsbD_or, BitVec.getLsbD_and, BitVec.getLsbD_not, BitVec.getLsbD_shiftLeft, getLsbD_ones,
    Nat.testBit_mod_two_pow, Nat.testBit_div_two_pow, BitVec.testBit_toNat, hk, decide_true, Bool.true_and]
  have h64 : k - pos < 64 := by omega
  rcases lt_or_ge k pos with hp | hp
  · simp [hp, Nat.lt_add_right len hp]
  · rcases lt_or_ge k (pos + len) with hl | hl
    · have hin : k - pos < len := by omega
      simp [hp.not_gt, hl, h64, hin]
    · have hout : ¬k - pos < len := by omega
      simp [hp.not_gt, hl.not_gt, hl, hout]

/-! Random numbers (R88, R89). -/

theorem toNat_mul_ofNat {c : Nat} (hc : c < 2 ^ 64) : (x * BitVec.ofNat 64 c).toNat = x.toNat * c % 2 ^ 64 := by
  rw [BitVec.toNat_mul, BitVec.toNat_ofNat, Nat.mod_eq_of_lt hc]
theorem toNat_xorshift (n : Nat) : (x ^^^ x >>> n).toNat = x.toNat ^^^ (x.toNat / 2 ^ n) := by
  rw [BitVec.toNat_xor, BitVec.toNat_ushiftRight, Nat.shiftRight_eq_div_pow]

theorem toNat_rngMix : (rngMix x y).toNat = mixNat x.toNat y.toNat := by
  rw [rngMix, mixNat]
  simp only [BitVec.ofNat_eq_ofNat]
  rw [toNat_xorshift, toNat_mul_ofNat _ (by decide), toNat_xorshift, toNat_mul_ofNat _ (by decide), toNat_xorshift, BitVec.toNat_xor,
    toNat_mul_ofNat _ (by decide)]

theorem rng_exact : rngMix x y = natWord (mixNat x.toNat y.toNat) := by rw [← toNat_rngMix, natWord_toNat]

/-- The highest one bit of a number is its logarithm. -/
theorem topBit_eq_log2 {n k : Nat} (h0 : n ≠ 0) (hn : n < 2 ^ k) : topBit n k = Nat.log2 n := by
  induction k with
  | zero => omega
  | succ k ih =>
    rw [topBit]
    split
    · next hk => exact ((Nat.log2_eq_iff h0).2 ⟨Nat.ge_two_pow_of_testBit hk, hn⟩).symm
    · next hk => exact ih (Nat.lt_pow_two_of_testBit _ fun j hj => by
        rcases hj.eq_or_lt with rfl | hj
        · simpa using hk
        · exact Nat.testBit_lt_two_pow (hn.trans_le (Nat.pow_le_pow_right (by decide) hj)))

/-- The fraction of a number below 2^(fb + 1): the bits under its leading one, moved to the top of the field. -/
theorem fraction_eq {n fb : Nat} (h0 : n ≠ 0) (hn : n < 2 ^ (fb + 1)) :
    n * 2 ^ (fb - Nat.log2 n) % 2 ^ fb = n * 2 ^ (fb - Nat.log2 n) - 2 ^ fb := by
  have hlog : Nat.log2 n ≤ fb := Nat.lt_succ_iff.1 ((Nat.log2_lt h0).2 hn)
  obtain ⟨hlo, hhi⟩ := (Nat.log2_eq_iff h0).1 rfl
  have hpow (m : Nat) (hm : m = Nat.log2 n + (fb - Nat.log2 n)) : 2 ^ m = 2 ^ Nat.log2 n * 2 ^ (fb - Nat.log2 n) := by rw [hm, pow_add]
  have h1 : 2 ^ fb ≤ n * 2 ^ (fb - Nat.log2 n) := by
    rw [hpow fb (by omega)]
    exact Nat.mul_le_mul_right _ hlo
  have h2 : n * 2 ^ (fb - Nat.log2 n) < 2 ^ fb + 2 ^ fb := by
    rw [hpow fb (by omega), ← Nat.add_mul, ← Nat.two_mul, ← pow_succ']
    exact Nat.mul_lt_mul_of_pos_right hhi (Nat.two_pow_pos _)
  rw [Nat.mod_eq_sub_mod h1, Nat.mod_eq_of_lt (by omega)]

/-- The encoding of a number below 2^(fb + 1) in `w` bits, as the model forms it. -/
theorem encode_eq_unitBits {w n fb bias : Nat} (hn : n < 2 ^ (fb + 1)) :
    (if n = 0 then 0 else BitVec.ofNat w ((topBit n (fb + 1) + bias) * 2 ^ fb + n * 2 ^ (fb - topBit n (fb + 1)) % 2 ^ fb)) =
      BitVec.ofNat w (randomForm.unitBits n fb bias) := by
  unfold randomForm.unitBits
  split
  · rfl
  · next h0 => rw [topBit_eq_log2 h0 hn, fraction_eq h0 hn]

/-- Its exponent is at most `fb + bias`. -/
theorem unitBits_lt {n fb bias : Nat} (hn : n < 2 ^ (fb + 1)) : randomForm.unitBits n fb bias < (fb + bias + 1) * 2 ^ fb := by
  unfold randomForm.unitBits
  split
  · exact Nat.mul_pos (Nat.succ_pos _) (Nat.two_pow_pos _)
  · next h0 =>
    have hexp : Nat.log2 n + bias + 1 ≤ fb + bias + 1 := by have := (Nat.log2_lt h0).2 hn; omega
    have hfrac : n * 2 ^ (fb - Nat.log2 n) - 2 ^ fb < 2 ^ fb := fraction_eq h0 hn ▸ Nat.mod_lt _ (Nat.two_pow_pos _)
    calc _ < (Nat.log2 n + bias + 1) * 2 ^ fb := by rw [Nat.succ_mul]; exact Nat.add_lt_add_left hfrac _
      _ ≤ _ := Nat.mul_le_mul_right _ hexp

/-- The top bits of a word. -/
theorem toNat_extract_top {k m : Nat} (h : k + m = 64) : (x.extractLsb' k m).toNat = x.toNat / 2 ^ k := by
  rw [BitVec.extractLsb'_toNat, Nat.shiftRight_eq_div_pow]
  exact Nat.mod_eq_of_lt (Nat.div_lt_of_lt_mul (by rw [← pow_add, h]; exact x.isLt))

theorem toNat_extract_rngMix {k m : Nat} (h : k + m = 64) : ((rngMix x y).extractLsb' k m).toNat = mixNat x.toNat y.toNat / 2 ^ k := by
  rw [toNat_extract_top _ h, toNat_rngMix]

theorem rngF64_exact : rngF64 x y = natWord (randomForm.unitBits (mixNat x.toNat y.toNat / 2 ^ 11) 52 970) := by
  have hn := toNat_extract_rngMix x y (k := 11) (m := 53) rfl
  rw [rngF64, hn]
  exact encode_eq_unitBits (hn ▸ BitVec.isLt _)

theorem rngF32_exact : (rngF32 x y).zeroExtend 64 = natWord (randomForm.unitBits (mixNat x.toNat y.toNat / 2 ^ 40) 23 103) := by
  have hn := toNat_extract_rngMix x y (k := 40) (m := 24) rfl
  have hlt : mixNat x.toNat y.toNat / 2 ^ 40 < 2 ^ 24 := hn ▸ BitVec.isLt _
  have hval := unitBits_lt (fb := 23) (bias := 103) hlt
  have h32 : rngF32 x y = BitVec.ofNat 32 (randomForm.unitBits (mixNat x.toNat y.toNat / 2 ^ 40) 23 103) := by
    rw [rngF32, hn]
    exact encode_eq_unitBits hlt
  rw [h32]
  exact BitVec.setWidth_ofNat_of_le_of_lt (by decide) (hval.trans (by decide))

end Sys2Proof.Machine
end

section
/-!
Scalar arithmetic, selects, bit fields, random numbers and divides complete with their results in exact arithmetic.
-/

namespace Sys2Proof.Machine

variable {s : State} {i : Instr} {f : Form}

/-! Results at issue and later. -/

theorem scalarOp_completes {size : Nat} {d : Dst} {srcs : List Src} {g : List Word → Word} :
    CompletesAs (scalarOp size d srcs g s) s (scalarForm size d srcs g) := issue_completes fun _ _ _ => rfl

theorem aluRR_completes {d : Dst} {a b : Src} {g k : Word → Word → Word} (h : ∀ x y, g x y = k x y) :
    CompletesAs (aluRR d a b g s) s (form2 d a b k) := by
  obtain rfl : g = k := funext₂ h
  exact scalarOp_completes

theorem aluRI_completes {d : Dst} {a : Src} {x : Imm} {g k : Word → Word → Word} (h : ∀ x y, g x y = k x y) :
    CompletesAs (aluRI d a x g s) s (formI d a x k) := by
  obtain rfl : g = k := funext₂ h
  exact scalarOp_completes

theorem aluR_completes {d : Dst} {a : Src} {g k : Word → Word} (h : ∀ x, g x = k x) : CompletesAs (aluR d a g s) s (form1 d a k) := by
  obtain rfl : g = k := funext h
  exact scalarOp_completes

/-- An instruction whose result of two operands is known at issue, and returned later. -/
theorem laterOp_completes {d : Dst} {a b : Src} {g k : Word → Word → Word} (h : ∀ x y, g x y = k x y) :
    CompletesAs (laterOp d [a, b] (fun v => g (v.getD 0 0) (v.getD 1 0)) s) s
      (laterForm [a, b] d fun hs v => divideForm.known hs d (k (v.getD 0 0) (v.getD 1 0))) := by
  obtain rfl : g = k := funext₂ h
  exact issue_completes fun _ _ _ => rfl

/-! Arithmetic and compares. -/

theorem alu_completes (hf : aluForm i = some f) : CompletesAs (exec i s) s f := by
  delta exec
  cases i with
  | add => cases hf; exact aluRR_completes add_exact
  | sub => cases hf; exact aluRR_completes sub_exact
  | mul => cases hf; exact aluRR_completes mul_exact
  | mulhs => cases hf; exact aluRR_completes aluMulhs_exact
  | and | or | xor | andn => cases hf; exact aluRR_completes fun _ _ => rfl
  | shl => cases hf; exact aluRR_completes aluShl_exact
  | shr => cases hf; exact aluRR_completes aluShr_exact
  | sar => cases hf; exact aluRR_completes aluSar_exact
  | rol => cases hf; exact aluRR_completes aluRol_exact
  | ror => cases hf; exact aluRR_completes aluRor_exact
  | min => cases hf; exact aluRR_completes aluMin_exact
  | max => cases hf; exact aluRR_completes aluMax_exact
  | minn => cases hf; exact aluRR_completes aluMinn_exact
  | maxn => cases hf; exact aluRR_completes aluMaxn_exact
  | mulhn => cases hf; exact aluRR_completes aluMulhn_exact
  | addImm => cases hf; exact aluRI_completes add_exact
  | subImm => cases hf; exact aluRI_completes sub_exact
  | mulImm => cases hf; exact aluRI_completes mul_exact
  | mulhsImm => cases hf; exact aluRI_completes aluMulhs_exact
  | andImm | orImm | xorImm | andnImm => cases hf; exact aluRI_completes fun _ _ => rfl
  | shlImm => cases hf; exact aluRI_completes aluShl_exact
  | shrImm => cases hf; exact aluRI_completes aluShr_exact
  | sarImm => cases hf; exact aluRI_completes aluSar_exact
  | rolImm => cases hf; exact aluRI_completes aluRol_exact
  | rorImm => cases hf; exact aluRI_completes aluRor_exact
  | minImm => cases hf; exact aluRI_completes aluMin_exact
  | maxImm => cases hf; exact aluRI_completes aluMax_exact
  | minnImm => cases hf; exact aluRI_completes aluMinn_exact
  | maxnImm => cases hf; exact aluRI_completes aluMaxn_exact
  | mulhnImm => cases hf; exact aluRI_completes aluMulhn_exact
  | _ => cases hf

/-- A difference is tested as the negation of equality. -/
theorem boolWord_bne (x y : Word) : boolWord (x != y) = relation (decide (x ≠ y)) := by
  rw [bne, beq_eq_decide, ← decide_not]
  rfl

theorem relation_completes (hf : relationForm i = some f) : CompletesAs (exec i s) s f := by
  delta exec
  cases i with
  | cmpne => cases hf; exact aluRR_completes boolWord_bne
  | cmpneImm => cases hf; exact aluRI_completes boolWord_bne
  | cmpeq | cmplt | cmple | cmpltn | cmplen => cases hf; exact aluRR_completes fun _ _ => rfl
  | cmpeqImm | cmpltImm | cmpleImm | cmpltnImm | cmplenImm => cases hf; exact aluRI_completes fun _ _ => rfl
  | _ => cases hf

/-- Settles O19: each result is that of exact arithmetic. -/
theorem arithmetic : Obligations.Arithmetic := fun _ _ _ hf => hf.elim alu_completes relation_completes

/-! Selects and bits. -/

theorem select_completes (hf : selectForm i = some f) : CompletesAs (exec i s) s f := by
  delta exec
  cases i with
  | sel => cases hf; exact scalarOp_completes
  | clz => cases hf; exact aluR_completes clz_exact
  | ctz => cases hf; exact aluR_completes ctz_exact
  | popc => cases hf; exact aluR_completes popc_exact
  | brev => cases hf; exact aluR_completes brev_exact
  | bswap => cases hf; exact aluR_completes bswap_exact
  | _ => cases hf

theorem field_completes (hf : fieldForm i = some f) : CompletesAs (exec i s) s f := by
  delta exec
  cases i with
  | bext => cases hf; exact aluR_completes fun x => bitField_exact x _ _
  | bexts => cases hf; exact aluR_completes fun x => bitExtS_exact x _ _
  | bins => cases hf; exact aluRR_completes fun x y => bitIns_exact x y _ _
  | _ => cases hf

/-- Settles O20: bits are counted, reversed, extracted and inserted as their numbers say. -/
theorem selectAndBits : Obligations.SelectAndBits := fun _ _ _ hf => hf.elim select_completes field_completes

/-! Random numbers and divides. -/

/-- Settles O21: the mix and its encodings are functions of key and counter. -/
theorem randomNumbers : Obligations.RandomNumbers := by
  intro i s f hf
  show CompletesAs (exec i s) s f
  delta exec
  cases i with
  | rng => cases hf; exact aluRR_completes rng_exact
  | rngf32 => cases hf; exact aluRR_completes rngF32_exact
  | rngf64 => cases hf; exact aluRR_completes rngF64_exact
  | _ => cases hf

/-- Settles O22: a quotient or remainder is known at issue and enters program order with its result; TWAIT enters it as it is. -/
theorem divides : Obligations.Divides := by
  intro i s f hf
  show CompletesAs (exec i s) s f
  delta exec
  cases i with
  | div => cases hf; exact laterOp_completes divS_exact
  | divn => cases hf; exact laterOp_completes divN_exact
  | rem => cases hf; exact laterOp_completes remS_exact
  | remn => cases hf; exact laterOp_completes remN_exact
  | twait => cases hf; exact issue_completes fun _ _ _ => rfl
  | _ => cases hf

end Sys2Proof.Machine
end

section
/-!
What arrives through the windows of a core: each row of the table is what its event does.
-/

namespace Sys2Proof.Machine

variable {s t : State} {h : Hart} {n i : Nat} {hs : HartState} {p : Pending}

/-! Stores to a core's windows. -/

/-- A store of a kind that the table gives is what arrives. -/
theorem windowStoreEvent_kindStore {k : Nat} {ok : Nat → Nat → Word → Bool} {f : State → Nat → Nat → Word → State}
    (e : windowStoreEvent s k i ok f = some t) : kindStore k i s f (fun _ => ok) = .next t := by
  obtain ⟨a, ha, e⟩ := Option.bind_eq_some_iff.1 e
  obtain ⟨hd, rfl⟩ := due_eq_some.1 e
  simp only [kindStore, ha]
  exact if_pos hd

theorem qportDataStore_event (e : windowEvents s (.qportDataStore i) = some t) : exec (.qportDataStore i) s = .next t := by
  show execQportDataStore i s = _
  dsimp only [windowEvents] at e
  obtain ⟨a, ha, e⟩ := Option.bind_eq_some_iff.1 e
  obtain ⟨hd, rfl⟩ := due_eq_some.1 e
  simp only [Bool.and_eq_true, beq_iff_eq, bne_iff_ne, decide_eq_true_eq] at hd
  obtain ⟨⟨hkind, hop⟩, hoff⟩ := hd
  simp only [execQportDataStore, ha]
  rw [if_neg (by simp [hkind, hop, hoff])]
  split
  · rfl
  · split <;> rfl

theorem tileWindowStore_event (e : windowEvents s (.tileWindowStore i) = some t) : exec (.tileWindowStore i) s = .next t := by
  show execTileWindowStore i s = _
  dsimp only [windowEvents] at e
  obtain ⟨a, ha, e⟩ := Option.bind_eq_some_iff.1 e
  simp only [execTileWindowStore, ha]
  cases hop : a.p.op <;> simp only [hop] at e ⊢
  case store bytes =>
    cases bytes with
    | nil => cases e
    | cons bs rest =>
      obtain ⟨hd, rfl⟩ := due_eq_some.1 e
      exact if_neg (not_not.2 (eq_of_beq hd))
  all_goals cases e

theorem putrArrival_event (e : windowEvents s (.putrArrival i) = some t) : exec (.putrArrival i) s = .next t := by
  show execPutrArrival i s = _
  dsimp only [windowEvents] at e
  obtain ⟨a, ha, e⟩ := Option.bind_eq_some_iff.1 e
  obtain ⟨hd, rfl⟩ := due_eq_some.1 e
  simp only [execPutrArrival, ha]
  exact if_pos (eq_of_beq hd)

theorem windowStoreArrival_event (e : windowEvents s (.windowAccessArrival (.store i)) = some t) :
    exec (.windowAccessArrival (.store i)) s = .next t := by
  show execWindowAccessArrival (.store i) s = _
  dsimp only [windowEvents] at e
  obtain ⟨a, ha, e⟩ := Option.bind_eq_some_iff.1 e
  simp only [execWindowAccessArrival, askedOf, ha, Option.map_some]
  split at e
  · next hop =>
    simp only [hop]
    exact congrArg _ (Option.some.inj e)
  · next hop =>
    obtain ⟨hd, rfl⟩ := due_eq_some.1 e
    split
    · next hnone => exact absurd hnone hop
    · exact if_pos (eq_of_beq hd)

/-! Loads and atomics through a window. -/

theorem windowLoadArrival_event (e : windowEvents s (.windowAccessArrival (.op h n)) = some t) :
    exec (.windowAccessArrival (.op h n)) s = .next t := by
  show execWindowAccessArrival (.op h n) s = _
  dsimp only [windowEvents] at e
  obtain ⟨⟨hs, p⟩, hop, e⟩ := Option.bind_eq_some_iff.1 e
  dsimp only at e
  simp only [execWindowAccessArrival, askedOf, hop, Option.map_some]
  split at e
  · next hgo =>
    simp only [Bool.and_eq_true, beq_iff_eq, Option.isNone_iff_eq_none] at hgo
    obtain ⟨⟨⟨hwin, hphase⟩, hmay⟩, hcause⟩ := hgo
    have hkind : (p.op.isLoad || windowEvents.isAtomic p.op) = true := by
      by_contra hk
      simp only [Bool.or_eq_true, not_or, Bool.not_eq_true] at hk
      simp [hk] at e
    show (if (!goesWindow p || decide (p.phase ≠ .request) || !(p.op.isLoad || windowEvents.isAtomic p.op) || !mayPerform s h hs p true) = true
      then _ else _) = _
    rw [if_neg (by simp [hwin, hphase, hkind, hmay]), hcause]
    show (if windowEvents.isAtomic p.op = true then _ else _) = _
    split at e
    · next hat => rw [if_pos hat, Option.some.inj e]
    · next hat =>
      rw [if_neg hat]
      split at e
      · cases e
      · split at e
        · next htile => rw [if_pos htile, Option.some.inj e]
        · next htile =>
          obtain ⟨u, hu, rfl⟩ := granted_eq_some e
          simp only [if_neg htile, hu, windowEvents.loaded]
          cases loadResult p (windowLoadBytes u p) with
          | error c => rfl
          | ok r => cases hartOf u h <;> rfl
  · cases e

/-- An open operation is found by its place in program order. -/
theorem seq_of_openOp (e : openOp s h n = some (hs, p)) : p.seq = n := by
  obtain ⟨x, -, e⟩ := Option.bind_eq_some_iff.1 e
  obtain ⟨q, hq, e⟩ := Option.bind_eq_some_iff.1 e
  have hseq : q.seq = n := of_decide_eq_true (List.find?_some (p := fun q : Pending => decide (q.seq = n)) hq)
  split at e
  · cases e
  · cases e
    exact hseq

theorem remoteTimeout_event (e : windowEvents s (.remoteTimeout h n) = some t) : exec (.remoteTimeout h n) s = .next t := by
  show execRemoteTimeout h n s = _
  dsimp only [windowEvents] at e
  obtain ⟨⟨hs, p⟩, hop, e⟩ := Option.bind_eq_some_iff.1 e
  obtain ⟨hd, rfl⟩ := due_eq_some.1 e
  have hseq := seq_of_openOp hop
  simp only [Bool.and_eq_true, Bool.not_eq_true', decide_eq_true_eq] at hd
  obtain ⟨⟨⟨hremote, hplaced⟩, hat⟩, hlate⟩ := hd
  simp only [execRemoteTimeout, hop, windowEvents.timedOut, hseq]
  rw [if_neg (by simp [hremote, hplaced, hlate])]
  cases hp : p.op
  case atomic => simp [hp, windowEvents.isAtomic] at hat
  all_goals rfl

theorem remoteStoreAcknowledgement_event {ok : Bool} (e : windowEvents s (.remoteStoreAcknowledgement i ok) = some t) :
    exec (.remoteStoreAcknowledgement i ok) s = .next t := by
  show execRemoteStoreAcknowledgement i ok s = _
  cases ok with
  | false | true =>
    obtain ⟨a, ha, e⟩ := Option.bind_eq_some_iff.1 e
    obtain ⟨hd, rfl⟩ := due_eq_some.1 e
    simp [execRemoteStoreAcknowledgement, ha, hd]

end Sys2Proof.Machine

namespace Sys2Proof.Laws

open Sys2Proof.Machine

/-- Settles O55: each row of the table is what its event does. -/
theorem windowEvents : Obligations.WindowEvents := by
  intro i s t e
  cases i with
  | sctlRun => dsimp only [Machine.windowEvents] at e; exact windowStoreEvent_kindStore e
  | sctlDblClear => dsimp only [Machine.windowEvents] at e; exact windowStoreEvent_kindStore e
  | qportDataStore => exact qportDataStore_event e
  | qportBindingStore => dsimp only [Machine.windowEvents] at e; exact windowStoreEvent_kindStore e
  | nbarWindowStore => dsimp only [Machine.windowEvents] at e; exact windowStoreEvent_kindStore e
  | tileWindowStore => exact tileWindowStore_event e
  | putrArrival => exact putrArrival_event e
  | windowAccessArrival r => cases r with
    | store => exact windowStoreArrival_event e
    | op => exact windowLoadArrival_event e
    | _ => cases e
  | remoteStoreAcknowledgement => exact remoteStoreAcknowledgement_event e
  | remoteTimeout => exact remoteTimeout_event e
  | _ => cases e

end Sys2Proof.Laws
end

section
/-!
Synchronisation objects, tiles, fences, prefetches and MIG at issue.
-/

namespace Sys2Proof.Machine

variable {s : State} {i : Instr} {f : Form} {h : Hart} {hs : HartState}

/-- Settles O27: each of these instructions is an access. -/
theorem objects : Obligations.Objects := fun _ _ _ hf => (objects_access hf).completes

/-- What waits until its strand's stores are seen by all goes on where they are (R119, R121, R137). -/
theorem holdUp_shown {k : Issued} (hd : fencesForm.seenByAll s hs = true) : holdUp s h hs [.shown] k = k := by
  have hm : mayDrain s hs = true := hd
  simp [holdUp, holdOver, hm]

/-! Instructions that must know their place as they issue (R296). -/

/-- A translation that is known is a fault or a place. -/
theorem seek_of_sought {va : Word} {r : Right} (hk : sought s h hs va r = true) :
    (∃ c, seek s h hs hs.ptbr hs.st.priv va r = .fault c) ∨ ∃ p, seek s h hs hs.ptbr hs.st.priv va r = .place p := by
  unfold sought at hk
  cases hq : seek s h hs hs.ptbr hs.st.priv va r with
  | fault c => exact .inl ⟨c, rfl⟩
  | place p => exact .inr ⟨p, rfl⟩
  | wait t => rw [hq] at hk; cases hk

/-- A prefetch whose page is known completes (R120). -/
theorem prefetch_completes {own : Bool} {a : Src} {o : Disp} : CompletesAs (prefetch own a o s) s (fencesForm.fetchForm a o own) := by
  refine issue_completes fun hs v hok => ?_
  simp only [fencesForm.fetchForm, fencesForm.fetched, placed]
  obtain ⟨c, hq⟩ | ⟨p, hq⟩ := seek_of_sought hok
  · rw [hq]
    cases hartCore s.cur <;> rfl
  · rw [hq]
    cases hartCore s.cur with
    | none => rfl
    | some c => dsimp only; split <;> rfl

/-- MIG whose address is known completes (R142). -/
theorem mig_completes {d : Dst} {a : Src} {o : Disp} {sc : Scope} (hf : tilesForm (.mig d a o sc) = some f) :
    CompletesAs (execMig d a o sc s) s f := by
  cases hf
  refine issue_completes fun hs v hok => ?_
  simp only [tilesForm.migrates, migIssue, placed]
  obtain ⟨c, hq⟩ | ⟨p, hq⟩ := seek_of_sought hok
  · rw [hq]
  · rw [hq]
    dsimp only
    split
    · rfl
    · obtain ⟨k, _ | c⟩ := migDecide s s.cur hs p.pa <;> rfl

/-- Fences, prefetches, ISYNC and RECYCLE complete as their forms say. -/
theorem fences_complete (hf : fencesForm i = some f) : CompletesAs (exec i s) s f := by
  delta exec
  cases i with
  | fnc m => cases hf; exact issue_completes fun _ _ _ => by dsimp only [Form.plain]; split <;> rfl
  | fncLt => cases hf; exact issue_completes fun _ _ _ => rfl
  | fncHv => cases hf; exact issue_completes fun _ _ hok => holdUp_shown hok
  | isync => cases hf; exact issue_completes fun _ _ hok => (holdUp_shown hok).trans (by cases s.cur <;> rfl)
  | recycle =>
    cases hf
    refine issue_completes fun hs v hok => ?_
    obtain ⟨hseen, hlocal⟩ := Bool.and_eq_true_iff.1 hok
    exact (holdUp_shown hseen).trans (issueMem_done _ _ _ _ hlocal)
  | pref | prefw => cases hf; exact prefetch_completes
  | _ => cases hf

/-- MIG decides where it goes as it issues; the other tile instructions are accesses. -/
theorem tiles_complete (hf : tilesForm i = some f) : CompletesAs (exec i s) s f := by
  cases i with
  | mig => exact mig_completes hf
  | tdecl | tundecl => exact (tiles_access hf (by cases hf; rfl)).completes
  | tfwd d a t => exact (tiles_access hf (by cases t <;> cases hf <;> rfl)).completes
  | _ => cases hf

/-- Settles O28: the tile instructions, and those that act at issue. -/
theorem tilesAndFences : Obligations.TilesAndFences := fun _ _ _ hf => hf.elim tiles_complete fences_complete

end Sys2Proof.Machine
end

section
/-!
The value that a load delivers (R109, R113).
-/

namespace Sys2Proof.Machine

variable {p : Pending} {bs : List Byte}

/-- A number extended from its sign bit is its balanced remainder (R62). -/
theorem sext_exact (n x : Nat) : sext n x = intWord (Int.bmod x (2 ^ n)) := by
  rw [sext, BitVec.signExtend, BitVec.toInt_ofNat']
  rfl

theorem loadResult_load {sg : Bool} (hop : p.op = .load sg) :
    loadResult p bs = .ok ([if sg then sext (8 * bs.length) (leNat bs) else natWord (leNat bs)], {}) := by
  simp only [loadResult, hop]
  rfl

theorem loadResult_loadBits {bit w : Nat} {sx : Bool} (hop : p.op = .loadBits bit w sx) :
    loadResult p bs = .ok ([if sx then sext w (leNat bs / 2 ^ bit % 2 ^ w) else natWord (leNat bs / 2 ^ bit % 2 ^ w)], {}) := by
  simp only [loadResult, hop]
  rfl

/-- Settles O29: the delivered number is extended from its top bit, or is itself. -/
theorem loadValues : Obligations.LoadValues := by
  intro p bs
  refine ⟨fun sg hop _ => ?_, fun bit w sx hop _ _ => ?_⟩
  · rw [loadResult_load hop, sext_exact, Nat.pow_mul]
  · rw [loadResult_loadBits hop, sext_exact, Int.natCast_mod, Int.emod_bmod]
    push_cast
    rfl

end Sys2Proof.Machine
end

section
/-!
What leaves memory as it is: the protocol of coherence, results, and answers to stores.
-/

namespace Sys2Proof.Machine

variable {s t : State}

/-! Operations in program order, messages and the recording. -/

@[simp] theorem updateOp_mem (s : State) (h : Hart) (n : Nat) (f : Pending → Pending) : (updateOp s h n f).mem = s.mem := by
  unfold updateOp
  split <;> rfl

@[simp] theorem failOp_mem (s : State) (h : Hart) (n : Nat) (c : Cause) (v : Word) : (failOp s h n c v).mem = s.mem := updateOp_mem ..

@[simp] theorem recordInput_mem (s : State) (m : Nat) (x : LogItem) : (recordInput s m x).mem = s.mem := by
  unfold recordInput
  dsimp only
  split
  · rfl
  · split <;> rfl

/-- Of two states with one memory either has it. -/
theorem ite_mem {c : Prop} [Decidable c] {u : State} (hs : s.mem = u.mem) (ht : t.mem = u.mem) : (if c then s else t).mem = u.mem :=
  iteInduction (motive := fun v : State => v.mem = u.mem) (fun _ => hs) fun _ => ht

/-- A fold of steps that leave memory as it is does so too. -/
theorem foldl_mem {α : Type} {f : State → α → State} (hf : ∀ t a, (f t a).mem = t.mem) (l : List α) (s : State) :
    (l.foldl f s).mem = s.mem :=
  List.foldlRecOn (motive := fun t => t.mem = s.mem) l f rfl fun t ht a _ => (hf t a).trans ht

@[simp] theorem recordRequest_mem (s : State) (h : Hart) (p : Pending) (other : List Byte) : (recordRequest s h p other).mem = s.mem := by
  unfold recordRequest
  split
  · rfl
  · refine foldl_mem (fun t x => ?_) _ s
    cases x.at_ with
    | none => rfl
    | some q => exact ite_mem rfl (recordInput_mem ..)

@[simp] theorem finishOp_mem (s : State) (h : Hart) (n : Nat) (r : List Word) : (finishOp s h n r).mem = s.mem := by
  unfold finishOp
  rw [updateOp_mem]
  split
  · exact recordRequest_mem ..
  · rfl

/-! Cells. -/

@[simp] theorem spoilSpans_mem (s : State) (spans : List Span) : (spoilSpans s spans).mem = s.mem :=
  foldl_mem (f := fun t (x : Nat × Nat) => spoil t x.1 x.2) (fun _ _ => rfl) _ s

@[simp] theorem addCopy_mem (s : State) (pa gen : Nat) (v : Word) : (addCopy s pa gen v).mem = s.mem := by
  unfold addCopy
  dsimp only
  split <;> rfl

@[simp] theorem answerCell_mem (s : State) (h : Hart) (p : Pending) (r : List Word) : (answerCell s h p r).mem = s.mem := by
  unfold answerCell
  split <;> exact finishOp_mem ..

/-! The protocol of coherence. -/

/-- Neither memory nor the place in the free values changes. -/
def KeepsData (s t : State) : Prop := t.mem = s.mem ∧ t.free = s.free

theorem keepsData_refl (s : State) : KeepsData s s := ⟨rfl, rfl⟩

theorem KeepsData.trans {u : State} (h1 : KeepsData s t) (h2 : KeepsData t u) : KeepsData s u := ⟨h2.1.trans h1.1, h2.2.trans h1.2⟩

theorem keepsData_both {c : Prop} [Decidable c] {u : State} (ht : KeepsData s t) (hu : KeepsData s u) : KeepsData s (if c then t else u) :=
  iteInduction (fun _ => ht) fun _ => hu

theorem foldl_keepsData {α : Type} {f : State → α → State} (hf : ∀ t a, KeepsData t (f t a)) (l : List α) (s : State) :
    KeepsData s (l.foldl f s) :=
  List.foldlRecOn (motive := KeepsData s) l f (keepsData_refl s) fun t ht a _ => ht.trans (hf t a)

theorem noteFrame_keepsData (s : State) (base size : Nat) : KeepsData s (noteFrame s base size) :=
  keepsData_both (keepsData_refl s) ⟨rfl, rfl⟩

theorem setGrain_keepsData (s : State) (base : Nat) (g : GrainDir) : KeepsData s (setGrain s base g) := noteFrame_keepsData s base g.size

theorem lineRead_keepsData (s : State) (c b n : Nat) : KeepsData s (lineRead s c b n) := by
  unfold lineRead
  split
  · exact setGrain_keepsData ..
  · split
    · exact keepsData_both (keepsData_refl s) (setGrain_keepsData ..)
    · exact setGrain_keepsData ..

theorem lineUcRead_keepsData (s : State) (b : Nat) : KeepsData s (lineUcRead s b) := by
  unfold lineUcRead
  split
  · split
    · exact setGrain_keepsData ..
    · exact keepsData_refl s
  · exact keepsData_refl s

theorem setTileRec_keepsData (s : State) (t : TileRec) : KeepsData s (setTileRec s t) := ⟨rfl, rfl⟩

theorem tileRead_keepsData (s : State) (c : Nat) (t : TileRec) : KeepsData s (tileRead s c t) := by
  unfold tileRead
  split
  · exact setTileRec_keepsData ..
  · exact setTileRec_keepsData ..
  · split
    · exact keepsData_both (keepsData_refl s) (setTileRec_keepsData ..)
    · exact setTileRec_keepsData ..
  · exact keepsData_refl s

theorem tileUcRead_keepsData (s : State) (t : TileRec) : KeepsData s (tileUcRead s t) := by
  unfold tileUcRead
  split
  · exact setTileRec_keepsData ..
  · exact keepsData_refl s

theorem cohCore_keepsData (s : State) (want : Want) (c : Nat) (dirty : List Nat) (u : CohUnit) : KeepsData s (cohCore s want c dirty u) := by
  unfold cohCore
  split
  · split
    · cases want with
      | read => exact tileRead_keepsData ..
      | own => exact setTileRec_keepsData ..
    · exact keepsData_refl s
  · cases want with
    | read => exact lineRead_keepsData ..
    | own => exact setGrain_keepsData ..

theorem cohHome_keepsData (s : State) (want : Want) (u : CohUnit) : KeepsData s (cohHome s want u) := by
  unfold cohHome
  split
  · split
    · cases want with
      | read => exact tileUcRead_keepsData ..
      | own => exact setTileRec_keepsData ..
    · exact keepsData_refl s
  · cases want with
    | read => exact lineUcRead_keepsData ..
    | own => exact ⟨rfl, rfl⟩

theorem queueUp_keepsData (s : State) (v : Visitor) (ranges : List (Nat × Nat)) : KeepsData s (queueUp s v ranges) :=
  keepsData_both ⟨rfl, rfl⟩ (keepsData_both ⟨rfl, rfl⟩ ⟨rfl, rfl⟩)

theorem served_keepsData (s : State) (v : Visitor) : KeepsData s (served s v) := ⟨rfl, rfl⟩

/-- The state of an answer of the protocol. -/
def CohResult.state : CohResult → State
  | .wait s | .ok s => s

/-- What a request does at the homes changes no data (R226). -/
theorem cohAsk_keepsData (s : State) (req : Req) (places : List Range) (keep : Bool) (want : Want) (core : Option Nat) (rs : List Range) :
    KeepsData s (cohAsk s req places keep want core rs).state := by
  unfold cohAsk
  dsimp only
  split
  · exact queueUp_keepsData ..
  · split
    · refine (keepsData_both (keepsData_refl s) (served_keepsData ..)).trans
        (foldl_keepsData (fun t r => foldl_keepsData (fun v u => ?_) _ t) _ _)
      cases core with
      | some c => exact cohCore_keepsData ..
      | none => exact cohHome_keepsData ..
    · exact queueUp_keepsData ..

theorem cohAll_wait {req : Req} {want : Want} {core : Option Nat} {rs : List Range} (hc : cohAll s req want core rs = .wait t) :
    KeepsData s t := by
  have hk := cohAsk_keepsData s req rs false want core rs
  rwa [show cohAsk s req rs false want core rs = .wait t from hc] at hk

theorem cohAll_ok {req : Req} {want : Want} {core : Option Nat} {rs : List Range} (hc : cohAll s req want core rs = .ok t) :
    KeepsData s t := by
  have hk := cohAsk_keepsData s req rs false want core rs
  rwa [show cohAsk s req rs false want core rs = .ok t from hc] at hk

/-! Stores that are over, or have failed. -/

@[simp] theorem freeFrozen_mem (s : State) (h : Hart) (op : Op) : (freeFrozen s h op).mem = s.mem := by
  unfold freeFrozen
  split
  · split
    · split <;> rfl
    · rfl
  · rfl

@[simp] theorem endStore_mem (s : State) (h : Hart) (hs : HartState) (p : Pending) : (endStore s h hs p).mem = s.mem := freeFrozen_mem ..

@[simp] theorem storeAnswered_mem (s : State) (a : Accepted) : (storeAnswered s a).mem = s.mem := by
  unfold storeAnswered
  dsimp only
  split
  · split
    · exact endStore_mem ..
    · rfl
  · rfl

@[simp] theorem storePerformed_mem (s : State) (a : Accepted) : (storePerformed s a).mem = s.mem := by
  unfold storePerformed
  split
  · exact recordRequest_mem ..
  · exact storeAnswered_mem ..

@[simp] theorem storeFails_mem (s : State) (a : Accepted) (c : Cause) (v : Word) : (storeFails s a c v).mem = s.mem := by
  unfold storeFails
  split
  · rfl
  · exact failOp_mem ..

end Sys2Proof.Machine
end

section
/-!
Stores that become visible: the bytes that they write, and those that they do not (R110, R158, R236, R238).
-/

namespace Sys2Proof.Machine

variable {s t : State} {p : Pending}

@[simp] theorem writeMem_mem (s : State) (pa : Nat) (bs : List Byte) : (writeMem s pa bs).mem = memSetBytes s.mem pa bs := putMem_mem ..

theorem storeEffect_store {data : List (List Byte)} (hop : p.op = .store data) :
    storeEffect s p = writeSpans (spoilSpans s p.spans) p.spans data := by
  unfold storeEffect
  rw [hop]

/-- One piece of a store is written. -/
def writePiece (s : State) (x : Span) (bs : List Byte) : State := x.at_.elim s fun a => writeMem s a.pa bs

/-- The first piece of a store goes before the others. -/
theorem writeSpans_cons {x : Span} {xs : List Span} {bs : List Byte} {bss : List (List Byte)} :
    writeSpans s (x :: xs) (bs :: bss) = writeSpans (writePiece s x bs) xs bss := by
  rw [writeSpans, writePiece]
  cases x.at_ <;> rfl

theorem writePiece_placed {x : Span} {a : Placed} {bs : List Byte} (hx : x.at_ = some a) : writePiece s x bs = writeMem s a.pa bs := by
  rw [writePiece, hx]
  rfl

theorem memWf_writePiece {x : Span} {bs : List Byte} (hm : memWf s.mem = true) : memWf (writePiece s x bs).mem = true := by
  rw [writePiece]
  cases x.at_ with
  | none => exact hm
  | some a => exact (writeMem_mem s a.pa bs).symm ▸ memWf_memSetBytes _ _ _ hm

/-- One piece writes no byte outside it. -/
theorem memByte_writePiece_outside {x : Span} {bs : List Byte} {b : Nat} (hl : bs.length = x.len) (hb : outside x b) :
    memByte (writePiece s x bs).mem b = memByte s.mem b := by
  cases hx : x.at_ with
  | none => rw [writePiece, hx]; rfl
  | some a =>
    rw [writePiece_placed hx, writeMem_mem]
    exact memByte_memSetBytes_outside _ _ _ _ (hl ▸ hb a hx)

/-- Pieces write no byte outside them. -/
theorem memByte_writeSpans_outside {spans : List Span} {data : List (List Byte)} {b : Nat} (hl : data.map List.length = spans.map Span.len)
    (hb : ∀ x ∈ spans, outside x b) : memByte (writeSpans s spans data).mem b = memByte s.mem b := by
  induction spans generalizing s data with
  | nil => cases data <;> rfl
  | cons x xs ih =>
    cases data with
    | nil => rfl
    | cons bs bss =>
      obtain ⟨hx, hxs⟩ := List.cons.inj hl
      rw [writeSpans_cons, ih hxs fun y hy => hb y (.tail _ hy), memByte_writePiece_outside hx (hb x (.head _))]

/-- A piece writes its bytes, where no later piece writes. -/
theorem memByte_writeSpans_inside {l r : List Span} {x : Span} {before after : List (List Byte)} {bs : List Byte} {a : Placed}
    (hm : memWf s.mem = true) (hl : before.map List.length = l.map Span.len) (hr : after.map List.length = r.map Span.len)
    (hx : x.at_ = some a) {k : Nat} (hk : k < bs.length) (hlast : ∀ y ∈ r, outside y (a.pa + k)) :
    memByte (writeSpans s (l ++ x :: r) (before ++ bs :: after)).mem (a.pa + k) = bs[k] := by
  induction l generalizing s before with
  | nil =>
    obtain rfl : before = [] := by simpa using hl
    rw [List.nil_append, List.nil_append, writeSpans_cons, memByte_writeSpans_outside hr hlast, writePiece_placed hx, writeMem_mem]
    exact memByte_memSetBytes_inside bs s.mem a.pa k hk hm
  | cons y l ih =>
    cases before with
    | nil => cases hl
    | cons c before =>
      obtain ⟨-, hl⟩ := List.cons.inj hl
      rw [List.cons_append, List.cons_append, writeSpans_cons]
      exact ih (memWf_writePiece hm) hl

/-- Settles O31: the pieces are written in order, each over its own bytes. -/
theorem storeWritesItsBytes : Obligations.StoreWritesItsBytes := by
  intro s p data before after l r x a bs hm hop hlen hspans hdata hcount hx
  have hm' : memWf (spoilSpans s p.spans).mem = true := (spoilSpans_mem ..).symm ▸ hm
  rw [storeEffect_store hop]
  refine ⟨fun k hlast => ?_, fun b hb => ?_⟩
  · have hmaps : before.map List.length ++ bs.length :: after.map List.length = l.map Span.len ++ x.len :: r.map Span.len := by
      simpa [hspans, hdata] using hlen
    obtain ⟨hl, hr⟩ := List.append_inj hmaps (by simpa using hcount)
    rw [hspans, hdata]
    exact memByte_writeSpans_inside (hspans ▸ hm') hl (List.cons.inj hr).2 hx k.isLt hlast
  · rw [memByte_writeSpans_outside hlen hb, spoilSpans_mem]

/-! Becoming visible. -/

theorem memByte_storeEffect_outside {data : List (List Byte)} {b : Nat} (hop : p.op = .store data)
    (hl : data.map List.length = p.spans.map Span.len) (hb : ∀ x ∈ p.spans, outside x b) :
    memByte (storeEffect s p).mem b = memByte s.mem b := by
  rw [storeEffect_store hop, memByte_writeSpans_outside hl hb, spoilSpans_mem]

section

variable {a : Accepted} {b : Nat} (hb : ∀ u : State, memByte (storeEffect u a.p).mem b = memByte u.mem b)
include hb

/-- A store whose request goes through changes what its effect changes. -/
theorem memByte_storePerformed {u : State} (hu : KeepsData s u) : memByte (storePerformed (storeEffect u a.p) a).mem b = memByte s.mem b := by
  rw [storePerformed_mem, hb, hu.1]

theorem memByte_showCached (r : Req) (c : Nat) : memByte (showCached s r a c).mem b = memByte s.mem b := by
  unfold showCached
  split
  · rfl
  · split
    · next u hu => rw [(cohAll_wait hu).1]
    · next u hu => exact memByte_storePerformed hb (cohAll_ok hu)

theorem memByte_showHome (r : Req) : memByte (showHome s r a).mem b = memByte s.mem b := by
  unfold showHome
  split
  · rfl
  · split
    · rw [storeFails_mem]
    · split
      · rw [storePerformed_mem]
      · split
        · next u hu => rw [(cohAll_wait hu).1]
        · next u hu => exact memByte_storePerformed hb (cohAll_ok hu)

end

theorem askedOf_store {i : Nat} {a : Accepted} (ha : storeOf s i = some a) : askedOf s (.store i) = some (.store a) := by
  rw [askedOf, ha]
  rfl

/-- An answer leaves a byte of memory as it was. -/
def KeepsByte (r : Result) (s : State) (b : Nat) : Prop := ∀ t, r = .next t → memByte t.mem b = memByte s.mem b

theorem keepsByte_next {b : Nat} (ht : memByte t.mem b = memByte s.mem b) : KeepsByte (.next t) s b := by
  intro u hu
  cases hu
  exact ht

theorem keepsByte_both {c : Prop} [Decidable c] {x y : Result} {b : Nat} (hx : KeepsByte x s b) (hy : KeepsByte y s b) :
    KeepsByte (if c then x else y) s b := by
  split
  · exact hx
  · exact hy

/-- A request for a store changes what the store changes, with ownership or at the home. -/
theorem storeRequest_keepsByte {i : Nat} {a : Accepted} {b : Nat} {e : Instr} (ha : storeOf s i = some a)
    (hc : ∀ c, memByte (showCached s (.store i) a c).mem b = memByte s.mem b)
    (hh : memByte (showHome s (.store i) a).mem b = memByte s.mem b)
    (he : e ∈ [Instr.ownershipRequest (.store i), .ucStore (.store i), .tileRequest .write (.store i), .tileRequest .home (.store i)]) :
    KeepsByte (exec e s) s b := by
  have hasked := askedOf_store ha
  have stays : KeepsByte (.next s) s b := keepsByte_next rfl
  simp only [List.mem_cons, List.not_mem_nil, or_false] at he
  obtain rfl | rfl | rfl | rfl := he
  · show KeepsByte (execOwnershipRequest (.store i) s) s b
    simp only [execOwnershipRequest, hasked]
    cases a.core with
    | none => exact stays
    | some c => exact keepsByte_both stays (keepsByte_next (hc c))
  · show KeepsByte (execUcStore (.store i) s) s b
    simp only [execUcStore, hasked]
    exact keepsByte_both stays (keepsByte_next hh)
  · show KeepsByte (execTileRequest .write (.store i) s) s b
    simp only [execTileRequest, hasked]
    cases a.core with
    | none => exact keepsByte_both stays stays
    | some c => exact keepsByte_both stays (keepsByte_next (hc c))
  · show KeepsByte (execTileRequest .home (.store i) s) s b
    simp only [execTileRequest, hasked]
    exact keepsByte_both stays (keepsByte_both (keepsByte_next hh) stays)

/-- Settles O32: the protocol and the answer leave memory as it is, and the effect writes the pieces. -/
theorem visibleStoreFrame : Obligations.VisibleStoreFrame := by
  intro s t i a data e ha hop hl he ht b hb
  have heffect (u : State) : memByte (storeEffect u a.p).mem b = memByte u.mem b := memByte_storeEffect_outside hop hl hb
  exact storeRequest_keepsByte ha (memByte_showCached heffect _) (memByte_showHome heffect _) he t ht

end Sys2Proof.Machine
end

section
/-!
Barrier objects and decide-once cells: their fields after they were written (R129, R132, R135).
-/

namespace Sys2Proof.Machine

variable {s t : State} {m : List Host.Cell} {a pa n v : Nat}

/-! Numbers in memory. -/

/-- Memory that reads the same over a number holds the same number. -/
theorem memBytes_congr {m₁ m₂ : List Host.Cell} {n : Nat} (h : ∀ k, a ≤ k → k < a + n → memByte m₁ k = memByte m₂ k) :
    memBytes m₁ a n = memBytes m₂ a n := by
  induction n generalizing a with
  | zero => rfl
  | succ n ih => rw [memBytes, memBytes, h a le_rfl (by omega), ih fun k hlo hhi => h k (by omega) (by omega)]

/-- A number that is written leaves those beside it. -/
theorem memNat_memSetNat_other {b k : Nat} (h : b + k ≤ a ∨ a + n ≤ b) : memNat (memSetNat m a n v) b k = memNat m b k :=
  congrArg leNat (memBytes_congr fun j hlo hhi => memByte_memSetNat_outside v (by omega))

/-- A number that fits is read back. -/
theorem memNat_memSetNat_of_lt (hm : memWf m = true) (hv : v < 2 ^ (8 * n)) : memNat (memSetNat m a n v) a n = v := by
  rw [memNat_memSetNat a n v hm, Nat.mod_eq_of_lt hv]

/-! Barrier objects. -/

@[simp] theorem wakeBarrier_mem (s : State) (pa : Nat) (ph : BitVec 4) : (wakeBarrier s pa ph).mem = s.mem := rfl

/-- An arrival that is no overrun and does not complete the phase is counted; one of no strand changes nothing. -/
theorem arriveBarrier_counted {c : Nat} (hc : c < 2 ^ 32) (hlt : barArr s.mem pa + c < barExp s.mem pa) : ∃ t : State,
    arriveBarrier s pa c = some (t, barPhase s.mem pa) ∧
    t.mem = if c = 0 then s.mem else memSetNat s.mem (pa + 4) 4 (barArr s.mem pa + c) := by
  have hover : ¬ (decide (2 ^ 32 ≤ c) || decide (barExp s.mem pa < barArr s.mem pa + c)) = true := by simp; omega
  rw [arriveBarrier, if_neg hover]
  by_cases h0 : c = 0
  · rw [if_pos h0]
    exact ⟨s, rfl, (if_pos h0).symm⟩
  · rw [if_neg h0, if_neg hlt.ne, if_neg h0]
    exact ⟨_, rfl, putMem_mem ..⟩

/-- The arrival that completes the phase. -/
theorem arriveBarrier_completes {c : Nat} (h1 : 1 ≤ c) (hc : c < 2 ^ 32) (he : barArr s.mem pa + c = barExp s.mem pa) : ∃ t : State,
    arriveBarrier s pa c = some (t, barPhase s.mem pa) ∧
    t.mem = memSetNat (memSetNat s.mem (pa + 4) 4 0) (pa + 8) 1 (barPhase s.mem pa + 1).toNat := by
  have hover : ¬ (decide (2 ^ 32 ≤ c) || decide (barExp s.mem pa < barArr s.mem pa + c)) = true := by simp; omega
  rw [arriveBarrier, if_neg hover, if_neg (by omega), if_pos he]
  exact ⟨_, rfl, (wakeBarrier_mem ..).trans (putMem_mem ..)⟩

/-- Settles O34: the fields of the object lie apart, and each count fits in its field. -/
theorem barrierArrives : Obligations.BarrierArrives := by
  intro s pa c hm
  refine ⟨fun hover => ?_, fun hc hlt => ?_, fun h1 hc he => ?_⟩
  · rw [arriveBarrier]
    exact if_pos (by simpa using hover)
  · obtain ⟨t, ht, hmem⟩ := arriveBarrier_counted hc hlt
    have hfits : barArr s.mem pa + c < 2 ^ (8 * 4) := hlt.trans (memNat_lt ..)
    refine ⟨t, ht, ?_⟩
    rw [hmem]
    split
    · next h0 => exact ⟨rfl, by omega, rfl⟩
    · exact ⟨memNat_memSetNat_other (by omega), memNat_memSetNat_of_lt hm hfits,
        congrArg (BitVec.ofNat 4) (memNat_memSetNat_other (by omega))⟩
  · obtain ⟨t, ht, hmem⟩ := arriveBarrier_completes h1 hc he
    refine ⟨t, ht, ?_⟩
    rw [hmem]
    refine ⟨?_, ?_, ?_⟩
    · exact (memNat_memSetNat_other (by omega)).trans (memNat_memSetNat_other (by omega))
    · exact (memNat_memSetNat_other (by omega)).trans (memNat_memSetNat_of_lt hm (Nat.two_pow_pos _))
    · have hfits : (barPhase s.mem pa + 1).toNat < 2 ^ (8 * 1) := (BitVec.isLt _).trans (by decide)
      rw [barPhase, memNat_memSetNat_of_lt (memWf_memSetNat _ _ _ _ hm) hfits, BitVec.ofNat_toNat, BitVec.setWidth_eq]

/-! Decide-once cells. -/

/-- A cell that is written holds its state, its generation and its value. -/
theorem cellWrite_fields {st gen : Nat} {val : Word} {winner : Nat} (hm : memWf m = true) (hst : st < 4) (hgen : gen < 2 ^ 30) :
    cellState (cellWrite m pa st gen val winner) pa = st ∧ cellGen (cellWrite m pa st gen val winner) pa = gen ∧
    cellValue (cellWrite m pa st gen val winner) pa = val := by
  have hhead : memNat (cellWrite m pa st gen val winner) pa 4 = st + 4 * gen := by
    rw [cellWrite, memNat_memSetNat_other (by omega), memNat_memSetNat_other (by omega), memNat_memSetNat_of_lt hm (by omega)]
  have hval : memNat (cellWrite m pa st gen val winner) (pa + 8) 8 = val.toNat := by
    rw [cellWrite, memNat_memSetNat_other (by omega), memNat_memSetNat_of_lt (memWf_memSetNat _ _ _ _ hm) val.isLt]
  refine ⟨?_, ?_, ?_⟩
  · rw [cellState, hhead]; omega
  · rw [cellGen, hhead]; omega
  · rw [cellValue, memWord, hval, BitVec.ofNat_toNat, BitVec.setWidth_eq]

section

variable {h : Hart} {p : Pending} {val g : Word} (hop : p.op = .propose val g) (hgen : cellGen s.mem p.pa = g.toNat % 2 ^ 30)
include hop hgen

/-- A PROPOSE of the cell's generation to an open cell writes the cell (R135). -/
theorem decideRequest_open (hst : cellState s.mem p.pa = 0) :
    (decideRequest s h p).mem = cellWrite s.mem p.pa 1 (cellGen s.mem p.pa) val (winnerId h) := by
  simp [decideRequest, hop, hst, hgen]

/-- A PROPOSE of the cell's generation to a decided cell writes nothing (R135). -/
theorem decideRequest_decided (hst : cellState s.mem p.pa = 1) : (decideRequest s h p).mem = s.mem := by
  simp [decideRequest, hop, hst, hgen]

end

/-- Settles O35: an open cell is written with the proposal, a decided one not at all. -/
theorem decidesOnce : Obligations.DecidesOnce := by
  intro s h p v g hm hop hgen
  have hlt : cellGen s.mem p.pa < 2 ^ 30 := hgen ▸ Nat.mod_lt _ (by decide)
  refine ⟨fun hst => ?_, decideRequest_decided hop hgen⟩
  obtain ⟨hstate, hgen', hvalue⟩ := cellWrite_fields (pa := p.pa) (val := v) (winner := winnerId h) hm (by decide : 1 < 4) hlt
  rw [decideRequest_open hop hgen hst]
  exact ⟨hstate, hvalue, hgen'⟩

end Sys2Proof.Machine
end

section
/-!
Addresses of harts without page tables (R106, R365).
-/

namespace Sys2Proof.Machine

variable {s : State} {h : Hart} {ptbr : Ptbr} {priv : BitVec 2} {va : Word} {r : Right}

theorem asFetch_of_ne_exec (hr : r ≠ .exec) (c : Cause) : asFetch r c = c := by
  rw [asFetch, decide_eq_false hr]
  rfl

/-- What a translation answers without a walk. -/
theorem translate_hit {p : Placed} (hl : lookup s h ptbr priv va r = .hit p) : translate s h ptbr priv va r = .ok p := by
  rw [translate, hl]

theorem translate_fault {c : Cause} (hl : lookup s h ptbr priv va r = .fault c) : translate s h ptbr priv va r = .error c := by
  rw [translate, hl]

theorem lookup_noncanonical (hc : canonical va = false) : lookup s h ptbr priv va r = .fault (asFetch r .pgflt) := by
  simp [lookup, hc]

theorem lookup_user (hroot : ptbr.root = 0) (hc : canonical va = true) (hp : priv = 0) : lookup s h ptbr priv va r = .fault .pgflt := by
  simp [lookup, hc, runsUntranslated, hp, hroot]

theorem runsUntranslated_of_root (hroot : ptbr.root = 0) (hp : priv ≠ 0) : runsUntranslated ptbr priv = true := by
  rw [runsUntranslated, hroot, decide_eq_true hp]
  rfl

section

variable (hroot : ptbr.root = 0) (hc : canonical va = true) (hp : priv ≠ 0)
include hroot hc hp

theorem lookup_untranslated {p : Placed} (hu : untranslated va = .ok p) : lookup s h ptbr priv va r = .hit p := by
  simp [lookup, hc, runsUntranslated_of_root hroot hp, hu]

theorem lookup_hole {c : Cause} (hu : untranslated va = .error c) : lookup s h ptbr priv va r = .fault (asFetch r c) := by
  simp [lookup, hc, runsUntranslated_of_root hroot hp, hu]

end

/-- Where memory or a window is, an untranslated address is its own place. -/
theorem untranslated_place (ht : isWindow (va.toNat % 2 ^ 57) = true ∨ memPaOk (va.toNat % 2 ^ 57) = true) :
    ∃ p : Placed, untranslated va = .ok p ∧ p.pa = va.toNat % 2 ^ 57 := by
  unfold untranslated
  dsimp only
  split
  · exact ⟨_, rfl, rfl⟩
  · next hw => exact ⟨_, if_pos (ht.resolve_left hw), rfl⟩

theorem untranslated_hole (hw : isWindow (va.toNat % 2 ^ 57) = false) (hm : memPaOk (va.toNat % 2 ^ 57) = false) :
    untranslated va = .error .pgflt := by
  unfold untranslated
  dsimp only
  rw [if_neg (Bool.not_eq_true _ ▸ hw), if_neg (Bool.not_eq_true _ ▸ hm)]

end Sys2Proof.Machine

namespace Sys2Proof.Laws

open Sys2Proof.Machine

/-- Settles O36: an address is no canonical one, a user's, one of memory or a window, or one of a hole. -/
theorem untranslated : Obligations.Untranslated := by
  intro s h ptbr priv va r hroot hr
  refine ⟨fun hc => ?_, fun hc hp => translate_fault (lookup_user hroot hc hp), fun hc hp ht => ?_, fun hc hp hw hm => ?_⟩
  · rw [translate_fault (lookup_noncanonical hc), asFetch_of_ne_exec hr]
  · obtain ⟨p, hu, hpa⟩ := untranslated_place ht
    exact ⟨p, translate_hit (lookup_untranslated hroot hc hp hu), hpa⟩
  · rw [translate_fault (lookup_hole hroot hc hp (untranslated_hole hw hm)), asFetch_of_ne_exec hr]

end Sys2Proof.Laws
end

section
/-!
What reaches the owners and homes of memory: each row of the table is what its event does.
-/

namespace Sys2Proof.Machine

variable {s t u : State} {h : Hart} {c i m n pa : Nat} {hs : HartState} {p : Pending} {a : Accepted} {r : Req}

/-! Requests of the cores and the homes (R224, R236, R238). -/

theorem askedOf_op (hop : openOp s h n = some (hs, p)) : askedOf s (.op h n) = some (.op h hs p) := by rw [askedOf, hop]; rfl

/-- A store that its request serves with ownership. -/
theorem showCached_served (hgo : (shows s a && !homeStore a) = true) (hu : cohAll s r .own (some c) (spanRanges a.p.spans) = .ok u) :
    showCached s r a c = storePerformed (storeEffect u a.p) a := by
  obtain ⟨hshow, hhome⟩ := Bool.and_eq_true_iff.1 hgo
  obtain ⟨hmay, hwin⟩ := Bool.and_eq_true_iff.1 hshow
  simp only [Bool.not_eq_true'] at hhome hwin
  simp [showCached, hmay, hwin, hhome, hu]

/-- The state of a store that is performed at its home, where its request goes through. -/
def shownHome (s : State) (r : Req) (a : Accepted) : Option State :=
  if a.p.op = .storeNone then some (storePerformed s a)
  else granted (cohAll s r .own none (spanRanges a.p.spans)) fun s' => storePerformed (storeEffect s' a.p) a

theorem showHome_served (hshow : shows s a = true) (hmem : (memError s (hartModule a.hart) false a.p.spans).isNone = true)
    (e : shownHome s r a = some t) : showHome s r a = t := by
  obtain ⟨hmay, hwin⟩ := Bool.and_eq_true_iff.1 hshow
  simp only [Bool.not_eq_true'] at hwin
  unfold shownHome at e
  simp only [showHome, hmay, hwin, Option.isNone_iff_eq_none.1 hmem, Bool.not_true, Bool.or_self, Bool.false_eq_true, if_false]
  split at e
  · next hnone => exact (if_pos hnone).trans (Option.some.inj e)
  · next hnone =>
    obtain ⟨u, hu, rfl⟩ := granted_eq_some e
    rw [if_neg hnone, hu]

/-- What an atomic that may be performed has passed. -/
theorem atomicGoes_checks (hgo : atomicGoes s h hs p = true) : (∃ fn b c, p.op = .atomic fn b c) ∧ p.phase = .request ∧ goesWindow p = false ∧
    mayPerform s h hs p true = true ∧ memError s (hartModule h) true p.spans = none := by
  simp only [atomicGoes, Bool.and_eq_true, beq_iff_eq, Bool.not_eq_true', Option.isNone_iff_eq_none] at hgo
  obtain ⟨⟨⟨⟨hat, hphase⟩, hwin⟩, hmay⟩, hmem⟩ := hgo
  refine ⟨?_, hphase, hwin, hmay, hmem⟩
  unfold windowEvents.isAtomic at hat
  split at hat
  · next fn b c hop => exact ⟨fn, b, c, hop⟩
  · cases hat

theorem ownAtomic_served (hgo : atomicGoes s h hs p = true) (hhome : goesHome h p = false)
    (hu : cohAll s r .own (some c) (spanRanges p.spans) = .ok u) : ownAtomic s r h hs p c = doAtomic u h p := by
  obtain ⟨⟨fn, b, d, hop⟩, hphase, hwin, hmay, hmem⟩ := atomicGoes_checks hgo
  simp [ownAtomic, hop, hphase, hwin, hmay, hmem, hhome, hu]

theorem homeAtomic_served (hgo : atomicGoes s h hs p = true) (hu : cohAll s r .own none (spanRanges p.spans) = .ok u) :
    homeAtomic s r h hs p = doAtomic u h p := by
  obtain ⟨⟨fn, b, d, hop⟩, hphase, hwin, hmay, hmem⟩ := atomicGoes_checks hgo
  simp [homeAtomic, hop, hphase, hwin, hmay, hmem, hu]

/-! Reads. -/

/-- What a cached load whose grains are to come has passed. -/
theorem fetching_checks (hgo : memoryEvents.fetching h p = true) :
    p.op.isLoad = true ∧ p.placed = true ∧ p.fetched = false ∧ goesWindow p = false ∧ goesHome h p = false := by
  simpa only [memoryEvents.fetching, Bool.and_eq_true, Bool.not_eq_true', and_assoc] using hgo

theorem readRequest_event (e : memoryEvents s (.readRequest r) = some t) : exec (.readRequest r) s = .next t := by
  show execReadRequest r s = _
  cases r with
  | core c pa =>
    dsimp only [memoryEvents] at e
    obtain ⟨x, hx, e⟩ := Option.bind_eq_some_iff.1 e
    obtain ⟨u, hu, rfl⟩ := granted_eq_some e
    simp only [execReadRequest, hx, hu]
  | op h n =>
    dsimp only [memoryEvents] at e
    obtain ⟨⟨hs, p⟩, hop, e⟩ := Option.bind_eq_some_iff.1 e
    dsimp only at e
    obtain ⟨c, hc, e⟩ := Option.bind_eq_some_iff.1 e
    obtain ⟨hgo, e⟩ := Option.ite_none_right_eq_some.1 e
    obtain ⟨u, hu, rfl⟩ := granted_eq_some e
    obtain ⟨hfetch, htile⟩ := Bool.and_eq_true_iff.1 hgo
    obtain ⟨hload, hplaced, hfetched, hwin, hhome⟩ := fetching_checks hfetch
    simp only [Bool.not_eq_true'] at htile
    simp [execReadRequest, hop, hc, hload, hplaced, hfetched, hwin, hhome, htile, hu]
  | _ => cases e

theorem ucLoad_event (e : memoryEvents s (.ucLoad h n) = some t) : exec (.ucLoad h n) s = .next t := by
  show execUcLoad h n s = _
  dsimp only [memoryEvents] at e
  obtain ⟨⟨hs, p⟩, hop, e⟩ := Option.bind_eq_some_iff.1 e
  dsimp only at e
  obtain ⟨hgo, e⟩ := Option.ite_none_right_eq_some.1 e
  obtain ⟨u, hu, rfl⟩ := granted_eq_some e
  simp only [Bool.and_eq_true, Bool.not_eq_true', Option.isNone_iff_eq_none] at hgo
  obtain ⟨⟨⟨⟨hload, hhome⟩, hwin⟩, hmay⟩, hmem⟩ := hgo
  simp only [execUcLoad, hop, hload, hhome, hwin, hmay, hmem, hu, Bool.not_true, Bool.or_self, Bool.false_eq_true, if_false,
    windowEvents.loaded, seq_of_openOp hop]
  cases loadResult p (readSpans u.mem p.spans) with
  | error x => rfl
  | ok x => cases hartOf u h <;> rfl

/-! Ownership, and what is performed at the home. -/

theorem ownershipRequest_event (e : memoryEvents s (.ownershipRequest r) = some t) : exec (.ownershipRequest r) s = .next t := by
  show execOwnershipRequest r s = _
  cases r with
  | core c pa =>
    dsimp only [memoryEvents] at e
    obtain ⟨x, hx, e⟩ := Option.bind_eq_some_iff.1 e
    obtain ⟨u, hu, rfl⟩ := granted_eq_some e
    simp only [execOwnershipRequest, hx, hu]
  | store i =>
    dsimp only [memoryEvents] at e
    obtain ⟨a, ha, e⟩ := Option.bind_eq_some_iff.1 e
    obtain ⟨c, hc, e⟩ := Option.bind_eq_some_iff.1 e
    obtain ⟨hgo, e⟩ := Option.ite_none_right_eq_some.1 e
    obtain ⟨u, hu, rfl⟩ := granted_eq_some e
    obtain ⟨hgo, htile⟩ := Bool.and_eq_true_iff.1 hgo
    simp only [Bool.not_eq_true'] at htile
    simp [execOwnershipRequest, askedOf_store ha, hc, htile, showCached_served hgo hu]
  | op h n =>
    dsimp only [memoryEvents] at e
    obtain ⟨⟨hs, p⟩, hop, e⟩ := Option.bind_eq_some_iff.1 e
    dsimp only at e
    obtain ⟨c, hc, e⟩ := Option.bind_eq_some_iff.1 e
    obtain ⟨hgo, e⟩ := Option.ite_none_right_eq_some.1 e
    obtain ⟨u, hu, rfl⟩ := granted_eq_some e
    simp only [Bool.and_eq_true, Bool.not_eq_true'] at hgo
    obtain ⟨⟨hat, hhome⟩, htile⟩ := hgo
    simp [execOwnershipRequest, askedOf_op hop, hc, htile, ownAtomic_served hat hhome hu]
  | _ => cases e

theorem ucStore_event (e : memoryEvents s (.ucStore r) = some t) : exec (.ucStore r) s = .next t := by
  show execUcStore r s = _
  cases r with
  | store i =>
    dsimp only [memoryEvents] at e
    obtain ⟨a, ha, e⟩ := Option.bind_eq_some_iff.1 e
    obtain ⟨hgo, e⟩ := Option.ite_none_right_eq_some.1 e
    simp only [Bool.and_eq_true, Bool.not_eq_true'] at hgo
    obtain ⟨⟨⟨hshow, hhome⟩, htile⟩, hmem⟩ := hgo
    simp [execUcStore, askedOf_store ha, hhome, htile, showHome_served hshow hmem e]
  | op h n =>
    dsimp only [memoryEvents] at e
    obtain ⟨⟨hs, p⟩, hop, e⟩ := Option.bind_eq_some_iff.1 e
    dsimp only at e
    obtain ⟨hgo, e⟩ := Option.ite_none_right_eq_some.1 e
    obtain ⟨u, hu, rfl⟩ := granted_eq_some e
    obtain ⟨hat, htile⟩ := Bool.and_eq_true_iff.1 hgo
    simp only [Bool.not_eq_true'] at htile
    simp [execUcStore, askedOf_op hop, htile, homeAtomic_served hat hu]
  | _ => cases e

theorem eviction_event (e : memoryEvents s (.eviction c pa) = some t) : exec (.eviction c pa) s = .next t := by
  show execEviction c pa s = _
  dsimp only [memoryEvents] at e
  unfold execEviction
  cases htile : tileAt s pa with
  | some x =>
    simp only [htile] at e
    exact congrArg _ (Option.some.inj e)
  | none =>
    simp only [htile] at e
    obtain ⟨g, hg, rfl⟩ := Option.map_eq_some_iff.1 e
    simp only [hg]

/-! Tile records (R238 to R241). -/

theorem tileRead_event (e : memoryEvents s (.tileRequest .read r) = some t) : exec (.tileRequest .read r) s = .next t := by
  show execTileRequest .read r s = _
  cases r with
  | op h n =>
    dsimp only [memoryEvents] at e
    obtain ⟨⟨hs, p⟩, hop, e⟩ := Option.bind_eq_some_iff.1 e
    dsimp only at e
    obtain ⟨c, hc, e⟩ := Option.bind_eq_some_iff.1 e
    obtain ⟨hgo, e⟩ := Option.ite_none_right_eq_some.1 e
    obtain ⟨u, hu, rfl⟩ := granted_eq_some e
    obtain ⟨hfetch, htile⟩ := Bool.and_eq_true_iff.1 hgo
    obtain ⟨hload, hplaced, hfetched, hwin, hhome⟩ := fetching_checks hfetch
    simp [execTileRequest, askedOf_op hop, hc, hload, hplaced, hfetched, hwin, hhome, htile, hu]
  | _ => cases e

theorem tileWrite_event (e : memoryEvents s (.tileRequest .write r) = some t) : exec (.tileRequest .write r) s = .next t := by
  show execTileRequest .write r s = _
  cases r with
  | store i =>
    dsimp only [memoryEvents] at e
    obtain ⟨a, ha, e⟩ := Option.bind_eq_some_iff.1 e
    obtain ⟨c, hc, e⟩ := Option.bind_eq_some_iff.1 e
    obtain ⟨hgo, e⟩ := Option.ite_none_right_eq_some.1 e
    obtain ⟨u, hu, rfl⟩ := granted_eq_some e
    obtain ⟨hgo, htile⟩ := Bool.and_eq_true_iff.1 hgo
    simp [execTileRequest, askedOf_store ha, hc, htile, showCached_served hgo hu]
  | _ => cases e

theorem tileHome_event (e : memoryEvents s (.tileRequest .home r) = some t) : exec (.tileRequest .home r) s = .next t := by
  show execTileRequest .home r s = _
  cases r with
  | store i =>
    dsimp only [memoryEvents] at e
    obtain ⟨a, ha, e⟩ := Option.bind_eq_some_iff.1 e
    obtain ⟨hgo, e⟩ := Option.ite_none_right_eq_some.1 e
    simp only [Bool.and_eq_true] at hgo
    obtain ⟨⟨⟨hshow, hhome⟩, htile⟩, hmem⟩ := hgo
    simp [execTileRequest, askedOf_store ha, hhome, htile, showHome_served hshow hmem e]
  | op h n =>
    dsimp only [memoryEvents] at e
    obtain ⟨⟨hs, p⟩, hop, e⟩ := Option.bind_eq_some_iff.1 e
    dsimp only at e
    obtain ⟨a, ha, e⟩ := Option.bind_eq_some_iff.1 e
    obtain ⟨hgo, rfl⟩ := due_eq_some.1 e
    simp only [Bool.and_eq_true] at hgo
    obtain ⟨⟨htile, hmay⟩, hfree⟩ := hgo
    have hok : (if tileRefused h p.op a = true then none else memError s (hartModule h) false p.spans) = none := by
      obtain hr | hmem := Bool.or_eq_true_iff.1 hfree
      · exact if_pos hr
      · exact ite_eq_left_iff.2 fun _ => Option.isNone_iff_eq_none.1 hmem
    simp only [execTileRequest, askedOf_op hop, htile, if_true, ha, hmay, Bool.not_true, Bool.false_eq_true, if_false, hok]
  | _ => cases e

/-! Full/empty words and barrier objects (R114 to R116, R129). -/

theorem fewordRequestArrival_event (e : memoryEvents s (.fewordRequestArrival h n) = some t) : exec (.fewordRequestArrival h n) s = .next t := by
  show execFewordRequestArrival h n s = _
  dsimp only [memoryEvents] at e
  obtain ⟨⟨hs, p⟩, hop, e⟩ := Option.bind_eq_some_iff.1 e
  dsimp only at e
  obtain ⟨w, hw, e⟩ := Option.bind_eq_some_iff.1 e
  obtain ⟨hgo, rfl⟩ := due_eq_some.1 e
  simp only [Bool.and_eq_true, Bool.not_eq_true', beq_iff_eq, Option.isNone_iff_eq_none] at hgo
  obtain ⟨⟨⟨⟨⟨hfe, hphase⟩, hmay⟩, hparked⟩, hcause⟩, hpoison⟩ := hgo
  simp only [execFewordRequestArrival, hop]
  show (if (!memoryEvents.isFe p.op || p.phase != .request || !mayPerform s h hs p true) = true then _ else _) = _
  simp only [hfe, hphase, hmay, hparked, hcause, hw, bne_self_eq_false, Bool.not_true, Bool.or_self, Bool.false_eq_true, if_false]
  exact if_neg (Bool.eq_false_iff.1 hpoison)

theorem barrierOpAtHome_event (e : memoryEvents s (.barrierOpAtHome h n) = some t) : exec (.barrierOpAtHome h n) s = .next t := by
  show execBarrierOpAtHome h n s = _
  dsimp only [memoryEvents] at e
  obtain ⟨⟨hs, p⟩, hop, e⟩ := Option.bind_eq_some_iff.1 e
  dsimp only at e
  obtain ⟨hgo, e⟩ := Option.ite_none_right_eq_some.1 e
  simp only [Bool.and_eq_true, Bool.not_eq_true', beq_iff_eq, Option.isNone_iff_eq_none] at hgo
  obtain ⟨⟨⟨⟨⟨hbar, hphase⟩, hmay⟩, hparked⟩, hcause⟩, hmem⟩ := hgo
  simp only [execBarrierOpAtHome, hop, hbar, hphase, hmay, hparked, hcause, hmem, bne_self_eq_false, Bool.not_true, Bool.or_self,
    Bool.false_eq_true, if_false, Option.orElse_none, Option.map_none]
  split at e
  · next hwin => rw [if_pos hwin, Option.some.inj e]
  · next hwin =>
    obtain ⟨u, hu, rfl⟩ := granted_eq_some e
    rw [if_neg hwin, hu]

/-! Cells (R124 to R137). -/

theorem cellReady_of_cellGoes (hgo : memoryEvents.cellGoes s h hs p = true) : cellReady s h hs p = .ok () := by
  simp only [memoryEvents.cellGoes, Bool.and_eq_true, Bool.not_eq_true', Option.isNone_iff_eq_none] at hgo
  obtain ⟨⟨hmay, hwin⟩, hmem⟩ := hgo
  simp [cellReady, hmay, hwin, hmem]

theorem useCell_keepsData (s : State) (pa : Nat) (parts : List (Nat × Nat)) : KeepsData s (useCell s pa parts) :=
  keepsData_both (keepsData_refl s) ⟨rfl, rfl⟩

theorem feed_keepsData (s : State) (pa uid i : Nat) : KeepsData s (feed s pa uid i) := ⟨rfl, rfl⟩

/-- A value added to a slot, in the state that has noted its feeder. -/
theorem addSlot_eq (s : State) (h : Hart) (hs : HartState) (p : Pending) (parts : List (Nat × Nat)) (f : Fmt) (slot a : Nat) (val : Word) :
    addSlot s h hs p parts f slot a val =
      let used := useCell s p.pa parts
      let fed := feed used p.pa hs.id.uid slot
      if slotSettled used p.pa hs.id.uid slot then finishOp (memoryEvents.added fed a f val) h p.seq []
      else finishOp (memoryEvents.unsettled fed a f) h p.seq [] := by
  obtain ⟨hmem, hfree⟩ := (useCell_keepsData s p.pa parts).trans (feed_keepsData _ p.pa hs.id.uid slot)
  simp only [addSlot, memoryEvents.added, memoryEvents.unsettled, hmem, hfree]

theorem redAddAtHome_event (e : memoryEvents s (.redAddAtHome h n) = some t) : exec (.redAddAtHome h n) s = .next t := by
  show execRedAddAtHome h n s = _
  dsimp only [memoryEvents] at e
  obtain ⟨⟨hs, p⟩, hop, e⟩ := Option.bind_eq_some_iff.1 e
  dsimp only at e
  split at e
  · next slot val s1 hred hread =>
    obtain ⟨⟨cnt, f⟩, hhead, e⟩ := Option.bind_eq_some_iff.1 e
    dsimp only at e
    obtain ⟨hgo, e⟩ := Option.ite_none_right_eq_some.1 e
    obtain ⟨u, hu, rfl⟩ := granted_eq_some e
    simp only [Bool.and_eq_true, Bool.not_eq_true', decide_eq_true_eq] at hgo
    obtain ⟨⟨hcell, hslot⟩, hpoison⟩ := hgo
    simp only [execRedAddAtHome, hop, hred, cellReady_of_cellGoes hcell, hread, hhead, hslot.not_ge, hpoison, hu, if_false, Bool.false_eq_true,
      addSlot_eq, seq_of_openOp hop]
  · cases e

theorem decideOnceAtHome_event {b : Bool} (e : memoryEvents s (.decideOnceAtHome h n b) = some t) :
    exec (.decideOnceAtHome h n b) s = .next t := by
  show execDecideOnceAtHome h n b s = _
  cases b with
  | false =>
    dsimp only [memoryEvents] at e
    obtain ⟨⟨hs, p⟩, hop, e⟩ := Option.bind_eq_some_iff.1 e
    dsimp only at e
    obtain ⟨hgo, e⟩ := Option.ite_none_right_eq_some.1 e
    obtain ⟨u, hu, rfl⟩ := granted_eq_some e
    obtain ⟨hdec, hcell⟩ := Bool.and_eq_true_iff.1 hgo
    simp only [execDecideOnceAtHome, hop]
    show (if (!memoryEvents.decides hs p.op) = true then _ else _) = _
    simp only [hdec, Bool.not_true, Bool.false_eq_true, if_false, cellReady_of_cellGoes hcell, hu]
  | true =>
    dsimp only [memoryEvents] at e
    obtain ⟨⟨hs, p⟩, hop, e⟩ := Option.bind_eq_some_iff.1 e
    dsimp only at e
    split at e
    · next g hread =>
      obtain ⟨c, hc, e⟩ := Option.bind_eq_some_iff.1 e
      obtain ⟨hgo, rfl⟩ := due_eq_some.1 e
      simp [execDecideOnceAtHome, hop, hread, hc, hgo]
    · cases e

/-! The host (R241, R242). -/

theorem hostRead_event (e : memoryEvents s (.hostRead m pa) = some t) : exec (.hostRead m pa) s = .next t := by
  obtain ⟨hd, rfl⟩ := due_eq_some.1 e
  exact if_pos hd

theorem hostOwnershipRequest_event (e : memoryEvents s (.hostOwnershipRequest m pa) = some t) :
    exec (.hostOwnershipRequest m pa) s = .next t := by
  obtain ⟨hd, rfl⟩ := due_eq_some.1 e
  exact if_pos hd

theorem backInvalidationResponse_event {d : Option (BitVec 512)} (e : memoryEvents s (.backInvalidationResponse m pa d) = some t) :
    exec (.backInvalidationResponse m pa d) s = .next t := by
  show execBackInvalidationResponse m pa d s = _
  cases d with
  | none | some =>
    obtain ⟨hd, rfl⟩ := due_eq_some.1 e
    exact if_neg (Bool.eq_false_iff.1 (congrArg not hd))

theorem backInvalidationTimeout_event (e : memoryEvents s (.backInvalidationTimeout m pa) = some t) :
    exec (.backInvalidationTimeout m pa) s = .next t := by
  show execBackInvalidationTimeout m pa s = _
  dsimp only [memoryEvents, memoryEvents.lineOf] at e
  obtain ⟨x, hx, e⟩ := Option.bind_eq_some_iff.1 e
  obtain ⟨hd, rfl⟩ := due_eq_some.1 e
  simp only [execBackInvalidationTimeout, hx]
  exact if_neg (of_decide_eq_true hd).not_gt

/-! Walks (R296). -/

theorem translationWalk_event (e : memoryEvents s (.translationWalk c i) = some t) : exec (.translationWalk c i) s = .next t := by
  show execTranslationWalk c i s = _
  dsimp only [memoryEvents] at e
  obtain ⟨x, hx, e⟩ := Option.bind_eq_some_iff.1 e
  obtain ⟨hi, e⟩ := Option.ite_none_right_eq_some.1 e
  obtain ⟨u, hu, rfl⟩ := granted_eq_some e
  have hfree : u.free = s.free := (cohAll_ok hu).2
  simp only [execTranslationWalk, hi.not_ge, if_false, hx, hu, hfree]
  rfl

end Sys2Proof.Machine

namespace Sys2Proof.Laws

open Sys2Proof.Machine

/-- Settles O56: each row of the table is what its event does. -/
theorem memoryEvents : Obligations.MemoryEvents := by
  intro i s t e
  cases i with
  | readRequest => exact readRequest_event e
  | ownershipRequest => exact ownershipRequest_event e
  | eviction => exact eviction_event e
  | ucLoad => exact ucLoad_event e
  | ucStore => exact ucStore_event e
  | tileRequest k => cases k with
    | read => exact tileRead_event e
    | write => exact tileWrite_event e
    | home => exact tileHome_event e
  | fewordRequestArrival => exact fewordRequestArrival_event e
  | barrierOpAtHome => exact barrierOpAtHome_event e
  | redAddAtHome => exact redAddAtHome_event e
  | decideOnceAtHome => exact decideOnceAtHome_event e
  | hostRead => exact hostRead_event e
  | hostOwnershipRequest => exact hostOwnershipRequest_event e
  | backInvalidationResponse => exact backInvalidationResponse_event e
  | backInvalidationTimeout => exact backInvalidationTimeout_event e
  | translationWalk => exact translationWalk_event e
  | _ => cases e

end Sys2Proof.Laws
end

section
/-!
A start of an engine that waits behind an earlier request at the home of its descriptor (R207, R236).
-/

namespace Sys2Proof.Machine

/-- Core 0's prefetch from address 0x300000 waits for its turn at the home, and engine 0 is kicked with its descriptor there. -/
def prefetchAhead : State := { State.reset with
  prefetches := [(0, 0x300000, 0, false)]
  arrivals := [⟨.req (.core 0 0x300000), [(0x300000, 1)]⟩]
  kicks := [(0, ⟨0x300000, posterOf bootHart⟩)] }

/-- Engine 0 runs after an event. -/
def engineRuns (r : Result) : Bool := match r with
  | .next t => (hartOf t (.engine 0)).isSome
  | _ => false

/-- The engine reads its descriptor in its turn, behind the prefetch. -/
theorem engineStart_waits_for_prefetch : engineRuns (exec (.engineStart 0) prefetchAhead) = false := by decide

/-- The table reads the descriptor in the name of core 0, and so in the place of that core's prefetch. -/
theorem launchEvents_starts_before_prefetch :
    (launchEvents prefetchAhead (.engineStart 0)).map (fun t => engineRuns (.next t)) = some true := by decide

/-- Refutes O57: the row of ENGINE_START makes the read of the descriptor as a request of core 0, which takes the place of a prefetch of that
core that waits there; the event makes it as one of a unit without a place, which waits behind the prefetch. -/
theorem not_launchEvents : ¬ Obligations.LaunchEvents := by
  intro h
  obtain ⟨t, ht, hruns⟩ := Option.map_eq_some_iff.1 launchEvents_starts_before_prefetch
  have hstart := congrArg engineRuns (h _ _ t ht)
  exact absurd (engineStart_waits_for_prefetch.symm.trans (hstart.trans hruns)) Bool.false_ne_true

end Sys2Proof.Machine
end

section
/-!
Vector instructions: what they answer at issue, in both modes.
-/

namespace Sys2Proof.Machine

variable {s : State} {h : Hart} {hs : HartState}

/-- An instruction that waits for one thing goes on where it has come. -/
theorem holdUp_single {w : Hold} {k : Issued} (hw : holdOver s h hs w = true) : holdUp s h hs [w] k = k := by simp [holdUp, hw]

/-! Results (R67, R147, R160). -/

/-- A vector result is given where the mode is long, or no lane traps and a special function finds room in its queue. -/
theorem giveVec_done {d : Fin 16} {v : W2048 × FpFlags} {mask : Word} {special : Bool}
    (hok : (hs.st.vl || (mask == 0 && (!special || decide (specialQueued s (ownCore h) < 16)))) = true) :
    giveVec h s hs d v.1 v.2 mask special = .done (vecResult d special s hs mask v).1 (vecResult d special s hs mask v).2 := by
  unfold giveVec vecResult
  cases hl : hs.st.vl with
  | true => rfl
  | false =>
    simp only [hl, Bool.false_or, Bool.and_eq_true, beq_iff_eq] at hok
    obtain ⟨rfl, hroom⟩ := hok
    cases special with
    | true => exact holdUp_single hroom
    | false => rfl

/-- A scalar result is given where the mode is long, or no lane traps. -/
theorem giveScalar_done {d : Dst} {n : Need} {subn : HartState → Word} {value : HartState → Word × FpFlags} {v : List Word}
    (hok : (hs.st.vl || subn hs == 0) = true) :
    giveScalar h s hs d (value hs).1 (value hs).2 (subn hs) =
      .done ((vecScalar d n subn value).effect h s hs v).1 ((vecScalar d n subn value).effect h s hs v).2 := by
  simp only [giveScalar, vecScalar]
  cases hl : hs.st.vl with
  | true => rfl
  | false =>
    have hmask : subn hs = 0 := by simpa [hl] using hok
    simp [hmask]

/-- An instruction that gives a vector result completes as a vector form. -/
theorem giveVec_completes {d : Fin 16} {n : Need} {special : Bool} {subn : HartState → Word}
    {value : HartState → List Word → W2048 × FpFlags} :
    CompletesAs (issue s 8 n fun h s hs v => giveVec h s hs d (value hs v).1 (value hs v).2 (subn hs) special) s
      (vecForm d n special subn value) := issue_completes fun _ _ hok => giveVec_done hok

/-- An instruction that gives a scalar result completes as a scalar form of a vector. -/
theorem giveScalar_completes {d : Dst} {n : Need} {subn : HartState → Word} {value : HartState → Word × FpFlags}
    {body : Hart → State → HartState → List Word → Issued}
    (hb : ∀ h s hs v, body h s hs v = giveScalar h s hs d (value hs).1 (value hs).2 (subn hs)) :
    CompletesAs (issue s 8 n body) s (vecScalar d n subn value) :=
  issue_completes fun _ _ hok => (hb ..).trans (giveScalar_done hok)

/-! Floating point, lanes and scalars. -/

theorem floatInstr_completes {d : Fin 16} {vs : List (Fin 16)} {f : FMod} {special rounded : Bool}
    {g : Rnd → List FVal → FVal × FpFlags} :
    CompletesAs (floatInstr d vs f.fmt f.rnd special g rounded s) s (floatForm s d vs f special rounded g) := giveVec_completes

/-- Settles O37: each is computed lane by lane, and gives a vector result. -/
theorem vectorFloat : Obligations.VectorFloat := by
  intro i s f hf
  show CompletesAs (exec i s) s f
  delta exec
  cases i with
  | vadd | vsub | vmul | vdiv | vsqrt | vfma | vfms | vfnma | vfnms | vexp2 | vlog2 | vrcp | vrsq | vtanh =>
    cases hf; exact floatInstr_completes
  | vmin | vmax | vabs | vneg => cases hf; exact floatInstr_completes (f := ⟨_, .rne⟩)
  | _ => cases hf

theorem lanes_complete {d : Fin 16} {n : Need} {f : Fmt} {lane : HartState → List Word → Nat → Nat} :
    CompletesAs (issue s 8 n fun h s hs v => giveVec h s hs d (lanesOf f.width (laneCount hs f) (lane hs v)) {} 0 false) s
      (plainLanes d n f lane) := giveVec_completes

theorem bitsInstr_completes {d a b : Fin 16} {f : Fmt} {g : Nat → Nat → Nat} :
    CompletesAs (bitsInstr d a b f g s) s (bitsLanes s d a b f g) := lanes_complete

theorem compareInstr_completes {d a b : Fin 16} {f : Fmt} {fg : FVal → FVal → Bool} {ig : Int → Int → Bool} :
    CompletesAs (compareInstr d a b f fg ig s) s (compareForm s d a b f fg ig) := giveVec_completes

theorem rngInstr_completes {d : Fin 16} {k c : Src} {f : Fmt} {g : Word → Word → Nat} :
    CompletesAs (rngInstr d k c f g s) s (rngForm s d k c f g) := lanes_complete

/-- VINS of a lane that the register has (R146, R151). -/
theorem vins_completes {d a : Fin 16} {b : Src} {l : BitVec 8} {f : Fmt} {k : Form} (hf : vecLaneForm s (.vins d a b l f) = some k) :
    CompletesAs (execVins d a b l f s) s k := by
  cases hf
  unfold execVins
  extract_lets n
  exact lanes_complete

/-- Settles O38: each gives its lanes one by one, without flags. -/
theorem vectorLanes : Obligations.VectorLanes := by
  intro i s f hf
  show CompletesAs (exec i s) s f
  delta exec
  cases i with
  | viadd | visub | vimul | vand | vor | vxor | vshl | vshr | vsar | viadds => cases hf; exact bitsInstr_completes
  | vcmpeq | vcmplt | vcmple => cases hf; exact compareInstr_completes
  | vsel | vperm | vbcast => cases hf; exact lanes_complete
  | vins => exact vins_completes hf
  | vrng | vrngf32 | vrngf64 => cases hf; exact rngInstr_completes
  | _ => cases hf

/-- VEXT of a lane that the register has (R146, R151). -/
theorem vext_completes {d : Dst} {a : Fin 16} {l : BitVec 8} {f : Fmt} {k : Form} (hf : vecScalarForm s (.vext d a l f) = some k) :
    CompletesAs (execVext d a l f s) s k := by
  cases hf
  unfold execVext
  extract_lets n
  exact giveScalar_completes fun _ _ _ _ => rfl

/-- VRSUM (R152): an integer sum has no flags and no subnormal lanes, a float sum has both (R67). -/
theorem vrsum_completes {d : Dst} {a : Fin 16} {f : FMod} {k : Form} (hf : vecScalarForm s (.vrsum d a f) = some k) :
    CompletesAs (execVrsum d a f s) s k := by
  cases hf
  refine giveScalar_completes fun h s hs v => ?_
  unfold subnLanes
  cases f.fmt.isInt <;> rfl

/-- VRMIN and VRMAX (R152), over integers or over floats. -/
theorem extremeInstr_completes {d : Dst} {a : Fin 16} {f : Fmt} {fg : FVal → FVal → FVal} {ig : Int → Int → Int} :
    CompletesAs (extremeInstr d a f fg ig s) s (extremeForm s d a f fg ig) := by
  refine giveScalar_completes fun h s hs v => ?_
  unfold subnLanes
  cases f.isInt <;> rfl

/-- Settles O39: a lane, a sum or an extreme is given as a scalar result. -/
theorem vectorScalars : Obligations.VectorScalars := by
  intro i s f hf
  show CompletesAs (exec i s) s f
  delta exec
  cases i with
  | vext => exact vext_completes hf
  | vrsum => exact vrsum_completes hf
  | vrmin | vrmax => cases hf; exact extremeInstr_completes
  | _ => cases hf

/-! Conversions, blocks and vector memory. -/

/-- VBENC (R156): subnormal lanes trap at issue in short mode, and are what the access finds in long mode (R67). -/
theorem vbenc_completes {b x : Src} {c : Fin 16} {o : BitVec 16} {r : Rnd} :
    CompletesAs (execVbenc b x c o r s) s (blockForm b x c o r) := by
  refine issue_completes fun hs v hok => ?_
  obtain ⟨hmode, hlocal⟩ := Bool.and_eq_true_iff.1 hok
  refine Eq.trans ?_ (issueMem_done _ _ _ _ hlocal)
  dsimp only
  generalize blockMask hs c (v.getD 1 0) = mask at hmode
  by_cases hmask : mask = 0
  · subst hmask
    rfl
  · have hlong : hs.st.vl = true := ((Bool.or_eq_true ..).mp hmode).resolve_right fun hz => hmask (eq_of_beq hz)
    simp only [hmask, hlong, ne_eq, not_false_eq_true, Bool.not_true, Bool.and_false, Bool.false_eq_true, if_false, if_true]

/-- Settles O40: conversions give vector results, and the others are accesses. -/
theorem vectorMemory : Obligations.VectorMemory := by
  intro i s f hf
  show CompletesAs (exec i s) s f
  delta exec
  cases i with
  | vcvt | vnarrow => cases hf; exact giveVec_completes
  | vbdec =>
    cases hf
    refine issue_completes fun hs v hok => ?_
    obtain ⟨hbooks, hlocal⟩ := Bool.and_eq_true_iff.1 hok
    exact (holdUp_single (w := .books) hbooks).trans (issueMem_done _ _ _ _ hlocal)
  | vbenc => cases hf; exact vbenc_completes
  | vld | vst | vgath | vscat => cases hf; exact issue_completes fun _ _ hok => issueMem_done _ _ _ _ hok
  | _ => cases hf

end Sys2Proof.Machine
end

section
/-!
A command on its way while a strand of its core writes TDIRTY (R188, R292).
-/

namespace Sys2Proof.Machine

/-- The state that an answer gives. -/
def answerState (r : Result) : State := match r with
  | .next t => t
  | _ => State.reset

/-- The boot strand has issued an MCMD, which has not reached its port. -/
def commanding : State := answerState (exec (.mcmd (.g 1) none (.g 2) (.g 2) (.g 2) 0 ⟨.rlx, .strand⟩) State.reset)

/-- The strand that commands. -/
def commander : HartState := (hartOf commanding (.strand 0 0)).getD bootHart

/-- The PC of the boot strand. -/
def bootPcOf (s : State) : Option Word := (hartOf s (.strand 0 0)).map (·.pc)

/-- A write of TDIRTY waits unissued behind a command of its core (R292). -/
theorem tdirtyWrite_waits_for_command : bootPcOf (answerState (exec (.tdirtyWrite (.g 2)) commanding)) = bootPcOf commanding := by decide

/-- Refutes O44: the form of MTS TDIRTY looks at the matrix queue of the core only. MTS TDIRTY comes after every matrix instruction issued
before it (R292), and so it also waits for a command that is still on its way to its port: its PC stays, where the form has it move on. -/
theorem not_systemRegisters : ¬ Obligations.SystemRegisters := by
  rintro ⟨h, -⟩
  have hcompletes := h (.tdirtyWrite (.g 2)) commanding _ rfl commander rfl (by decide) (by decide)
  have hmoves := tdirtyWrite_waits_for_command.symm.trans (congrArg (bootPcOf ∘ answerState) hcompletes)
  exact absurd hmoves (by decide)

end Sys2Proof.Machine
end

section
/-!
Matrix instructions: what they answer at issue, past the checks of R169 and what they wait for.
-/

namespace Sys2Proof.Machine

variable {s : State} {h : Hart} {hs : HartState} {tiles : List (Fin 8)} {bad c4 : CoreState → Bool} {i : Instr} {f : Form}

/-- An instruction that waits for several things goes on once all of them have come. -/
theorem holdUp_all {ws : List Hold} {k : Issued} (hw : ∀ w ∈ ws, holdOver s h hs w = true) : holdUp s h hs ws k = k := by
  have hnone : (ws.find? fun w => !holdOver s h hs w) = none := List.find?_eq_none.2 fun w hm => by simp [hw w hm]
  simp [holdUp, hnone]

@[simp] theorem holdUp_nil {k : Issued} : holdUp s h hs [] k = k := rfl

/-! The way into the queue (R169, R170, R182, R293). -/

/-- What holds of an instruction that may enter the queue, whether or not it goes ahead of frozen state. -/
theorem mxReady_queue {ahead : Bool} (hr : mxReady h s tiles bad c4 ahead = true) :
    bad (coreOf s (ownCore h)) = false ∧ holdOver s h hs .queue = true ∧
      ∀ w ∈ (if c4 (coreOf s (ownCore h)) then [Hold.books] else []), holdOver s h hs w = true := by
  simp only [mxReady, Bool.and_eq_true, Bool.not_eq_true'] at hr
  obtain ⟨⟨⟨-, hbad⟩, hroom⟩, hbooks⟩ := hr
  refine ⟨hbad, hroom, ?_⟩
  cases hc4 : c4 (coreOf s (ownCore h)) with
  | false => simp
  | true =>
    have hset : setPending s h = false := by simpa [hc4] using hbooks
    simp [holdOver, hset]

/-- What holds besides of one that does not go ahead: no restore of its tiles is queued, they pass the checks of R169, and its slot has no
frozen state. -/
theorem mxReady_tiles (hr : mxReady h s tiles bad c4 false = true) :
    holdOver s h hs (.restored tiles) = true ∧ tileCause (coreOf s (ownCore h)) (hartSlot h) tiles = none ∧ holdOver s h hs .thawed = true := by
  simp only [mxReady, Bool.false_or, Bool.and_eq_true, Option.isNone_iff_eq_none] at hr
  obtain ⟨⟨⟨⟨⟨hrestored, hcause⟩, hthawed⟩, -⟩, -⟩, -⟩ := hr
  exact ⟨hrestored, hcause, hthawed⟩

/-- A matrix instruction that may enter the queue of its core does. -/
theorem mxBody_ready {ahead : Bool} {k : Nat → CoreState → Issued} (hr : mxReady h s tiles bad c4 ahead = true) :
    mxBody h s tiles bad c4 ahead k = k (ownCore h) (coreOf s (ownCore h)) := by
  obtain ⟨hbad, hroom, hbooks⟩ := mxReady_queue (hs := issuer s) hr
  cases ahead with
  | true => simpa [mxBody, hbad] using holdUp_all (List.forall_mem_cons.2 ⟨hroom, hbooks⟩)
  | false =>
    obtain ⟨hrestored, hcause, hthawed⟩ := mxReady_tiles (hs := issuer s) hr
    simpa [mxBody, hbad, hcause, holdUp_single hrestored] using
      holdUp_all (List.forall_mem_cons.2 ⟨hthawed, List.forall_mem_cons.2 ⟨hroom, hbooks⟩⟩)

/-! Instructions without memory (R173, R174, R177 to R187). -/

/-- An instruction without an outstanding place enters the queue with what it fixes at issue. -/
theorem mxPlain_done {scale : Option (BitVec 32)} {op : MxOp} (hr : mxReady h s tiles bad c4 false = true) :
    mxPlain h s hs tiles bad c4 scale op =
      .done (enqueue s h hs (ownCore h) op none (snapOf (coreOf s (ownCore h)) hs tiles scale)) hs := mxBody_ready hr

theorem mxPlain_completes {n : Need} {bad : List Word → CoreState → Bool} {scale : HartState → Option (BitVec 32)}
    {op : HartState → List Word → MxOp} :
    CompletesAs (issue s 8 n fun h s hs v => mxPlain h s hs tiles (bad v) c4 (scale hs) (op hs v)) s (mxForm n tiles bad c4 scale op) :=
  issue_completes fun _ _ hok => mxPlain_done hok

/-- TSHAPE of a tile without a shape or of this slot: a zero word releases the tile, a legal one shapes it and enters the queue (R173). -/
theorem tshape_completes {n : Need} {size : Nat} {t : Fin 8} {w : List Word → Word} :
    CompletesAs (issue s size n fun h s hs v => tshapeBody h s hs t (w v)) s (shapeForm n size t w) := by
  refine issue_completes fun hs v hok => ?_
  simp only [shapeForm, Bool.and_eq_true] at hok
  obtain ⟨⟨⟨hrestored, howner⟩, hthawed⟩, hword⟩ := hok
  rw [Bool.not_eq_true'] at howner
  have hthaw : holdOver s s.cur hs .thawed = true := hthawed
  refine (holdUp_single (w := .restored [t]) hrestored).trans ?_
  by_cases hzero : w v = 0#64
  · simp [howner, hzero, shapeForm, holdUp_single hthaw]
  · obtain ⟨hlegal, hroom⟩ : shapeWordOk (w v) = true ∧ (coreOf s (ownCore s.cur)).queue.length < 16 := by simpa [hzero] using hword
    have hwaits : ∀ x ∈ [Hold.thawed, .queue], holdOver s s.cur hs x = true := by simpa [holdOver, hroom] using hthawed
    simp [howner, hzero, hlegal, shapeForm, holdUp_all hwaits]

theorem execTshape_completes {t : Fin 8} {w : ShapeOp} :
    CompletesAs (execTshape t w s) s (matrixForm.shapeOpForm s t w) := by
  cases w <;> exact tshape_completes

/-- A slice move to a register enters the queue and program order (R177). -/
theorem sliceRead_completes {col : Bool} {d : Fin 16} {t : Fin 8} {a : Src} {start : BitVec 8} {m : FMod} :
    CompletesAs (sliceRead col d t a start m s) s (sliceForm s col d t a start m) :=
  issue_completes fun _ _ hok => mxBody_ready hok

/-- MMAU waits for its strand's own stores to the bytes of its virtual A (R185). -/
theorem mmau_completes {d b : Fin 8} {a : Src} {scsel : BitVec 2} {scen : Bool} :
    CompletesAs (execMmau d a b scsel scen s) s (matrixForm.unfoldForm s d a b scsel scen) := by
  refine issue_completes fun hs v hok => ?_
  obtain ⟨hready, hstores⟩ := Bool.and_eq_true_iff.1 hok
  simp only [mxPlain_done hready]
  exact holdUp_single (w := .scratch _) hstores

/-- MUCODE of legal micro-operations (R186). -/
theorem mucode_completes {a : Src} (hf : matrixForm s (.mucode a) = some f) : CompletesAs (execMucode a s) s f := by
  cases hf
  refine issue_completes fun hs v hok => ?_
  obtain ⟨hlegal, hthawed⟩ := Bool.and_eq_true_iff.1 hok
  exact (if_pos hlegal).trans (holdUp_single (w := .thawed) hthawed)

/-- The instructions without memory complete as their forms say. -/
theorem matrix_complete (hf : matrixForm s i = some f) : CompletesAs (exec i s) s f := by
  delta exec
  cases i with
  | tshape => cases hf; exact execTshape_completes
  | tzero | mma | mmar | vtrow | vtcol => cases hf; exact mxPlain_completes
  | trowv | tcolv => cases hf; exact sliceRead_completes
  | mmau => cases hf; exact mmau_completes
  | mucode => exact mucode_completes hf
  | _ => cases hf

/-! Instructions with memory (R175, R176, R182, R188, R192, R193, R195). -/

/-- An instruction with memory enters the queue, and its access program order. -/
theorem mxMemory_completes {size : Nat} {n : Need} {ahead : Bool} {op : State → List Word → MxOp}
    {p : HartState → List Word → CoreState → Pending} :
    CompletesAs (issue s size n fun h s hs v => mxMemory h s hs tiles (fun _ => false) ahead (op s v) (p hs v)) s
      (mxMemForm size n tiles ahead op p) := by
  refine issue_completes fun hs v hok => ?_
  obtain ⟨hready, hlocal⟩ := Bool.and_eq_true_iff.1 hok
  exact (mxBody_ready hready).trans (issueMem_done _ _ _ _ hlocal)

/-- MCMD is an access that waits while its slot holds frozen state (R188, R293). -/
theorem mcmd_completes {n : Need} {size : Nat} {op : Hart → State → HartState → List Word → Pending} :
    CompletesAs (issue s size n fun h s hs v => holdUp s h hs [.thawed] (issueMem h s hs (op h s hs v))) s
      (matrixMemoryForm.commandForm size n op) := by
  refine issue_completes fun hs v hok => ?_
  obtain ⟨hthawed, hlocal⟩ := Bool.and_eq_true_iff.1 hok
  exact (holdUp_single (w := .thawed) hthawed).trans (issueMem_done _ _ _ _ hlocal)

/-- The instructions with memory complete as their forms say. -/
theorem matrixMemory_complete (hf : matrixMemoryForm s i = some f) : CompletesAs (exec i s) s f := by
  delta exec
  cases i with
  | tld | tldBlk | tst | cbload | msave | mrestore | tsave | trst => cases hf; exact mxMemory_completes
  | mcmd => cases hf; exact mcmd_completes
  | _ => cases hf

/-- Settles O42: each matrix instruction enters the queue of its core, alters its tile or its strand's micro-operations at issue, or is an
access to another core. -/
theorem matrixInstructions : Obligations.MatrixInstructions := fun _ _ _ hf => hf.elim matrix_complete matrixMemory_complete

end Sys2Proof.Machine
end

section
/-!
Launches, bulk copies, queues and named barriers: what they answer at issue.
-/

namespace Sys2Proof.Machine

variable {s : State} {i : Instr} {f : Form}

/-- SPAWN takes a join record for its strand, unless it has one (R214, R279). -/
theorem spawn_completes {size : Nat} {d : Dst} {e a : Src} {target : Hart → HartState → Option Nat} :
    CompletesAs (spawnInstr size d e a target s) s (spawnForm size d e a target) := by
  refine issue_completes fun hs v hok => ?_
  cases hown : hs.joinOwn with
  | some r => simp [spawnForm, hown]
  | none =>
    obtain ⟨r, hfree⟩ : ∃ r, freeJoin s (hartDie s.cur) = some r := by simpa [spawnForm, hown, Option.isSome_iff_exists] using hok
    simp [spawnForm, hown, hfree]

/-- SPAWN into its own cluster, or to a core that it names (R214). -/
theorem execSpawn_completes {d : Dst} {e a : Src} {c : Option Coord} :
    CompletesAs (execSpawn d e a c s) s (spawnForm (if c.isSome then 16 else 8) d e a fun h hs => c.map (coordCore h hs)) := by
  cases c with
  | none => exact spawn_completes (size := 8) (target := fun _ _ => none)
  | some c => exact spawn_completes (size := 16) (target := fun h hs => some (coordCore h hs c))

/-- GLAUNCH is an access to its completion word and its descriptor (R213). -/
theorem glaunch_completes {d : Dst} {a : Src} {done : BitVec 64} (hf : launchForm (.glaunch d a done) = some f) :
    CompletesAs (execGlaunch d a done s) s f := by
  cases hf
  refine issue_completes fun hs v hok => ?_
  exact issueMem_done _ _ _ (launchForm.gridOp hs d done (v.getD 0 0)) hok

/-- A bulk copy of no byte is a store of none; any other is an operation of its engine (R209). -/
theorem bcopy_completes {a b c : Src} {bar : Option (BitVec 64)} {m : MemMod} :
    CompletesAs (execBcopy a b c bar m s) s (copyForm a b c bar m) := by
  refine issue_completes fun hs v hok => ?_
  by_cases hlen : v.getD 2 0 = 0
  · have hlocal : (!secondRemote s hs (addMem s s.cur hs
        { memOp hs .storeNone .none m [⟨v.getD 0 0, 1, .write, none⟩] with store := true }).2) = true := by
      simpa only [copyForm, hlen, bne_self_eq_false, Bool.false_or] using hok
    simp only [copyForm, hlen, if_true]
    exact issueMem_done _ _ _ _ hlocal
  · simp only [copyForm, hlen, if_false]

/-- A broadcast whose places and cores pass the checks of R210 is an operation of its engine. -/
theorem bcast_completes {a b c : Src} {mask : BitVec 64} {quad die : BitVec 2} :
    CompletesAs (execBcast a b c mask quad die s) s (castForm a b c mask quad die) := by
  refine issue_completes fun hs v hok => ?_
  simp only [castForm, Bool.and_eq_true, decide_eq_true_eq, bne_iff_ne, beq_iff_eq, List.all_eq_true] at hok
  obtain ⟨⟨⟨⟨hfits, hmask⟩, hcores⟩, hlow⟩, hhigh⟩ := hok
  refine if_neg ?_
  have hbad : (castCores s.cur mask quad die).any (fun k => !coreUsable s k) = false := by simpa using hcores
  simp only [Nat.not_lt.2 hfits, beq_false_of_ne hmask, hbad, hlow, hhigh, bne_self_eq_false]
  decide

/-- QBIND of a legal binding binds its port (R216). -/
theorem qbind_completes {p : Fin 4} {a : Src} (hf : launchForm (.qbind p a) = some f) : CompletesAs (execQbind p a s) s f := by
  cases hf
  exact issue_completes fun _ _ hok => if_pos hok

/-- QSND.NB through an output port pushes where the port shows go, and else stops it (R217). -/
theorem qsndNb_completes {d : Dst} {p : Fin 4} {b : Src} {m : MemMod} : CompletesAs (execQsndNb d p b m s) s (sendForm d p b) := by
  refine issue_completes fun hs v hok => ?_
  obtain ⟨hbound, hout⟩ := Bool.and_eq_true_iff.1 hok
  by_cases hgo : canPush s s.cur hs p = true <;> simp [sendForm, hbound, hout, hgo]

/-- NBINIT of 1 to 64 strands sets up a barrier of its cluster at which nobody has arrived or waits (R219). -/
theorem nbinit_completes {a b : Src} {n : Fin 48} (hf : launchForm (.nbinit a b n) = some f) : CompletesAs (execNbinit a b n s) s f := by
  cases hf
  refine issue_completes fun hs v hok => ?_
  obtain ⟨hcount, hidle⟩ := Bool.and_eq_true_iff.1 hok
  obtain ⟨hlow, hhigh⟩ := of_decide_eq_true hcount
  cases hcore : nbCore s.cur hs (v.getD 0 0) with
  | none => rw [hcore] at hidle; cases hidle
  | some c =>
    rw [hcore] at hidle
    obtain ⟨harr, hwaiters⟩ : (nbarOf (coreOf s c) n.val).arr = 0 ∧ nbWaiters s c n.val = false := by simpa using hidle
    simp only [hcore, Nat.not_lt.2 hlow, Nat.not_lt.2 hhigh, harr, hwaiters]
    rfl

section

variable {h : Hart} {hs : HartState} {v : List Word} {d : Dst} {srcs : List Src} {init : Bool} {n : Fin 48}
  {op : HartState → Nat → List Word → HartState × Op}

/-- What may go on names a core of its cluster, whose barrier is initialised where it must be. -/
theorem namedForm_ok (hok : (namedForm d srcs init n op).ok h s hs v = true) :
    ∃ c, nbCore h hs (v.getD 0 0) = some c ∧ (!init || (nbarOf (coreOf s c) n.val).init) = true := by
  unfold namedForm at hok
  cases hcore : nbCore h hs (v.getD 0 0) with
  | none => simp only [hcore] at hok; cases hok
  | some c => simp only [hcore] at hok; exact ⟨c, rfl, hok⟩

/-- Its operation enters program order. -/
theorem namedForm_effect {c : Nat} (hcore : nbCore h hs (v.getD 0 0) = some c) :
    (namedForm d srcs init n op).effect h s hs v = (s, addOp (op hs c v).1 (nbOp hs (op hs c v).2 d)) := by
  simp only [namedForm, hcore]

end

/-- NBARR arrives at an initialised barrier of its cluster (R219). -/
theorem nbarr_completes {d : Dst} {a : Src} {n : Fin 48} (hf : launchForm (.nbarr d a n) = some f) : CompletesAs (execNbarr d a n s) s f := by
  cases hf
  refine issue_completes fun hs v hok => ?_
  obtain ⟨c, hcore, hinit⟩ := namedForm_ok hok
  have hset : (!(nbarOf (coreOf s c) n.val).init) = false := by simpa using hinit
  simp only [namedForm_effect hcore, hcore, hset]
  rfl

/-- NBWAIT waits at a barrier of its cluster (R219). -/
theorem nbwait_completes {d : Dst} {a b : Src} {n : Fin 48} (hf : launchForm (.nbwait d a b n) = some f) :
    CompletesAs (execNbwait d a b n s) s f := by
  cases hf
  refine issue_completes fun hs v hok => ?_
  obtain ⟨c, hcore, -⟩ := namedForm_ok hok
  simp only [namedForm_effect hcore, hcore]

/-- Settles O43, instruction by instruction. -/
theorem launchQueuesAndBarriers : Obligations.LaunchQueuesAndBarriers := by
  intro i s f hf
  show CompletesAs (exec i s) s f
  delta exec
  cases i with
  | kick => cases hf; exact issue_completes fun _ _ _ => rfl
  | tpost => cases hf; exact issue_completes fun _ _ hok => issueMem_done _ _ _ _ hok
  | glaunch => exact glaunch_completes hf
  | spawn => cases hf; exact execSpawn_completes
  | bcopy => cases hf; exact bcopy_completes
  | bcast => cases hf; exact bcast_completes
  | qbind => exact qbind_completes hf
  | qsndNb => cases hf; exact qsndNb_completes
  | qstat => cases hf; exact issue_completes fun _ _ _ => rfl
  | nbinit => exact nbinit_completes hf
  | nbarr => exact nbarr_completes hf
  | nbwait => exact nbwait_completes hf
  | _ => cases hf

end Sys2Proof.Machine
end

section
/-!
The first instruction not issued, beyond what an issue notes in its core's barrel (R31, R34, R202).
-/

namespace Sys2Proof.Machine

variable {s t : State}

/-- Two states in which every hart is given the same code at every address. -/
structure SameCode (s t : State) : Prop where
  place : ∀ (h : Hart) (ptbr : Ptbr) (priv : BitVec 2) (va : Word), translate t h ptbr priv va .exec = translate s h ptbr priv va .exec
  block : ∀ (h : Hart) (req : Req) (pa : Nat), (codeAt t h req pa).bits = (codeAt s h req pa).bits

/-- The first instruction at an address depends on the code alone. -/
theorem SameCode.skipPads (hst : SameCode s t) (h : Hart) (hs : HartState) (n : Nat) (pc : Word) :
    Machine.skipPads t h hs n pc = Machine.skipPads s h hs n pc := by
  induction n generalizing pc with
  | zero => rfl
  | succ n ih =>
    simp only [Machine.skipPads, hst.place]
    split
    · rfl
    · split
      · rfl
      · next p _ =>
        have hbits := hst.block h (.fetch h) (p.pa / 32 * 32)
        generalize codeAt t h (.fetch h) (p.pa / 32 * 32) = given at hbits ⊢
        generalize codeAt s h (.fetch h) (p.pa / 32 * 32) = before at hbits ⊢
        cases given <;> cases before <;> cases hbits
        case block.block.refl => simp only [ih]
        all_goals rfl

theorem SameCode.nextPc (hst : SameCode s t) (h : Hart) (hs : HartState) : Machine.nextPc t h hs = Machine.nextPc s h hs := by
  simp only [Machine.nextPc, hst.skipPads]

/-! The barrel. -/

/-- An issue is noted in its core's barrel alone. -/
theorem coreOf_noteIssue (s : State) (h : Hart) (c : Nat) :
    ∃ last recent yields, coreOf (noteIssue s h) c = { coreOf s c with lastSlot := last, recent := recent, yields := yields } := by
  cases h with
  | engine e => exact ⟨_, _, _, rfl⟩
  | strand d n =>
    by_cases hc : c = d
    · subst hc
      exact ⟨_, _, _, coreOf_setCore ..⟩
    · exact ⟨_, _, _, coreOf_noteIssue_other _ _ _ _ hc⟩

@[simp] theorem coreOf_noteIssue_tlb (s : State) (h : Hart) (c : Nat) : (coreOf (noteIssue s h) c).tlb = (coreOf s c).tlb := by
  obtain ⟨_, _, _, e⟩ := coreOf_noteIssue s h c
  rw [e]

@[simp] theorem coreOf_noteIssue_icache (s : State) (h : Hart) (c : Nat) : (coreOf (noteIssue s h) c).icache = (coreOf s c).icache := by
  obtain ⟨_, _, _, e⟩ := coreOf_noteIssue s h c
  rw [e]

@[simp] theorem coreOf_noteIssue_usable (s : State) (h : Hart) (c : Nat) : (coreOf (noteIssue s h) c).usable = (coreOf s c).usable := by
  obtain ⟨_, _, _, e⟩ := coreOf_noteIssue s h c
  rw [e]

theorem lookup_noteIssue (s : State) (h k : Hart) (ptbr : Ptbr) (priv : BitVec 2) (va : Word) (r : Right) :
    lookup (noteIssue s h) k ptbr priv va r = lookup s k ptbr priv va r := by
  simp only [lookup, coreOf_noteIssue_tlb]
  cases h <;> rfl

theorem translate_noteIssue (s : State) (h k : Hart) (ptbr : Ptbr) (priv : BitVec 2) (va : Word) (r : Right) :
    translate (noteIssue s h) k ptbr priv va r = translate s k ptbr priv va r := by
  simp only [translate, lookup_noteIssue]
  cases h <;> rfl

theorem readBlock_noteIssue (s : State) (h k : Hart) (pa : Nat) : (readBlock (noteIssue s h) k pa).1 = (readBlock s k pa).1 := by
  have hmem : memBlock (noteIssue s h) pa = memBlock s pa := by simp only [memBlock, noteIssue_mem]
  have hfree : (noteIssue s h).free = s.free := by cases h <;> rfl
  simp only [readBlock, hmem, hfree, coreOf_noteIssue_icache]
  split
  · rfl
  · split
    · rfl
    · split
      · rfl
      · split <;> rfl

theorem fetchable_noteIssue (s : State) (h : Hart) (m pa : Nat) : fetchable (noteIssue s h) m pa = fetchable s m pa := by
  simp only [fetchable, coreUsable, coreOf_noteIssue_usable]
  cases h <;> rfl

theorem codeAt_noteIssue (s : State) (h k : Hart) (req : Req) (pa : Nat) :
    (codeAt (noteIssue s h) k req pa).bits = (codeAt s k req pa).bits := by
  have hpoison : poisoned (noteIssue s h) pa 32 = poisoned s pa 32 := by cases h <;> rfl
  have hunits : hostUnits (noteIssue s h) .read (unitsOf (noteIssue s h) pa 32 1) = hostUnits s .read (unitsOf s pa 32 1) := by cases h <;> rfl
  have hblock := congrArg some (readBlock_noteIssue s h k pa)
  simp only [codeAt, fetchable_noteIssue, hpoison, hunits]
  split
  · rfl
  · split
    · exact hblock
    · split
      · exact hblock
      · rfl

/-- An issue leaves all code as it is. -/
theorem sameCode_noteIssue (s : State) (h : Hart) : SameCode s (noteIssue s h) := ⟨fun _ _ _ _ => translate_noteIssue .., codeAt_noteIssue s h⟩

/-- Where issue goes on depends on the hart's translation, level and PC, and on whether it replays. -/
theorem nextPc_run {r : RunState} {hs : HartState} (s : State) (h : Hart) (hr : r.replay.todo = hs.run.replay.todo) :
    nextPc s h { hs with run := r } = nextPc s h hs := by
  simp only [nextPc, hr, skipPads_run]

end Sys2Proof.Machine
end

section
/-!
Traps that are raised behind their instruction, in a handler, and asynchronously.
-/

namespace Sys2Proof.Machine

variable {s : State} {h : Hart} {hs : HartState} {c : Cause} {v : Word}

/-! TRAP and ECALL (R199, R202). -/

/-- The hart that has issued the instruction whose trap is due. -/
def withDueIssued (hs : HartState) (c : Cause) (v : Word) : HartState :=
  { countIssue hs with run := { (countIssue hs).run with due := some (c, v, true), park := .ready } }

/-- The trap of an instruction that counts as issued is entered where it is due. -/
theorem raiseIssue_issued_eq_enterTrap (s : State) (h : Hart) (hs : HartState) (c : Cause) (v : Word) :
    raiseIssue s h hs c v true = enterTrap (trapRaised s h hs c v true) h := rfl

theorem hartOf_trapRaised_issued (s : State) (h : Hart) (hs : HartState) (c : Cause) (v : Word) :
    hartOf (trapRaised s h hs c v true) h = some (withDueIssued hs c v) := (hartOf_noteIssue ..).trans (hartOf_setHart ..)

theorem hartOf_trapRaised_issued_other {k : Hart} (hk : k ≠ h) : hartOf (trapRaised s h hs c v true) k = hartOf s k :=
  (hartOf_noteIssue ..).trans (hartOf_setHart_other _ _ _ _ hk)

/-- A trap that is due to an instruction that counts as issued resumes behind it (R202). -/
theorem enterTrap_due_issued (hh : hartOf s h = some hs) (he : isEngine h = false) (hr : hs.run.halted = false) (hc : clean hs = true)
    (hf : oldestFault hs = none) (hd : hs.run.due = some (c, v, true)) :
    enterTrap s h = setHart (withdraw s hs.id.uid) h (recordTrap hs c v (nextPc s h (pastTrap hs)) false) := by
  simp [enterTrap, hh, he, hr, hc, hf, hd]

/-- Counting an issue does not move the strand. -/
theorem pastTrap_withDueIssued (hs : HartState) (c : Cause) (v : Word) :
    pastTrap (withDueIssued hs c v) = { pastTrap hs with run := (withDueIssued hs c v).run } := by
  by_cases htodo : hs.run.replay.todo = [] <;> simp [pastTrap, withDueIssued, countIssue, htodo]

theorem pastTrap_run (hs : HartState) : (pastTrap hs).run = hs.run := by
  unfold pastTrap
  split <;> rfl

theorem nextPc_trapRaised (s : State) (h : Hart) (hs : HartState) (c : Cause) (v : Word) :
    nextPc (trapRaised s h hs c v true) h (pastTrap (withDueIssued hs c v)) = nextPc s h (pastTrap hs) := by
  rw [pastTrap_withDueIssued, nextPc_run _ _ (by rw [pastTrap_run]; rfl)]
  exact ((sameCode_noteIssue ..).nextPc ..).trans (nextPc_setHart ..)

/-- An instruction that counts as issued, and whose strand may trap, enters the handler and resumes behind itself. -/
theorem raiseIssue_issued_inHandler (he : isEngine h = false) (hm : mayTrap hs) :
    ∃ hs' : HartState, hartOf (raiseIssue s h hs c v true) h = some hs' ∧
      inHandler hs hs' ((0 : BitVec 1) ++ c.code) v (nextPc s h (pastTrap hs)) ∧ otherHarts s (raiseIssue s h hs c v true) h := by
  obtain ⟨hr, ht, hc, hf⟩ := hm
  have e : raiseIssue s h hs c v true = setHart (withdraw (trapRaised s h hs c v true) hs.id.uid) h
      (recordTrap (withDueIssued hs c v) c v (nextPc s h (pastTrap hs)) false) := by
    rw [raiseIssue_issued_eq_enterTrap, enterTrap_due_issued (hartOf_trapRaised_issued ..) he hr hc hf rfl, nextPc_trapRaised]
    rfl
  rw [e]
  refine ⟨_, hartOf_setHart .., inHandler_recordTrap (hs := withDueIssued hs c v) hr ht _, fun k hk => ?_⟩
  rw [hartOf_setHart_other _ _ _ _ hk, hartOf_withdraw, hartOf_trapRaised_issued_other hk]

theorem exec_trap_go {code : BitVec 16} (hh : hartOf s s.cur = some hs) (hr : ready s s.cur hs {} = .go) :
    exec (.trap code) s = .next (raiseIssue s s.cur hs .swtrap (code.zeroExtend 64) true) := by
  rw [exec_trap]
  exact issue_body_trapIssued hh hr rfl

theorem exec_ecall_go {code : BitVec 16} (hh : hartOf s s.cur = some hs) (hr : ready s s.cur hs {} = .go) :
    exec (.ecall code) s = .next (raiseIssue s s.cur hs .ecall (code.zeroExtend 64) true) := by
  rw [exec_ecall]
  exact issue_body_trapIssued hh hr rfl

/-- An instruction that answers with such a trap takes its strand into the handler. -/
theorem trapIssued_enters {i : Instr} (hx : exec i s = .next (raiseIssue s s.cur hs c v true)) (he : isEngine s.cur = false) (hm : mayTrap hs) :
    ∃ (t : State) (hs' : HartState), exec i s = .next t ∧ hartOf t s.cur = some hs' ∧
      inHandler hs hs' ((0 : BitVec 1) ++ c.code) v (nextPc s s.cur (pastTrap hs)) ∧ sameMemory s t ∧ otherHarts s t s.cur := by
  obtain ⟨hs', hcur, hin, hothers⟩ := raiseIssue_issued_inHandler (s := s) (c := c) (v := v) he hm
  exact ⟨_, hs', hx, hcur, hin, sameMemory_of_mem_eq (raiseIssue_mem ..), hothers⟩

/-- An engine, and a strand with results outstanding, have the trap due (R34, R208). -/
theorem raiseIssue_issued_stays (hn : isEngine h = true ∨ clean hs = false) : raiseIssue s h hs c v true = trapRaised s h hs c v true :=
  (raiseIssue_issued_eq_enterTrap ..).trans (enterTrap_stays (hartOf_trapRaised_issued ..) hn)

/-- Settles O45: both raise a cause that counts as issued, which the strand enters, or has due. -/
theorem trapAndEcall : Obligations.TrapAndEcall := by
  intro s hs code hh hr
  have htrap := exec_trap_go (code := code) hh hr
  have hecall := exec_ecall_go (code := code) hh hr
  have stays (hn : isEngine s.cur = true ∨ clean hs = false) :
      exec (.trap code) s = .next (trapRaised s s.cur hs .swtrap (code.zeroExtend 64) true) ∧
      exec (.ecall code) s = .next (trapRaised s s.cur hs .ecall (code.zeroExtend 64) true) :=
    ⟨htrap.trans (congrArg _ (raiseIssue_issued_stays hn)), hecall.trans (congrArg _ (raiseIssue_issued_stays hn))⟩
  exact ⟨fun he hm => ⟨trapIssued_enters htrap he hm, trapIssued_enters hecall he hm⟩, fun _ hn => stays (.inr hn), fun hn => stays (.inl hn)⟩

/-! A trap in a handler (R200). -/

/-- Settles O49: the trap that is due finds TIP = 1, and the recording halts the strand. -/
theorem doubleTrapHalts : Obligations.DoubleTrapHalts := by
  intro s c n hs cause v hh hr ht hc hf
  have hd : hartOf (setHart s (.strand c n) (withDue hs cause v)) (.strand c n) = some (withDue hs cause v) := hartOf_setHart ..
  have hrecord (tres : Word) : recordTrap (withDue hs cause v) cause v tres false = doubleTrap (withDue hs cause v) := if_pos ht
  have e : raiseIssue s (.strand c n) hs cause v false =
      setHart (withdraw (setHart s (.strand c n) (withDue hs cause v)) hs.id.uid) (.strand c n) (doubleTrap (withDue hs cause v)) := by
    rw [raiseIssue_eq_enterTrap, enterTrap_due hd rfl hr hc hf rfl, hrecord]
    rfl
  refine ⟨doubleTrap (withDue hs cause v), ?_, rfl, rfl, rfl, rfl, rfl, rfl, sameMemory_of_mem_eq (raiseIssue_mem ..), fun k hk => ?_⟩
  · rw [e, hartOf_setHart]
  · rw [e, hartOf_setHart_other _ _ _ _ hk, hartOf_withdraw, hartOf_setHart_other _ _ _ _ hk]

/-! Asynchronous causes (R204). -/

/-- Of the causes that are pending, one of no higher code than any other is the lowest. -/
theorem lowestAsync_least {l : List (Cause × Word)} (hl : l ≠ []) :
    ∃ x, lowestAsync l = some x ∧ x ∈ l ∧ ∀ y ∈ l, x.1.code.toNat ≤ y.1.code.toNat := by
  induction l with
  | nil => exact absurd rfl hl
  | cons a rest ih =>
    cases rest with
    | nil => exact ⟨a, rfl, List.mem_cons_self, by simp⟩
    | cons b rest =>
      obtain ⟨x, hx, hmem, hle⟩ := ih (List.cons_ne_nil _ _)
      rw [lowestAsync, hx]
      by_cases hax : a.1.code.toNat ≤ x.1.code.toNat
      · exact ⟨a, if_pos hax, List.mem_cons_self, List.forall_mem_cons.2 ⟨le_rfl, fun y hy => hax.trans (hle y hy)⟩⟩
      · exact ⟨x, if_neg hax, List.mem_cons_of_mem _ hmem, List.forall_mem_cons.2 ⟨(Nat.lt_of_not_le hax).le, hle⟩⟩

/-- The hart whose asynchronous cause is pending no longer. -/
def withoutAsync (hs : HartState) (x : Cause × Word) : HartState := { hs with run := { hs.run with async := hs.run.async.erase x } }

/-- What a hart that is ready for an asynchronous cause shows: one is pending, and it is neither halted nor in a handler. -/
theorem asyncReady_pending (ha : asyncReady hs = true) : hs.run.async ≠ [] ∧ hs.run.halted = false ∧ hs.st.tip = false := by
  simp only [asyncReady, asyncPending, Bool.and_eq_true, Bool.not_eq_true', List.isEmpty_eq_false_iff] at ha
  obtain ⟨⟨⟨⟨⟨htip, hrun⟩, -⟩, hasync⟩, -⟩, -⟩ := ha
  exact ⟨hasync, hrun, htip⟩

/-- The lowest cause is entered. -/
theorem enterAsync_lowest {x : Cause × Word} (hh : hartOf s h = some hs) (he : isEngine h = false) (ha : asyncReady hs = true)
    (hx : lowestAsync hs.run.async = some x) :
    enterAsync s h = setHart (withdraw s hs.id.uid) h (recordTrap (withoutAsync hs x) x.1 x.2 (nextPc s h hs) true) := by
  have hpc : nextPc s h (withoutAsync hs x) = nextPc s h hs := nextPc_run s h rfl
  rw [← hpc]
  simp [enterAsync, hh, he, ha, hx, withoutAsync]

/-- The recording of an asynchronous cause sets TCAUSE.ASYNC (R199, R204). -/
theorem inHandler_recordTrap_async (hr : hs.run.halted = false) (ht : hs.st.tip = false) (tres : Word) :
    inHandler hs (recordTrap hs c v tres true) ((1 : BitVec 1) ++ c.code) v tres := by
  simp only [recordTrap, ht, Bool.false_eq_true, if_false]
  exact ⟨rfl, rfl, rfl, rfl, rfl, rfl, rfl, rfl, rfl, rfl, rfl, rfl, hr, rfl⟩

/-- The causes that stay pending are kept through the recording. -/
theorem recordTrap_async (hs : HartState) (c : Cause) (v tres : Word) (async : Bool) :
    (recordTrap hs c v tres async).run.async = hs.run.async := by
  unfold recordTrap
  split <;> rfl

/-- Settles O50: the lowest cause is pending no longer, and is entered. -/
theorem asyncTaken : Obligations.AsyncTaken := by
  intro s c n hs hh ha
  obtain ⟨hasync, hr, ht⟩ := asyncReady_pending ha
  obtain ⟨x, hx, hmem, hle⟩ := lowestAsync_least hasync
  have e : exec (.asyncCauseTaken (.strand c n)) s = .next _ := congrArg Host.Outcome.next (enterAsync_lowest hh rfl ha hx)
  refine ⟨_, _, x, e, hartOf_setHart .., hmem, hle, recordTrap_async .., inHandler_recordTrap_async (hs := withoutAsync hs x) hr ht _,
    fun _ => rfl, fun k hk => ?_⟩
  rw [hartOf_setHart_other _ _ _ _ hk, hartOf_withdraw]

end Sys2Proof.Machine
end

section
/-!
RETIRE: what it waits for, and what its strand gives back (R215).
-/

namespace Sys2Proof.Machine

variable {s : State} {h : Hart} {hs : HartState}

/-- Nothing is outstanding, every store on its way waits at a port, and no entry of a queue is on its way (R215, R217, R218). -/
theorem finished_iff : finished s hs = true ↔
    drained hs = true ∧ (∀ a ∈ ownStores s hs.id.uid, a.atPort = true) ∧ ∀ m ∈ s.pushes, m.src ≠ hs.id.uid := by
  simp [finished, and_assoc]

/-- A strand that has ended has no slot. -/
theorem hartOf_leaveSlot (s : State) (h : Hart) (uid : Nat) : hartOf (leaveSlot s h uid) h = none := hartOf_dropHart ..

/-- A strand that retires and waits. -/
def retireWaits (hs : HartState) (p : Park) : HartState := { hs with run := { hs.run with retiring := true, park := p, need := none } }

/-- A wait for anything but a port leaves what is known of its waits at ports. -/
theorem parked_retiring {p : Park} (hp : p.isQueue = false) :
    parked s h { hs with run := { hs.run with retiring := true } } p none = setHart s h (retireWaits hs p) := by
  simp [parked, waitFor, retireWaits, hp]

section

variable (hh : hartOf s s.cur = some hs) (hr : ready s s.cur hs {} = .go)
include hh hr

theorem exec_retire_unfinished (hf : finished s hs = false) : exec .retire s = .next (setHart s s.cur (retireWaits hs (.blocked .finished))) := by
  rw [exec_retire, ← parked_retiring rfl]
  exact issue_final hh hr (if_pos (by rw [readSrcs, hf]; rfl))

theorem exec_retire_children (hf : finished s hs = true) (hj : hs.st.jcnt ≠ 0) :
    exec .retire s = .next (setHart s s.cur (retireWaits hs .children)) := by
  rw [exec_retire, ← parked_retiring rfl]
  exact issue_final hh hr ((if_neg (by rw [readSrcs, hf]; decide)).trans (if_pos hj))

theorem exec_retire_ends (hf : finished s hs = true) (hj : hs.st.jcnt = 0) :
    exec .retire s = .next (endHart (noteIssue s s.cur) s.cur hs) := by
  rw [exec_retire]
  exact issue_final hh hr ((if_neg (by rw [readSrcs, hf]; decide)).trans (if_neg (not_not.2 hj)))

end

/-- Settles O47: RETIRE waits until its strand has finished, then for its children, and then ends it. -/
theorem retireEnds : Obligations.RetireEnds := fun _ _ hh hr =>
  ⟨fun hd hstores hpushes hj => exec_retire_ends hh hr (finished_iff.2 ⟨hd, hstores, hpushes⟩) hj, hartOf_leaveSlot ..,
    exec_retire_unfinished hh hr, exec_retire_children hh hr⟩

end Sys2Proof.Machine
end

section
/-!
Heat, power, errors and resets: each row of the table is what its event does.
-/

namespace Sys2Proof.Machine

variable {s t : State} {m c die stack ch mw : Nat}

/-! Heat and power (R281, R282, R363). -/

theorem thermalStep_event {temp : Nat} (e : moduleEvents s (.thermalStep c temp) = some t) : exec (.thermalStep c temp) s = .next t := by
  dsimp only [moduleEvents] at e
  rw [exec_thermalStep, execThermalStep]
  split at e
  · next hot => exact (if_pos hot).trans (congrArg _ (Option.some.inj e))
  next hot =>
  refine (if_neg hot).trans ?_
  split at e
  · next cool => exact (if_pos cool).trans (congrArg _ (Option.some.inj e))
  · next cool => exact (if_neg cool).trans (congrArg _ (Option.some.inj e))

theorem powerCapStep_event (e : moduleEvents s (.powerCapStep m mw) = some t) : exec (.powerCapStep m mw) s = .next t := by
  dsimp only [moduleEvents] at e
  rw [exec_powerCapStep, execPowerCapStep]
  split at e
  · next above => exact (if_pos above).trans (congrArg _ (Option.some.inj e))
  · next above =>
    obtain ⟨below, rfl⟩ := due_eq_some.1 e
    exact (if_neg above).trans (if_pos (of_decide_eq_true below))

theorem powerCapSetting_event (e : moduleEvents s (.powerCapSetting m mw) = some t) : exec (.powerCapSetting m mw) s = .next t := by
  obtain ⟨hrange, rfl⟩ := due_eq_some.1 e
  exact if_pos hrange

/-! Spares (R357). -/

/-- A channel of a stack whose spare is free moves to it. -/
theorem spareChannel_first (hspare : assocGet (moduleOf s m).spared stack = none) :
    spareChannel s m (stack, ch) = setModule s m { moduleOf s m with spared := (moduleOf s m).spared ++ [(stack, ch)] } := by
  simp only [spareChannel, hspare]

/-- Any other channel of a stack whose spare is taken is reported, once. -/
theorem spareChannel_second (hspare : assocGet (moduleOf s m).spared stack = some c)
    (hnew : (c != ch && !(moduleOf s m).reported.contains (stack, ch)) = true) :
    spareChannel s m (stack, ch) = setModule s m { moduleOf s m with reported := (moduleOf s m).reported ++ [(stack, ch)] } := by
  obtain ⟨hne, hfresh⟩ := Bool.and_eq_true_iff.1 hnew
  simp only [spareChannel, hspare]
  exact if_neg (by simpa using And.intro (bne_iff_ne.1 hne) hfresh)

theorem channelSparing_event (e : moduleEvents s (.channelSparing m stack ch) = some t) : exec (.channelSparing m stack ch) s = .next t := by
  dsimp only [moduleEvents] at e
  split at e
  · next hfails =>
    refine (if_pos hfails).trans (congrArg Host.Outcome.next ?_)
    split at e
    · next hspare => exact (spareChannel_first hspare).trans (Option.some.inj e)
    · next hspare =>
      obtain ⟨hnew, rfl⟩ := due_eq_some.1 e
      exact spareChannel_second hspare hnew
  · cases e

/-! Errors and resets (R356, R358, R359). -/

/-- A warm reset goes on by one step while its module has not stopped. -/
theorem execWarmReset_due (e : due (!(moduleOf s m).stopped) (warmStep s m (4 * m + die)) = some t) : execWarmReset m die s = .next t := by
  obtain ⟨hruns, rfl⟩ := due_eq_some.1 e
  exact if_neg (by simpa using hruns)

theorem uncorrectableError_event {site : ErrorSite} (e : moduleEvents s (.uncorrectableError site) = some t) :
    exec (.uncorrectableError site) s = .next t := by
  cases site with
  | data | register => exact congrArg Host.Outcome.next (Option.some.inj e)
  | core | control | welt => exact execWarmReset_due e

/-! Firmware and bring-up (R362, R364, R365). -/

/-- A module whose images are verified, once its dies, channels and ports have been tested (R364). -/
def tested (s : State) (m : Nat) : State :=
  let reset := { coldReset s m with free := s.free + 1 }
  let images := Config.firmwareImages s.free
  let known := setModule reset m { moduleOf reset m with digests := images.map fun x => sha256 x.bytes, secver := lowestVersion images }
  trainPorts (testChannels (testDies known m) m) m

/-- A bring-up and its row go by the same two questions: whether the images are verified, and which die in service is the lowest. -/
theorem bringUp_event (e : moduleEvents s (.bringUp m) = some t) : exec (.bringUp m) s = .next t := by
  rw [exec_bringUp, execBringUp, ← Option.some.inj e, moduleEvents.started]
  by_cases hrecovery : ((Config.firmwareImages s.free).isEmpty || !(Config.firmwareImages s.free).all (imageOk m)) = true
  · simp only [if_pos hrecovery, inRecovery]
  · simp only [if_neg hrecovery]
    cases hdies : (liveDies (tested s m) m).head? <;> simp only [tested] at hdies
    case none => simp only [hdies]
    case some d => simp only [hdies, moduleEvents.booted]

end Sys2Proof.Machine

namespace Sys2Proof.Laws

open Sys2Proof.Machine

/-- Settles O60: each row of the table is what its event does. -/
theorem moduleEvents : Obligations.ModuleEvents := by
  intro i s t e
  cases i with
  | thermalStep => exact thermalStep_event e
  | powerCapStep => exact powerCapStep_event e
  | powerCapSetting => exact powerCapSetting_event e
  | channelSparing => exact channelSparing_event e
  | uncorrectableError => exact uncorrectableError_event e
  | warmReset => exact execWarmReset_due e
  | bringUp => exact bringUp_event e
  | thermalTrip | mchk => exact congrArg Host.Outcome.next (Option.some.inj e)
  | _ => cases e

end Sys2Proof.Laws
end

section
/-!
The modules of a gang: each row of the table is what its event does.
-/

namespace Sys2Proof.Machine

variable {s t : State} {act m i gang : Nat}

/-! Timed actions (R283, R289, R318, R321, R326). -/

/-- An action goes on at once where nothing of its context area has to be asked for. -/
theorem withContext_here {r : Timed} {f : State → State} (hhere : contextUnits s r = []) : withContext s r f = f s := by
  rw [withContext, hhere]

/-- A held record that its module may begin does so, as an event of its own kind. -/
theorem timedEvent_begins (e : gangEvents.begins s act m i = some t) : timedEvent act m i s = t := by
  obtain ⟨r, hr, e⟩ := Option.bind_eq_some_iff.1 e
  obtain ⟨hgo, rfl⟩ := due_eq_some.1 e
  obtain ⟨hbegin, hhere⟩ := Bool.and_eq_true_iff.1 hgo
  obtain ⟨hact, hmay⟩ := Bool.and_eq_true_iff.1 hbegin
  simp only [timedEvent, hr, beq_iff_eq.1 hact, hmay, decide_true, Bool.and_true, if_true]
  exact withContext_here (List.isEmpty_iff.1 hhere)

/-! What the modules tell each other (R327, R328, R330, R334). -/

theorem gangReport_event (e : gangEvents s (.gangReport i) = some t) : exec (.gangReport i) s = .next t := by
  dsimp only [gangEvents] at e
  split at e
  · next dest n r hmsg =>
    obtain ⟨x, hx, rfl⟩ := Option.map_eq_some_iff.1 e
    simp only [exec_gangReport, execGangReport, hmsg, hx]
  · cases e

theorem reportDeadline_event (e : gangEvents s (.reportDeadline m gang) = some t) : exec (.reportDeadline m gang) s = .next t := by
  obtain ⟨x, hx, rfl⟩ := Option.map_eq_some_iff.1 e
  simp only [exec_reportDeadline, execReportDeadline, hx]

/-- A token is for a module whose clock runs free: as the message is taken, the clock stays what it was. -/
theorem switchToken_event (e : gangEvents s (.switchToken i) = some t) : exec (.switchToken i) s = .next t := by
  dsimp only [gangEvents] at e
  split at e
  · next dest n hmsg =>
    obtain ⟨hfree, rfl⟩ := due_eq_some.1 e
    have hclock : (moduleOf s dest).unit.clock = .free := beq_iff_eq.1 hfree
    simp only [exec_switchToken, execSwitchToken, hmsg, hclock, bne_self_eq_false, Bool.false_eq_true, if_false]
  · cases e

/-- A release message is heard once its module has made the grid. -/
theorem releaseMessage_event (e : gangEvents s (.releaseMessage i) = some t) : exec (.releaseMessage i) s = .next t := by
  dsimp only [gangEvents] at e
  split at e
  · next dest n order j hmsg =>
    obtain ⟨g, hg, e⟩ := Option.bind_eq_some_iff.1 e
    obtain ⟨hmade, rfl⟩ := due_eq_some.1 e
    rw [Bool.not_eq_true'] at hmade
    simp only [exec_releaseMessage, execReleaseMessage, hmsg, hmade, hg, Bool.false_eq_true, if_false,
      gangEvents.released]
  · cases e

theorem shareComplete_event (e : gangEvents s (.shareComplete i) = some t) : exec (.shareComplete i) s = .next t := by
  dsimp only [gangEvents] at e
  split at e
  · next dest n order pos hmsg =>
    obtain ⟨g, hg, e⟩ := Option.bind_eq_some_iff.1 e
    obtain ⟨hmade, rfl⟩ := due_eq_some.1 e
    rw [Bool.not_eq_true'] at hmade
    simp only [exec_shareComplete, execShareComplete, hmsg, hmade, hg, Bool.false_eq_true, if_false]
  · cases e

/-- The end of a grid is heard by the grid, or kept for the record that a take has made of it. -/
theorem gridComplete_event (e : gangEvents s (.gridComplete i) = some t) : exec (.gridComplete i) s = .next t := by
  dsimp only [gangEvents] at e
  split at e
  · next dest n order g key hmsg =>
    rw [← Option.some.inj e]
    cases hgrid : gangGrid s dest n order <;> simp only [exec_gridComplete, execGridComplete, hmsg, hgrid]
  · cases e

end Sys2Proof.Machine

namespace Sys2Proof.Laws

open Sys2Proof.Machine

/-- Settles O58: each row of the table is what its event does. -/
theorem gangEvents : Obligations.GangEvents := by
  intro i s t e
  cases i with
  | timedLaunch | preEmpt | resume => exact congrArg Host.Outcome.next (timedEvent_begins e)
  | gangReport => exact gangReport_event e
  | reportDeadline => exact reportDeadline_event e
  | switchToken => exact switchToken_event e
  | releaseMessage => exact releaseMessage_event e
  | shareComplete => exact shareComplete_event e
  | gridComplete => exact gridComplete_event e
  | _ => cases e

end Sys2Proof.Laws
end

section
/-!
The invariants of steps at reset.
-/

namespace Sys2Proof.Machine

/-- Settles O11: at reset nothing is listed in memory, one hart there is, and no store is on its way. -/
theorem resetInvariants : Obligations.ResetInvariants :=
  ⟨rfl, List.nodup_singleton _, List.nodup_nil, List.forall_mem_nil _⟩

end Sys2Proof.Machine
end

section
/-!
The host's reads of the BAR (R354).
-/

namespace Sys2Proof.Machine

variable {x : HostState} {off : Nat}

theorem barRead_unaligned (h : off % 8 ≠ 0) : barRead x off = 0 := if_pos h

theorem barRead_mailbox (h : off % 8 = 0) (hlow : off < 0x1000000) : barRead x off = (assocGet x.mailbox off).getD 0 :=
  (if_neg (not_not.2 h)).trans (if_pos hlow)

/-- Past MBXDONE there is no register. -/
theorem barRead_past (h : 0x1000050 ≤ off) : barRead x off = 0 := by
  rw [barRead, if_neg (show ¬ off < 0x1000000 by omega), ite_self] <;> omega

/-- DMASTAT: ERR in bit 0, and BUSY in bit 1 while a descriptor is due. -/
theorem barRead_dmastat : barRead x 0x1000028 = natWord (x.err.toNat + 2 * (dmaDue x).toNat) := by
  show (if x.err then 1 else 0) + (if dmaDue x then 2 else 0) = _
  cases x.err <;> cases dmaDue x <;> rfl

/-- Settles O51: an access is unaligned, in a mailbox, at a register, or past them. -/
theorem barReads : Obligations.BarReads := by
  intro x off
  have hen : barRead x 0x1000020 = natWord x.en.toNat := by
    show (if x.en then 1 else 0) = _
    cases x.en <;> rfl
  exact ⟨barRead_unaligned, barRead_past, barRead_mailbox, rfl, rfl, rfl, rfl, hen, barRead_dmastat, rfl, rfl, rfl, rfl⟩

end Sys2Proof.Machine
end

section
/-!
The host interface, clocks, links and combined requests: each row of the tables is what its event does.
-/

namespace Sys2Proof.Machine

variable {s t : State} {m port i : Nat}

/-! The host (R350 to R355, R362). -/

/-- A write of the host while its link is up. -/
theorem hostWrite_due {f : HostState → HostState} (e : hostEvents.written s m f = some t) : hostWrite s m f = .next t := by
  obtain ⟨hup, rfl⟩ := due_eq_some.1 e
  exact if_pos hup

theorem dmaDescriptor_event (e : hostEvents s (.dmaDescriptor m) = some t) : exec (.dmaDescriptor m) s = .next t := by
  dsimp only [hostEvents] at e
  split at e
  · next hgo =>
    obtain ⟨hdue, hruns⟩ := Bool.and_eq_true_iff.1 hgo
    rw [Bool.not_eq_true'] at hruns
    obtain ⟨u, hu, rfl⟩ := granted_eq_some e
    simp only [exec_dmaDescriptor, execDmaDescriptor, hdue, hruns, hu, Bool.not_true, Bool.or_self, Bool.false_eq_true, if_false,
      hostEvents.performed]
  · cases e

theorem hostLinkRetraining_event (e : hostEvents s (.hostLinkRetraining m) = some t) : exec (.hostLinkRetraining m) s = .next t := by
  obtain ⟨hin, rfl⟩ := due_eq_some.1 e
  exact if_neg (by simpa using hin)

theorem attestationRequest_event {nonce : Word} (e : hostEvents s (.attestationRequest m nonce) = some t) :
    exec (.attestationRequest m nonce) s = .next t := by
  rw [exec_attestationRequest, execAttestationRequest, ← Option.some.inj e]
  cases (moduleOf s m).host.bells.head? <;> rfl

/-! The clock (R323, R324). -/

theorem ptpSync_event {offset : Int} {usable : Bool} (e : linkEvents s (.ptpSync m offset usable) = some t) :
    exec (.ptpSync m offset usable) s = .next t := by
  cases usable <;> exact congrArg Host.Outcome.next (Option.some.inj e)

theorem holdover_event (e : linkEvents s (.holdover m) = some t) : exec (.holdover m) s = .next t := by
  obtain ⟨hmissed, rfl⟩ := due_eq_some.1 e
  exact if_pos hmissed

theorem freeRunning_event (e : linkEvents s (.freeRunning m) = some t) : exec (.freeRunning m) s = .next t := by
  obtain ⟨hlasted, rfl⟩ := due_eq_some.1 e
  exact if_pos hlasted

theorem timeStep_event {n : Nat} (e : linkEvents s (.timeStep m n) = some t) : exec (.timeStep m n) s = .next t := by
  obtain ⟨hfar, rfl⟩ := due_eq_some.1 e
  exact if_pos (of_decide_eq_true hfar)

/-! Links (R340 to R346). -/

theorem flitReceive_event {x : Flit} {crc : BitVec 32} (e : linkEvents s (.flitReceive m port x crc) = some t) :
    exec (.flitReceive m port x crc) s = .next t := by
  dsimp only [linkEvents] at e
  obtain ⟨k, hk, e⟩ := Option.bind_eq_some_iff.1 e
  obtain ⟨q, hq, e⟩ := Option.bind_eq_some_iff.1 e
  obtain ⟨hgo, rfl⟩ := due_eq_some.1 e
  obtain ⟨hup, hleave⟩ := Bool.and_eq_true_iff.1 hgo
  obtain ⟨hhere, hfar⟩ := Bool.and_eq_true_iff.1 hup
  simp only [exec_flitReceive, execFlitReceive, hk, hq, hhere, hfar, hleave, Bool.not_true, Bool.or_self, Bool.false_eq_true, if_false,
    linkEvents.taken]
  split <;> rfl

/-- The two ends agree where their views are equal. -/
theorem trainPort_eq {mine peer : LinkView} : trainPort s m port mine peer = linkEvents.trained s m port mine (decide (mine = peer)) := by
  by_cases hviews : mine = peer
  · simp only [trainPort, linkEvents.trained, hviews, decide_true, if_true]
  · simp only [trainPort, linkEvents.trained, hviews, decide_false, Bool.false_eq_true, if_false]

theorem linkTraining_event {mine peer : LinkView} (e : linkEvents s (.linkTraining m port mine peer) = some t) :
    exec (.linkTraining m port mine peer) s = .next t := by
  obtain ⟨hpeer, rfl⟩ := due_eq_some.1 e
  rw [exec_linkTraining, execLinkTraining, trainPort_eq]
  exact if_neg (by simpa [Option.isSome_iff_ne_none] using hpeer)

/-! Combined requests (R350, R351). -/

theorem weltCombiningWindow_event {d : Nat} {ops : List (Hart × Nat)} (e : linkEvents s (.weltCombiningWindow d ops) = some t) :
    exec (.weltCombiningWindow d ops) s = .next t := by
  dsimp only [linkEvents] at e
  obtain ⟨x, hfirst, e⟩ := Option.bind_eq_some_iff.1 e
  obtain ⟨⟨fn, width, pa⟩, hask, rfl⟩ := Option.map_eq_some_iff.1 e
  simp only [exec_weltCombiningWindow, execWeltCombiningWindow, hfirst, hask]

theorem combinedRequest_event (e : linkEvents s (.combinedRequest i) = some t) : exec (.combinedRequest i) s = .next t := by
  dsimp only [linkEvents] at e
  obtain ⟨c, hc, e⟩ := Option.bind_eq_some_iff.1 e
  simp only [exec_combinedRequest, execCombinedRequest, hc]
  split at e
  · next hlate => exact (if_pos hlate).trans (congrArg _ (Option.some.inj e))
  · next hlate =>
    obtain ⟨u, hu, rfl⟩ := granted_eq_some e
    rw [if_neg hlate, hu]

theorem weltQuery_event (e : linkEvents s (.weltQuery i) = some t) : exec (.weltQuery i) s = .next t := by
  dsimp only [linkEvents] at e
  obtain ⟨c, hc, e⟩ := Option.bind_eq_some_iff.1 e
  obtain ⟨hpast, rfl⟩ := due_eq_some.1 e
  simp only [exec_weltQuery, execWeltQuery, hc]
  exact if_neg (not_lt.2 (of_decide_eq_true hpast))

/-! The two tables. -/

/-- Each row of the host's table is what its event does. -/
theorem hostEvents_exec {i : Instr} (e : hostEvents s i = some t) : exec i s = .next t := by
  cases i with
  | dmatail | dmactlEn | dmactlReset | dmastatErrClear | mbxbell | mbxdoneClear | registerWrite =>
    dsimp only [hostEvents] at e
    exact hostWrite_due e
  | dmaDescriptor => exact dmaDescriptor_event e
  | hostLinkRetraining => exact hostLinkRetraining_event e
  | hostLinkDown => exact congrArg Host.Outcome.next (Option.some.inj e)
  | attestationRequest => exact attestationRequest_event e
  | _ => cases e

/-- Each row of the table of clocks, links and combined requests is what its event does. -/
theorem linkEvents_exec {i : Instr} (e : linkEvents s i = some t) : exec i s = .next t := by
  cases i with
  | ptpSync => exact ptpSync_event e
  | holdover => exact holdover_event e
  | freeRunning => exact freeRunning_event e
  | timeStep => exact timeStep_event e
  | flitReceive => exact flitReceive_event e
  | linkTraining => exact linkTraining_event e
  | routeUpdate => exact congrArg Host.Outcome.next (Option.some.inj e)
  | weltCombiningWindow => exact weltCombiningWindow_event e
  | combinedRequest => exact combinedRequest_event e
  | weltQuery => exact weltQuery_event e
  | _ => cases e

/-- Settles O59: each row of the two tables is what its event does. -/
theorem hostAndLinkEvents : Obligations.HostAndLinkEvents := fun _ _ _ e => e.elim hostEvents_exec linkEvents_exec

end Sys2Proof.Machine
end
